-- ==== Sys2Proof/Word.lean ====
section
/-! DEFINITION. The word and byte types and their plainest bit-field arithmetic (00 R3, R4: little-endian, 32-bit
peripheral registers). -/

namespace Sys2Proof

/-- A register word: every peripheral register is 32 bits wide (00 R4). -/
abbrev Word := BitVec 32

/-- A byte of memory. -/
abbrev Byte := BitVec 8

/-- The bit field of `w` bits at bit `lo`, as a number (`[lo + w - 1 : lo]` in the manual's notation). -/
def Word.fld (v : Word) (lo w : Nat) : Nat := (v.toNat >>> lo) % 2 ^ w

/-- Bit `i` of a word. -/
def Word.bit (v : Word) (i : Nat) : Bool := v.getLsbD i

/-- A mask with ones in the `w` bits at bit `lo`. -/
def Word.mask (lo w : Nat) : Word := BitVec.ofNat 32 ((2 ^ w - 1) <<< lo)

/-- `v` with the field of `w` bits at `lo` replaced by `x` (taken modulo `2 ^ w`). -/
def Word.withFld (v : Word) (lo w x : Nat) : Word :=
  (v &&& ~~~ Word.mask lo w) ||| BitVec.ofNat 32 ((x % 2 ^ w) <<< lo)

/-- `v` with bit `i` set to `b`. -/
def Word.withBit (v : Word) (i : Nat) (b : Bool) : Word := v.withFld i 1 b.toNat

/-- The word of four bytes, lowest address first (00 R3). -/
def Word.ofBytes (b0 b1 b2 b3 : Byte) : Word := b3 ++ b2 ++ b1 ++ b0

/-- Byte `i` of a word, byte 0 the least significant (00 R3). -/
def Word.byte (v : Word) (i : Nat) : Byte := v.extractLsb' (8 * i) 8

/-- Clamp of an integer to the signed 32-bit range (08 R192 `sat`, 12 R283 `sat32`). -/
def sat32 (x : Int) : Int := min (max x (-(2 ^ 31))) (2 ^ 31 - 1)

/-- The integer read from a list of bytes, the first byte least significant. -/
def leNat : List Byte → Nat
  | [] => 0
  | b :: bs => b.toNat + 256 * leNat bs

/-- The `n` bytes of a number, least significant first. -/
def leBytes (n x : Nat) : List Byte :=
  match n with
  | 0 => []
  | k + 1 => BitVec.ofNat 8 x :: leBytes k (x / 256)

end Sys2Proof
end

