-- ==== Sys2Proof/Syntax.lean ====
section
/-! DEFINITION. The commands of the block: one constructor per row of spec/opcode_table.json (386 rows), with the
operands each row's rule gives it. No row carries bits, so a command is its constructor and operands. -/

namespace Sys2Proof

/-- A core (11 R274 gives each its bit in the SEV mask). Triton is one core to the rest of the device (14). -/
inductive CoreId where
  | triton
  | app (i : Fin 4)
  | mge
  | le (n : Fin 24)
  deriving DecidableEq, Repr

/-- The bit of the core in the SEV mask, which RDSR CORE returns (11 R274, R252). -/
def CoreId.code : CoreId → Nat
  | .triton => 0
  | .app i => 1 + i.val
  | .mge => 5
  | .le n => 8 + n.val

/-- NK-S cores are the loop engines and the MGE; the others are NK-L (11 R248). -/
def CoreId.isNKS : CoreId → Bool
  | .mge => true
  | .le _ => true
  | _ => false

/-- The initiator of a register or memory access (01 R11, R12; 03 R72 names the identities with their own copies). -/
inductive Initiator where
  | triton
  | app (i : Fin 4)
  | mge
  | le (n : Fin 24)
  | dma0
  | dma1 (c : Fin 32)
  | link
  deriving DecidableEq, Repr

/-- A port of the Larrath link (16). -/
inductive Port where
  | up
  | dn
  deriving DecidableEq, Repr

/-- The three planes of traffic (01 R12). -/
inductive Plane where
  | control
  | management
  | data
  deriving DecidableEq, Repr

/-- What every Nalruek instruction carries: the core that executes it (in its running bank), its condition code
(11 R254) and its length in bytes (11 R258, R263). -/
structure Hdr where
  core : CoreId
  cond : BitVec 4
  len  : Nat
  deriving DecidableEq, Repr

/-- A 66-bit block of a lane once it is descrambled (16 R365): the sync header with the bit first transmitted as bit 0, and eight
octets with octet 0 lowest. A slot holds one block for each active lane, lane 0 first (R366). -/
structure Block where
  head : BitVec 2
  body : BitVec 64
  deriving DecidableEq, Repr

abbrev Slot := List Block

/-- One access of the TAP to the debug module (18 R432, R434). -/
inductive DebugAccess where
  | readReg (core : CoreId) (bank : Fin 8) (r : Fin 32)
  | readRestart (core : CoreId) (bank : Fin 8) (i : Fin 4)
  | readMem (addr : Word)
  | writeMem (addr : Word) (v : Word)
  | readLaneReg (lane : Fin 3) (bank : Fin 8) (r : Fin 32)
  | readLaneMem (lane : Fin 3) (addr : BitVec 17)
  deriving DecidableEq, Repr

/-- The instruction that a repeat prefix stands before: its bytes, and whether it may be repeated (11 R268). -/
structure RepPair where
  len : Nat
  ok : Bool
  deriving DecidableEq, Repr

/-- A vote that a lane's copy of a synchroniser input has lost, after `lost` in a row (14 R331, R333). -/
structure LostVote where
  lane : Fin 3
  input : Nat
  lost : Nat
  deriving DecidableEq, Repr

/-- What one receiver lane of a port hears in training: its polarity, its skew, and the slots of a training frame (16 R365 to R368). -/
structure LaneHeard where
  lane : Fin 4
  inverted : Bool
  skew : BitVec 16
  slots : List Slot
  deriving DecidableEq, Repr

/-- A port whose lane loses block lock or, with `ber`, reports high BER (16 R370). -/
structure LaneLoss where
  port : Port
  ber : Bool
  deriving DecidableEq, Repr

/-- An Ethernet frame at a MAC (16 R385). -/
structure MacFrame where
  mac : Bool
  dst : BitVec 48
  etype : BitVec 16
  payload : List Byte
  deriving DecidableEq, Repr

/-- The commands of the block, in the order of spec/opcode_table.json. `ini` is the initiator of a register access,
`v` the word written, `phi` the fine tick of an instant within the cycle (03 R80), `h` the header of an instruction. -/
inductive Instr where
  | registerWrite (ini : Initiator) (addr : Word) (v : Word)
  | fabricGrant (t : Fin 10) (reqs : BitVec 12)
  -- phase bases and capture (02)
  | pbEnable (ini : Initiator) (p : Fin 8) (v : Word)
  | pbDisable (ini : Initiator) (p : Fin 8) (v : Word)
  | acq (ini : Initiator) (p : Fin 8) (v : Word)
  | pbAng (ini : Initiator) (p : Fin 8) (v : Word)
  | encCount (p : Fin 8) (a b : Bool)
  | indexEdge (p : Fin 8)
  | hallChange (p : Fin 8) (st : BitVec 3)
  | strobe (p : Fin 8)
  | trackerSample (p : Fin 8) (sn cs : BitVec 16)
  | trackerSampleTimeout (p : Fin 8)
  | gridSample (p : Fin 8) (x : BitVec 16)
  | disciplinePulse (p : Fin 8)
  | pbSwang (ini : Initiator) (p : Fin 8) (v : Word)
  | pbSwvel (ini : Initiator) (p : Fin 8) (v : Word)
  | updateApply (p : Fin 8)
  | slewEnd (p : Fin 8)
  | pbTimeout (p : Fin 8)
  | revolution (p : Fin 8) (back : Bool)
  | captureEdge (c : Fin 64) (rise : Bool)
  | capRdt (ini : Initiator) (c : Fin 64)
  -- scheduler (03)
  | schIns3 (ini : Initiator) (v : Word)
  | insertionService
  | schRem (ini : Initiator) (v : Word)
  | removalService
  | schEn (ini : Initiator) (p : Fin 8) (v : Word)
  | arm (p : Fin 8)
  | resume (ini : Initiator) (p : Fin 8) (v : Word)
  | binCrossing (p : Fin 8)
  | actionLoad (p : Fin 8)
  | reinsertion (p : Fin 8)
  | sweep (p : Fin 8)
  | eviction (p : Fin 8)
  | nopAction (hd : Fin 131072) (phi : Fin 32) (back : Bool)
  | adcStart (hd : Fin 131072) (phi : Fin 32) (back : Bool)
  | pwmEdge (hd : Fin 131072) (phi : Fin 32) (back : Bool)
  | pwmCommit (hd : Fin 131072) (phi : Fin 32) (back : Bool)
  | emit (hd : Fin 131072) (phi : Fin 32) (back : Bool)
  | gpioSet (hd : Fin 131072) (phi : Fin 32) (back : Bool)
  | gpioClr (hd : Fin 131072) (phi : Fin 32) (back : Bool)
  | gpioTog (hd : Fin 131072) (phi : Fin 32) (back : Bool)
  | dmaStart (hd : Fin 131072) (phi : Fin 32) (back : Bool)
  | wake (hd : Fin 131072) (phi : Fin 32) (back : Bool)
  | peaWrite (hd : Fin 131072) (phi : Fin 32) (back : Bool)
  -- PWM channels (04)
  | pwmEnable (ini : Initiator) (n : Fin 96) (v : Word)
  | pwmDisable (ini : Initiator) (n : Fin 96) (v : Word)
  | zro (n : Fin 96) (phi : Fin 32)
  | prd (n : Fin 96) (phi : Fin 32)
  | compareEvent (n : Fin 96) (x : Fin 4) (down : Bool) (phi : Fin 32)
  | deadBandEnd (n : Fin 96) (outB : Bool) (phi : Fin 32)
  | minimumPulseEnd (n : Fin 96) (outB : Bool) (phi : Fin 32)
  | sync (n : Fin 96) (chain : Bool)
  | syncDeadline (n : Fin 96)
  | delayLineReplace (pos : Fin 192) (quiet : Bool)
  | pwmIps (ini : Initiator) (n : Fin 96) (v : Word)
  | pwmXbar (ini : Initiator) (pos : Fin 192) (v : Word)
  | pwmSafe (ini : Initiator) (n : Fin 96) (v : Word)
  -- commit, trips, safe state (05)
  | shadowWrite (ini : Initiator) (n : Fin 96) (k : Fin 8) (v : Word)
  | close (ini : Initiator) (n : Fin 96) (v : Word)
  | flush (ini : Initiator) (n : Fin 96) (v : Word)
  | pwmCmtcfg (ini : Initiator) (n : Fin 96) (v : Word)
  | sqpush (ini : Initiator) (n : Fin 96) (v : Word)
  | tripInputActive (s : Fin 12) (i : Fin 8)
  | tripclr (ini : Initiator) (n : Fin 96) (v : Word)
  | halt (c : CoreId)
  | debugResume (c : CoreId)
  -- converters (06)
  | adcTrigger (k : Fin 32) (t : Fin 2)
  | adcSwstart (ini : Initiator) (k : Fin 32) (v : Word)
  | sampleInstant (k : Fin 32)
  | conversionComplete (k : Fin 32)
  | adcEnable (ini : Initiator) (k : Fin 32) (v : Word)
  | adcReady (k : Fin 32)
  | adcDisable (ini : Initiator) (k : Fin 32) (v : Word)
  | adcQpopl (ini : Initiator) (k : Fin 32)
  | adcResl (ini : Initiator) (k : Fin 32) (j : Fin 8)
  | adcCnt (ini : Initiator) (k : Fin 32)
  | sdmOutput (k : Fin 32) (bits : List Bool)
  | sdmSync (g : Fin 8)
  | fastPathThreshold (k : Fin 32) (bits : List Bool)
  | fastPathSettled (k : Fin 32)
  | sdmClkloss (k : Fin 32)
  | stuck (k : Fin 32)
  | sdmQpopl (ini : Initiator) (k : Fin 32)
  -- window comparators (07)
  | winEnable (ini : Initiator) (w : Fin 96) (v : Word)
  | winRestart (ini : Initiator) (w : Fin 96) (v : Word)
  | winDisable (ini : Initiator) (w : Fin 96) (v : Word)
  | winSettled (w : Fin 96)
  | winStateChange (w : Fin 96) (l u : Bool)
  | winThr (ini : Initiator) (w : Fin 96) (reg : Fin 3) (v : Word)
  | lpWindowWake (w : Fin 8) (l u : Bool)
  -- express lanes (08)
  | xlEnable (ini : Initiator) (s : Fin 12) (v : Word)
  | xlDisable (ini : Initiator) (s : Fin 12) (v : Word)
  | pairWindow (s : Fin 12)
  | foc3Result (s : Fin 12)
  | scalar4Result (s : Fin 12) (l : Fin 4)
  | peak2Result (s : Fin 12) (l : Fin 2)
  | irst (ini : Initiator) (s : Fin 12) (v : Word)
  | xlCnt (ini : Initiator) (s : Fin 12)
  -- loop engines and the Pea store (09)
  | leRun (ini : Initiator) (n : Fin 24) (v : Word)
  | peaPortAccess (n : Fin 24) (w : Fin 512) (wr : Option Word)
  | peaSharedAccess (ini : Initiator) (w : Fin 512) (wr : Option Word)
  | peaCmt (ini : Initiator) (v : Word)
  | peaAlloc (ini : Initiator) (w : Fin 512) (v : Word)
  -- event matrix (10)
  | consumerPulse (c : Fin 384)
  | evmGcfg (ini : Initiator) (g : Fin 32) (v : Word)
  | evmLgstat (ini : Initiator) (v : Word)
  -- Nalruek instructions (11, 12)
  | add (h : Hdr) (rd ra rb : Fin 32)
  | adc (h : Hdr) (rd ra rb : Fin 32)
  | sub (h : Hdr) (rd ra rb : Fin 32)
  | sbc (h : Hdr) (rd ra rb : Fin 32)
  | and (h : Hdr) (rd ra rb : Fin 32)
  | or (h : Hdr) (rd ra rb : Fin 32)
  | xor (h : Hdr) (rd ra rb : Fin 32)
  | bic (h : Hdr) (rd ra rb : Fin 32)
  | lsl (h : Hdr) (rd ra rb : Fin 32)
  | lsr (h : Hdr) (rd ra rb : Fin 32)
  | asr (h : Hdr) (rd ra rb : Fin 32)
  | ror (h : Hdr) (rd ra rb : Fin 32)
  | min (h : Hdr) (rd ra rb : Fin 32)
  | max (h : Hdr) (rd ra rb : Fin 32)
  | minu (h : Hdr) (rd ra rb : Fin 32)
  | maxu (h : Hdr) (rd ra rb : Fin 32)
  | cmp (h : Hdr) (ra rb : Fin 32)
  | cmpu (h : Hdr) (ra rb : Fin 32)
  | tst (h : Hdr) (ra rb : Fin 32)
  | mov (h : Hdr) (w : Bool) (rd ra : Fin 32)
  | sxtb (h : Hdr) (rd ra : Fin 32)
  | sxth (h : Hdr) (rd ra : Fin 32)
  | zxtb (h : Hdr) (rd ra : Fin 32)
  | zxth (h : Hdr) (rd ra : Fin 32)
  | clz (h : Hdr) (rd ra : Fin 32)
  | neg (h : Hdr) (rd ra : Fin 32)
  | abs (h : Hdr) (rd ra : Fin 32)
  | movfh (h : Hdr) (rd ra : Fin 16)
  | movth (h : Hdr) (rd ra : Fin 16)
  | addi (h : Hdr) (rd ra : Fin 32) (imm : Word)
  | subi (h : Hdr) (rd : Fin 32) (imm : Word)
  | andi (h : Hdr) (rd ra : Fin 32) (imm : Word)
  | ori (h : Hdr) (rd ra : Fin 32) (imm : Word)
  | xori (h : Hdr) (rd ra : Fin 32) (imm : Word)
  | lsli (h : Hdr) (rd ra : Fin 32) (imm : Word)
  | lsri (h : Hdr) (rd ra : Fin 32) (imm : Word)
  | asri (h : Hdr) (rd ra : Fin 32) (imm : Word)
  | rori (h : Hdr) (rd ra : Fin 32) (imm : Word)
  | cmpi (h : Hdr) (ra : Fin 32) (imm : Word)
  | cmpui (h : Hdr) (ra : Fin 32) (imm : Word)
  | muli (h : Hdr) (rd ra : Fin 32) (imm : Word)
  | movi (h : Hdr) (rd : Fin 32) (imm : Word)
  | movhi (h : Hdr) (rd : Fin 32) (imm : BitVec 16)
  | addiw (h : Hdr) (rd : Fin 32) (imm : Word)
  | addsp (h : Hdr) (off : Word)
  | mul (h : Hdr) (rd ra rb : Fin 32)
  | mulh (h : Hdr) (rd ra rb : Fin 32)
  | mulhu (h : Hdr) (rd ra rb : Fin 32)
  | div (h : Hdr) (rd ra rb : Fin 32)
  | divu (h : Hdr) (rd ra rb : Fin 32)
  | rem (h : Hdr) (rd ra rb : Fin 32)
  | remu (h : Hdr) (rd ra rb : Fin 32)
  | adds (h : Hdr) (rd ra rb : Fin 32)
  | subs (h : Hdr) (rd ra rb : Fin 32)
  | negs (h : Hdr) (rd ra : Fin 32)
  | abss (h : Hdr) (rd ra : Fin 32)
  | divs (h : Hdr) (rd ra rb : Fin 32)
  | mulq31 (h : Hdr) (rd ra rb : Fin 32)
  | mulq15 (h : Hdr) (rd ra rb : Fin 32)
  | mac (h : Hdr) (ac : Fin 2) (ra rb : Fin 32)
  | msu (h : Hdr) (ac : Fin 2) (ra rb : Fin 32)
  | aclr (h : Hdr) (ac : Fin 2)
  | acsh (h : Hdr) (ac : Fin 2) (ra : Fin 32)
  | acrd (h : Hdr) (rd : Fin 32) (ac : Fin 2) (ra : Fin 32)
  | acwr (h : Hdr) (ac : Fin 2) (ra : Fin 32)
  | ldb (h : Hdr) (rd ra : Fin 32) (off : Word)
  | ldbu (h : Hdr) (rd ra : Fin 32) (off : Word)
  | ldh (h : Hdr) (rd ra : Fin 32) (off : Word)
  | ldhu (h : Hdr) (rd ra : Fin 32) (off : Word)
  | ldw (h : Hdr) (w : Bool) (rd ra : Fin 32) (off : Word)
  | ldf (h : Hdr) (fd ra : Fin 32) (off : Word)
  | stb (h : Hdr) (rd ra : Fin 32) (off : Word)
  | sth (h : Hdr) (rd ra : Fin 32) (off : Word)
  | stw (h : Hdr) (w : Bool) (rd ra : Fin 32) (off : Word)
  | stf (h : Hdr) (fd ra : Fin 32) (off : Word)
  | swap (h : Hdr) (rd ra rb : Fin 32)
  | cas (h : Hdr) (rd ra rb : Fin 32)
  | amoadd (h : Hdr) (rd ra rb : Fin 32)
  | amoand (h : Hdr) (rd ra rb : Fin 32)
  | amoor (h : Hdr) (rd ra rb : Fin 32)
  | br (h : Hdr) (off : Word)
  | call (h : Hdr) (off : Word)
  | jr (h : Hdr) (ra : Fin 32)
  | jlr (h : Hdr) (ra : Fin 32)
  | ret (h : Hdr)
  | callm (h : Hdr) (mask : BitVec 16) (rt : Fin 32) (off : Word)
  | retm (h : Hdr) (mask : BitVec 16)
  | nop (h : Hdr)
  | yield (h : Hdr)
  | wfe (h : Hdr)
  | rep (h : Hdr) (pair : RepPair)
  | repu (h : Hdr) (pair : RepPair)
  | setc (h : Hdr) (code : Word)
  | brk (h : Hdr)
  | trap (h : Hdr) (n : Word)
  | fence (h : Hdr)
  | fenceI (h : Hdr)
  | rte (h : Hdr)
  | rdsr (h : Hdr) (rd : Fin 32) (sr : BitVec 8)
  | wrsr (h : Hdr) (sr : BitVec 8) (ra : Fin 32)
  | sev (h : Hdr) (ra : Fin 32) (d : Word)
  | waitt (h : Hdr) (rd ra rb : Fin 32)
  | waittCondition (c : CoreId) (b : Fin 8) (abort : Bool)
  | waittTimeout (c : CoreId) (b : Fin 8)
  | fadd (h : Hdr) (half : Bool) (fd fa fb : Fin 32)
  | fsub (h : Hdr) (half : Bool) (fd fa fb : Fin 32)
  | fmul (h : Hdr) (half : Bool) (fd fa fb : Fin 32)
  | fdiv (h : Hdr) (half : Bool) (fd fa fb : Fin 32)
  | fsqrt (h : Hdr) (half : Bool) (fd fa : Fin 32)
  | fmac (h : Hdr) (half : Bool) (fd fa fb : Fin 32)
  | fmin (h : Hdr) (half : Bool) (fd fa fb : Fin 32)
  | fmax (h : Hdr) (half : Bool) (fd fa fb : Fin 32)
  | fneg (h : Hdr) (half : Bool) (fd fa : Fin 32)
  | fabs (h : Hdr) (half : Bool) (fd fa : Fin 32)
  | fcmp (h : Hdr) (fa fb : Fin 32)
  | ftoi (h : Hdr) (rd fa : Fin 32)
  | ftou (h : Hdr) (rd fa : Fin 32)
  | itof (h : Hdr) (fd ra : Fin 32)
  | utof (h : Hdr) (fd ra : Fin 32)
  | fnarrow (h : Hdr) (fd fa : Fin 32)
  | fwiden (h : Hdr) (fd fa : Fin 32)
  | fmovtg (h : Hdr) (rd fa : Fin 32)
  | fmovfg (h : Hdr) (fd ra : Fin 32)
  | fkind (h : Hdr) (rd fa : Fin 32)
  | longInstructionComplete (c : CoreId) (i : Fin 4)
  | recognition (c : CoreId)
  | bankCtl (c : CoreId) (v : Word)
  | coreLock (c : CoreId) (v : Word)
  -- Triton (14)
  | syncLimit (vote : LostVote)
  | reint (ini : Initiator) (v : Word)
  | reintAbort (ini : Initiator) (v : Word)
  | copyEnd
  | pauseEnd (odd : Bool)
  | reintDrainLimit
  | reintTimeout
  | triSynccnt (ini : Initiator)
  -- memory and DMA (15)
  | eccWriteback (id : Fin 46) (word : Nat)
  | scrubStep (id : Fin 46)
  | memLoga (ini : Initiator)
  | memCecnt (ini : Initiator)
  | memUecnt (ini : Initiator)
  | dmaCcfg (ini : Initiator) (u : Fin 2) (c : Fin 32) (v : Word)
  | dmaReset (ini : Initiator) (u : Fin 2) (c : Fin 32) (v : Word)
  | dmaAbort (ini : Initiator) (u : Fin 2) (c : Fin 32) (v : Word)
  | abortComplete (u : Fin 2) (c : Fin 32)
  | dmaCdb (ini : Initiator) (u : Fin 2) (c : Fin 32) (v : Word)
  | dmaTrigger (u : Fin 2) (c : Fin 32)
  | descriptorFetch (u : Fin 2) (c : Fin 32)
  | dmaReadBurst (u : Fin 2)
  | dmaWriteBurst (u : Fin 2)
  | linkWordRead (u : Fin 2) (c : Fin 32)
  | descriptorComplete (u : Fin 2) (c : Fin 32)
  -- Larrath link (16)
  | train (port : Port) (heard : LaneHeard)
  | trainingPhaseEnd (port : Port)
  | phaseTimeout (port : Port)
  | silentIntervalEnd (port : Port)
  | retryTimeout (port : Port)
  | lockLoss (loss : LaneLoss)
  | retrain (ini : Initiator) (port : Port) (v : Word)
  | llPctl (ini : Initiator) (port : Port) (v : Word)
  | pea (port : Port) (slots : List Slot)
  | command (port : Port) (slots : List Slot)
  | reply (port : Port) (slots : List Slot)
  | enum (port : Port) (slots : List Slot)
  | writeFrame (port : Port) (slots : List Slot)
  | statusFrame (port : Port) (slots : List Slot)
  | frameTransmit (port : Port)
  | controlHoldTimeout (port : Port)
  | replayTimeout (port : Port) (dataPlane : Bool)
  | statusTimer (port : Port)
  | nakTimeout (port : Port) (dataPlane : Bool)
  | llTxq (ini : Initiator) (v : Word)
  | llWakectl (ini : Initiator) (v : Word)
  | linkWake (port : Port)
  | bridgeReceive (frame : MacFrame)
  | llCrccnt (ini : Initiator) (port : Port)
  | llCtlcnt (ini : Initiator) (port : Port)
  | llReplcnt (ini : Initiator) (port : Port)
  | llDropcnt (ini : Initiator) (port : Port)
  | llBrcnt (ini : Initiator)
  -- command interface (17): each carries the whole command packet (R389)
  | ping (pkt : List Byte)
  | enumerate (pkt : List Byte)
  | identify (pkt : List Byte)
  | sessionOpen (pkt : List Byte)
  | sessionOpenComplete
  | sessionConfirm (pkt : List Byte)
  | loadBegin (pkt : List Byte)
  | loadSegment (pkt : List Byte)
  | loadEnd (pkt : List Byte)
  | loadEndComplete
  | applyConfig (pkt : List Byte)
  | applyConfigComplete
  | seal (pkt : List Byte)
  | start (pkt : List Byte)
  | stop (pkt : List Byte)
  | read (pkt : List Byte)
  | write (pkt : List Byte)
  | readBlock (pkt : List Byte)
  | status (pkt : List Byte)
  | faultLog (pkt : List Byte)
  | clearFault (pkt : List Byte)
  | sliceDrain (pkt : List Byte)
  | sliceDrainComplete
  | drainLimit (n : Fin 96)
  | sliceLoad (pkt : List Byte)
  | sliceLoadComplete
  | sliceVerify (pkt : List Byte)
  | sliceVerifyComplete
  | sliceResume (pkt : List Byte)
  | sliceFence (pkt : List Byte)
  | sliceSubstitute (pkt : List Byte)
  | tritonReintegrate (pkt : List Byte)
  | debugUnlock (pkt : List Byte)
  | heartbeat (pkt : List Byte)
  | reset (pkt : List Byte)
  | heartbeatExpiry
  | cmdRejcnt (ini : Initiator)
  -- security (18)
  | fuseProgram (ini : Initiator) (v : Word)
  | fuseProgramComplete
  | secRevoke (ini : Initiator) (v : Word)
  | secRng (ini : Initiator)
  | rngHealthFailure
  | bypass
  | idcode
  | samplePreload (load : Option (List Bool))
  | extest
  | clamp
  | highz
  -- pins (19)
  | gpioPin (ini : Initiator) (n : Fin 1024) (v : Word)
  | pinLevelChange (n : Fin 1024) (level : Bool)
  | evoutEnd (j : Fin 8)
  | bankSupplyFail (b : Fin 16)
  | bankSupplyReturn (b : Fin 16) (v33 : Bool)
  | wakePin (k : Fin 64) (level : Bool)
  -- network (20)
  | netAdj (ini : Initiator) (v : Word)
  | netSets (ini : Initiator) (v : Word)
  | netTimen (ini : Initiator)
  | netTevcfg (ini : Initiator) (i : Fin 16) (reg : Fin 4) (v : Word)
  | timeEventFire (i : Fin 16)
  | netTevmiss (ini : Initiator) (i : Fin 16)
  | ethReceive (m : Fin 2) (q : Fin 8)
  | ethTransmitEnd (m : Fin 2) (q : Fin 8)
  | gateCycleStart (m : Fin 2)
  | canReceive (i : Fin 8) (filt : Fin 128)
  | sentReceive (i : Fin 16)
  | ppsEnd (k : Fin 2)
  -- power, clocks, reset, faults (21)
  | pmuPdctl (ini : Initiator) (hi : Bool) (v : Word)
  | domainPowerUp (d : Fin 56)
  | enterStandbyR (ini : Initiator) (v : Word)
  | enterStandbyO (ini : Initiator) (v : Word)
  | aonTimer
  | powerOnReset (boot : BitVec 2)
  | resetN (boot : BitVec 2)
  | supplyBelowThreshold (boot : BitVec 2)
  | resetEnd
  | sliceResetEnd (s : Fin 12)
  | clockMonitor (i : Fin 12)
  | clockMonitorEnd (i : Fin 12)
  | supplySupervisor (i : Fin 4) (begins : Bool)
  | temperatureThreshold (tj : BitVec 16)
  | fltLog0 (ini : Initiator)
  | fltLost (ini : Initiator)
  | wdgCfg (ini : Initiator) (k : Fin 8) (v : Word)
  | wdgKick (ini : Initiator) (k : Fin 8) (v : Word)
  | wdgWarn (k : Fin 8)
  | wdgExpiry (k : Fin 8)
  | millisecondTick
  | schLatecnt (ini : Initiator) (p : Fin 8)
  | schSkipcnt (ini : Initiator) (p : Fin 8)
  | pwmPulsecnt (ini : Initiator) (n : Fin 96)
  | pwmCmtcnt (ini : Initiator) (n : Fin 96)
  | clkloss
  | sdmLossEnd (k : Fin 32)
  | macLink (m : Fin 2)
  | debugModuleAccess (a : DebugAccess)
  | stuckBus (i : Fin 4)
  | serdesPllLock (port : Port)
  | standbyEntryComplete
  | standbyRResumed
  deriving DecidableEq, Repr

end Sys2Proof
end

