-- ==== Sys2Proof/Decode.lean ====
section
/-! DEFINITION. Decoding: of the opcode table's words, of which it gives none, and of the two Nalruek encodings with their
encoders (11 R255, R258 to R266; 12 R284 to R294). -/

namespace Sys2Proof

/-- The command that a word of the opcode table spells: the table gives none of its rows bits. -/
def decodeTableWord (_nbits _w : Nat) : Option Instr := none

/-! ### NK-L, 32 bits (11 R259, R260) -/

/-- The general register that a 5-bit field names, and a 4-bit field. -/
def reg5 (b : BitVec 5) : Fin 32 := b.toFin
def reg4 (b : BitVec 4) : Fin 32 := ⟨b.toNat, by omega⟩

/-- Whether an instruction may stand behind a repeat prefix (11 R268). -/
def repeatable : Instr → Bool
  | .br _ _ | .call _ _ | .jr _ _ | .jlr _ _ | .ret _ | .callm _ _ _ _ | .retm _ _ => false
  | .rte _ | .trap _ _ | .brk _ | .yield _ | .wfe _ | .waitt _ _ _ _ | .sev _ _ _ | .fence _ | .fenceI _ => false
  | .setc _ _ | .rdsr _ _ _ | .wrsr _ _ _ | .rep _ _ | .repu _ _ => false
  | _ => true

/-- An instruction's value where a field that it leaves unused is 0 (11 R262). -/
def must (b : Bool) (i : Instr) : Option Instr := if b then some i else none

/-- Integer ALU in format R, OP 0x00 (12 R284). -/
def nklAlu (h : Hdr) (rd ra rb : BitVec 5) (fn : Nat) : Option Instr :=
  let d := reg5 rd
  let a := reg5 ra
  let b := reg5 rb
  match fn with
  | 0x00 => some (.add h d a b)
  | 0x01 => some (.adc h d a b)
  | 0x02 => some (.sub h d a b)
  | 0x03 => some (.sbc h d a b)
  | 0x04 => some (.and h d a b)
  | 0x05 => some (.or h d a b)
  | 0x06 => some (.xor h d a b)
  | 0x07 => some (.bic h d a b)
  | 0x08 => some (.lsl h d a b)
  | 0x09 => some (.lsr h d a b)
  | 0x0A => some (.asr h d a b)
  | 0x0B => some (.ror h d a b)
  | 0x0C => some (.min h d a b)
  | 0x0D => some (.max h d a b)
  | 0x0E => some (.minu h d a b)
  | 0x0F => some (.maxu h d a b)
  | 0x10 => must (rd == 0) (.cmp h a b)
  | 0x11 => must (rd == 0) (.cmpu h a b)
  | 0x12 => must (rd == 0) (.tst h a b)
  | 0x13 => must (rb == 0) (.mov h false d a)
  | 0x14 => must (rb == 0) (.sxtb h d a)
  | 0x15 => must (rb == 0) (.sxth h d a)
  | 0x16 => must (rb == 0) (.zxtb h d a)
  | 0x17 => must (rb == 0) (.zxth h d a)
  | 0x18 => must (rb == 0) (.clz h d a)
  | 0x19 => must (rb == 0) (.neg h d a)
  | 0x1A => must (rb == 0) (.abs h d a)
  | _ => none

/-- Multiply, divide and saturating arithmetic, OP 0x01 and 0x02 (12 R286). -/
def nklMul (h : Hdr) (op : Nat) (rd ra rb : BitVec 5) (fn : Nat) : Option Instr :=
  let d := reg5 rd
  let a := reg5 ra
  let b := reg5 rb
  match op, fn with
  | 1, 0 => some (.mul h d a b)
  | 1, 1 => some (.mulh h d a b)
  | 1, 2 => some (.mulhu h d a b)
  | 1, 3 => some (.div h d a b)
  | 1, 4 => some (.divu h d a b)
  | 1, 5 => some (.rem h d a b)
  | 1, 6 => some (.remu h d a b)
  | 2, 0 => some (.adds h d a b)
  | 2, 1 => some (.subs h d a b)
  | 2, 2 => must (rb == 0) (.negs h d a)
  | 2, 3 => must (rb == 0) (.abss h d a)
  | 2, 4 => some (.divs h d a b)
  | 2, 5 => some (.mulq31 h d a b)
  | 2, 6 => some (.mulq15 h d a b)
  | _, _ => none

/-- Floating-point arithmetic, OP 0x03: FN bit 5 selects binary16 (12 R294). -/
def nklFloat (h : Hdr) (rd ra rb : BitVec 5) (half : Bool) (fn : Nat) : Option Instr :=
  let d := reg5 rd
  let a := reg5 ra
  let b := reg5 rb
  match fn with
  | 0 => some (.fadd h half d a b)
  | 1 => some (.fsub h half d a b)
  | 2 => some (.fmul h half d a b)
  | 3 => some (.fdiv h half d a b)
  | 4 => must (rb == 0) (.fsqrt h half d a)
  | 5 => some (.fmac h half d a b)
  | 6 => some (.fmin h half d a b)
  | 7 => some (.fmax h half d a b)
  | 8 => must (rb == 0) (.fneg h half d a)
  | 9 => must (rb == 0) (.fabs h half d a)
  | _ => none

/-- Floating-point compare, convert and move, OP 0x04 (12 R294). -/
def nklConvert (h : Hdr) (rd ra rb : BitVec 5) (fn : Nat) : Option Instr :=
  let d := reg5 rd
  let a := reg5 ra
  match fn with
  | 0 => must (rd == 0) (.fcmp h a (reg5 rb))
  | 1 => must (rb == 0) (.ftoi h d a)
  | 2 => must (rb == 0) (.ftou h d a)
  | 3 => must (rb == 0) (.itof h d a)
  | 4 => must (rb == 0) (.utof h d a)
  | 5 => must (rb == 0) (.fnarrow h d a)
  | 6 => must (rb == 0) (.fwiden h d a)
  | 7 => must (rb == 0) (.fmovtg h d a)
  | 8 => must (rb == 0) (.fmovfg h d a)
  | 9 => must (rb == 0) (.fkind h d a)
  | _ => none

/-- Atomics, OP 0x05 (12 R291). -/
def nklAtomic (h : Hdr) (rd ra rb : BitVec 5) (fn : Nat) : Option Instr :=
  match fn with
  | 0 => some (.swap h (reg5 rd) (reg5 ra) (reg5 rb))
  | 1 => some (.cas h (reg5 rd) (reg5 ra) (reg5 rb))
  | 2 => some (.amoadd h (reg5 rd) (reg5 ra) (reg5 rb))
  | 3 => some (.amoand h (reg5 rd) (reg5 ra) (reg5 rb))
  | 4 => some (.amoor h (reg5 rd) (reg5 ra) (reg5 rb))
  | _ => none

/-- Format I, OP 0x08 to 0x0F: the immediate signed or unsigned by OP (12 R285). -/
def nklImm (h : Hdr) (op : Nat) (rd ra : BitVec 5) (imm : BitVec 11) : Option Instr :=
  let d := reg5 rd
  let a := reg5 ra
  let s : Word := imm.signExtend 32
  let z : Word := imm.setWidth 32
  let n : Word := (imm.extractLsb' 0 5).setWidth 32
  match op with
  | 0x08 => some (.addi h d a s)
  | 0x09 => some (.andi h d a z)
  | 0x0A => some (.ori h d a z)
  | 0x0B => some (.xori h d a z)
  | 0x0C => must (rd == 0) (.cmpi h a s)
  | 0x0D => must (rd == 0) (.cmpui h a z)
  | 0x0E =>
    let b := imm.extractLsb' 7 4 == 0
    match (imm.extractLsb' 5 2).toNat with
    | 0 => must b (.lsli h d a n)
    | 1 => must b (.lsri h d a n)
    | 2 => must b (.asri h d a n)
    | _ => must b (.rori h d a n)
  | _ => some (.muli h d a s)

/-- Format M: the offset is signed and scaled by the access size (12 R289). -/
def nklMem (h : Hdr) (op : Nat) (rd ra : BitVec 5) (off : BitVec 11) : Option Instr :=
  let d := reg5 rd
  let a := reg5 ra
  let o : Word := off.signExtend 32
  match op with
  | 0x18 => some (.ldb h d a o)
  | 0x19 => some (.ldbu h d a o)
  | 0x1A => some (.ldh h d a (2 * o))
  | 0x1B => some (.ldhu h d a (2 * o))
  | 0x1C => some (.ldw h false d a (4 * o))
  | 0x1D => some (.ldf h d a (4 * o))
  | 0x20 => some (.stb h d a o)
  | 0x21 => some (.sth h d a (2 * o))
  | 0x22 => some (.stw h false d a (4 * o))
  | 0x23 => some (.stf h d a (4 * o))
  | _ => none

/-- Register jumps, OP 0x2A (12 R292). -/
def nklJump (h : Hdr) (rd ra : BitVec 5) (sub : Nat) (arg : BitVec 5) : Option Instr :=
  match sub with
  | 0 => must (rd == 0 && arg == 0) (.jr h (reg5 ra))
  | 1 => must (rd == 0 && arg == 0) (.jlr h (reg5 ra))
  | 2 => must (rd == 0 && ra == 0 && arg == 0) (.ret h)
  | _ => none

/-- System instructions, OP 0x30 (12 R293); a repeat prefix names the length of the parcel that it repeats. -/
def nklSystem (h : Hdr) (rd ra : BitVec 5) (sub : Nat) (arg : BitVec 5) (nextLen : Nat) (nextOk : Bool) : Option Instr :=
  let none3 := rd == 0 && ra == 0 && arg == 0
  match sub with
  | 0x00 => must none3 (.nop h)
  | 0x01 => must none3 (.yield h)
  | 0x02 => must none3 (.wfe h)
  | 0x03 => must none3 (.rep h ⟨nextLen, nextOk⟩)
  | 0x04 => must none3 (.repu h ⟨nextLen, nextOk⟩)
  | 0x05 => must (rd == 0 && ra == 0) (.setc h (arg.setWidth 32))
  | 0x06 => must none3 (.brk h)
  | 0x07 => must (rd == 0 && ra == 0) (.trap h (arg.setWidth 32))
  | 0x08 => must none3 (.fence h)
  | 0x09 => must none3 (.fenceI h)
  | 0x0A => must none3 (.rte h)
  | 0x0B => must (ra == 0) (.rdsr h (reg5 rd) (arg.setWidth 8))
  | 0x0C => must (rd == 0) (.wrsr h (arg.setWidth 8) (reg5 ra))
  | 0x0D => must (rd == 0) (.sev h (reg5 ra) (arg.setWidth 32))
  | 0x0E => some (.waitt h (reg5 rd) (reg5 ra) (reg5 arg))
  | _ => none

/-- The instruction of a 32-bit value whose bit 31 is 1; none is an illegal encoding (11 R260). -/
def decodeNkl32 (k : CoreId) (w : Word) (nextLen : Nat) (nextOk : Bool) : Option Instr :=
  let h : Hdr := { core := k, cond := w.extractLsb' 27 4, len := 4 }
  let op := (w.extractLsb' 21 6).toNat
  let rd := w.extractLsb' 16 5
  let ra := w.extractLsb' 11 5
  let rb := w.extractLsb' 6 5
  let fn := (w.extractLsb' 0 6).toNat
  let imm := w.extractLsb' 0 11
  let sub := (w.extractLsb' 5 6).toNat
  let arg := w.extractLsb' 0 5
  let i16 := w.extractLsb' 0 16
  let off : Word := (w.extractLsb' 0 21).signExtend 32
  if op = 0 then nklAlu h rd ra rb fn
  else if op = 1 ∨ op = 2 then nklMul h op rd ra rb fn
  else if op = 3 then nklFloat h rd ra rb (w.getLsbD 5) (w.extractLsb' 0 5).toNat
  else if op = 4 then nklConvert h rd ra rb fn
  else if op = 5 then nklAtomic h rd ra rb fn
  else if 8 ≤ op ∧ op < 0x10 then nklImm h op rd ra imm
  else if op = 0x10 then some (.movi h (reg5 rd) (i16.signExtend 32))
  else if op = 0x11 then some (.movhi h (reg5 rd) i16)
  else if op = 0x12 then some (.addiw h (reg5 rd) (i16.signExtend 32))
  else if op = 0x13 then some (.callm h i16 (reg5 rd) 0)
  else if op = 0x14 then must (rd == 0) (.retm h i16)
  else if 0x18 ≤ op ∧ op < 0x24 then nklMem h op rd ra imm
  else if op = 0x28 then some (.br h off)
  else if op = 0x29 then some (.call h off)
  else if op = 0x2A then nklJump h rd ra sub arg
  else if op = 0x30 then nklSystem h rd ra sub arg nextLen nextOk
  else none

/-! ### NK-L, 16 bits (11 R261) -/

/-- The condition of the 2-bit field: AL, EQ, NE, PK (11 R255). -/
def cond16 (c : BitVec 2) : BitVec 4 := if c = 3 then 15 else c.setWidth 4

/-- The S16 instructions (11 R261). -/
def nklSys16 (h : Hdr) (sub : Nat) (arg : BitVec 4) (nextLen : Nat) (nextOk : Bool) : Option Instr :=
  let z := arg == 0
  match sub with
  | 0 => must z (.nop h)
  | 1 => must z (.ret h)
  | 2 => must z (.yield h)
  | 3 => must z (.wfe h)
  | 4 => must z (.rep h ⟨nextLen, nextOk⟩)
  | 5 => must z (.repu h ⟨nextLen, nextOk⟩)
  | 6 => some (.setc h (arg.setWidth 32))
  | 7 => must z (.brk h)
  | 8 => some (.trap h (arg.setWidth 32))
  | 9 => must z (.fence h)
  | 10 => must z (.fenceI h)
  | 11 => must z (.rte h)
  | _ => none

/-- The instruction of a halfword whose bit 15 is 0 (11 R261; 12 R283, R285, R289, R292). -/
def decodeNkl16 (k : CoreId) (w : BitVec 16) (nextLen : Nat) (nextOk : Bool) : Option Instr :=
  let h : Hdr := { core := k, cond := cond16 (w.extractLsb' 13 2), len := 2 }
  let x := w.extractLsb' 4 4
  let y := w.extractLsb' 0 4
  let d := reg4 x
  let a := reg4 y
  let imm : Word := y.setWidth 32
  let off : Word := (w.extractLsb' 0 8).signExtend 32
  match (w.extractLsb' 8 5).toNat with
  | 1 => some (.mov h false d a)
  | 2 => some (.add h d d a)
  | 3 => some (.sub h d d a)
  | 4 => some (.and h d d a)
  | 5 => some (.or h d d a)
  | 6 => some (.xor h d d a)
  | 7 => some (.cmp h d a)
  | 8 => some (.movi h d imm)
  | 9 => some (.addi h d d imm)
  | 10 => some (.subi h d imm)
  | 11 => some (.lsli h d d imm)
  | 12 => some (.lsri h d d imm)
  | 13 => some (.asri h d d imm)
  | 14 => some (.cmpi h d imm)
  | 15 => some (.tst h d a)
  | 16 => some (.ldw h false d a 0)
  | 17 => some (.stw h false d a 0)
  | 18 => some (.ldw h false d 31 (4 * imm))
  | 19 => some (.stw h false d 31 (4 * imm))
  | 20 => some (.movfh h x.toFin y.toFin)
  | 21 => some (.movth h x.toFin y.toFin)
  | 22 => some (.addsp h (4 * off))
  | 23 => some (.mul h d d a)
  | 24 => some (.br h off)
  | 25 => some (.call h off)
  | 26 => must (x == 0) (.jr h a)
  | 27 => must (x == 0) (.jlr h a)
  | 28 => nklSys16 h x.toNat y nextLen nextOk
  | _ => none

/-- The length of the parcel that begins with a halfword (11 R258). -/
def nklLen (w : BitVec 16) : Nat := if w.getLsbD 15 then 4 else 2

/-- Whether the parcel at the head of `ws` may be repeated by the prefix before it (11 R268); a reserved one raises its own exception. -/
def nklPairOk (k : CoreId) (ws : List (BitVec 16)) : Bool :=
  let i : Option Instr := match ws with
    | w :: v :: _ => if w.getLsbD 15 then decodeNkl32 k (w ++ v) 0 false else decodeNkl16 k w 0 false
    | [w] => if w.getLsbD 15 then none else decodeNkl16 k w 0 false
    | [] => none
  (i.map repeatable).getD true

/-- The instruction at the head of NK-L code, a sequence of halfwords (11 R258). None is an illegal encoding. -/
def decodeNkl (k : CoreId) (ws : List (BitVec 16)) : Option Instr :=
  let len (l : List (BitVec 16)) : Nat := match l with
    | w :: _ => nklLen w
    | [] => 0
  match ws with
  | [] => none
  | w :: rest =>
    if w.getLsbD 15 then match rest with
      | v :: rest => decodeNkl32 k (w ++ v) (len rest) (nklPairOk k rest)
      | [] => none
    else decodeNkl16 k w (len rest) (nklPairOk k rest)

/-! ### NK-S (11 R263 to R266) -/

/-- The prefixes of an NK-S instruction: condition, repeat (with REPU or not), W, IX. -/
structure NksPre where
  cond : Option (BitVec 4)
  rep : Option Bool
  wide : Bool
  ix : Bool
  deriving DecidableEq, Repr

/-- The prefixes in the order of the table, at most one of each, and what follows them (11 R263). A prefix out of its order
is left to stand as an opcode, which is then illegal. -/
def nksPrefixes (bs : List Byte) : NksPre × List Byte :=
  let c : Option (BitVec 4) × List Byte := match bs with
    | b :: r => if b.toNat / 16 = 0xC then (some (b.setWidth 4), r) else (none, bs)
    | [] => (none, bs)
  let p : Option Bool × List Byte := match c.2 with
    | b :: r => if b = 0xD0 then (some false, r) else if b = 0xD1 then (some true, r) else (none, c.2)
    | [] => (none, c.2)
  let w : Bool × List Byte := match p.2 with
    | b :: r => if b = 0xD2 then (true, r) else (false, p.2)
    | [] => (false, p.2)
  let x : Bool × List Byte := match w.2 with
    | b :: r => if b = 0xD3 then (true, r) else (false, w.2)
    | [] => (false, w.2)
  ({ cond := c.1, rep := p.1, wide := w.1, ix := x.1 }, x.2)

/-- The operand bytes of an opcode and the bytes of its immediate (11 R265). -/
def nksSizes (op : Nat) : Nat × Nat :=
  if op < 0x10 then (2, 0)
  else if op < 0x20 then (1, 1)
  else if op < 0x30 then (1, 2)
  else if op < 0x50 then (2, 0)
  else if op < 0x60 then (1, 1)
  else if op < 0x70 then (1, 2)
  else match op with
    | 0x70 => (0, 1)
    | 0x71 => (0, 2)
    | 0x72 => (0, 2)
    | 0x73 => (1, 0)
    | 0x74 => (1, 0)
    | 0x76 => (1, 2)
    | 0x77 => (1, 0)
    | 0x93 => (1, 1)
    | 0x94 => (2, 0)
    | 0x96 => (0, 1)
    | 0x99 => (1, 1)
    | 0x9A => (1, 1)
    | 0x9B => (0, 1)
    | _ => if 0x80 ≤ op ∧ op < 0x90 then (1, 0) else (0, 0)

/-- The operands of an NK-S instruction: the nibbles of its operand bytes and its immediate, sign- and zero-extended
(11 R264). -/
structure NksArgs where
  rd : BitVec 4
  ra : BitVec 4
  rb : BitVec 4
  x : BitVec 4
  s : Word
  z : Word
  deriving DecidableEq, Repr

/-- The immediate of 0, 1, 2 or 4 bytes, sign- and zero-extended. -/
def nksImm (n : Nat) (bs : List Byte) : Word × Word :=
  let v := leNat (bs.take n)
  match n with
  | 1 => ((BitVec.ofNat 8 v).signExtend 32, BitVec.ofNat 32 v)
  | 2 => ((BitVec.ofNat 16 v).signExtend 32, BitVec.ofNat 32 v)
  | 4 => (BitVec.ofNat 32 v, BitVec.ofNat 32 v)
  | _ => (0, 0)

/-- ALU opcodes with an immediate, by their low nibble (12 R285). -/
def nksAluImm (h : Hdr) (n : Nat) (a : NksArgs) : Option Instr :=
  let d := reg4 a.rd
  let s := reg4 a.ra
  match n with
  | 0x0 => some (.addi h d s a.s)
  | 0x1 => some (.andi h d s a.z)
  | 0x2 => some (.ori h d s a.z)
  | 0x3 => some (.xori h d s a.z)
  | 0x4 => some (.lsli h d s a.z)
  | 0x5 => some (.lsri h d s a.z)
  | 0x6 => some (.asri h d s a.z)
  | 0x7 => some (.rori h d s a.z)
  | 0x8 => must (a.rd == 0) (.cmpi h s a.s)
  | 0x9 => must (a.rd == 0) (.cmpui h s a.z)
  | 0xA => must (a.ra == 0) (.movi h d a.s)
  | 0xB => must (a.ra == 0) (.movhi h d (a.z.setWidth 16))
  | 0xC => some (.muli h d s a.s)
  | _ => none

/-- Loads and stores by the low nibble of the opcode (12 R289). -/
def nksMem (h : Hdr) (wide : Bool) (n : Nat) (a : NksArgs) : Option Instr :=
  let d := reg4 a.rd
  let b := reg4 a.ra
  match n with
  | 0 => some (.ldb h d b a.s)
  | 1 => some (.ldbu h d b a.s)
  | 2 => some (.ldh h d b a.s)
  | 3 => some (.ldhu h d b a.s)
  | 4 => some (.ldw h wide d b a.s)
  | 5 => some (.stb h d b a.s)
  | 6 => some (.sth h d b a.s)
  | 7 => some (.stw h wide d b a.s)
  | _ => none

/-- Three-register and accumulator opcodes, whose X field is 0 or names an accumulator (12 R284, R286, R288). -/
def nksThree (h : Hdr) (op : Nat) (a : NksArgs) : Option Instr :=
  let d := reg4 a.rd
  let r := reg4 a.ra
  let b := reg4 a.rb
  let x0 := a.x == 0
  let ac : Fin 2 := if a.x.getLsbD 0 then 1 else 0
  let xa := a.x.toNat < 2
  match op with
  | 0x01 => must x0 (.add h d r b)
  | 0x02 => must x0 (.adc h d r b)
  | 0x03 => must x0 (.sub h d r b)
  | 0x04 => must x0 (.sbc h d r b)
  | 0x05 => must x0 (.and h d r b)
  | 0x06 => must x0 (.or h d r b)
  | 0x07 => must x0 (.xor h d r b)
  | 0x08 => must x0 (.bic h d r b)
  | 0x09 => must x0 (.lsl h d r b)
  | 0x0A => must x0 (.lsr h d r b)
  | 0x0B => must x0 (.asr h d r b)
  | 0x0C => must x0 (.ror h d r b)
  | 0x0D => must x0 (.min h d r b)
  | 0x0E => must x0 (.max h d r b)
  | 0x30 => must x0 (.mul h d r b)
  | 0x31 => must x0 (.mulh h d r b)
  | 0x32 => must x0 (.mulhu h d r b)
  | 0x33 => must x0 (.div h d r b)
  | 0x34 => must x0 (.divu h d r b)
  | 0x35 => must x0 (.rem h d r b)
  | 0x36 => must x0 (.remu h d r b)
  | 0x37 => must x0 (.adds h d r b)
  | 0x38 => must x0 (.subs h d r b)
  | 0x39 => must (x0 && a.rb == 0) (.neg h d r)
  | 0x3A => must (x0 && a.rb == 0) (.abs h d r)
  | 0x3B => must (x0 && a.rb == 0) (.negs h d r)
  | 0x3C => must (x0 && a.rb == 0) (.abss h d r)
  | 0x3D => must x0 (.divs h d r b)
  | 0x40 => must (xa && a.rd == 0) (.mac h ac r b)
  | 0x41 => must (xa && a.rd == 0) (.msu h ac r b)
  | 0x42 => must (xa && a.rd == 0 && a.ra == 0 && a.rb == 0) (.aclr h ac)
  | 0x43 => must (xa && a.rd == 0 && a.rb == 0) (.acsh h ac r)
  | 0x44 => must (xa && a.rb == 0) (.acrd h d ac r)
  | 0x45 => must (xa && a.rd == 0 && a.rb == 0) (.acwr h ac r)
  | _ => none

/-- The opcodes from 0x70: control transfer, moves, system (12 R284, R292, R293). -/
def nksHigh (h : Hdr) (wide : Bool) (op : Nat) (a : NksArgs) : Option Instr :=
  let d := reg4 a.rd
  let r := reg4 a.ra
  match op with
  | 0x70 => some (.br h a.s)
  | 0x71 => some (.br h a.s)
  | 0x72 => some (.call h a.s)
  | 0x73 => must (a.rd == 0) (.jr h r)
  | 0x74 => must (a.rd == 0) (.jlr h r)
  | 0x75 => some (.ret h)
  | 0x76 => some (.callm h ((a.rd ++ a.ra).setWidth 16) 0 a.s)
  | 0x77 => some (.retm h ((a.rd ++ a.ra).setWidth 16))
  | 0x80 => some (.mov h wide d r)
  | 0x81 => some (.sxtb h d r)
  | 0x82 => some (.sxth h d r)
  | 0x83 => some (.zxtb h d r)
  | 0x84 => some (.zxth h d r)
  | 0x85 => some (.cmp h d r)
  | 0x86 => some (.cmpu h d r)
  | 0x87 => some (.tst h d r)
  | 0x90 => some (.nop h)
  | 0x91 => some (.yield h)
  | 0x92 => some (.wfe h)
  | 0x93 => must (a.rd == 0) (.sev h r a.z)
  | 0x94 => must (a.x == 0) (.waitt h d r (reg4 a.rb))
  | 0x95 => some (.rte h)
  | 0x96 => some (.trap h a.z)
  | 0x97 => some (.fence h)
  | 0x98 => some (.fenceI h)
  | 0x99 => must (a.ra == 0 && decide (a.z.toNat < 256)) (.rdsr h d (a.z.setWidth 8))
  | 0x9A => must (a.rd == 0 && decide (a.z.toNat < 256)) (.wrsr h (a.z.setWidth 8) r)
  | 0x9B => some (.setc h a.z)
  | 0x9C => some (.brk h)
  | _ => none

/-- The instruction of an opcode with its operands. -/
def nksInstr (h : Hdr) (wide : Bool) (op : Nat) (a : NksArgs) : Option Instr :=
  if op < 0x10 then nksThree h op a
  else if op < 0x30 then nksAluImm h (op % 16) a
  else if op < 0x50 then nksThree h op a
  else if op < 0x70 then nksMem h wide (op % 16) a
  else nksHigh h wide op a

/-- Whether W may stand before an opcode (11 R266). -/
def nksWideOk (op : Nat) : Bool := op == 0x54 || op == 0x57 || op == 0x64 || op == 0x67 || op == 0x80

/-- The instruction at the head of NK-S code, with the repeat prefix before it if it has one: the prefix stands with the
condition, and the instruction follows it (11 R263, R267). None is an illegal encoding. -/
def decodeNks (k : CoreId) (bs : List Byte) : Option (Option Instr × Instr) :=
  let p := nksPrefixes bs
  match p.2 with
  | [] => none
  | ob :: rest =>
    let op := ob.toNat
    let sz := nksSizes op
    let imm := if p.1.ix then 4 else sz.2
    let cond := p.1.cond.getD 0
    let before := (if p.1.cond.isSome then 1 else 0) + (if p.1.rep.isSome then 1 else 0)
    let body := (if p.1.wide then 1 else 0) + (if p.1.ix then 1 else 0) + 1 + sz.1 + imm
    if rest.length < sz.1 + imm then none
    else if p.1.ix && sz.2 == 0 then none
    else if p.1.wide && !nksWideOk op then none
    else
      let a0 := if 1 ≤ sz.1 then rest.headD 0 else 0
      let b0 := if 2 ≤ sz.1 then rest.tail.headD 0 else 0
      let v := nksImm imm (rest.drop sz.1)
      let a : NksArgs := { rd := a0.extractLsb' 4 4, ra := a0.extractLsb' 0 4, rb := b0.extractLsb' 4 4,
                           x := b0.extractLsb' 0 4, s := v.1, z := v.2 }
      let h : Hdr := { core := k, cond := cond, len := if p.1.rep.isSome then body else before + body }
      let hp : Hdr := { core := k, cond := cond, len := before }
      (nksInstr h p.1.wide op a).map (fun i =>
        (match p.1.rep with
         | some true => some (.repu hp ⟨body, repeatable i⟩)
         | some false => some (.rep hp ⟨body, repeatable i⟩)
         | none => none, i))

/-- What a core finds at the head of its code (11 R256): the instruction, with an NK-S repeat prefix; none is an illegal
encoding. -/
def decodeCode (k : CoreId) (bs : List Byte) : Option (Option Instr × Instr) :=
  if k.isNKS then decodeNks k bs
  else
    let half (b : List Byte) : BitVec 16 := b.tail.headD 0 ++ b.headD 0
    (decodeNkl k ((List.range (bs.length / 2)).map (fun i => half (bs.drop (2 * i))))).map (fun i => (none, i))

/-! ### Encoders -/

/-- The field of a register number. -/
def no5 (r : Fin 32) : BitVec 5 := BitVec.ofFin r
def no4 (r : Fin 32) : BitVec 4 := BitVec.ofNat 4 r.val

/-- The formats R, I and M, K, B and S (11 R259). -/
def fmtR (h : Hdr) (op : BitVec 6) (rd ra rb : BitVec 5) (fn : BitVec 6) : Word :=
  (1 : BitVec 1) ++ h.cond ++ op ++ rd ++ ra ++ rb ++ fn
def fmtI (h : Hdr) (op : BitVec 6) (rd ra : BitVec 5) (imm : BitVec 11) : Word :=
  (1 : BitVec 1) ++ h.cond ++ op ++ rd ++ ra ++ imm
def fmtK (h : Hdr) (op : BitVec 6) (rd : BitVec 5) (imm : BitVec 16) : Word := (1 : BitVec 1) ++ h.cond ++ op ++ rd ++ imm
def fmtB (h : Hdr) (op : BitVec 6) (off : BitVec 21) : Word := (1 : BitVec 1) ++ h.cond ++ op ++ off
def fmtS (h : Hdr) (op : BitVec 6) (rd ra : BitVec 5) (sub : BitVec 6) (arg : BitVec 5) : Word :=
  (1 : BitVec 1) ++ h.cond ++ op ++ rd ++ ra ++ sub ++ arg

/-- The 32-bit NK-L encoding of an instruction; none where it has none (12 R284 to R294). -/
def encodeNkl32 (i : Instr) : Option Word :=
  match i with
  | .add h d a b => some (fmtR h 0x00 (no5 d) (no5 a) (no5 b) 0x00)
  | .adc h d a b => some (fmtR h 0x00 (no5 d) (no5 a) (no5 b) 0x01)
  | .sub h d a b => some (fmtR h 0x00 (no5 d) (no5 a) (no5 b) 0x02)
  | .sbc h d a b => some (fmtR h 0x00 (no5 d) (no5 a) (no5 b) 0x03)
  | .and h d a b => some (fmtR h 0x00 (no5 d) (no5 a) (no5 b) 0x04)
  | .or h d a b => some (fmtR h 0x00 (no5 d) (no5 a) (no5 b) 0x05)
  | .xor h d a b => some (fmtR h 0x00 (no5 d) (no5 a) (no5 b) 0x06)
  | .bic h d a b => some (fmtR h 0x00 (no5 d) (no5 a) (no5 b) 0x07)
  | .lsl h d a b => some (fmtR h 0x00 (no5 d) (no5 a) (no5 b) 0x08)
  | .lsr h d a b => some (fmtR h 0x00 (no5 d) (no5 a) (no5 b) 0x09)
  | .asr h d a b => some (fmtR h 0x00 (no5 d) (no5 a) (no5 b) 0x0A)
  | .ror h d a b => some (fmtR h 0x00 (no5 d) (no5 a) (no5 b) 0x0B)
  | .min h d a b => some (fmtR h 0x00 (no5 d) (no5 a) (no5 b) 0x0C)
  | .max h d a b => some (fmtR h 0x00 (no5 d) (no5 a) (no5 b) 0x0D)
  | .minu h d a b => some (fmtR h 0x00 (no5 d) (no5 a) (no5 b) 0x0E)
  | .maxu h d a b => some (fmtR h 0x00 (no5 d) (no5 a) (no5 b) 0x0F)
  | .cmp h a b => some (fmtR h 0x00 0 (no5 a) (no5 b) 0x10)
  | .cmpu h a b => some (fmtR h 0x00 0 (no5 a) (no5 b) 0x11)
  | .tst h a b => some (fmtR h 0x00 0 (no5 a) (no5 b) 0x12)
  | .mov h false d a => some (fmtR h 0x00 (no5 d) (no5 a) 0 0x13)
  | .sxtb h d a => some (fmtR h 0x00 (no5 d) (no5 a) 0 0x14)
  | .sxth h d a => some (fmtR h 0x00 (no5 d) (no5 a) 0 0x15)
  | .zxtb h d a => some (fmtR h 0x00 (no5 d) (no5 a) 0 0x16)
  | .zxth h d a => some (fmtR h 0x00 (no5 d) (no5 a) 0 0x17)
  | .clz h d a => some (fmtR h 0x00 (no5 d) (no5 a) 0 0x18)
  | .neg h d a => some (fmtR h 0x00 (no5 d) (no5 a) 0 0x19)
  | .abs h d a => some (fmtR h 0x00 (no5 d) (no5 a) 0 0x1A)
  | .mul h d a b => some (fmtR h 0x01 (no5 d) (no5 a) (no5 b) 0x00)
  | .mulh h d a b => some (fmtR h 0x01 (no5 d) (no5 a) (no5 b) 0x01)
  | .mulhu h d a b => some (fmtR h 0x01 (no5 d) (no5 a) (no5 b) 0x02)
  | .div h d a b => some (fmtR h 0x01 (no5 d) (no5 a) (no5 b) 0x03)
  | .divu h d a b => some (fmtR h 0x01 (no5 d) (no5 a) (no5 b) 0x04)
  | .rem h d a b => some (fmtR h 0x01 (no5 d) (no5 a) (no5 b) 0x05)
  | .remu h d a b => some (fmtR h 0x01 (no5 d) (no5 a) (no5 b) 0x06)
  | .adds h d a b => some (fmtR h 0x02 (no5 d) (no5 a) (no5 b) 0x00)
  | .subs h d a b => some (fmtR h 0x02 (no5 d) (no5 a) (no5 b) 0x01)
  | .negs h d a => some (fmtR h 0x02 (no5 d) (no5 a) 0 0x02)
  | .abss h d a => some (fmtR h 0x02 (no5 d) (no5 a) 0 0x03)
  | .divs h d a b => some (fmtR h 0x02 (no5 d) (no5 a) (no5 b) 0x04)
  | .mulq31 h d a b => some (fmtR h 0x02 (no5 d) (no5 a) (no5 b) 0x05)
  | .mulq15 h d a b => some (fmtR h 0x02 (no5 d) (no5 a) (no5 b) 0x06)
  | .fadd h half d a b => some (fmtR h 0x03 (no5 d) (no5 a) (no5 b) (if half then 0x20 else 0x00))
  | .fsub h half d a b => some (fmtR h 0x03 (no5 d) (no5 a) (no5 b) (if half then 0x21 else 0x01))
  | .fmul h half d a b => some (fmtR h 0x03 (no5 d) (no5 a) (no5 b) (if half then 0x22 else 0x02))
  | .fdiv h half d a b => some (fmtR h 0x03 (no5 d) (no5 a) (no5 b) (if half then 0x23 else 0x03))
  | .fsqrt h half d a => some (fmtR h 0x03 (no5 d) (no5 a) 0 (if half then 0x24 else 0x04))
  | .fmac h half d a b => some (fmtR h 0x03 (no5 d) (no5 a) (no5 b) (if half then 0x25 else 0x05))
  | .fmin h half d a b => some (fmtR h 0x03 (no5 d) (no5 a) (no5 b) (if half then 0x26 else 0x06))
  | .fmax h half d a b => some (fmtR h 0x03 (no5 d) (no5 a) (no5 b) (if half then 0x27 else 0x07))
  | .fneg h half d a => some (fmtR h 0x03 (no5 d) (no5 a) 0 (if half then 0x28 else 0x08))
  | .fabs h half d a => some (fmtR h 0x03 (no5 d) (no5 a) 0 (if half then 0x29 else 0x09))
  | .fcmp h a b => some (fmtR h 0x04 0 (no5 a) (no5 b) 0x00)
  | .ftoi h d a => some (fmtR h 0x04 (no5 d) (no5 a) 0 0x01)
  | .ftou h d a => some (fmtR h 0x04 (no5 d) (no5 a) 0 0x02)
  | .itof h d a => some (fmtR h 0x04 (no5 d) (no5 a) 0 0x03)
  | .utof h d a => some (fmtR h 0x04 (no5 d) (no5 a) 0 0x04)
  | .fnarrow h d a => some (fmtR h 0x04 (no5 d) (no5 a) 0 0x05)
  | .fwiden h d a => some (fmtR h 0x04 (no5 d) (no5 a) 0 0x06)
  | .fmovtg h d a => some (fmtR h 0x04 (no5 d) (no5 a) 0 0x07)
  | .fmovfg h d a => some (fmtR h 0x04 (no5 d) (no5 a) 0 0x08)
  | .fkind h d a => some (fmtR h 0x04 (no5 d) (no5 a) 0 0x09)
  | .swap h d a b => some (fmtR h 0x05 (no5 d) (no5 a) (no5 b) 0x00)
  | .cas h d a b => some (fmtR h 0x05 (no5 d) (no5 a) (no5 b) 0x01)
  | .amoadd h d a b => some (fmtR h 0x05 (no5 d) (no5 a) (no5 b) 0x02)
  | .amoand h d a b => some (fmtR h 0x05 (no5 d) (no5 a) (no5 b) 0x03)
  | .amoor h d a b => some (fmtR h 0x05 (no5 d) (no5 a) (no5 b) 0x04)
  | .addi h d a imm => some (fmtI h 0x08 (no5 d) (no5 a) (imm.setWidth 11))
  | .andi h d a imm => some (fmtI h 0x09 (no5 d) (no5 a) (imm.setWidth 11))
  | .ori h d a imm => some (fmtI h 0x0A (no5 d) (no5 a) (imm.setWidth 11))
  | .xori h d a imm => some (fmtI h 0x0B (no5 d) (no5 a) (imm.setWidth 11))
  | .cmpi h a imm => some (fmtI h 0x0C 0 (no5 a) (imm.setWidth 11))
  | .cmpui h a imm => some (fmtI h 0x0D 0 (no5 a) (imm.setWidth 11))
  | .lsli h d a n => some (fmtI h 0x0E (no5 d) (no5 a) ((0 : BitVec 4) ++ (0 : BitVec 2) ++ n.setWidth 5))
  | .lsri h d a n => some (fmtI h 0x0E (no5 d) (no5 a) ((0 : BitVec 4) ++ (1 : BitVec 2) ++ n.setWidth 5))
  | .asri h d a n => some (fmtI h 0x0E (no5 d) (no5 a) ((0 : BitVec 4) ++ (2 : BitVec 2) ++ n.setWidth 5))
  | .rori h d a n => some (fmtI h 0x0E (no5 d) (no5 a) ((0 : BitVec 4) ++ (3 : BitVec 2) ++ n.setWidth 5))
  | .muli h d a imm => some (fmtI h 0x0F (no5 d) (no5 a) (imm.setWidth 11))
  | .movi h d imm => some (fmtK h 0x10 (no5 d) (imm.setWidth 16))
  | .movhi h d imm => some (fmtK h 0x11 (no5 d) imm)
  | .addiw h d imm => some (fmtK h 0x12 (no5 d) (imm.setWidth 16))
  | .callm h mask rt _ => some (fmtK h 0x13 (no5 rt) mask)
  | .retm h mask => some (fmtK h 0x14 0 mask)
  | .ldb h d a off => some (fmtI h 0x18 (no5 d) (no5 a) (off.extractLsb' 0 11))
  | .ldbu h d a off => some (fmtI h 0x19 (no5 d) (no5 a) (off.extractLsb' 0 11))
  | .ldh h d a off => some (fmtI h 0x1A (no5 d) (no5 a) (off.extractLsb' 1 11))
  | .ldhu h d a off => some (fmtI h 0x1B (no5 d) (no5 a) (off.extractLsb' 1 11))
  | .ldw h false d a off => some (fmtI h 0x1C (no5 d) (no5 a) (off.extractLsb' 2 11))
  | .ldf h d a off => some (fmtI h 0x1D (no5 d) (no5 a) (off.extractLsb' 2 11))
  | .stb h d a off => some (fmtI h 0x20 (no5 d) (no5 a) (off.extractLsb' 0 11))
  | .sth h d a off => some (fmtI h 0x21 (no5 d) (no5 a) (off.extractLsb' 1 11))
  | .stw h false d a off => some (fmtI h 0x22 (no5 d) (no5 a) (off.extractLsb' 2 11))
  | .stf h d a off => some (fmtI h 0x23 (no5 d) (no5 a) (off.extractLsb' 2 11))
  | .br h off => some (fmtB h 0x28 (off.setWidth 21))
  | .call h off => some (fmtB h 0x29 (off.setWidth 21))
  | .jr h a => some (fmtS h 0x2A 0 (no5 a) 0 0)
  | .jlr h a => some (fmtS h 0x2A 0 (no5 a) 1 0)
  | .ret h => some (fmtS h 0x2A 0 0 2 0)
  | .nop h => some (fmtS h 0x30 0 0 0x00 0)
  | .yield h => some (fmtS h 0x30 0 0 0x01 0)
  | .wfe h => some (fmtS h 0x30 0 0 0x02 0)
  | .rep h _ => some (fmtS h 0x30 0 0 0x03 0)
  | .repu h _ => some (fmtS h 0x30 0 0 0x04 0)
  | .setc h n => some (fmtS h 0x30 0 0 0x05 (n.setWidth 5))
  | .brk h => some (fmtS h 0x30 0 0 0x06 0)
  | .trap h n => some (fmtS h 0x30 0 0 0x07 (n.setWidth 5))
  | .fence h => some (fmtS h 0x30 0 0 0x08 0)
  | .fenceI h => some (fmtS h 0x30 0 0 0x09 0)
  | .rte h => some (fmtS h 0x30 0 0 0x0A 0)
  | .rdsr h d sr => some (fmtS h 0x30 (no5 d) 0 0x0B (sr.setWidth 5))
  | .wrsr h sr a => some (fmtS h 0x30 0 (no5 a) 0x0C (sr.setWidth 5))
  | .sev h a d => some (fmtS h 0x30 0 (no5 a) 0x0D (d.setWidth 5))
  | .waitt h d a b => some (fmtS h 0x30 (no5 d) (no5 a) 0x0E (no5 b))
  | _ => none

/-- The condition prefix; AL has none (11 R255). -/
def nksCond (h : Hdr) : List Byte := if h.cond = 0 then [] else [(0xC : BitVec 4) ++ h.cond]

/-- The forms of NK-S code (11 R263, R264): two operand bytes, one, none; one or no operand byte with the 4-byte immediate of
IX; W before the rest. -/
def nksTwo (h : Hdr) (op : Byte) (rd ra rb x : BitVec 4) : Option (List Byte) :=
  some (nksCond h ++ [op, rd ++ ra, rb ++ x])
def nksOne (h : Hdr) (op : Byte) (rd ra : BitVec 4) : Option (List Byte) := some (nksCond h ++ [op, rd ++ ra])
def nksNone (h : Hdr) (op : Byte) : Option (List Byte) := some (nksCond h ++ [op])
def nksLong (h : Hdr) (op : Byte) (rd ra : BitVec 4) (imm : Word) : Option (List Byte) :=
  some (nksCond h ++ 0xD3 :: op :: (rd ++ ra) :: leBytes 4 imm.toNat)
def nksOff (h : Hdr) (op : Byte) (imm : Word) : Option (List Byte) := some (nksCond h ++ 0xD3 :: op :: leBytes 4 imm.toNat)
def nksWide (h : Hdr) (w : Bool) (bs : List Byte) : Option (List Byte) := some (nksCond h ++ (if w then 0xD2 :: bs else bs))

/-- The X field that selects an accumulator (11 R264). -/
def acNo (ac : Fin 2) : BitVec 4 := BitVec.ofNat 4 ac.val

/-- The NK-S encoding of an instruction, its immediate in 4 bytes; none where NK-S lacks it (12 R284 to R293). -/
def encodeNks (i : Instr) : Option (List Byte) :=
  match i with
  | .add h d a b => nksTwo h 0x01 (no4 d) (no4 a) (no4 b) 0
  | .adc h d a b => nksTwo h 0x02 (no4 d) (no4 a) (no4 b) 0
  | .sub h d a b => nksTwo h 0x03 (no4 d) (no4 a) (no4 b) 0
  | .sbc h d a b => nksTwo h 0x04 (no4 d) (no4 a) (no4 b) 0
  | .and h d a b => nksTwo h 0x05 (no4 d) (no4 a) (no4 b) 0
  | .or h d a b => nksTwo h 0x06 (no4 d) (no4 a) (no4 b) 0
  | .xor h d a b => nksTwo h 0x07 (no4 d) (no4 a) (no4 b) 0
  | .bic h d a b => nksTwo h 0x08 (no4 d) (no4 a) (no4 b) 0
  | .lsl h d a b => nksTwo h 0x09 (no4 d) (no4 a) (no4 b) 0
  | .lsr h d a b => nksTwo h 0x0A (no4 d) (no4 a) (no4 b) 0
  | .asr h d a b => nksTwo h 0x0B (no4 d) (no4 a) (no4 b) 0
  | .ror h d a b => nksTwo h 0x0C (no4 d) (no4 a) (no4 b) 0
  | .min h d a b => nksTwo h 0x0D (no4 d) (no4 a) (no4 b) 0
  | .max h d a b => nksTwo h 0x0E (no4 d) (no4 a) (no4 b) 0
  | .mul h d a b => nksTwo h 0x30 (no4 d) (no4 a) (no4 b) 0
  | .mulh h d a b => nksTwo h 0x31 (no4 d) (no4 a) (no4 b) 0
  | .mulhu h d a b => nksTwo h 0x32 (no4 d) (no4 a) (no4 b) 0
  | .div h d a b => nksTwo h 0x33 (no4 d) (no4 a) (no4 b) 0
  | .divu h d a b => nksTwo h 0x34 (no4 d) (no4 a) (no4 b) 0
  | .rem h d a b => nksTwo h 0x35 (no4 d) (no4 a) (no4 b) 0
  | .remu h d a b => nksTwo h 0x36 (no4 d) (no4 a) (no4 b) 0
  | .adds h d a b => nksTwo h 0x37 (no4 d) (no4 a) (no4 b) 0
  | .subs h d a b => nksTwo h 0x38 (no4 d) (no4 a) (no4 b) 0
  | .neg h d a => nksTwo h 0x39 (no4 d) (no4 a) 0 0
  | .abs h d a => nksTwo h 0x3A (no4 d) (no4 a) 0 0
  | .negs h d a => nksTwo h 0x3B (no4 d) (no4 a) 0 0
  | .abss h d a => nksTwo h 0x3C (no4 d) (no4 a) 0 0
  | .divs h d a b => nksTwo h 0x3D (no4 d) (no4 a) (no4 b) 0
  | .mac h ac a b => nksTwo h 0x40 0 (no4 a) (no4 b) (acNo ac)
  | .msu h ac a b => nksTwo h 0x41 0 (no4 a) (no4 b) (acNo ac)
  | .aclr h ac => nksTwo h 0x42 0 0 0 (acNo ac)
  | .acsh h ac a => nksTwo h 0x43 0 (no4 a) 0 (acNo ac)
  | .acrd h d ac a => nksTwo h 0x44 (no4 d) (no4 a) 0 (acNo ac)
  | .acwr h ac a => nksTwo h 0x45 0 (no4 a) 0 (acNo ac)
  | .addi h d a imm => nksLong h 0x10 (no4 d) (no4 a) imm
  | .andi h d a imm => nksLong h 0x11 (no4 d) (no4 a) imm
  | .ori h d a imm => nksLong h 0x12 (no4 d) (no4 a) imm
  | .xori h d a imm => nksLong h 0x13 (no4 d) (no4 a) imm
  | .lsli h d a n => nksLong h 0x14 (no4 d) (no4 a) n
  | .lsri h d a n => nksLong h 0x15 (no4 d) (no4 a) n
  | .asri h d a n => nksLong h 0x16 (no4 d) (no4 a) n
  | .rori h d a n => nksLong h 0x17 (no4 d) (no4 a) n
  | .cmpi h a imm => nksLong h 0x18 0 (no4 a) imm
  | .cmpui h a imm => nksLong h 0x19 0 (no4 a) imm
  | .movi h d imm => nksLong h 0x1A (no4 d) 0 imm
  | .movhi h d imm => nksLong h 0x1B (no4 d) 0 (imm.setWidth 32)
  | .muli h d a imm => nksLong h 0x1C (no4 d) (no4 a) imm
  | .ldb h d a off => nksLong h 0x50 (no4 d) (no4 a) off
  | .ldbu h d a off => nksLong h 0x51 (no4 d) (no4 a) off
  | .ldh h d a off => nksLong h 0x52 (no4 d) (no4 a) off
  | .ldhu h d a off => nksLong h 0x53 (no4 d) (no4 a) off
  | .stb h d a off => nksLong h 0x55 (no4 d) (no4 a) off
  | .sth h d a off => nksLong h 0x56 (no4 d) (no4 a) off
  | .ldw h w d a off => nksWide h w (0xD3 :: 0x54 :: (no4 d ++ no4 a) :: leBytes 4 off.toNat)
  | .stw h w d a off => nksWide h w (0xD3 :: 0x57 :: (no4 d ++ no4 a) :: leBytes 4 off.toNat)
  | .br h off => nksOff h 0x70 off
  | .call h off => nksOff h 0x72 off
  | .jr h a => nksOne h 0x73 0 (no4 a)
  | .jlr h a => nksOne h 0x74 0 (no4 a)
  | .ret h => nksNone h 0x75
  | .callm h mask _ off => some (nksCond h ++ 0xD3 :: 0x76 :: mask.setWidth 8 :: leBytes 4 off.toNat)
  | .retm h mask => some (nksCond h ++ [0x77, mask.setWidth 8])
  | .mov h w d a => nksWide h w [0x80, no4 d ++ no4 a]
  | .sxtb h d a => nksOne h 0x81 (no4 d) (no4 a)
  | .sxth h d a => nksOne h 0x82 (no4 d) (no4 a)
  | .zxtb h d a => nksOne h 0x83 (no4 d) (no4 a)
  | .zxth h d a => nksOne h 0x84 (no4 d) (no4 a)
  | .cmp h a b => nksOne h 0x85 (no4 a) (no4 b)
  | .cmpu h a b => nksOne h 0x86 (no4 a) (no4 b)
  | .tst h a b => nksOne h 0x87 (no4 a) (no4 b)
  | .nop h => nksNone h 0x90
  | .yield h => nksNone h 0x91
  | .wfe h => nksNone h 0x92
  | .rte h => nksNone h 0x95
  | .fence h => nksNone h 0x97
  | .fenceI h => nksNone h 0x98
  | .brk h => nksNone h 0x9C
  | .sev h a d => nksLong h 0x93 0 (no4 a) d
  | .waitt h d a b => nksTwo h 0x94 (no4 d) (no4 a) (no4 b) 0
  | .trap h n => nksOff h 0x96 n
  | .rdsr h d sr => nksLong h 0x99 (no4 d) 0 (sr.setWidth 32)
  | .wrsr h sr a => nksLong h 0x9A 0 (no4 a) (sr.setWidth 32)
  | .setc h n => nksOff h 0x9B n
  | _ => none

end Sys2Proof
end

