-- ==== Sys2Proof/Config.lean ====
section
/-! DEFINITION. What an implementation fixes and what the manual leaves open: opaque constants with no body, so that
every theorem holds for every value of them. -/

namespace Sys2Proof

/-- The word that the free-value counter `n` stands for: a value the manual does not state (log 5). -/
opaque Config.freeWord : Nat → Word

/-- The output words of the deterministic random bit generator, by request number (18 R430; log 5). -/
opaque Config.rngWord : Nat → Word

/-- One step of the generalised integrator of a phase base's grid observer, whose gain and arithmetic the manual does not give:
the in-phase and quadrature parts after it, from VB, the cycles since the last sample, the parts before it and the sample, all
in result LSBs (02 R51; log 12). -/
opaque Config.gridStep : Word → Nat → Int → Int → Int → Int × Int

/-- A byte of the boot ROM (21 R474 step 5; log 13). -/
opaque Config.romByte : Nat → Byte

/-- The voltage of an analogue input ball, in microvolts, at a cycle of CLK_C (log 27). -/
opaque Config.ain : Nat → Nat → Int

/-- The voltage at an analogue ball in microvolts, by units of always-on time, while CLK_C stands in standby. -/
opaque Config.ainAon : Nat → Nat → Int

/-- VREF_ADC in microvolts (log 27). -/
opaque Config.vref : Int

/-- The supply of a pin bank at device reset: whether it is the 3.3 V one (19 R438; log 28). -/
opaque Config.bankV33 : Nat → Bool

/-- The level that a controller or clock output without rules of its own gives a pin in a cycle (19 R439; log 29). -/
opaque Config.padFn : Nat → Nat → Bool

/-- The deviation of an express lane's constant or trigonometric value from the floor of the exact one, in units of its
last place, by q and by value (08 R193; log 31). -/
opaque Config.laneDev : Nat → Nat → Int

/-- The deviation of an internal node's readback from the expected code, by cycle (06 R168; log 32). -/
opaque Config.nodeDev : Nat → Int

/-- The sign and payload of a NaN that a floating-point instruction delivers, by instruction and operands (11 R253 refers
to IEEE 754, which leaves them open; log 34). -/
opaque Config.nanBits : Nat → Word → Word → Word → Word

/-- Whether tininess is detected before rounding, whether FMAC signals invalid for 0 × ∞ + quiet NaN, and whether a
conversion to an integer signals inexact: IEEE 754 leaves each to the implementation (log 34). -/
opaque Config.tinyBefore : Bool
opaque Config.fmacInvalid : Bool
opaque Config.convertInexact : Bool

/-- The MAC address of ETH[0] or ETH[1]: the controllers' registers are not given (20 R464; log 40). -/
opaque Config.macAddr : Bool → BitVec 48

/-- Whether the device secret is reconstructed with some helper data, and the secret (18 R421; log 43). -/
opaque Config.pufOk : BitVec 8192 → Bool
opaque Config.pufSecret : BitVec 8192 → BitVec 256

/-- The silicon revision and the ROM version that IDENTIFY returns: their values are not given (17 R398; log 53). -/
opaque Config.siliconRev : BitVec 16
opaque Config.romVersion : BitVec 16

end Sys2Proof
end

