-- ==== Sys2Proof/Machine/Sparse.lean ====
section
/-! DEFINITION. Sparse maps as plain data: lists of (key, value) pairs with strictly rising keys and no entry equal to
what an unlisted key reads as, so that equal maps are equal lists. Registers, memory and the action memory use it. -/

namespace Sys2Proof.Machine

/-- The value listed at a key, if any. -/
def aget {α : Type} : List (Nat × α) → Nat → Option α
  | [], _ => none
  | (k, v) :: xs, a => if k = a then some v else aget xs a

/-- The list without the key `a`, wherever it stands. -/
def adel {α : Type} : List (Nat × α) → Nat → List (Nat × α)
  | [], _ => []
  | (k, v) :: xs, a => if k = a then adel xs a else (k, v) :: adel xs a

/-- The list with `v` at key `a`, keeping the keys rising. -/
def aput {α : Type} : List (Nat × α) → Nat → α → List (Nat × α)
  | [], a, v => [(a, v)]
  | (k, w) :: xs, a, v =>
    if k = a then (a, v) :: xs
    else if a < k then (a, v) :: (k, w) :: xs
    else (k, w) :: aput xs a v

/-- The canonical write: a value equal to the default `d` of the key removes the entry. -/
def aset {α : Type} [DecidableEq α] (d : α) (xs : List (Nat × α)) (a : Nat) (v : α) : List (Nat × α) :=
  if v = d then adel xs a else aput xs a v

/-- The canonical read: an unlisted key reads as its default `d`. -/
def aread {α : Type} (d : α) (xs : List (Nat × α)) (a : Nat) : α := (aget xs a).getD d

/-- The canonical form: keys strictly rising, no entry equal to its default. -/
def awf {α : Type} [DecidableEq α] (dflt : Nat → α) : List (Nat × α) → Bool
  | [] => true
  | [(k, v)] => !decide (v = dflt k)
  | (k, v) :: (k', v') :: xs => !decide (v = dflt k) && decide (k < k') && awf dflt ((k', v') :: xs)

/-- The list without every key in `[lo, lo + n)`: those keys read as their defaults again. -/
def adrop {α : Type} (lo n : Nat) (xs : List (Nat × α)) : List (Nat × α) :=
  xs.filter (fun e => !(decide (lo ≤ e.1) && decide (e.1 < lo + n)))

/-- The update of one element of a vector. -/
def vmod {α : Type} {n : Nat} (xs : Vector α n) (i : Fin n) (f : α → α) : Vector α n :=
  xs.set i (f xs[i])

/-- The element of a list of options at its head, and the rest; `none` on the empty list. -/
def lastN {α : Type} (n : Nat) (xs : List α) : List α := xs.drop (xs.length - n)

end Sys2Proof.Machine
end

