-- ==== Sys2Proof/Machine/State.lean ====
section
/-! DEFINITION. The state of the block as plain data: one register file for every register the manual gives an address,
structures for what lies behind the registers, memory, and the queue of waiting commands. -/

namespace Sys2Proof.Machine

/-- What stops the block. -/
inductive Fault where
  /-- No command of this block stops it: every behaviour the manual gives goes on (00 R10). Kept so that the type is
  inhabited by a name; safe, since nothing raises it. -/
  | stopped
  deriving DecidableEq, Repr

/-- Why a command has no meaning. -/
inductive Refusal where
  /-- Raised by the arms of `exec` whose command has no meaning yet; safe: the run ends there. -/
  | notModelled (mnemonic : String)
  deriving DecidableEq, Repr

/-- A happening of the block's own that falls due at a later cycle. Each is the effect of the command of the same name;
the tick brings it about when its cycle is reached (log 1). -/
inductive Ev where
  | consumerPulse (e : Fin 384)
  | adcTrigger (k : Fin 32) (t : Fin 2)
  | sync (n : Fin 96) (chain : Bool)
  | chainIn (s : Fin 12)
  | encCount (p : Fin 8) (a b : Bool)
  | indexEdge (p : Fin 8)
  | hallChange (p : Fin 8) (st : BitVec 3)
  | sdmSync (g : Fin 8)
  | captureEdge (c : Fin 64) (rise : Bool)
  | dmaTrigger (u : Fin 2) (c : Fin 32)
  | disciplinePulse (p : Fin 8)
  | strobe (p : Fin 8)
  | arm (p : Fin 8)
  | evoutEnd (j : Fin 8)
  | schAdc (k : Fin 32) (entry : Fin 32)
  | schCommit (n : Fin 96)
  | schPea (w : Fin 512) (v : Word) (hd : Fin 131072)
  | schWake (core : Fin 32) (bank : Fin 8)
  | gpioEdge (pin : Fin 1024) (how : Fin 8) (phi : Fin 32)
  | srcPulse (n : Fin 512)
  | senseTake (p : Fin 8)
  | capTake (c : Fin 64)
  | capLook (c : Fin 64)
  | updateApply (p : Fin 8)
  | slewEnd (p : Fin 8)
  | trackerTimeout (p : Fin 8)
  | fire (hd : Fin 131072) (phi : Fin 32) (back late : Bool)
  | zro (n : Fin 96) (phi : Fin 32)
  | prd (n : Fin 96) (phi : Fin 32)
  | compareEvent (n : Fin 96) (x : Fin 4) (down : Bool) (phi : Fin 32)
  | deadBandEnd (n : Fin 96) (outB : Bool) (phi : Fin 32)
  | minimumPulseEnd (n : Fin 96) (outB : Bool) (phi : Fin 32)
  | outStage (n : Fin 96) (phi : Fin 32)
  | adcTap (k : Fin 32) (r : Word)
  | conversionComplete (k : Fin 32)
  | laneResult (s : Fin 12)
  | tripInputActive (s : Fin 12) (i : Fin 8)
  | sliceResetEnd (s : Fin 12)
  | resetEnd
  | domainPowerUp (d : Fin 56)
  | ppsEnd (k : Fin 2)
  | abortComplete (u : Fin 2) (c : Fin 32)
  | drainLimit (n : Fin 96)
  | sliceDrainComplete
  | faultReset (i : Fin 256)
  | eccFix (k since : Nat)
  | tevPulse (i : Fin 16)
  | rowRead (n : Fin 512)
  | padLevel (n : Fin 1024) (l : Bool)
  | doorbell (core : CoreId) (d : Fin 32)
  deriving DecidableEq, Repr

/-- A slew in progress (02 R41): the total `e`, its length, the next step `k`, and for a clamped slew the amount left. -/
structure Slew where
  e : Int
  n : Nat
  k : Nat
  clamped : Bool
  rem : Int
  deriving DecidableEq, Repr

/-- A sensor update between its detection and its application cycle (02 R45): the angle `m` and the interval in 2⁻¹⁶ au
modulo one revolution, the stamp `t` as a CAP_TIME count. -/
structure PbUpdate where
  m : BitVec 36
  t : Word
  due : Nat
  isZ : Bool
  idx : Bool
  bound : Option (BitVec 36 × BitVec 36)
  seen : Nat
  deriving DecidableEq, Repr

/-- A phase base as an update of cycle `cyc` found it: what its application may change (02 R56). -/
structure PbTaken where
  cyc : Nat
  u : PbUpdate
  jump : BitVec 48
  slew : Option Slew
  prevUpd : Option (BitVec 36 × Word)
  nAcc : Nat
  tmoFrom : Option Nat
  bound : Option (BitVec 36 × BitVec 36)
  filtAt : Option Nat
  stat : Word
  vel : Word
  err : Word
  cnt : Word
  jumped : Bool
  deriving DecidableEq, Repr

/-- What a phase base holds behind its registers (02). -/
structure PhaseBase where
  /-- The 48-bit accumulator at the start of the present cycle, PB_ANG its bits 47:16 (R34), and the jumps applied in the
  cycle (R35). -/
  acc : BitVec 48
  jump : BitVec 48
  /-- The angle and the applied velocity at the end of each of the last 256 cycles, newest first (R37). -/
  hist : List (BitVec 48 × Word)
  slew : Option Slew
  /-- The slew as it stood at the start of the present cycle (R54). -/
  slew0 : Option Slew
  /-- The previous accepted update since ACQUIRE was entered (R42). -/
  prevUpd : Option (BitVec 36 × Word)
  /-- Accepted updates since ACQUIRE was entered (R38). -/
  nAcc : Nat
  /-- Cycle of the last restart of the timeout; none while it stands still (R44). -/
  tmoFrom : Option Nat
  encP : BitVec 36
  encA : Bool
  encB : Bool
  encZ : Bool
  /-- The present interval (R48). -/
  bound : Option (BitVec 36 × BitVec 36)
  hall : BitVec 3
  pend : List PbUpdate
  /-- Cycle of the last strobe whose samples are still awaited (R50). -/
  strobeAt : Option Nat
  /-- The exciter's phase in periods at the cycle `excFrom`, from which it runs on with the present PB_EXC (R50, 06 R167). -/
  excFrom : Nat
  excPhi : Rat
  /-- The phase of the cycle before `excFrom`; the cycle from which the 4-cycle grid of UDAC[p] counts, and the code of its last
  update (06 R167). -/
  excLast : Rat
  excGrid : Nat
  udac : Nat
  /-- S and C awaited by the tracker (R50). -/
  sinS : Option (BitVec 16)
  cosS : Option (BitVec 16)
  /-- Cycle of the last PB_SWVEL write, and of the last filter step (R56). -/
  swvelAt : Option Nat
  filtAt : Option Nat
  /-- Cycle of the last pulse of EVC[360 + p], and of the last before that cycle (R53). -/
  evcPulse : Option Nat
  evcPrev : Option Nat
  /-- The cycle in which the decoders take their levels as they stand, with no count (R47, R49). -/
  takeAt : Option Nat
  /-- The in-phase and quadrature parts of the grid's integrator, and the cycle of its last sample (R51). -/
  gridI : Int
  gridQ : Int
  gridAt : Nat
  /-- (`fast`) Whether |VA| exceeded PB_VMAX in the cycle before (R55). -/
  fast : Bool
  /-- REV of the cycle before (R36). -/
  prevRev : BitVec 12
  /-- The updates applied in the present cycle, oldest first, each with what it found (R56). -/
  taken : List PbTaken
  /-- Updates that PB_CATCH has rejected in the present cycle, whose JLIM faults are still to be raised (R40, R56). -/
  jlims : Nat
  deriving DecidableEq, Repr

def PhaseBase.reset : PhaseBase :=
  { acc := 0, jump := 0, hist := [], slew := none, slew0 := none, prevUpd := none, nAcc := 0, tmoFrom := none, encP := 0, encA := false,
    encB := false, encZ := false, bound := none, hall := 0, pend := [], strobeAt := none, excFrom := 0, excPhi := 0, excLast := 0, excGrid := 0, udac := 0,
    sinS := none, cosS := none, swvelAt := none, filtAt := none, evcPulse := none, evcPrev := none, takeAt := none,
    gridI := 0, gridQ := 0, gridAt := 0, fast := false, prevRev := 0, taken := [], jlims := 0 }

/-- A capture record (02 R58). -/
structure CapRec where
  time : Word
  ang : Word
  rise : Bool
  ovf : Bool
  deriving DecidableEq, Repr

/-- What a capture channel holds behind its registers (02 R57 to R59): the level of source 0, the records, a loss not yet
shown, the edges of the present cycle, stored at its end, and the cycle in which a new input is taken with no edge. -/
structure Capture where
  level : Bool
  q : List CapRec
  lost : Bool
  edges : List Bool
  takeAt : Option Nat
  clearAt : Option Nat
  deriving DecidableEq, Repr

def Capture.reset : Capture := { level := false, q := [], lost := false, edges := [], takeAt := none, clearAt := none }

/-- An entry of the action memory (03 R67). NEXT is that of its bin list; NEAR is residence in the near set. -/
structure ActEntry where
  pos : Nat
  pb : Fin 8
  inuse : Bool
  dir : Nat
  catchSkip : Bool
  late : Bool
  type : Nat
  param : Word
  step : Nat
  rn : Nat
  k : Nat
  near : Bool
  target : Nat
  next : Nat
  gen : BitVec 3
  deriving DecidableEq, Repr

def ActEntry.reset : ActEntry :=
  { pos := 0, pb := 0, inuse := false, dir := 0, catchSkip := false, late := false, type := 0, param := 0, step := 0,
    rn := 0, k := 0, near := false, target := 0, next := 0, gen := 0 }

/-- A work item of a walker (03 R77, R78, R82, R83). Bins are counted over revolutions without a break. -/
inductive SchItem where
  /-- A bin crossing, with the bin that the angle entered; none for a bin of a window formed whole. -/
  | cross (mark : Option Int)
  | load (h : Nat)
  /-- A re-insertion to be paid for. -/
  | reins
  /-- An unloaded action of a bin that left, swept over forward or backward or not at all. -/
  | evict (h : Nat) (swept : Option Bool)
  /-- One bin of a sweep, and one of its actions. -/
  | sweepBin (u : Int)
  | sweepAct (h : Nat)
  deriving DecidableEq, Repr

/-- An action of a bin in the window (R77, R81): the first cycle whose crossings concern it, whether it is resident, and
whether it was swept over while it waited, forward (false) or backward. -/
structure SchRec where
  h : Nat
  since : Nat
  resident : Bool
  swept : Option Bool
  deriving DecidableEq, Repr

/-- What the scheduler of one phase base holds (03). -/
structure SchedPb where
  /-- The angle at the end of the cycle before, counted over revolutions from REV at the last set, in 2⁻¹⁶ au: ρ_N is its
  revolution modulo N (R70). -/
  uang : Int
  /-- The arming cycle, the window's centre bin and half-width, and the walker's last processed bin (R76, R77, R85). -/
  armedAt : Nat
  centre : Int
  lead : Nat
  last : Int
  recs : List SchRec
  items : List SchItem
  /-- Actions that a sweep has swept over and not yet reached, forward (false) or backward (R81, R83). -/
  owed : List (Nat × Bool)
  /-- A JUMP is applied in the present cycle (R83). -/
  jumped : Bool
  /-- The cycle of the last arm pulse. -/
  armPulse : Option Nat
  /-- The state that the scheduler takes at the end of the present cycle (R76, R88). -/
  leave : Option Nat
  deriving DecidableEq, Repr

def SchedPb.reset : SchedPb :=
  { uang := 0, armedAt := 0, centre := 0, lead := 2, last := 0, recs := [], items := [], owed := [], jumped := false,
    armPulse := none, leave := none }

/-- A request of the action memory's third port (03 R72 to R74): the cycle in which its write landed, none while it is
held; its initiator by the order of R72; a removal or an insertion; the words submitted (a removal has its word last). -/
structure SchReq where
  land : Option Nat
  ini : Nat
  removal : Bool
  w0 : Word
  w1 : Word
  w2 : Word
  w3 : Word
  deriving DecidableEq, Repr

/-- What an initiator keeps at the insertion port: staged words and results (03 R72, R74). -/
structure SchPort where
  w0 : Word
  w1 : Word
  w2 : Word
  w3 : Word
  insRes : Word
  remRes : Word
  /-- Writes of SCH_INS0 to SCH_INS2 that came after held SCH_INS3 writes: how many of those stand before it, the offset and the
  word (03 R72). -/
  after : List (Nat × Nat × Word)
  deriving DecidableEq, Repr

def SchPort.reset : SchPort := { w0 := 0, w1 := 0, w2 := 0, w3 := 0, insRes := 0, remRes := 0, after := [] }

/-- The scheduler (03). -/
structure Sched where
  entries : List (Nat × ActEntry)
  /-- Bin lists, head first, by 4096 × p + b. -/
  bins : List (Nat × List Nat)
  /-- The free list: handles from `freshNext` upward that were never used, then those freed, oldest first (R66). -/
  freshNext : Nat
  freed : List Nat
  pbs : Vector SchedPb 8
  reqs : List SchReq
  /-- The request that the third port serves in the present cycle, where a command has named it (R73). -/
  due : Option SchReq
  /-- First cycle in which the third port serves a window read again (R78). -/
  readFree : Nat
  /-- The walkers' rotating grant (R78). -/
  rr : Nat
  ports : Vector SchPort 96
  /-- Actions that fired or were skipped in the present cycle and are moved at its end: handle, and the direction of a
  re-insertion (backward?), none for one that is freed (R71). -/
  moves : List (Nat × Option Bool)
  /-- Actions that fired in the present cycle (R74). -/
  fired : List Nat
  /-- The slices under live reconfiguration when the MGE's last held write of the port was made (R89). -/
  live : List Nat
  deriving DecidableEq, Repr

def Sched.reset : Sched :=
  { entries := [], bins := [], freshNext := 0, freed := [], pbs := Vector.replicate 8 SchedPb.reset, reqs := [],
    due := none, readFree := 0, rr := 0, ports := Vector.replicate 96 SchPort.reset, moves := [], fired := [], live := [] }

/-- A consumer pulse on its way (10 R235, R237): the cycle in which it is due, the channel, and the channel's group with its
loop guard as they stood for the source pulse. -/
structure EvmPulse where
  due : Nat
  ch : Nat
  grp : Nat
  guard : Option Nat
  deriving DecidableEq, Repr

/-- The event matrix behind its registers (10). -/
structure Evm where
  /-- Consumer pulses due (R235). -/
  pipe : List EvmPulse
  /-- Those among them with more than one source, by cycle and channel (R235). -/
  co : List (Nat × Nat)
  /-- Gate operations due: cycle, group, open (R240). -/
  gateOps : List (Nat × Nat × Bool)
  /-- Underlying gate states, true = open (R239). -/
  gates : Vector Bool 32
  /-- Delivered pulses of the last 256 cycles: cycle and channel (R241). -/
  counts : List (Nat × Nat)
  /-- Gate states that a write of GATED gives from a cycle on: cycle, group, open (R239). -/
  init : List (Nat × Nat × Bool)
  /-- The sources that have pulsed in the present cycle. -/
  pulsed : List Nat
  deriving DecidableEq, Repr

def Evm.reset : Evm :=
  { pipe := [], co := [], gateOps := [], gates := Vector.replicate 32 true, counts := [], init := [], pulsed := [] }

/-- The level of a pad or of an output position: driven low, driven high, or not driven. -/
inductive PadLvl where
  | lo
  | hi
  | z
  deriving DecidableEq, Repr

/-- A rise of an output to come (04 R104, R105): the instants at which its driver rose and at which the output is to rise, the
instant it would have had but for a stretch of the other output, whether such a stretch moved it, and the fall of its driver
once that has come. -/
structure Rise where
  ref : Nat
  due : Nat
  due0 : Nat
  moved : Bool
  fall : Option Nat
  deriving DecidableEq, Repr

/-- One output of a channel behind the action table: dead band and minimum pulse (04 R104, R105). Instants are in fine
ticks of 62.5 ps, 32 to a cycle. -/
structure OutStage where
  /-- The level that drives the output: A follows REF and B its inverse in complementary mode (R102). -/
  drv : Bool
  lvl : Bool
  /-- Rises due, oldest first, and those that wait for the other output to fall (R104). -/
  rises : List Rise
  waiting : List Rise
  /-- Start S of the present pulse and the minimum pulse M that applied at it (R105, R122). -/
  start : Nat
  minp : Nat
  /-- The output is held to this instant (R105). -/
  hold : Option Nat
  /-- The latest fall, and whether it ended a stretched pulse (R104, R105). -/
  lastFall : Option Nat
  fellHeld : Bool
  /-- The last changes of the level behind polarity, newest first: instant and level (R101, R106). -/
  edges : List (Nat × Bool)
  deriving DecidableEq, Repr

def OutStage.reset : OutStage :=
  { drv := false, lvl := false, rises := [], waiting := [], start := 0, minp := 0, hold := none,
    lastFall := none, fellHeld := false, edges := [] }

/-- The commit stages of a channel: shadows, hold stage, shadows written since the last commit point, set queue (05). -/
structure PwmSet where
  shadow : Vector Word 8
  hold : Vector Word 8
  held : Bool
  isOpen : Bool
  written : BitVec 8
  setq : List (Vector Word 8)
  deriving DecidableEq, Repr

/-- The reset values of PER, CMPA to CMPD, DBR, DBF and MINP (04 R117). -/
def commitReset : Vector Word 8 := #v[0x80, 0, 0, 0, 0, 0, 0, 0]

def PwmSet.reset : PwmSet :=
  { shadow := commitReset, hold := commitReset, held := false, isOpen := false, written := 0, setq := [] }

/-- A write into the commit stages of a channel, which takes effect at the end of its cycle (05 R121, R123, R128): a shadow,
a CLOSE, a FLUSH, and a push of an initiator's staging words. -/
inductive SetWrite where
  | shadow (k : Fin 8) (v : Word)
  | close
  | flush
  | push (ix : Nat) (x : Vector Word 8)
  deriving DecidableEq, Repr

/-- What a PWM channel holds behind its registers (04, 05). -/
structure Pwm where
  /-- EN, the carrier in use and COMP as they governed the last cycle (R99, R100, R501). -/
  ran : Bool
  angle : Bool
  comp : Bool
  /-- The counter: its value `v0` (fine units) at the instant `t0` (fine ticks); `sub` holds the sub-au bits below a
  fine unit with the angle carrier (R93, R97). -/
  t0 : Nat
  v0 : Nat
  sub : Nat
  down : Bool
  deficit : Nat
  /-- The levels that ACTA (REF or A) and ACTB give (R102, R501). -/
  levA : Bool
  levB : Bool
  outA : OutStage
  outB : OutStage
  /-- The instant at which the output stage last followed, or will follow, the levels (R96). -/
  stageAt : Option Nat
  /-- Compare events that occurred in the present segment (R130): compare index 0 to 3. -/
  occ : List Nat
  /-- Prescaler counts, and the occurrences of the present cycle (R113). -/
  ips : Vector Nat 6
  ipsNow : Vector Nat 6
  /-- Cycles in which event outputs 0 and 1 last pulsed (R112). -/
  ev0 : Option Nat
  ev1 : Option Nat
  /-- Sync watchdog: travel left to the deadline in fine units, none while it does not run; and whether its count began while the
  channel stood (R111). -/
  wd : Option Rat
  wdNew : Bool
  /-- A change of COMP in the cycle before, which the output stage takes at the start of this one (R501). -/
  compDue : Bool
  /-- OPEN, HELD, SQLVL and SAFE at the start of the present cycle, as PWM_CMTSTAT shows them (05 R127). -/
  stat0 : Word
  /-- A sync load due at the start of the next cycle: value, direction down (R109). -/
  syncLoad : Option (Nat × Bool)
  /-- Values that become active at the start of the next cycle: index 0 to 7 in the order of R119, value (R120). -/
  acts : List (Fin 8 × Word)
  /-- Values that wait for the boundary at the instant at which they become active (R130). -/
  edgeActs : List (Fin 8 × Word)
  cur : PwmSet
  /-- Writes of the present cycle into the commit stages, oldest first (R121). -/
  writes : List SetWrite
  /-- Instant of the last commit point (R120 BOTH). -/
  commitAt : Option Nat
  staging : List (Nat × Vector Word 8)
  sqres : List (Nat × Word)
  /-- A trip override holds; one begins in the next cycle; a TRIPCLR write landed in the present cycle (R134, R135). -/
  tripOver : Bool
  tripDue : Bool
  clrDue : Bool
  /-- The channel's outputs are in safe state (R136, R139). -/
  safe : Bool
  /-- What the override stage gives outputs A and B from an instant of the present cycle on, newest first; none passes the
  level from polarity (R140). -/
  ovs : List (Nat × Option PadLvl × Option PadLvl)
  /-- With the angle carrier: travel of the present cycle already used before the anchor, in 2⁻¹⁶ au, and whether the
  counter has passed a boundary in the cycle (R97 to R99). -/
  angUsed : Int
  angBnd : Bool
  /-- Hand-off drain of this channel awaits its zero boundary (17 R411). -/
  draining : Bool
  deriving DecidableEq, Repr

def Pwm.reset : Pwm :=
  { ran := false, angle := false, comp := false, t0 := 0, v0 := 0, sub := 0, down := false, deficit := 0, levA := false,
    levB := false, outA := OutStage.reset, outB := OutStage.reset, stageAt := none, occ := [], ips := Vector.replicate 6 0,
    ipsNow := Vector.replicate 6 0, ev0 := none, ev1 := none, wd := none, wdNew := false, compDue := false, stat0 := 0, syncLoad := none, acts := [], edgeActs := [],
    cur := PwmSet.reset, writes := [], commitAt := none, staging := [], sqres := [], tripOver := false, tripDue := false,
    clrDue := false, safe := false, ovs := [], angUsed := 0, angBnd := false, draining := false }

/-- An output position (04 R106, R108; 05 R137): the delay line in service, its next due point, the safe-level copy, the level
at the pad driver at the end of the present cycle and of the one before, the last cycles with a transition there, and the instant
of the transition last delivered, in fine ticks. -/
structure OutPos where
  line : Bool
  calDue : Nat
  copy : PadLvl
  lvl : PadLvl
  was : PadLvl
  moves : List Nat
  edge : Nat
  deriving DecidableEq, Repr

def OutPos.reset : OutPos := { line := false, calDue := 500000, copy := .lo, lvl := .lo, was := .lo, moves := [], edge := 0 }

/-- A start that waits (06 R150): its first entry, source (0 trigger 0, 1 trigger 1, 2 scheduler, 3 software), cycle. -/
structure AdcStart where
  entry : Nat
  src : Nat
  at_ : Nat
  deriving DecidableEq, Repr

/-- A conversion in progress (06 R148 to R151): the entry number, its word as taken, CHKSEL as taken, the source, the
conversions left for the average, the sum of the codes before, the stamp of the first sample instant, the code held,
the cycle of the sample instant and the last conversion cycle, and whether the input has been held. -/
structure AdcConv where
  entry : Nat
  seq : Word
  chk : Nat
  src : Nat
  left : Nat
  sum : Nat
  stamp : Word
  tsel : Bool
  code : Nat
  sampleAt : Nat
  endAt : Nat
  held : Bool
  deriving DecidableEq, Repr

/-- What a SAR core holds behind its registers (06): the conversion in progress, the one awaiting its correction, the
starts that wait, the records of the present correction cycle with their entries, which are stored at its end, the queue with
its pending loss flag, the result registers, the hold copies by initiator. -/
structure Adc where
  cur : Option AdcConv
  done : Option AdcConv
  pending : List AdcStart
  stores : List (Word × BitVec 64)
  q : List (BitVec 64)
  lost : Bool
  res : Vector (BitVec 64) 8
  hold : List (Nat × Word)
  /-- Cycle at which READY becomes 1 (R160). -/
  readyAt : Option Nat
  deriving DecidableEq, Repr

/-- An empty sample record: every field 0 but ID = 0xFF (06 R155). -/
def emptyRec : BitVec 64 := 0xFF0000

def Adc.reset : Adc :=
  { cur := none, done := none, pending := [], stores := [], q := [], lost := false, res := Vector.replicate 8 emptyRec, hold := [],
    readyAt := none }

/-- What a sigma-delta demodulator holds behind its registers (06 R162 to R166): the three integrators and combs of the
sinc3 filter, bits since the last output, outputs still to discard, the queue, the bits of the fast path (newest first)
and their number, the threshold outputs, the conditions of R166, the clock level of the cycle before, the cycle of the
last clock edge, the last bit with the length of its run, and whether a sync pulse fell in the present cycle. -/
structure Sdm where
  i1 : Int
  i2 : Int
  i3 : Int
  p0 : Int
  p1 : Int
  p2 : Int
  n : Nat
  disc : Nat
  q : List (BitVec 64)
  lost : Bool
  hold : List (Nat × Word)
  fbits : List Bool
  fcnt : Nat
  th1 : Bool
  th2 : Bool
  lossClk : Bool
  lossStuck : Bool
  clkPrev : Bool
  edgeAt : Nat
  lastBit : Option Bool
  run : Nat
  sync : Bool
  /-- Outputs of the present cycle, clamped (?), on their way to the queue (R163, R169). -/
  stores : List (Int × Bool)
  deriving DecidableEq, Repr

def Sdm.reset : Sdm :=
  { i1 := 0, i2 := 0, i3 := 0, p0 := 0, p1 := 0, p2 := 0, n := 0, disc := 2, q := [], lost := false, hold := [],
    fbits := [], fcnt := 0, th1 := false, th2 := false, lossClk := false, lossStuck := false, clkPrev := false,
    edgeAt := 0, lastBit := none, run := 0, sync := false, stores := [] }

/-- What a window holds behind its registers (07): whether it is powered, whether a write of the present cycle starts it anew,
comparator outputs, kept samples (newest first), filtered outputs, the majorities decided in the present cycle, the cycle of
the write that started settling, the running ramps (accumulator, slope), and whether a step into the present cycle was clamped,
which a restart in the cycle takes the place of (R179). -/
structure Win where
  on : Bool
  restart : Bool
  compL : Bool
  compU : Bool
  samples : List (Bool × Bool)
  filtL : Bool
  filtU : Bool
  next : Option (Bool × Bool)
  settleFrom : Option Nat
  rampL : Option (Int × Int)
  rampH : Option (Int × Int)
  clampL : Bool
  clampH : Bool
  deriving DecidableEq, Repr

def Win.reset : Win :=
  { on := false, restart := false, compL := false, compU := false, samples := [], filtL := false, filtU := false, next := none,
    settleFrom := none, rampL := none, rampH := none, clampL := false, clampH := false }

/-- What a slice holds beside its channels (05, 17): trip inputs active in this cycle, those of event sources pulsed in
it, the end of a slice reset, and what a live reconfiguration recorded. -/
structure Slice where
  /-- The live causes of safe state, by their bits in PWM_SAFESTAT (05 R136). -/
  causes : BitVec 5
  tripLive : BitVec 8
  tripPulse : BitVec 8
  /-- The pattern levels taken by outputs A and B of the eight channels in turn (17 R411); empty without a drain. -/
  pattern : List (Option PadLvl)
  /-- The drain's PATTERN, its cycle and the cycle in which the last output took its level (R411). -/
  patCode : Word
  drainAt : Nat
  drainLast : Nat
  resetUntil : Option Nat
  /-- XL.EN and LE.RUN bits recorded by a drain (R411), as XL, LE[2s], LE[2s + 1]. -/
  recXl : Bool
  recLe0 : Bool
  recLe1 : Bool
  /-- Whether a live-reconfiguration command is executing on the slice (01 R13). -/
  live : Bool
  deriving DecidableEq, Repr

def Slice.reset : Slice :=
  { causes := 0, tripLive := 0, tripPulse := 0, pattern := [], patCode := 0, drainAt := 0, drainLast := 0, resetUntil := none, recXl := false, recLe0 := false,
    recLe1 := false, live := false }

/-- A snapshot of a lane's operand slots, of VB and of the angle at the sample instant in au (08 R195, R198). -/
structure XlSnap where
  slots : Vector Word 16
  vb : Word
  theta : Nat
  deriving DecidableEq, Repr

/-- A held record of FOC3 (08 R197): result, snapshot of its conversion, the cycle it was held. -/
structure XlRec where
  r : Int
  snap : Option XlSnap
  cycle : Nat
  deriving DecidableEq, Repr

/-- A computation in flight (08 R202 to R204): its result cycle, mode, loop, XL_FOC or XL_LOOP as at its start, the
results that started it, its snapshot, the predicted angle, and whether it does not regulate (R201). -/
structure XlFlight where
  due : Nat
  /-- The integrators once their cycle has come (R202, R203). -/
  ints : Option (Int × Int)
  mode : Nat
  loop : Nat
  cfg : Word
  ra : Int
  rb : Int
  snap : XlSnap
  thE : Nat
  bad : Bool
  deriving DecidableEq, Repr

/-- What an express lane holds behind its registers (08): the tap latches, the snapshots by core, input id and loop, the held
records, the computations in flight, the records of the present cycle (core, low word), the cycle of enabling, the cycle of
the last IRST. -/
structure Xl where
  tap : Vector Int 16
  snaps : List (Nat × XlSnap)
  heldA : Option XlRec
  heldB : Option XlRec
  flight : List XlFlight
  taps : List (Nat × Word)
  enAt : Option Nat
  irstAt : Option Nat
  /-- The cycle in which PAIR_WINDOW ended the pair window (R197, R210), and that of the last result (R207). -/
  pairAt : Option Nat
  resAt : Option Nat
  /-- The compares and windows written in the present cycle, by the loop that wrote them (R205). -/
  wrote : List (Nat × Nat)
  /-- The integrators that results of the present cycle wrote (R210). -/
  intW : List Nat
  deriving DecidableEq, Repr

def Xl.reset : Xl :=
  { tap := Vector.replicate 16 0, snaps := [], heldA := none, heldB := none, flight := [], taps := [],
    enAt := none, irstAt := none, pairAt := none, resAt := none, wrote := [], intW := [] }

/-- A word of the Pea store (09 R218): visible and shadow value, pending bit. -/
structure PeaWord where
  v : Word
  sh : Word
  pend : Bool
  deriving DecidableEq, Repr

def PeaWord.reset : PeaWord := { v := 0, sh := 0, pend := false }

/-- An access that waits for its bank (09 R220, R221): who asked, under which owner code and in which cycle; the word, none for a
loop engine's write of PEA_CMT; the value written, none for a read; whether a command of its own asked, so that the answer is the
command's; and whether the slice that the word belongs to was under live reconfiguration when it was asked. -/
structure PeaReq where
  ini : Nat
  code : Nat
  asked : Nat
  word : Option Nat
  wr : Option Word
  cmd : Bool
  live : Bool
  deriving DecidableEq, Repr

/-- The banks of the Pea store (09 R219 to R223): accesses that wait, oldest first; reads served whose requester has not taken
them (requester, word, value or error); the identity each bank's shared frame cycle served last; and of the present cycle the
writes that land (code, word, value), the domains that commit, the words with a new allocation. -/
structure PeaBus where
  reqs : List PeaReq
  got : List (Nat × Nat × Option Word)
  last : Vector Nat 8
  lands : List (Nat × Nat × Word)
  doms : BitVec 16
  allocs : List Nat
  deriving DecidableEq, Repr

def PeaBus.reset : PeaBus := { reqs := [], got := [], last := Vector.replicate 8 0, lands := [], doms := 0, allocs := [] }

/-- An entry of the fault log (21 R481). -/
structure FltEntry where
  w0 : Word
  w1 : Word
  w2 : Word
  w3 : Word
  deriving DecidableEq, Repr

/-- The fault collector behind its registers (21 R477 to R481): the log, the entries that the present cycle stores at its end
(01 R20), the sequence number and the level sources that live. -/
structure Flt where
  log : List FltEntry
  lands : List FltEntry
  seq : BitVec 16
  live : List Nat
  deriving DecidableEq, Repr

def Flt.reset : Flt := { log := [], lands := [], seq := 0, live := [] }

/-- What a pin holds behind GPIO_PIN (19 R443, R446, R449): the filtered level, the park in progress with the level it
gives, the first cycle in which its function's input follows the pad, and a standby level still held. -/
structure PinS where
  level : Bool
  parkTo : Nat
  park : PadLvl
  inFrom : Nat
  stby : Option PadLvl
  deriving DecidableEq, Repr

def PinS.reset : PinS := { level := false, parkTo := 0, park := .z, inFrom := 0, stby := none }

/-- A wake pin's detector in standby (19 R448): the level that passed its filter, its last sample, and how many samples in a
row agreed with it. -/
structure WakeDet where
  filt : Bool
  last : Bool
  run : Nat
  deriving DecidableEq, Repr

def WakeDet.reset : WakeDet := { filt := false, last := false, run := 0 }

/-- The pins (19): per-pin state by number, the cycles from and to which the EVOUT outputs drive high (R445), the cycles of
the pulses on PWM_SYNCOUT (04 R110), the input signals that are doubly claimed, by function and index, and the pins whose
function changed in the present cycle (R441), whether the safe-level copies are to be taken anew (05 R137), the pad levels that
changed in standby, and the wake detectors (R448). -/
structure Pins where
  pin : List (Nat × PinS)
  evout : Vector (Nat × Nat) 8
  syncOut : List Nat
  conf : List (Nat × Nat)
  claims : List Nat
  copyDue : List Nat
  pads : List (Nat × Bool)
  wakes : Vector WakeDet 64
  deriving DecidableEq, Repr

def Pins.reset : Pins :=
  { pin := [], evout := Vector.replicate 8 (0, 0), syncOut := [], conf := [], claims := [], copyDue := [], pads := [],
    wakes := Vector.replicate 64 WakeDet.reset }

/-- The power states in which the device answers (21 R467). -/
inductive PowerMode where
  | run
  | standbyR
  | standbyO
  deriving DecidableEq, Repr


/-- The states of a register bank (13 R305). -/
inductive BankMode where
  | idle
  | ready
  | running
  | waiting
  | dfhalt
  deriving DecidableEq, Repr

/-- What a WAITING bank waits for (11 R273, R275). -/
inductive WaitKind where
  /-- For the event latch: the cycle in which WFE executed. -/
  | event (since : Nat)
  /-- Angle mode: register of the result, descriptor, cycle of issue, cycle of the timeout. -/
  | angle (rd : Fin 32) (desc : Word) (since : Nat) (tmo : Option Nat)
  /-- Time mode: register of the result, CAP_TIME count awaited. -/
  | time (rd : Fin 32) (target : Word)
  deriving DecidableEq, Repr

/-- A repeat pair in execution (11 R267): address of the prefix, REPU, iterations left. -/
structure Rep where
  pre : Word
  repu : Bool
  left : Nat
  /-- Whether an iteration has begun: the checks of R268 fall before the first. -/
  begun : Bool
  deriving DecidableEq, Repr

/-- One register bank (11 R248 to R250, 13 R301, R305 to R307, R313). -/
structure BankS where
  g : Vector Word 32
  ac : Vector (BitVec 48) 2
  pc : Word
  st : Word
  epc : Word
  est : Word
  lc : Word
  /-- The event latch (11 R273). -/
  latch : Bool
  mode : BankMode
  count : Nat
  sat : Bool
  /-- The cycle in which SAT was set last (00 R8). -/
  satAt : Option Nat
  /-- An activation is in progress (R307). -/
  inAct : Bool
  /-- The restart record: addresses of abandoned instructions (R301). -/
  restart : List Word
  /-- The records that exceptions found: EPC, the record and the PC behind it, the newest first. -/
  saved : List (Word × List Word × Word)
  faddr : Word
  wait : Option WaitKind
  /-- The result of a wait whose condition is met (11 R275). -/
  met : Option Nat
  rep : Option Rep
  /-- A pending asynchronous data error with its address (R313 vector 7). -/
  async : Option Word
  /-- A device-space load that ended in error after a preemption: its address and the data address (R302). -/
  devErr : Option (Word × Word)
  deriving DecidableEq, Repr

/-- CALLM, RETM or a doubleword load of NK-S in progress (11 R266, R270, R271): whether it writes, the words still to be moved as
index, register and address, those read, the stack and link registers' new values, where it goes on (none: the next instruction),
the next instruction's address, and the cycle of the next word, none while that word is awaited. -/
structure Slots where
  write : Bool
  left : List (Nat × Fin 32 × Word)
  got : List (Fin 32 × Word)
  sp : Option Word
  lr : Option Word
  goto : Option Word
  nxt : Word
  due : Option Nat
  deriving DecidableEq, Repr

/-- What an outstanding long instruction brings when it completes (13 R298). -/
inductive LongKind where
  | value (v : Word)
  /-- A system-SRAM load: address, bytes, sign extension. -/
  | sram (addr n : Nat) (sgn : Bool)
  /-- A device-space load: whether its response is no error, its data address, the value. -/
  | device (ok : Bool) (addr v : Word)
  /-- A load whose target has not answered: address, bytes, sign extension, the cycle of its next attempt; and the next
  instruction's address where PC still stands at the load, which a preemption then abandons (R304). -/
  | wait (addr n : Nat) (sgn : Bool) (due : Nat) (nxt : Option Word)
  /-- A Pea-port access of a loop engine with PC still at it (09 R220): the word, none for PEA_CMT, whether it reads, and the next
  instruction's address. -/
  | pea (word : Option Nat) (read : Bool) (nxt : Word)
  /-- FENCE with PC still at it: until the stores of the core have landed. -/
  | drain (nxt : Word)
  /-- A divide of NK-S with PC still at it (R303): its result, the cycle at whose end it is over, the next instruction's address. -/
  | hold (v : Word) (due : Nat) (nxt : Word)
  /-- The lazy transfer of the floating-point file with PC at the instruction that wants it (R311): its last cycle. -/
  | fpFile (due : Nat)
  /-- An instruction of NK-S that moves its words one by one, PC still at it (R304; 11 R270, R271). -/
  | slots (q : Slots)
  deriving DecidableEq, Repr

/-- An outstanding long instruction (R298): its bank, address, kind, destination (g or f register; none where it writes
none), registers read (g as 0 to 31, f as 32 to 63), V and DZ that it writes, and the FCSR flags it raises. -/
structure LongOp where
  bank : Fin 8
  addr : Word
  kind : LongKind
  fp : Bool
  rd : Option (Fin 32)
  reads : List Nat
  vflag : Option Bool
  dz : Bool
  qf : Bool
  nzcv : Option (BitVec 4)
  ff : BitVec 5
  /-- The unit that it occupies: 1 the integer divider, 2 that of FDIV and FSQRT, 0 none (12 R287, R294). -/
  unit : Nat := 0
  /-- The prefix of the repeat pair whose iteration it was, where a preemption has counted that iteration already. -/
  pre : Option Word := none
  deriving DecidableEq, Repr

/-- A store that has not landed: of a loop engine outside its TCM and the Pea store (09 R214), of an NK-L core to its TCM (R296): its
bank, address, bytes, value, and the cycle from whose start on it lands. -/
structure PortStore where
  bank : Fin 8
  addr : Nat
  n : Nat
  val : Nat
  due : Nat := 0
  deriving DecidableEq, Repr

/-- A core (11, 13): banks, the bank that runs, the floating-point file with its owner, outstanding long instructions, the
accesses whose target has not answered, which hold their banks, stores on their way, the interrupt levels of the cycle before,
core reset, whether it enters core reset at the cycle's end and then clears CORE_LOCK too, debug halt, the one instruction
after a write of ST (R308), and the lines of system SRAM in the instruction cache of an NK-L core, newest first (R297). -/
structure CoreS where
  banks : Vector BankS 8
  running : Option (Fin 8)
  f : Vector Word 32
  fcsr : Word
  fpOwner : Option (Fin 8)
  long : List LongOp
  stalls : List LongOp
  stores : List PortStore
  irq : BitVec 320
  inReset : Bool
  stopDue : Option Bool
  halted : Bool
  afterSt : Bool
  icache : List Nat
  deriving DecidableEq, Repr

def BankS.reset : BankS :=
  { g := Vector.replicate 32 0, ac := Vector.replicate 2 0, pc := 0, st := 0x1000, epc := 0, est := 0, lc := 0,
    latch := false, mode := .idle, count := 0, sat := false, satAt := none, inAct := false, restart := [], saved := [], faddr := 0,
    wait := none,
    met := none, rep := none, async := none, devErr := none }

/-- A core held in core reset: bank 0 RUNNING, the others IDLE (R250, R305). -/
def CoreS.reset : CoreS :=
  { banks := (Vector.replicate 8 BankS.reset).set 0 { BankS.reset with mode := .running }, running := some 0,
    f := Vector.replicate 32 0, fcsr := 0, fpOwner := none, long := [], stalls := [], stores := [], irq := 0, inReset := true, stopDue := none, halted := false,
    afterSt := false, icache := [] }

/-- The MGE in device reset: it will run from its ROM at machine privilege (11 R251, 21 R474). -/
def CoreS.mgeReset : CoreS :=
  { CoreS.reset with banks := CoreS.reset.banks.map (fun b => { b with st := 0x2000 }) }

/-- What lane TRI[i] of Triton holds (14 R324): its core with the banks, its TCM, its core-private registers. -/
structure LaneS where
  core : CoreS
  tcm : List (Nat × Byte)
  regs : List (Nat × Word)
  deriving DecidableEq, Repr

/-- What one lane puts out while the lanes are compared (14 R326): outputs by class, and the error words of its TCM that it met, as
offset and whether uncorrectable. -/
structure LaneRun where
  lane : Fin 3
  outs : List (Nat × List Nat)
  errs : List (Nat × Bool)
  deriving DecidableEq, Repr

/-- The pause of a reintegration (14 R336): the cycle in which it began, that in which the drain ended, the cause of a failure in it
(R337), and the activations (false, bank) and doorbells (true, line) that arrived meanwhile, oldest first. -/
structure TriPause where
  start : Nat
  drained : Option Nat
  fail : Option Nat
  held : List (Bool × Nat)
  deriving DecidableEq, Repr

/-- The input vote of Triton (14 R331, R333): the copies that differ from their inputs in the present cycle, by lane and input (0 to 319
the interrupts, 320 + n pad n); for a lane and input the votes lost in a row and the cycle of the last; the voted levels on their
way, by the cycle of their delivery; and the lane isolated last with the cycle and the cause (R338). -/
structure TriVote where
  flips : List (Fin 3 × Nat)
  runs : List ((Fin 3 × Nat) × Nat × Nat)
  pipe : List (Nat × BitVec 320)
  iso : Option (Nat × Fin 3 × Nat)
  deriving DecidableEq, Repr

def TriVote.reset : TriVote := { flips := [], runs := [], pipe := [], iso := none }

/-- The reintegration of a Triton lane in progress (14 R334 to R337): the lane, its start cycle, whether the copy has ended, the
next line of it, the donor's TCM writes not mirrored yet (offset, bytes, value), and the pause. -/
structure Reint where
  lane : Fin 3
  start : Nat
  copied : Bool
  line : Nat
  queue : List (Nat × Nat × Nat)
  pause : Option TriPause
  deriving DecidableEq, Repr

/-- An entry of the memory error log (15 R345). -/
structure EccEntry where
  addr : Word
  info : Word
  deriving DecidableEq, Repr

/-- The memories' error state (15 R341 to R345): ECC words that hold an error, by the key of their first byte (false a
single-bit, true a double-bit error), the log, the entries that the present cycle stores at its end (01 R20), and the scrub
position of each memory. -/
structure EccS where
  bad : List (Nat × Bool)
  log : List EccEntry
  lands : List EccEntry
  scrub : List (Nat × Nat)
  /-- The memories whose port has been used in the present cycle, and the scrub steps that wait for an idle one, by memory and the
  cycle they fell due in, oldest first (R344). -/
  used : List Nat
  due : List (Nat × Nat)
  deriving DecidableEq, Repr

/-- The window onto the TCMs of the loop engines (09 R213): the writes that wait for a cycle of their TCM, by key, bytes and value,
oldest first, and the TCMs that a read has had in the present cycle. -/
structure TcmWin where
  puts : List (Nat × Nat × Nat)
  gets : List Nat
  deriving DecidableEq, Repr

def TcmWin.reset : TcmWin := { puts := [], gets := [] }

def EccS.reset : EccS := { bad := [], log := [], lands := [], scrub := [], used := [], due := [] }

/-- A DMA descriptor as fetched (15 R351): its address and words 0 to 5. -/
structure DmaDesc where
  addr : Nat
  src : Word
  dst : Word
  len : Nat
  rows : Nat
  tmode : Nat
  sstride : Word
  dstride : Word
  deriving DecidableEq, Repr

/-- A descriptor from its fetch to its completion (15 R354): its number in the channel, address, rows, whether every read
has been issued, rows written, and IRQ and EVT once its link word has been read. -/
structure DmaFly where
  seq : Nat
  addr : Nat
  rows : Nat
  allRead : Bool
  rdone : Nat
  link : Option (Bool × Bool)
  deriving DecidableEq, Repr

/-- A filled buffer slot (15 R349, R352): its descriptor, its place in the unit's buffer, the destination of its bytes, the bytes
still to be written, and whether they end a row. -/
structure DmaSlot where
  seq : Nat
  home : Nat
  dst : Nat
  data : List Byte
  last : Bool
  deriving DecidableEq, Repr

/-- A DMA channel beside its registers (15 R350 to R360): the present descriptor, the row and byte it reads next, its
slots, descriptors not complete, an issued link read, the link read that found END, an abort or reset in progress (true for
ABORT), and the cycle of the last doorbell. -/
structure DmaCh where
  seq : Nat
  cur : Option DmaDesc
  row : Nat
  pos : Nat
  rowOn : Bool
  slots : List DmaSlot
  fly : List DmaFly
  link : Bool
  ending : Bool
  abort : Option Bool
  bell : Option Nat
  /-- The bytes gathered of a read burst that takes one access at a time (R353; 03 R78, 09 R213). -/
  part : Option (List Byte)
  /-- The rows of the descriptor completed last (R351). -/
  lastDone : Nat
  deriving DecidableEq, Repr

def DmaCh.reset : DmaCh :=
  { seq := 0, cur := none, row := 0, pos := 0, rowOn := false, slots := [], fly := [], link := false, ending := false,
    abort := none, bell := none, part := none, lastDone := 0 }

/-- A rotating arbiter (15 R346): its pointer and the bursts in a row that the requester at it has had. -/
structure Arb where
  ptr : Nat
  used : Nat
  deriving DecidableEq, Repr

/-- A DMA unit: its channels and the arbiters of its engines. -/
structure DmaUnit where
  chans : Vector DmaCh 32
  rd : Arb
  wr : Arb
  deriving DecidableEq, Repr

def Arb.reset : Arb := { ptr := 0, used := 0 }
def DmaUnit.reset : DmaUnit := { chans := Vector.replicate 32 DmaCh.reset, rd := Arb.reset, wr := Arb.reset }

/-- A fabric target (15 R346): its arbiter and the port it granted last. -/
structure FabTarget where
  arb : Arb
  granted : Option (Fin 12)
  deriving DecidableEq, Repr

def FabTarget.reset : FabTarget := { arb := Arb.reset, granted := none }

/-- A frame of the link without its SEQ, check byte and CRC (16 R371): the fields of its header and its payload; whether it
is forwarded stomped, the port it came from (none for own origin), the cycle it was queued in and its place in the link
buffers (15 R340). -/
structure LFrame where
  dst : BitVec 6
  src : BitVec 6
  plane : BitVec 2
  typ : BitVec 4
  hop : BitVec 5
  payload : List Byte
  stomp : Bool
  from? : Option Port
  queued : Nat
  home : Nat
  deriving DecidableEq, Repr

/-- What training frames have told a port of its partner (16 R368); whether one of the present phase has come. -/
structure LPeer where
  heard : Bool
  rxReady : BitVec 4
  found : BitVec 4
  done : Bool
  widths : Byte
  role : Byte
  credits : Vector Nat 3
  seqs : Vector (BitVec 16) 2
  /-- The last coefficient request on each receive lane. -/
  req : Vector Byte 4
  deriving DecidableEq, Repr

/-- What a port's receiver makes of its four lanes: since when each holds block lock (16 R365, R367), which are equalised, the
coefficient request it sends, the skew of each in units of 0.1 ns, and the invalid sync headers in the present window of the lock
machine and of the high-BER monitor: the window and the count. -/
structure LRx where
  lock : Vector (Option Nat) 4
  ready : BitVec 4
  request : Byte
  skew : Vector (BitVec 16) 4
  lockBad : Vector (Nat × Nat) 4
  berBad : Vector (Nat × Nat) 4
  deriving DecidableEq, Repr

def LRx.reset : LRx :=
  { lock := Vector.replicate 4 none, ready := 0, request := 0, skew := Vector.replicate 4 0, lockBad := Vector.replicate 4 (0, 0),
    berBad := Vector.replicate 4 (0, 0) }

/-- A port of the link beside its registers (16 R367 to R382). The planes are 0 control, 1 management, 2 data. -/
structure LPort where
  /-- The cycle in which the phase, the silent interval or FAILED began. -/
  since : Nat
  silent : Bool
  peer : LPeer
  /-- Frames waiting for the egress, oldest first. -/
  queues : Vector (List LFrame) 3
  /-- The replay buffers of management and data: frames sent and not acknowledged, oldest first. -/
  replay : Vector (List (BitVec 16 × LFrame)) 2
  /-- How many frames at the tail of a replay buffer are to be sent again. -/
  resend : Vector Nat 2
  /-- Resends with no advance of the acknowledgement. -/
  resends : Vector Nat 2
  /-- The cycle since which the oldest unacknowledged frame waits. -/
  waiting : Vector (Option Nat) 2
  txSeq : Vector (BitVec 16) 3
  rxSeq : Vector (BitVec 16) 3
  /-- A raised NAK and its cycle. -/
  nak : Vector (Option Nat) 2
  credits : Vector Nat 3
  /-- Credits freed here since phase 5, and those the partner has reported. -/
  freed : Vector (BitVec 16) 3
  seen : Vector (BitVec 16) 3
  status : Bool
  statusAt : Nat
  /-- A data frame was sent by the guarantee while a control frame waited (01 R15). -/
  guard : Bool
  /-- The slot in which the frame in transmission ends, and that frame as sent. -/
  busy : Nat
  sending : List Byte
  /-- The forwarded frame in transmission, whose receive buffer frees its credits as it ends (R378). -/
  out : Option LFrame
  /-- The last training frame sent on each lane (R367). -/
  train : Vector (List Byte) 4
  rx : LRx
  /-- The data blocks that wait for a transmit lane, its scrambler, and the block on it in the present slot (R365, R366). -/
  blocks : Vector (List (BitVec 64)) 4
  scr : Vector (BitVec 58) 4
  line : Vector (Option Block) 4
  /-- Data slots of recent frames: first slot and count (01 R15). -/
  dataLog : List (Nat × Nat)
  /-- The cycle in which the wake signal ends (R384). -/
  wakeEnd : Nat
  deriving DecidableEq, Repr

def LPeer.reset : LPeer :=
  { heard := false, rxReady := 0, found := 0, done := false, widths := 0, role := 0, credits := Vector.replicate 3 0,
    seqs := Vector.replicate 2 0, req := Vector.replicate 4 0 }

def LPort.reset : LPort :=
  { since := 0, silent := false, peer := LPeer.reset, queues := Vector.replicate 3 [], replay := Vector.replicate 2 [],
    resend := Vector.replicate 2 0, resends := Vector.replicate 2 0, waiting := Vector.replicate 2 none,
    txSeq := Vector.replicate 3 0, rxSeq := Vector.replicate 3 0, nak := Vector.replicate 2 none,
    credits := Vector.replicate 3 0, freed := Vector.replicate 3 0, seen := Vector.replicate 3 0, status := false,
    statusAt := 0, guard := false, busy := 0, sending := [], out := none, train := Vector.replicate 4 [], rx := LRx.reset,
    blocks := Vector.replicate 4 [], scr := Vector.replicate 4 0, line := Vector.replicate 4 none, dataLog := [], wakeEnd := 0 }

/-- The link: its ports UP and DN, the transmit queue with the writes that wait for space (16 R374), the
port that woke the device, until the wake is sent on (R384), and the place that the next frame takes in the link buffers. -/
structure Link where
  up : LPort
  dn : LPort
  txq : List Word
  txqWait : List Word
  woke : Option Port
  place : Nat
  deriving DecidableEq, Repr

def Link.reset : Link := { up := LPort.reset, dn := LPort.reset, txq := [], txqWait := [], woke := none, place := 0 }

/-- A session (18 R427, R428): its keys, the last SEQ consumed, the last reply SEQ, and for a factory session the host's
key (R423). -/
structure Session where
  kc : List Byte
  kr : List Byte
  ki : List Byte
  seq : Word
  rseq : Word
  factory : Option (List Byte)
  deriving DecidableEq, Repr

/-- What the MGE has still to do of a container that it applies (17 R401, R412): a segment as type, target, destination and
data, a removal or an insertion of an action, and the wait for the result of the one before. -/
inductive MgeTask where
  | seg (ix type target dest : Nat) (data : List Byte)
  | rem (v : Word)
  | remGot
  | ins (ix : Nat) (w0 w1 w2 w3 : Word)
  | insGot (ix : Nat)
  deriving DecidableEq, Repr

/-- A long operation in progress (17 R397): its command packet, the cycle it began, its final status and results where they
are settled already, and where it applies a container what is left of it and the handles inserted; the cycle from which its reload
traffic may make its next access (R416). -/
structure LongCmd where
  pkt : List Byte
  start : Nat
  due : Nat
  out : Option (Nat × List Byte)
  todo : Option (List MgeTask)
  got : List Word
  deriving DecidableEq, Repr

/-- The session that authenticated a command: none, the one in force, or the pending one. -/
inductive CmdAuth where
  | no
  | force
  | pend
  deriving DecidableEq, Repr

/-- A READ or READ_BLOCK whose target has not answered every word yet (17 R404): the addresses left, and the words got. -/
structure HeldRead where
  auth : CmdAuth
  pkt : List Byte
  addrs : List Nat
  got : List Word
  deriving DecidableEq, Repr

/-- The command interface (17): waiting packets, sessions, the long operation, a read that waits, the staging area, the applied container,
LE_CTL writes held, the container and handles of each slice reload, the last reply packet made, the heartbeat's
start, and the bridge MAC's first link report. -/
structure Cmd where
  queue : List (List Byte)
  session : Option Session
  pend : Option Session
  long : Option LongCmd
  held : Option HeldRead
  base : Nat
  length : Nat
  /-- SHA-384 of the signed part of the container that LOAD_END verified, with its anchor slot. -/
  digest : List Byte
  heldLe : List (Nat × Word)
  reload : Vector (Nat × Nat) 12
  startedLe : List Nat
  /-- Slices of SLICEUSE of the applied container. -/
  sliceUse : BitVec 16
  /-- Anchor slot and ROLLBACK of the applied container. -/
  applied : Option (Nat × Nat)
  /-- Whether APPLY_CONFIG had started before the one in progress (17 R401). -/
  further : Bool
  reply : List Byte
  hbFrom : Nat
  /-- START has armed the heartbeat (17 R403). -/
  hbArmed : Bool
  /-- Whether the image set LL_DWINB or LL_DWINL (17 R402). -/
  winSet : Bool
  macUp : Bool
  deriving DecidableEq, Repr

def Cmd.reset : Cmd :=
  { queue := [], session := none, pend := none, long := none, held := none, base := 0, length := 0, digest := [], heldLe := [],
    reload := Vector.replicate 12 (0, 0), startedLe := [], sliceUse := 0, applied := none, further := false, reply := [], hbFrom := 0,
    hbArmed := false, winSet := false, macUp := false }

/-- The instructions of the test access port (18 R432). -/
inductive TapInstr where
  | idcode
  | bypass
  | samplePreload
  | extest
  | clamp
  | highz
  | debug
  deriving DecidableEq, Repr

/-- The security subsystem beside its registers (18): draws from the DRBG, the TAP's instruction, boundary register, the
bits that its current data register captured to shift out, and a programming of an anchor slot in progress. -/
structure Sec where
  draws : Nat
  tap : TapInstr
  boundary : List Bool
  shift : List Bool
  fprog : Option (BitVec 1 × BitVec 384)
  deriving DecidableEq, Repr

def Sec.reset : Sec := { draws := 0, tap := .idcode, boundary := [], shift := [], fprog := none }

/-- A time-event generator behind its registers (20 R458 to R460): its due instant in nanoseconds, and the cycles of its
pulses still to come. -/
structure Tev where
  due : Nat
  pulses : List Nat
  deriving DecidableEq, Repr

def Tev.reset : Tev := { due := 0, pulses := [] }

/-- The network clock (20 R456, R457): seconds, nanoseconds in 2⁻²⁴ ns, the seconds copied by a read of NET_TIMEN per
initiator, the generators, those whose due instant is formed anew next cycle, and the cycles to which ETH_PPS drives
high; I²C buses found stuck (R452), and the two stamps of the last frame of a controller (R455): ETH receive 0, 1, ETH
transmit 2, 3, CAN 4 to 11, SENT 12 to 27; CAP_TIME and network time in nanoseconds. -/
structure Net where
  secs : Nat
  nanos : Nat
  copies : List (Nat × Nat)
  tevs : Vector Tev 16
  reform : List (Nat × Nat)
  pps : Vector Nat 2
  stuck : BitVec 4
  stamps : List (Nat × Nat × Nat)
  deriving DecidableEq, Repr

def Net.reset : Net :=
  { secs := 0, nanos := 0, copies := [], tevs := Vector.replicate 16 Tev.reset, reform := [], pps := Vector.replicate 2 0,
    stuck := 0, stamps := [] }

/-- A low-power window twin behind its registers (07 R184): comparator outputs, kept samples (newest first), filtered outputs. -/
structure Twin where
  compL : Bool
  compU : Bool
  samples : List (Bool × Bool)
  filtL : Bool
  filtU : Bool
  deriving DecidableEq, Repr

def Twin.reset : Twin := { compL := false, compU := false, samples := [], filtL := false, filtU := false }

/-- Power (21 R467 to R470, R482): the power state, whether its entry is still in progress, time of the always-on domain
in units of a cycle of CLK_C, its value at entry, a wake request that waits for the entry's end, and the start of each
watchdog's count. -/
structure Power where
  /-- The low-power twins of WIN[0..7]: comparator outputs, kept samples, filtered outputs (07 R184). -/
  twins : Vector Twin 8
  mode : PowerMode
  entering : Bool
  aon : Nat
  entered : Nat
  wake : Bool
  /-- The cycle of CLK_AON of the request on record (R469). -/
  wokeAt : Option Nat
  /-- Domains written off that an access in progress still holds (R466). -/
  offDue : List Nat
  wdgs : Vector Nat 8
  deriving DecidableEq, Repr

def Power.reset : Power :=
  { twins := Vector.replicate 8 Twin.reset, mode := .run, entering := false, aon := 0, entered := 0, wake := false, wokeAt := none, offDue := [], wdgs := Vector.replicate 8 0 }

/-- The answer to the last register or memory access: refused with an error response, or done with the words read. -/
structure Resp where
  ok : Bool
  data : List Word
  deriving DecidableEq, Repr

/-- The one-time-programmable fuse block (18 R420). -/
structure Fuses where
  devid : BitVec 64
  helper : BitVec 8192
  anchor : Vector (BitVec 384) 2
  revoke : BitVec 2
  rollback : BitVec 64
  deriving DecidableEq, Repr

/-- The fuses of a part as it leaves the maker's test: an identity (never 0), no anchor, nothing revoked. What the maker
wrote is open (log 45). -/
def Fuses.reset : Fuses :=
  { devid := 1, helper := 0, anchor := Vector.replicate 2 0, revoke := 0, rollback := 0 }

/-- The chip: every register, memory, unit and fuse. The queue of waiting commands stands beside it in `State`. -/
structure Chip where
  /-- Cycle of CLK_C since device reset; CAP_TIME is its low 32 bits (02 R61). -/
  now : Nat
  /-- Index of the next free value (log 5). -/
  fresh : Nat
  /-- The register file: address and value, by the resets of the register map. -/
  regs : List (Nat × Word)
  /-- The register file at the start of the present cycle, which governs where a write counts from the next cycle on. -/
  regs0 : List (Nat × Word)
  /-- The register file at the start of the cycle before. -/
  regs1 : List (Nat × Word)
  /-- The bits of each register that hardware has set in the present cycle, which a W1C write of the cycle leaves (00 R8). -/
  hwset : List (Nat × Word)
  /-- Of each read-to-clear register that has counted in the present cycle: its value without the cycle's events, and with
  them alone (00 R8). -/
  counted : List (Nat × Word × Word)
  /-- Byte memories by global key (15). -/
  mem : List (Nat × Byte)
  /-- Happenings due at later cycles. -/
  agenda : List (Nat × Ev)
  resp : Resp
  evm : Evm
  pbs : Vector PhaseBase 8
  caps : Vector Capture 64
  sched : Sched
  pwms : Vector Pwm 96
  outs : Vector OutPos 192
  adcs : Vector Adc 32
  sdms : Vector Sdm 32
  wins : Vector Win 96
  slices : Vector Slice 12
  xls : Vector Xl 12
  /-- The Pea store, by word. -/
  pea : List (Nat × PeaWord)
  peaBus : PeaBus
  /-- The loop engine that the cluster port I11 served last (09 R214). -/
  clus : Nat
  flt : Flt
  cores : Vector CoreS 30
  tri : Option Reint
  /-- The lanes TRI[0..2] (14 R324, R329): what a lane holds where it is not what Triton holds in `cores`, `mem` and `regs`; so an
  isolated lane, and one in service that has come apart from the others. -/
  lanes : Vector (Option LaneS) 3
  /-- Whether the halves of the voter disagree (14 R327). -/
  split : Bool
  /-- The lane that executes, while the lanes are compared; none between commands. -/
  run : Option LaneRun
  vote : TriVote
  ecc : EccS
  tcmWin : TcmWin
  dmas : Vector DmaUnit 2
  /-- The fabric targets T0 to T9 (01 R11). -/
  fab : Vector FabTarget 10
  link : Link
  cmd : Cmd
  sec : Sec
  fuses : Fuses
  pins : Pins
  net : Net
  power : Power
  /-- Whether the counters' events of the present cycle have been placed in the agenda (log 1). -/
  swept : Bool
  deriving DecidableEq, Repr

/-- The block's state: the chip and the waiting commands, first in first out. -/
structure State where
  chip : Chip
  pending : List Instr
  deriving DecidableEq, Repr

/-- The chip at the end of a device reset by loss of supply (21 R473, R474): every register at its reset value but the
cause of the reset (R476), every memory 0, and RESET_END due. -/
def Chip.reset : Chip :=
  { now := 0, fresh := 0, regs := [(0x43000200, 1)], regs0 := [(0x43000200, 1)],
    regs1 := [(0x43000200, 1)], hwset := [], counted := [], mem := [], agenda := [(0, .resetEnd)],
    resp := { ok := true, data := [] }, evm := Evm.reset, pbs := Vector.replicate 8 PhaseBase.reset,
    caps := Vector.replicate 64 Capture.reset, sched := Sched.reset, pwms := Vector.replicate 96 Pwm.reset,
    outs := Vector.replicate 192 OutPos.reset, adcs := Vector.replicate 32 Adc.reset,
    sdms := Vector.replicate 32 Sdm.reset, wins := Vector.replicate 96 Win.reset,
    slices := Vector.replicate 12 Slice.reset, xls := Vector.replicate 12 Xl.reset, pea := [], peaBus := PeaBus.reset, clus := 0, flt := Flt.reset,
    cores := (Vector.replicate 30 CoreS.reset).set 5 CoreS.mgeReset, tri := none, lanes := Vector.replicate 3 none, split := false, run := none, vote := TriVote.reset, ecc := EccS.reset, tcmWin := TcmWin.reset,
    dmas := Vector.replicate 2 DmaUnit.reset, fab := Vector.replicate 10 FabTarget.reset,
    link := Link.reset, cmd := Cmd.reset, sec := Sec.reset, fuses := Fuses.reset, pins := Pins.reset, net := Net.reset, power := Power.reset, swept := false }

/-- The block right after reset, with no command waiting. -/
def State.reset : State := { chip := Chip.reset, pending := [] }

end Sys2Proof.Machine
end

