-- ==== Sys2Proof/Machine/Addr.lean ====
section
/-! DEFINITION. Addresses of the registers, block by block, as the register tables of the chapters give them. -/

namespace Sys2Proof.Machine

/-- PB[p] register at `off` (02 R64). -/
def pbR (p off : Nat) : Nat := 0x400C0000 + 0x100 * p + off
/-- CAP[c] register at `off` (02 R65). -/
def capR (c off : Nat) : Nat := 0x400C1000 + 0x20 * c + off
/-- Scheduler register at `off` (03 R91). -/
def schR (off : Nat) : Nat := 0x400D0000 + off
/-- Scheduler register of PB[p] at `off` from +0x100 (03 R91). -/
def schP (p off : Nat) : Nat := 0x400D0100 + 0x20 * p + off
/-- SLICE[s] register at slice offset `off` (01 R24). -/
def slR (s off : Nat) : Nat := 0x40000000 + 0x10000 * s + off
/-- PWM[n] register at channel offset `off` (04 R117). -/
def pwmR (n off : Nat) : Nat := slR (n / 8) (0x1000 + 0x200 * (n % 8) + off)
/-- WIN[w] register at `off` (07 R188). -/
def winR (w off : Nat) : Nat := slR (w / 8) (0x3000 + 0x40 * (w % 8) + off)
/-- ADC[k] register at `off` (06 R145, R172). -/
def adcR (k off : Nat) : Nat :=
  if k < 24 then slR (k / 2) (0x4000 + 0x800 * (k % 2) + off) else 0x400F0000 + 0x800 * (k - 24) + off
/-- XL[s] register at `off` (08 R212). -/
def xlR (s off : Nat) : Nat := slR s (0x5000 + off)
/-- LE[n] register at `off` (09 R232). -/
def leR (n off : Nat) : Nat := slR (n / 2) (0x6000 + 0x1000 * (n % 2) + off)
/-- PWM_XBAR of output position `j` (04 R118). -/
def xbarR (j : Nat) : Nat := slR (j / 16) (0x8400 + 4 * (j % 16))
/-- SDM[k] register at `off` (06 R173). -/
def sdmR (k off : Nat) : Nat := 0x400F8000 + 0x40 * k + off
/-- UDAC[p] register at `off` (06 R174). -/
def udacR (p off : Nat) : Nat := 0x400FA000 + 0x10 * p + off
/-- WIN_LP register of WIN[w] at `off` (07 R189). -/
def winlpR (w off : Nat) : Nat := 0x43000400 + 0x10 * w + off
/-- PEA_ALLOC[w], PEA_DOM[d], PEA_DOMBIN[d] and the other Pea control registers (09 R233). -/
def peaAllocR (w : Nat) : Nat := 0x400FC000 + 4 * w
def peaDomR (d : Nat) : Nat := 0x400FD000 + 8 * d
def peaDomBinR (d : Nat) : Nat := 0x400FD004 + 8 * d
def peaCmtR : Nat := 0x400FD100
def peaStatR : Nat := 0x400FD104
def peaFltwR : Nat := 0x400FD108
def peaPendR : Nat := 0x400FD10C
/-- EVM_ROW[i] word w, EVM_GCFG[g], EVM_GOPEN[g], EVM_GCLOSE[g], EVM_CGRP[q], EVM_COINC[w] (10 R247). -/
def evmRowR (i w : Nat) : Nat := 0x400E0000 + 48 * i + 4 * w
def evmGcfgR (g : Nat) : Nat := 0x400E8000 + 16 * g
def evmGopenR (g : Nat) : Nat := 0x400E8004 + 16 * g
def evmGcloseR (g : Nat) : Nat := 0x400E8008 + 16 * g
def evmCgrpR (q : Nat) : Nat := 0x400E9000 + 4 * q
def evmCoincR (w : Nat) : Nat := 0x400EA000 + 4 * w
def evmGstatR : Nat := 0x400EA040
def evmLgstatR : Nat := 0x400EA044
/-- Registers of the power, clock, reset and fault chapter at `off` (21 R485). -/
def sysR (off : Nat) : Nat := 0x43000000 + off
def fltCfgR (i : Nat) : Nat := sysR (0x1000 + 4 * i)
def fltPendR (w : Nat) : Nat := sysR (0x1400 + 4 * w)
def wdgR (k off : Nat) : Nat := sysR (0x300 + 0x10 * k + off)

/-- Registers of the pins (19 R451). -/
def gpioPinR (n : Nat) : Nat := 0x42000000 + 4 * n
def gpioBank (b off : Nat) : Nat := 0x42001000 + 0x40 * b + off
def gpioEvselR (i : Nat) : Nat := 0x42002000 + 4 * i
def gpioStatR : Nat := 0x42002100
def gpioConfR : Nat := 0x42002104
def gpioWakeR (k : Nat) : Nat := 0x43000500 + 4 * k

end Sys2Proof.Machine
end

