-- ==== Sys2Proof/Machine/MapControl.lean ====
section
/-! DEFINITION. The register map of the control plane: for each register its address pattern, reset value, the bits
software writes, the write-one-to-clear bits, and the written bits that stay writable from SEAL onward. -/

namespace Sys2Proof.Machine

/-- A row of the register map: `n` × `n2` registers at `base + i * st + j * st2`. `rw` are the bits a plain write
sets, `w1c` those a written 1 clears, `live` the bits of `rw` that stay writable from SEAL onward. -/
structure Row where
  base : Nat
  n : Nat
  st : Nat
  n2 : Nat
  st2 : Nat
  rst : Nat
  rw : Nat
  w1c : Nat
  live : Nat
  deriving DecidableEq, Repr

/-- The indices of the register that an address names in a row. -/
def Row.index? (r : Row) (a : Nat) : Option (Nat × Nat) :=
  if a < r.base then none
  else
    let d := a - r.base
    let i := if r.n ≤ 1 then 0 else d / r.st
    let e := d - i * r.st
    let j := if r.n2 ≤ 1 then 0 else e / r.st2
    if i < r.n && j < r.n2 && e - j * r.st2 == 0 then some (i, j) else none

/-- Shorthand for one register, for `n` registers `st` apart, and for a register of each of the eight units of each
slice. -/
def row1 (base rst rw w1c live : Nat) : Row := ⟨base, 1, 1, 1, 1, rst, rw, w1c, live⟩
def rowN (base n st rst rw w1c live : Nat) : Row := ⟨base, n, st, 1, 1, rst, rw, w1c, live⟩
def rowS (base n2 st2 rst rw w1c live : Nat) : Row := ⟨base, 12, 0x10000, n2, st2, rst, rw, w1c, live⟩

/-- PB[p] (02 R64; seal R63). -/
def rowsPb : List Row :=
  let r := fun off rst rw w1c live => rowN (pbR 0 off) 8 0x100 rst rw w1c live
  [r 0x00 0 0xFFF 0 0, r 0x04 0 0 0 0, r 0x08 0 0 0x7FF00 0, r 0x0C 0 0x7FF00 0 0, r 0x10 0 0xFFFFFFFF 0 0,
   r 0x14 0 0xFFFFFFFF 0 0, r 0x18 0 0 0 0, r 0x1C 0 0 0 0, r 0x20 0 0xFFFF 0 0, r 0x24 0x00130040 0x1FFFFF 0 0,
   r 0x28 0x10000 0xFFFFFF 0 0, r 0x2C 0x800 0xFFFFF 0 0, r 0x30 0x0029F16B 0xFFFFFF 0 0, r 0x34 0x3E8 0xFFFF 0 0,
   r 0x38 0 0 0 0, r 0x3C 0 0 0 0, r 0x40 0 0xFF 0 0, r 0x44 0x01000000 0xFFFFFFFF 0 0, r 0x48 0 0xFFFFF 0 0,
   r 0x4C 0 0x3FFFF 0 0, r 0x50 0 0xFFFFFF1F 0 0, r 0x54 0xC350 0xFFFFF 0 0, r 0x58 0 0xFFFFF 0 0,
   r 0x5C 0x7FFF0800 0xFFFFFFFF 0 0, r 0x60 0x4628 0xFFFF 0 0, r 0x64 0 0x11F 0 0, r 0x68 0 0xFFFFF 0 0,
   r 0x6C 0 0xFFFFF 0 0, r 0x70 0 0xFFFFFFFF 0 0xFFFFFFFF, r 0x74 0 0 0 0, r 0x78 0 0 0 0]

/-- CAP_TIME and CAP[c] (02 R64, R65; seal R63). -/
def rowsCap : List Row :=
  let r := fun off rst rw w1c => rowN (capR 0 off) 64 0x20 rst rw w1c 0
  [row1 0x400C0800 0 0 0 0, r 0x00 0 0x1FFFFFF 0, r 0x04 0 0 0x8, r 0x08 0 0 0, r 0x0C 0 0 0, r 0x10 0 0 0]

/-- The scheduler (03 R91; seal R90). SCH_PBIRQ stays writable: R90 lists only SCH_PBCFG as ignored (log 20). -/
def rowsSch : List Row :=
  let r := fun off rst rw w1c live => rowN (schP 0 off) 8 0x20 rst rw w1c live
  [rowN (schR 0) 9 4 0 0 0 0,
   r 0x00 0x4 0x1FF 0 0, r 0x04 0 0 0 0, r 0x08 0 0 0xFC 0, r 0x0C 0 0xFC 0 0xFC, r 0x10 0 0 0 0, r 0x14 0 0 0 0,
   r 0x18 0 0 0 0, r 0x1C 0 0 0 0]

/-- PWM[n] (04 R117, 05 R143; seal R116, R142). PWM_SYNC keeps SRC and PWM_CFG keeps CARNEXT. -/
def rowsPwm : List Row :=
  let r := fun off rst rw w1c live => rowS (pwmR 0 off) 8 0x200 rst rw w1c live
  [r 0x00 0 0xFFF7 0 0x10, r 0x04 0x80 0 0 0, r 0x08 0 0 0 0, r 0x0C 0 0 0 0, r 0x10 0 0 0 0, r 0x14 0 0 0 0,
   r 0x18 0 0 0 0, r 0x1C 0 0 0 0, r 0x20 0 0 0 0, r 0x24 0 0xFFFFF 0 0, r 0x28 0 0xFFFFF 0 0, r 0x2C 0 0xF 0 0,
   r 0x30 0 0x03FF03FF 0 0, r 0x34 0 0x7FFF 0 0x7FFF, r 0x38 0 0xFFFFFF 0 0xFFFFFF, r 0x3C 0 0 0x7F3F 0,
   r 0x40 0 0 0 0, r 0x44 0 0xFFFFFFFF 0 0x2, r 0x48 0 0xFFFFFFFF 0 0, r 0x4C 0 0 0 0, r 0x50 0 0 0 0,
   r 0x80 0x8 0x1FF 0 0, r 0x84 0 0 0 0, r 0x88 0 0 0x3F00 0, r 0x8C 0 0x3F00 0 0x3F00, r 0x90 0 0 0 0,
   r 0x94 0 0x7FFF 0 0, r 0x98 0 0 0 0, r 0x9C 0 0xF 0 0]
  ++ [⟨pwmR 0 0xA0, 12, 0x10000, 8, 0x200, 0, 0, 0, 0⟩, r 0xC0 0 0 0 0, r 0xC4 0 0 0 0]

/-- Slice registers of the PWM chapters (04 R118, 05 R144). PWM_XBAR and PWM_SAFECFG are locked by SEAL. -/
def rowsSlicePwm : List Row :=
  [rowN (slR 0 0x10) 12 0x10000 0x10 0x1F 0 0, rowS (slR 0 0x8400) 16 4 0 0xFF 0 0,
   rowS (slR 0 0x8000) 8 4 0 0x3FF 0 0, rowN (slR 0 0x8020) 12 0x10000 0 0 0xFF00 0,
   rowN (slR 0 0x8040) 12 0x10000 0x7F 0xFF 0 0, rowN (slR 0 0x8044) 12 0x10000 0 0 0x1F00 0]

/-- ADC[k] (06 R172; seal R171): the slice cores, then the utility cores. -/
def rowsAdc : List Row :=
  let b := fun off n2 st2 rst rw w1c live =>
    [(⟨slR 0 (0x4000 + off), 12, 0x10000, n2, st2, rst, rw, w1c, live⟩ : Row),
     ⟨slR 0 (0x4800 + off), 12, 0x10000, n2, st2, rst, rw, w1c, live⟩,
     ⟨0x400F0000 + off, 8, 0x800, n2, st2, rst, rw, w1c, live⟩]
  b 0x00 1 1 0x4000 0x7FFF 0 0 ++ b 0x04 1 1 0 0 0x7F00 0 ++ b 0x08 1 1 0 0x7F00 0 0x7F00 ++ b 0x0C 1 1 0 0x31F1F 0 0 ++
  b 0x10 1 1 0 0 0 0 ++ b 0x14 1 1 0 0 0 0 ++ b 0x18 1 1 0xFF0000 0 0 0 ++ b 0x1C 1 1 0 0 0 0 ++ b 0x20 1 1 0 0 0 0 ++
  [⟨0x400F0000 + 0x28, 8, 0x800, 1, 1, 0x1FF, 0x1FF, 0, 0x1FF⟩] ++
  b 0x40 8 4 0x10000000 0xFFFFFFFF 0 0 ++ b 0x60 8 4 0x7FFF8000 0xFFFFFFFF 0 0 ++ b 0x80 8 4 0xFF0000 0 0 0 ++
  b 0x100 32 4 0x10800000 0x3FFFFFFF 0 0

/-- SDM[k], SDM_CLKDIV[g] and UDAC[p] (06 R173, R174; seal R171). -/
def rowsSdm : List Row :=
  let r := fun off rst rw w1c live => rowN (sdmR 0 off) 32 0x40 rst rw w1c live
  let u := fun off rst rw live => rowN (udacR 0 off) 8 0x10 rst rw 0 live
  [r 0x00 0x19F8 0xFFFFFFF 0 0, r 0x04 0x204F 0xFF7F 0 0, r 0x08 0x7FF 0x07FF07FF 0 0, r 0x0C 0 0 0x7F00 0,
   r 0x10 0 0x7F00 0 0x7F00, r 0x14 0 0 0 0, r 0x18 0xFF0000 0 0 0, r 0x1C 0 0 0 0, r 0x20 0 0 0 0,
   rowN 0x400F9000 8 4 0x19 0x17F 0 0, u 0x0 0 0x3 0, u 0x4 0 0xFFF 0xFFF, u 0x8 0x06000800 0x0FFF0FFF 0]

/-- WIN[w] and WIN_SUM (07 R188; seal R187), and the low-power twins (R189). -/
def rowsWin : List Row :=
  let r := fun off rst rw w1c live => rowS (winR 0 off) 8 0x40 rst rw w1c live
  let l := fun off rst rw w1c => rowN (winlpR 0 off) 8 0x10 rst rw w1c rw
  [r 0x00 0x40 0xFFF 0 0, r 0x04 0x0FFF0000 0x0FFF0FFF 0 0x0FFF0FFF, r 0x08 0 0x1FFFFF 0 0, r 0x0C 0 0x1FFFFF 0 0,
   r 0x10 0x1 0 0x3F00 0, r 0x14 0 0x3F00 0 0x3F00, r 0x18 0x0FFF0000 0 0 0, rowN (slR 0 0x3800) 12 0x10000 0 0 0 0,
   l 0x0 0x40 0xFFF 0, l 0x4 0x0FFF0000 0x0FFF0FFF 0, l 0x8 0x1 0 0x100]

/-- XL[s] (08 R212; seal R211). -/
def rowsXl : List Row :=
  let r := fun off n2 rst rw w1c live =>
    (⟨slR 0 (0x5000 + off), 12, 0x10000, n2, 4, rst, rw, w1c, live⟩ : Row)
  [r 0x00 1 0 0x1F 0 0, r 0x04 1 0 0 0x7F00 0, r 0x08 1 0 0x7F00 0 0x7F00, r 0x0C 1 0 0 0 0, r 0x10 1 0 0 0 0,
   r 0x14 1 0x8800 0xFFFFF 0 0, r 0x18 1 0 0xFFFFFF 0 0, r 0x1C 1 0 0xFFFF 0 0, r 0x20 1 0 0xFFFFFFFF 0 0,
   r 0x24 1 0 0 0 0, r 0x40 4 0 0xFF1FFFFF 0 0, r 0x80 16 0 0x7FFFF 0 0, r 0xC0 16 0 0xFFFFFFFF 0 0,
   r 0x100 4 0 0xFFFFFFFF 0 0, r 0x110 4 0 0x3FF 0 0, r 0x120 4 0 0 0 0]

/-- LE[n] (09 R232) and the Pea control registers (R233; seal R228). -/
def rowsLe : List Row :=
  let r := fun off rst rw w1c => (⟨slR 0 (0x6000 + off), 12, 0x10000, 2, 0x1000, rst, rw, w1c, rw⟩ : Row)
  [r 0x0 0 0x1 0, r 0x4 0 0 0x100, r 0x8 0 0xFF 0,
   rowN (peaAllocR 0) 512 4 0x3C3F 0x3FFF 0 0, rowN (peaDomR 0) 16 8 0x3F000 0x3FFFF 0 0,
   rowN (peaDomBinR 0) 16 8 0 0x0FFF0FFF 0 0, row1 peaCmtR 0 0 0 0, row1 peaStatR 0 0 0xF 0, row1 peaFltwR 0 0 0 0,
   row1 peaPendR 0 0 0 0]

/-- The event matrix (10 R247). -/
def rowsEvm : List Row :=
  [⟨evmRowR 0 0, 512, 48, 12, 4, 0, 0xFFFFFFFF, 0, 0⟩, rowN (evmGcfgR 0) 32 16 0x00F14000 0x00F1FF03 0 0,
   rowN (evmGopenR 0) 32 16 0 0x03FF03FF 0 0, rowN (evmGcloseR 0) 32 16 0 0x03FF03FF 0 0,
   rowN (evmCgrpR 0) 96 4 0 0x1F1F1F1F 0 0, rowN (evmCoincR 0) 12 4 0 0 0xFFFFFFFF 0, row1 evmGstatR 0xFFFFFFFF 0 0 0,
   row1 evmLgstatR 0 0 0xFFFFFFFF 0]

/-- Power, clocks, reset and faults (21 R485). -/
def rowsSys : List Row :=
  let w := fun off rw w1c => rowN (wdgR 0 off) 8 0x10 0 rw w1c 0
  [row1 (sysR 0x00) 0 0 0 0, row1 (sysR 0x04) 0 0 0xF00 0, row1 (sysR 0x08) 0xFFFFFFFF 0xFFFFFFFF 0 0xFFF00000,
   row1 (sysR 0x0C) 0xFFFFFF 0xFFFFFF 0 0xFFF, row1 (sysR 0x10) 0xFFFFFFFF 0 0 0, row1 (sysR 0x14) 0xFFFFFF 0 0 0,
   row1 (sysR 0x18) 0xFF 0xFF 0 0, row1 (sysR 0x1C) 0 0 0x100 0, row1 (sysR 0x20) 0 0xFFFFFF 0 0xFFFFFF,
   row1 (sysR 0x24) 0 0 0 0, row1 (sysR 0x28) 0x02580230 0xFFFFFFFF 0 0, row1 (sysR 0x100) 0 0 0x0FFF0000 0,
   row1 (sysR 0x200) 0 0 0x3F 0, w 0x0 0x3FFFFF 0, w 0x4 0xFFFF 0, w 0x8 0 0, w 0xC 0 0x30000,
   rowN (fltCfgR 0) 256 4 0 0x0FFF0007 0 0, rowN (fltPendR 0) 8 4 0 0 0xFFFFFFFF 0, row1 (sysR 0x1440) 0 0 0 0,
   rowN (sysR 0x1444) 3 4 0 0 0 0, row1 (sysR 0x1450) 0 0 0 0, row1 (sysR 0x1454) 0 0 0 0,
   row1 (sysR 0x1458) 0x20 0x7F 0 0]

/-- The pins (19 R451). The W1C bits of GPIO_ISTAT and the mixed registers have their own behaviour. -/
def rowsGpio : List Row :=
  let b := fun off rw w1c => rowN (gpioBank 0 off) 16 0x40 0 rw w1c rw
  [rowN (gpioPinR 0) 1024 4 0x000C0270 0xFFFFF 0 0x38000, b 0x00 0xFFFFFFFF 0, b 0x04 0xFFFFFFFF 0,
   b 0x08 0xFFFFFFFF 0, b 0x0C 0xFFFFFFFF 0, b 0x10 0 0, b 0x14 0 0, b 0x18 0 0xFFFFFFFF, b 0x1C 0 0xFFFFFFFF,
   b 0x20 0xFFFFFFFF 0, b 0x24 0xFFFFFFFF 0, b 0x28 0 0, rowN (gpioEvselR 0) 32 4 0xC00 0xFFF 0 0,
   row1 gpioStatR 0 0 0x7 0, row1 gpioConfR 0 0 0 0]

/-- The wake detectors (19 R451). -/
def rowsWake : List Row := [rowN (gpioWakeR 0) 64 4 0 0x1F 0x100 0x1F]

/-- The floor of a fault source (21 R477). -/
def fltFloor (i : Nat) : Nat :=
  if i = 34 || i = 162 || i = 164 || i = 177 then 3 else 0

end Sys2Proof.Machine
end

