-- ==== Sys2Proof/Machine/MapSystem.lean ====
section
/-! DEFINITION. The register map of Triton, memory, DMA, link, commands, security, networks and the slices' control
blocks: rows as in the map of the control plane. -/

namespace Sys2Proof.Machine

/-- SLICE_STAT and SLICE_AINMAP (17 R419). -/
def rowsSliceCtl : List Row :=
  [rowN (slR 0 0x0) 12 0x10000 0 0 0 0, rowN (slR 0 0x4) 12 0x10000 0 0 0 0]

/-- Triton (14 R339). -/
def rowsTri : List Row :=
  [row1 0x43002000 0x8 0xFF 0 0, row1 0x43002004 0x70 0 0x1F00 0, row1 0x43002008 0 0 0 0, row1 0x4300200C 0x3E8 0xFFFF 0 0,
   row1 0x43002010 0 0 0 0, row1 0x43002014 0 0 0 0, row1 0x43002018 0 0 0 0, rowN 0x43002020 3 4 0 0 0 0]

/-- Memory (15 R363, weights R346; seal R362). -/
def rowsMem : List Row :=
  [row1 0x43003000 0x4 0xF 0 0, rowN 0x43003004 5 4 0x2 0xF 0 0, rowN 0x43003018 6 4 0x4 0xF 0 0,
   row1 0x43003040 0x00010001 0x00FFFF01 0 0, row1 0x43003044 0 0 0 0, row1 0x43003048 0 0 0 0, row1 0x4300304C 0 0 0 0,
   row1 0x43003050 0x10 0xFFFFFFFF 0 0xFFFFFFFF, row1 0x43003054 0 0 0x3 0, row1 0x43003058 0 0 0 0,
   row1 0x4300305C 0 0 0 0]

/-- DMA (15 R364; seal R362). -/
def rowsDma : List Row :=
  let r := fun off rst rw w1c live => (⟨0x44001000 + off, 2, 0x10000, 32, 0x40, rst, rw, w1c, live⟩ : Row)
  [rowN 0x44000000 2 0x10000 0x10000 0 0 0, rowN 0x44000004 2 0x10000 0 0 0 0,
   r 0x00 0x400 0 0 0, r 0x04 0 0 0 0, r 0x08 0 0 0 0, r 0x0C 0 0 0x3F00 0, r 0x10 0 0 0 0, r 0x14 0 0 0 0,
   r 0x18 0 0x3F00 0 0x3F00, r 0x1C 0 0xFFFFFFFF 0 0xFFFFFFFF, r 0x20 0 0 0 0, r 0x24 0 0 0 0]

/-- The link (16 R388; seal R387). -/
def rowsLink : List Row :=
  let r := fun off rst rw w1c live => rowN (0x45000100 + off) 2 0x100 rst rw w1c live
  [row1 0x45000000 0 0 0 0, row1 0x45000004 0 0 0x3F 0, row1 0x45000008 0 0x3F 0 0x3F, row1 0x45000010 0 0xFFFFFFE0 0 0,
   row1 0x45000014 0 0xFFFFFFE0 0 0, row1 0x45000020 0x1403 0xFF07 0 0xFF07, row1 0x45000024 0 0 0 0,
   row1 0x45000030 0x88B50000 0xFFFF0001 0 0, row1 0x45000034 0x356 0x0FFF0777 0 0, row1 0x45000038 0 0xFFFFFFFF 0 0,
   row1 0x4500003C 0 0xFFFF 0 0, row1 0x45000040 0 0 0 0,
   r 0x00 0xA01 0 0 0, r 0x04 0 0 0x1F000000 0, r 0x08 0 0x1F000000 0 0x1F000000, r 0x0C 0 0 0 0,
   r 0x10 0x14 0xFFFF 0 0xFFFF, r 0x14 0 0 0 0, r 0x18 0 0 0 0, r 0x1C 0 0 0 0, r 0x20 0 0 0 0, r 0x24 0 0 0 0,
   r 0x28 0 0 0 0, ⟨0x45000130, 2, 0x100, 4, 4, 0, 0, 0, 0⟩]

/-- The command interface (17 R418). -/
def rowsCmd : List Row :=
  [row1 0x45008000 0 0 0 0, row1 0x45008004 0 0 0xF 0, row1 0x45008008 0 0xF 0 0xF, row1 0x4500800C 0 0xFFFF 0 0,
   row1 0x45008010 0 0 0 0, row1 0x45008014 0x03E8000A 0xFFFF007F 0 0, row1 0x45008018 0 0 0 0, row1 0x4500801C 0 0 0 0]

/-- Security (18 R437). -/
def rowsSec : List Row :=
  [row1 0x50000000 0 0 0xF00 0, rowN 0x50000004 4 4 0 0 0 0, row1 0x50000014 0 0 0 0, row1 0x50000018 0 0 0 0,
   row1 0x5000001C 0 0 0 0, row1 0x50000020 0x19640E4B 0 0 0, rowN 0x50000040 12 4 0 0 0 0, row1 0x50000070 0 0 0 0]

/-- Networks (20 R464; seal R463). -/
def rowsNet : List Row :=
  let r := fun off rst rw w1c => rowN (0x41080100 + off) 16 0x20 rst rw w1c rw
  [row1 0x41080000 0 0 0 0, row1 0x41080004 0 0 0 0, row1 0x41080008 0 0 0 0, row1 0x4108000C 0x01000000 0xFFFFFFFF 0 0xFFFFFFFF,
   row1 0x41080010 0 0 0 0, row1 0x41080014 0 0x3FFFFFFF 0 0x3FFFFFFF, row1 0x41080018 0 0 0 0,
   r 0x00 0 0x7FFF 0, r 0x04 0 0x3FFFFFFF 0, r 0x08 0 0xFFFFFFFF 0, r 0x0C 0xF4240 0xFFFFFFFF 0, r 0x10 0 0 0,
   r 0x14 0 0 0, r 0x18 0 0 0x3, r 0x1C 0 0 0, rowN 0x41080400 2 4 0xF 0xFF 0 0]

end Sys2Proof.Machine
end

