-- ==== Sys2Proof/Machine/RegMap.lean ====
section
/-! DEFINITION. The whole register map: the row of an address, reset values, and the behaviour of a register that has
none of its own (00 R5 to R8). -/

namespace Sys2Proof.Machine

/-- The rows that can hold an address, by the top-level map (01 R24) and the slice layout (R25). -/
def rowsAt (a : Nat) : List Row :=
  if a < 0x400C0000 then
    let o := a % 0x10000
    if o < 0x10 then rowsSliceCtl
    else if o < 0x1000 then rowsSlicePwm
    else if o < 0x3000 then rowsPwm
    else if o < 0x4000 then rowsWin
    else if o < 0x5000 then rowsAdc
    else if o < 0x6000 then rowsXl
    else if o < 0x8000 then rowsLe
    else rowsSlicePwm
  else if a < 0x400C0800 then rowsPb
  else if a < 0x400D0000 then rowsCap
  else if a < 0x400E0000 then rowsSch
  else if a < 0x400F0000 then rowsEvm
  else if a < 0x400F8000 then rowsAdc
  else if a < 0x400FC000 then rowsSdm
  else if a < 0x40100000 then rowsLe
  else if a < 0x42000000 then rowsNet
  else if a < 0x43000000 then rowsGpio
  else if a < 0x43000400 then rowsSys
  else if a < 0x43000500 then rowsWin
  else if a < 0x43000600 then rowsWake
  else if a < 0x43002000 then rowsSys
  else if a < 0x43003000 then rowsTri
  else if a < 0x44000000 then rowsMem
  else if a < 0x45000000 then rowsDma
  else if a < 0x45008000 then rowsLink
  else if a < 0x50000000 then rowsCmd
  else rowsSec

/-- The first row that holds an address, with the indices of the register in it. -/
def findRow (a : Nat) : List Row → Option (Row × Nat × Nat)
  | [] => none
  | r :: rs =>
    match r.index? a with
    | some (i, j) => some (r, i, j)
    | none => findRow a rs

def rowOf (a : Nat) : Option (Row × Nat × Nat) := findRow a (rowsAt a)

/-- The reset values of the core-private registers (13 R323), keyed beyond the address space by core. -/
def resetPriv (a : Nat) : Word :=
  let mge := a / 2 ^ 32 == 6
  let off := a % 2 ^ 32
  if off = 0 then (if mge then 0xF0000000 else 0)
  else if 0x100 ≤ off ∧ off < 0x200 ∧ off % 0x20 = 0 then
    (if mge then 4 else 2) + (if off = 0x100 ∨ off = 0x1E0 then 1 else 0)
  else 0

/-- The reset value of a register (00 R5); an address that names none reads 0 (R7). -/
def resetVal (a : Nat) : Word :=
  if 2 ^ 32 ≤ a then resetPriv a else
  match rowOf a with
  | none => 0
  | some (r, i, j) =>
    if r.base = slR 0 0x8400 then BitVec.ofNat 32 (16 * i + j)
    else if r.base = slR 0 0x4100 || r.base = slR 0 0x4900 then BitVec.ofNat 32 (r.rst + 8 * i)
    else if r.base = 0x400F0100 then BitVec.ofNat 32 (r.rst + 96 + 8 * i)
    else if r.base = fltCfgR 0 then BitVec.ofNat 32 (fltFloor i)
    else if r.base = slR 0 0x4 then BitVec.ofNat 32 i
    else BitVec.ofNat 32 r.rst

end Sys2Proof.Machine
end

