-- ==== Sys2Proof/Machine/Ops.lean ====
section
/-! DEFINITION. The named operations over the register file, bits and fields, the agenda, the device state and the
initiators, which every family uses. -/

namespace Sys2Proof.Machine

/-! ### Registers -/

/-- The stored value of a register. -/
def Chip.reg (c : Chip) (a : Nat) : Word := aread (resetVal a) c.regs a

/-- The value of a register at the start of the present cycle. -/
def Chip.reg0 (c : Chip) (a : Nat) : Word := aread (resetVal a) c.regs0 a
def Chip.fld0 (c : Chip) (a lo w : Nat) : Nat := (c.reg0 a).fld lo w
def Chip.bit0 (c : Chip) (a i : Nat) : Bool := (c.reg0 a).bit i

/-- The register file with `v` at `a`. -/
def Chip.setReg (c : Chip) (a : Nat) (v : Word) : Chip := { c with regs := aset (resetVal a) c.regs a v }

/-- Field of `w` bits at `lo` of a register. -/
def Chip.fld (c : Chip) (a lo w : Nat) : Nat := (c.reg a).fld lo w
def Chip.setFld (c : Chip) (a lo w x : Nat) : Chip := c.setReg a ((c.reg a).withFld lo w x)
def Chip.bit (c : Chip) (a i : Nat) : Bool := (c.reg a).bit i
/-- The bits that hardware has set in a register in the present cycle. -/
def Chip.fresh1 (c : Chip) (a : Nat) : Word := aread 0 c.hwset a
/-- The bits of `m` set by hardware in a register; a W1C write of the same cycle leaves them set (00 R8). -/
def Chip.setBits (c : Chip) (a m : Nat) : Chip :=
  { c.setReg a (c.reg a ||| BitVec.ofNat 32 m) with hwset := aset 0 c.hwset a (c.fresh1 a ||| BitVec.ofNat 32 m) }
/-- The bits of `m` cleared in a register. -/
def Chip.clrBits (c : Chip) (a m : Nat) : Chip := c.setReg a (c.reg a &&& ~~~ BitVec.ofNat 32 m)
/-- Bit `i` of a register made `b`. -/
def Chip.putBit (c : Chip) (a i : Nat) (b : Bool) : Chip := if b then c.setBits a (2 ^ i) else c.clrBits a (2 ^ i)

/-- What a write of `v` clears of the W1C bits `m` of a register: hardware sets of the same cycle win (00 R8). -/
def Chip.w1c (c : Chip) (a : Nat) (m v : Word) : Word := c.reg a &&& ~~~ (v &&& m &&& ~~~ c.fresh1 a)

/-- The register file with every register of `[lo, lo + n)` at its reset value, at once. -/
def Chip.dropRegs (c : Chip) (lo n : Nat) : Chip :=
  { c with regs := adrop lo n c.regs, regs0 := adrop lo n c.regs0, hwset := adrop lo n c.hwset, counted := adrop lo n c.counted }

/-- A counting field of `w` bits at `lo` that stops at its maximum (01 R21 SATURATE). -/
def satField (v : Word) (lo w : Nat) : Word := v.withFld lo w (min (v.fld lo w + 1) (2 ^ w - 1))

/-- One event counted in a field of a register, noted as one of the present cycle (00 R8). -/
def Chip.satInc (c : Chip) (a lo w : Nat) : Chip :=
  let b := (aget c.counted a).getD (c.reg a, 0)
  { c.setReg a (satField (c.reg a) lo w) with counted := aput c.counted a (b.1, satField b.2 lo w) }

/-- `n` events counted at once (00 R8). -/
def Chip.satAdd (c : Chip) (a lo w n : Nat) : Chip :=
  let f := fun (v : Word) => v.withFld lo w (min (v.fld lo w + n) (2 ^ w - 1))
  let b := (aget c.counted a).getD (c.reg a, 0)
  { c.setReg a (f (c.reg a)) with counted := aput c.counted a (b.1, f b.2) }

/-- A register read that returns the value and clears it; an event of the same cycle is not in the value returned and stays
recorded (00 R8, RC). -/
def Chip.readClear (c : Chip) (a : Nat) : Word × Chip :=
  match aget c.counted a with
  | some b => (b.1, { c.setReg a b.2 with counted := aput c.counted a (0, b.2) })
  | none => (c.reg a, c.setReg a 0)

/-! ### Time -/

/-- CAP_TIME: cycles of CLK_C since device reset, modulo 2³² (02 R61). -/
def Chip.capTime (c : Chip) : Word := BitVec.ofNat 32 c.now

/-- A happening due `d` cycles from now. -/
def Chip.schedule (c : Chip) (d : Nat) (i : Ev) : Chip := { c with agenda := c.agenda ++ [(c.now + d, i)] }

/-- The agenda without the happenings that `p` names. -/
def Chip.unschedule (c : Chip) (p : Ev → Bool) : Chip :=
  { c with agenda := c.agenda.filter (fun e => !p e.2) }

/-- The instant of fine tick `phi` of the present cycle, in fine ticks (03 R80). -/
def Chip.instant (c : Chip) (phi : Nat) : Nat := 32 * c.now + phi

/-- A free value: a word the manual does not state, another for each use (log 5). -/
def Chip.free (c : Chip) : Word × Chip := (Config.freeWord c.fresh, { c with fresh := c.fresh + 1 })

/-! ### Device state -/

/-- CMD_STAT (17 R418). -/
def cmdStatR : Nat := 0x45008000

/-- The device state by its code (17 R395). -/
def Chip.devState (c : Chip) : Nat := c.fld cmdStatR 0 4

/-- SEALED, RUNNING or SAFE: from SEAL onward (01 R13, 17 R395). -/
def Chip.sealed (c : Chip) : Bool := decide (7 ≤ c.devState)

/-! ### Initiators -/

/-- The index of an initiator in the order of 03 R72: Triton, APP[0..3], the MGE, LE[0..23], DMA[1] channels; DMA[0] and
the link follow. -/
def iniIx : Initiator → Nat
  | .triton => 0
  | .app i => 1 + i.val
  | .mge => 5
  | .le n => 6 + n.val
  | .dma1 c => 30 + c.val
  | .dma0 => 62
  | .link => 63

/-- The initiator that a core is. -/
def coreIni : CoreId → Initiator
  | .triton => .triton
  | .app i => .app i
  | .mge => .mge
  | .le n => .le n

/-- DMA[u] register at `off` (15 R364). -/
def dmaR (u off : Nat) : Nat := 0x44000000 + 0x10000 * u + off
def dmaC (u ch off : Nat) : Nat := dmaR u (0x1000 + 0x40 * ch + off)

/-- The plane of an initiator (01 R12, 15 R347). The link's buffers write the data window and belong to the data plane. -/
def Chip.plane (c : Chip) : Initiator → Plane
  | .triton => .control
  | .le _ => .control
  | .mge => .management
  | .dma1 ch => if c.bit (dmaC 1 ch.val 0) 1 then .control else .data
  | _ => .data

/-- The Pea owner code of an initiator (09 R225); the MGE is writer code 0x28 (R226). -/
def peaCode : Initiator → Nat
  | .le n => n.val
  | .triton => 0x24
  | .mge => 0x28
  | .dma1 _ => 0x27
  | .link => 0x26
  | _ => 0x3F

/-! ### Outcomes -/

/-- The answer to an access: an error response, or done with the words read. -/
def Chip.err (c : Chip) : Chip := { c with resp := { ok := false, data := [] } }
def Chip.ack (c : Chip) : Chip := { c with resp := { ok := true, data := [] } }
def Chip.answer (c : Chip) (v : Word) : Chip := { c with resp := { ok := true, data := [v] } }

/-- What needs the clocks of RUN does nothing in standby (21 R467). -/
def awake (f : Chip → Chip) (c : Chip) : Chip :=
  match c.power.mode with
  | .run => f c
  | _ => c

/-- A command whose whole effect is on the chip in RUN goes on with the next state. -/
def State.onChip (s : State) (f : Chip → Chip) : Host.Outcome State Fault Refusal :=
  .next { s with chip := awake f s.chip }

/-- The same for a command that the always-on domain takes in every power state. -/
def State.onAon (s : State) (f : Chip → Chip) : Host.Outcome State Fault Refusal :=
  .next { s with chip := f s.chip }

/-- Power domain `d` is powered (21 R465, R466 PMU_PDSTAT). -/
def pdOn (c : Chip) (d : Nat) : Bool := if d < 32 then c.bit (sysR 0x10) d else c.bit (sysR 0x14) (d - 32)

/-! ### Numbers -/

/-- A bit field read as a signed number of `w` bits. -/
def signed (w x : Nat) : Int :=
  let y := x % 2 ^ w
  if y < 2 ^ (w - 1) then (y : Int) else (y : Int) - 2 ^ w

/-- Division that truncates toward zero. -/
def tdiv (a b : Int) : Int := Int.tdiv a b

/-- An arithmetic shift right. -/
def asr (a : Int) (n : Nat) : Int := a / 2 ^ n

/-- Clamp to `[lo, hi]`. -/
def clampI (lo hi x : Int) : Int := min (max x lo) hi

def absI (x : Int) : Int := if x < 0 then -x else x

/-- A number as a word, modulo 2³². -/
def wordI (x : Int) : Word := BitVec.ofInt 32 x

end Sys2Proof.Machine
end

