-- ==== Sys2Proof/Machine/Events.lean ====
section
/-! DEFINITION. Event sources and the gates of the event matrix (10 R234 to R242): a source's pulse puts the consumer
pulses and the gate operations that follow from it two cycles later in place. -/

namespace Sys2Proof.Machine

/-- The set bits of a word, lowest first. -/
def bitsOf (v : Word) : List Nat := if v = 0 then [] else (List.range 32).filter (fun i => v.bit i)

/-- A configuration register of the matrix as it governs the present cycle: its value before the writes of the cycle
(R237); a word with a double-bit error acts as 0 until it is rewritten (15 R342). -/
def evmReg (c : Chip) (a : Nat) : Word := if aget c.ecc.bad a == some true then 0 else c.reg0 a

/-- The consumer channels that source `n` is enabled onto (10 R247 EVM_ROW). -/
def consumersOf (c : Chip) (n : Nat) : List Nat :=
  (List.range 12).flatMap (fun w => (bitsOf (evmReg c (evmRowR n w))).map (fun b => 32 * w + b))

/-- The group of consumer channel `e` (R239, R247 EVM_CGRP). -/
def groupOf (c : Chip) (e : Nat) : Nat := (evmReg c (evmCgrpR (e / 4))).fld (8 * (e % 4)) 5

/-- The loop guard of group `g`: its limit while LGEN is 1 (R241). -/
def guardOf (c : Chip) (g : Nat) : Option Nat :=
  let v := evmReg c (evmGcfgR g)
  if v.bit 16 then some (max (v.fld 8 8) 1) else none

/-- A consumer channel gets a pulse due in cycle `due`; a second source in the same cycle makes a coincidence (R235). -/
def consumerDue (due : Nat) (c : Chip) (e : Nat) : Chip :=
  if c.evm.pipe.any (fun p => p.due == due && p.ch == e) then
    if c.evm.co.contains (due, e) then c else { c with evm := { c.evm with co := c.evm.co ++ [(due, e)] } }
  else if h : e < 384 then
    let g := groupOf c e
    { c with evm := { c.evm with pipe := c.evm.pipe ++ [{ due := due, ch := e, grp := g, guard := guardOf c g }] },
             agenda := c.agenda ++ [(due, .consumerPulse ⟨e, h⟩)] }
  else c

/-- Whether a group's EVM_GOPEN or EVM_GCLOSE word enables source `n` (R240). -/
def gateNames (v : Word) (n : Nat) : Bool :=
  (v.bit 9 && v.fld 0 9 == n) || (v.bit 25 && v.fld 16 9 == n)

/-- The open and close operations that a pulse of source `n` brings (R240). -/
def gateOpsOf (c : Chip) (due n : Nat) : List (Nat × Nat × Bool) :=
  (List.range 32).flatMap (fun g =>
    (if gateNames (evmReg c (evmGopenR g)) n then [(due, g, true)] else []) ++
    (if gateNames (evmReg c (evmGcloseR g)) n then [(due, g, false)] else []))

/-- Event source `n` pulses in the present cycle, once however often it is raised in it (R234, R235, R240; 03 R68); an
error in its row is met (15 R341, R342). -/
def evPulse (n : Nat) (c : Chip) : Chip :=
  if c.evm.pulsed.contains n then c
  else
    let due := c.now + 2
    let c := if (List.range 12).any (fun w => (aget c.ecc.bad (evmRowR n w)).isSome) then c.schedule 0 (.rowRead (Fin.ofNat 512 n)) else c
    let c := (consumersOf c n).foldl (consumerDue due) c
    { c with evm := { c.evm with pulsed := n :: c.evm.pulsed, gateOps := c.evm.gateOps ++ gateOpsOf c due n } }

/-- The pulse that source `n` gave in the present cycle is taken back: what follows from the other sources of the cycle stays
(02 R56). -/
def evCancel (n : Nat) (c : Chip) : Chip :=
  if !c.evm.pulsed.contains n then c
  else
    let due := c.now + 2
    let left := c.evm.pulsed.erase n
    let mine := consumersOf c n
    let others := fun e => (left.filter (fun m => (consumersOf c m).contains e)).length
    let gone := fun e => mine.contains e && others e == 0
    { c with
      agenda := c.agenda.filter (fun a => match a with | (t, .consumerPulse e) => !(t == due && gone e.val) | _ => true)
      evm := { c.evm with
        pulsed := left
        pipe := c.evm.pipe.filter (fun p => !(p.due == due && gone p.ch))
        co := c.evm.co.filter (fun x => !(x.1 == due && mine.contains x.2 && decide (others x.2 ≤ 1)))
        gateOps := c.evm.gateOps.filter (fun o => o.1 != due) ++ left.flatMap (gateOpsOf c due) } }

/-- Event source `n` pulses `d` cycles from now, by the configuration of that cycle (R237). -/
def evPulseIn (d n : Nat) (c : Chip) : Chip := if d = 0 then evPulse n c else c.schedule d (.srcPulse (Fin.ofNat 512 n))

/-- One gate operation; a close in the same cycle wins over an open (R240), so closes are applied after opens. -/
def gateSet (gs : Vector Bool 32) (op : Nat × Nat × Bool) : Vector Bool 32 :=
  if h : op.2.1 < 32 then gs.set op.2.1 op.2.2 else gs

/-- The gates with everything due by now applied: INIT states of GATED writes (R239), then cycle by cycle the operations,
an open being superseded by a close of the same group in the same cycle (R240). -/
def gatesNow (c : Chip) : Chip :=
  let set := c.evm.init.filter (fun o => decide (o.1 ≤ c.now))
  let due := c.evm.gateOps.filter (fun o => decide (o.1 ≤ c.now))
  let live := due.filter (fun o => !(o.2.2 && due.contains (o.1, o.2.1, false)) &&
    !(set.any (fun i => i.2.1 == o.2.1 && decide (o.1 ≤ i.1))))
  let gates := live.foldl gateSet (set.foldl gateSet c.evm.gates)
  { c with evm := { c.evm with gates := gates, init := c.evm.init.filter (fun o => !decide (o.1 ≤ c.now)),
                               gateOps := c.evm.gateOps.filter (fun o => !decide (o.1 ≤ c.now)) } }

/-- Whether the gate of group `g` is effectively open (R239, R242): a latched loop guard holds it closed, and still in the
cycle in which a write clears the latch. -/
def gateOpen (c : Chip) (g : Nat) : Bool :=
  !(c.bit evmLgstatR g || c.bit0 evmLgstatR g) && (!((evmReg c (evmGcfgR g)).bit 0) || (if h : g < 32 then c.evm.gates[g] else false))

/-- EVM_GSTAT (R242, R247). -/
def gstat (c : Chip) : Word :=
  (List.range 32).foldl (fun v g => v.withBit g (gateOpen (gatesNow c) g)) 0

/-- Pulses of channel `e` delivered in the last 256 cycles, the present one included (R241). -/
def pulseCount (c : Chip) (e : Nat) : Nat :=
  (c.evm.counts.filter (fun p => p.2 == e && decide (c.now < p.1 + 256))).length

end Sys2Proof.Machine
end

