-- ==== Sys2Proof/Machine/Safe.lean ====
section
/-! DEFINITION. Safe state and the override stage (05 R134 to R140): the causes of each slice, what each output of a
channel and each output position shows, and the safe-level copies of the pads. -/

namespace Sys2Proof.Machine

/-- The causes of safe state by their bit in PWM_SAFESTAT (05 R144). -/
def causeHalt : Nat := 0
def causeClkloss : Nat := 1
def causeSliceflt : Nat := 2
def causeDevflt : Nat := 3
def causeStop : Nat := 4

def safestatR (s : Nat) : Nat := slR s 0x8044

/-- The live causes of a slice (R139). -/
def causes (c : Chip) (s : Nat) : Nat := if h : s < 12 then c.slices[s].causes.toNat else 0

/-- Whether cause `b` lives on slice `s`. -/
def causeOn (c : Chip) (s b : Nat) : Bool := (causes c s).testBit b

/-- PWM_SAFESTAT as read (R139, R144): CAUSE from the conditions, and SEEN, which a live cause sets in every cycle. -/
def safestat (c : Chip) (s : Nat) : Word := c.reg (safestatR s) ||| BitVec.ofNat 32 (causes c s + 2 ^ 8 * causes c s)

/-- The eight channels of a slice. -/
def chansOf (s : Nat) : List Nat := (List.range 8).map (8 * s + ·)

/-- A channel's SAFE bit: its outputs show their safe levels (R140). -/
def chanSafe (c : Chip) (n : Nat) : Bool := if h : n < 96 then c.pwms[n].safe else false

def updCauses (s : Nat) (f : BitVec 5 → BitVec 5) (c : Chip) : Chip :=
  if h : s < 12 then { c with slices := vmod c.slices ⟨s, h⟩ (fun x => { x with causes := f x.causes }) } else c

/-- A cause becomes live on slice `s`; its channels are in safe state from the next cycle (R136, R139). -/
def setCause (b s : Nat) (c : Chip) : Chip := updCauses s (fun x => x ||| BitVec.ofNat 5 (2 ^ b)) c

/-- A cause ends on slice `s`; SEEN keeps it (R139). -/
def clrCause (b s : Nat) (c : Chip) : Chip :=
  if causeOn c s b then (updCauses s (fun x => x &&& ~~~ BitVec.ofNat 5 (2 ^ b)) c).setBits (safestatR s) (2 ^ (8 + b)) else c

/-- Channel `n` leaves safe state; a hand-off pattern of its outputs ends (17 R411, R414). -/
def chanLeave (n : Fin 96) (c : Chip) : Chip :=
  { c with pwms := vmod c.pwms n (fun p => { p with safe := false }),
           slices := vmod c.slices (Fin.ofNat 12 (n.val / 8)) (fun x =>
             { x with pattern := (x.pattern.set (2 * (n.val % 8)) none).set (2 * (n.val % 8) + 1) none }) }

/-- The zero boundary of channel `n` with no cause left (R139). -/
def safeExitAt (n : Fin 96) (c : Chip) : Chip :=
  if c.pwms[n].safe && causes c (n.val / 8) == 0 then chanLeave n c else c

/-- Slices in safe state, as a mask (21 R481 word 3). -/
def safeMask (c : Chip) : Nat :=
  (List.range 12).foldl (fun m s => if causes c s = 0 then m else m + 2 ^ s) 0

/-- A safe level code: 0 low, 1 high, 2 and 3 Hi-Z (R143). -/
def safeLvl : Nat → PadLvl
  | 0 => .lo
  | 1 => .hi
  | _ => .z

def lvlOf (b : Bool) : PadLvl := if b then .hi else .lo

/-- The safe level of an output of channel `n` (R143 PWM_SAFE). -/
def outSafe (c : Chip) (n : Nat) (outB : Bool) : PadLvl := safeLvl (c.fld (pwmR n 0x9C) (if outB then 2 else 0) 2)

/-- What the override stage gives an output, by the order of R140: safe state, with the hand-off pattern of a drain while no
cause but STOP holds (R136, 17 R411), then a trip; none passes the level from polarity. While a channel only waits for its zero
boundary, no cause being left, a trip overrides it already (R141). -/
def ovOf (c : Chip) (n : Fin 96) (outB : Bool) : Option PadLvl :=
  let p := c.pwms[n]
  let act := c.fld0 (pwmR n 0x94) (if outB then 10 else 8) 2
  let trip : Option PadLvl := if p.tripOver && act != 0 then some (if act = 1 then .lo else if act = 2 then .hi else .z) else none
  if p.safe && !(causes c (n.val / 8) == 0 && trip.isSome) then
    match (c.slices[Fin.ofNat 12 (n.val / 8)].pattern)[2 * (n.val % 8) + outB.toNat]? with
    | some (some l) => if causes c (n.val / 8) % 2 ^ causeStop = 0 then some l else some (outSafe c n outB)
    | _ => some (outSafe c n outB)
  else trip

/-- The level behind polarity (04 R101); PWM_OUT as it governs the present cycle (04 R501). -/
def polLevel (c : Chip) (n : Fin 96) (outB : Bool) : Bool :=
  (if outB then c.pwms[n].outB else c.pwms[n].outA).lvl != c.bit0 (pwmR n 0x2C) (if outB then 2 else 1)

/-- Whether the pads of slice `s` show the safe-level copies: in its reset, without its power, on loss of CLK_C (R137,
R142, 21 R466). -/
def sliceDark (c : Chip) (s : Nat) : Bool :=
  (if h : s < 12 then c.slices[s].resetUntil.isSome else false) || causeOn c s causeClkloss || !pdOn c (20 + s)

/-- Whether position `j` shows its copy, for its own slice's sake or its source's. -/
def posDark (c : Chip) (j : Nat) : Bool :=
  let src := c.fld (xbarR j) 0 8
  causeOn c (j / 16) causeClkloss || !pdOn c (20 + j / 16) || (decide (src < 192) && sliceDark c (src / 16))

/-- The level of output position `j` at its pad driver (04 R114). -/
def posLevel (c : Chip) (j : Nat) : PadLvl :=
  if h : j < 192 then (if posDark c j then c.outs[j].copy else c.outs[j].lvl) else .z

/-- The safe level of the source of position `j` by the registers of the cycle's start, Hi-Z where undriven (R137). -/
def copyOf (c : Chip) (j : Nat) : PadLvl :=
  let src := c.fld0 (xbarR j) 0 8
  if src < 192 then safeLvl (c.fld0 (pwmR (src / 2) 0x9C) (if src % 2 == 1 then 2 else 0) 2) else .z

/-- The copies are to be taken anew in the next cycle. -/
def copySoon (c : Chip) : Chip := { c with pins := { c.pins with copyDue := c.pins.copyDue ++ [c.now] } }

/-- Whether the copy of position `j` holds: after a loss of CLK_C until device reset, and while the power of its slice or its
source's is off (R137, R142). -/
def copyHeld (c : Chip) (j : Nat) : Bool :=
  let src := c.fld (xbarR j) 0 8
  causeOn c (j / 16) causeClkloss || !pdOn c (20 + j / 16) || (decide (src < 192) && !pdOn c (20 + src / 16))

/-- The copies at the end of the cycle after a write of PWM_SAFE or PWM_XBAR, where CLK_C completes that cycle (R137). -/
def copyCycle (c : Chip) : Chip :=
  if c.pins.copyDue.any (fun t => decide (t < c.now)) then
    { c with pins := { c.pins with copyDue := c.pins.copyDue.filter (fun t => !decide (t < c.now)) },
             outs := Vector.ofFn (fun j : Fin 192 =>
               if copyHeld c j.val then c.outs[j] else { c.outs[j] with copy := copyOf c j.val }) }
  else c

/-- Every slice takes a cause, or loses it. -/
def setCauseAll (b : Nat) (c : Chip) : Chip := (List.range 12).foldl (fun c s => setCause b s c) c
def clrCauseAll (b : Nat) (c : Chip) : Chip := (List.range 12).foldl (fun c s => clrCause b s c) c

end Sys2Proof.Machine
end

