-- ==== Sys2Proof/Machine/Reset.lean ====
section
/-! DEFINITION. Resets (21 R473): slice reset, core reset and what each leaves unchanged. -/

namespace Sys2Proof.Machine

/-- The registers of slice `s` back at their reset values, but those slice reset leaves: PWM_SYNCO, PWM_XBAR, PWM_SAFE,
PWM_SAFECFG, SUBST, SPARE, SLICE_AINMAP (04 R116, 05 R142, 17 R419) and the loop-engine registers, which no chapter
names (log 23). -/
def sliceRegsReset (s : Nat) (c : Chip) : Chip :=
  let safe := (chansOf s).map (fun n => c.reg (pwmR n 0x9C))
  let c := c.dropRegs (slR s 0x1000) 0x5000
  let c := c.dropRegs (slR s 0x8000) 0x40
  let c := (List.zip (chansOf s) safe).foldl (fun c e => c.setReg (pwmR e.1 0x9C) e.2) c
  -- PWM_SAFESTAT: SEEN then reads exactly the live causes (R142)
  let c := c.setReg (safestatR s) 0
  c.setFld (slR s 0) 0 3 0

/-- A happening of one of the ADC cores `ks`. -/
def ofAdcs (ks : List Nat) : Ev → Bool
  | .adcTap k _ => ks.contains k.val
  | .conversionComplete k => ks.contains k.val
  | _ => false

/-- A happening that belongs to the converters, the lane or the trip inputs of slice `s`. -/
def ofSliceAdc (s : Nat) (e : Ev) : Bool :=
  ofAdcs [2 * s, 2 * s + 1] e || (match e with
    | .laneResult x => x.val == s
    | .tripInputActive x _ => x.val == s
    | _ => false)

/-- What follows a change of a window's settled state that is no entry: the level that capture channels on it see (02 R57). -/
def capLooks (w : Nat) (c : Chip) : Chip :=
  (List.finRange 64).foldl (fun (c : Chip) (k : Fin 64) =>
    let v := c.reg (capR k 0)
    if v.bit 0 && v.fld 1 2 == 2 && v.fld 3 7 == w then c.schedule 0 (.capLook k) else c) c

/-- The windows of slice `s` lose their states, which their capture channels see (02 R57, 07 R183). -/
def winsLook (s : Nat) (c : Chip) : Chip := (chansOf s).foldl (fun c w => capLooks w c) c

/-- Every unit of the list `is` back at its reset state. -/
def resetVec {α : Type} {n : Nat} (xs : Vector α n) (is : List Nat) (d : α) : Vector α n :=
  is.foldl (fun xs i => if h : i < n then xs.set i d else xs) xs

/-- Slice reset of SLICE[s], held for 16 cycles of CLK_C (21 R473). -/
def sliceReset (s : Fin 12) (c : Chip) : Chip :=
  let c := sliceRegsReset s c
  let c := winsLook s (c.unschedule (ofSliceAdc s))
  let c := { c with pwms := resetVec c.pwms (chansOf s) { Pwm.reset with safe := causes c s != 0 }, wins := resetVec c.wins (chansOf s) Win.reset,
                    adcs := resetVec c.adcs [2 * s.val, 2 * s.val + 1] Adc.reset,
                    xls := c.xls.set s Xl.reset,
                    slices := vmod c.slices s (fun x => { Slice.reset with resetUntil := some (c.now + 16), live := x.live, causes := x.causes }) }
  c.schedule 16 (.sliceResetEnd s)

end Sys2Proof.Machine
end

