-- ==== Sys2Proof/Machine/Fault.lean ====
section
/-! DEFINITION. The fault collector (21 R477 to R481): raising a source, its log entry, its configured reaction and the
end of reactions. The reactions of R479 fall in the raising command (log 3). -/

namespace Sys2Proof.Machine

/-- The slice that a source belongs to (21 R477). -/
def fltSlice (i : Nat) : Option Nat :=
  if i < 12 then some i
  else if 72 ≤ i ∧ i < 96 then some ((i - 72) / 2)
  else if 96 ≤ i ∧ i < 142 then memSlice (i - 96)
  else none
where
  /-- The slice of a memory id: that of its loop engine for an LE TCM (15 R340). -/
  memSlice (id : Nat) : Option Nat := if 16 ≤ id ∧ id < 40 then some ((id - 16) / 2) else none

/-- Numbers not listed in R477 are reserved and never raised. -/
def fltListed (i : Nat) : Bool :=
  i < 35 || (64 ≤ i && i < 142) || i == 142 || (144 ≤ i && i < 151) || (160 ≤ i && i < 178) || (184 ≤ i && i < 192)

/-- FLT_CFG[i].REACT (R478). -/
def fltReact (c : Chip) (i : Nat) : Nat := c.fld (fltCfgR i) 0 3

def fltPending (c : Chip) (i : Nat) : Bool := c.bit (fltPendR (i / 32)) (i % 32)

/-- The slices that a source with reaction SLICE names: its own, or SMASK (R478). -/
def fltNames (c : Chip) (i s : Nat) : Bool :=
  match fltSlice i with
  | some t => t == s
  | none => c.bit (fltCfgR i) (16 + s)

/-- DEVICE on the outputs and the device state (R478, R480; 17 R395): every slice DEVFLT, and SAFE from SEALED or
RUNNING. SAFE_N follows from the device state and DEVFLT. -/
def reactDevice (c : Chip) : Chip :=
  let c := setCauseAll causeDevflt c
  if c.devState = 7 ∨ c.devState = 8 then (c.setFld cmdStatR 0 4 9).setBits 0x45008004 1 else c

/-- What a source's reaction holds while it is pending (R478): the safe state of its slices, or of all. -/
def standReact (i : Nat) (c : Chip) : Chip :=
  let c := if 2 ≤ fltReact c i then ((List.range 12).filter (fltNames c i)).foldl (fun c s => setCause causeSliceflt s c) c else c
  if 3 ≤ fltReact c i then reactDevice c else c

/-- The reaction of a source, each including those above it (R478). A SLICE reaction with no slice acts as IRQ. -/
def applyReact (i : Nat) (c : Chip) : Chip :=
  let r := fltReact c i
  let slices := (List.range 12).filter (fltNames c i)
  let c := standReact i c
  let c := if (r = 2 ∧ slices ≠ []) ∨ 3 ≤ r then evPulseIn 1 510 c else c
  if h : r = 4 ∧ i < 256 then c.schedule 4 (.faultReset ⟨i, h.2⟩) else c

/-- The slices that a source with reaction SLICE names. -/
def reactSlices (c : Chip) (i : Nat) : List Nat := (List.range 12).filter (fltNames c i)

/-- The reaction applied (R478): SLICE acts as IRQ where neither the source nor SMASK names a slice. -/
def reactApplied (c : Chip) (i : Nat) : Nat := if fltReact c i = 2 ∧ reactSlices c i = [] then 1 else fltReact c i

/-- One log entry: source and reaction applied, its sequence number still open; CAP_TIME; DETAIL; device state and slices in safe state
(R481). -/
def fltEntry (c : Chip) (i : Nat) (detail : Word) : FltEntry :=
  { w0 := BitVec.ofNat 32 (i + 2 ^ 8 * reactApplied c i), w1 := c.capTime, w2 := detail,
    w3 := BitVec.ofNat 32 (c.devState + 2 ^ 4 * safeMask c) }

/-- An entry is on its way to the log, which takes it behind the pops of the present cycle (01 R20). -/
def fltStore (e : FltEntry) (c : Chip) : Chip := { c with flt := { c.flt with lands := c.flt.lands ++ [e] } }

/-- The log, a queue of 64 entries that drops the newest and counts it in FLT_LOST, stores an entry with the next sequence number
(01 R22, R481). -/
def fltLand (c : Chip) (e : FltEntry) : Chip :=
  if c.flt.log.length < 64 then
    { c with flt := { c.flt with log := c.flt.log ++ [{ e with w0 := e.w0 ||| BitVec.ofNat 32 (2 ^ 16 * c.flt.seq.toNat) }],
                                 seq := c.flt.seq + 1 } }
  else c.satInc (sysR 0x1454) 0 16

/-- Fault source `i` is raised with DETAIL `detail` (R479): pending, one log entry and the reaction if the bit was clear.
An occurrence while the bit is set stores no entry and, the reaction standing, applies none anew (DEDUCED, log 24); one in the
cycle of a W1C write leaves the bit and the reaction as they stood (R484). -/
def raiseFault (i : Nat) (detail : Word) (c : Chip) : Chip :=
  let was := fltPending c i || c.bit0 (fltPendR (i / 32)) (i % 32)
  if !fltListed i then c
  else
    let c := c.setBits (fltPendR (i / 32)) (2 ^ (i % 32))
    if was then standReact i c
    else
    let c := applyReact i c
    fltStore (fltEntry c i detail) c

/-- A level source begins or ends; while it lives its pending bit cannot be cleared (R477, R480). -/
def fltLevel (i : Nat) (on : Bool) (detail : Word) (c : Chip) : Chip :=
  if on then
    raiseFault i detail { c with flt := { c.flt with live := if c.flt.live.contains i then c.flt.live else c.flt.live ++ [i] } }
  else { c with flt := { c.flt with live := c.flt.live.filter (· != i) } }

/-- Whether some pending source keeps DEVFLT, or SLICEFLT on slice `s` (R480). -/
def devHeld (c : Chip) : Bool := (List.range 256).any (fun i => fltPending c i && decide (3 ≤ fltReact c i))
def sliceHeld (c : Chip) (s : Nat) : Bool :=
  (List.range 256).any (fun i => fltPending c i && decide (2 ≤ fltReact c i) && fltNames c i s)

/-- The reactions end where no pending source holds them (R480). -/
def endReactions (c : Chip) : Chip :=
  let c := if devHeld c then c else
    (List.range 12).foldl (fun c s => clrCause causeDevflt s c) c
  (List.range 12).foldl (fun c s =>
    if causeOn c s causeSliceflt && !sliceHeld c s then clrCause causeSliceflt s c else c) c

/-- A W1C write of FLT_PEND[w] (R480): live level sources keep their bits. -/
def clearPend (w : Nat) (v : Word) (c : Chip) : Chip :=
  let held := c.flt.live.foldl (fun (m : Word) i => if i / 32 = w then m ||| BitVec.ofNat 32 (2 ^ (i % 32)) else m) 0
  endReactions (c.setReg (fltPendR w) (c.w1c (fltPendR w) (~~~ held) v))

end Sys2Proof.Machine
end

