-- ==== Sys2Proof/Machine/Access.lean ====
section
/-! DEFINITION. Who reaches what (01 R12, R13, R24; 21 R466): the check before every access to a peripheral register or
to a window of the control bridge. -/

namespace Sys2Proof.Machine

/-- The domains that hold an address (21 R465); an ADC or window register needs both domains of its slice. -/
def domainsAt (a : Nat) : List Nat :=
  if 0x10000000 ≤ a ∧ a < 0x11000000 then [10 + (a - 0x10000000) / 0x200000]
  else if 0x22000000 ≤ a ∧ a < 0x22030000 then [20 + (a - 0x22000000) / 0x4000]
  else if 0x40000000 ≤ a ∧ a < 0x400C0000 then
    let s := (a - 0x40000000) / 0x10000
    let o := a % 0x10000
    if 0x3000 ≤ o ∧ o < 0x5000 then [20 + s, 32 + s] else [20 + s]
  else if 0x400F0000 ≤ a ∧ a < 0x400F2000 then [44]
  else if 0x400F2000 ≤ a ∧ a < 0x400F8000 then [45]
  else if 0x400F8000 ≤ a ∧ a < 0x400FA000 then [46]
  else if 0x400FA000 ≤ a ∧ a < 0x400FC000 then [45]
  else if 0x41000000 ≤ a ∧ a < 0x41020000 then [49]
  else if 0x41020000 ≤ a ∧ a < 0x41080000 then [50]
  else if 0x44000000 ≤ a ∧ a < 0x44010000 then [51]
  else if 0x44010000 ≤ a ∧ a < 0x44020000 then [52]
  else if 0x45000100 ≤ a ∧ a < 0x45000200 then [47]
  else if 0x45000200 ≤ a ∧ a < 0x45000300 then [48]
  else []

def domainsUp (c : Chip) (a : Nat) : Bool := (domainsAt a).all (pdOn c)

/-- The fabric target that serves an address (01 R11, R24): system SRAM, the control bridge, the peripheral bridge. -/
def fabTarget (a : Nat) : Option (Fin 10) :=
  if 0x10000000 ≤ a ∧ a < 0x11000000 then some (Fin.ofNat 10 ((a - 0x10000000) / 0x200000))
  else if (0x20000000 ≤ a ∧ a < 0x20200000) ∨ (0x21000000 ≤ a ∧ a < 0x21000800) ∨ (0x22000000 ≤ a ∧ a < 0x22030000) then some 8
  else if 0x40000000 ≤ a ∧ a < 0x60000000 then some 9
  else none

/-- The slice whose own ranges hold an address: its block and the TCMs of its loop engines. -/
def sliceAt (a : Nat) : Option Nat :=
  if 0x40000000 ≤ a ∧ a < 0x400C0000 then some ((a - 0x40000000) / 0x10000)
  else if 0x22000000 ≤ a ∧ a < 0x22030000 then some ((a - 0x22000000) / 0x4000)
  else none

/-- How an access is judged before it reaches its target. -/
inductive Verdict where
  | ok
  | refused
  | violation
  | off
  deriving DecidableEq, Repr

/-- The control bridge and the control-plane register ranges (R13). -/
def controlRange (a : Nat) : Bool :=
  (decide (0x20000000 ≤ a) && decide (a < 0x20200000)) || (decide (0x21000000 ≤ a) && decide (a < 0x21000800)) ||
  (decide (0x22000000 ≤ a) && decide (a < 0x22030000)) || (decide (0x40000000 ≤ a) && decide (a < 0x40100000))

/-- Whether R13 lets an access to a control-plane range through. The MGE's writes of Pea data are judged by R226; those of
the event matrix and of PEA_ALLOC in a live reconfiguration by 10 R244 and 09 R228. -/
def controlOk (c : Chip) (ini : Initiator) (a : Nat) (wr : Bool) : Bool :=
  !c.sealed || c.plane ini == .control ||
  (decide (ini = .mge) && (!wr || (decide (0x21000000 ≤ a) && decide (a < 0x21000800)) ||
    ((decide (0x400E0000 ≤ a) && decide (a < 0x400EA000)) || (decide (0x400FC000 ≤ a) && decide (a < 0x400FC800))) &&
      (List.range 12).any (liveOn c) ||
    (match sliceAt a with
     | some s => liveOn c s
     | none => false)))
where
  liveOn (c : Chip) (s : Nat) : Bool := if h : s < 12 then c.slices[s].live else false

/-- Registers of the link and command block that every initiator reads: the status of the link and of its ports,
CMD_STAT, CMD_FLAGS and CMD_HBCNT (R24, 17 R418). Link status is LL_ID, LL_STAT and the port status LL_PSTAT (log 26). -/
def linkReadable (a : Nat) : Bool :=
  [0x45000000, 0x45000004, 0x45000104, 0x45000204, 0x45008000, 0x45008004, 0x45008010].contains a

/-- Whether the top-level map grants an initiator an access outside the control-plane ranges (R24). -/
def mapGrants (c : Chip) (ini : Initiator) (a : Nat) (wr : Bool) : Bool :=
  if 0x10000000 ≤ a ∧ a < 0x11000000 then true
  else if 0x41000000 ≤ a ∧ a < 0x43000000 then true
  else if 0x43000000 ≤ a ∧ a < 0x44000000 then
    !wr || decide (ini = .mge) || decide (ini = .triton) ||
      (decide (0x43000308 ≤ a) && decide (a < 0x43000388) && a % 16 == 8 &&
        (match ini with
         | .app i => c.fld (a - 8) 1 5 == 1 + i.val
         | .le n => c.fld (a - 8) 1 5 == 8 + n.val
         | _ => false))
  else if 0x44000000 ≤ a ∧ a < 0x45000000 then true
  else if 0x45000000 ≤ a ∧ a < 0x46000000 then
    decide (ini = .mge) || (!wr && linkReadable a) ||
      (wr && decide (0x45001000 ≤ a) && decide (a < 0x45002000) && c.plane ini == .data)
  else if 0x50000000 ≤ a ∧ a < 0x51000000 then decide (ini = .mge)
  else if 0xF0000000 ≤ a ∧ a < 0xF0020000 then decide (ini = .mge) && !wr
  else false

/-- The ranges of the control bridge, which the map grants to the control plane and the MGE (R24). -/
def bridgeRange (a : Nat) : Bool := decide (0x20000000 ≤ a) && decide (a < 0x22030000)

/-- A register of a DMA[1] control channel (15 R362). -/
def dmaControl (c : Chip) (a : Nat) : Bool :=
  decide (0x44011000 ≤ a) && decide (a < 0x44011800) && c.bit (dmaC 1 ((a - 0x44011000) / 0x40) 0) 1

/-- The check of an access. In STOPPED none of Triton's leaves its voter (14 R330). -/
def verdict (c : Chip) (ini : Initiator) (a : Nat) (wr : Bool) : Verdict :=
  if decide (ini = .triton) && c.fld 0x43002004 0 2 == 2 then .refused
  else if c.sealed && dmaControl c a && c.plane ini != .control && decide (ini ≠ .mge) then .violation
  else if controlRange a then
    if bridgeRange a && !c.sealed && c.plane ini != .control && decide (ini ≠ .mge) then .refused
    else if !controlOk c ini a wr then .violation else if domainsUp c a then .ok else .off
  else if !mapGrants c ini a wr then .refused
  else if domainsUp c a then .ok else .off

/-- PMU_STAT.PDACCF (21 R466). -/
def pdaccf (c : Chip) : Chip := c.setBits (sysR 0x4) (2 ^ 9)

/-- What a refused access leaves: the error response, the PLANE_VIOLATION source with the address, or PDACCF. -/
def refuse (v : Verdict) (a : Nat) (c : Chip) : Chip :=
  match v with
  | .violation => (raiseFault 32 (BitVec.ofNat 32 a) c).err
  | .off => (pdaccf c).err
  | _ => c.err

/-- A write that passes the check acts by `f`, after its acknowledgement. -/
def gatedWrite (ini : Initiator) (a : Nat) (f : Chip → Chip) (c : Chip) : Chip :=
  match verdict c ini a true with
  | .ok => f c.ack
  | v => refuse v a c

/-- A read that passes the check answers the word of `f`, which may change the register. -/
def gatedRead (ini : Initiator) (a : Nat) (f : Chip → Word × Chip) (c : Chip) : Chip :=
  match verdict c ini a false with
  | .ok => let r := f c; r.2.answer r.1
  | v => refuse v a c

end Sys2Proof.Machine
end

