-- ==== Sys2Proof/Machine/MemCore.lean ====
section
/-! DEFINITION. The byte memories (15 R340 to R345, 01 R24): keys, reads and writes with their ECC words, the error log.
A memory is keyed by its global address; the TCMs of NK-L cores and the RAM of the MGE, which have none, by core. -/

namespace Sys2Proof.Machine

/-- The index of a core in State: Triton, APP[0..3], the MGE, LE[0..23]. -/
def coreIx : CoreId → Fin 30
  | .triton => 0
  | .app i => ⟨1 + i.val, by omega⟩
  | .mge => 5
  | .le n => ⟨6 + n.val, by omega⟩

/-- Bytes of a core's TCM, for the MGE of its RAM (01 R24). -/
def tcmSize : CoreId → Nat
  | .mge => 0x10000
  | .le _ => 0x2000
  | _ => 0x20000

/-- The base of the keys of a core's own memory and core-private registers. -/
def privBase (k : CoreId) : Nat := 2 ^ 32 * (1 + (coreIx k).val)

/-- The key of byte `off` of a core's TCM. -/
def tcmKey (k : CoreId) (off : Nat) : Nat :=
  match k with
  | .le n => 0x22000000 + 0x2000 * n.val + off
  | _ => privBase k + off

/-! ### ECC words -/

/-- Memory id of a key with the first key of that memory and the bytes of its ECC word (R340). -/
def memAt (k : Nat) : Option (Nat × Nat × Nat) :=
  if 0x10000000 ≤ k ∧ k < 0x11000000 then
    let g := (k - 0x10000000) / 0x200000
    some (g, 0x10000000 + 0x200000 * g, 8)
  else if 0x20000000 ≤ k ∧ k < 0x20200000 then some (0x28, 0x20000000, 8)
  else if 0x21000000 ≤ k ∧ k < 0x21001000 then some (0x29, 0x21000000, 4)
  else if 0x22000000 ≤ k ∧ k < 0x22030000 then
    let n := (k - 0x22000000) / 0x2000
    some (0x10 + n, 0x22000000 + 0x2000 * n, 4)
  else if 0x400E0000 ≤ k ∧ k < 0x400E6000 then some (0x2A, 0x400E0000, 4)
  else if k < 2 ^ 32 then none
  else
    let ix := k / 2 ^ 32 - 1
    let b := 2 ^ 32 * (1 + ix)
    if ix = 0 then some (8, b, 8) else if ix < 5 then some (0xA + ix, b, 8)
    else if ix = 30 then some (9, b, 8) else if ix = 31 then some (0xA, b, 8)
    else if ix = 32 ∨ ix = 33 then some (0x2C + (ix - 32), b, 8) else if ix = 34 then some (0x2B, b, 8) else some (0xF, b, 4)

/-- The first key of the ECC word of a key, and the bytes of that word. -/
def eccWord (k : Nat) : Nat × Nat :=
  match memAt k with
  | some (_, b, n) => (b + (k - b) / n * n, n)
  | none => (k, 1)

/-- The error that an ECC word holds: false single-bit, true double-bit. -/
def eccErr (c : Chip) (k : Nat) : Option Bool := aget c.ecc.bad (eccWord k).1

def eccClear (k : Nat) (c : Chip) : Chip := { c with ecc := { c.ecc with bad := adel c.ecc.bad (eccWord k).1 } }

/-- The port of the memory that holds a key is used in the present cycle (15 R344). -/
def portUse (k : Nat) (c : Chip) : Chip :=
  match memAt k with
  | some (id, _, _) => if c.ecc.used.contains id then c else { c with ecc := { c.ecc with used := id :: c.ecc.used } }
  | none => c

/-- Whether the port of the memory that holds a key has been used in the present cycle. -/
def portBusy (c : Chip) (k : Nat) : Bool :=
  match memAt k with
  | some (id, _, _) => c.ecc.used.contains id
  | none => false

/-- Cycles of CLK_C in `n` cycles of the clock of a memory: system SRAM, the TCMs of NK-L cores, the link buffers and the buffers of
the DMA units run on CLK_L (15 R344). -/
def memCycles (id n : Nat) : Nat := if id < 15 ∨ 0x2B ≤ id then n / 2 else n

/-- Memory registers (15 R363). -/
def memR (off : Nat) : Nat := 0x43003000 + off

/-- One entry on its way to the error log, which takes it behind the pops of the present cycle (R345, 01 R20). -/
def eccLog (id addr : Nat) (ue scrub : Bool) (c : Chip) : Chip :=
  let i : Word := BitVec.ofNat 32 (id + 2 ^ 8 * ue.toNat + 2 ^ 9 * scrub.toNat + 2 ^ 31)
  { c with ecc := { c.ecc with lands := c.ecc.lands ++ [{ addr := BitVec.ofNat 32 addr, info := i }] } }

/-- The error log, a queue of 16 that drops the newest, stores an entry (R345). -/
def eccLand (c : Chip) (e : EccEntry) : Chip :=
  if c.ecc.log.length < 16 then { c with ecc := { c.ecc with log := c.ecc.log ++ [e] } } else c.setBits (memR 0x54) 2

/-- The sources of the present cycle in ascending order (21 R484). -/
def fltSorted (es : List FltEntry) : List FltEntry :=
  es.foldl (fun (l : List FltEntry) e =>
    l.takeWhile (fun x => decide (x.w0.fld 0 8 ≤ e.w0.fld 0 8)) ++ [e] ++ l.dropWhile (fun x => decide (x.w0.fld 0 8 ≤ e.w0.fld 0 8))) []

/-- Both logs take the entries of the present cycle at its end. -/
def logsEnd (c : Chip) : Chip :=
  let c := c.ecc.lands.foldl eccLand { c with ecc := { c.ecc with lands := [] } }
  (fltSorted c.flt.lands).foldl fltLand { c with flt := { c.flt with lands := [] } }

/-- While Triton's lanes are compared, an error word of the executing lane's TCM is noted (14 R329). -/
def laneErr (addr : Nat) (ue : Bool) (r : LaneRun) (c : Chip) : Chip := { c with run := some { r with errs := r.errs ++ [(addr, ue)] } }

/-- A single-bit error is found: counted, logged, the threshold judged, and the word written back next cycle (R341,
R345). -/
def eccCorrected (id addr key : Nat) (scrub : Bool) (c : Chip) : Chip :=
  match c.run.filter (fun _ => id == 8) with
  | some r => laneErr addr false r c
  | none =>
  let was := (c.reg (memR 0x48)).toNat
  let c := eccLog id addr false scrub (c.satInc (memR 0x48) 0 32)
  let now := (c.reg (memR 0x48)).toNat
  let thr := (c.reg (memR 0x50)).toNat
  let c := if thr ≠ 0 ∧ was < thr ∧ thr ≤ now then raiseFault 142 (c.reg (memR 0x48)) (c.setBits (memR 0x54) 1) else c
  if c.agenda.any (fun e => fixOf e.2) then c else c.schedule 1 (.eccFix key (c.now + 1))
where
  fixOf (e : Ev) : Bool := match e with
    | .eccFix k _ => k == key
    | _ => false

/-- A double-bit error is found: counted, logged, and its fault source raised with the byte address (R342). -/
def eccFatal (id addr : Nat) (scrub : Bool) (c : Chip) : Chip :=
  match c.run.filter (fun _ => id == 8) with
  | some r => laneErr addr true r c
  | none => raiseFault (96 + id) (BitVec.ofNat 32 addr) (eccLog id addr true scrub (c.satInc (memR 0x4C) 0 32))

/-- A read finds, at their memory's port, the ECC words of `[k, k + n)`: false where one holds a double-bit error (R341, R342). -/
def eccRead (k n : Nat) (c : Chip) : Bool × Chip :=
  let ws := ((List.range n).map (fun i => (eccWord (k + i)).1)).dedup
  let c := portUse k c
  ws.foldl (fun (r : Bool × Chip) w =>
    match memAt w, eccErr r.2 w with
    | some (id, b, _), some true => (false, eccFatal id (w - b) false r.2)
    | some (id, b, _), some false => (r.1, eccCorrected id (w - b) w false r.2)
    | _, _ => r) (true, c)

/-- A read finds the ECC words that begin in `[lo, lo + n)`. -/
def eccSpan (lo n : Nat) (c : Chip) : Bool × Chip :=
  let c := portUse lo c
  (c.ecc.bad.filter (fun e => decide (lo ≤ e.1) && decide (e.1 < lo + n))).foldl (fun (r : Bool × Chip) e =>
    match memAt e.1 with
    | some (id, b, _) => if e.2 then (false, eccFatal id (e.1 - b) false r.2) else (r.1, eccCorrected id (e.1 - b) e.1 false r.2)
    | none => r) (true, c)

/-- A read of `n` bytes at a key finds every ECC word that they touch. -/
def eccRange (k n : Nat) (c : Chip) : Bool × Chip := let lo := (eccWord k).1; eccSpan lo (k + n - lo) c

/-! ### Bytes -/

/-- An unlisted byte reads 0: device reset writes every memory to 0 (21 R474). -/
def memByte (c : Chip) (k : Nat) : Byte := aread 0 c.mem k
def memPutByte (k : Nat) (v : Byte) (c : Chip) : Chip := { c with mem := aset 0 c.mem k v }

/-- The `n`-byte little-endian value at a key (00 R3). -/
def memVal (c : Chip) (k n : Nat) : Nat := leNat ((List.range n).map (fun i => memByte c (k + i)))

/-- The `n` low bytes of a value at a key (00 R3). -/
def memPut (k n x : Nat) (c : Chip) : Chip :=
  (List.range n).foldl (fun (c : Chip) i => memPutByte (k + i) (BitVec.ofNat 8 (x / 256 ^ i)) c) c

/-- A read with its ECC words: none where one is uncorrectable. -/
def memRead (k n : Nat) (c : Chip) : Option Nat × Chip :=
  let r := eccRead k n c
  (if r.1 then some (memVal c k n) else none, r.2)

/-- Whether `[k, k + n)` covers the whole ECC word of `k`. -/
def wholeWord (k n : Nat) : Bool := let w := eccWord k; decide (w.1 = k) && decide (w.2 ≤ n)

/-- A write (R342, R343): one that covers a faulty word restores it; one that covers a part of it reads it first, so that a
single-bit error is met and a double-bit error makes it fail with nothing written. -/
def memWrite (k n x : Nat) (c : Chip) : Bool × Chip :=
  let c := portUse k c
  match eccErr c k, memAt k with
  | some true, some (id, b, _) =>
    if wholeWord k n then (true, memPut k n x (eccClear k c)) else (false, eccFatal id ((eccWord k).1 - b) false c)
  | some false, some (id, b, _) =>
    let w := (eccWord k).1
    (true, memPut k n x (eccClear k (if wholeWord k n then c else eccCorrected id (w - b) w false c)))
  | _, _ => (true, memPut k n x c)

/-- The byte of the boot ROM at an offset (log 13). -/
def romVal (off n : Nat) : Nat := leNat ((List.range n).map (fun i => Config.romByte (off + i)))

end Sys2Proof.Machine
end

