-- ==== Sys2Proof/Machine/Lanes.lean ====
section
/-! DEFINITION. The lanes of Triton and their voter (14 R324 to R330): each lane executes on its own state, the outputs are
compared class by class, and only the majority's leave. While the lanes hold the same, they execute as one. -/

namespace Sys2Proof.Machine

def triR (off : Nat) : Nat := 0x43002000 + off
def triMode (c : Chip) : Nat := c.fld (triR 4) 0 2
def triIn (c : Chip) (lane : Nat) : Bool := c.bit (triR 4) (4 + lane)

/-- MODE of TRI_STAT. -/
def triTMR : Nat := 0
def triDMR : Nat := 1
def triSTOP : Nat := 2
def triREINT : Nat := 3

/-! ### The state of a lane -/

/-- The keys of Triton's TCM and core-private registers. -/
def inTri (k : Nat) : Bool := decide (2 ^ 32 ≤ k) && decide (k < 2 ^ 33)

/-- A list with its part of Triton's keys replaced. -/
def splice {α : Type} (mid l : List (Nat × α)) : List (Nat × α) :=
  l.filter (fun e => decide (e.1 < 2 ^ 32)) ++ mid ++ l.filter (fun e => decide (2 ^ 33 ≤ e.1))

/-- What Triton holds, as a lane's. -/
def laneOf (c : Chip) : LaneS :=
  { core := c.cores[0], tcm := c.mem.filter (fun e => inTri e.1), regs := c.regs.filter (fun e => inTri e.1) }

/-- Triton holds what a lane does. What the voter and the clocks bring all lanes alike stays. -/
def putLane (l : LaneS) (c : Chip) : Chip :=
  let x := c.cores[0]
  { c with cores := c.cores.set 0 { l.core with irq := x.irq, inReset := x.inReset, halted := x.halted },
           mem := splice l.tcm c.mem, regs := splice l.regs c.regs }

def laneState (c : Chip) (i : Fin 3) : LaneS := (c.lanes[i]).getD (laneOf c)

/-- The first key of the error words of TRI[i]'s TCM (15 R340). -/
def laneBase (i : Fin 3) : Nat := if i = 0 then 2 ^ 32 else 2 ^ 32 * (30 + i.val)
def laneKey (i : Fin 3) (k : Nat) : Bool := decide (laneBase i ≤ k) && decide (k < laneBase i + 0x20000)

/-- The error words of TRI[i]'s TCM, by offset. -/
def laneBad (c : Chip) (i : Fin 3) : List (Nat × Bool) :=
  (c.ecc.bad.filter (fun e => laneKey i e.1)).map (fun e => (e.1 - laneBase i, e.2))

/-- The error words of TRI[i]'s TCM become those given. -/
def putLaneBad (i : Fin 3) (bad : List (Nat × Bool)) (c : Chip) : Chip :=
  { c with ecc := { c.ecc with bad := bad.foldl (fun l e => aput l (laneBase i + e.1) e.2)
                                        (c.ecc.bad.filter (fun e => !laneKey i e.1)) } }

/-- The lanes in service. -/
def lanesIn (c : Chip) : List (Fin 3) := (List.finRange 3).filter (fun i => triIn c i.val)

/-- Whether the lanes in service hold the same, without an error word in their TCMs, and the voter's halves agree: they then
execute as one. -/
def lanesSame (c : Chip) : Bool :=
  !c.split && (lanesIn c).all (fun i => (c.lanes[i]).isNone) && c.ecc.bad.all (fun e => !(lanesIn c).any (fun i => laneKey i e.1))

/-- Triton holds what its lowest lane in service does; the other lanes are noted where they differ, and where they are not in
service. -/
def refit (c : Chip) : Chip :=
  let m := (lanesIn c).headD 0
  let ref := laneState c m
  let c' := { c with lanes := Vector.ofFn (fun i =>
    let l := laneState c i
    if triIn c i.val && (i == m || decide (l = ref)) then none else some l) }
  if (c.lanes[m]).isNone then c' else putLane ref c'

/-! ### Isolation and stop (R328 to R330) -/

/-- TRI_REINTRES: the cause of an end, and the lane (R339). -/
def reintRes (lane : Fin 3) (cause : Nat) (c : Chip) : Chip :=
  c.setReg (triR 0x10) (BitVec.ofNat 32 (cause + 16 * lane.val))

/-- What Triton still awaits is discarded (R330). -/
def dropAwaited (s : CoreS) : CoreS := { s with long := [], stalls := [] }

/-- STOPPED with a stop cause (R328, R330): answers that are still to come are discarded. A reintegration ends with cause STOP (R337);
one that began in this cycle is refused (R338). -/
def triStop (cause : Nat) (c : Chip) : Chip :=
  let c := match c.tri with
    | some r => if r.start == c.now then { c with tri := none }.setBits (triR 4) (2 ^ 12) else reintRes r.lane 5 { c with tri := none }
    | none => c
  let c := { c with cores := c.cores.set 0 (dropAwaited c.cores[0]),
                    lanes := c.lanes.map (fun (x : Option LaneS) => x.map (fun (l : LaneS) => { l with core := dropAwaited l.core })) }
  let c := ((c.setFld (triR 4) 0 2 triSTOP).setFld (triR 4) 2 2 cause).setBits (triR 4) (2 ^ 9)
  raiseFault 34 (c.reg (triR 4)) c

/-- The record of a lane's isolation (R329), which also tells what else the cycle brings of it (R338). -/
def isoNote (lane : Fin 3) (cause cls : Nat) (c : Chip) : Chip :=
  { c.setFld (triR (0x20 + 4 * lane.val)) 0 6 (cause + 8 * cls) with
    vote := { c.vote with iso := some (c.now, lane, cause) } }

/-- Whether a lane has been isolated in the present cycle. -/
def isoNow (c : Chip) : Bool := match c.vote.iso with
  | some (t, _, _) => t == c.now
  | none => false

/-- One lane is to be isolated (R328, R329): in TMR it is, keeping what it holds, and the pair goes on; a lane of the pair stops
Triton, with cause NOMAJ where another lane was isolated in the same cycle. Of two causes in one cycle OUTPUT is recorded (R338). -/
def triIsolate (lane : Fin 3) (cause cls : Nat) (c : Chip) : Chip :=
  if triMode c == triSTOP then c
  else if !triIn c lane.val then (if cause == 1 && c.vote.iso == some (c.now, lane, 3) then isoNote lane cause cls c else c)
  else if triMode c = triTMR then
    let c := { c with lanes := c.lanes.set lane (some (laneState c lane)) }
    let c := (c.setFld (triR 4) 0 2 triDMR).clrBits (triR 4) (2 ^ (4 + lane.val))
    let c := (isoNote lane cause cls c).setBits (triR 4) (2 ^ 8)
    raiseFault 33 (c.reg (triR 4)) (refit c)
  else triStop (if isoNow c then 1 else 0) c

/-! ### Outputs (R326) -/

/-- An output of class `cls` of the executing core, which is noted while Triton's lanes are compared. -/
def triOut (k : CoreId) (cls : Nat) (data : List Nat) (c : Chip) : Chip :=
  match k, c.run with
  | .triton, some r => { c with run := some { r with outs := r.outs ++ [(cls, data)] } }
  | _, _ => c

/-- A data access of `n` bytes of a core: class 1 in its TCM, class 0 on the fabric, none in its private range, whose writes are of
class 4; a write of Triton to its TCM is queued for the lane that returns (R335). -/
def memNote (k : CoreId) (wr : Bool) (a n x : Nat) (c : Chip) : Chip :=
  let own := decide (a < 0x20000)
  if 0xE0000000 ≤ a ∧ a < 0xE0100000 then c
  else if k = .triton then
    let c := triOut k (if own then 1 else 0) [wr.toNat, a, n, x] c
    match c.tri with
    | some r => if wr && own then { c with tri := some { r with queue := r.queue ++ [(a, n, x)] } } else c
    | none => c
  else c

/-! ### The vote (R326 to R329) -/

/-- What the comparison of a cycle finds: the outputs leave; or do so without one lane's, for a cause and class; or Triton stops. -/
inductive Verdict3 where
  | forward
  | isolate (lane : Fin 3) (cause cls : Nat)
  | stop (cause : Nat)
  deriving DecidableEq, Repr

/-- A lane's outputs of one class; none is an output too. -/
def outsOf (c : Chip) (cls : Nat) : List (List Nat) :=
  match c.run with
  | some r => (r.outs.filter (fun o => o.1 == cls)).map (·.2)
  | none => []

/-- Whether the lane met an uncorrectable word of its TCM. -/
def metFatal (c : Chip) : Bool :=
  match c.run with
  | some r => r.errs.any (·.2)
  | none => false

/-- The lane of three outvoted on a class: `some none` for none, `none` where all differ. -/
def outvoted (cls : Nat) (a b d : Fin 3 × Chip) : Option (Option (Fin 3)) :=
  let x := outsOf a.2 cls
  let y := outsOf b.2 cls
  let z := outsOf d.2 cls
  if x = y then (if y = z then some none else some (some d.1))
  else if x = z then some (some b.1)
  else if y = z then some (some a.1)
  else none

/-- The comparison over the lanes in service (R328, R329). -/
def compareLanes (split : Bool) (rs : List (Fin 3 × Chip)) : Verdict3 :=
  let bad := (rs.filter (fun r => metFatal r.2)).map (·.1)
  if split then .stop 2
  else if 2 ≤ bad.length then .stop 1
  else match rs with
    | [a, b, d] =>
      let vs := (List.range 6).map (fun cls => (cls, outvoted cls a b d))
      if vs.any (fun v => v.2.isNone) then .stop 1
      else
        let ls := vs.filterMap (fun v => match v.2 with
          | some (some l) => some (l, v.1)
          | _ => none)
        match (bad ++ ls.map (·.1)).dedup with
        | [] => .forward
        | [l] => if bad.isEmpty then .isolate l 1 ((ls.map (·.2)).headD 0) else .isolate l 2 0
        | _ => .stop 1
    | [a, b] =>
      if bad.isEmpty && (List.range 6).all (fun cls => outsOf a.2 cls == outsOf b.2 cls) then .forward else .stop 0
    | _ => .forward

/-- The chip as TRI[i] executes on it: its state stands as Triton's, with its TCM's error words. -/
def asLane (i : Fin 3) (c : Chip) : Chip :=
  let c' := match c.lanes[i] with
    | some l => putLane l c
    | none => c
  { putLaneBad 0 (laneBad c i) c' with run := some { lane := i, outs := [], errs := [] } }

/-- Every lane holds what its execution left, and what it met in its TCM is corrected, counted and raised (15 R341, R342). -/
def putRuns (rs : List (Fin 3 × Chip)) (bad0 : List (Nat × Bool)) (ext : Chip) : Chip :=
  let c := rs.foldl (fun (c : Chip) r => putLaneBad r.1 (laneBad r.2 0) { c with lanes := c.lanes.set r.1 (some (laneOf r.2)) })
    (putLaneBad 0 bad0 { ext with run := none })
  rs.foldl (fun (c : Chip) r => match r.2.run with
    | some x => x.errs.foldl (fun (c : Chip) e =>
        if e.2 then eccFatal (8 + r.1.val) e.1 false c else eccCorrected (8 + r.1.val) e.1 (laneBase r.1 + e.1) false c) c
    | none => c) c

/-- The lane that its synchroniser isolated in the present cycle: it stops with that cycle (R329, R338). -/
def syncLane (c : Chip) : Option (Fin 3) :=
  match c.vote.iso with
  | some (t, l, cause) => if t = c.now ∧ cause = 3 ∧ triMode c ≠ triSTOP then some l else none
  | none => none

/-- What a lane that its synchroniser isolated in this cycle puts out is still compared: where it differs, OUTPUT is recorded (R338). -/
def lateOutput (f : Chip → Chip) (c : Chip) (rs : List (Fin 3 × Chip)) (c' : Chip) : Chip :=
  match syncLane c, rs with
  | some l, r :: _ =>
    let x := f (asLane l c)
    match (List.range 6).find? (fun cls => outsOf x cls != outsOf r.2 cls) with
    | some cls => triIsolate l 1 cls c'
    | none => c'
  | _, _ => c'

/-- An operation of Triton, executed by every lane in service and voted: the effects outside the lanes are those of the majority
(R326, R328). -/
def voted (f : Chip → Chip) (c : Chip) : Chip :=
  let rs := (lanesIn c).map (fun i => (i, f (asLane i c)))
  let out (l : Option (Fin 3)) : Chip := match rs.find? (fun r => l != some r.1) with
    | some r => { r.2 with lanes := c.lanes }
    | none => c
  match compareLanes c.split rs with
  | .forward => lateOutput f c rs (refit (putRuns rs (laneBad c 0) (out none)))
  | .isolate l cause cls => triIsolate l cause cls (putRuns rs (laneBad c 0) (out (some l)))
  | .stop cause => triStop (if cause == 0 && isoNow c then 1 else cause) (refit (putRuns rs (laneBad c 0) c))

/-- An operation of a core: Triton's is executed by its lanes. -/
def eachLane (k : CoreId) (f : Chip → Chip) (c : Chip) : Chip :=
  if k = .triton ∧ c.run = none ∧ (lanesSame c = false ∨ (syncLane c).isSome) then voted f c else f c

end Sys2Proof.Machine
end

