-- ==== Sys2Proof/Machine/CoreBase.lean ====
section
/-! DEFINITION. Cores (11 R248 to R252, 13 R305 to R323): their registers, banks and the bank scheduler, exceptions, double
faults, core reset and the protection unit. -/

namespace Sys2Proof.Machine

def coreGet (c : Chip) (k : CoreId) : CoreS := c.cores[coreIx k]
def updCore (k : CoreId) (f : CoreS → CoreS) (c : Chip) : Chip := { c with cores := vmod c.cores (coreIx k) f }
def bankGet (c : Chip) (k : CoreId) (b : Fin 8) : BankS := (coreGet c k).banks[b]
def updBank (k : CoreId) (b : Fin 8) (f : BankS → BankS) (c : Chip) : Chip :=
  updCore k (fun s => { s with banks := vmod s.banks b f }) c

/-! ### Core-private registers (R323) -/

def privR (k : CoreId) (off : Nat) : Nat := privBase k + off
def vbarR (k : CoreId) : Nat := privR k 0
def dfstatR (k : CoreId) : Nat := privR k 4
def dfepcR (k : CoreId) : Nat := privR k 8
def lockR (k : CoreId) : Nat := privR k 0xC
def bankCfgR (k : CoreId) (b : Nat) : Nat := privR k (0x100 + 0x20 * b)
def bankEntryR (k : CoreId) (b : Nat) : Nat := privR k (0x104 + 0x20 * b)
def bankFpR (k : CoreId) (b : Nat) : Nat := privR k (0x108 + 0x20 * b)
def routeR (k : CoreId) (i : Nat) : Nat := privR k (0x400 + 4 * i)

/-- BANK_CFG.EN: banks 0 and 7 are always enabled. -/
def bankEn (c : Chip) (k : CoreId) (b : Fin 8) : Bool := b == 0 || b == 7 || c.bit (bankCfgR k b) 0

/-- BANK_CFG.PRIV: 3 acts as 1, and so does 2 but on the MGE. -/
def bankPriv (c : Chip) (k : CoreId) (b : Fin 8) : Nat :=
  let p := c.fld (bankCfgR k b) 1 2
  if p = 3 ∨ (p = 2 ∧ k ≠ .mge) then 1 else p

/-! ### Status (R251) -/

def stV : Nat := 0
def stC : Nat := 1
def stZ : Nat := 2
def stN : Nat := 3
def stDZ : Nat := 4
def stQ : Nat := 5
def stDZT : Nat := 6
def stIE : Nat := 14
def stEXC : Nat := 15
def stFPA : Nat := 21
def privOf (st : Word) : Nat := st.fld 12 2

/-! ### Which bytes a core reaches as memory (R24, R279) -/

/-- A place in memory: a byte key, or an offset in the boot ROM. -/
inductive MemPlace where
  | mem (key : Nat)
  | rom (off : Nat)
  deriving DecidableEq, Repr

/-- The core's own TCM or RAM, system SRAM, and for the MGE the boot ROM. -/
def corePlace (k : CoreId) (a : Nat) : Option MemPlace :=
  if a < tcmSize k then some (.mem (tcmKey k a))
  else if 0x10000000 ≤ a ∧ a < 0x11000000 then some (.mem a)
  else if k = .mge ∧ 0xF0000000 ≤ a ∧ a < 0xF0020000 then some (.rom (a - 0xF0000000))
  else none

/-- The ranges that a core fetches from (R297, R303). -/
def fetchable (k : CoreId) (a : Nat) : Bool :=
  match k with
  | .le _ => decide (a < tcmSize k)
  | .mge => decide (a < tcmSize k) || (decide (0xF0000000 ≤ a) && decide (a < 0xF0020000))
  | _ => decide (a < tcmSize k) || (decide (0x10000000 ≤ a) && decide (a < 0x11000000))

/-- A word at a place; none where it is uncorrectable or its SRAM group has no power. -/
def placeWord (p : MemPlace) (c : Chip) : Option Word × Chip :=
  match p with
  | .mem key =>
    if domainsUp c key then
      let r := memRead key 4 c
      (r.1.map (fun x => BitVec.ofNat 32 x), r.2)
    else (none, pdaccf c)
  | .rom off => (some (BitVec.ofNat 32 (romVal off 4)), c)

/-! ### The store buffer of an NK-L core (R296, R310) -/

/-- A buffered store writes the TCM; an error is taken as vector 7 (R313). -/
def landTcm (k : CoreId) (t : PortStore) (c : Chip) : Chip :=
  let r := memWrite (tcmKey k t.addr) t.n t.val c
  if r.1 then r.2 else updBank k t.bank (fun x => { x with async := some (BitVec.ofNat 32 t.addr) }) r.2

/-- Every buffered store writes the TCM. -/
def drainStores (k : CoreId) (c : Chip) : Chip :=
  if k.isNKS then c
  else (coreGet c k).stores.foldl (fun (c : Chip) t => landTcm k t c) (updCore k (fun s => { s with stores := [] }) c)

/-- A store to the TCM takes an entry of the buffer; where all four are taken the oldest writes first. -/
def bufPut (k : CoreId) (b : Fin 8) (a n x : Nat) (c : Chip) : Chip :=
  let c := match (coreGet c k).stores with
    | t :: rest => if 3 ≤ rest.length then landTcm k t (updCore k (fun s => { s with stores := rest }) c) else c
    | [] => c
  updCore k (fun s => { s with stores := s.stores ++ [{ bank := b, addr := a, n := n, val := x % 256 ^ n }] }) c

/-- The byte at an address that the newest store holding it writes. -/
def storeByte (ts : List PortStore) (a : Nat) : Option Byte :=
  (ts.reverse.find? (fun t => decide (t.addr ≤ a) && decide (a < t.addr + t.n))).map
    (fun t => BitVec.ofNat 8 (t.val / 256 ^ (a - t.addr)))

/-- A load from the TCM takes its bytes from the buffer where they are there; where a part of them is, the buffer drains first. -/
def tcmLoad (k : CoreId) (a n : Nat) (c : Chip) : Option Nat × Chip :=
  let bs := (List.range n).map (fun i => storeByte (coreGet c k).stores (a + i))
  if bs.all (·.isNone) then memRead (tcmKey k a) n c
  else if bs.all (·.isSome) then (some (leNat (bs.map (·.getD 0))), c)
  else memRead (tcmKey k a) n (drainStores k c)

/-! ### The protection unit (R320) -/

inductive AccKind where
  | read
  | write
  | exec
  deriving DecidableEq, Repr

def mpuRegions (k : CoreId) : Nat := if k.isNKS then 8 else 16

/-- Whether the protection unit lets an access of kind `t` at privilege `priv` through. -/
def mpuOk (c : Chip) (k : CoreId) (priv : Nat) (t : AccKind) (a : Nat) : Bool :=
  if !(c.bit (privR k 0xC00) 0) || priv == 2 then true
  else
    let hit := (List.range (mpuRegions k)).reverse.find? (fun r =>
      c.bit (privR k (0xC48 + 16 * r)) 0 &&
      decide ((c.reg (privR k (0xC40 + 16 * r))).toNat ≤ a) && decide (a ≤ (c.reg (privR k (0xC44 + 16 * r))).toNat + 31))
    match hit with
    | none => priv == 1
    | some r =>
      let i := match t with
        | .read => 1
        | .write => 2
        | .exec => 3
      c.bit (privR k (0xC48 + 16 * r)) (i + (if priv = 0 then 0 else 3))

/-! ### Banks: who runs (R305 to R309) -/

/-- The address of the instruction that a bank executes next: the first of its restart record, or its PC (R301). -/
def bankPc (b : BankS) : Word :=
  match b.restart with
  | a :: _ => a
  | [] => b.pc

/-- An activation begins (R307): the entry PC, and ST with PRIV, IE = 1 and FPA kept. -/
def beginAct (k : CoreId) (b : Fin 8) (c : Chip) : Chip :=
  let st : Word := Word.withBit (BitVec.ofNat 32 (2 ^ 12 * bankPriv c k b + 2 ^ 14)) stFPA ((bankGet c k b).st.bit stFPA)
  updBank k b (fun x => { x with inAct := true, pc := c.reg (bankEntryR k b), st := st, rep := none, saved := [] }) c

/-- The highest-numbered READY bank. -/
def topReady (c : Chip) (k : CoreId) : Option (Fin 8) :=
  (List.finRange 8).reverse.find? (fun b => (bankGet c k b).mode == .ready)

/-- The latch of a bank is set (11 R273): one that waits for it becomes ready; for a WFE of the same cycle, whose bank still has the
core, it counts as set already (11 R280). -/
def latchBank (now : Nat) (runs : Bool) (x : BankS) : BankS :=
  match x.mode, x.wait with
  | .waiting, some (.event since) =>
    if runs && since == now then { x with mode := .running, wait := none } else { x with latch := true, mode := .ready, met := some 0 }
  | _, _ => { x with latch := true }

/-- The latch of every bank is set (11 R273). -/
def latchAll (k : CoreId) (c : Chip) : Chip :=
  updCore k (fun s => { s with banks := Vector.ofFn (fun b => latchBank c.now (s.running == some b) s.banks[b]) }) c

/-- The length of the waiting instruction lies behind PC already; a completed wait gives its result (11 R273, R275). -/
def finishWait (k : CoreId) (b : Fin 8) (c : Chip) : Chip :=
  updBank k b (fun x => match x.wait, x.met with
    | some (.event _), some _ => { x with wait := none, met := none, latch := false }
    | some (.angle rd _ _ _), some r =>
      { x with wait := none, met := none, g := x.g.set rd (BitVec.ofNat 32 r), st := x.st.withBit stZ (r == 0) }
    | some (.time rd _), some r =>
      { x with wait := none, met := none, g := x.g.set rd (BitVec.ofNat 32 r), st := x.st.withBit stZ (r == 0) }
    | _, _ => x) c

/-- Bank `b` runs: a wait that is met completes, and an activation that waits begins (R307). -/
def runBank (k : CoreId) (b : Fin 8) (c : Chip) : Chip :=
  let c := triOut k 2 [1, b.val] c
  let c := updCore k (fun s => { s with running := some b, afterSt := false }) c
  let c := finishWait k b (updBank k b (fun x => { x with mode := .running }) c)
  let x := bankGet c k b
  if 1 ≤ b.val && b.val ≤ 6 && !x.inAct && x.count != 0 then beginAct k b c else c

/-- The bank scheduler chooses (R305): the highest READY bank, or none. -/
def selectBank (k : CoreId) (c : Chip) : Chip :=
  match topReady c k with
  | some b => runBank k b c
  | none => triOut k 2 [0] (updCore k (fun s => { s with running := none }) c)

/-- A device-space load ends in error: vector 5 at the load; where a repeat pair has counted its iteration already, at the prefix with
that iteration still to run (R299, R302; 11 R269). -/
def devFail (k : CoreId) (o : LongOp) (a : Word) (c : Chip) : Chip :=
  updBank k o.bank (fun x => match o.pre with
    | some p => { x with devErr := some (p, a), lc := x.lc + 1 }
    | none => { x with devErr := some (o.addr, a) }) c

/-- A device-space load outstanding at a preemption completes in the background (R302). -/
def landDevice (k : CoreId) (o : LongOp) (c : Chip) : Chip :=
  match o.kind, o.rd with
  | .device true _ v, some rd =>
    if o.fp then updCore k (fun s => { s with f := s.f.set rd v }) c
    else updBank k o.bank (fun x => { x with g := x.g.set rd v }) c
  | .device false a _, _ => devFail k o a c
  | _, _ => c

def isDevice (o : LongOp) : Bool :=
  match o.kind with
  | .device _ _ _ => true
  | _ => false

/-- Whether an address is in system SRAM. -/
def inSram (a : Nat) : Bool := decide (0x10000000 ≤ a) && decide (a < 0x11000000)

/-- The CALLM, RETM or doubleword load that a bank is moving word by word. -/
def bankSlots (c : Chip) (k : CoreId) (b : Fin 8) : Option (LongOp × Slots) :=
  (coreGet c k).stalls.findSome? (fun o => match o.kind with
    | .slots q => if o.bank = b then some (o, q) else none
    | _ => none)

/-- Whether what holds a bank is abandoned at a preemption, PC standing at it (R304, R311): all but what has been served, and a
device-space load, which completes in the background (R302). -/
def unserved (c : Chip) (k : CoreId) (o : LongOp) : Bool :=
  match o.kind with
  | .wait a _ _ _ (some _) => inSram a || (bankSlots c k o.bank).isSome
  | .drain _ => true
  | .hold _ _ _ => true
  | .fpFile _ => true
  | .slots _ => true
  | .pea _ _ _ => (bankSlots c k o.bank).isSome || c.peaBus.reqs.any (fun r => r.ini == iniIx (coreIni k) && !r.cmd)
  | _ => false

/-- Accesses that hold a bank leave it without effect, with their requests to the Pea store. -/
def dropStalls (k : CoreId) (gone : List LongOp) (c : Chip) : Chip :=
  let c := updCore k (fun s => { s with stalls := s.stalls.filter (fun o => !gone.contains o) }) c
  if gone.any (fun o => match o.kind with
    | .pea _ _ _ => true
    | _ => false) then
    { c with peaBus := { c.peaBus with reqs := c.peaBus.reqs.filter (fun r => r.cmd || r.ini != iniIx (coreIni k)),
                                       got := c.peaBus.got.filter (fun g => g.1 != iniIx (coreIni k)) } }
  else c

/-- An iteration of a repeat pair at `here` is over (11 R267): LC falls, and the pair ends or goes on. -/
def iterDone (r : Rep) (here nxt : Word) (x : BankS) : BankS :=
  let x := { x with lc := x.lc - 1, pc := here, restart := [] }
  if r.left ≤ 1 then { x with rep := none, pc := nxt } else { x with rep := some { r with left := r.left - 1, begun := true } }

/-- What holds a bank at its preemption: it is abandoned, or a device-space load in a repeat pair goes on in the background as a
completed iteration (R302, R304; 11 R269). -/
def abandonStalls (k : CoreId) (b : Fin 8) (c : Chip) : Chip :=
  let ops := (coreGet c k).stalls.filter (fun o => o.bank == b)
  let c := dropStalls k (ops.filter (unserved c k)) c
  (coreGet c k).stalls.foldl (fun (c : Chip) o => match o.kind, (bankGet c k b).rep with
    | .wait a n sgn due (some nxt), some r =>
      if o.bank = b then
        updBank k b (iterDone r o.addr nxt) (updCore k (fun s =>
          { s with stalls := s.stalls.erase o ++ [{ o with kind := .wait a n sgn due none, pre := some r.pre }] }) c)
      else c
    | _, _ => c) c

/-- Outstanding long instructions are abandoned at a preemption: their addresses enter the bank's restart record, before
those not yet issued again (R301, R304); a repeat pair resumes at its prefix (11 R269); the store buffer drains (R309). -/
def preempt (k : CoreId) (c : Chip) : Chip :=
  match (coreGet c k).running with
  | none => c
  | some b =>
    let ops := (coreGet c k).long
    let c := (ops.filter isDevice).foldl (fun (c : Chip) o => landDevice k o c) c
    let gone := (ops.filter (fun o => !isDevice o)).map (·.addr)
    let c := abandonStalls k b (updCore k (fun s => { s with long := [] }) (drainStores k c))
    updBank k b (fun x =>
      let x := { x with restart := gone ++ x.restart }
      let x := match x.rep with
        | some r => { x with pc := r.pre, rep := none }
        | none => x
      if x.mode == .running then { x with mode := .ready } else x) c

/-- Whether recognition is deferred in the running bank (R308); a REPU pair defers it once its first iteration has begun (11 R280). -/
def deferred (c : Chip) (k : CoreId) : Bool :=
  match (coreGet c k).running with
  | none => false
  | some b =>
    let x := bankGet c k b
    !x.st.bit stIE || (coreGet c k).afterSt || (match x.rep with
      | some r => r.repu && r.begun
      | none => false)

/-- Triton executes while the voter forwards (14 R330). -/
def triStopped (c : Chip) : Bool := c.fld 0x43002004 0 2 == 2

/-- Whether the pair of Triton stands still in the pause of a reintegration (14 R336). -/
def triPaused (c : Chip) : Bool := match c.tri with
  | some r => r.pause.isSome
  | none => false

/-- Whether a core executes: out of core reset, not halted by debug, Triton not STOPPED nor in the pause, the device in RUN. -/
def coreLive (c : Chip) (k : CoreId) : Bool :=
  !(coreGet c k).inReset && !(coreGet c k).halted && c.power.mode == .run &&
  !(decide (k = .triton) && (triStopped c || triPaused c))

/-- Bank `b` is to run, none to choose anew: the first bank switch of Triton after the copy of a returning lane's TCM begins the pause
instead (14 R336). -/
def switchBank (k : CoreId) (b : Option (Fin 8)) (c : Chip) : Chip :=
  match k, c.tri with
  | .triton, some r =>
    if (r.copied || decide (8192 ≤ r.line)) && r.pause.isNone then
      updCore k (fun s => { s with running := none })
        { c with tri := some { r with pause := some { start := c.now, drained := none, fail := none, held := [] } } }
    else go c
  | _, _ => go c
where
  go (c : Chip) : Chip := match b with
    | some b => runBank k b c
    | none => selectBank k c

/-- Once the running bank has yielded or waits, the bank scheduler chooses (R308, 11 R280). -/
def settle (k : CoreId) (c : Chip) : Chip :=
  match (coreGet c k).running with
  | some b => if (bankGet c k b).mode == .running then c else switchBank k none c
  | none => c

/-- Whether a READY bank of higher priority than the running bank is recognised now (R308). -/
def recogDue (c : Chip) (k : CoreId) : Bool :=
  match topReady c k, (coreGet c k).running with
  | some t, some b => decide (b < t) && !deferred c k
  | _, _ => false

/-- Recognition (R308, R309): a READY bank of higher priority than the running bank preempts it. -/
def recognise (k : CoreId) (c : Chip) : Chip :=
  if !coreLive c k then c
  else match topReady c k, (coreGet c k).running with
    | some t, some _ => if recogDue c k then switchBank k (some t) (preempt k c) else c
    | some t, none => switchBank k (some t) c
    | none, _ => c

/-! ### Activations (R306) -/

/-- Whether inputs reach a core: not in core reset, nor Triton in STOPPED (14 R331). -/
def inputsReach (c : Chip) (k : CoreId) : Bool := !(coreGet c k).inReset && !(decide (k = .triton) && triStopped c)

/-- What arrives for Triton during the pause waits (14 R336). -/
def triHold (e : Bool × Nat) (c : Chip) : Chip :=
  { c with tri := c.tri.map (fun r => { r with pause := r.pause.map (fun p => { p with held := p.held ++ [e] }) }) }
def triHolds (c : Chip) (k : CoreId) : Bool := decide (k = .triton) && triPaused c

/-- One activation of bank `b` (R306): the counter rises to 15 at most, the latches of the core are set (11 R273). -/
def activateNow (k : CoreId) (b : Fin 8) : Chip → Chip := eachLane k (fun c =>
  if b = 0 ∨ b = 7 ∨ !inputsReach c k then c
  else if !bankEn c k b then c
  else
    let c := updBank k b (fun x =>
      let x := if x.count = 15 then { x with sat := true, satAt := some c.now } else { x with count := x.count + 1 }
      if x.mode == .idle then { x with mode := .ready } else x) c
    latchAll k c)

/-- One activation of bank `b` reaches its core. -/
def activateBank (k : CoreId) (b : Fin 8) (c : Chip) : Chip :=
  if triHolds c k then triHold (false, b.val) c else activateNow k b c

/-- The plane of a core (01 R12). -/
def corePlane : CoreId → Plane
  | .triton => .control
  | .le _ => .control
  | .mge => .management
  | .app _ => .data

/-- Interrupts 0 to 199 are not delivered to APP cores from SEAL onward (01 R26). -/
def delivered (c : Chip) (k : CoreId) (i : Nat) : Bool := !(c.sealed && corePlane k == .data && decide (i < 200))

/-- An interrupt reaches the core: it is an activation of the bank that INT_ROUTE names (R306). -/
def interrupt (k : CoreId) (i : Nat) (c : Chip) : Chip :=
  if delivered c k i then activateBank k (Fin.ofNat 8 (c.fld (routeR k i) 0 3)) c else c

/-- A doorbell on line `d` reaches a core (11 R274): an occurrence of interrupt 288 + d, and the event latches. -/
def doorbellNow (k : CoreId) (d : Nat) : Chip → Chip := eachLane k (fun c =>
  if inputsReach c k then latchAll k (interrupt k (288 + d) c) else c)
def doorbell (k : CoreId) (d : Nat) (c : Chip) : Chip := if triHolds c k then triHold (true, d) c else doorbellNow k d c

/-- The cycles of CLK_C that the input vote of Triton adds to an input (14 R331): 3 cycles of CLK_L. -/
def inputDelay (k : CoreId) : Nat := if k = .triton then 2 else 0

/-- The core of a bit of the SEV mask (11 R274). -/
def coreOfBit (i : Nat) : Option CoreId :=
  if i = 0 then some .triton
  else if h : 1 ≤ i ∧ i < 5 then some (.app ⟨i - 1, by omega⟩)
  else if i = 5 then some .mge
  else if h : 8 ≤ i ∧ i < 32 then some (.le ⟨i - 8, by omega⟩)
  else none

/-- YIELD (R307): the activation ends; `held` says that a LEVEL source of the bank is still asserted. The next bank is chosen as the
cycle ends, after the triggers of the cycle (R308, R321). -/
def yieldBank (k : CoreId) (b : Fin 8) (held : Bool) (c : Chip) : Chip :=
  if b = 0 then c
  else
    let c := triOut k 2 [2, b.val] c
    updBank k b (fun x =>
      let n := x.count - 1
      let n := if held && n == 0 then 1 else n
      { x with count := n, inAct := false, mode := if n = 0 then .idle else .ready }) c

/-! ### Core reset (11 R250, 13 R322) -/

/-- Whether core reset keeps a core-private register: after SEAL the lock and what it locks (R322). -/
def lockedOff (off : Nat) : Bool :=
  off == 0 || off == 0xC || (decide (0x100 ≤ off) && decide (off < 0x200) && decide (off % 0x20 < 0xC)) ||
  (decide (0x400 ≤ off) && decide (off < 0x900)) || decide (0xC00 ≤ off)

/-- The core-private registers after a core reset (R322). -/
def privReset (k : CoreId) (keep : Bool) (c : Chip) : Chip :=
  { c with regs := c.regs.filter (fun e =>
      !(decide (privBase k ≤ e.1) && decide (e.1 < privBase k + 2 ^ 32)) || (keep && lockedOff (e.1 - privBase k))) }

/-- ST of every bank at reset (11 R251). -/
def stReset (k : CoreId) : Word := if k = .mge then 0x2000 else 0x1000

/-- A core reset of Triton, applied to `cores` and `regs`, resets every lane, each keeping its TCM, puts the triple in TMR with every
lane in service, and ends a reintegration (14 R325, R338). -/
def triCoreReset (c : Chip) : Chip :=
  let c := c.setReg 0x43002004 ((c.reg 0x43002004 &&& ~~~ (0x7F : Word)) ||| 0x70)
  let l := laneOf c
  refit { c with tri := none, lanes := c.lanes.map (fun x => x.map (fun y => { l with tcm := y.tcm })) }

/-- Core reset is applied: every register at its reset value, and the core held (R250, R322); the interrupt lines stay as they are
(R306). `unlock` clears CORE_LOCK, as in the live reconfiguration of a loop engine's slice. -/
def coreReset (k : CoreId) (unlock : Bool) (c : Chip) : Chip :=
  let c := privReset k (c.sealed && !unlock) c
  let c := { c with peaBus := { c.peaBus with reqs := c.peaBus.reqs.filter (fun r => r.cmd || r.ini != iniIx (coreIni k)),
                                              got := c.peaBus.got.filter (fun g => g.1 != iniIx (coreIni k)) } }
  let s : CoreS := { CoreS.reset with irq := (coreGet c k).irq, banks := CoreS.reset.banks.map (fun b => { b with st := stReset k }) }
  let c := updCore k (fun _ => s) c
  if k = .triton then triCoreReset c else c

/-- The vector fetch of bank `b`, at its privilege: the word at CORE_VBAR + 4 × vector; none where the fetch faults, by the ranges of
R303 and R297 and the protection unit too (R317, R320). -/
def vectorWord (k : CoreId) (b : Fin 8) (v : Nat) (c : Chip) : Option Word × Chip :=
  let c := drainStores k c
  let a := (c.reg (vbarR k)).toNat + 4 * v
  if !(fetchable k a && mpuOk c k (bankPriv c k b) .exec a) then (none, c)
  else match corePlace k a with
    | some p => placeWord p c
    | none => (none, c)

/-- The entry PCs of banks 1 to 6 and the word at CORE_VBAR + 0 for bank 0, when the core leaves core reset (R250, R305); where
that word cannot be read its value is open (log 5). -/
def coreRelease (k : CoreId) : Chip → Chip := eachLane k (fun c =>
  if !(coreGet c k).inReset then c
  else
    let c := updCore k (fun s => { s with inReset := false }) c
    let c := (List.finRange 8).foldl (fun (c : Chip) (b : Fin 8) =>
      updBank k b (fun x => { x with pc := c.reg (bankEntryR k b) }) c) c
    let r := vectorWord k 0 0 c
    let f := r.2.free
    match r.1 with
    | some pc => updBank k 0 (fun x => { x with pc := pc }) r.2
    | none => updBank k 0 (fun x => { x with pc := f.1 }) f.2)

/-! ### Exceptions (R313 to R318) -/

/-- A core reset by R318 raises the core's fault source with CORE_DFSTAT; the core then starts anew. -/
def coreFail (k : CoreId) (c : Chip) : Chip :=
  let st := c.reg (dfstatR k)
  coreRelease k (coreReset k false (raiseFault (64 + k.code) st c))

/-- The start of bank 7 at the word at CORE_VBAR + 4 (R317); a fault on that fetch resets the core (R318). -/
def startSeven (k : CoreId) (c : Chip) : Chip :=
  let r := vectorWord k 7 1 c
  match r.1 with
  | none => coreFail k r.2
  | some pc =>
    let c := updBank k 7 (fun x =>
      { x with pc := pc, restart := [], rep := none, wait := none, met := none, mode := .ready,
               st := ((x.st.withFld 12 2 (bankPriv r.2 k 7)).withBit stIE false).withBit stEXC false }) r.2
    runBank k 7 (preempt k c)

/-- A double fault in bank `b` (R317, R318). -/
def doubleFault (k : CoreId) (b : Fin 8) (v : Nat) (epc : Word) (c : Chip) : Chip :=
  let df := c.bit (dfstatR k) 0
  if b = 7 ∧ df then coreFail k c
  else
    let c := updBank k b (fun x => { x with mode := .dfhalt, rep := none }) c
    if df then
      let c := c.setBits (dfstatR k) 2
      selectBank k c
    else
      let w := (c.reg (dfstatR k) &&& 2) ||| BitVec.ofNat 32 (4 * b.val + 32 * v)
      startSeven k (((c.setReg (dfstatR k) w).setBits (dfstatR k) 1).setReg (dfepcR k) epc)

/-- What an outstanding long instruction writes at its completion (R298). -/
def landOp (k : CoreId) (o : LongOp) (v : Word) (c : Chip) : Chip :=
  let c := match o.rd with
    | some rd =>
      if o.fp then updCore k (fun s => { s with f := s.f.set rd v }) c
      else updBank k o.bank (fun x => { x with g := x.g.set rd v }) c
    | none => c
  let c := updBank k o.bank (fun x =>
    let st := match o.vflag with
      | some f => x.st.withBit stV f
      | none => x.st
    let st := if o.dz then st.withBit stDZ true else st
    let st := if o.qf then st.withBit stQ true else st
    let st := match o.nzcv with
      | some f => (((st.withBit stN (f.getLsbD 3)).withBit stZ (f.getLsbD 2)).withBit stC (f.getLsbD 1)).withBit stV (f.getLsbD 0)
      | none => st
    { x with st := st }) c
  updCore k (fun s => { s with fcsr := s.fcsr ||| BitVec.ofNat 32 (2 ^ 8 * o.ff.toNat) }) c

/-- The value of `n` loaded bytes, extended to a word (12 R283). -/
def extend (n : Nat) (sgn : Bool) (x : Nat) : Word := if sgn then wordI (signed (8 * n) x) else BitVec.ofNat 32 x

/-- An outstanding long instruction completes (R298, R299, 15 R342). -/
def completeOp (k : CoreId) (o : LongOp) (c : Chip) : Chip :=
  match o.kind with
  | .value v => landOp k o v c
  | .sram a n sgn =>
    let r := if a < tcmSize k then tcmLoad k a n c else memRead a n c
    match r.1 with
    | some x => landOp k o (extend n sgn x) r.2
    | none => updBank k o.bank (fun x => { x with async := some (BitVec.ofNat 32 a) }) r.2
  | .device true _ v => landOp k o v c
  | .device false a _ => devFail k o a c
  | _ => c

/-- The outstanding long instructions that `p` names complete, oldest first. -/
def completeIf (k : CoreId) (p : LongOp → Bool) (c : Chip) : Chip :=
  let ops := (coreGet c k).long
  let c := updCore k (fun s => { s with long := s.long.filter (fun o => !p o) }) c
  (ops.filter p).foldl (fun (c : Chip) o => completeOp k o c) c

/-- Exception entry in bank `b` at vector `v` (R314); an exception while EXC = 1 and a failed vector fetch are double faults (R317), and
a synchronous one in bank 7 while DF = 1 resets the core (R318). A restart record that it finds is kept for its return (R301). -/
def takeException (k : CoreId) (b : Fin 8) (sync : Bool) (v : Nat) (epc : Word) (prog : Nat) (c : Chip) : Chip :=
  let c := triOut k 5 [v] (completeIf k (fun _ => true) c)
  let st := (bankGet c k b).st
  if b = 7 ∧ sync ∧ c.bit (dfstatR k) 0 then coreFail k c
  else if st.bit stEXC then doubleFault k b v epc c
  else
    let r := vectorWord k b v c
    match r.1 with
    | none => doubleFault k b v epc r.2
    | some pc =>
      let st' := (((st.withBit stEXC true).withBit stIE false).withFld 12 2 (bankPriv r.2 k b)).withFld 16 5 0
      updBank k b (fun x => { x with epc := epc, est := st.withFld 16 5 prog, st := st', pc := pc, rep := none, restart := [],
                                     saved := if x.restart.isEmpty then x.saved else (epc, x.restart, x.pc) :: x.saved }) r.2

/-- A bank goes on at its EPC: with the restart record that the exception found, where it returns to it (R301). -/
def resumeEpc (x : BankS) : BankS :=
  match x.saved.dropWhile (fun e => e.1 != x.epc) with
  | e :: rest => { x with pc := e.2.2, restart := e.2.1, saved := rest }
  | [] => { x with pc := x.epc }

/-- RTE (R315): PC and ST from EPC and EST with FPA kept, or a double fault where EST.PRIV exceeds the bank's ceiling. -/
def returnException (k : CoreId) (b : Fin 8) (c : Chip) : Chip :=
  let x := bankGet c k b
  if privOf x.est ≤ bankPriv c k b then
    let st := (x.est.withFld 16 5 0).withBit stFPA (x.st.bit stFPA)
    let c := updBank k b (fun x => { resumeEpc x with st := st }) c
    updCore k (fun s => { s with afterSt := true }) c
  else doubleFault k b 0 (bankPc x) c

end Sys2Proof.Machine
end

