-- ==== Sys2Proof/Machine/Flags.lean ====
section
/-! DEFINITION. Flag computations and arithmetic edges of the Nalruek instructions (11 R254, R257, R277, R278). -/

namespace Sys2Proof.Machine

/-- The flags an instruction writes: none where it keeps one. Q and DZ are only set (12 R281). -/
structure FlagUp where
  n : Option Bool
  z : Option Bool
  c : Option Bool
  v : Option Bool
  q : Bool
  dz : Bool
  deriving DecidableEq, Repr

def FlagUp.keep : FlagUp := { n := none, z := none, c := none, v := none, q := false, dz := false }

/-- A status word with one flag written or kept. -/
def putFlag (i : Nat) (b : Option Bool) (st : Word) : Word :=
  match b with
  | some b => st.withBit i b
  | none => st

/-- The status with the flags of `u`. -/
def FlagUp.apply (u : FlagUp) (st : Word) : Word :=
  let st := putFlag stV u.v (putFlag stC u.c (putFlag stZ u.z (putFlag stN u.n st)))
  let st := if u.q then st.withBit stQ true else st
  if u.dz then st.withBit stDZ true else st

/-- N and Z of a result (R257). -/
def nz (r : Word) : FlagUp := { FlagUp.keep with n := some r.msb, z := some (r == 0) }

/-- A sum with a carry in: C the carry out, V when the signed sum does not fit (R257). -/
def addFlags (a b : Word) (cin : Bool) : Word × FlagUp :=
  let r := a + b + BitVec.ofNat 32 cin.toNat
  let s : Int := a.toInt + b.toInt + (cin.toNat : Int)
  (r, { nz r with c := some (decide (2 ^ 32 ≤ a.toNat + b.toNat + cin.toNat)),
                  v := some (decide (s < -(2 ^ 31)) || decide (2 ^ 31 ≤ s)) })

/-- A difference with a borrow: C is 1 when no borrow occurs (R257). -/
def subFlags (a b : Word) (borrow : Bool) : Word × FlagUp :=
  let r := a - b - BitVec.ofNat 32 borrow.toNat
  let s : Int := a.toInt - b.toInt - (borrow.toNat : Int)
  (r, { nz r with c := some (decide (b.toNat + borrow.toNat ≤ a.toNat)),
                  v := some (decide (s < -(2 ^ 31)) || decide (2 ^ 31 ≤ s)) })

/-- CMPU (12 R284): N is the unsigned order, V is 0. -/
def cmpuFlags (a b : Word) : FlagUp :=
  { (subFlags a b false).2 with n := some (decide (a.toNat < b.toNat)), v := some false }

/-- NEG and ABS (12 R284, R277). -/
def negFlags (a : Word) : Word × FlagUp := subFlags 0 a false
def absFlags (a : Word) : Word × FlagUp :=
  let r := if a.msb then 0 - a else a
  (r, { nz r with v := some (a == 0x80000000) })

/-- The kinds of shift (R278). -/
inductive Shift where
  | lsl
  | lsr
  | asr
  | ror
  deriving DecidableEq, Repr

/-- A shift by an 8-bit amount: the result, and C or none where it is kept (R278). -/
def shiftBy (k : Shift) (a : Word) (n : Nat) : Word × Option Bool :=
  if n = 0 then (a, none)
  else match k with
    | .lsl => (a <<< n, some (decide (n ≤ 32) && a.getLsbD (32 - n)))
    | .lsr => (a >>> n, some (decide (n ≤ 32) && a.getLsbD (n - 1)))
    | .asr => if 32 ≤ n then (BitVec.sshiftRight a 31, some a.msb) else (BitVec.sshiftRight a n, some (a.getLsbD (n - 1)))
    | .ror => let r := a.rotateRight (n % 32); (r, some r.msb)

/-- N, Z and C of a shift (12 R284, R285). -/
def shiftFlags (k : Shift) (a : Word) (n : Nat) : Word × FlagUp :=
  let r := shiftBy k a n
  (r.1, { nz r.1 with c := r.2 })

/-- Whether a condition other than PK holds in a status (R254). -/
def condTest (st : Word) (code : Nat) : Bool :=
  let v := st.bit stV
  let c := st.bit stC
  let z := st.bit stZ
  let n := st.bit stN
  match code with
  | 0 => true
  | 1 => z
  | 2 => !z
  | 3 => c
  | 4 => !c
  | 5 => n
  | 6 => !n
  | 7 => v
  | 8 => !v
  | 9 => c && !z
  | 10 => !c || z
  | 11 => n == v
  | 12 => n != v
  | 13 => !z && n == v
  | 14 => z || n != v
  | _ => false

/-- Whether a condition holds; PK tests ST.PCOND, and a PCOND of 15 never holds (R254). -/
def condHolds (st : Word) (code : BitVec 4) : Bool :=
  if code = 15 then condTest st (st.fld 8 4) else condTest st code.toNat

/-- Signed and unsigned division (R277): result, V and whether the divisor is 0. -/
inductive DivKind where
  | div
  | divu
  | rem
  | remu
  | divs
  deriving DecidableEq, Repr

/-- The one quotient that does not fit: −2³¹ ÷ −1. -/
def divOverflow (a b : Word) : Bool := a == 0x80000000 && b == 0xFFFFFFFF

/-- The result of a division (R277). -/
def divide (k : DivKind) (a b : Word) : Word :=
  match k with
  | .divu => if b = 0 then 0xFFFFFFFF else BitVec.ofNat 32 (a.toNat / b.toNat)
  | .remu => if b = 0 then a else BitVec.ofNat 32 (a.toNat % b.toNat)
  | .rem => if b = 0 then a else wordI (Int.tmod a.toInt b.toInt)
  | .div => if b = 0 then (if a.msb then 0x80000000 else 0x7FFFFFFF) else wordI (Int.tdiv a.toInt b.toInt)
  | .divs =>
    if b = 0 then (if a.msb then 0x80000000 else 0x7FFFFFFF)
    else if divOverflow a b then 0x7FFFFFFF else wordI (Int.tdiv a.toInt b.toInt)

/-- The flags of a division (12 R287): V but for DIVS, Q for DIVS, DZ. -/
def divideFlags (k : DivKind) (a b : Word) : FlagUp :=
  { FlagUp.keep with
    v := match k with
      | .div => some (divOverflow a b)
      | .rem => some (divOverflow a b)
      | .divs => none
      | _ => some false
    q := decide (k = .divs) && divOverflow a b
    dz := b == 0 }

/-- A number clamped to 32 bits, and Q where it was outside (12 R286). -/
def satFlags (x : Int) : Word × FlagUp := (wordI (sat32 x), { FlagUp.keep with q := decide (sat32 x ≠ x) })

end Sys2Proof.Machine
end

