-- ==== Sys2Proof/Machine/Operands.lean ====
section
/-! DEFINITION. The operand forms of the Nalruek instructions (11 R248, R259 to R266): registers of the running bank,
register pairs, accumulators, masks. -/

namespace Sys2Proof.Machine

/-- A general register of a bank. -/
def BankS.gr (x : BankS) (r : Fin 32) : Word := x.g[r]
def BankS.setG (x : BankS) (r : Fin 32) (v : Word) : BankS := { x with g := x.g.set r v }

/-- The link register and the stack pointer (R248). -/
def lrOf (k : CoreId) : Fin 32 := if k.isNKS then 14 else 30
def spOf (k : CoreId) : Fin 32 := if k.isNKS then 15 else 31

/-- The second register of a pair (R266). -/
def pairReg (r : Fin 32) : Fin 32 := ⟨(r.val + 1) % 32, by omega⟩

/-- A register with the flags of `u` written too. -/
def BankS.result (x : BankS) (rd : Fin 32) (r : Word × FlagUp) : BankS :=
  { x.setG rd r.1 with st := r.2.apply x.st }
def BankS.flags (x : BankS) (u : FlagUp) : BankS := { x with st := u.apply x.st }

/-- An accumulator result stops at the limits of 48 bits and then sets Q (R277, 12 R288). -/
def BankS.setAcc (x : BankS) (a : Fin 2) (v : Int) : BankS :=
  let w := clampI (-(2 ^ 47)) (2 ^ 47 - 1) v
  { x with ac := x.ac.set a (BitVec.ofInt 48 w), st := if w = v then x.st else x.st.withBit stQ true }

/-- The registers that a CALLM or RETM mask names, ascending (R270): g(14 + i) on NK-L; g(8 + i), i ≤ 5, on NK-S. -/
def maskRegs (k : CoreId) (mask : BitVec 16) : List (Fin 32) :=
  if k.isNKS then (List.finRange 6).filterMap (fun (i : Fin 6) =>
    if mask.getLsbD i.val then some (⟨8 + i.val, by omega⟩ : Fin 32) else none)
  else (List.finRange 16).filterMap (fun (i : Fin 16) =>
    if mask.getLsbD i.val then some (⟨14 + i.val, by omega⟩ : Fin 32) else none)

end Sys2Proof.Machine
end

