-- ==== Sys2Proof/Machine/CoreRun.lean ====
section
/-! DEFINITION. How a core executes one instruction (11 R256, R267 to R269; 13 R298 to R302, R311 to R316): checks in
their order, hazards, repeat pairs, exceptions, and the advance of PC. -/

namespace Sys2Proof.Machine

/-- Who executes: core, bank, the address of the instruction and of the next one, its condition, and whether a bank of higher priority
is recognised in its cycle (R316). -/
structure Cx where
  k : CoreId
  b : Fin 8
  pc : Word
  nxt : Word
  cond : BitVec 4 := 0
  due : Bool := false
  deriving DecidableEq, Repr

/-- How an instruction ends: it falls through, goes to an address, raises an exception with its data address and progress
index, or has placed PC itself. -/
inductive Flow where
  | next
  | jump (pc : Word)
  | exc (v : Nat) (fa : Option Word) (prog : Nat)
  | own
  deriving DecidableEq, Repr

/-- What decode knows of an instruction: the kinds of core that have it, the general registers it names, whether its
operands are legal and whether it may be repeated (R268); the registers and flags it reads and writes (general registers
0 to 31, floating-point registers 32 to 63, flags by `flagR`, PCOND 71, the flags of FCSR 70 and its controls 72); whether it uses
the floating-point file; whether it is long (13 R298); the unit that it occupies (12 R287, R294); and the word access of LDF and
STF, whether a write, with its base and offset. -/
structure Spec where
  nkl : Bool
  nks : Bool
  gs : List (Fin 32)
  ok : Bool
  rep : Bool
  reads : List Nat
  writes : List Nat
  fp : Bool
  long : Bool
  unit : Nat := 0
  acc : Option (Bool × Fin 32 × Word) := none
  deriving DecidableEq, Repr

/-- The hazard numbers of the ST flags V, C, Z, N, DZ, Q, of PCOND, and of the flags and the controls of FCSR. -/
def flagR (i : Nat) : Nat := 64 + i
def nzcvR : List Nat := [64, 65, 66, 67]
def fcsrR : Nat := 70
def pcondR : Nat := 71
def fctlR : Nat := 72

/-- What the test of a condition reads (11 R254). -/
def condReads (cond : BitVec 4) : List Nat := if cond = 0 then [] else if cond = 15 then pcondR :: nzcvR else nzcvR

/-- An instruction of both core kinds with the general registers it writes and reads. -/
def gSpec (ws rs : List (Fin 32)) (flags : List Nat) : Spec :=
  { nkl := true, nks := true, gs := ws ++ rs, ok := true, rep := true, reads := rs.map (·.val),
    writes := ws.map (·.val) ++ flags, fp := false, long := false }

/-- A system or control instruction: it may not be repeated (R268). -/
def sysSpec (ws rs : List (Fin 32)) (flags : List Nat) : Spec := { gSpec ws rs flags with rep := false }

/-! ### Outstanding long instructions -/

def opWrites (o : LongOp) : List Nat :=
  (match o.rd with
   | some rd => [if o.fp then 32 + rd.val else rd.val]
   | none => []) ++
  (if o.vflag.isSome then [flagR stV, flagR stDZ] else []) ++ (if o.qf then [flagR stQ] else []) ++
  (if o.dz then [flagR stDZ] else []) ++ (if o.nzcv.isSome then nzcvR else []) ++ (if o.ff ≠ 0 then [fcsrR] else [])

def meets (a b : List Nat) : Bool := a.any (fun i => b.contains i)

/-- Whether an instruction waits at I for an outstanding one (13 R298), or for the unit that it occupies (12 R287, R294). -/
def conflicts (sp : Spec) (o : LongOp) : Bool :=
  meets (opWrites o) (sp.reads ++ sp.writes) || meets o.reads sp.writes || (sp.unit != 0 && sp.unit == o.unit)

/-- Everything an instruction waits for completes (13 R298, R299): a device-space load, what it conflicts with, and the
oldest of four when it is long. -/
def waitFor (k : CoreId) (sp : Spec) (cond : BitVec 4) (c : Chip) : Chip :=
  let sp := { sp with reads := sp.reads ++ condReads cond }
  let c := completeIf k isDevice c
  let c := completeIf k (conflicts sp) c
  match (coreGet c k).long with
  | o :: rest => if sp.long && 3 ≤ rest.length then completeIf k (fun p => p == o) c else c
  | [] => c

/-- A long instruction issues; what its condition tests it reads too. On NK-S and in a repeat pair it completes at once (13 R303, 11
R269). -/
def issue (cx : Cx) (o : LongOp) (c : Chip) : Chip :=
  let s := coreGet c cx.k
  let o := { o with reads := o.reads ++ condReads cx.cond }
  if cx.k.isNKS || (s.banks[cx.b].rep).isSome then completeOp cx.k o c
  else updCore cx.k (fun s => { s with long := s.long ++ [o] }) c

/-! ### Exceptions of an instruction -/

/-- EPC of an exception (13 R313): the prefix in a repeat pair (11 R269), the next instruction for a breakpoint or trap,
else the instruction. -/
def epcFor (cx : Cx) (v : Nat) (c : Chip) : Word :=
  match (bankGet c cx.k cx.b).rep with
  | some r => r.pre
  | none => if v = 11 ∨ 16 ≤ v then cx.nxt else cx.pc

/-- Vector 7 with the data address of the load, at the next instruction of the bank (13 R313). -/
def takeAsync (cx : Cx) (a : Word) (c : Chip) : Chip :=
  let epc := epcFor cx 7 c
  takeException cx.k cx.b false 7 epc 0 (updBank cx.k cx.b (fun x => { x with async := none, faddr := a }) c)

/-- The instruction raises vector `v`; older long instructions complete first, and a vector 7 that they leave pending
goes first (13 R313, R314, R321). -/
def raiseEx (cx : Cx) (v : Nat) (fa : Option Word) (prog : Nat) (c : Chip) : Chip :=
  let c := completeIf cx.k (fun _ => true) c
  match (bankGet c cx.k cx.b).async with
  | some a => takeAsync cx a c
  | none =>
    let c := match fa with
      | some a => updBank cx.k cx.b (fun x => { x with faddr := a }) c
      | none => c
    takeException cx.k cx.b true v (epcFor cx v c) prog c

/-- An exception of the instruction that found the chip as `c0`: where a bank of higher priority is recognised in the same cycle the
instruction is abandoned without it (13 R316). -/
def stopAt (cx : Cx) (v : Nat) (fa : Option Word) (prog : Nat) (c0 c : Chip) : Chip :=
  if cx.due then recognise cx.k c0 else raiseEx cx v fa prog c

/-! ### The addresses of data accesses -/

/-- The range of the map in which an unaligned NK-L access may fall whole: 1 for the TCM, 2 for system SRAM (11 R279). -/
def splitRange (k : CoreId) (a : Nat) : Nat :=
  if a < tcmSize k then 1 else if 0x10000000 ≤ a ∧ a < 0x11000000 then 2 else 0

/-- Whether an access of `n` bytes is misaligned for its core, beyond repair by splitting (11 R279). -/
def misaligned (k : CoreId) (a n : Nat) : Bool :=
  a % n != 0 && (k.isNKS || splitRange k a == 0 || splitRange k a != splitRange k (a + n - 1))

/-- The parts of an access as address and bytes: two where it is split (11 R279), or where a doubleword is moved as
words. -/
def accessParts (a n : Nat) : List (Nat × Nat) :=
  if a % n = 0 then (if n = 8 then [(a, 4), (a + 4, 4)] else [(a, n)])
  else let m := n - a % n; [(a, m), (a + m, n - m)]

/-- The first exception of a data access: alignment, then the protection unit on each part, then the core-private range at
PRIV 0 (11 R279; 13 R313, R314, R320, R323). -/
def accessExc (cx : Cx) (t : AccKind) (a n : Nat) (c : Chip) : Option Flow :=
  if misaligned cx.k a n then some (.exc 6 (some (BitVec.ofNat 32 a)) 0)
  else
    let pr := privOf (bankGet c cx.k cx.b).st
    let split := a % n ≠ 0
    let ps := (accessParts a n).zipIdx
    match ps.find? (fun p => !mpuOk c cx.k pr t p.1.1) with
    | some p => some (.exc 5 (some (BitVec.ofNat 32 p.1.1)) (if split then p.2 + 1 else 0))
    | none =>
      if 0xE0000000 ≤ a ∧ a < 0xE0100000 ∧ pr = 0 then some (.exc 5 (some (BitVec.ofNat 32 a)) 0) else none

/-! ### Fetch -/

/-- A line of system SRAM is fetched (R297): from the instruction cache, or from memory into it; of its 1,024 lines the oldest goes
(log 132). -/
def fetchLine (k : CoreId) (line : Nat) (c : Chip) : Bool × Chip :=
  if (coreGet c k).icache.contains line then (true, c)
  else if !domainsUp c line then (false, pdaccf c)
  else
    let r := eccRead line 32 c
    if r.1 then (true, updCore k (fun s => { s with icache := (line :: s.icache).take 1024 }) r.2) else r

/-- Whether the fetch of `[pc, pc + len)` succeeds (13 R297, R303, R320; 15 R342). -/
def fetchOk (cx : Cx) (len : Nat) (c : Chip) : Bool × Chip :=
  let lo := cx.pc.toNat
  let hi := lo + len - 1
  let pr := privOf (bankGet c cx.k cx.b).st
  let c := triOut cx.k 1 (2 :: lo :: (List.range len).map (fun i => (memByte c (tcmKey cx.k (lo + i))).toNat)) c
  if !(fetchable cx.k lo && fetchable cx.k hi && mpuOk c cx.k pr .exec lo && mpuOk c cx.k pr .exec hi) then (false, c)
  else match corePlace cx.k lo with
    | some (.mem key) =>
      if inSram lo then [lo / 32 * 32, hi / 32 * 32].dedup.foldl (fun (r : Bool × Chip) l => if r.1 then fetchLine cx.k l r.2 else r) (true, c)
      else if domainsUp c key then eccRead key len c else (false, pdaccf c)
    | some (.rom _) => (true, c)
    | none => (false, c)

/-! ### The lazy transfer of the floating-point file (13 R311, R312) -/

/-- Whether the 132 bytes of a save area lie in the core's TCM. -/
def areaOk (k : CoreId) (a : Nat) : Bool := decide (a + 132 ≤ tcmSize k)

def areaOf (c : Chip) (k : CoreId) (b : Fin 8) : Nat := 4 * c.fld (bankFpR k b.val) 2 30

/-- The save phase: the owner's file to its area; false where an access faults. -/
def fpSave (k : CoreId) (pr : Nat) (o : Fin 8) (c : Chip) : Bool × Chip :=
  let a := areaOf c k o
  if !areaOk k a then (false, c)
  else (List.finRange 33).foldl (fun (r : Bool × Chip) (i : Fin 33) =>
    if !r.1 then r
    else if !mpuOk r.2 k pr .write (a + 4 * i.val) then (false, r.2)
    else
      let s := coreGet r.2 k
      let v := if h : i.val < 32 then s.f[i.val] else s.fcsr
      memWrite (tcmKey k (a + 4 * i.val)) 4 v.toNat (memNote k true (a + 4 * i.val) 4 v.toNat r.2)) (true, c)

/-- The load phase: the file from the area of bank `b`. -/
def fpLoad (k : CoreId) (pr : Nat) (b : Fin 8) (c : Chip) : Bool × Chip :=
  let a := areaOf c k b
  if !areaOk k a then (false, c)
  else (List.finRange 33).foldl (fun (r : Bool × Chip) (i : Fin 33) =>
    if !r.1 then r
    else if !mpuOk r.2 k pr .read (a + 4 * i.val) then (false, r.2)
    else
      let m := memRead (tcmKey k (a + 4 * i.val)) 4 (memNote k false (a + 4 * i.val) 4 0 r.2)
      match m.1 with
      | none => (false, m.2)
      | some x =>
        (true, updCore k (fun s =>
          if h : i.val < 32 then { s with f := s.f.set i.val (BitVec.ofNat 32 x) }
          else { s with fcsr := BitVec.ofNat 32 x &&& 0x001F1F0F }) m.2)) (true, c)

/-- A bank loses or gains the file: FPA and the owner. -/
def fpOwn (k : CoreId) (o : Option (Fin 8)) (c : Chip) : Chip :=
  let c := match (coreGet c k).fpOwner with
    | some p => updBank k p (fun x => { x with st := x.st.withBit stFPA false }) c
    | none => c
  let c := updCore k (fun s => { s with fpOwner := o }) c
  match o with
  | some b => updBank k b (fun x => { x with st := x.st.withBit stFPA true }) c
  | none => c

/-- The transfer that an instruction of a bank with FPA = 0 starts (R311): once earlier floating-point instructions are complete it takes
66 cycles of CLK_L, or 33 where no bank owns the file; the instruction itself executes after it. -/
def fpStart (cx : Cx) (c : Chip) : Chip :=
  let c := completeIf cx.k (fun o => o.fp || o.ff != 0) c
  let n := if (coreGet c cx.k).fpOwner.isSome then 32 else 16
  updCore cx.k (fun s => { s with stalls := s.stalls ++
    [{ bank := cx.b, addr := cx.pc, kind := .fpFile (c.now + n), fp := false, rd := none, reads := [], vflag := none, dz := false,
       qf := false, nzcv := none, ff := 0 }] }) c

/-- The end of the transfer: bank `b` comes to own the floating-point file; false where vector 10 is raised. -/
def fpReady (k : CoreId) (b : Fin 8) (c : Chip) : Bool × Chip :=
  if (bankGet c k b).st.bit stFPA then (true, c)
  else
    let pr := privOf (bankGet c k b).st
    let c := drainStores k c
    let sv := match (coreGet c k).fpOwner with
      | some o => fpSave k pr o c
      | none => (true, c)
    if !sv.1 then (false, sv.2)
    else
      let ld := fpLoad k pr b sv.2
      if ld.1 then (true, fpOwn k (some b) ld.2)
      else (false, fpOwn k none (updCore k (fun s => { s with f := Vector.replicate 32 0, fcsr := 0 }) ld.2))

/-! ### The instruction -/

/-- Decode (R256): the core kind has the instruction, its operands are legal, and an NK-S core has the registers. -/
def decodeOk (k : CoreId) (sp : Spec) : Bool :=
  sp.ok && (if k.isNKS then sp.nks && sp.gs.all (fun r => decide (r.val < 16)) else sp.nkl)

/-- A repeat pair that may not be is found at its first iteration (R268). -/
def repOk (x : BankS) (sp : Spec) : Bool :=
  match x.rep with
  | some r => sp.rep || r.begun
  | none => true

/-- The instruction completes: an iteration of a repeat pair (R267), an instruction of the restart record (13 R301), or
the instruction at PC. -/
def instrDone (cx : Cx) (c : Chip) : Chip :=
  updBank cx.k cx.b (fun x =>
    match x.rep with
    | some r => iterDone r cx.pc cx.nxt x
    | none =>
      match x.restart with
      | _ :: rest => { x with restart := rest }
      | [] => { x with pc := cx.nxt }) c

/-- The end of an instruction by its flow; `c0` is the chip that it found. -/
def finish (cx : Cx) (c0 : Chip) (r : Flow × Chip) : Chip :=
  match r.1 with
  | .next => instrDone cx r.2
  | .jump pc => updBank cx.k cx.b (fun x => { x with pc := pc, restart := [] }) r.2
  | .exc v fa prog => stopAt cx v fa prog c0 r.2
  | .own => r.2

/-- The exception that the access of LDF or STF raises, which goes before vector 10 (R313). -/
def accFault (cx : Cx) (sp : Spec) (c : Chip) : Option Flow :=
  sp.acc.bind (fun a => accessExc cx (if a.1 then .write else .read) ((bankGet c cx.k cx.b).gr a.2.1 + a.2.2).toNat 4 c)

/-- Execution after decode: the condition, the transfer of the floating-point file where the bank does not own it, the body (R254,
R256, R311). -/
def execBody (h : Hdr) (sp : Spec) (cx : Cx) (body : Cx → Chip → Flow × Chip) (c : Chip) : Chip :=
  if !condHolds (bankGet c cx.k cx.b).st h.cond then instrDone cx c
  else if sp.fp && !(bankGet c cx.k cx.b).st.bit stFPA then
    match accFault cx sp c with
    | some e => finish cx c (e, c)
    | none => fpStart cx c
  else finish cx c (body cx c)

/-- A pending error of an earlier instruction is taken before anything else (R302, R313): vector 7 first, at the load that waits for
vector 5 where there is one. -/
def pendingError (cx : Cx) (c : Chip) : Option Chip :=
  match (bankGet c cx.k cx.b).async, (bankGet c cx.k cx.b).devErr with
  | some a, some (la, _) => some (takeAsync { cx with pc := la } a (updBank cx.k cx.b (fun x => { x with devErr := none }) c))
  | some a, none => some (takeAsync cx a c)
  | none, some (la, da) => some (takeException cx.k cx.b true 5 la 0 (updBank cx.k cx.b (fun x => { x with devErr := none, faddr := da }) c))
  | none, none => none

/-- One instruction at the present address of bank `b`: pending errors, the fetch, decode, then its execution. -/
def instrAt (h : Hdr) (sp : Spec) (b : Fin 8) (body : Cx → Chip → Flow × Chip) (c0 : Chip) : Chip :=
  let pc := bankPc (bankGet c0 h.core b)
  let cx : Cx := { k := h.core, b := b, pc := pc, nxt := pc + BitVec.ofNat 32 h.len, cond := h.cond, due := recogDue c0 h.core }
  let c := waitFor cx.k sp h.cond (updCore cx.k (fun s => { s with afterSt := false }) c0)
  match pendingError cx c with
  | some c' => if cx.due then recognise cx.k c else c'
  | none =>
    let f := fetchOk cx h.len c
    if !f.1 then stopAt cx 4 (some pc) 0 c f.2
    else if !(decodeOk cx.k sp && repOk (bankGet f.2 cx.k b) sp) then stopAt cx 2 none 0 c f.2
    else execBody h sp cx body f.2

/-- Whether a load of the bank waits for its target: no instruction of the bank issues (13 R298, R303). -/
def stalled (c : Chip) (k : CoreId) (b : Fin 8) : Bool := (coreGet c k).stalls.any (fun o => o.bank == b)

/-- An instruction executes in the running bank of a core that executes; with none, nothing happens. -/
def instr (h : Hdr) (sp : Spec) (body : Cx → Chip → Flow × Chip) : Chip → Chip := eachLane h.core (fun c =>
  match (coreGet c h.core).running with
  | some b => if coreLive c h.core && !stalled c h.core b && (bankGet c h.core b).mode == .running then instrAt h sp b body c else c
  | none => c)

/-- An instruction whose effect is on the bank alone. -/
def onBank (f : BankS → BankS) (cx : Cx) (c : Chip) : Flow × Chip := (.next, updBank cx.k cx.b f c)

end Sys2Proof.Machine
end

