-- ==== Sys2Proof/Machine/Alu.lean ====
section
/-! DEFINITION. The integer ALU instructions (12 R284, R285): what each computes and the flags it writes. -/

namespace Sys2Proof.Machine

/-- The four flags that an addition or a comparison writes, and those of a shift or a logical result. -/
def nzR : List Nat := [flagR stN, flagR stZ]
def nzcR : List Nat := [flagR stN, flagR stZ, flagR stC]

/-- rd := op ra rb, with the flags it names. -/
def alu3 (h : Hdr) (rd ra rb : Fin 32) (fl : List Nat) (op : BankS → Word → Word → Word × FlagUp) (c : Chip) : Chip :=
  instr h (gSpec [rd] [ra, rb] fl) (onBank (fun x => x.result rd (op x (x.gr ra) (x.gr rb)))) c

/-- rd := op ra. -/
def alu2 (h : Hdr) (rd ra : Fin 32) (fl : List Nat) (op : Word → Word × FlagUp) (c : Chip) : Chip :=
  instr h (gSpec [rd] [ra] fl) (onBank (fun x => x.result rd (op (x.gr ra)))) c

/-- The flags of a comparison alone. -/
def cmp2 (h : Hdr) (ra rb : Fin 32) (fl : List Nat) (op : Word → Word → FlagUp) (c : Chip) : Chip :=
  instr h (gSpec [] [ra, rb] fl) (onBank (fun x => x.flags (op (x.gr ra) (x.gr rb)))) c
def cmp1 (h : Hdr) (ra : Fin 32) (fl : List Nat) (op : Word → FlagUp) (c : Chip) : Chip :=
  instr h (gSpec [] [ra] fl) (onBank (fun x => x.flags (op (x.gr ra)))) c

/-- An instruction that only NK-L cores have. -/
def nklOnly (sp : Spec) : Spec := { sp with nks := false }
def nksOnly (sp : Spec) : Spec := { sp with nkl := false }

/-- ADC and SBC read C too. -/
def carryIn (sp : Spec) : Spec := { sp with reads := flagR stC :: sp.reads }

/-- A result that writes no flag. -/
def plain (r : Word) : Word × FlagUp := (r, FlagUp.keep)
def logic (r : Word) : Word × FlagUp := (r, nz r)

def minS (a b : Word) : Word := if a.toInt ≤ b.toInt then a else b
def maxS (a b : Word) : Word := if a.toInt ≤ b.toInt then b else a
def minU (a b : Word) : Word := if a.toNat ≤ b.toNat then a else b
def maxU (a b : Word) : Word := if a.toNat ≤ b.toNat then b else a

/-- The count of leading zeros; 32 for 0. -/
def clzOf (a : Word) : Word := BitVec.ofNat 32 (((List.range 32).filter (fun i => a.toNat < 2 ^ (31 - i))).length)

/-- ADD (R284): N, Z, C, V. -/
def execAdd (h : Hdr) (rd ra rb : Fin 32) (s : State) : Host.Outcome State Fault Refusal :=
  s.onChip (alu3 h rd ra rb nzcvR (fun _ a b => addFlags a b false))

/-- ADC (R284): with the carry. -/
def execAdc (h : Hdr) (rd ra rb : Fin 32) (s : State) : Host.Outcome State Fault Refusal :=
  s.onChip (instr h (carryIn (gSpec [rd] [ra, rb] nzcvR)) (onBank (fun x => x.result rd (addFlags (x.gr ra) (x.gr rb) (x.st.bit stC)))))

/-- SUB (R284). -/
def execSub (h : Hdr) (rd ra rb : Fin 32) (s : State) : Host.Outcome State Fault Refusal :=
  s.onChip (alu3 h rd ra rb nzcvR (fun _ a b => subFlags a b false))

/-- SBC (R284): with the borrow. -/
def execSbc (h : Hdr) (rd ra rb : Fin 32) (s : State) : Host.Outcome State Fault Refusal :=
  s.onChip (instr h (carryIn (gSpec [rd] [ra, rb] nzcvR)) (onBank (fun x => x.result rd (subFlags (x.gr ra) (x.gr rb) (!x.st.bit stC)))))

/-- AND (R284): N and Z. -/
def execAnd (h : Hdr) (rd ra rb : Fin 32) (s : State) : Host.Outcome State Fault Refusal :=
  s.onChip (alu3 h rd ra rb nzR (fun _ a b => logic (a &&& b)))

/-- OR (R284). -/
def execOr (h : Hdr) (rd ra rb : Fin 32) (s : State) : Host.Outcome State Fault Refusal :=
  s.onChip (alu3 h rd ra rb nzR (fun _ a b => logic (a ||| b)))

/-- XOR (R284). -/
def execXor (h : Hdr) (rd ra rb : Fin 32) (s : State) : Host.Outcome State Fault Refusal :=
  s.onChip (alu3 h rd ra rb nzR (fun _ a b => logic (a ^^^ b)))

/-- BIC (R284): ra and not rb. -/
def execBic (h : Hdr) (rd ra rb : Fin 32) (s : State) : Host.Outcome State Fault Refusal :=
  s.onChip (alu3 h rd ra rb nzR (fun _ a b => logic (a &&& ~~~ b)))

/-- LSL by the low 8 bits of rb (R278, R284). -/
def execLsl (h : Hdr) (rd ra rb : Fin 32) (s : State) : Host.Outcome State Fault Refusal :=
  s.onChip (alu3 h rd ra rb nzcR (fun _ a b => shiftFlags .lsl a (b.fld 0 8)))

/-- LSR (R278, R284). -/
def execLsr (h : Hdr) (rd ra rb : Fin 32) (s : State) : Host.Outcome State Fault Refusal :=
  s.onChip (alu3 h rd ra rb nzcR (fun _ a b => shiftFlags .lsr a (b.fld 0 8)))

/-- ASR (R278, R284). -/
def execAsr (h : Hdr) (rd ra rb : Fin 32) (s : State) : Host.Outcome State Fault Refusal :=
  s.onChip (alu3 h rd ra rb nzcR (fun _ a b => shiftFlags .asr a (b.fld 0 8)))

/-- ROR (R278, R284). -/
def execRor (h : Hdr) (rd ra rb : Fin 32) (s : State) : Host.Outcome State Fault Refusal :=
  s.onChip (alu3 h rd ra rb nzcR (fun _ a b => shiftFlags .ror a (b.fld 0 8)))

/-- MIN, signed (R284). -/
def execMin (h : Hdr) (rd ra rb : Fin 32) (s : State) : Host.Outcome State Fault Refusal :=
  s.onChip (alu3 h rd ra rb [] (fun _ a b => plain (minS a b)))

/-- MAX, signed (R284). -/
def execMax (h : Hdr) (rd ra rb : Fin 32) (s : State) : Host.Outcome State Fault Refusal :=
  s.onChip (alu3 h rd ra rb [] (fun _ a b => plain (maxS a b)))

/-- MINU, on NK-L (R284). -/
def execMinu (h : Hdr) (rd ra rb : Fin 32) (s : State) : Host.Outcome State Fault Refusal :=
  s.onChip (instr h (nklOnly (gSpec [rd] [ra, rb] []))
    (onBank (fun x => x.setG rd (minU (x.gr ra) (x.gr rb)))))

/-- MAXU, on NK-L (R284). -/
def execMaxu (h : Hdr) (rd ra rb : Fin 32) (s : State) : Host.Outcome State Fault Refusal :=
  s.onChip (instr h (nklOnly (gSpec [rd] [ra, rb] []))
    (onBank (fun x => x.setG rd (maxU (x.gr ra) (x.gr rb)))))

/-- CMP (R284): the flags of ra − rb. -/
def execCmp (h : Hdr) (ra rb : Fin 32) (s : State) : Host.Outcome State Fault Refusal :=
  s.onChip (cmp2 h ra rb nzcvR (fun a b => (subFlags a b false).2))

/-- CMPU (R284). -/
def execCmpu (h : Hdr) (ra rb : Fin 32) (s : State) : Host.Outcome State Fault Refusal :=
  s.onChip (cmp2 h ra rb nzcvR cmpuFlags)

/-- TST (R284): the flags of ra and rb. -/
def execTst (h : Hdr) (ra rb : Fin 32) (s : State) : Host.Outcome State Fault Refusal :=
  s.onChip (cmp2 h ra rb nzR (fun a b => nz (a &&& b)))

/-- MOV; with W, on NK-S, of a register pair whose registers are even (R284, 11 R266). -/
def movSpec (w : Bool) (rd ra : Fin 32) : Spec :=
  if w then
    { gSpec [rd, pairReg rd] [ra, pairReg ra] [] with nkl := false, ok := rd.val % 2 == 0 && ra.val % 2 == 0 }
  else gSpec [rd] [ra] []

/-- MOV (R284, R266). -/
def execMov (h : Hdr) (w : Bool) (rd ra : Fin 32) (s : State) : Host.Outcome State Fault Refusal :=
  s.onChip (instr h (movSpec w rd ra) (onBank (fun x =>
    if w then (x.setG rd (x.gr ra)).setG (pairReg rd) (x.gr (pairReg ra)) else x.setG rd (x.gr ra))))

/-- SXTB (R284). -/
def execSxtb (h : Hdr) (rd ra : Fin 32) (s : State) : Host.Outcome State Fault Refusal :=
  s.onChip (alu2 h rd ra [] (fun a => plain ((a.extractLsb' 0 8).signExtend 32)))

/-- SXTH (R284). -/
def execSxth (h : Hdr) (rd ra : Fin 32) (s : State) : Host.Outcome State Fault Refusal :=
  s.onChip (alu2 h rd ra [] (fun a => plain ((a.extractLsb' 0 16).signExtend 32)))

/-- ZXTB (R284). -/
def execZxtb (h : Hdr) (rd ra : Fin 32) (s : State) : Host.Outcome State Fault Refusal :=
  s.onChip (alu2 h rd ra [] (fun a => plain (a &&& 0xFF)))

/-- ZXTH (R284). -/
def execZxth (h : Hdr) (rd ra : Fin 32) (s : State) : Host.Outcome State Fault Refusal :=
  s.onChip (alu2 h rd ra [] (fun a => plain (a &&& 0xFFFF)))

/-- CLZ, on NK-L (R284). -/
def execClz (h : Hdr) (rd ra : Fin 32) (s : State) : Host.Outcome State Fault Refusal :=
  s.onChip (instr h (nklOnly (gSpec [rd] [ra] [])) (onBank (fun x => x.setG rd (clzOf (x.gr ra)))))

/-- NEG (R284, R277). -/
def execNeg (h : Hdr) (rd ra : Fin 32) (s : State) : Host.Outcome State Fault Refusal :=
  s.onChip (alu2 h rd ra nzcvR negFlags)

/-- ABS (R284, R277): N, Z, V. -/
def execAbs (h : Hdr) (rd ra : Fin 32) (s : State) : Host.Outcome State Fault Refusal :=
  s.onChip (alu2 h rd ra [flagR stN, flagR stZ, flagR stV] absFlags)

/-- g16 to g31 by the low four bits of their number (11 R261). -/
def hiReg (i : Fin 16) : Fin 32 := ⟨16 + i.val, by omega⟩
def loReg (i : Fin 16) : Fin 32 := ⟨i.val, by omega⟩

/-- MOVFH, on NK-L: RD := g[16 + RA] (11 R261). -/
def execMovfh (h : Hdr) (rd ra : Fin 16) (s : State) : Host.Outcome State Fault Refusal :=
  s.onChip (instr h (nklOnly (gSpec [loReg rd] [hiReg ra] []))
    (onBank (fun x => x.setG (loReg rd) (x.gr (hiReg ra)))))

/-- MOVTH, on NK-L: g[16 + RD] := RA (11 R261). -/
def execMovth (h : Hdr) (rd ra : Fin 16) (s : State) : Host.Outcome State Fault Refusal :=
  s.onChip (instr h (nklOnly (gSpec [hiReg rd] [loReg ra] []))
    (onBank (fun x => x.setG (hiReg rd) (x.gr (loReg ra)))))

/-- ADDI (R285). -/
def execAddi (h : Hdr) (rd ra : Fin 32) (imm : Word) (s : State) : Host.Outcome State Fault Refusal :=
  s.onChip (alu2 h rd ra nzcvR (fun a => addFlags a imm false))

/-- SUBI, on NK-L: rd := rd − imm (R285). -/
def execSubi (h : Hdr) (rd : Fin 32) (imm : Word) (s : State) : Host.Outcome State Fault Refusal :=
  s.onChip (instr h (nklOnly (gSpec [rd] [rd] nzcvR))
    (onBank (fun x => x.result rd (subFlags (x.gr rd) imm false))))

/-- ANDI (R285). -/
def execAndi (h : Hdr) (rd ra : Fin 32) (imm : Word) (s : State) : Host.Outcome State Fault Refusal :=
  s.onChip (alu2 h rd ra nzR (fun a => logic (a &&& imm)))

/-- ORI (R285). -/
def execOri (h : Hdr) (rd ra : Fin 32) (imm : Word) (s : State) : Host.Outcome State Fault Refusal :=
  s.onChip (alu2 h rd ra nzR (fun a => logic (a ||| imm)))

/-- XORI (R285). -/
def execXori (h : Hdr) (rd ra : Fin 32) (imm : Word) (s : State) : Host.Outcome State Fault Refusal :=
  s.onChip (alu2 h rd ra nzR (fun a => logic (a ^^^ imm)))

/-- A shift by an immediate; above 31 it is illegal (R285). -/
def shiftImm (h : Hdr) (rd ra : Fin 32) (imm : Word) (k : Shift) (c : Chip) : Chip :=
  instr h { gSpec [rd] [ra] nzcR with ok := decide (imm.toNat < 32) }
    (onBank (fun x => x.result rd (shiftFlags k (x.gr ra) imm.toNat))) c

/-- LSLI by 0 to 31 (R285, 11 R278). -/
def execLsli (h : Hdr) (rd ra : Fin 32) (imm : Word) (s : State) : Host.Outcome State Fault Refusal :=
  s.onChip (shiftImm h rd ra imm .lsl)

/-- LSRI by 0 to 31 (R285, 11 R278). -/
def execLsri (h : Hdr) (rd ra : Fin 32) (imm : Word) (s : State) : Host.Outcome State Fault Refusal :=
  s.onChip (shiftImm h rd ra imm .lsr)

/-- ASRI by 0 to 31 (R285, 11 R278). -/
def execAsri (h : Hdr) (rd ra : Fin 32) (imm : Word) (s : State) : Host.Outcome State Fault Refusal :=
  s.onChip (shiftImm h rd ra imm .asr)

/-- RORI by 0 to 31 (R285, 11 R278). -/
def execRori (h : Hdr) (rd ra : Fin 32) (imm : Word) (s : State) : Host.Outcome State Fault Refusal :=
  s.onChip (shiftImm h rd ra imm .ror)

/-- CMPI (R285). -/
def execCmpi (h : Hdr) (ra : Fin 32) (imm : Word) (s : State) : Host.Outcome State Fault Refusal :=
  s.onChip (cmp1 h ra nzcvR (fun a => (subFlags a imm false).2))

/-- CMPUI (R285). -/
def execCmpui (h : Hdr) (ra : Fin 32) (imm : Word) (s : State) : Host.Outcome State Fault Refusal :=
  s.onChip (cmp1 h ra nzcvR (fun a => cmpuFlags a imm))

/-- MOVI (R285). -/
def execMovi (h : Hdr) (rd : Fin 32) (imm : Word) (s : State) : Host.Outcome State Fault Refusal :=
  s.onChip (instr h (gSpec [rd] [] []) (onBank (fun x => x.setG rd imm)))

/-- MOVHI (R285): rd[31:16] := imm, rd[15:0] kept. -/
def execMovhi (h : Hdr) (rd : Fin 32) (imm : BitVec 16) (s : State) : Host.Outcome State Fault Refusal :=
  s.onChip (instr h (gSpec [rd] [rd] [])
    (onBank (fun x => x.setG rd (imm ++ (x.gr rd).extractLsb' 0 16))))

/-- ADDIW, on NK-L (R285): no flag. -/
def execAddiw (h : Hdr) (rd : Fin 32) (imm : Word) (s : State) : Host.Outcome State Fault Refusal :=
  s.onChip (instr h (nklOnly (gSpec [rd] [rd] [])) (onBank (fun x => x.setG rd (x.gr rd + imm))))

/-- ADDSP, on NK-L (R285): sp := sp + off. -/
def execAddsp (h : Hdr) (off : Word) (s : State) : Host.Outcome State Fault Refusal :=
  s.onChip (instr h (nklOnly (gSpec [31] [31] [])) (onBank (fun x => x.setG 31 (x.gr 31 + off))))

end Sys2Proof.Machine
end

