-- ==== Sys2Proof/Machine/Pea.lean ====
section
/-! DEFINITION. The Pea store (09 R218 to R230): the cycle of its banks, owner-checked writes, commits of domains, allocation,
and its error words. Everything that a cycle brings to the store takes effect at its end, in `peaEnd`. -/

namespace Sys2Proof.Machine

def peaGet (c : Chip) (w : Nat) : PeaWord := aread PeaWord.reset c.pea w
def peaPut (w : Nat) (x : PeaWord) (c : Chip) : Chip := { c with pea := aset PeaWord.reset c.pea w x }
def updPeaBus (f : PeaBus → PeaBus) (c : Chip) : Chip := { c with peaBus := f c.peaBus }

/-- PEA_ALLOC fields of word `w` that govern the present cycle; owner codes 0x28 to 0x3E act as 0x3F (R225). -/
def peaOwner (c : Chip) (w : Nat) : Nat := let o := c.fld0 (peaAllocR w) 0 6; if 0x28 ≤ o then 0x3F else o
def peaDom (c : Chip) (w : Nat) : Nat := c.fld0 (peaAllocR w) 6 4
def peaPart (c : Chip) (w : Nat) : Nat := c.fld0 (peaAllocR w) 10 4

/-- Whether the MGE executes a live-reconfiguration command on slice `s` (01 R13). -/
def liveOn (c : Chip) (s : Nat) : Bool := if h : s < 12 then c.slices[s].live else false

/-- PEA_FLTW for word `w` and writer code `k` (R233). -/
def fltwVal (w k : Nat) : Word := BitVec.ofNat 32 (w % 512 + 2 ^ 9 * (k % 64) + 2 ^ 15)

/-! ### Error words (R229) -/

/-- The keys of V and of S among the memories (15 R340). -/
def peaVKey (w : Nat) : Nat := 0x21000000 + 4 * w
def peaSKey (w : Nat) : Nat := 0x21000800 + 4 * w

/-- A double-bit error in a word: ECCF, PEA_FLTW with writer 0x3F, and the store's ECC fault source. -/
def peaEccMet (w : Nat) (c : Chip) : Chip :=
  raiseFault 30 (fltwVal w 0x3F) ((c.setBits peaStatR 8).setReg peaFltwR (fltwVal w 0x3F))

/-- V of a word as read: none for a double-bit error; a single-bit error is corrected (15 R341). -/
def peaRead (w : Nat) (c : Chip) : Option Word × Chip :=
  let r := eccRead (peaVKey w) 4 c
  if r.1 then (some (peaGet r.2 w).v, r.2) else (none, peaEccMet w r.2)

/-- V of a word as a snapshot takes it: 0 for a double-bit error (R195, R229). -/
def peaSnap (w : Nat) (c : Chip) : Word × Chip :=
  let r := peaRead w c
  (r.1.getD 0, r.2)

/-- A write of a word restores it. Where V held a double-bit error, what V then reads until the next commit is open (log 108). -/
def peaRestore (w : Nat) (c : Chip) : Chip :=
  let bad := eccErr c (peaVKey w) == some true
  let c := eccClear (peaVKey w) (eccClear (peaSKey w) c)
  if bad then
    let f := c.free
    peaPut w { peaGet f.2 w with v := f.1 } f.2
  else c

/-! ### Writes (R225, R226) -/

/-- A write of word `w` by writer code `k` lands at the end of the present cycle. -/
def peaWrite (k w : Nat) (v : Word) (c : Chip) : Chip := updPeaBus (fun b => { b with lands := b.lands ++ [(k, w, v)] }) c

/-- A write by a non-owner is dropped with NOWNF, PEA_FLTW and the non-owner fault (R226). -/
def peaNonOwner (w k : Nat) (c : Chip) : Chip :=
  let c := (c.setBits peaStatR 1).setReg peaFltwR (fltwVal w k)
  raiseFault 29 (fltwVal w k) c

/-- The MGE's code in a write that it made within a live reconfiguration of the word's slice, which may end before the bank serves
(R226). -/
def liveCode : Nat := 0x68

/-- A write lands (R225, R226): the owner's in S, with pending set; the MGE's, where it may write, sets V and S and clears
pending. -/
def peaLand (k w : Nat) (v : Word) (c : Chip) : Chip :=
  if k = 0x28 ∨ k = liveCode then
    if !c.sealed || k = liveCode then
      peaPut w { v := v, sh := v, pend := false } (eccClear (peaVKey w) (eccClear (peaSKey w) c))
    else peaNonOwner w k c
  else if peaOwner c w = k ∧ k ≠ 0x3F then
    let c := peaRestore w c
    peaPut w { peaGet c w with sh := v, pend := true } c
  else peaNonOwner w k c

/-! ### Commits (R222, R223) -/

/-- S of a word is copied to V; a double-bit error in S goes with it (R222, R229; log 109). -/
def peaCommitWord (w : Nat) (c : Chip) : Chip :=
  let r := eccRead (peaSKey w) 4 c
  let c := peaPut w { peaGet r.2 w with v := (peaGet r.2 w).sh, pend := false } r.2
  if r.1 then eccClear (peaVKey w) c
  else peaEccMet w { c with ecc := { c.ecc with bad := aput c.ecc.bad (peaVKey w) true } }

/-- PEA_DOM fields that govern the present cycle (R233). -/
def domKind (c : Chip) (d : Nat) : Nat := c.fld0 (peaDomR d) 0 2
def domPb (c : Chip) (d : Nat) : Nat := c.fld0 (peaDomR d) 2 3
def domCh (c : Chip) (d : Nat) : Nat := c.fld0 (peaDomR d) 5 7
def domCmtr (c : Chip) (d : Nat) : Nat := c.fld0 (peaDomR d) 12 6

/-- The domains that `p` names commit at the end of the present cycle. -/
def peaCommitIf (p : Nat → Bool) (c : Chip) : Chip :=
  updPeaBus (fun b => { b with doms := (List.range 16).foldl (fun v d => if p d then v ||| BitVec.ofNat 16 (2 ^ d) else v) b.doms }) c

/-- Whether domain `d` commits at the end of the present cycle: a commit instant fell in it, or its kind is IMMEDIATE. -/
def domCommits (c : Chip) (d : Nat) : Bool := c.peaBus.doms.getLsbD d || domKind c d == 0

/-- The commits of the cycle: S is copied to V in every pending word of their domains (R222). -/
def peaCommits (c : Chip) : Chip :=
  c.pea.foldl (fun c' e => if e.2.pend && domCommits c (peaDom c e.1) then peaCommitWord e.1 c' else c') c

/-- Domains holding at least one pending word (R233 PEA_PEND). -/
def peaPend (c : Chip) : Word :=
  c.pea.foldl (fun v e => if e.2.pend then v.withBit (peaDom c e.1) true else v) 0

/-- Domains bound to the commit points of channel `n` (R223 PWM). -/
def peaPwmCommit (n : Nat) (c : Chip) : Chip := peaCommitIf (fun d => domKind c d == 2 && domCh c d == n) c

/-- Domains bound to the bin `b` that PB[p] enters (R223 BIN). -/
def peaBinCommit (p b : Nat) (c : Chip) : Chip :=
  peaCommitIf (fun d => domKind c d == 1 && domPb c d == p &&
    (BitVec.ofNat 12 b &&& BitVec.ofNat 12 (c.fld0 (peaDomBinR d) 16 12)) ==
    (BitVec.ofNat 12 (c.fld0 (peaDomBinR d) 0 12) &&& BitVec.ofNat 12 (c.fld0 (peaDomBinR d) 16 12))) c

/-- A write of PEA_CMT by writer code `k` lands (R223): a bit from an identity other than CMTR sets CMTREJF, whatever the
domain's kind (DEDUCED, log 25). Codes from 0x28 name no owner. -/
def peaCmtWrite (k : Nat) (v : Word) (c : Chip) : Chip :=
  let mine := fun d => domCmtr c d == k && decide (k < 0x28)
  let c1 := peaCommitIf (fun d => v.bit d && domKind c d == 3 && mine d) c
  if (List.range 16).any (fun d => v.bit d && !mine d) then c1.setBits peaStatR 2 else c1

/-! ### Allocation (R227, R228) -/

/-- Whether R227 refuses an allocation of word `w`: an owner outside its home bank or its slice's partition. -/
def allocRefused (w : Nat) (v : Word) : Bool :=
  let o := v.fld 0 6
  let part := v.fld 10 4
  if o < 24 then w / 64 != o / 3 || part != o / 2
  else if o < 36 then part != o - 24
  else false

/-- A write of PEA_ALLOC[w] (R227, R228): from SEAL onward only by the MGE within one slice's live reconfiguration. An accepted
one sets S := V and clears pending at the end of its cycle. -/
def peaAllocWrite (ini : Initiator) (w : Nat) (v : Word) (c : Chip) : Chip :=
  if c.sealed && !(decide (ini = .mge) && liveOn c (peaPart c w) && v.fld 10 4 == peaPart c w) then c
  else if allocRefused w v then c.setBits peaStatR 4
  else updPeaBus (fun b => { b with allocs := b.allocs ++ [w] }) (c.setReg (peaAllocR w) (v &&& 0x3FFF))

/-- S := V of a newly allocated word, with an error that V holds. -/
def peaAllocSet (w : Nat) (c : Chip) : Chip :=
  let x := peaGet c w
  let c := peaPut w { x with sh := x.v, pend := false } (eccClear (peaSKey w) c)
  match eccErr c (peaVKey w) with
  | some e => { c with ecc := { c.ecc with bad := aput c.ecc.bad (peaSKey w) e } }
  | none => c

/-! ### The cycle of the banks (R219 to R221) -/

/-- The identities of the shared frame cycle: Triton, the MGE, the control channels of DMA[1]. -/
def peaShares : List Nat := [0x24, 0x28, 0x27]

/-- Whether the slice that a word belongs to is under live reconfiguration. -/
def peaLive (c : Chip) (word : Option Nat) : Bool :=
  match word with
  | some w => liveOn c (peaPart c w)
  | none => false

/-- A request waits for its bank from the cycle after it. -/
def peaAsk (ini code : Nat) (word : Option Nat) (wr : Option Word) (cmd : Bool) (c : Chip) : Chip :=
  updPeaBus (fun b => { b with reqs := b.reqs ++
    [{ ini := ini, code := code, asked := c.now, word := word, wr := wr, cmd := cmd, live := peaLive c word }] }) c

/-- The writer code under which a served write lands. -/
def peaWriter (r : PeaReq) : Nat := if r.code = 0x28 ∧ r.live = true then liveCode else r.code

/-- The one access that an identity presents: its oldest, from the cycle after it was made. -/
def peaHead (c : Chip) (code : Nat) : Option PeaReq :=
  (c.peaBus.reqs.find? (fun r => r.code == code)).filter (fun r => decide (r.asked < c.now))

/-- What bank `b` serves in the present cycle: LE[3b + f] in frame cycle f, in frame cycle 3 the next of the shared identities that
wait at it, in round-robin order (R219, R221). -/
def peaTake (c : Chip) (b : Fin 8) : Option PeaReq :=
  let f := c.capTime.toNat % 4
  if f < 3 then peaHead c (3 * b.val + f)
  else
    let i := c.peaBus.last[b]
    ((peaShares.drop i ++ peaShares.take i).filterMap (peaHead c)).find? (fun r => match r.word with
      | some w => w / 64 == b.val
      | none => false)

/-- An access in its serving cycle: a read takes V, a write lands at the cycle's end (R218, R220, R221). -/
def peaServe (r : PeaReq) (c : Chip) : Chip :=
  let c := updPeaBus (fun b => { b with reqs := b.reqs.erase r }) c
  match r.word, r.wr with
  | some w, some v => peaWrite (peaWriter r) w v c
  | some w, none =>
    let x := peaRead w c
    if r.cmd then (match x.1 with
      | some v => x.2.answer v
      | none => x.2.err)
    else updPeaBus (fun b => { b with got := b.got ++ [(r.ini, w, x.1)] }) x.2
  | none, some v => peaCmtWrite r.code v c
  | none, none => c

/-- Every bank serves one access (R219). -/
def peaBanks (c : Chip) : Chip :=
  (List.finRange 8).foldl (fun (c' : Chip) (b : Fin 8) => match peaTake c b with
    | some r =>
      let c' := if c.capTime.toNat % 4 = 3 then
          updPeaBus (fun x => { x with last := x.last.set b (peaShares.findIdx (· == r.code) + 1) }) c'
        else c'
      peaServe r c'
    | none => c') c

/-- The end of a cycle for the store: the banks serve, reading the old V; domains commit; then the writes of the cycle land,
checked against the old owners; last, new allocations (R222, R230). -/
def peaEnd (c : Chip) : Chip :=
  let c := if c.peaBus.reqs.isEmpty then c else peaBanks c
  let c := peaCommits c
  let b := c.peaBus
  let c := b.lands.foldl (fun (c : Chip) l => peaLand l.1 l.2.1 l.2.2 c) c
  let c := b.allocs.foldl (fun (c : Chip) w => peaAllocSet w c) c
  updPeaBus (fun b => { b with lands := [], doms := 0, allocs := [] }) c

/-- What a requester that is reset had asked is forgotten. -/
def peaForget (ini : Nat) (c : Chip) : Chip :=
  updPeaBus (fun b => { b with reqs := b.reqs.filter (fun r => r.cmd || r.wr.isSome || r.ini != ini),
                               got := b.got.filter (fun g => g.1 != ini) }) c

end Sys2Proof.Machine
end

