-- ==== Sys2Proof/Machine/PeaPort.lean ====
section
/-! DEFINITION. Accesses to the Pea store and its commands (09 R218 to R229). -/

namespace Sys2Proof.Machine

/-- The writer code of an initiator: a DMA[1] channel counts as 0x27 only while configured as control (R225). -/
def peaCodeOf (c : Chip) (ini : Initiator) : Nat :=
  match ini with
  | .dma1 _ => if c.plane ini == .control then 0x27 else 0x3F
  | _ => peaCode ini

/-- A Pea-port access of LE[n]: only its home bank serves it; outside it BANKF is set (R220). A command's read answers in its serving
cycle, a write is taken at once. -/
def peaPort (n : Fin 24) (w : Nat) (wr : Option Word) (cmd : Bool) (c : Chip) : Chip :=
  if w / 64 = n.val / 3 then peaAsk (iniIx (.le n)) n.val (some w) wr cmd c.ack
  else (c.setBits (leR n 4) (2 ^ 8)).err

/-- The value of a served read that the requester takes, if there is one. -/
def peaFetch (ini : Nat) (w : Nat) (c : Chip) : Option (Option Word × Chip) :=
  (c.peaBus.got.find? (fun g => g.1 == ini && g.2.1 == w)).map (fun g =>
    (g.2.2, updPeaBus (fun b => { b with got := b.got.erase g }) c))

/-- An access from a shared requester, or another that R13 lets through (R221): a write waits for its bank; a read takes the value
served to it, or is asked and answers in its serving cycle. -/
def peaShared (ini : Initiator) (w : Nat) (wr : Option Word) (c : Chip) : Chip :=
  match verdict c ini (0x21000000 + 4 * w) wr.isSome with
  | .ok => match ini with
    | .le n => peaPort n w wr true c
    | _ => match wr with
      | some _ => peaAsk (iniIx ini) (peaCodeOf c ini) (some w) wr true c.ack
      | none => match peaFetch (iniIx ini) w c with
        | some (some v, c) => c.answer v
        | some (none, c) => c.err
        | none => peaAsk (iniIx ini) (peaCodeOf c ini) (some w) none true c.ack
  | v => refuse v (0x21000000 + 4 * w) c

/-- The word of the Pea store at an address. -/
def peaWordOf (a : Nat) : Option Nat :=
  if 0x21000000 ≤ a ∧ a < 0x21000800 then some ((a - 0x21000000) / 4) else none

/-- Whether a read of a Pea word by a shared requester has not been served yet (R221). -/
def peaWaits (c : Chip) (ini : Initiator) (a : Nat) : Bool :=
  match peaWordOf a with
  | some w => decide (verdict c ini a false = .ok) && !c.peaBus.got.any (fun g => g.1 == iniIx ini && g.2.1 == w)
  | none => false

/-- A shared requester that must wait for a Pea word asks for it, once. -/
def peaWant (ini : Initiator) (a : Nat) (c : Chip) : Chip :=
  match peaWordOf a with
  | some w =>
    if peaWaits c ini a && !c.peaBus.reqs.any (fun r => r.ini == iniIx ini && r.word == some w && r.wr.isNone && !r.cmd) then
      peaAsk (iniIx ini) (peaCodeOf c ini) (some w) none false c
    else c
  | none => c

/-- PEA_PORT_ACCESS (R220). -/
def execPeaPortAccess (n : Fin 24) (w : Fin 512) (wr : Option Word) (s : State) : Host.Outcome State Fault Refusal :=
  s.onChip (peaPort n w wr true)

/-- PEA_SHARED_ACCESS (R221). -/
def execPeaSharedAccess (ini : Initiator) (w : Fin 512) (wr : Option Word) (s : State) : Host.Outcome State Fault Refusal :=
  s.onChip (peaShared ini w wr)

/-- A write of PEA_CMT: a loop engine's travels on its Pea port, others' land in the present cycle (R223). -/
def peaCmtPut (ini : Initiator) (v : Word) (c : Chip) : Chip :=
  match ini with
  | .le n => peaAsk (iniIx ini) n.val none (some v) true c
  | _ => peaCmtWrite (peaCodeOf c ini) v c

/-- PEA_CMT (R223). -/
def execPeaCmt (ini : Initiator) (v : Word) (s : State) : Host.Outcome State Fault Refusal :=
  s.onChip (gatedWrite ini peaCmtR (peaCmtPut ini v))

/-- PEA_ALLOC (R227, R228). -/
def execPeaAlloc (ini : Initiator) (w : Fin 512) (v : Word) (s : State) : Host.Outcome State Fault Refusal :=
  s.onChip (gatedWrite ini (peaAllocR w) (peaAllocWrite ini w v))

end Sys2Proof.Machine
end

