-- ==== Sys2Proof/Machine/PhaseCore.lean ====
section
/-! DEFINITION. The angle of a phase base: its value now, at the end of a recent cycle, the advance of a cycle, and the
prediction (02 R34 to R37, R41, R43, R48, R54). -/

namespace Sys2Proof.Machine

/-- PB_CFG fields (02 R64). -/
def pbEn (c : Chip) (p : Nat) : Bool := c.bit (pbR p 0) 0
def pbSrc (c : Chip) (p : Nat) : Nat := c.fld (pbR p 0) 1 3
def pbFwd (c : Chip) (p : Nat) : Bool := c.bit (pbR p 0) 5

/-- Sources by their code (02 R46). -/
def srcTime : Nat := 0
def srcEnc : Nat := 1
def srcHall : Nat := 2
def srcResolver : Nat := 3
def srcSdm : Nat := 4
def srcGrid : Nat := 5
def srcSoft : Nat := 6

/-- PB_STAT.STATE (02 R38). -/
def pbState (c : Chip) (p : Nat) : Nat := c.fld (pbR p 8) 0 2
def stOff : Nat := 0
def stAcquire : Nat := 1
def stTrack : Nat := 2
def stCoast : Nat := 3

/-- The amount of slew step `k` (from 1) of an unclamped slew (02 R41). -/
def slewStep (sl : Slew) (slewmax : Nat) : Int :=
  if sl.clamped then
    if absI sl.rem ≤ slewmax then sl.rem else if sl.rem < 0 then -(slewmax : Int) else slewmax
  else if sl.n < sl.k then 0
  else tdiv (sl.k * sl.e) sl.n - tdiv ((sl.k - 1 : Nat) * sl.e) sl.n

/-- PB_SLEWMAX; 0 acts as 1 (02 R41). -/
def slewMax (c : Chip) (p : Nat) : Nat := max (c.fld (pbR p 0x28) 0 24) 1

/-- The slew after one of its cycles (02 R41). -/
def slewNext (sl : Slew) (slewmax : Nat) : Slew :=
  { sl with rem := if sl.clamped then sl.rem - slewStep sl slewmax else sl.rem, k := sl.k + 1 }

/-- Whether every step of a slew has been applied. -/
def slewDone (sl : Slew) : Bool := if sl.clamped then sl.rem == 0 else decide (sl.n < sl.k)

/-- The slew term of the present cycle, 0 when no slew runs (02 R35). -/
def slewTerm (c : Chip) (p : Fin 8) : Int :=
  match c.pbs[p].slew with
  | some sl => slewStep sl (slewMax c p)
  | none => 0

/-- VA of the present cycle: VB + s, not below 0 under forward-only (02 R35, R43). -/
def vaNow (c : Chip) (p : Fin 8) : Int :=
  let v := (c.reg (pbR p 0x14)).toInt + slewTerm c p
  if pbFwd c p then max v 0 else v

/-- The part of a VA advance that the interval of R48 lets through: positions are measured from the interval modulo one
revolution, within half a revolution of its middle (DEDUCED, log 21). `x` is the angle at the start of the cycle. -/
def boundAdv (lo hi : BitVec 36) (x : BitVec 36) (adv : Int) : Int :=
  let w : Int := (hi - lo).toNat
  let off := signed 36 (x - lo - BitVec.ofNat 36 (w / 2).toNat).toNat + w / 2
  clampI (min 0 off) (max w off) (off + adv) - off

/-- The advance of the accumulator in the present cycle (02 R35, R48). -/
def advance (c : Chip) (p : Fin 8) : Int :=
  if pbEn c p then
    let va := vaNow c p
    match c.pbs[p].bound with
    | some (lo, hi) =>
      if pbState c p = stTrack ∧ (pbSrc c p = srcEnc ∨ pbSrc c p = srcHall) then
        boundAdv lo hi (c.pbs[p].acc.setWidth 36) va
      else va
    | none => va
  else 0

/-- The accumulator at the end of the present cycle, with every jump applied in it so far (02 R35). -/
def accEnd (c : Chip) (p : Fin 8) : BitVec 48 := c.pbs[p].acc + BitVec.ofInt 48 (advance c p) + c.pbs[p].jump

/-- The accumulator at the end of the cycle before (02 R37). -/
def accPrev (c : Chip) (p : Fin 8) : BitVec 48 :=
  match c.pbs[p].hist with
  | (a, _) :: _ => a
  | [] => c.pbs[p].acc

/-- The travel D of the present cycle: θ(t) − θ(t − 1), in 2⁻¹⁶ au (03 R79). -/
def travel (c : Chip) (p : Fin 8) : Int := (accEnd c p - accPrev c p).toInt

/-- θ at the end of the cycle `age` cycles before the present one: the present cycle for 0, the retained angle up to
256 cycles back, and extrapolated from the oldest retained angle beyond (02 R37). -/
def thetaAge (c : Chip) (p : Fin 8) (age : Nat) : BitVec 48 :=
  if age = 0 then accEnd c p
  else
    let h := c.pbs[p].hist
    match h[age - 1]? with
    | some (a, _) => a
    | none =>
      match h.getLast? with
      | some (a, va) => a - BitVec.ofInt 48 ((age - h.length : Int) * va.toInt)
      | none => c.pbs[p].acc

/-- PB_ANG: accumulator bits 47:16 (02 R34). -/
def angWord (a : BitVec 48) : Word := a.extractLsb' 16 32

/-- The sum of the slew steps within the next `n` cycles (02 R54). -/
def slewAhead (c : Chip) (p : Fin 8) (n : Nat) : Int :=
  match c.pbs[p].slew0 with
  | none => 0
  | some sl =>
    if sl.clamped then
      let m := min (n * slewMax c p) (absI sl.rem).toNat
      if sl.rem < 0 then -(m : Int) else m
    else
      tdiv ((min (sl.k - 1 + n) sl.n : Nat) * sl.e) sl.n - tdiv ((sl.k - 1 : Nat) * sl.e) sl.n

/-- The predicted angle over `a` ns, rounded to the nearest au (02 R54), from the register read's accumulator `base`.
VB × a / 2 is formed exactly and a half au rounds up (DEDUCED, log 22). -/
def predict (c : Chip) (p : Fin 8) (base : BitVec 48) (a : Nat) : Word :=
  let x2 := 2 * ((base.toNat : Int) + slewAhead c p ((a + 1) / 2)) + (c.reg0 (pbR p 0x14)).toInt * a
  wordI ((x2 + 2 ^ 16) / 2 ^ 17)

end Sys2Proof.Machine
end

