-- ==== Sys2Proof/Machine/PwmCore.lean ====
section
/-! DEFINITION. A PWM channel's counter, its coming events, and the output stage: action table, dead band and minimum
pulse (04 R92 to R107, R501). Instants are in fine ticks. -/

namespace Sys2Proof.Machine

/-- CFG, ACTA, ACTB, OUT, EVSEL as they govern the present cycle: a write of them governs from the next (R99, R501). -/
def cfgNow (c : Chip) (n : Fin 96) : Word × Word × Word × Word × Word :=
  (c.reg0 (pwmR n 0), c.reg0 (pwmR n 0x24), c.reg0 (pwmR n 0x28), c.reg0 (pwmR n 0x2C), c.reg0 (pwmR n 0x30))

/-- PWM_CFG fields (04 R117): EN as written, and the fields in use. -/
def pwmEn (c : Chip) (n : Nat) : Bool := c.bit (pwmR n 0) 0
def pwmRun (c : Chip) (n : Nat) : Bool := c.bit0 (pwmR n 0) 0
def pwmMode (c : Chip) (n : Nat) : Nat := c.fld0 (pwmR n 0) 1 2
def pwmPb (c : Chip) (n : Nat) : Fin 8 := Fin.ofNat 8 (c.fld0 (pwmR n 0) 5 3)
/-- Cycles of CLK_C per tick of the time carrier (R94). -/
def pwmPresc (c : Chip) (n : Nat) : Nat := c.fld0 (pwmR n 0) 8 8 + 1
/-- The carrier in use (R99). -/
def pwmAngle (c : Chip) (n : Fin 96) : Bool := c.pwms[n].angle
/-- PWM_OUT.COMP as it governs the present cycle (R501). -/
def pwmComp (c : Chip) (n : Nat) : Bool := c.bit0 (pwmR n 0x2C) 0

/-- A period in fine units: a coarse part below 4 acts as 4 ticks (R95). -/
def perOf (v : Word) : Nat := if v.toNat / 32 < 4 then 128 else v.toNat

/-- PER in fine units. -/
def pwmPer (c : Chip) (n : Nat) : Nat := perOf (c.reg (pwmR n 0x4))

/-- min(CMPX, PER) of compare X (R96). -/
def pwmCmp (c : Chip) (n : Nat) (x : Nat) : Nat := min (c.reg (pwmR n (0x8 + 4 * x))).toNat (pwmPer c n)

/-- The dead bands and the minimum pulse in fine ticks (R104, R105). -/
def pwmDbr (c : Chip) (n : Nat) : Nat := c.fld (pwmR n 0x18) 0 17
def pwmDbf (c : Chip) (n : Nat) : Nat := c.fld (pwmR n 0x1C) 0 17
def pwmMinp (c : Chip) (n : Nat) : Nat := c.fld (pwmR n 0x20) 0 17

def updPwm (n : Fin 96) (f : Pwm → Pwm) (c : Chip) : Chip := { c with pwms := vmod c.pwms n f }

/-! ### The counter -/

/-- The travel that advances the counter of an angle carrier in the present cycle: forward travel after the deficit
(R97). -/
def angAdvance (c : Chip) (n : Fin 96) : Nat := (travel c (pwmPb c n) - c.pwms[n].deficit).toNat

/-- The position of a time carrier that has run from its anchor to the start of the present cycle, in 2⁻¹¹ of a fine unit
(R93). -/
def timePos (c : Chip) (n : Fin 96) : Nat :=
  let p := c.pwms[n]
  let base := p.v0 * 2 ^ 11 + p.sub
  let e := (32 * c.now - p.t0) * 2 ^ 11 / pwmPresc c n
  if p.down then base - e else min (base + e) (pwmPer c n * 2 ^ 11)

/-- The counter's position at the start of the present cycle, in 2⁻¹¹ of a fine unit (R93, R97); it holds while the channel
does not run (R100). -/
def pwmPos (c : Chip) (n : Fin 96) : Nat :=
  let p := c.pwms[n]
  if p.angle || !p.ran then p.v0 * 2 ^ 11 + p.sub else timePos c n

/-- Whether the channel has been placed on its zero boundary at the start of the present cycle and the boundary's events are still
to come: every compare of the segment before counts as occurred. -/
def onZero (c : Chip) (n : Fin 96) : Bool :=
  let p := c.pwms[n]
  p.ran && p.t0 == 32 * c.now && p.occ == [0, 1, 2, 3] && !p.angBnd

/-- PWM_CNT: the counter in fine units at the start of the present cycle (R117); at a start or a load of 0 the boundary has put
it at 0, or at PER in DOWN (R95, R100, R109). -/
def pwmCnt (c : Chip) (n : Fin 96) : Nat :=
  if onZero c n then (if pwmMode c n = 1 then pwmPer c n else 0) else pwmPos c n / 2 ^ 11

/-- PWM_STAT.DIRDN: a running counter counts down (R117). -/
def pwmDirDown (c : Chip) (n : Fin 96) : Bool :=
  pwmRun c n && (if onZero c n then pwmMode c n == 1 else c.pwms[n].down)

/-- An event of a channel (R95, R96). -/
inductive PwmEv where
  | zro
  | prd
  | cmp (x : Fin 4) (down : Bool)
  deriving DecidableEq, Repr

/-- The bit of an event in PWM_EVSEL, and its field in PWM_ACTA by twos (R102, R117). -/
def PwmEv.ix : PwmEv → Nat
  | .zro => 0
  | .prd => 1
  | .cmp x down => 2 + 2 * x.val + down.toNat

/-- Insertion by the distance at which the counter meets the value; compares of one value act in the order A, B, C, D (DESIGN CHOICE,
log 120: R96 gives only the order in which the counter meets the events). -/
def insDist (e : Nat × PwmEv) : List (Nat × PwmEv) → List (Nat × PwmEv)
  | [] => [e]
  | x :: xs => if x.1 < e.1 then x :: insDist e xs else if x.1 = e.1 then x :: insDist e xs else e :: x :: xs

/-- Compare events of one segment from position `pos`, with their distance in fine units; those that occurred are left
out (R96, R130). -/
def segEvents (vs : Vector Nat 4) (pos : Nat) (down : Bool) (occ : List Nat) : List (Nat × PwmEv) :=
  (List.finRange 4).foldl (fun l x =>
    let v := vs[x]
    if occ.contains x.val then l
    else if down then (if v ≤ pos then insDist (pos - v, .cmp x true) l else l)
    else (if pos ≤ v then insDist (v - pos, .cmp x false) l else l)) []

/-- The coming events of `fuel` segments, each with its distance from `pos` (R95, R96). -/
def coming (mode per : Nat) (vs : Vector Nat 4) : Nat → Nat → Nat → Bool → List Nat → List (Nat × PwmEv)
  | 0, _, _, _, _ => []
  | fuel + 1, base, pos, down, occ =>
    let here := (segEvents vs pos down occ).map (fun e => (base + e.1, e.2))
    let len := if down then pos else per - pos
    let stop := base + len
    let ends : List PwmEv :=
      if mode = 2 then (if down then [.zro] else [.prd]) else if down then [.zro, .prd] else [.prd, .zro]
    here ++ ends.map (fun e => (stop, e)) ++
      (if mode = 2 then coming mode per vs fuel stop (if down then 0 else per) (!down) []
       else coming mode per vs fuel stop (if down then per else 0) down [])

def pwmVals (c : Chip) (n : Nat) : Vector Nat 4 := Vector.ofFn (fun x => pwmCmp c n x.val)

/-- The coming events of a channel by distance in fine units from its anchor. -/
def comingFrom (c : Chip) (n : Fin 96) (fuel : Nat) : List (Nat × PwmEv) :=
  coming (pwmMode c n) (pwmPer c n) (pwmVals c n) fuel 0 c.pwms[n].v0 c.pwms[n].down c.pwms[n].occ

/-- The path from the anchor to a distance in fine units, in 2⁻¹⁶ au (R97). -/
def angPath (c : Chip) (n : Fin 96) (dist : Nat) : Nat :=
  if c.pwms[n].down then dist * 2 ^ 11 + c.pwms[n].sub else dist * 2 ^ 11 - c.pwms[n].sub

/-- The instant at which the counter arrives `dist` fine units beyond its anchor: with the angle carrier by the present
d, at fine tick ⌊32 × path / d⌋ at most 31; none while it stands (R94, R97, R105). What lies at the anchor itself follows at
the anchor's instant (R96, R99). In the rest of the cycle of a switch to the angle carrier the fine tick is measured in the whole
travel of the cycle, from θ(t − 1) (DESIGN CHOICE, log 121: R97 does not say which d applies there). -/
def arrival (c : Chip) (n : Fin 96) (dist : Nat) : Option Nat :=
  if pwmAngle c n then
    let d := angAdvance c n
    let m := (c.pwms[n].angUsed + angPath c n dist).toNat
    if angPath c n dist = 0 ∨ m = 0 then some (max c.pwms[n].t0 (32 * c.now))
    else if d = 0 then none
    else
      let q := (m - 1) / d
      some (32 * (c.now + q) + min (32 * (m - q * d) / d) 31)
  else some (c.pwms[n].t0 + dist * pwmPresc c n)

/-- The events of the present cycle up to the first boundary, with their instants (R95 to R98). With the angle carrier
no second boundary falls in the cycle, and no event within one fine unit before it. -/
def eventsNow (c : Chip) (n : Fin 96) : List (Nat × PwmEv) :=
  let es := comingFrom c n 1
  let rest := angAdvance c n - c.pwms[n].angUsed.toNat
  let stop := match es.getLast? with
    | some e => angPath c n e.1
    | none => 0
  let ang := pwmAngle c n
  let again := ang && c.pwms[n].angBnd && decide (stop ≤ rest)
  es.filterMap (fun e =>
    match arrival c n e.1 with
    | some t =>
      let ok := if again then decide (angPath c n e.1 + 2 ^ 11 ≤ stop) else true
      if t < 32 * (c.now + 1) ∧ ok then some (max t (32 * c.now), e.2) else none
    | none => none)

/-! ### Levels -/

/-- An action code applied to a level (R102). -/
def actOn (act : Word) (ix : Nat) (l : Bool) : Bool :=
  match act.fld (2 * ix) 2 with
  | 1 => false
  | 2 => true
  | 3 => !l
  | _ => l

/-- The driver of each output from the levels of the action tables (R102). -/
def drivers (comp : Bool) (la lb : Bool) : Bool × Bool := if comp then (la, !la) else (la, lb)

/-- The falling instant F of an output determined at S (R105). -/
def fallFrom (c : Chip) (n : Fin 96) (outB comp : Bool) (acta actb : Word) :
    List (Nat × PwmEv) → Bool → Bool → Option Nat
  | [], _, _ => none
  | (dist, e) :: es, la, lb =>
    let la := actOn acta e.ix la
    let lb := actOn actb e.ix lb
    let dr := drivers comp la lb
    -- events at one distance apply together
    let settled : Bool := match es with
      | (d2, _) :: _ => d2 != dist
      | [] => true
    if settled && !(if outB then dr.2 else dr.1) then arrival c n dist
    else fallFrom c n outB comp acta actb es la lb

/-! ### Dead band and minimum pulse -/

def getOut (c : Chip) (n : Fin 96) (outB : Bool) : OutStage := if outB then c.pwms[n].outB else c.pwms[n].outA

def updOut (n : Fin 96) (outB : Bool) (f : OutStage → OutStage) (c : Chip) : Chip :=
  updPwm n (fun p => if outB then { p with outB := f p.outB } else { p with outA := f p.outA }) c

/-- A counted DROP or STRETCH (R107). -/
def countDrop (n : Fin 96) (c : Chip) : Chip := (c.satInc (pwmR n 0x50) 0 16).setBits (pwmR n 0x3C) (2 ^ 13)
def countStretch (n : Fin 96) (c : Chip) : Chip := (c.satInc (pwmR n 0x50) 16 16).setBits (pwmR n 0x3C) (2 ^ 14)

/-- The changes of a level that instants from `x` on still look at: those after `x`, and the last one up to it. -/
def lately (x : Nat) (es : List (Nat × Bool)) : List (Nat × Bool) :=
  es.takeWhile (fun e => decide (x < e.1)) ++ (es.dropWhile (fun e => decide (x < e.1))).take 1

/-- The level behind polarity at an instant, from the changes of it. -/
def levelAt (es : List (Nat × Bool)) (x : Nat) : Bool :=
  match es.find? (fun e => decide (e.1 ≤ x)) with
  | some e => e.2
  | none => false

/-- An output takes level `l` before polarity at instant `T`; at one instant the last level counts (R101). -/
def pushEdge (n : Fin 96) (outB : Bool) (T : Nat) (l : Bool) (c : Chip) : Chip :=
  let x := l != c.bit0 (pwmR n 0x2C) (if outB then 2 else 1)
  updOut n outB (fun o => { o with edges := (T, x) :: lately (T - 256) (o.edges.filter (fun e => e.1 != T)) }) c

/-- A happening of this channel at instant `T`. -/
def dueAt (c : Chip) (T : Nat) (f : Fin 32 → Ev) : Chip :=
  { c with agenda := c.agenda ++ [(T / 32, f (Fin.ofNat 32 (T % 32)))] }

/-- The output is held to instant `h`; MINIMUM_PULSE_END falls then (R105). -/
def holdTo (n : Fin 96) (outB : Bool) (h : Nat) (c : Chip) : Chip :=
  dueAt (updOut n outB (fun o => { o with hold := some h }) c) h (.minimumPulseEnd n outB)

/-- The dead band that governs the rise of an output (R104). -/
def deadBand (c : Chip) (n : Nat) (outB : Bool) : Nat := if outB then pwmDbf c n else pwmDbr c n

/-- A rise of an output is placed (R104). -/
def riseDue (n : Fin 96) (outB : Bool) (r : Rise) (c : Chip) : Chip :=
  dueAt (updOut n outB (fun o => { o with rises := o.rises ++ [r] }) c) r.due (.deadBandEnd n outB)

/-- A rise whose driver rose at `ref` and which falls due at `S`. -/
def newRise (ref S : Nat) : Rise := { ref := ref, due := S, due0 := S, moved := false, fall := none }

/-- The instant from which the dead band `db` lets an output rise after the other's latest fall (R104). -/
def bandEnd (o : OutStage) (db : Nat) : Nat := match o.lastFall with | some f => f + db | none => 0

/-- The rise of an output at its start S is judged against the minimum pulse (R105). In complementary mode it waits for the
other output's fall and for the dead band after it (R104). Its falling instant is its own driver's fall where that has come. A
pulse that only a stretch of the other output made narrow is dropped (R105; DEDUCED, log 143). -/
def riseAt (n : Fin 96) (outB : Bool) (r : Rise) (c : Chip) : Chip :=
  let S := r.due
  let (_, acta, actb, out, _) := cfgNow c n
  let comp := out.bit 0
  let o := getOut c n outB
  let other := getOut c n (!outB)
  let m := pwmMinp c n
  let clear := bandEnd other (deadBand c n outB)
  if comp && other.lvl && !o.lvl then updOut n outB (fun o => { o with waiting := o.waiting ++ [r] }) c
  else if comp && !o.lvl && decide (S < clear) then
    riseDue n outB { r with due := clear, moved := r.moved || other.fellHeld } c
  else
    let f := if r.fall.isSome then r.fall
      else if o.drv then fallFrom c n outB comp acta actb (comingFrom c n 4) c.pwms[n].levA c.pwms[n].levB
      else some S
    let up := fun c : Chip =>
      let c := if o.lvl then c else pushEdge n outB S true c
      updOut n outB (fun o => { o with lvl := true, start := S, minp := m }) c
    let before (x : Nat) : Bool := match f with
      | some f => decide (f < x)
      | none => false
    let narrow := before (S + m)
    let none_ := before (S + 1)
    let cut := r.moved && !before (r.due0 + m)
    if none_ && m == 0 then c
    else if narrow then
      if o.lvl then
        -- the two pulses merge; the next is judged on its own (R105)
        countStretch n (holdTo n outB (max (S + m) (o.hold.getD 0)) (up c))
      else if cut || !out.bit 3 then countDrop n c
      else countStretch n (holdTo n outB (S + m) (up c))
    else up c

/-- The output falls at `T`; a rise of the other that waited for it follows by its dead band, moved where the pulse was
stretched (R104, R105). -/
def fallAt (n : Fin 96) (outB : Bool) (T : Nat) (c : Chip) : Chip :=
  let held := (getOut c n outB).hold.isSome
  let c := pushEdge n outB T false c
  let c := updOut n outB (fun o => { o with lvl := false, hold := none, lastFall := some T, fellHeld := held }) c
  let ws := (getOut c n (!outB)).waiting
  ws.foldl (fun c r => riseDue n (!outB) { r with due := T + deadBand c n (!outB), moved := r.moved || held } c)
    (updOut n (!outB) (fun o => { o with waiting := [] }) c)

/-- The driver of an output goes to 0 at `T`: the output falls, or is held to S + M (R105), and the pulses of its rises to come are
over. So too an output that a change of COMP requires to fall, but while the other output is 1 it falls at once (R104, R501; DESIGN
CHOICE, log 104: R105 would hold it). -/
def driveLow (n : Fin 96) (outB : Bool) (T : Nat) (c : Chip) : Chip :=
  let o := getOut c n outB
  let ended (r : Rise) : Rise := { r with fall := r.fall.or (some T) }
  let c := updOut n outB (fun o => { o with drv := false, rises := o.rises.map ended, waiting := o.waiting.map ended }) c
  if !o.lvl then c
  else if pwmComp c n && (getOut c n (!outB)).lvl then fallAt n outB T c
  else match o.hold with
    | some h => if T < h then c else fallAt n outB T c
    | none =>
      if T < o.start + o.minp then countStretch n (holdTo n outB (o.start + o.minp) c) else fallAt n outB T c

/-- The driver of an output goes to 1 at `T`: in complementary mode the rise follows by the dead band, and no sooner
than the dead band after the other's latest fall (R104). -/
def driveHigh (n : Fin 96) (outB comp : Bool) (T : Nat) (c : Chip) : Chip :=
  let other := getOut c n (!outB)
  let c := updOut n outB (fun o => { o with drv := true }) c
  let r := newRise T (T + deadBand c n outB)
  if !comp then riseAt n outB (newRise T T) c
  else if other.lvl then updOut n outB (fun o => { o with waiting := o.waiting ++ [r] }) c
  else riseDue n outB r c

/-- The drivers of both outputs take their levels at `T`, falls before rises (R104). -/
def driveOuts (n : Fin 96) (comp : Bool) (T : Nat) (da db : Bool) (c : Chip) : Chip :=
  let low := fun (outB d : Bool) (c : Chip) => if (getOut c n outB).drv && !d then driveLow n outB T c else c
  let high := fun (outB d : Bool) (c : Chip) => if !(getOut c n outB).drv && d then driveHigh n outB comp T c else c
  high true db (high false da (low true db (low false da c)))

/-- The levels of the action tables change at instant `T`; the output stage follows after the last event of the instant. -/
def levels (n : Fin 96) (T : Nat) (la lb : Bool) (c : Chip) : Chip :=
  let c := updPwm n (fun p => { p with levA := la, levB := lb }) c
  if c.pwms[n].stageAt = some T then c
  else dueAt (updPwm n (fun p => { p with stageAt := some T }) c) T (.outStage n)

/-- COMP 0 to 1 at `T` (R501): what REF requires to fall falls at once, and what it requires to rise rises once the other
output has been 0 for the dead band. -/
def compOn (n : Fin 96) (T : Nat) (c : Chip) : Chip :=
  let d := drivers true c.pwms[n].levA c.pwms[n].levB
  let low := fun (outB d : Bool) (c : Chip) => if d then c else driveLow n outB T c
  let high := fun (outB d : Bool) (c : Chip) =>
    if !d then c
    else
      let c := updOut n outB (fun o => { o with drv := true }) c
      let other := getOut c n (!outB)
      let r := newRise 0 (max T (bandEnd other (deadBand c n outB)))
      if (getOut c n outB).lvl then c
      else if other.lvl then updOut n outB (fun o => { o with waiting := o.waiting ++ [r] }) c
      else if r.due = T then riseAt n outB r c else riseDue n outB r c
  high true d.2 (high false d.1 (low true d.2 (low false d.1 c)))

/-- COMP 1 to 0 at `T` (R501): each output takes its action table's level at once; no rise waits any longer. -/
def compOff (n : Fin 96) (T : Nat) (c : Chip) : Chip :=
  let one := fun (outB d : Bool) (c : Chip) =>
    let c := updOut n outB (fun o => { o with rises := [], waiting := [] }) c
    if !d then driveLow n outB T c
    else
      let c := updOut n outB (fun o => { o with drv := true }) c
      if (getOut c n outB).lvl then c else riseAt n outB (newRise T T) c
  one true c.pwms[n].levB (one false c.pwms[n].levA c)

/-- The output stage follows the levels of the action tables as they stand once every event of the instant has acted (R96,
R102, R103); a change of COMP is taken there, at the start of its cycle (R501). -/
def outStageAt (n : Fin 96) (phi : Nat) (c : Chip) : Chip :=
  let comp := pwmComp c n
  let d := drivers comp c.pwms[n].levA c.pwms[n].levB
  let turn := c.pwms[n].compDue
  let c := updPwm n (fun p => { p with stageAt := none, compDue := false }) c
  if !pwmRun c n then c
  else if turn then (if comp then compOn n (c.instant phi) c else compOff n (c.instant phi) c)
  else driveOuts n comp (c.instant phi) d.1 d.2 c

/-- The dead bands that became active at `A` govern the rises still due at or after it (05 R122). -/
def bandsAt (n : Fin 96) (A : Nat) (c : Chip) : Chip :=
  let one := fun (outB : Bool) (c : Chip) =>
    let o := getOut c n outB
    let db := deadBand c n outB
    let late := o.rises.filter (fun r => decide (A ≤ r.due))
    let c := updOut n outB (fun o => { o with rises := o.rises.filter (fun r => decide (r.due < A)) }) c
    late.foldl (fun c r => riseDue n outB { r with due := max A (max (r.ref + db) (bandEnd (getOut c n (!outB)) db)),
                                                   due0 := max A (r.ref + db) } c) c
  one true (one false c)

/-! ### Events of a channel -/

/-- An event output pulses once in a cycle, however many chosen events share it (R112). -/
def evOutputs (n : Fin 96) (ix : Nat) (c : Chip) : Chip :=
  let sel := (cfgNow c n).2.2.2.2
  let c := if sel.bit ix && c.pwms[n].ev0 != some c.now then
    evPulse (2 * n.val) (updPwm n (fun p => { p with ev0 := some c.now }) c) else c
  if sel.bit (16 + ix) && c.pwms[n].ev1 != some c.now then
    evPulse (2 * n.val + 1) (updPwm n (fun p => { p with ev1 := some c.now }) c) else c

/-- An interrupt occurrence through its prescaler: the flag is set at every Nth (R113). -/
def ipsStep (n : Fin 96) (k : Fin 6) (c : Chip) : Chip :=
  let limit := c.fld (pwmR n 0x38) (4 * k.val) 4
  let cnt := c.pwms[n].ips[k]
  if limit ≤ cnt then (updPwm n (fun p => { p with ips := p.ips.set k 0 }) c).setBits (pwmR n 0x3C) (2 ^ k.val)
  else updPwm n (fun p => { p with ips := p.ips.set k (cnt + 1) }) c

/-- The same, noted as an occurrence of the present cycle. -/
def ipsCount (n : Fin 96) (k : Fin 6) (c : Chip) : Chip :=
  ipsStep n k (updPwm n (fun p => { p with ipsNow := p.ipsNow.set k (p.ipsNow[k] + 1) }) c)

/-- A write of PWM_IPS restarts every prescaler count; the occurrences of its cycle count as the first under the new value
(R113). -/
def ipsWrite (n : Fin 96) (v : Word) (c : Chip) : Chip :=
  let c := updPwm n (fun p => { p with ips := Vector.replicate 6 0 }) (c.setReg (pwmR n 0x38) (v &&& 0xFFFFFF))
  (List.finRange 6).foldl (fun (c : Chip) (k : Fin 6) =>
    (List.range c.pwms[n].ipsNow[k]).foldl (fun c _ => ipsStep n k c) c) c

/-- The actions, event outputs and interrupt count of an event at instant `T` (R102, R112, R113). -/
def pwmEvent (n : Fin 96) (e : PwmEv) (T : Nat) (c : Chip) : Chip :=
  let (_, acta, actb, _, _) := cfgNow c n
  let c := levels n T (actOn acta e.ix c.pwms[n].levA) (actOn actb e.ix c.pwms[n].levB) c
  let c := evOutputs n e.ix c
  ipsCount n (match e with | .zro => 0 | .prd => 1 | .cmp x _ => Fin.ofNat 6 (2 + x.val)) c

/-- A forced edge: it drives the named output, or REF in complementary mode; 0 high, 1 low, 2 toggle (R103). -/
def forcedEdge (n : Fin 96) (outB : Bool) (act : Nat) (T : Nat) (c : Chip) : Chip :=
  if !pwmRun c n then c
  else
    let p := c.pwms[n]
    if pwmComp c n then
      let l := if act = 2 then !p.levA else (act = 0) != outB
      levels n T l p.levB c
    else if outB then levels n T p.levA (if act = 2 then !p.levB else act = 0) c
    else levels n T (if act = 2 then !p.levA else act = 0) p.levB c

end Sys2Proof.Machine
end

