-- ==== Sys2Proof/Machine/PwmCommit.lean ====
section
/-! DEFINITION. Commit of new values (05 R119 to R131): shadows, hold stage, commit points, set queue, lane writes, and
values that become active within a period. -/

namespace Sys2Proof.Machine

/-- PWM_CMTCFG as it governs the present cycle: a write takes effect at the end of its cycle (R125). -/
def cmtPoint (c : Chip) (n : Nat) : Nat := c.fld0 (pwmR n 0x80) 0 3
def cmtCoh (c : Chip) (n : Nat) : Bool := c.bit0 (pwmR n 0x80) 3
def cmtCloser (c : Chip) (n : Nat) : Nat := c.fld0 (pwmR n 0x80) 4 4
def cmtSqen (c : Chip) (n : Nat) : Bool := c.bit0 (pwmR n 0x80) 8

/-- Whether a write of configuration reaches the registers of slice `s`: before SEAL, or by the MGE in the slice's own
live reconfiguration (01 R13; 05 R142). -/
def cfgOpen (c : Chip) (ini : Initiator) (s : Nat) : Bool := !c.sealed || (decide (ini = .mge) && liveOn c s)

/-- A commit-set value as stored: dead bands and the minimum pulse have 17 bits, and a minimum pulse above 500 cycles is
stored as 500 cycles (04 R105, R117). -/
def cmtVal (k : Fin 8) (v : Word) : Word :=
  if k.val < 5 then v
  else
    let x := v &&& 0x1FFFF
    if k.val = 7 ∧ 16000 < x.toNat then 16000 else x

def updSet (n : Fin 96) (f : PwmSet → PwmSet) (c : Chip) : Chip := updPwm n (fun p => { p with cur := f p.cur }) c

/-- A write into the commit stages waits for the end of its cycle (R121). -/
def putSet (n : Fin 96) (w : SetWrite) (c : Chip) : Chip := updPwm n (fun p => { p with writes := p.writes ++ [w] }) c

/-! ### Values that become active -/

/-- An active register of the commit set, k = 0 to 7 (R119). -/
def activeR (n : Nat) (k : Fin 8) : Nat := pwmR n (0x4 + 4 * k.val)

/-- LATE_EDGE with its count (R130). -/
def lateEdge (n : Fin 96) (c : Chip) : Chip := (c.satInc (pwmR n 0x90) 0 16).setBits (pwmR n 0x88) (2 ^ 12)

/-- A compare that became active at instant `A` within a segment, its value reached or passed there: its event takes place at A,
and LATE_EDGE counts a value that the counter, at `pos`, has passed (R130). -/
def lateCompare (n : Fin 96) (A pos : Nat) (x : Fin 4) (c : Chip) : Chip :=
  let c := if pos = pwmCmp c n x.val * 2 ^ 11 then c else lateEdge n c
  dueAt (updPwm n (fun p => { p with occ := p.occ ++ [x.val] }) c) A (.compareEvent n x c.pwms[n].down)

/-- The compares among `xs` whose values the counter at `pos` has reached in its direction, in the order in which it met them
(R96, R130). -/
def reached (c : Chip) (n : Fin 96) (pos : Nat) (xs : List (Fin 4)) : List (Fin 4) :=
  let down := c.pwms[n].down
  let es := (xs.filter (fun x => !c.pwms[n].occ.contains x.val)).foldl (fun l x =>
    let v := pwmCmp c n x.val * 2 ^ 11
    if down then (if pos ≤ v then insDist (2 ^ 64 - v, .cmp x true) l else l)
    else (if v ≤ pos then insDist (v, .cmp x false) l else l)) ([] : List (Nat × PwmEv))
  es.filterMap (fun e => match e.2 with
    | .cmp x _ => some x
    | _ => none)

/-- Whether the counter stands on the boundary of its segment at the start of the present cycle. -/
def onBoundary (c : Chip) (n : Fin 96) (pos : Nat) : Bool :=
  if c.pwms[n].down then pos == 0 else decide (pwmPer c n * 2 ^ 11 ≤ pos)

/-- Active registers take values, with the dead bands' effect on the rises still due (R119, R122). -/
def takeVals (n : Fin 96) (A : Nat) (vals : List (Fin 8 × Word)) (c : Chip) : Chip :=
  let c := vals.foldl (fun c e => c.setReg (activeR n e.1) e.2) c
  if vals.any (fun e => e.1.val == 5 || e.1.val == 6) then bandsAt n A c else c

/-- Values become active at the start `A` of the present cycle (R130). Where a running counter stands on a boundary there, they
wait for its events, from which they govern. Otherwise a compare or a PER that it has reached takes place at `A`; the events of
the cycle then begin with the boundary so placed. A PER that the counter has passed counts once in LATE_EDGE, also in UP, where PRD
and ZRO both fall at A (DESIGN CHOICE, log 126: R130 does not say). -/
def activate (n : Fin 96) (A : Nat) (vals : List (Fin 8 × Word)) (c : Chip) : Chip :=
  let pos := pwmPos c n
  if !c.pwms[n].ran then takeVals n A vals c
  else if onBoundary c n pos then updPwm n (fun p => { p with edgeActs := p.edgeActs ++ vals }) c
  else
    let c := takeVals n A vals c
    let per := vals.any (fun e => e.1 == 0)
    let xs := (List.finRange 4).filter (fun x => per || vals.any (fun e => e.1.val == x.val + 1))
    let c := (reached c n pos xs).foldl (fun (c : Chip) (x : Fin 4) => lateCompare n A pos x c) c
    if per && !c.pwms[n].down && decide (pwmPer c n * 2 ^ 11 < pos) then lateEdge n c else c

/-- The values of a whole set. -/
def setVals (v : Vector Word 8) : List (Fin 8 × Word) := (List.finRange 8).map (fun k => (k, v[k]))

/-- The values that commit at ZRO under POINT = 5: PER, DBR, DBF, MINP (R131). -/
def zroOnly (vals : List (Fin 8 × Word)) : List (Fin 8 × Word) := vals.filter (fun e => e.1 == 0 || 5 ≤ e.1.val)

/-! ### Commit points -/

/-- The decision at a commit point (R123, R124, R126, R128): the values that become active. Writes of its own cycle are not in
the stages yet (R121). -/
def commitVals (c : Chip) (n : Fin 96) : List (Fin 8 × Word) :=
  let o := c.pwms[n].cur
  if cmtSqen c n then
    match o.setq with
    | x :: _ => setVals x
    | [] => []
  else
    let held := if o.held then setVals o.hold else []
    if cmtCoh c n then held
    else held ++ (setVals o.shadow).filter (fun e => o.written.getLsbD e.1.val)

/-- The flags of a commit point: UNDERRUN with its count, INCOMPLETE (R123, R128). -/
def commitFlags (n : Fin 96) (c : Chip) : Chip :=
  let o := c.pwms[n].cur
  if cmtSqen c n then
    if o.setq.isEmpty then (c.satInc (pwmR n 0x90) 16 16).setBits (pwmR n 0x88) (2 ^ 10) else c
  else if cmtCoh c n && !o.held && o.isOpen then c.setBits (pwmR n 0x88) (2 ^ 8)
  else c

/-- The stages after a commit point: the set taken leaves its stage, and in free mode no shadow counts as written. OPEN set before
COH went to 0 stays 1 through free commits (DESIGN CHOICE, log 124: R125 does not say). -/
def commitStages (n : Fin 96) (c : Chip) : Chip :=
  let coh := cmtCoh c n
  let wr := fun o : PwmSet => if coh then o.written else 0
  if cmtSqen c n then updSet n (fun o => { o with setq := o.setq.drop 1, written := wr o }) c
  else updSet n (fun o => { o with held := false, written := wr o }) c

/-- A commit point of channel `n` at instant `T` (R120): its values become active at once where the instant is a boundary, else
from the next cycle; the domains bound to the channel commit with it (09 R223). `only` restricts the values. Two boundary
events of one instant make one commit. -/
def commitPoint (n : Fin 96) (T : Nat) (boundary : Bool) (only : List (Fin 8 × Word) → List (Fin 8 × Word))
    (c : Chip) : Chip :=
  if c.pwms[n].commitAt = some T then c
  else
    let vals := only (commitVals c n)
    let c := commitStages n (commitFlags n c)
    let c := peaPwmCommit n (updPwm n (fun p => { p with commitAt := some T }) c)
    if boundary then takeVals n T vals c
    else updPwm n (fun p => { p with acts := p.acts ++ vals }) c

/-- The commit point that a boundary event brings, by PWM_CMTCFG.POINT (R120). -/
def boundaryCommit (n : Fin 96) (zro : Bool) (T : Nat) (c : Chip) : Chip :=
  match cmtPoint c n with
  | 0 => if zro then commitPoint n T true id c else c
  | 1 => if zro then c else commitPoint n T true id c
  | 2 => commitPoint n T true id c
  | 5 => if zro then commitPoint n T true zroOnly c else c
  | _ => c

/-- A pulse on the commit input, or a PWM_COMMIT action (R120 EVENT): active from the next cycle. -/
def eventCommit (n : Fin 96) (c : Chip) : Chip :=
  if pwmRun c n && cmtPoint c n == 4 then commitPoint n (32 * c.now) false id c else c

/-! ### Shadows, CLOSE, set queue -/

/-- A CLOSE (R123): in coherent mode without the set queue. -/
def closeSet (n : Fin 96) (c : Chip) : Chip := if cmtCoh c n && !cmtSqen c n then putSet n .close c else c

/-- A write in the shadow view (R100, R119, R123, R124, R126); the closer closes the set. -/
def shadowWr (n : Fin 96) (k : Fin 8) (v : Word) (c : Chip) : Chip :=
  let x := cmtVal k v
  let c := putSet n (.shadow k x) c
  if !pwmRun c n then c.setReg (activeR n k) x
  else if cmtCloser c n = k.val + 1 then closeSet n c else c

/-- A shadow as read: the value last written. -/
def shadowNow (c : Chip) (n : Fin 96) (k : Fin 8) : Word :=
  c.pwms[n].writes.foldl (fun v w => match w with
    | .shadow j x => if j = k then x else v
    | _ => v) c.pwms[n].cur.shadow[k]

/-- A write of the express lane: active from the next cycle while POINT = 5, ignored otherwise (R131). -/
def laneCompare (n : Fin 96) (x : Fin 4) (v : Word) (c : Chip) : Chip :=
  if cmtPoint c n = 5 ∧ pwmRun c n then
    updPwm n (fun p => { p with acts := p.acts ++ [(Fin.ofNat 8 (x.val + 1), v)] }) c
  else c

/-- The staging words of an initiator (R127). -/
def stagingOf (c : Chip) (n : Fin 96) (ix : Nat) : Vector Word 8 := aread (Vector.replicate 8 0) c.pwms[n].staging ix

def sqdWrite (n : Fin 96) (ix : Nat) (k : Fin 8) (v : Word) (c : Chip) : Chip :=
  updPwm n (fun p => { p with staging := aset (Vector.replicate 8 0) p.staging ix ((stagingOf c n ix).set k v) }) c

/-- A push of the writer's staging words as one set (R127). -/
def sqPush (n : Fin 96) (ix : Nat) (v : Word) (c : Chip) : Chip :=
  if v.bit 0 then
    putSet n (.push ix ((List.finRange 8).foldl (fun (s : Vector Word 8) (k : Fin 8) => s.set k (cmtVal k s[k]))
      (stagingOf c n ix))) c
  else c

/-- Whether a read of PWM_SQRES at an address waits for the reader's own push of the present cycle (R127). -/
def sqWaits (c : Chip) (ix a : Nat) : Bool :=
  let o := a % 0x10000
  if 0x40000000 ≤ a ∧ a < 0x400C0000 ∧ 0x1000 ≤ o ∧ o < 0x2000 ∧ o % 0x200 = 0xC4 then
    c.pwms[Fin.ofNat 96 (8 * (a % 0x100000 / 0x10000) + (o - 0x1000) / 0x200)].writes.any (fun w => match w with
      | .push i _ => i == ix
      | _ => false)
  else false

/-- A FLUSH empties the queue at the end of its cycle (R128). -/
def sqFlush (n : Fin 96) (c : Chip) : Chip := putSet n .flush c

/-- A write of PWM_CMT (R123, R128). -/
def cmtWrite (n : Fin 96) (v : Word) (c : Chip) : Chip :=
  let c := if v.bit 0 then closeSet n c else c
  if v.bit 1 then sqFlush n c else c

/-- A write of PWM_CMTCFG (R120, R126). One that changes SQEN and POINT together is judged by the pair that results (DESIGN CHOICE,
log 125: R126 does not say). -/
def cmtcfgWrite (ini : Initiator) (n : Fin 96) (v : Word) (c : Chip) : Chip :=
  let point := v.fld 0 3
  if !cfgOpen c ini (n.val / 8) || decide (6 ≤ point) || (v.bit 8 && (point == 3 || point == 5)) then c
  else c.setReg (pwmR n 0x80) (v &&& 0x1FF)

/-- OPEN, HELD, SQLVL and SAFE of the present stages, in their places in PWM_CMTSTAT (R143). -/
def stageBits (p : Pwm) : Word :=
  ((((0 : Word).withBit 0 p.cur.isOpen).withBit 1 p.cur.held).withFld 2 4 (min p.cur.setq.length 8)).withBit 15 p.safe

/-- PWM_CMTSTAT as read: its value at the start of the cycle (R127, R143). -/
def cmtstat (c : Chip) (n : Fin 96) : Word := (c.reg0 (pwmR n 0x88) &&& 0xFFFF7FC0) ||| c.pwms[n].stat0

/-! ### The end of a cycle -/

/-- A shadow or a CLOSE of the cycle enters the stages. While the channel runs a shadow counts as written and opens a set
(R100, R123, R124). -/
def setTake (run opens : Bool) (s : PwmSet) (w : SetWrite) : PwmSet :=
  match w with
  | .shadow k v =>
    let s := { s with shadow := s.shadow.set k v }
    if run then { s with written := s.written ||| BitVec.ofNat 8 (2 ^ k.val), isOpen := s.isOpen || opens } else s
  | _ => s

/-- A push enters the queue, which discards it when full; SQRES records the outcome (R127, R128). -/
def pushTake (n : Fin 96) (w : SetWrite) (c : Chip) : Chip :=
  match w with
  | .push ix x =>
    let q := c.pwms[n].cur.setq
    if q.length < 8 then
      updPwm n (fun p => { p with cur := { p.cur with setq := q ++ [x] },
                                  sqres := aset 0 p.sqres ix (BitVec.ofNat 32 (4 + 16 * (q.length + 1))) }) c
    else
      (updPwm n (fun p => { p with sqres := aset 0 p.sqres ix (BitVec.ofNat 32 (5 + 16 * q.length)) }) c).setBits
        (pwmR n 0x88) (2 ^ 11)
  | _ => c

/-- Whether the cycle had a commit point of POINT 0, 1, 2 or 4 (R121). -/
def committedNow (c : Chip) (n : Fin 96) : Bool :=
  (cmtPoint c n ≤ 2 || cmtPoint c n == 4) && (match c.pwms[n].commitAt with | some T => T / 32 == c.now | none => false)

/-- The writes of the cycle enter the shadows, and a CLOSE takes all eight of them to the hold stage (R121, R123). -/
def shadowEnd (n : Fin 96) (c : Chip) : Chip :=
  let ws := c.pwms[n].writes
  let run := pwmRun c n
  let c := updSet n (fun s => ws.foldl (setTake run (cmtCoh c n && !cmtSqen c n)) s) c
  let c := if ws.contains .close then
      updSet n (fun s => { s with hold := s.shadow, held := true, isOpen := false, written := 0 }) c
    else c
  if run && committedNow c n && ws.any (fun w => match w with | .shadow _ _ => true | .close => true | _ => false) then
    c.setBits (pwmR n 0x88) (2 ^ 9)
  else c

/-- IMMEDIATE: every cycle of a running channel is a commit point, which takes the writes of the cycle too (R120, R123, R124). -/
def immediateEnd (n : Fin 96) (c : Chip) : Chip :=
  if pwmRun c n && cmtPoint c n == 3 then
    let vals := commitVals c n
    let c := updSet n (fun s => { s with held := false, written := if cmtCoh c n then s.written else 0 }) c
    peaPwmCommit n (updPwm n (fun p => { p with acts := p.acts ++ vals }) c)
  else c

/-- A change of COH takes effect at the end of its cycle (R125). -/
def cohEnd (n : Fin 96) (c : Chip) : Chip :=
  if !cmtCoh c n && c.bit (pwmR n 0x80) 3 then updSet n (fun s => { s with isOpen := s.isOpen || s.written != 0 }) c else c

/-- The commit stages at the end of a cycle: its writes, an IMMEDIATE commit, a change of COH, a FLUSH before the pushes. -/
def setEnd (n : Fin 96) (c : Chip) : Chip :=
  let ws := c.pwms[n].writes
  let c := cohEnd n (immediateEnd n (if ws.isEmpty then c else shadowEnd n c))
  if ws.isEmpty then c
  else
    let c := if ws.contains .flush then updSet n (fun s => { s with setq := [] }) c else c
    updPwm n (fun p => { p with writes := [] }) (ws.foldl (fun c w => pushTake n w c) c)

end Sys2Proof.Machine
end

