-- ==== Sys2Proof/Machine/PinCore.lean ====
section
/-! DEFINITION. Pins: their functions, the input signals they carry and what a pad shows (19 R438 to R446, R449). -/

namespace Sys2Proof.Machine

def fselOf (c : Chip) (n : Nat) : Nat := c.fld (gpioPinR n) 0 4

def pinGet (c : Chip) (n : Nat) : PinS := aread PinS.reset c.pins.pin n
def pinPut (n : Nat) (x : PinS) (c : Chip) : Chip :=
  { c with pins := { c.pins with pin := aset PinS.reset c.pins.pin n x } }

/-- Whether a function code names a signal at pin `n` (R439). -/
def fselLegal (f n : Nat) : Bool :=
  let pp := n % 64
  match f with
  | 5 => decide (pp < 10)
  | 6 => decide (pp < 16)
  | 7 => decide (pp < 12)
  | 8 => decide (pp < 36)
  | 9 => decide (pp < 8)
  | 11 => decide (pp < 12)
  | 12 => decide (pp < 6)
  | 14 => false
  | 15 => false
  | _ => true

/-- The index of the input signal that function `f` takes at pin `n`, none for an output (R439). -/
def inSig (f n : Nat) : Option Nat :=
  let pp := n % 64
  match f with
  | 2 => some (8 * (n % 192 / 16) + n % 8)
  | 3 => some pp
  | 4 => some pp
  | 5 => if pp = 8 then some pp else none
  | 6 => if pp % 2 = 1 then some (pp / 2) else none
  | 7 => if pp % 2 = 1 then some (pp / 2) else none
  | 8 => if pp % 6 = 2 then some (pp / 6) else none
  | 9 => some pp
  | 10 => some (pp % 16)
  | 11 => if pp % 3 = 0 then none else some pp
  | 12 => if pp = 1 ∨ pp = 3 then some pp else none
  | _ => none

/-- Pins whose function is not GPIO, by the register file. -/
def fnPins (c : Chip) : List Nat :=
  (c.regs.filter (fun e => decide (0x42000000 ≤ e.1) && decide (e.1 < 0x42001000) && e.2.fld 0 4 != 0)).map
    (fun e => (e.1 - 0x42000000) / 4)

/-- The pins that select input signal `k` of function `f`. -/
def claimers (c : Chip) (f k : Nat) : List Nat := (fnPins c).filter (fun n => fselOf c n == f && inSig f n == some k)

/-- The supply of a bank is good (R438). -/
def bankPg (c : Chip) (b : Nat) : Bool := c.bit (gpioBank b 0x28) 0

/-- STANDBY-R or STANDBY-O (21 R467). -/
def inStandby (c : Chip) : Bool := c.power.mode != .run

/-- An input signal as its function receives it: the filtered level of the one pin that claims it, else its default
(R441, R443, R446, R449). -/
def fnIn (c : Chip) (f k : Nat) (dflt : Bool) : Bool :=
  match claimers c f k with
  | [n] =>
    let x := pinGet c n
    if bankPg c (n / 64) && decide (x.inFrom ≤ c.now) && !inStandby c then x.level else dflt
  | _ => dflt

/-- TRIPIN[k] with its default by COND (R441). -/
def tripin (c : Chip) (k : Nat) : Bool := fnIn c 2 k (c.bit (slR (k / 8) (0x8000 + 4 * (k % 8))) 8)

/-- CAPIN[k]. -/
def capin (c : Chip) (k : Nat) : Bool := fnIn c 3 k false

/-- GPIO_OUT and GPIO_OE bits of a pin (R440). -/
def gpioWord (off n : Nat) : Nat := gpioBank (n / 64) (off + 4 * (n % 64 / 32))
def gpioOutBit (c : Chip) (n : Nat) : Bool := c.bit (gpioWord 0 n) (n % 32)
def gpioOeBit (c : Chip) (n : Nat) : Bool := c.bit (gpioWord 8 n) (n % 32)

/-- A driven level under GPIO_PIN.OD (R440). -/
def odLvl (od : Bool) : PadLvl → PadLvl
  | .hi => if od then .z else .hi
  | l => l

def sdmClkdivR (g : Nat) : Nat := 0x400F9000 + 4 * g

/-- DIV of a group clock and its level in the present cycle: high for ⌈DIV / 2⌉ cycles (06 R161), counted from CAP_TIME 0
(log 33). -/
def sdmDiv (c : Chip) (g : Nat) : Nat := c.fld (sdmClkdivR g) 0 7
def sdmClko (c : Chip) (g : Nat) : Bool :=
  let d := max (sdmDiv c g) 1
  c.bit (sdmClkdivR g) 8 && decide (c.now % d < (d + 1) / 2)

/-- The pull of a pad: 0 none, 1 down, 2 up; disabled while the bank has no supply (R438, R442, R451). -/
def padPull (c : Chip) (n : Nat) : Nat := let p := c.fld0 (gpioPinR n) 9 2; if !bankPg c (n / 64) || p == 3 then 0 else p

/-- What the pin's function drives, its pad fields being those of the cycle's start (R439, R440, R442). Outputs of controllers and clocks are Config.padFn (log 29). -/
def fnDrive (c : Chip) (n : Nat) : PadLvl :=
  let od := c.bit0 (gpioPinR n) 11
  let pp := n % 64
  let f := fselOf c n
  if f = 0 then (if gpioOeBit c n then odLvl od (lvlOf (gpioOutBit c n)) else .z)
  else if f = 1 then odLvl od (posLevel c (n % 192))
  else if f = 13 then odLvl od (lvlOf (decide ((c.pins.evout[pp % 8]).1 ≤ c.now) && decide (c.now < (c.pins.evout[pp % 8]).2)))
  else if f = 5 ∧ pp < 8 then odLvl od (lvlOf (sdmClko c pp))
  else if f = 5 ∧ pp = 9 then odLvl od (lvlOf (c.pins.syncOut.contains c.now))
  else if f = 12 ∧ pp = 4 then odLvl od (lvlOf (decide (c.now < c.net.pps[0])))
  else if f = 12 ∧ pp = 5 then odLvl od (lvlOf (decide (c.now < c.net.pps[1])))
  else if f = 9 ∧ c.net.stuck.getLsbD (pp / 2) then .z
  else if f = 9 ∨ (f = 12 ∧ (pp = 1 ∨ pp = 3)) then odLvl true (lvlOf (Config.padFn c.now n))
  else if (inSig f n).isSome then .z
  else odLvl od (lvlOf (Config.padFn c.now n))

/-- A PARK or STBY code: 0 hold, 1 low, 2 high, 3 Hi-Z (R451). -/
def parkLvl (code : Nat) (held : PadLvl) : PadLvl :=
  match code with
  | 0 => held
  | 1 => .lo
  | 2 => .hi
  | _ => .z

/-- What the block drives on pin `n` (R446, R449). -/
def padDrive (c : Chip) (n : Nat) : PadLvl :=
  let x := pinGet c n
  match x.stby with
  | some l => if n % 64 < 4 ∧ inStandby c then .z else l
  | none => if c.now < x.parkTo then x.park else fnDrive c n

/-- What the pad of pin `n` shows; after a return of its supply from the next cycle (R438). Under EXTEST and CLAMP the boundary register, whose bit `n` is that of pin `n`
(18 R432; PRESUMED, log 46), under HIGHZ nothing. -/
def padLevel (c : Chip) (n : Nat) : PadLvl :=
  if !bankPg c (n / 64) || !c.bit0 (gpioBank (n / 64) 0x28) 0 then .z
  else match c.sec.tap with
    | .extest => lvlOf (c.sec.boundary[n]?.getD false)
    | .clamp => lvlOf (c.sec.boundary[n]?.getD false)
    | .highz => .z
    | _ => padDrive c n

/-- What the pad of pin `n` showed at the end of the cycle before: by the registers and the edges of that cycle (R446). -/
def padBefore (c : Chip) (n : Nat) : PadLvl :=
  padLevel { c with now := c.now - 1, regs := c.regs0, regs0 := c.regs1, outs := c.outs.map (fun o => { o with lvl := o.was }) } n

/-- The input signals that two or more pins claim, by function and index (R441). -/
def conflictSigs (c : Chip) : List (Nat × Nat) :=
  ((fnPins c).filterMap (fun n => (inSig (fselOf c n) n).map (fun k => (fselOf c n, k)))).dedup.filter
    (fun s => decide (2 ≤ (claimers c s.1 s.2).length))

/-- The level of a pad in standby (R448): as it changed there, else as it was. -/
def padNow (c : Chip) (n : Nat) : Bool := (aget c.pins.pads n).getD (pinGet c n).level

end Sys2Proof.Machine
end

