-- ==== Sys2Proof/Machine/Trip.lean ====
section
/-! DEFINITION. Trip inputs, overrides and their release (05 R132 to R135). -/

namespace Sys2Proof.Machine

def tripselR (s i : Nat) : Nat := slR s (0x8000 + 4 * i)
def tripstatR (s : Nat) : Nat := slR s 0x8020

/-- WIN[w]: settled, and its state code (07 R175, R181). -/
def winSettledB (c : Chip) (w : Nat) : Bool := c.bit (winR w 0x10) 2
def winState (c : Chip) (w : Nat) : Nat := c.fld (winR w 0x10) 0 2

/-- Whether the level source of TRIP[i] of slice `s` makes it active (R132). -/
def tripCond (c : Chip) (s i : Nat) : Bool :=
  let v := c.reg (tripselR s i)
  let sel := v.fld 3 5
  let cond := v.fld 8 2
  match v.fld 0 3 with
  | 1 =>
    if sel < 8 ∧ winSettledB c (8 * s + sel) then
      let st := winState c (8 * s + sel)
      match cond with
      | 0 => st == 2
      | 1 => st == 0
      | 2 => st != 1
      | _ => st == 1
    else false
  | 2 =>
    let d := c.sdms[Fin.ofNat 32 sel]
    match cond with
    | 0 => d.th1
    | 1 => d.th2
    | _ => d.th1 || d.th2
  | 3 => tripin c (8 * s + i) != (cond % 2 == 1)
  | _ => false

/-- The active inputs of a slice in the present cycle (R132 to R135). -/
def tripActive (c : Chip) (s : Nat) : BitVec 8 :=
  if h : s < 12 then c.slices[s].tripLive ||| c.slices[s].tripPulse else 0

/-- The active inputs that act on channel `n` (R133). -/
def tripHits (c : Chip) (n : Nat) : Bool := (tripActive c (n / 8)).toNat &&& c.fld (pwmR n 0x94) 0 8 != 0

/-- Levels of the inputs taken anew; an input that becomes active does so in the present cycle. -/
def tripRefresh (s : Fin 12) (c : Chip) : Chip :=
  let now := (List.finRange 8).foldl (fun (b : BitVec 8) i => if tripCond c s.val i.val then b ||| BitVec.ofNat 8 (2 ^ i.val) else b) 0
  let old := c.slices[s].tripLive
  let c := { c with slices := vmod c.slices s (fun x => { x with tripLive := now }) }
  (List.finRange 8).foldl (fun (c : Chip) (i : Fin 8) =>
    if now.getLsbD i.val && !old.getLsbD i.val then c.schedule 0 (.tripInputActive s i) else c) c

def tripRefreshAll (c : Chip) : Chip := (List.finRange 12).foldl (fun (c : Chip) (s : Fin 12) => tripRefresh s c) c

/-- PWM_TRIPSTAT as read: LIVE from the inputs (R144). -/
def tripstat (c : Chip) (s : Nat) : Word := (c.reg (tripstatR s)).withFld 0 8 (tripActive c s).toNat

/-- The channels of slice `s`, as channel numbers. -/
def chansFin (s : Fin 12) : List (Fin 96) := (List.finRange 8).map (fun i => Fin.ofNat 96 (8 * s.val + i.val))

/-- Trip input `i` of slice `s` is active in the present cycle (R132, R144 SEEN); it overrides from the next (R134). -/
def tripInput (s : Fin 12) (i : Fin 8) (c : Chip) : Chip :=
  { c with slices := vmod c.slices s (fun x => { x with tripPulse := x.tripPulse ||| BitVec.ofNat 8 (2 ^ i.val) }) }.setBits
    (tripstatR s) (2 ^ (8 + i.val))

/-- The override that an input active in the cycle before brings (R134, R135): its first cycle sets TRIPF, a latched one TRIPLAT
with the slice's trip fault. -/
def tripStart (n : Fin 96) (c : Chip) : Chip :=
  if !c.pwms[n].tripDue then c
  else
    let c := if c.pwms[n].tripOver then c else c.setBits (pwmR n 0x88) (2 ^ 13)
    let c := updPwm n (fun p => { p with tripDue := false, tripOver := true }) c
    if c.bit (pwmR n 0x94) 12 || c.bit (pwmR n 0x88) 14 then c
    else raiseFault (n.val / 8) (tripstat c (n.val / 8)) (c.setBits (pwmR n 0x88) (2 ^ 14))

/-- The override of a channel ends where no selected input is active and no latch holds (R135). -/
def tripFree (n : Fin 96) (c : Chip) : Chip :=
  if c.pwms[n].tripOver && !tripHits c n && !c.bit (pwmR n 0x88) 14 then
    updPwm n (fun p => { p with tripOver := false }) c
  else c

/-- A boundary of channel `n` releases by PWM_TRIPCFG.REL (R133, R135). -/
def tripRelease (n : Fin 96) (zro : Bool) (c : Chip) : Chip :=
  let rel := c.fld (pwmR n 0x94) 13 2
  if (rel = 0 ∧ !zro) ∨ (rel = 1 ∧ zro) then c else tripFree n c

/-- A write of PWM_TRIPCLR (R135): the inputs of its whole cycle decide. -/
def tripClear (n : Fin 96) (v : Word) (c : Chip) : Chip :=
  if v.bit 0 then updPwm n (fun p => { p with clrDue := true }) c else c

/-- A channel's trip at the end of a cycle: what its active inputs will bring, a TRIPCLR of the cycle, and the release of a
stopped channel (R133 to R135). -/
def tripEnd (n : Fin 96) (c : Chip) : Chip :=
  let hit := tripHits c n
  let c := if c.pwms[n].clrDue && !hit then c.clrBits (pwmR n 0x88) (2 ^ 14) else c
  let c := if hit || c.pwms[n].clrDue then updPwm n (fun p => { p with tripDue := hit, clrDue := false }) c else c
  if pwmRun c n then c else tripFree n c

/-- What the inputs active in the cycle bring (R133, R135). -/
def tripCycle (c : Chip) : Chip :=
  let c := (List.finRange 12).foldl (fun (c : Chip) (s : Fin 12) =>
    if tripActive c s.val = 0 then c
    else c.setBits (tripstatR s) (2 ^ 8 * (tripActive c s.val).toNat)) c
  let c := (List.finRange 96).foldl (fun (c : Chip) (n : Fin 96) => tripEnd n c) c
  { c with slices := c.slices.map (fun x => { x with tripPulse := 0 }) }

end Sys2Proof.Machine
end

