-- ==== Sys2Proof/Machine/WindowCore.lean ====
section
/-! DEFINITION. Window comparators (07): thresholds and ramps, comparison, majority filter, settling and outputs. -/

namespace Sys2Proof.Machine

def updWin (w : Fin 96) (f : Win → Win) (c : Chip) : Chip := { c with wins := vmod c.wins w f }

/-- A window runs while EN = 1 and its analogue domain is powered (R182). -/
def winEn (c : Chip) (w : Nat) : Bool := c.bit (winR w 0) 0 && pdOn c (32 + w / 8)

/-- M of the majority filter by its code (R177). -/
def filtM : Nat → Nat
  | 0 => 1
  | 1 => 3
  | 2 => 5
  | 3 => 7
  | 4 => 9
  | 5 => 15
  | _ => 31

/-- The hysteresis of a HYST code in microvolts (R176). -/
def hystUv : Nat → Int
  | 0 => 0
  | 1 => 8000
  | 2 => 16000
  | _ => 32000

/-- The code that the DAC of a threshold applies (R179); a write of WIN_THR governs from the next cycle (R180). -/
def dacCode (c : Chip) (w : Fin 96) (hi : Bool) : Nat :=
  match (if hi then c.wins[w].rampH else c.wins[w].rampL) with
  | some (acc, _) => (acc / 256).toNat
  | none => c.fld0 (winR w 4) (if hi then 16 else 0) 12

/-- WIN_DAC (R188). -/
def winDac (c : Chip) (w : Fin 96) : Word := BitVec.ofNat 32 (dacCode c w false + 2 ^ 16 * dacCode c w true)

/-- Whether a ZRO or PRD of channel `ch` of the slice restarts the ramp of a register (R179). -/
def rampHit (rmp : Word) (ch : Nat) (zro : Bool) : Bool :=
  let rst := rmp.fld 19 2
  rmp.fld 16 3 == ch && (rst == 3 || (rst == 1 && zro) || (rst == 2 && !zro))

/-- A ramp at its restart: code and slope as of the start of the cycle (R179, R180). -/
def rampNew (rmp thr : Word) (hi : Bool) : Option (Int × Int) :=
  some (256 * (thr.fld (if hi then 16 else 0) 12 : Int), signed 16 (rmp.fld 0 16))

/-- ZRO or PRD of channel `n` restarts the ramps of its slice's windows; no step falls in a restart's cycle (R179). -/
def rampRestart (n : Fin 96) (zro : Bool) (c : Chip) : Chip :=
  (List.range 8).foldl (fun c k =>
    let w : Fin 96 := Fin.ofNat 96 (8 * (n.val / 8) + k)
    let thr := c.reg0 (winR w 4)
    let rl := c.reg0 (winR w 8)
    let rh := c.reg0 (winR w 0xC)
    let c := if rampHit rl (n.val % 8) zro then updWin w (fun x => { x with rampL := rampNew rl thr false, clampL := false }) c else c
    if rampHit rh (n.val % 8) zro then updWin w (fun x => { x with rampH := rampNew rh thr true, clampH := false }) c else c) c

/-- A ramp's step in a cycle after its restart, and whether it was clamped (R179). -/
def rampStep (r : Option (Int × Int)) : Option (Int × Int) × Bool :=
  match r with
  | some (acc, sl) => (some (clampI 0 (4095 * 256) (acc - sl), sl), clampI 0 (4095 * 256) (acc - sl) != acc - sl)
  | none => (none, false)

/-- A write of WIN_THR, WIN_RAMPL or WIN_RAMPH; it governs from the next cycle (R180). -/
def thrWrite (w : Fin 96) (thr rl rh : Word) (c : Chip) : Chip :=
  ((c.setReg (winR w 4) thr).setReg (winR w 8) rl).setReg (winR w 0xC) rh

/-- Whether an express lane in PEAK2 owns the upper code and slope of the window (R180, 08 R204). -/
def peakBound (c : Chip) (w : Nat) : Bool :=
  let s := w / 8
  c.bit0 (xlR s 0) 0 && c.fld (xlR s 4) 1 2 == 3 &&
  (List.range 2).any (fun l => c.bit (xlR s (0x40 + 4 * l)) 19 && c.bit (xlR s (0x40 + 4 * l)) (24 + w % 8))

/-! ### State -/

/-- The state of filtered outputs L and U (R175). -/
def stateOf (l u : Bool) : Nat := if u then 2 else if l then 1 else 0

/-- Capture channels with source 2 on window `w` take a change of its state (R183, 02 R57). -/
def capWindow (w : Nat) (rise : Bool) (c : Chip) : Chip :=
  (List.finRange 64).foldl (fun (c : Chip) (k : Fin 64) =>
    let v := c.reg (capR k.val 0)
    if v.bit 0 && v.fld 1 2 == 2 && v.fld 3 7 == w then c.schedule 0 (.captureEdge k rise) else c) c


def winTrips (w : Fin 96) (c : Chip) : Chip := tripRefresh (Fin.ofNat 12 (w.val / 8)) c

/-- Whether configuration writes reach the window (R187). -/
def cfgOpenW (c : Chip) (ini : Initiator) (w : Fin 96) : Bool := !c.sealed || (decide (ini = .mge) && liveOn c (w.val / 8))

/-- Entry of a settled window into the state of `l` and `u`: code, flag, event, capture edge, trip inputs (R183). -/
def winEnter (w : Fin 96) (l u : Bool) (c : Chip) : Chip :=
  let old := winState c w
  let st := stateOf l u
  let c := updWin w (fun x => { x with filtL := l, filtU := u }) c
  let c := if u && !l then c.setBits (winR w 0x10) (2 ^ 12) else c
  if st = old then c
  else
    let c := (c.setFld (winR w 0x10) 0 2 st).setBits (winR w 0x10) (2 ^ (8 + st))
    let c := if c.bit (winR w 0) (9 + st) then evPulse (192 + w.val) c else c
    winTrips w (capWindow w.val (decide (old < st)) c)

/-- The settled state appears (R181): SETF, no entry, trip conditions follow as levels. -/
def winSettle (w : Fin 96) (l u : Bool) (c : Chip) : Chip :=
  let c := updWin w (fun x => { x with filtL := l, filtU := u, settleFrom := none }) c
  let c := ((c.setFld (winR w 0x10) 0 2 (stateOf l u)).setBits (winR w 0x10) (2 ^ 2 + 2 ^ 11))
  let c := if u && !l then c.setBits (winR w 0x10) (2 ^ 12) else c
  capLooks w.val (winTrips w c)

/-- A window without a state: INSIDE, not settled (R181, R182). -/
def winBlank (w : Fin 96) (on : Bool) (from_ : Option Nat) (c : Chip) : Chip :=
  let c := updWin w (fun x => { x with on := on, restart := false, compL := false, compU := false, samples := [], filtL := false,
                                       filtU := false, next := none, settleFrom := from_ }) c
  capLooks w.val (winTrips w ((c.setFld (winR w 0x10) 0 2 1).clrBits (winR w 0x10) (2 ^ 2)))

/-- Power-up of a window by a write of cycle `e` (R181): outputs of the comparators 0, settling. -/
def winPower (w : Fin 96) (e : Nat) (c : Chip) : Chip := winBlank w true (some e) c

/-- Power-down (R182). -/
def winOff (w : Fin 96) (c : Chip) : Chip := winBlank w false none c

/-- The window is to start anew from the present cycle (R182). -/
def winAgain (w : Fin 96) (c : Chip) : Chip := updWin w (fun x => { x with restart := true }) c

/-- A write of WIN_CFG (R181, R182); what it brings begins with the next cycle. -/
def winCfgWrite (ini : Initiator) (w : Fin 96) (v : Word) (c : Chip) : Chip :=
  if !cfgOpenW c ini w then c
  else
    let old := c.reg (winR w 0)
    let c := c.setReg (winR w 0) (v &&& 0xFFF)
    if v.bit 0 && (!old.bit 0 || old.fld 1 5 != v.fld 1 5) then winAgain w c else c

/-- A software write of the threshold registers (R180, R187): `reg` 0 WIN_THR, 1 WIN_RAMPL, 2 WIN_RAMPH. The upper code
and slope of a window bound to a lane keep their values. -/
def winThrWrite (ini : Initiator) (w : Fin 96) (reg : Fin 3) (v : Word) (c : Chip) : Chip :=
  let thr := c.reg (winR w 4)
  let rl := c.reg (winR w 8)
  let rh := c.reg (winR w 0xC)
  let open_ := cfgOpenW c ini w
  let bound := peakBound c w
  match reg with
  | 0 => thrWrite w (if bound then (v &&& 0xFFF) ||| (thr &&& 0xFFF0000) else v &&& 0x0FFF0FFF) rl rh c
  | 1 => if open_ then thrWrite w thr (v &&& 0x1FFFFF) rh c else c
  | 2 => if open_ then thrWrite w thr rl (if bound then (v &&& 0x1F0000) ||| (rh &&& 0xFFFF) else v &&& 0x1FFFFF) c else c

/-! ### Sampling -/

/-- The ball that input `i` of slice `s` reaches, through SLICE_AINMAP (17 R415). -/
def ballOf (c : Chip) (s i : Nat) : Nat := 8 * c.fld (slR s 4) 0 4 + i

/-- A comparator's next output at threshold code `d` and hysteresis `h`, both in microvolts times 8192 (R176). -/
def compNext (out : Bool) (v vref : Int) (d : Nat) (h : Int) : Bool :=
  if out then !decide ((2 * v + h) * 4096 < 2 * d * vref) else decide (2 * d * vref < (2 * v - h) * 4096)

/-- Ones among the last `m` samples, a missing sample counting as the present filtered output (R178). -/
def majority (xs : List Bool) (m : Nat) (filt : Bool) : Bool :=
  let ys := xs.take m
  let ones := (ys.filter id).length + (if filt then m - ys.length else 0)
  decide (m < 2 * ones)

/-- The majorities of the last `m` samples kept (R177, R178). -/
def winMajority (c : Chip) (w : Fin 96) (m : Nat) : Bool × Bool :=
  let x := c.wins[w]
  (majority (x.samples.map (·.1)) m x.filtL, majority (x.samples.map (·.2)) m x.filtU)

/-- What a cycle does to a window: a sample of each comparator, and for a settled window the majorities under the M in force in
it (R176 to R178, R181); a clamped step of a ramp shows unless a restart took its place (R179). -/
def winCycle (w : Fin 96) (c : Chip) : Chip :=
  let c := if c.wins[w].clampL || c.wins[w].clampH then
      (updWin w (fun x => { x with clampL := false, clampH := false }) c).setBits (winR w 0x10) (2 ^ 13)
    else c
  if !c.wins[w].on then c
  else
    let v := Config.ain c.now (ballOf c (w.val / 8) (c.fld0 (winR w 0) 1 3))
    let h := hystUv (c.fld0 (winR w 0) 4 2)
    let x := c.wins[w]
    let l := compNext x.compL v Config.vref (dacCode c w false) h
    let u := compNext x.compU v Config.vref (dacCode c w true) h
    let keep := match x.settleFrom with
      | some e => decide (e + 500 < c.now)
      | none => true
    let c := updWin w (fun x => { x with compL := l, compU := u,
                                         samples := if keep then ((l, u) :: x.samples).take 31 else x.samples }) c
    let next := if c.wins[w].settleFrom.isSome then none else some (winMajority c w (filtM (c.fld0 (winR w 0) 6 3)))
    ((updWin w (fun x => { x with next := next }) c).putBit (winR w 0x10) 3 l).putBit (winR w 0x10) 4 u

/-- Settling ends with as many samples kept as the M in force (R178, R181). -/
def winSettleTry (w : Fin 96) (c : Chip) : Chip :=
  let m := filtM (c.fld (winR w 0) 6 3)
  if c.wins[w].settleFrom.isSome && decide (m ≤ c.wins[w].samples.length) then
    winSettle w (winMajority c w m).1 (winMajority c w m).2 c
  else c

/-- The start of a cycle: what writes of the cycle before bring (R182), else the filter output register (R177, R181, R186). -/
def winTurn (w : Fin 96) (c : Chip) : Chip :=
  let x := c.wins[w]
  if !winEn c w then (if x.on then winOff w c else if x.restart then updWin w (fun x => { x with restart := false }) c else c)
  else if x.restart then winPower w (c.now - 1) c
  else match x.next with
    | some (l, u) => winEnter w l u (updWin w (fun x => { x with next := none }) c)
    | none => winSettleTry w c

/-- The ramps at the start of a cycle (R179, R180): RST = 0 ends a ramp, a running one takes its step. -/
def winRamp (w : Fin 96) (c : Chip) : Chip :=
  let x := c.wins[w]
  if x.rampL.isNone && x.rampH.isNone then c
  else
    let (rl, cl) := rampStep (if c.fld (winR w 8) 19 2 = 0 then none else x.rampL)
    let (rh, ch) := rampStep (if c.fld (winR w 0xC) 19 2 = 0 then none else x.rampH)
    updWin w (fun x => { x with rampL := rl, rampH := rh, clampL := cl, clampH := ch }) c

/-! ### Low-power twins (R184) -/

def updTwin (w : Fin 8) (f : Twin → Twin) (c : Chip) : Chip :=
  { c with power := { c.power with twins := vmod c.power.twins w f } }

/-- A twin enters standby: INSIDE, not settled, no samples (R181, R184). -/
def twinStart (w : Fin 8) (c : Chip) : Chip :=
  if c.bit (winlpR w.val 0) 0 then
    let c := updTwin w (fun _ => Twin.reset) c
    c.setReg (winlpR w.val 8) (((c.reg (winlpR w.val 8)).withFld 0 2 1).withBit 2 false)
  else c

/-- The twin's comparators in a sample period, with its own thresholds, INPUT and HYST (R175, R176, R184). -/
def twinComp (w : Fin 8) (c : Chip) : Bool × Bool :=
  let cfg := c.reg (winlpR w.val 0)
  let thr := c.reg (winlpR w.val 4)
  let v := Config.ainAon c.power.aon (cfg.fld 1 3)
  let h := hystUv (cfg.fld 4 2)
  let x := c.power.twins[w]
  (compNext x.compL v Config.vref (thr.fld 0 12) h, compNext x.compU v Config.vref (thr.fld 16 12) h)

/-- A sample of a twin in standby (R177, R184): the first period settles; the filtered outputs once M samples are kept. -/
def twinSample (w : Fin 8) (c : Chip) : Option (Bool × Bool) × Chip :=
  let (l, u) := twinComp w c
  let m := filtM (c.fld (winlpR w.val 0) 6 3)
  let keep := decide (c.power.entered + 500 < c.power.aon)
  let c := updTwin w (fun x => { x with compL := l, compU := u,
                                        samples := if keep then ((l, u) :: x.samples).take 31 else x.samples }) c
  let x := c.power.twins[w]
  if x.samples.length < m then (none, c)
  else (some (majority (x.samples.map (·.1)) m x.filtL, majority (x.samples.map (·.2)) m x.filtU), c)

/-- WIN_SUM (R183). -/
def winSum (c : Chip) (s : Nat) : Word :=
  (List.range 8).foldl (fun v k =>
    v.withBit k ((c.reg (winR (8 * s + k) 0x10) &&& c.reg (winR (8 * s + k) 0x14)).fld 8 6 != 0)) 0

end Sys2Proof.Machine
end

