-- ==== Sys2Proof/Machine/PwmRun.lean ====
section
/-! DEFINITION. The running channel (04 R95 to R100, R109 to R111; 05 R120): boundaries, compares, carrier switch, sync,
watchdog, and what a channel does at the start and at the end of a cycle. -/

namespace Sys2Proof.Machine

/-! ### Hand-off of a drain (17 R411) -/

/-- The level of an output after the override stage at instant `T` (R140), which an edge reaches 6 ns after its own instant (R101).
EN = 0 has made the output 0 before polarity (R100). -/
def outLevel (c : Chip) (n : Fin 96) (outB : Bool) (T : Nat) : PadLvl :=
  (ovOf c n outB).getD (lvlOf (levelAt (getOut c n outB).edges (T - 96)))

/-- A pattern code for an output at instant `T`: 0 low, 1 high, 2 Hi-Z, 3 hold. -/
def patLevel (c : Chip) (n : Fin 96) (outB : Bool) (T code : Nat) : PadLvl :=
  match code with
  | 0 => .lo
  | 1 => .hi
  | 2 => .z
  | _ => outLevel c n outB T

/-- The outputs of channel `n` take their pattern levels at instant `T`, after the cycle in which the drain was applied; once every
channel of the slice has, the drain completes. -/
def drainTake (n : Fin 96) (T : Nat) (c : Chip) : Chip :=
  if !c.pwms[n].draining || decide (c.now ≤ (c.slices[Fin.ofNat 12 (n.val / 8)]).drainAt) then c
  else
    let s : Fin 12 := Fin.ofNat 12 (n.val / 8)
    let code := c.slices[s].patCode
    let la := patLevel c n false T (code.fld (4 * (n.val % 8)) 2)
    let lb := patLevel c n true T (code.fld (4 * (n.val % 8) + 2) 2)
    let c := { c with slices := vmod c.slices s (fun x =>
      { x with pattern := (x.pattern.set (2 * (n.val % 8)) (some la)).set (2 * (n.val % 8) + 1) (some lb),
               drainLast := c.now }) }
    let c := updPwm n (fun p => { p with draining := false, safe := true }) c
    if (chansFin s).any (fun m => c.pwms[m].draining) then c else c.schedule 0 .sliceDrainComplete

/-! ### Chain (04 R110) -/

/-- The chain output of slice `s` pulses two cycles from now, at the next slice's chain input or at PWM_SYNCOUT. -/
def chainOut (s : Nat) (c : Chip) : Chip :=
  if h : s + 1 < 12 then c.schedule 2 (.chainIn ⟨s + 1, h⟩)
  else { c with pins := { c.pins with syncOut := c.pins.syncOut.filter (fun t => decide (c.now ≤ t)) ++ [c.now + 2] } }

/-- A boundary event of channel `n` drives its slice's chain output where PWM_SYNCO chooses it. -/
def chainEvent (n : Fin 96) (zro : Bool) (c : Chip) : Chip :=
  let v := c.reg (slR (n.val / 8) 0x10)
  if !v.bit 4 && v.fld 0 3 == n.val % 8 && v.bit 3 != zro then chainOut (n.val / 8) c else c

/-- A pulse at the chain input of slice `s`: it reaches the slice's channels and, with PASS, the chain output. -/
def chainPulse (s : Fin 12) (c : Chip) : Chip :=
  let c := (chansFin s).foldl (fun (c : Chip) (n : Fin 96) => c.schedule 0 (.sync n true)) c
  if c.bit (slR s 0x10) 4 then chainOut s.val c else c

/-! ### The override stage in time (05 R134 to R140) -/

/-- What the override stage gives from instant `T` on is noted where it changes. -/
def ovNote (n : Fin 96) (T : Nat) (c : Chip) : Chip :=
  let a := ovOf c n false
  let b := ovOf c n true
  let last : Option PadLvl × Option PadLvl := (c.pwms[n].ovs.head?.map (·.2)).getD (none, none)
  if last = (a, b) then c else updPwm n (fun p => { p with ovs := (T, a, b) :: p.ovs.filter (fun e => e.1 != T) }) c

/-! ### Boundaries -/

/-- Events of the present cycle from the channel's anchor on, up to the next boundary, are placed in the agenda. -/
def pwmScan (n : Fin 96) (c : Chip) : Chip :=
  if !pwmRun c n then c
  else (eventsNow c n).foldl (fun (c : Chip) (e : Nat × PwmEv) => dueAt c e.1 (fun phi => match e.2 with
    | .zro => Ev.zro n phi
    | .prd => Ev.prd n phi
    | .cmp x down => Ev.compareEvent n x down phi)) c

/-- The travel of the present cycle that an angle carrier has used at a boundary met at fine tick `phi`. -/
def angUsedAt (c : Chip) (n : Fin 96) (phi : Nat) : Int :=
  if pwmAngle c n then
    let p := c.pwms[n]
    let dist := if p.down then p.v0 else pwmPer c n - p.v0
    let u := p.angUsed + angPath c n dist
    if u ≤ angAdvance c n then u else (angAdvance c n * phi / 32 : Nat)
  else 0

/-- The counter starts a segment at value `v` at instant `T`, with nothing occurred in it. With the angle carrier this counts as
the one boundary of its cycle (R98), also where a start or a sync load of 0 brought it; the manual does not say whether it
then does (DESIGN CHOICE, log 105). -/
def anchorAt (n : Fin 96) (T v : Nat) (down : Bool) (used : Int) (c : Chip) : Chip :=
  updPwm n (fun p => { p with t0 := T, v0 := v, sub := 0, down := down, occ := [], angUsed := used, angBnd := true }) c

/-- CARRIER takes a value, from the present instant on. -/
def setCarrier (n : Fin 96) (b : Bool) (c : Chip) : Chip :=
  updPwm n (fun p => { p with angle := b }) (c.putBit (pwmR n 0) 3 b)

/-- The watchdog's count is set right for a carrier switch at fine tick `phi`, before which the cycle's travel was `ang` with the
angle carrier: the end of the cycle counts all of it by the carrier then in use (R111). -/
def wdSwitch (n : Fin 96) (phi : Nat) (ang : Int) (toAngle : Bool) (c : Chip) : Chip :=
  let d : Rat := (ang : Rat) / 2 ^ 11 - (phi : Rat) / (pwmPresc c n : Nat)
  updPwm n (fun p => { p with wd := p.wd.map (fun l => if toAngle then l + d else l - d) }) c

/-- The carrier switch at a zero boundary at fine tick `phi` (R99): CARNEXT as it stands at the start of the cycle. -/
def carrierSwitch (n : Fin 96) (phi : Nat) (c : Chip) : Chip :=
  let want := c.bit0 (pwmR n 0) 4
  if want = pwmAngle c n then c
  else
    let c := setCarrier n want c
    if want then
      let d := travel c (pwmPb c n)
      let fl := d * phi / 32
      let c := c.setReg (pwmR n 0x4C) (angWord (accPrev c (pwmPb c n) + BitVec.ofInt 48 fl))
      updPwm n (fun p => { p with deficit := 0, angUsed := fl, sub := 0 }) (wdSwitch n phi fl true c)
    else
      let c := wdSwitch n phi c.pwms[n].angUsed false c
      updPwm n (fun p => { p with t0 := c.instant phi, sub := 0, angUsed := 0 }) c

/-- Where the counter starts the segment after a boundary (R95). -/
def segStart (c : Chip) (n : Fin 96) (zro : Bool) : Nat × Bool :=
  match pwmMode c n with
  | 0 => (0, false)
  | 1 => (pwmPer c n, true)
  | _ => if zro then (0, false) else (c.pwms[n].v0, true)

/-- A boundary event at fine tick `phi` (R95, R96, R99, R120): the commit, the new segment, its actions, event outputs
and interrupt, the carrier switch, the ramp restart, the trip release and the chain. In UPDOWN the counter turns at the
PER that governed the segment; a segment that starts at PER in DOWN starts at the PER active from the boundary. -/
def boundary (n : Fin 96) (zro : Bool) (phi : Nat) (c : Chip) : Chip :=
  if !pwmRun c n then c
  else
    let T := c.instant phi
    let used := angUsedAt c n phi
    let top := pwmPer c n
    let c := takeVals n T c.pwms[n].edgeActs c
    let c := updPwm n (fun p => { p with v0 := if zro then 0 else top, edgeActs := [] }) c
    let c := boundaryCommit n zro T c
    let (v, down) := segStart c n zro
    -- the second boundary event of one instant starts no further segment
    let second := c.pwms[n].angBnd && c.pwms[n].t0 == T
    let c := anchorAt n T v down (if second then c.pwms[n].angUsed else used) c
    let c := pwmEvent n (if zro then .zro else .prd) T c
    let c := rampRestart n zro c
    let c := chainEvent n zro c
    let c := tripRelease n zro c
    let c := if zro then drainTake n T (safeExitAt n (carrierSwitch n phi c)) else c
    ovNote n T c

/-- Whether a boundary event is the last of its instant (R95): the segment that follows is then scanned. -/
def lastOfBoundary (c : Chip) (n : Fin 96) (zro : Bool) : Bool :=
  match pwmMode c n with
  | 0 => zro
  | 1 => !zro
  | _ => true

def zroAt (n : Fin 96) (phi : Nat) (c : Chip) : Chip :=
  let c := boundary n true phi c
  if lastOfBoundary c n true then pwmScan n c else c

def prdAt (n : Fin 96) (phi : Nat) (c : Chip) : Chip :=
  let c := boundary n false phi c
  if lastOfBoundary c n false then pwmScan n c else c

/-- A compare event at fine tick `phi` (R96, R102). -/
def compareAt (n : Fin 96) (x : Fin 4) (down : Bool) (phi : Nat) (c : Chip) : Chip :=
  if !pwmRun c n then c
  else
    pwmEvent n (.cmp x down) (c.instant phi)
      (updPwm n (fun p => { p with occ := if p.occ.contains x.val then p.occ else p.occ ++ [x.val] }) c)

/-! ### Dead band and minimum pulse ends -/

/-- A rise that falls due at this instant (R104); a rise whose driver has gone low in the meantime is judged as a pulse
shorter than the dead band (R105). -/
def deadBandAt (n : Fin 96) (outB : Bool) (phi : Nat) (c : Chip) : Chip :=
  let T := c.instant phi
  let rs := (getOut c n outB).rises.filter (fun r => r.due == T)
  if rs.isEmpty then c
  else rs.foldl (fun c r => riseAt n outB r c) (updOut n outB (fun o => { o with rises := o.rises.filter (fun r => r.due != T) }) c)

/-- A held output reaches the end of its minimum pulse (R105): it falls unless the next pulse has started, its driver being 1 with
no rise of it still to come. -/
def minPulseAt (n : Fin 96) (outB : Bool) (phi : Nat) (c : Chip) : Chip :=
  let T := c.instant phi
  let o := getOut c n outB
  if o.hold = some T then
    if o.drv && o.waiting.isEmpty && o.rises.all (fun r => decide (r.due ≤ T)) then updOut n outB (fun o => { o with hold := none }) c
    else fallAt n outB T c
  else c

/-! ### Sync (R109, R111) -/

/-- The travel in which a deadline lies, in fine units: WDPER periods plus WDWIN ticks (R111). -/
def wdSpan (c : Chip) (n : Fin 96) : Nat :=
  let v := c.reg (pwmR n 0x44)
  let per := if pwmMode c n = 2 then 2 * pwmPer c n else pwmPer c n
  (v.fld 3 4 + 1) * per + 32 * v.fld 7 13

/-- The watchdog starts again (R111). The period length of its deadline is that of the PER active now: the manual does not say
which PER counts where PER changes before the deadline (DESIGN CHOICE, log 106). A count that begins while the channel stands takes
the PER and the mode with which the channel then starts. -/
def wdStart (n : Fin 96) (c : Chip) : Chip :=
  updPwm n (fun p => { p with wd := if c.bit (pwmR n 0x44) 2 then some ((wdSpan c n : Nat) : Rat) else none,
                              wdNew := !pwmRun c n }) c

/-- A sync pulse of the matrix or of the chain (R109): the source in use loads the counter at the start of the next
cycle. -/
def syncPulse (n : Fin 96) (chain : Bool) (c : Chip) : Chip :=
  let v := c.reg (pwmR n 0x44)
  if !pwmRun c n || !v.bit 0 || v.bit 1 != chain then c
  else
    let x := (c.reg (pwmR n 0x48)).toNat + (if chain then 32 * v.fld 21 11 else 0)
    updPwm n (fun p => { p with syncLoad := some (x, v.bit 20) }) c

/-- Every compare counts as occurred: the boundary that follows starts a new segment. -/
def allOcc : List Nat := [0, 1, 2, 3]

/-- The counter stands on its zero boundary at the start of the present cycle, whose events begin with it (R95). -/
def atZero (n : Fin 96) (c : Chip) : Chip :=
  let mode := pwmMode c n
  updPwm n (fun p => { p with t0 := 32 * c.now, v0 := if mode = 0 then pwmPer c n else 0, sub := 0, down := mode != 0,
                              occ := allOcc, deficit := 0, angUsed := 0, angBnd := false }) c

/-- The load at the start of a cycle (R109, R115): a value of 0 is the zero boundary; the watchdog starts again. -/
def syncLoadNow (n : Fin 96) (x : Nat) (phsDown : Bool) (c : Chip) : Chip :=
  let v := x % pwmPer c n
  let c := wdStart n (updPwm n (fun p => { p with syncLoad := none, deficit := 0 }) c)
  if v = 0 then atZero n c
  else
    let down := if pwmMode c n = 2 then phsDown else pwmMode c n == 1
    updPwm n (fun p => { p with angBnd := false }) (anchorAt n (32 * c.now) v down 0 c)

/-- The deadline of the sync watchdog passes (R111); a new one runs from it. -/
def deadline (n : Fin 96) (c : Chip) : Chip :=
  let v := c.reg (pwmR n 0x44)
  if !v.bit 2 then c
  else if v.bit 1 then
    (updPwm n (fun p => { p with wd := none }) c).setBits (pwmR n 0x3C) (2 ^ 9)
  else
    let over_ : Rat := match c.pwms[n].wd with
      | some l => if l < 0 then l else 0
      | none => 0
    let c := (c.setBits (pwmR n 0x44) 2).setBits (pwmR n 0x3C) (2 ^ 8)
    updPwm n (fun p => { p with wd := some (((wdSpan c n : Nat) : Rat) + over_) }) c

/-- The counter's travel of the present cycle in fine units: 32 / P with the time carrier, its advance with the angle carrier. -/
def wdTravel (c : Chip) (n : Fin 96) : Rat :=
  if pwmAngle c n then (angAdvance c n : Nat) / 2 ^ 11 else 32 / (pwmPresc c n : Nat)

/-- The watchdog counts the travel of the present cycle; a sync of the cycle is in time (R111, R115). -/
def wdCycle (n : Fin 96) (c : Chip) : Chip :=
  match c.pwms[n].wd with
  | some left =>
    if !pwmRun c n || c.pwms[n].syncLoad.isSome then c
    else
      let l : Rat := left - wdTravel c n
      let c := updPwm n (fun p => { p with wd := some l }) c
      if l < 0 then deadline n c else c
  | none => c

/-! ### PWM_CFG (R99, R100) -/

/-- A write of PWM_CFG: only one that sets EN from 0 to 1 takes MODE, PRESC, PB and CARRIER. -/
def pwmCfgWrite (ini : Initiator) (n : Fin 96) (v : Word) (c : Chip) : Chip :=
  let old := c.reg (pwmR n 0)
  if v.fld 1 2 = 3 then c
  else if !cfgOpen c ini (n.val / 8) then c.putBit (pwmR n 0) 4 (v.bit 4)
  else if v.bit 0 && !old.bit 0 && !pwmRun c n then c.setReg (pwmR n 0) ((v &&& 0xFFF7).withBit 3 (v.bit 4))
  else c.setReg (pwmR n 0) ((old.withBit 0 (v.bit 0)).withBit 4 (v.bit 4))

/-- The channel starts in this cycle (R100): the counter at its start, with the boundary events of R95. With the angle carrier
PWM_AORG has latched the angle of the cycle of the write. The watchdog's count goes on from where the channel stopped (R111). -/
def pwmBegin (n : Fin 96) (c : Chip) : Chip :=
  let ang := c.bit (pwmR n 0) 3
  let c := updPwm n (fun p => { p with angle := ang, commitAt := none }) c
  let c := atZero n c
  let c := if c.pwms[n].wdNew && c.pwms[n].wd.isSome then wdStart n c else c
  if ang then c.setReg (pwmR n 0x4C) (angWord (accPrev c (pwmPb c n))) else c

/-- The channel stops (R100): the counter holds, and both outputs are 0 before polarity. The levels of the action tables start from 0
when the channel starts again (DESIGN CHOICE, log 122: R100 gives only the outputs). -/
def pwmStop (n : Fin 96) (c : Chip) : Chip :=
  let T := 32 * c.now
  let pos := if c.pwms[n].angle then c.pwms[n].v0 * 2 ^ 11 + c.pwms[n].sub else timePos c n
  let fall := fun o : OutStage =>
    { OutStage.reset with edges := o.edges, lastFall := if o.lvl then some T else o.lastFall }
  updPwm n (fun p => { p with levA := false, levB := false, compDue := false, syncLoad := none, v0 := pos / 2 ^ 11, sub := pos % 2 ^ 11,
                              edgeActs := [], outA := fall p.outA, outB := fall p.outB }) c

/-! ### Cycle -/

/-- EN and COMP as written in the cycle before govern from here (R100, R501); the output stage takes a change of COMP with the levels
that the events of its instant leave. -/
def pwmTurn (n : Fin 96) (c : Chip) : Chip :=
  let run := pwmRun c n
  let comp := pwmComp c n
  let was := c.pwms[n].ran
  let old := c.pwms[n].comp
  let c := updPwm n (fun p => { p with ran := run, comp := comp }) c
  if was && !run then pwmStop n c
  else if run && !was then pwmBegin n c
  else if run && comp != old then levels n (32 * c.now) c.pwms[n].levA c.pwms[n].levB (updPwm n (fun p => { p with compDue := true }) c)
  else c

/-- The polarity as it governs from here inverts what the outputs show (R501). -/
def polTurn (n : Fin 96) (outB : Bool) (c : Chip) : Chip :=
  if levelAt (getOut c n outB).edges (32 * c.now) != polLevel c n outB then
    pushEdge n outB (32 * c.now) (getOut c n outB).lvl c
  else c

/-- A sync load of this cycle (R109), then the values that became active (R120): a load is reduced modulo the PER of the cycle before
(DESIGN CHOICE, log 123: R109 does not say). -/
def pwmLoads (n : Fin 96) (c : Chip) : Chip :=
  let c := match c.pwms[n].syncLoad with
    | some (x, dn) => if pwmRun c n then syncLoadNow n x dn c else updPwm n (fun p => { p with syncLoad := none }) c
    | none => c
  match c.pwms[n].acts with
  | [] => c
  | vals => activate n (32 * c.now) vals (updPwm n (fun p => { p with acts := [] }) c)

/-- Safe state as the causes of the cycle before bring it (05 R136), but for a drain that waits for its pattern (17 R411); a
stopped channel leaves it here (R139). -/
def safeTurn (n : Fin 96) (c : Chip) : Chip :=
  let k := causes c (n.val / 8)
  if k ≠ 0 then
    if c.pwms[n].safe || (c.pwms[n].draining && k == 2 ^ causeStop) then c
    else updPwm n (fun p => { p with safe := true }) c
  else if c.pwms[n].safe && !pwmRun c n then chanLeave n c
  else c

/-- The start of a cycle for channel `n`. The events of the cycle are placed later in it. -/
def pwmStart (n : Fin 96) (c : Chip) : Chip :=
  let c := pwmLoads n (pwmTurn n c)
  safeTurn n (polTurn n true (polTurn n false c))

/-- The overrides of channel `n` as the cycle starts. The slice's trip fault, raised here, brings safe state in the next cycle
(21 R479). -/
def overStart (n : Fin 96) (c : Chip) : Chip :=
  let c := tripStart n c
  let c := updPwm n (fun p => { p with ipsNow := Vector.replicate 6 0, ovs := p.ovs.take 1, stat0 := stageBits p }) c
  ovNote n (32 * c.now) c

/-- The end of a cycle for an angle carrier: the counter takes the cycle's travel (R97, R98). -/
def pwmEndAngle (n : Fin 96) (c : Chip) : Chip :=
  let p := c.pwms[n]
  let d := travel c (pwmPb c n)
  if d < 0 ∨ (d : Int) < p.angUsed then
    let def_ := p.deficit + (p.angUsed - d).toNat
    let c := updPwm n (fun p => { p with deficit := min def_ (2 ^ 36), angUsed := 0, angBnd := false }) c
    if 2 ^ 36 < def_ then c.setBits (pwmR n 0x3C) (2 ^ 12) else c
  else
    let rest := angAdvance c n - p.angUsed.toNat
    let stop := angPath c n (if p.down then p.v0 else pwmPer c n - p.v0)
    let past := p.angBnd && decide (stop ≤ rest)
    let mv := if past then stop - 2 ^ 11 else rest
    let base := p.v0 * 2 ^ 11 + p.sub
    let pos := if p.down then base - mv else base + mv
    let c := updPwm n (fun p => { p with v0 := pos / 2 ^ 11, sub := pos % 2 ^ 11, deficit := p.deficit - min p.deficit d.toNat,
                                         angUsed := 0, angBnd := false }) c
    if past then c.setBits (pwmR n 0x3C) (2 ^ 11) else c

def pwmEnd (n : Fin 96) (c : Chip) : Chip :=
  let c := wdCycle n (setEnd n c)
  if pwmRun c n && pwmAngle c n then pwmEndAngle n c else updPwm n (fun p => { p with angBnd := false }) c

/-! ### Output positions (R101, R106, R108, R114)

What the override stage gives from instant z reaches a pad driver 2 ns later, after the crossbar's retiming. An edge of instant T
leaves the override stage at T + 6 ns and reaches a pad driver at T + 10 ns, 5 cycles later (R101, 05 R134, 01 R29; DEDUCED,
log 15). -/

/-- What the override stage gives an output at instant `z`, and since when. -/
def ovAt (p : Pwm) (outB : Bool) (z : Nat) : Option PadLvl × Nat :=
  match p.ovs.find? (fun e => decide (e.1 ≤ z)) with
  | some e => (if outB then e.2.2 else e.2.1, e.1)
  | none => (none, 0)

/-- The level of an output at the pad drivers at instant `y`. Where an override has been released, it is at first the level that
the stages before it gave at the release (05 R135). -/
def padAt (p : Pwm) (outB : Bool) (y : Nat) : PadLvl :=
  let o := ovAt p outB (y - 32)
  o.1.getD (lvlOf (levelAt (if outB then p.outB else p.outA).edges (max (y - 160) (o.2 - 96))))

/-- The instants of the next cycle at which an output may change at the pad drivers. -/
def padTimes (c : Chip) (n : Fin 96) (outB : Bool) : List Nat :=
  let p := c.pwms[n]
  let y := 32 * (c.now + 1)
  let ts : List Nat := p.ovs.map (fun e => e.1 + 32) ++ (if outB then p.outB else p.outA).edges.map (fun e => e.1 + 160)
  (List.range 32).filterMap (fun k => if (k == 0 || ts.contains (y + k)) = true then some (y + k) else none)

/-- The levels of position `j` in the next cycle with their instants, in order; PWM_XBAR as written by the end of the present one
(R114). -/
def posSteps (c : Chip) (j : Nat) : List (Nat × PadLvl) :=
  let src := c.fld (xbarR j) 0 8
  if src < 192 then
    let n : Fin 96 := Fin.ofNat 96 (src / 2)
    (padTimes c n (src % 2 == 1)).map (fun y => (y, padAt c.pwms[n] (src % 2 == 1) y))
  else [(32 * (c.now + 1), .z)]

/-- The transitions in a list of levels that follow on `l`: their instants. -/
def changes (l : PadLvl) : List (Nat × PadLvl) → List Nat
  | [] => []
  | x :: xs => (if x.2 = l then [] else [x.1]) ++ changes x.2 xs

/-- Position `j` in the next cycle (R106): only the net change of the cycle is delivered, at the instant of the last transition. -/
def posNext (c : Chip) (j : Fin 192) : OutPos :=
  let o := c.outs[j]
  let ls := posSteps c j
  let l := if posDark c j then o.copy else (ls.getLast?.map (·.2)).getD o.lvl
  let at_ := if posDark c j then 32 * (c.now + 1) else (changes o.lvl ls).getLast?.getD o.edge
  { o with lvl := l, was := o.lvl, edge := if l = o.lvl then o.edge else at_, moves := (if l = o.lvl then [] else [c.now + 1]) ++ o.moves.filter (fun m => decide (c.now ≤ m + 3)) }

/-- Whether position `j` loses two or more transitions of one cycle to no net change (R106). -/
def posDrop (c : Chip) (j : Fin 192) : Bool :=
  let o := c.outs[j]
  let ls := posSteps c j
  !posDark c j && decide (2 ≤ (changes o.lvl ls).length) && (ls.getLast?.map (·.2)).getD o.lvl == o.lvl

/-- The output positions go on to the next cycle; a loss counts as one DROP of the channel, position by position (DESIGN CHOICE,
log 107). -/
def posCycle (c : Chip) : Chip :=
  let drops := (List.finRange 192).filter (posDrop c)
  let c := { c with outs := Vector.ofFn (posNext c) }
  drops.foldl (fun (c : Chip) (j : Fin 192) => countDrop (Fin.ofNat 96 (c.fld (xbarR j) 0 8 / 2)) c) c

/-- The line being calibrated takes over in a cycle with no transition near it; with none within 10 µs of the due point
the line in service stays and CALSKIP is set. -/
def delayLine (pos : Fin 192) (quiet : Bool) (c : Chip) : Chip :=
  let o := c.outs[pos]
  if quiet then { c with outs := c.outs.set pos { o with line := !o.line, calDue := o.calDue + 500000 } }
  else
    let src := c.fld (xbarR pos) 0 8
    let c := { c with outs := c.outs.set pos { o with calDue := o.calDue + 500000 } }
    if src < 192 then c.setBits (pwmR (src / 2) 0x3C) (2 ^ 10) else c

end Sys2Proof.Machine
end

