-- ==== Sys2Proof/Machine/SchedCore.lean ====
section
/-! DEFINITION. The angle calendar scheduler (03): entries and bin lists, insertion and removal, the window, the near set,
crossings, the walkers, firing and re-insertion. Angles and bins are counted over revolutions without a break. -/

namespace Sys2Proof.Machine

/-! ### Access to the parts -/

def updSch (f : Sched → Sched) (c : Chip) : Chip := { c with sched := f c.sched }
def updSp (p : Fin 8) (f : SchedPb → SchedPb) (c : Chip) : Chip :=
  updSch (fun s => { s with pbs := vmod s.pbs p f }) c

/-- SCH_PBSTAT.STATE (R76). -/
def schState (c : Chip) (p : Nat) : Nat := c.fld (schP p 8) 0 2
def schOff : Nat := 0
def schWait : Nat := 1
def schArmed : Nat := 2
def schSusp : Nat := 3
def setSchState (p x : Nat) (c : Chip) : Chip := c.setFld (schP p 8) 0 2 x

def entryAt (c : Chip) (h : Nat) : ActEntry := aread ActEntry.reset c.sched.entries h
def setEntry (h : Nat) (e : ActEntry) (c : Chip) : Chip :=
  updSch (fun s => { s with entries := aset ActEntry.reset s.entries h e }) c

def binKey (p : Fin 8) (b : Nat) : Nat := 4096 * p.val + b
def binList (c : Chip) (p : Fin 8) (b : Nat) : List Nat := aread [] c.sched.bins (binKey p b)
def setBin (p : Fin 8) (b : Nat) (l : List Nat) (c : Chip) : Chip :=
  updSch (fun s => { s with bins := aset [] s.bins (binKey p b) l }) c

/-- The free list's length (R91 SCH_FREE). -/
def schFree (c : Chip) : Nat := 131072 - c.sched.freshNext + c.sched.freed.length

/-- Whether an entry is linked: in use, and not cut off from its bin list by a faulty one (R66, R87). -/
def linked (c : Chip) (h : Nat) : Bool :=
  let e := entryAt c h
  e.inuse && (binList c e.pb (e.pos / 256)).contains h

/-- Actions linked to PB[p] (R91 SCH_ACTCNT). -/
def schActcnt (c : Chip) (p : Fin 8) : Nat :=
  (c.sched.entries.filter (fun e => e.2.pb == p && linked c e.1)).length

/-- NEXT of a linked entry: the one after it in its list, or itself at the end (R67). -/
def nextIn : List Nat → Nat → Nat
  | a :: b :: xs, h => if a = h then b else nextIn (b :: xs) h
  | _, h => h

/-- A word of an entry as the action-memory window reads it (R67). -/
def entryWord (c : Chip) (h w : Nat) : Word :=
  let e := entryAt c h
  match w with
  | 0 => BitVec.ofNat 32 (e.pos % 2 ^ 20 + 2 ^ 20 * e.pb.val + 2 ^ 23 * e.inuse.toNat + 2 ^ 24 * (e.dir % 4)
          + 2 ^ 26 * e.catchSkip.toNat + 2 ^ 27 * e.late.toNat + 2 ^ 28 * (e.type % 16))
  | 1 => e.param
  | 2 => BitVec.ofNat 32 (e.step % 2 ^ 21 + 2 ^ 21 * (e.rn % 32) + 2 ^ 26 * (e.k % 32) + 2 ^ 31 * e.near.toNat)
  | _ => BitVec.ofNat 32 (e.target % 2 ^ 12 +
          2 ^ 12 * ((if e.inuse then nextIn (binList c e.pb (e.pos / 256)) h else e.next) % 2 ^ 17) + 2 ^ 29 * e.gen.toNat)

/-- The byte key of word `w` of an entry (R66), by which its ECC words are named. -/
def entryKey (h w : Nat) : Nat := 0x20000000 + 16 * h + 4 * w

/-- Word `w` of an entry read through the window: none for a double-bit error (R75, R87). -/
def windowWord (h w : Nat) (c : Chip) : Option Word × Chip :=
  let r := eccRead (entryKey h w) 4 c
  (if r.1 then some (entryWord r.2 h w) else none, r.2)

/-! ### Links -/

def linkAt (h : Nat) (c : Chip) : Chip :=
  let e := entryAt c h
  setBin e.pb (e.pos / 256) (h :: binList c e.pb (e.pos / 256)) c

def unlink (h : Nat) (c : Chip) : Chip :=
  let e := entryAt c h
  setBin e.pb (e.pos / 256) ((binList c e.pb (e.pos / 256)).filter (· != h)) c

def recOf (c : Chip) (p : Fin 8) (h : Nat) : Option SchRec := c.sched.pbs[p].recs.find? (fun r => r.h == h)

/-- The action leaves the near set and the window's records. -/
def dropRec (p : Fin 8) (h : Nat) (c : Chip) : Chip :=
  let c := updSp p (fun s => { s with recs := s.recs.filter (fun r => r.h != h) }) c
  setEntry h { entryAt c h with near := false } c

def updRec (p : Fin 8) (h : Nat) (f : SchRec → SchRec) (c : Chip) : Chip :=
  updSp p (fun s => { s with recs := s.recs.map (fun r => if r.h = h then f r else r) }) c

/-- An entry is freed: GEN moves on and the handle joins the end of the free list (R66, R67). What else it reads while it is
free is the model's choice (log 101): as after device reset. -/
def freeEntry (h : Nat) (c : Chip) : Chip :=
  let e := entryAt c h
  let c := dropRec e.pb h (unlink h c)
  let c := setEntry h { ActEntry.reset with gen := e.gen + 1 } c
  updSch (fun s => { s with freed := s.freed ++ [h] }) (updSp e.pb (fun s => { s with owed := s.owed.filter (fun x => x.1 != h) }) c)

/-! ### The window (R76, R77) -/

/-- θ(t) of the present cycle over revolutions. -/
def uangNow (c : Chip) (p : Fin 8) : Int := c.sched.pbs[p].uang + travel c p

def binOf (u : Int) : Int := u / 2 ^ 24
def bin4096 (u : Int) : Nat := (u % 4096).toNat

/-- Whether bin `b` lies in the window of an armed scheduler. -/
def inWindow (c : Chip) (p : Fin 8) (b : Nat) : Bool :=
  let s := c.sched.pbs[p]
  let d := bin4096 ((b : Int) - s.centre)
  schState c p == schArmed && (decide (d ≤ s.lead) || decide (4096 ≤ d + s.lead))

/-- Items join the end of PB[p]'s one sequence, whatever their kind (R77, log 102). -/
def addItems (p : Fin 8) (xs : List SchItem) (c : Chip) : Chip := updSp p (fun s => { s with items := s.items ++ xs }) c

/-- A double-bit error met by a walker (R87): the list ends there and the scheduler suspends (with EN written 0 as in log 103). -/
def eccMet (p : Fin 8) (h : Nat) (c : Chip) : Chip :=
  let e := entryAt c h
  let c := setBin e.pb (e.pos / 256) ((binList c e.pb (e.pos / 256)).takeWhile (· != h)) c
  let c := ((c.setBits (schP p 8) (2 ^ 7)).setReg (schR 0x20) (BitVec.ofNat 32 h))
  let c := raiseFault 28 (BitVec.ofNat 32 h) c
  if schState c p = schOff then c else updSp p (fun s => { s with leave := some schSusp }) c

/-- A walker reads an entry: false for a double-bit error (R87); a single-bit error is corrected (15 R341). -/
def walkRead (p : Fin 8) (h : Nat) (c : Chip) : Bool × Chip :=
  let r := eccRead (entryKey h 0) 16 c
  if r.1 then r else (false, eccMet p h r.2)

/-- A bin enters the window: a record for each of its actions that has none, loadable from the next cycle; with `load` a
crossing item and one load item per action. -/
def enterBin (p : Fin 8) (u : Int) (mark : Option Int) (load : Bool) (c : Chip) : Chip :=
  let l := binList c p (bin4096 u)
  let c := if load then addItems p (.cross mark :: l.map .load) c else c
  l.foldl (fun c h =>
    if (recOf c p h).isSome then c
    else updSp p (fun s => { s with recs := s.recs ++ [⟨h, c.now + 1, false, none⟩] }) c) c

/-- A bin leaves the window: its actions leave the near set, and each unloaded one becomes an item (R82). -/
def leaveBin (p : Fin 8) (u : Int) (c : Chip) : Chip :=
  (binList c p (bin4096 u)).foldl (fun c h =>
    match recOf c p h with
    | some r =>
      let c := dropRec p h c
      if r.resident then c else addItems p [.evict h r.swept] c
    | none => c) c

/-- The bins of a window around `m`, nearest first, the side ahead of the motion before the other (R77). -/
def around (m : Int) (lead : Nat) (back : Bool) : List Int :=
  m :: (List.range lead).flatMap (fun i =>
    if back then [m - (i + 1), m + (i + 1)] else [m + (i + 1), m - (i + 1)])

/-- The near set is emptied and pending items are discarded (R76). -/
def disarm (p : Fin 8) (c : Chip) : Chip :=
  let c := c.sched.pbs[p].recs.foldl (fun c r => setEntry r.h { entryAt c r.h with near := false } c) c
  updSp p (fun s => { s with recs := [], items := [], owed := [] }) c

def pbDir (c : Chip) (p : Nat) : Bool := c.bit (pbR p 8) 2

/-- The window around θ is formed in the arming cycle (R76, R77). -/
def armNow (p : Fin 8) (c : Chip) : Chip :=
  let c := disarm p (setSchState p schArmed c)
  let m := binOf (uangNow c p)
  let lead := max (c.fld (schP p 0) 1 3) 1
  let c := updSp p (fun s => { s with armedAt := c.now, centre := m, lead := lead, last := m, leave := none }) c
  (around m lead (pbDir c p)).foldl (fun c u => enterBin p u none true c) c

/-- PB[p] is in TRACK or COAST. -/
def pbTracks (c : Chip) (p : Nat) : Bool := decide (stTrack ≤ pbState c p)

/-- The arm condition in the present cycle (R76, R88). -/
def armDue (c : Chip) (p : Fin 8) : Bool :=
  schState c p == schWait && c.bit (schP p 0) 0 && pbTracks c p && c.sched.pbs[p].leave == none &&
    (!c.bit (schP p 0) 4 || c.sched.pbs[p].armPulse == some c.now)

def armTry (p : Fin 8) (c : Chip) : Chip := if armDue c p then armNow p c else c

/-! ### Firing (R68 to R71, R79 to R81) -/

/-- Whether DIR and the revolution residue admit a crossing in revolution `rev` (R69, R70). -/
def qualifies (e : ActEntry) (back : Bool) (rev : Int) : Bool :=
  (e.dir == 2 || e.dir == back.toNat) && rev % ((e.rn : Int) + 1) == (e.k : Int)

/-- The point of position `pos` in the interval (lo, hi], none where the interval does not hold it (R79). -/
def pointIn (lo hi : Int) (pos : Nat) : Option Int :=
  let a := lo + 1 + ((pos : Int) * 2 ^ 16 - (lo + 1)) % 2 ^ 36
  if a ≤ hi then some a else none

/-- The output value of a GPIO pin set, cleared or toggled, at the pad driver input (R68). -/
def gpioAct (pin how : Nat) (c : Chip) : Chip :=
  let a := gpioWord 0 pin
  c.putBit a (pin % 32) (match how with | 5 => true | 6 => false | _ => !c.bit a (pin % 32))

/-- The effect of action `h` that fires at fine tick `phi` (R68), by type, target and parameter. A WAKE of Triton passes its input vote
(14 R331). A GPIO output changes 6 ns,
3 cycles, after the crossing instant. -/
def actEffect (h : Nat) (e : ActEntry) (phi : Nat) (c : Chip) : Chip :=
  match e.type with
  | 1 => c.schedule 2 (.schAdc (Fin.ofNat 32 e.target) (Fin.ofNat 32 (e.param.fld 0 5)))
  | 2 => if h : e.target < 96 then forcedEdge ⟨e.target, h⟩ (e.param.bit 0) (e.param.fld 1 2) (c.instant phi) c else c
  | 3 => if h : e.target < 96 then c.schedule 2 (.schCommit ⟨e.target, h⟩) else c
  | 4 => evPulseIn 1 (384 + e.target % 64) c
  | 5 => c.schedule 3 (.gpioEdge (Fin.ofNat 1024 e.target) 5 (Fin.ofNat 32 phi))
  | 6 => c.schedule 3 (.gpioEdge (Fin.ofNat 1024 e.target) 6 (Fin.ofNat 32 phi))
  | 7 => c.schedule 3 (.gpioEdge (Fin.ofNat 1024 e.target) 7 (Fin.ofNat 32 phi))
  | 8 => if c.bit (dmaC 1 (e.target % 32) 0) 1 then c.schedule 1 (.dmaTrigger 1 (Fin.ofNat 32 e.target)) else c
  | 9 => c.schedule (if e.target % 32 = 0 then 3 else 1) (.schWake (Fin.ofNat 32 e.target) (Fin.ofNat 8 (e.target / 256)))
  | 10 => c.schedule 2 (.schPea (Fin.ofNat 512 e.target) e.param (Fin.ofNat 131072 h))
  | _ => c

/-- An action is moved at the end of the cycle: re-inserted when periodic, freed otherwise (R71). -/
def moveLater (h : Nat) (back : Bool) (c : Chip) : Chip :=
  let e := entryAt c h
  updSch (fun s => { s with moves := s.moves.filter (fun m => m.1 != h) ++ [(h, if e.step = 0 then none else some back)] }) c

/-- Action `h` fires (R71, R81). -/
def fireAct (h phi : Nat) (back late : Bool) (c : Chip) : Chip :=
  let e := entryAt c h
  if !e.inuse then c
  else
    let c := setEntry h { e with late := late } c
    let c := if late then (c.satInc (schP e.pb 0x10) 0 32).setBits (schP e.pb 8) (2 ^ 2) else c
    let c := actEffect h e phi c
    moveLater h back (updSch (fun s => { s with fired := s.fired ++ [h] }) c)

/-- A firing is placed in the agenda of the present cycle. -/
def fireAt (h phi : Nat) (back late : Bool) (c : Chip) : Chip :=
  c.schedule 0 (.fire (Fin.ofNat 131072 h) (Fin.ofNat 32 phi) back late)

/-- A swept-over action by its CATCH field (R81). -/
def catchAct (h : Nat) (back : Bool) (c : Chip) : Chip :=
  let e := entryAt c h
  if e.catchSkip then
    let c := (c.satInc (schP e.pb 0x14) 0 32).setBits (schP e.pb 8) (2 ^ 3)
    if e.step = 0 then c else moveLater h back c
  else fireAt h 0 back true c

/-! ### Insertion and removal (R72 to R74, R89) -/

/-- TARGET and PARAM of R68 for a type. -/
def badTarget (type target : Nat) (param : Word) : Bool :=
  match type with
  | 0 => target != 0
  | 1 => decide (32 ≤ target) || decide (32 ≤ param.toNat)
  | 2 => decide (96 ≤ target) || decide (8 ≤ param.toNat) || param.fld 1 2 == 3
  | 3 => decide (96 ≤ target)
  | 4 => decide (64 ≤ target)
  | 8 => decide (32 ≤ target)
  | 9 =>
    let core := target % 32
    let bank := target / 256
    target / 32 % 8 != 0 || decide (8 ≤ bank) || (core != 0 && decide (core < 8)) || bank == 0 || bank == 7
  | 10 => decide (512 ≤ target)
  | _ => decide (1024 ≤ target)

/-- The status of a submission (R72). -/
def insStatus (c : Chip) (w0 w1 w2 w3 : Word) : Nat :=
  if schFree c = 0 then 1
  else if 11 ≤ w0.fld 28 4 then 2
  else if badTarget (w0.fld 28 4) (w3.fld 0 12) w1 || w0.fld 24 2 == 3 then 3
  else if w2.fld 21 5 < w2.fld 26 5 ∨ 2 ^ 20 < w2.fld 0 21 then 4
  else 0

/-- A newly linked action in the window becomes loadable in the next cycle (R71, R73). -/
def loadable (h : Nat) (c : Chip) : Chip :=
  let e := entryAt c h
  if inWindow c e.pb (e.pos / 256) then
    addItems e.pb [.load h] (updSp e.pb (fun s =>
      { s with recs := s.recs.filter (fun r => r.h != h) ++ [⟨h, c.now + 1, false, none⟩] }) c)
  else c

def updPort (ix : Nat) (f : SchPort → SchPort) (c : Chip) : Chip :=
  if h : ix < 96 then updSch (fun s => { s with ports := vmod s.ports ⟨ix, h⟩ f }) c else c

def portOf (c : Chip) (ix : Nat) : SchPort := if h : ix < 96 then c.sched.ports[ix] else SchPort.reset

/-- The oldest free handle, and the free list without it. -/
def takeFree (c : Chip) : Option (Nat × Chip) :=
  if c.sched.freshNext < 131072 then
    some (c.sched.freshNext, updSch (fun s => { s with freshNext := s.freshNext + 1 }) c)
  else match c.sched.freed with
    | h :: hs => some (h, updSch (fun s => { s with freed := hs }) c)
    | [] => none

/-- A submission is served (R72, R73). -/
def serveIns (r : SchReq) (c : Chip) : Chip :=
  let st := insStatus c r.w0 r.w1 r.w2 r.w3
  let refuse := updPort r.ini (fun q => { q with insRes := BitVec.ofNat 32 (2 ^ 27 + 2 ^ 28 * st) }) c
  if st ≠ 0 then refuse
  else match takeFree c with
    | some (h, c) =>
      let gen := (entryAt c h).gen
      let e : ActEntry := { pos := r.w0.fld 0 20, pb := Fin.ofNat 8 (r.w0.fld 20 3), inuse := true, dir := r.w0.fld 24 2,
                            catchSkip := r.w0.bit 26, late := false, type := r.w0.fld 28 4, param := r.w1,
                            step := r.w2.fld 0 21, rn := r.w2.fld 21 5, k := r.w2.fld 26 5, near := false,
                            target := r.w3.fld 0 12, next := 0, gen := gen }
      let c := updPort r.ini (fun q => { q with insRes := BitVec.ofNat 32 (h + 2 ^ 17 * gen.toNat + 2 ^ 27) }) c
      loadable h (linkAt h (setEntry h e (eccClear (entryKey h 2) (eccClear (entryKey h 0) c))))
    | none => refuse

/-- A removal is served (R74). An entry cut off from its list is not linked and stays allocated (R87). -/
def serveRem (r : SchReq) (c : Chip) : Chip :=
  let h := r.w3.fld 0 17
  let e := entryAt c h
  let res := fun (st : Nat) (c : Chip) => updPort r.ini (fun q => { q with remRes := BitVec.ofNat 32 (st + 4) }) c
  if !linked c h || e.gen.toNat != r.w3.fld 17 3 then res 2 c
  else if c.sched.fired.contains h then
    res 1 (updSch (fun s => { s with moves := s.moves.filter (fun m => m.1 != h) ++ [(h, none)] }) c)
  else res 0 (freeEntry h (updSch (fun s => { s with moves := s.moves.filter (fun m => m.1 != h) }) c))

/-- Whether request `a` is served before `b`: order of landing, then initiator, an insertion before a removal (R73). -/
def reqBefore (a b : SchReq) : Bool :=
  match a.land, b.land with
  | some x, some y => decide (x < y) || (x == y && (decide (a.ini < b.ini) || (a.ini == b.ini && !a.removal && b.removal)))
  | some _, none => true
  | none, _ => false

/-- The request next in line, none where none has landed. -/
def nextReq (c : Chip) : Option SchReq :=
  c.sched.reqs.foldl (fun best r =>
    if r.land.isNone then best
    else match best with
      | none => some r
      | some b => if reqBefore r b then some r else best) none

/-- Removes the first occurrence of a request. -/
def dropReq (r : SchReq) : List SchReq → List SchReq
  | [] => []
  | x :: xs => if x = r then xs else x :: dropReq r xs

/-- Whether an action's target belongs to slice `s` (R89). -/
def targetIn (c : Chip) (type target s : Nat) : Bool :=
  match type with
  | 1 => target / 2 == s
  | 2 => target / 8 == s
  | 3 => target / 8 == s
  | 9 => decide (8 ≤ target % 32) && (target % 32 - 8) / 2 == s
  | 10 => peaPart c (target % 512) == s
  | _ => false

/-- The slices under live reconfiguration. -/
def liveList (c : Chip) : List Nat := (List.range 12).filter (liveOn c)

/-- Whether R89 lets a write of the insertion or removal port through from SEALED onward, for the MGE with the slices `ls`
under live reconfiguration. -/
def mgePortOn (ls : List Nat) (c : Chip) (off : Nat) (v : Word) : Bool :=
  ls.any (fun s =>
    if off < 0xC then true
    else if off = 0xC then targetIn c ((portOf c 5).w0.fld 28 4) (v.fld 0 12) s
    else
      let e := entryAt c (v.fld 0 17)
      !e.inuse || e.gen.toNat != v.fld 17 3 || targetIn c e.type e.target s)

def mgePortOk (c : Chip) (off : Nat) (v : Word) : Bool := mgePortOn (liveList c) c off v

/-- Whether a request of the kind by the initiator waits (R72, R74). -/
def reqWaits (c : Chip) (ini : Nat) (removal : Bool) : Bool :=
  c.sched.reqs.any (fun r => r.ini == ini && r.removal == removal)

/-- A write of the port registers: by R13, and for the MGE from SEALED onward by R89. A write that will be held is judged
when it lands, by the slices under live reconfiguration at the write. -/
def portWrite (ini : Initiator) (off : Nat) (v : Word) (f : Chip → Chip) (c : Chip) : Chip :=
  if c.sealed && decide (ini = .mge) then
    (if decide (0xC ≤ off) && reqWaits c 5 (off == 0x14) then updSch (fun s => { s with live := liveList c }) (f c.ack)
     else if mgePortOk c off v then f c.ack
     else refuse .violation (schR off) c)
  else gatedWrite ini (schR off) f c

/-- A staged word of an initiator. -/
def SchPort.stage (q : SchPort) (off : Nat) (v : Word) : SchPort :=
  if off = 0 then { q with w0 := v } else if off = 4 then { q with w1 := v } else { q with w2 := v }

/-- The SCH_INS3 writes of an initiator that are held. -/
def heldIns (c : Chip) (ini : Nat) : Nat := (c.sched.reqs.filter (fun r => r.land.isNone && r.ini == ini && !r.removal)).length

/-- A write of SCH_INS0 to SCH_INS2 (R72); it comes after the SCH_INS3 writes of its initiator that are held. -/
def stageWrite (ini : Initiator) (off : Nat) (v : Word) (c : Chip) : Chip :=
  let n := heldIns c (iniIx ini)
  updPort (iniIx ini) (fun q => if n = 0 then q.stage off v else { q with after := q.after ++ [(n, off, v)] }) c

/-- The staging set once a held SCH_INS3 write has landed: the writes that waited for it alone take place (R72). -/
def SchPort.landed (q : SchPort) : SchPort :=
  let out := q.after.filter (fun x => decide (x.1 ≤ 1))
  let left := (q.after.filter (fun x => !decide (x.1 ≤ 1))).map (fun x => (x.1 - 1, x.2))
  out.foldl (fun q x => q.stage x.2.1 x.2.2) { q with after := left }

/-- A request is put in line: held while one of its kind by its initiator waits (R72, R74). -/
def putReq (ini : Nat) (removal : Bool) (v : Word) (c : Chip) : Chip :=
  let q := portOf c ini
  let r : SchReq := { land := if reqWaits c ini removal then none else some c.now, ini := ini, removal := removal,
                      w0 := q.w0, w1 := q.w1, w2 := q.w2, w3 := v }
  updSch (fun s => { s with reqs := s.reqs ++ [r] }) c

/-- The first held write of the initiator and kind lands in the next cycle, with the staged words of then; one of the MGE is
judged by R89 as it lands, and dropped where R89 refuses it (R72, R74). -/
def landHeld (ini : Nat) (removal : Bool) (c : Chip) : Chip :=
  match c.sched.reqs.find? (fun r => r.land.isNone && r.ini == ini && r.removal == removal) with
  | none => c
  | some r =>
    let off := if removal then 0x14 else 0xC
    if c.sealed && ini == 5 && !mgePortOn (c.sched.live ++ liveList c) c off r.w3 then
      let c' := refuse .violation (schR off) (updSch (fun s => { s with reqs := dropReq r s.reqs }) c)
      { (if removal then c' else updPort ini SchPort.landed c') with resp := c.resp }
    else
      let q := portOf c ini
      let x := if removal then { r with land := some (c.now + 1) }
        else { r with land := some (c.now + 1), w0 := q.w0, w1 := q.w1, w2 := q.w2 }
      updSch (fun s => { s with reqs := dropReq r s.reqs ++ [x] }) (if removal then c else updPort ini SchPort.landed c)

/-- The request that the third port serves in the present cycle (R73). -/
def portReq (c : Chip) : Option SchReq := c.sched.due.or (nextReq c)

/-- The end of a request's service cycle: its outcome, and the landing of a held write (R73, R74). -/
def serveReq (r : SchReq) (c : Chip) : Chip :=
  let c := updSch (fun s => { s with due := none, reqs := dropReq r s.reqs }) c
  landHeld r.ini r.removal (if r.removal then serveRem r c else serveIns r c)

/-- The request next in line is served in the present cycle; its effect falls at the cycle's end (R73). -/
def serveKind (removal : Bool) (c : Chip) : Chip :=
  match portReq c with
  | some r => if r.removal = removal then updSch (fun s => { s with due := some r }) c else c
  | none => c

/-- The window of the TCMs of the loop engines, and the one an address of it is in (01 R24). -/
def inTcmWin (a : Nat) : Bool := decide (0x22000000 ≤ a) && decide (a < 0x22030000)
def tcmWinLe (a : Nat) : Nat := (a - 0x22000000) / 0x2000

/-- Whether a read of an address waits: a result for the initiator's request or push (R72, R74, 05 R127), a window read for the
third port, which serves one in a cycle in which no request waits (R78), one of a TCM for a cycle of its own, behind the writes on
their way (09 R213), a Pea word for its bank (09 R221). -/
def readWaits (c : Chip) (ini : Initiator) (a : Nat) : Bool :=
  if a = schR 0x10 then reqWaits c (iniIx ini) false
  else if a = schR 0x18 then reqWaits c (iniIx ini) true
  else if 0x20000000 ≤ a ∧ a < 0x20200000 then (portReq c).isSome || decide (c.now < c.sched.readFree)
  else if inTcmWin a then c.tcmWin.gets.contains (tcmWinLe a) || c.tcmWin.puts.any (fun e => tcmWinLe e.1 == tcmWinLe a)
  else peaWaits c ini a || sqWaits c (iniIx ini) a

/-! ### Cycle: crossings and walkers -/

/-- The actions that have been swept over and wait for their sweep item or for their item of eviction: no crossing sweeps them
again (R81). -/
def sweptWaits (c : Chip) (p : Fin 8) : List Nat :=
  c.sched.pbs[p].owed.map (·.1) ++ c.sched.pbs[p].items.filterMap (fun i => match i with
    | .evict h (some _) => some h
    | _ => none)

/-- What one cycle's travel does to one action of the window: it fires, or is swept over while it waits (R79 to R81).
Firings are gathered as handle and fine tick. -/
def crossOne (up ua : Int) (t : Nat) (owed : List Nat) (e : ActEntry) (r : SchRec) : Option (Nat × Nat) × SchRec :=
  let back := decide (ua < up)
  match pointIn (min up ua) (max up ua) e.pos with
  | some a =>
    if !qualifies e back (a / 2 ^ 36) then (none, r)
    else if r.resident then
      (some (r.h, min (32 * (a - up).natAbs / (ua - up).natAbs) 31), r)
    else if r.since ≤ t && r.swept.isNone && !owed.contains r.h then (none, { r with swept := some back })
    else (none, r)
  | none => (none, r)

/-- Ascending fine tick, then ascending handle (R80). -/
def insFire (x : Nat × Nat) : List (Nat × Nat) → List (Nat × Nat)
  | [] => [x]
  | y :: ys => if x.2 < y.2 ∨ (x.2 = y.2 ∧ x.1 < y.1) then x :: y :: ys else y :: insFire x ys

/-- The on-time crossings of the present cycle (R79). -/
def crossAll (p : Fin 8) (up ua : Int) (c : Chip) : Chip :=
  let rs := c.sched.pbs[p].recs.map (fun r => crossOne up ua c.now (sweptWaits c p) (entryAt c r.h) r)
  let fires := rs.foldl (fun l x => match x.1 with | some f => insFire f l | none => l) []
  let c := updSp p (fun s => { s with recs := rs.map (·.2) }) c
  fires.foldl (fun c f => fireAt f.1 f.2 (decide (ua < up)) false c) c

/-- The lag fault (R85); it wins over SCH_PBCFG.EN written 0 in the same cycle (log 103). -/
def lagFault (p : Fin 8) (c : Chip) : Chip :=
  let c := c.setBits (schP p 8) (2 ^ 5)
  let c := updSp p (fun s => { s with leave := none }) (setSchState p schSusp (disarm p c))
  raiseFault (20 + p.val) (c.reg (schP p 8)) c

/-- The window follows θ bin by bin (R77, R82). -/
def followBins (p : Fin 8) : Nat → Int → Chip → Chip
  | 0, _, c => c
  | k + 1, nu, c =>
    let s := c.sched.pbs[p]
    if s.centre = nu then c
    else
      let d : Int := if s.centre < nu then 1 else -1
      let m := s.centre + d
      let c := leaveBin p (s.centre - d * s.lead) c
      let c := updSp p (fun s => { s with centre := m }) c
      followBins p k nu (enterBin p (m + d * s.lead) (some m) true c)

/-- The bins of a jump from `a` to `b`, in order. -/
def binsTo (a b : Int) : List Int :=
  (List.range ((b - a).natAbs + 1)).map (fun i => if a ≤ b then a + (i : Int) else a - (i : Int))

/-- What a jump over (lo, hi] does to an action of a bin that it sweeps (R81, R83): it is swept over, unless it is already, and
then waits for its sweep item without a slot; in a bin outside the new window it leaves the near set. -/
def jumpOne (p : Fin 8) (lo hi : Int) (back keep : Bool) (c : Chip) (h : Nat) : Chip :=
  let e := entryAt c h
  let hit := match pointIn lo hi e.pos with
    | some a => qualifies e back (a / 2 ^ 36)
    | none => false
  let was := (recOf c p h).bind (·.swept)
  let c := if (sweptWaits c p).contains h then c
    else match was.or (if hit then some back else none) with
      | some b => updSp p (fun s => { s with owed := s.owed ++ [(h, b)] }) c
      | none => c
  if !keep then dropRec p h c
  else if hit || was.isSome then
    setEntry h { entryAt c h with near := false } (updRec p h (fun r => { r with resident := false, swept := none }) c)
  else c

/-- A JUMP (R83): sweep items for its bins, then the window around θ(t), swept bins without items of their own. -/
def jumpSweep (p : Fin 8) (up ua : Int) (c : Chip) : Chip :=
  let s := c.sched.pbs[p]
  let back := decide (ua < up)
  let nu := binOf ua
  let swept := binsTo (binOf up) nu
  let olds := around s.centre s.lead false
  let news := around nu s.lead (pbDir c p)
  let c := addItems p (swept.map .sweepBin) c
  let c := swept.foldl (fun (c : Chip) u =>
    (binList c p (bin4096 u)).foldl (jumpOne p (min up ua) (max up ua) back (news.contains u)) c) c
  let c := olds.foldl (fun c u => if swept.contains u || news.contains u then c else leaveBin p u c) c
  let c := updSp p (fun s => { s with centre := nu }) c
  news.foldl (fun c u => enterBin p u none (!swept.contains u) c) c

/-- The travel of the present cycle meets the calendar of PB[p] (R76, R79, R83, R85). In the arming cycle the window is formed
around θ as the cycle leaves it. -/
def schCross (p : Fin 8) (c : Chip) : Chip :=
  let s := c.sched.pbs[p]
  if schState c p = schArmed ∧ s.armedAt < c.now then
    let up := s.uang
    let ua := uangNow c p
    if up = ua then c
    else
      let nu := binOf ua
      if s.jumped then
        if 64 < (nu - s.last).natAbs then lagFault p c else jumpSweep p up ua c
      else
        let c := crossAll p up ua c
        if 64 < (nu - s.last).natAbs then lagFault p c else followBins p 130 nu c
  else if schState c p = schArmed then armNow p c
  else armTry p c

/-- A load item whose action is no longer waiting is of no effect. -/
def itemStale (c : Chip) (p : Fin 8) : SchItem → Bool
  | .load h => match recOf c p h with
    | some r => r.resident
    | none => true
  | _ => false

def nearCount (c : Chip) (p : Fin 8) : Nat := (c.sched.pbs[p].recs.filter (·.resident)).length

/-- Load items waiting (R91 SCH_NEARCNT). -/
def loadsWaiting (c : Chip) (p : Fin 8) : Nat :=
  (c.sched.pbs[p].items.filter (fun i => (match i with | .load _ => true | _ => false) && !itemStale c p i)).length

/-- The removal served in the present cycle names the action: its load or sweep item has no effect (R88). -/
def removing (c : Chip) (h : Nat) : Bool :=
  match portReq c with
  | some r => r.removal && r.w3.fld 0 17 == h && r.w3.fld 17 3 == (entryAt c h).gen.toNat
  | none => false

/-- Whether the load item at the front of an armed PB[p]'s sequence waits for a slot (R77). -/
def loadBlocked (c : Chip) (p : Fin 8) : Bool :=
  schState c p == schArmed && decide (64 ≤ nearCount c p) &&
  (match c.sched.pbs[p].items.dropWhile (itemStale c p) with
   | .load _ :: _ => true
   | _ => false)

/-- The action becomes resident, and is handled if it was swept over, be it by a jump whose sweep item still waits (R77, R81,
R83); with no free slot it waits. -/
def loadAct (p : Fin 8) (h : Nat) (c : Chip) : Chip :=
  match recOf c p h with
  | some r =>
    if r.resident then c
    else if 64 ≤ nearCount c p then updSp p (fun s => { s with items := .load h :: s.items }) c
    else
      let c := updRec p h (fun r => { r with resident := true, swept := none }) c
      let c := setEntry h { entryAt c h with near := true } c
      let owed := (c.sched.pbs[p].owed.find? (fun x => x.1 == h)).map (·.2)
      let c := updSp p (fun s => { s with owed := s.owed.filter (fun y => y.1 != h) }) c
      match r.swept.or owed with
      | some back => catchAct h back c
      | none => c
  | none => c

/-- A sweep item of one action (R83): where it was swept over it is handled; else, in a bin of the window, the item serves as
its load item. -/
def sweepAct (p : Fin 8) (h : Nat) (c : Chip) : Chip :=
  let e := entryAt c h
  if !linked c h || e.pb != p || removing c h || (c.sched.moves.any (fun m => m.1 == h)) then c
  else
    let hit := c.sched.pbs[p].owed.find? (fun x => x.1 == h)
    let c := match hit with
      | some x => catchAct h x.2 (dropRec p h (updSp p (fun s => { s with owed := s.owed.filter (fun y => y.1 != h) }) c))
      | none => c
    if (hit.isSome && !(e.catchSkip && e.step == 0)) || !inWindow c p (e.pos / 256) then c
    else
      let c := if (recOf c p h).isSome then c
        else updSp p (fun s => { s with recs := s.recs ++ [⟨h, c.now + 1, false, none⟩] }) c
      loadAct p h c

/-- A walker reads the entry of an item and goes on, unless the entry is faulty (R87). -/
def walkEntry (p : Fin 8) (h : Nat) (f : Chip → Chip) (c : Chip) : Chip :=
  let r := walkRead p h c
  if r.1 then f r.2 else r.2

/-- A walker processes one item (R78). -/
def doItem (p : Fin 8) (it : SchItem) (c : Chip) : Chip :=
  match it with
  | .cross (some m) => updSp p (fun s => { s with last := m }) c
  | .cross none => c
  | .load h => walkEntry p h (fun c => if removing c h then c else loadAct p h c) c
  | .reins => c
  | .evict h sw => walkEntry p h (fun c => match sw with
      | some back => if linked c h && !removing c h then catchAct h back c else c
      | none => c) c
  | .sweepBin u =>
    updSp p (fun s => { s with last := u, items := (binList c p (bin4096 u)).map .sweepAct ++ s.items }) c
  | .sweepAct h => walkEntry p h (sweepAct p h) c

/-- The items of PB[p] without stale ones at the front. -/
def purgeItems (p : Fin 8) (c : Chip) : Chip :=
  updSp p (fun s => { s with items := s.items.dropWhile (itemStale c p) }) c

/-- Whether a walker can process an item of PB[p] now. -/
def walkReady (c : Chip) (p : Fin 8) : Bool :=
  schState c p == schArmed && decide (c.sched.pbs[p].armedAt < c.now) &&
  (match c.sched.pbs[p].items.dropWhile (itemStale c p) with
   | [] => false
   | .load _ :: _ => decide (nearCount c p < 64)
   | _ => true)

/-- One item of PB[p], if a walker can process one. -/
def walkOne (p : Fin 8) (c : Chip) : Chip :=
  let c := purgeItems p c
  if walkReady c p then
    match c.sched.pbs[p].items with
    | it :: rest => doItem p it (updSp p (fun s => { s with items := rest }) c)
    | [] => c
  else c

/-- SCH_PBSTAT.DEFERF of every phase base whose loads wait for a slot (R77). -/
def deferScan (c : Chip) : Chip :=
  (List.finRange 8).foldl (fun (c : Chip) (p : Fin 8) => if loadBlocked c p then c.setBits (schP p 8) (2 ^ 4) else c) c

/-- The two walkers of a cycle (R78): the next phase bases with pending items in turn; a lone one has both. -/
def walkers (c : Chip) : Chip :=
  let c := deferScan c
  let order := (List.range 8).map (fun i => Fin.ofNat 8 (c.sched.rr + i))
  match order.filter (walkReady c) with
  | [] => c
  | [p] => updSch (fun s => { s with rr := (p.val + 1) % 8 }) (walkOne p (walkOne p c))
  | p :: q :: _ => updSch (fun s => { s with rr := (q.val + 1) % 8 }) (walkOne q (walkOne p c))

/-! ### End of a cycle -/

/-- An action that fired or was skipped is moved (R71); one cut off from its list stays (R87). -/
def doMove (m : Nat × Option Bool) (c : Chip) : Chip :=
  let h := m.1
  let e := entryAt c h
  if !linked c h then c
  else match m.2 with
    | none => freeEntry h c
    | some back =>
      let pos := (if back then e.pos + 2 ^ 20 - e.step % 2 ^ 20 else e.pos + e.step) % 2 ^ 20
      let c := dropRec e.pb h (unlink h c)
      let c := linkAt h (setEntry h { entryAt c h with pos := pos } c)
      let c := if schState c e.pb = schArmed then addItems e.pb [.reins] c else c
      loadable h c

/-- Leaving ARMED at the end of the cycle (R76, R88). -/
def schLeave (p : Fin 8) (c : Chip) : Chip :=
  let c := match c.sched.pbs[p].leave with
    | some x => updSp p (fun s => { s with leave := none }) (setSchState p x (disarm p c))
    | none => c
  if schState c p = schArmed ∧ !pbTracks c p then setSchState p schWait (disarm p c) else c

/-- The end of a cycle for the third port and the moved actions: a removal sees the firings of the cycle; entries are freed
before an insertion takes one (01 R20), and re-inserted actions are linked in the next cycle, after it (R71, R73, R74). -/
def schServe (c : Chip) : Chip :=
  let req := portReq c
  let at' (removal : Bool) (c : Chip) : Chip := match req with
    | some r => if r.removal = removal then serveReq r c else c
    | none => c
  let c := at' true c
  let ms := c.sched.moves
  let c := (ms.filter (·.2.isNone)).foldl (fun c m => doMove m c) c
  let c := (ms.filter (·.2.isSome)).foldl (fun c m => doMove m c) (at' false c)
  updSch (fun s => { s with moves := [], fired := [] }) c

/-- The end of a cycle for the scheduler: the third port serves, actions move, states change, θ(t) is kept. -/
def schEnd (c : Chip) : Chip :=
  (List.finRange 8).foldl (fun (c : Chip) (p : Fin 8) =>
    let ua := uangNow c p
    updSp p (fun s => { s with uang := ua, jumped := false }) (schLeave p c)) (schServe c)

/-- Residues and the angle counted are set from PB_ANG (R70). -/
def schResidues (p : Fin 8) (c : Chip) : Chip :=
  updSp p (fun s => { s with uang := ((accEnd c p).toNat : Int) - travel c p }) c

/-- A phase-base fault reaches the scheduler (R86): bit 0 LOSS, 1 JLIM, 2 OVERSPEED, 3 REVERSE. Where SCH_PBCFG.EN is written 0
in the same cycle the manual gives both OFF and SUSPENDED; the model takes SUSPENDED (log 103). -/
def schPbFault (p : Fin 8) (k : Nat) (c : Chip) : Chip :=
  if c.bit (schP p 0) (5 + k) && schState c p != schOff then
    let c := c.setBits (schP p 8) (2 ^ 6)
    if schState c p = schSusp then c else updSp p (fun s => { s with leave := some schSusp }) c
  else c

end Sys2Proof.Machine
end

