-- ==== Sys2Proof/Machine/PhaseRun.lean ====
section
/-! DEFINITION. Phase bases (02): updates and their application, velocity, tracking states, timeouts, sensor decoders
and what a cycle does. -/

namespace Sys2Proof.Machine

def updPb (p : Fin 8) (f : PhaseBase → PhaseBase) (c : Chip) : Chip := { c with pbs := vmod c.pbs p f }

/-- Event source 352 + 4p + k: 0 revolution, 1 index, 2 sensor update, 3 fault (01 R27). -/
def pbEvent (p : Fin 8) (k : Nat) (c : Chip) : Chip := evPulse (352 + 4 * p.val + k) c

def setPbState (p : Fin 8) (x : Nat) (c : Chip) : Chip := c.setFld (pbR p 8) 0 2 x

/-- A fault of R55: bit 8 + k of PB_STAT, its event, its fault source, and the scheduler (03 R86): k = 0 LOSS, 1 JLIM,
2 OVERSPEED, 3 REVERSE. -/
def pbFault (p : Fin 8) (k : Nat) (c : Chip) : Chip :=
  let c := c.setBits (pbR p 8) (2 ^ (8 + k))
  let c := pbEvent p 3 c
  schPbFault p k (raiseFault (12 + p.val) (c.reg (pbR p 8)) c)

/-- VB takes a value; under forward-only a negative one is held at 0 with the REVERSE fault (R43). A value outside signed 32
bits wraps (DESIGN CHOICE, log 96: R42 does not say). -/
def setVB (p : Fin 8) (v : Int) (c : Chip) : Chip :=
  if pbFwd c p && decide (v < 0) then pbFault p 3 (c.setReg (pbR p 0x14) 0) else c.setReg (pbR p 0x14) (wordI v)

def pbVB (c : Chip) (p : Nat) : Int := (c.reg (pbR p 0x14)).toInt

/-- VB as a filter step finds it: before a PB_VEL write of the same cycle (R56, 00 R8), after an earlier step. -/
def vbFound (c : Chip) (p : Fin 8) : Int :=
  if c.pbs[p].filtAt = some c.now then pbVB c p else (c.reg0 (pbR p 0x14)).toInt

/-- VB as the phase base's own result, which wins over a PB_VEL write of the same cycle (R56). -/
def setVBHard (p : Fin 8) (v : Int) (c : Chip) : Chip := setVB p v (updPb p (fun b => { b with filtAt := some c.now }) c)

/-- A slew in progress is cancelled. -/
def slewCancel (p : Fin 8) (c : Chip) : Chip := (updPb p (fun b => { b with slew := none }) c).clrBits (pbR p 8) (2 ^ 3)

/-- Discipline of a TIME phase base is on (R52). -/
def discOn (c : Chip) (p : Nat) : Bool := c.bit (pbR p 0x64) 8 && decide (c.fld (pbR p 0x64) 0 5 ≤ 16)

/-- The timeout restarts in the present cycle (R44). -/
def tmoRestart (p : Fin 8) (c : Chip) : Chip := updPb p (fun b => { b with tmoFrom := some c.now }) c

/-! ### Application of an update (R38 to R43) -/

/-- The measured velocity of an accepted update, none for the first since ACQUIRE and where no time has passed (R42). -/
def velMeas (c : Chip) (p : Fin 8) (u : PbUpdate) : Option Int :=
  match c.pbs[p].prevUpd with
  | none => none
  | some (mp, tp) =>
    let dt := (u.t - tp).toInt
    if dt ≤ 0 then none
    else
      let pr := vbFound c p * dt
      some (tdiv (pr + signed 36 (u.m - mp - BitVec.ofInt 36 pr).toNat) dt)

/-- One filter step (R42); the GRID source clamps VB to its range in revolutions per second (R51): the least and the greatest
VB within it. -/
def velFilter (p : Fin 8) (vm : Option Int) (c : Chip) : Chip :=
  match vm with
  | some v =>
    if c.bit (pbR p 0x24) 20 && c.pbs[p].swvelAt != some c.now then
      let vb := vbFound c p
      let c := setVBHard p (vb + asr (v - vb) (c.fld (pbR p 0x24) 16 4)) c
      if pbSrc c p = srcGrid then
        let lo : Nat := (c.fld (pbR p 0x60) 0 8 * 2 ^ 36 + 499999999) / 500000000
        let hi : Nat := c.fld (pbR p 0x60) 8 8 * 2 ^ 36 / 500000000
        let x := clampI lo hi (pbVB c p)
        if x = pbVB c p then c else (c.setReg (pbR p 0x14) (wordI x)).setBits (pbR p 8) (2 ^ 12)
      else c
    else c
  | none => c

/-- VB := vm on the entry into TRACK, where VFILT = 1 and a vm was formed (R38). -/
def velTake (p : Fin 8) (vm : Option Int) (c : Chip) : Chip :=
  match vm with
  | some v => if c.bit (pbR p 0x24) 20 && c.pbs[p].swvelAt != some c.now then setVBHard p v c else c
  | none => c

/-- A JUMP by `e` (R41, R43); the scheduler sweeps the cycle (03 R83). A slew in progress ends with the jump: its step of this
cycle is in the error where the stamp is this cycle (R39), and is not applied (DESIGN CHOICE, log 97). -/
def jumpBy (p : Fin 8) (e : Int) (c : Chip) : Chip :=
  let c := slewCancel p c
  if pbFwd c p && decide (e < 0) then c
  else
    let c := updPb p (fun b => { b with jump := b.jump + BitVec.ofInt 48 e }) c
    updSp p (fun s => { s with jumped := true }) c

/-- A SLEW that closes `e` from the present cycle on; with e = 0 it ends in this cycle (R41). -/
def slewBy (p : Fin 8) (e : Int) (c : Chip) : Chip :=
  let n := if e = 0 then 1 else max (c.fld (pbR p 0x24) 0 16) 1
  let sl : Slew := { e := e, n := n, k := 1, clamped := decide ((n * slewMax c p : Nat) < absI e), rem := e }
  (updPb p (fun b => { b with slew := some sl }) c).setBits (pbR p 8) (2 ^ 3)

/-- The correction of an accepted update by state (R38, R41). -/
def correct (p : Fin 8) (u : PbUpdate) (e : Int) (vm : Option Int) (c : Chip) : Chip :=
  if pbState c p = stTrack then
    let c := velFilter p vm c
    if c.bit (pbR p 0) 4 then slewBy p e c else jumpBy p e c
  else
    let zen := pbSrc c p == srcEnc && c.bit (pbR p 0x40) 6
    let enter := if zen then u.isZ else decide (1 ≤ c.pbs[p].nAcc)
    let c := if enter then setPbState p stTrack (velTake p vm c) else c
    jumpBy p e c

/-- An update is accepted (R38, R41 to R45). -/
def acceptUpd (p : Fin 8) (u : PbUpdate) (e : Int) (c : Chip) : Chip :=
  let c := if pbState c p = stCoast then
      updPb p (fun b => { b with nAcc := 0, prevUpd := none }) (setPbState p stAcquire c)
    else c
  let vm := velMeas c p u
  let c := correct p u e vm c
  let c := updPb p (fun b => { b with nAcc := b.nAcc + 1, prevUpd := some (u.m, u.t), tmoFrom := some c.now }) c
  let c := c.setReg (pbR p 0x3C) (c.reg (pbR p 0x3C) + 1)
  pbEvent p 2 (c.setBits (pbR p 8) (2 ^ 18))

/-- The age of a stamp in cycles, as a signed number (R39). -/
def stampAge (c : Chip) (t : Word) : Int := (c.capTime - t).toInt

/-- The error of an update against the angle at its stamp (R39). -/
def updErr (c : Chip) (p : Fin 8) (u : PbUpdate) : Int :=
  signed 36 (u.m - (thetaAge c p (stampAge c u.t).toNat).setWidth 36).toNat

/-- Index event and interval of an update, in its application cycle whether it is accepted or not (R47 to R49). -/
def updMarks (p : Fin 8) (u : PbUpdate) (c : Chip) : Chip :=
  let c := if u.idx then pbEvent p 1 (c.setBits (pbR p 8) (2 ^ 17)) else c
  match u.bound with
  | some b => updPb p (fun x => { x with bound := some b }) c
  | none => c

/-- The phase base as an update of the present cycle finds it (R56). -/
def pbTaken (c : Chip) (p : Fin 8) (u : PbUpdate) : PbTaken :=
  let b := c.pbs[p]
  { cyc := c.now, u := u, jump := b.jump, slew := b.slew, prevUpd := b.prevUpd, nAcc := b.nAcc, tmoFrom := b.tmoFrom,
    bound := b.bound, filtAt := b.filtAt, stat := c.reg (pbR p 8), vel := c.reg (pbR p 0x14), err := c.reg (pbR p 0x38),
    cnt := c.reg (pbR p 0x3C), jumped := c.sched.pbs[p].jumped }

/-- The updates applied in the present cycle. -/
def takenNow (c : Chip) (p : Fin 8) : List PbTaken := c.pbs[p].taken.filter (fun x => x.cyc == c.now)

/-- The updates applied in the present cycle are taken back, with their events: an ACQ or PB_DISABLE of the cycle comes before
them (R56). -/
def pbUndo (p : Fin 8) (c : Chip) : Chip :=
  match takenNow c p with
  | [] => c
  | x :: xs =>
    let m := BitVec.ofNat 32 (3 + 2 ^ 3 + 2 ^ 12 + 2 ^ 13 + 2 ^ 17 + 2 ^ 18)
    let c := if (x :: xs).any (fun y => y.u.idx) then evCancel (352 + 4 * p.val + 1) c else c
    let c := evCancel (352 + 4 * p.val + 2) c
    let c := (c.setReg (pbR p 8) ((c.reg (pbR p 8) &&& ~~~m) ||| (x.stat &&& m))).setReg (pbR p 0x38) x.err
    let c := (if c.pbs[p].filtAt = some c.now then c.setReg (pbR p 0x14) x.vel else c).setReg (pbR p 0x3C) x.cnt
    let c := updSp p (fun s => { s with jumped := x.jumped }) c
    updPb p (fun b => { b with jump := x.jump, slew := x.slew, prevUpd := x.prevUpd, nAcc := x.nAcc, tmoFrom := x.tmoFrom,
                               bound := x.bound, filtAt := x.filtAt, taken := [], jlims := 0 }) c

/-- An update in its application cycle (R39 to R41). An error beyond PB_CATCH is the JLIM fault, raised in the phase base's own
run of the cycle. -/
def applyUpd (p : Fin 8) (u : PbUpdate) (c : Chip) : Chip :=
  if pbState c p = stOff then c
  else
    let x := pbTaken c p u
    let c := updMarks p u (updPb p (fun b => { b with taken := b.taken.filter (fun y => y.cyc == x.cyc) ++ [x] }) c)
    let age := stampAge c u.t
    if age < 0 ∨ 65535 < age then c.setBits (pbR p 8) (2 ^ 13)
    else
      let e := updErr c p u
      let c := c.setReg (pbR p 0x38) (wordI (tdiv e (2 ^ 16)))
      let lim := c.fld (pbR p 0x2C) 0 20
      if pbState c p = stTrack ∧ lim ≠ 0 ∧ (lim * 2 ^ 16 : Nat) < absI e then updPb p (fun b => { b with jlims := b.jlims + 1 }) c
      else acceptUpd p u e c

/-- The oldest update whose application cycle is the present one is applied (R45). -/
def updateApply (p : Fin 8) (c : Chip) : Chip :=
  match c.pbs[p].pend.find? (fun u => u.due == c.now) with
  | some u => applyUpd p u (updPb p (fun b => { b with pend := b.pend.erase u }) c)
  | none => c

/-- An update is detected now and applied `d` cycles later (R45). -/
def pushUpd (p : Fin 8) (m : BitVec 36) (t : Word) (d : Nat) (isZ idx : Bool) (bound : Option (BitVec 36 × BitVec 36))
    (c : Chip) : Chip :=
  let u : PbUpdate := { m := m, t := t, due := c.now + d, isZ := isZ, idx := idx, bound := bound, seen := c.now }
  (updPb p (fun b => { b with pend := b.pend ++ [u] }) c).schedule d (.updateApply p)

/-! ### Timeouts (R44) -/

/-- Whether the timeout runs: PB_TMO is not 0, and a TIME source has its discipline on. -/
def tmoRuns (c : Chip) (p : Nat) : Bool := c.fld (pbR p 0x34) 0 16 != 0 && (pbSrc c p != srcTime || discOn c p)

/-- Every update whose application cycle is the present one is applied. -/
def applyDue (p : Fin 8) (c : Chip) : Chip :=
  c.pbs[p].pend.foldl (fun c u => if u.due = c.now then updateApply p c else c) c

/-- The timeout expires where it runs; an update applied in the same cycle, or another restart in it, wins (R56), and after an
expiry it stands still. -/
def timeout (p : Fin 8) (c : Chip) : Chip :=
  let c := applyDue p c
  if pbState c p = stOff ∨ !tmoRuns c p ∨ c.pbs[p].tmoFrom = none ∨ c.pbs[p].tmoFrom = some c.now then c
  else
    let c := updPb p (fun b => { b with tmoFrom := none }) c
    if pbSrc c p = srcEnc ∨ pbSrc c p = srcHall then
      (slewCancel p (setVBHard p 0 c)).setBits (pbR p 8) (2 ^ 4)
    else if pbState c p = stTrack then pbFault p 0 (setPbState p stCoast (slewCancel p c))
    else if pbState c p = stAcquire then pbFault p 0 c
    else c

/-! ### Encoder and Hall (R47 to R49) -/

/-- PB_SENS as it governs the decoders: a write counts from the next cycle on, but in the cycle in which the phase base is
enabled at once (R47, R49). -/
def pbSens (c : Chip) (p : Fin 8) : Word := if c.pbs[p].takeAt = some c.now then c.reg (pbR p 0x40) else c.reg0 (pbR p 0x40)

/-- PB_SENS.CAP, at most 61. -/
def sensCap (c : Chip) (p : Fin 8) : Nat := min ((pbSens c p).fld 0 6) 61

/-- The stamp of a level change that the decoder sees now, from capture channel `k` (R45). -/
def edgeStamp (c : Chip) (k : Nat) : Word :=
  if c.fld0 (capR k 0) 1 2 = 1 then
    let f := match claimers c 3 k with
      | [n] => c.fld (gpioPinR n) 12 3
      | _ => 0
    c.capTime - BitVec.ofNat 32 (1 + 2 ^ f)
  else c.capTime

def encStep (c : Chip) (p : Nat) : BitVec 36 := (c.reg (pbR p 0x44)).setWidth 36

/-- The forward order of (A, B): (0, 0), (1, 0), (1, 1), (0, 1). -/
def quadIx (a b : Bool) : Nat := if a then (if b then 2 else 1) else (if b then 3 else 0)

/-- The decoder takes the levels of A and B (R47), with no count in the cycle that takes them as they stand. A Z update of the
same cycle keeps P at the index angle (R56). -/
def encLevels (p : Fin 8) (a b : Bool) (c : Chip) : Chip :=
  let x := c.pbs[p]
  let c := updPb p (fun x => { x with encA := a, encB := b }) c
  if !(pbEn c p && pbSrc c p == srcEnc) || x.takeAt == some c.now then c
  else if x.encA != a && x.encB != b then c.setBits (pbR p 8) (2 ^ 14)
  else if x.encA == a && x.encB == b then c
  else
    let c := (tmoRestart p c).clrBits (pbR p 8) (2 ^ 4)
    if x.pend.any (fun u => u.isZ && u.seen == c.now) then c
    else
      let fwd := (quadIx a b == (quadIx x.encA x.encB + 1) % 4) != (pbSens c p).bit 7
      let step := encStep c p
      let m := if fwd then x.encP + step else x.encP
      let lo := if fwd then x.encP + step else x.encP - step
      let t := edgeStamp c (sensCap c p + (if x.encA != a then 0 else 1))
      pushUpd p m t 2 false false (some (lo, lo + step)) (updPb p (fun x => { x with encP := lo }) c)

/-- A rising edge of Z (R47): one update with m = PB_ZANG, in place of a count of the same cycle (R56). -/
def encIndex (p : Fin 8) (c : Chip) : Chip :=
  if pbEn c p && pbSrc c p == srcEnc && c.bit (pbR p 0x40) 6 && c.pbs[p].takeAt != some c.now then
    let z : BitVec 36 := BitVec.ofNat 36 (c.fld (pbR p 0x48) 0 20 * 2 ^ 16)
    let c := updPb p (fun x => { x with pend := x.pend.filter (fun u => u.seen != c.now) }) c
    let c := tmoRestart p c
    let c := c.clrBits (pbR p 8) (2 ^ 4)
    let c := updPb p (fun x => { x with encP := z }) c
    let t := edgeStamp c (sensCap c p + 2)
    pushUpd p z t 2 true true (some (z, z + encStep c p)) c
  else c

/-- Sector boundary Bᵢ (R49). -/
def hallB (c : Chip) (p i : Nat) : BitVec 36 :=
  BitVec.ofNat 36 ((c.fld (pbR p 0x6C) 0 20 + (2 * (i % 6) * 2 ^ 20 + 6) / 12) * 2 ^ 16)

/-- The index of a Hall state in PB_HALL.SEQ. -/
def hallIx (c : Chip) (p : Nat) (st : BitVec 3) : Option Nat :=
  if st = 0 ∨ st = 7 then none
  else (List.range 6).find? (fun i => c.fld (pbR p 0x4C) (3 * i) 3 == st.toNat)

/-- The decoder takes a Hall state (R49). Where several inputs change in one cycle, the lowest channel gives the stamp (DESIGN
CHOICE, log 98). -/
def hallTake (p : Fin 8) (st : BitVec 3) (c : Chip) : Chip :=
  let old := c.pbs[p].hall
  let c := updPb p (fun x => { x with hall := st }) c
  if !(pbEn c p && pbSrc c p == srcHall) || st == old || c.pbs[p].takeAt == some c.now then c
  else
    let ch := sensCap c p + (if (st ^^^ old).getLsbD 0 then 0 else if (st ^^^ old).getLsbD 1 then 1 else 2)
    match hallIx c p st, hallIx c p old with
    | some i, some j =>
      if i = (j + 1) % 6 ∨ j = (i + 1) % 6 then
        let m := if i = (j + 1) % 6 then hallB c p i else hallB c p (i + 1)
        let c := (tmoRestart p c).clrBits (pbR p 8) (2 ^ 4)
        pushUpd p m (edgeStamp c ch) 2 false (i == 0) (some (hallB c p i, hallB c p (i + 1))) c
      else c.setBits (pbR p 8) (2 ^ 15)
    | _, _ => c.setBits (pbR p 8) (2 ^ 15)

/-! ### Tracker (R50, R51) -/

def trkTlat (c : Chip) (p : Nat) : Nat := c.fld (pbR p 0x50) 24 8

/-- One bit of the angle of (c, s) and the pair of twice the angle, kept to 64 bits. -/
def angBit (cs sn : Int) : Bool × Int × Int :=
  let b := decide (sn < 0) || (sn == 0 && decide (cs < 0))
  let x := cs * cs - sn * sn
  let y := 2 * cs * sn
  if 2 ^ 62 < absI x ∨ 2 ^ 62 < absI y then (b, asr x 60, asr y 60) else (b, x, y)

/-- The first `k` bits of the angle of (c, s) in revolutions, most significant first. -/
def angBits : Nat → Int → Int → Nat → Nat
  | 0, _, _, acc => acc
  | k + 1, cs, sn, acc =>
    let (b, x, y) := angBit cs sn
    angBits k x y (2 * acc + b.toNat)

/-- MULT × atan2(S, C) modulo one revolution, to 20 bits, truncated (R50; DEDUCED, log 30). -/
def trkAngle (mult : Nat) (sn cs : Int) : Nat :=
  mult * angBits 36 (cs * 2 ^ 44) (sn * 2 ^ 44) 0 % 2 ^ 36 / 2 ^ 16

/-- Whether an amplitude squared lies in [AMIN, AMAX] of PB_AMP. -/
def ampOk (c : Chip) (p : Nat) (sq : Nat) : Bool :=
  let lo := c.fld (pbR p 0x5C) 0 16
  let hi := c.fld (pbR p 0x5C) 16 16
  decide (lo * lo ≤ sq) && decide (sq ≤ hi * hi)

/-- The pair S, C reaches the tracking observer, after the strobe and within 256 cycles of it (R50). -/
def trkPair (p : Fin 8) (sn cs : BitVec 16) (c : Chip) : Chip :=
  if !(pbEn c p && (pbSrc c p == srcResolver || pbSrc c p == srcSdm)) then c
  else match c.pbs[p].strobeAt with
    | none => c
    | some t0 =>
      if c.now ≤ t0 ∨ t0 + 256 < c.now then c else
      let c := updPb p (fun b => { b with strobeAt := none, sinS := none, cosS := none }) c
      let c := c.unschedule (fun e => decide (e = .trackerTimeout p))
      let s := sn.toInt
      let k := cs.toInt
      if ampOk c p (s * s + k * k).toNat then
        let m := BitVec.ofNat 36 (trkAngle (c.fld (pbR p 0) 8 4 + 1) s k * 2 ^ 16)
        pushUpd p m (BitVec.ofNat 32 (t0 + trkTlat c p)) 14 false false none c
      else c.setBits (pbR p 8) (2 ^ 12)

/-- One of the two samples arrives (R50): the first after the strobe counts. -/
def trkOne (p : Fin 8) (isSin : Bool) (v : BitVec 16) (c : Chip) : Chip :=
  if c.pbs[p].strobeAt.all (fun t0 => decide (c.now ≤ t0) || decide (t0 + 256 < c.now)) then c
  else
    let c := updPb p (fun b =>
      if isSin then { b with sinS := if b.sinS.isSome then b.sinS else some v }
      else { b with cosS := if b.cosS.isSome then b.cosS else some v }) c
    match c.pbs[p].sinS, c.pbs[p].cosS with
    | some s, some k => trkPair p s k c
    | _, _ => c

/-- No pair within 256 cycles of the strobe (R50): the cycle after the last in which a sample counts. -/
def trkTimeout (p : Fin 8) (c : Chip) : Chip :=
  if c.pbs[p].strobeAt.isSome then
    (updPb p (fun b => { b with strobeAt := none, sinS := none, cosS := none }) c).setBits (pbR p 8) (2 ^ 12)
  else c

/-- The strobe (R50): the index event, and the samples that follow are awaited for 256 cycles. -/
def strobeNow (p : Fin 8) (c : Chip) : Chip :=
  if pbEn c p && (pbSrc c p == srcResolver || pbSrc c p == srcSdm) then
    let c := updPb p (fun b => { b with strobeAt := some c.now, sinS := none, cosS := none }) c
    let c := (c.unschedule (fun e => decide (e = .trackerTimeout p))).schedule 257 (.trackerTimeout p)
    pbEvent p 1 (c.setBits (pbR p 8) (2 ^ 17))
  else c

/-- One sample of the grid input (R51): the integrator, tuned to the present VB, takes it, and the arctangent of its parts is
the angle, 0 where the in-phase part crosses zero upward and the quadrature part, a quarter behind, is at its trough. The gain
and the arithmetic of the integrator's step are Config.gridStep (log 12). -/
def gridTake (p : Fin 8) (x : BitVec 16) (c : Chip) : Chip :=
  if pbEn c p && pbSrc c p == srcGrid then
    let b := c.pbs[p]
    let (i, q) := Config.gridStep (c.reg (pbR p 0x14)) (c.now - b.gridAt) b.gridI b.gridQ x.toInt
    let c := updPb p (fun b => { b with gridI := i, gridQ := q, gridAt := c.now }) c
    if ampOk c p (i * i + q * q).toNat then
      pushUpd p (BitVec.ofNat 36 (trkAngle 1 i (-q) * 2 ^ 16)) (c.capTime - BitVec.ofNat 32 (trkTlat c p)) 14 false false none c
    else c.setBits (pbR p 8) (2 ^ 12)
  else c

/-- A record of ADC[k] with input id `id` reaches the trackers (R50, R51). -/
def trkRecord (k id : Nat) (v : BitVec 16) (c : Chip) : Chip :=
  (List.finRange 8).foldl (fun (c : Chip) (p : Fin 8) =>
    let core := c.fld (pbR p 0x50) 0 5
    if pbSrc c p = srcGrid then
      if core = k ∧ c.fld (pbR p 0x50) 8 8 = id then gridTake p v c else c
    else if pbSrc c p = srcResolver then
      if core / 2 * 2 = k ∧ c.fld (pbR p 0x50) 8 8 = id then trkOne p true v c
      else if core / 2 * 2 + 1 = k ∧ c.fld (pbR p 0x50) 16 8 = id then trkOne p false v c else c
    else c) c

/-- A sinc3 output of SDM[k] reaches the trackers (R50). -/
def trkSdm (k : Nat) (v : BitVec 16) (c : Chip) : Chip :=
  (List.finRange 8).foldl (fun (c : Chip) (p : Fin 8) =>
    let core := c.fld (pbR p 0x50) 0 5 / 2 * 2
    if pbSrc c p = srcSdm then
      if core = k then trkOne p true v c else if core + 1 = k then trkOne p false v c else c
    else c) c

/-- A pulse of the selected discipline input (R52). -/
def disciplineNow (p : Fin 8) (c : Chip) : Chip :=
  if pbEn c p && pbSrc c p == srcTime && discOn c p then
    pushUpd p (BitVec.ofNat 36 (c.fld (pbR p 0x68) 0 20 * 2 ^ 16)) (c.capTime - BitVec.ofNat 32 (trkTlat c p)) 2 false
      false none c
  else c

/-! ### Register writes -/

/-- The exciter's phase in periods at cycle `t` (R50, 06 R167). -/
def excPhase (c : Chip) (p : Fin 8) (t : Nat) : Rat :=
  c.pbs[p].excPhi + ((t - c.pbs[p].excFrom : Nat) : Rat) / (max (c.fld (pbR p 0x54) 0 20) 12500 : Nat)

/-- ACQUIRE is entered with no updates accepted (R38, R44). -/
def enterAcquire (p : Fin 8) (c : Chip) : Chip :=
  tmoRestart p (updPb p (fun b => { b with nAcc := 0, prevUpd := none }) (setPbState p stAcquire c))

/-- The level of a capture channel, low from a channel that is off (R47, R57); its configuration counts from the cycle after
a write. -/
def capLevel (c : Chip) (k : Nat) : Bool :=
  if h : k < 64 then
    let v := c.reg0 (capR k 0)
    if !v.bit 0 then false
    else match v.fld 1 2 with
      | 0 => c.caps[k].level
      | 1 => capin c k
      | 2 => decide (v.fld 3 7 < 96) && winSettledB c (v.fld 3 7) && decide (1 ≤ winState c (v.fld 3 7))
      | _ => if h : v.fld 3 7 < 32 then c.sdms[v.fld 3 7].th1 || c.sdms[v.fld 3 7].th2 else false
  else false

/-- The decoders take the levels as they stand, with no update (R47, R49). -/
def sensLevels (p : Fin 8) (c : Chip) : Chip :=
  let k := sensCap c p
  let a := capLevel c k
  let b := capLevel c (k + 1)
  let z := capLevel c (k + 2)
  updPb p (fun x => { x with encA := a, encB := b, encZ := z,
                             hall := BitVec.ofNat 3 (a.toNat + 2 * b.toNat + 4 * z.toNat) }) c

/-- Enabling a phase base (R38, R47, R49; 03 R70): the decoders take the levels of this cycle as they stand. A Hall state that
SEQ does not list gives no interval (DESIGN CHOICE, log 98), and the exciter begins its phase here (DESIGN CHOICE, log 99). -/
def pbStart (p : Fin 8) (c : Chip) : Chip :=
  let c := sensLevels p (updPb p (fun x => { x with takeAt := some c.now }) c)
  let c := enterAcquire p c
  let c := if pbSrc c p = srcTime ∧ !discOn c p then setPbState p stTrack c else c
  let P : BitVec 36 := c.pbs[p].acc.setWidth 36
  let bound := if pbSrc c p = srcEnc then some (P, P + encStep c p)
    else if pbSrc c p = srcHall then (hallIx c p c.pbs[p].hall).map (fun i => (hallB c p i, hallB c p (i + 1)))
    else none
  let c := updPb p (fun x => { x with encP := P, bound := bound, pend := [], excFrom := c.now, excPhi := 0, excLast := 0,
                                      excGrid := c.now }) c
  schResidues p c

/-- Disabling (R38): the accumulator holds and the slew is cancelled; an update of the same cycle is discarded (R56). -/
def pbStop (p : Fin 8) (c : Chip) : Chip :=
  let c := (slewCancel p (setPbState p stOff (pbUndo p c))).unschedule (fun e => decide (e = .strobe p ∨ e = .trackerTimeout p))
  updPb p (fun b => { b with pend := [], tmoFrom := none, strobeAt := none, sinS := none, cosS := none }) c

/-- A write of PB_CFG (R38, R46, R63). An update that the former source has already given is still applied in its application
cycle when SRC is rewritten with EN = 1 (DESIGN CHOICE, log 119: R46 does not say). -/
def pbCfgWrite (p : Fin 8) (v : Word) (c : Chip) : Chip :=
  if c.sealed || v.fld 1 3 == 7 then c
  else
    let was := pbEn c p
    let c := c.setReg (pbR p 0) (v &&& 0xFFF)
    if v.bit 0 && !was then pbStart p c else if was && !v.bit 0 then pbStop p c else c

/-- A write of PB_ANG while EN = 0 (R64; 03 R70). -/
def pbAngWrite (p : Fin 8) (v : Word) (c : Chip) : Chip :=
  if c.sealed || pbEn c p then c
  else schResidues p (updPb p (fun b => { b with acc := v.setWidth 48 <<< 16 }) c)

/-- A write of PB_CTL (R38): ACQUIRE is entered, and an update of the same cycle is the first one accepted in it (R56). -/
def pbCtlWrite (p : Fin 8) (v : Word) (c : Chip) : Chip :=
  if v.bit 0 && pbState c p != stOff then
    let us := takenNow c p
    us.foldl (fun c x => applyUpd p x.u c) (enterAcquire p (slewCancel p (pbUndo p c)))
  else c

/-- The cycle of the last pulse of EVC[360 + p] before the present cycle (R53). -/
def pulseBefore (c : Chip) (p : Fin 8) : Option Nat :=
  if c.pbs[p].evcPulse = some c.now then c.pbs[p].evcPrev else c.pbs[p].evcPulse

/-- A write of PB_SWANG (R53). With no pulse to stamp by, STALE is set in the write's cycle (DESIGN CHOICE, log 100). -/
def swangWrite (p : Fin 8) (v : Word) (c : Chip) : Chip :=
  if !(pbEn c p && pbSrc c p == srcSoft) then c
  else
    let m := BitVec.ofNat 36 (v.fld 0 20 * 2 ^ 16)
    match c.fld (pbR p 0) 6 2 with
    | 1 => pushUpd p m (c.reg (pbR p 0x70)) 2 false false none c
    | 2 => match pulseBefore c p with
      | some t => pushUpd p m (BitVec.ofNat 32 t) 2 false false none c
      | none => c.setBits (pbR p 8) (2 ^ 13)
    | _ => pushUpd p m c.capTime 2 false false none c

/-- A write of PB_SWVEL (R53, R56). -/
def swvelWrite (p : Fin 8) (v : Word) (c : Chip) : Chip :=
  if pbSrc c p = srcSoft then setVB p v.toInt (updPb p (fun b => { b with swvelAt := some c.now }) c) else c

/-- A write of PB_VEL (R43, R63); the result of a filter step of the same cycle wins (R56). -/
def pbVelWrite (p : Fin 8) (v : Word) (c : Chip) : Chip :=
  if c.sealed || c.pbs[p].filtAt == some c.now then c else setVB p v.toInt c

/-- A write of PB_EXC (R64): the exciter's phase goes on from where it stands (06 R167). -/
def pbExcWrite (p : Fin 8) (v : Word) (c : Chip) : Chip :=
  if c.sealed then c
  else
    let phi := excPhase c p c.now
    let last := if c.pbs[p].excFrom = c.now then c.pbs[p].excLast else excPhase c p (c.now - 1)
    (updPb p (fun b => { b with excFrom := c.now, excPhi := phi, excLast := last }) c).setReg (pbR p 0x54) (BitVec.ofNat 32 (max (v.fld 0 20) 12500))

/-- A write of PB_SENS (R47, R49): new channels or a new direction take the levels as they stand in the next cycle. -/
def pbSensWrite (p : Fin 8) (v : Word) (c : Chip) : Chip :=
  if c.sealed then c
  else
    let old := c.reg (pbR p 0x40)
    let c := c.setReg (pbR p 0x40) (v &&& 0xFF)
    if pbEn c p && (old.fld 0 6 != v.fld 0 6 || old.bit 7 != v.bit 7) then
      (updPb p (fun b => { b with takeAt := some (c.now + 1) }) c).schedule 1 (.senseTake p) else c

/-! ### A cycle -/

/-- REV of the present cycle. -/
def revOf (c : Chip) (p : Fin 8) : BitVec 12 := (accEnd c p).extractLsb' 36 12

/-- The revolution event: source 352 + 4p pulses and REVF is set (R36). -/
def revNow (p : Fin 8) (c : Chip) : Chip :=
  pbEvent p 0 ((updPb p (fun b => { b with prevRev := revOf c p }) c).setBits (pbR p 8) (2 ^ 16))

/-- REV differs from the cycle before: the revolution event (R36). -/
def revCheck (p : Fin 8) (c : Chip) : Chip := if revOf c p = c.pbs[p].prevRev then c else revNow p c

/-- A bin entered by the travel of the present cycle commits the Pea domains bound to it (09 R223). -/
def binEntered (p : Fin 8) (c : Chip) : Chip :=
  let a := binOf (accPrev c p).toNat
  let b := binOf (accEnd c p).toNat
  if a = b || !pbEn c p then c else peaBinCommit p (bin4096 b) c

/-- |VA| of the present cycle exceeds PB_VMAX after a cycle in which it did not (R55). -/
def overCheck (p : Fin 8) (c : Chip) : Chip :=
  let fast := pbEn c p && decide ((c.fld (pbR p 0x30) 0 24 : Int) < absI (vaNow c p))
  let was := c.pbs[p].fast
  let c := updPb p (fun b => { b with fast := fast }) c
  if fast && !was then pbFault p 2 c else c

/-- The positive crest of the exciter falls in the present cycle: its phase has passed a quarter of a period (06 R167). -/
def excCrest (c : Chip) (p : Fin 8) : Bool :=
  let last := if c.pbs[p].excFrom = c.now then c.pbs[p].excLast else excPhase c p (c.now - 1)
  (excPhase c p c.now + 3 / 4).floor != (last + 3 / 4).floor

/-- What falls due in the present cycle for PB[p] after its updates: timeout, the crest whose strobe follows PB_EXCDLY cycles
later, overspeed, revolution, bin. A PB_TMO rewritten below the count that has already run lets no expiry follow until the next
restart (DESIGN CHOICE, log 118: R44 does not say). -/
def pbCycle (p : Fin 8) (c : Chip) : Chip :=
  let c := (List.range c.pbs[p].jlims).foldl (fun c _ => pbFault p 1 c) (updPb p (fun b => { b with jlims := 0 }) c)
  let c : Chip := match c.pbs[p].tmoFrom with
    | some t => if tmoRuns c p && c.now == t + 500 * c.fld (pbR p 0x34) 0 16 then timeout p c else c
    | none => c
  let c := if pbEn c p && (pbSrc c p == srcResolver || pbSrc c p == srcSdm) && excCrest c p then
      c.schedule (c.fld (pbR p 0x58) 0 20) (.strobe p) else c
  binEntered p (revCheck p (overCheck p c))

/-- The end of a cycle: the accumulator takes VA, the angle is retained, and the slew moves on (R35, R37, R41). -/
def pbEnd (p : Fin 8) (c : Chip) : Chip :=
  let va := if pbEn c p then vaNow c p else 0
  let a := accEnd c p
  let c := c.setReg (pbR p 0x18) (wordI (vaNow c p))
  let c := if va = 0 then c else c.putBit (pbR p 8) 2 (decide (va < 0))
  let c := match c.pbs[p].slew with
    | some sl =>
      let n := slewNext sl (slewMax c p)
      let c := updPb p (fun b => { b with slew := some n }) c
      if slewDone n then c.schedule 1 (.slewEnd p) else c
    | none => c
  updPb p (fun b => { b with acc := a, slew0 := b.slew, jump := 0, hist := ((a, wordI va) :: b.hist).take 256 }) c

/-- A slew whose steps have all been applied ends (R41). -/
def slewEndNow (p : Fin 8) (c : Chip) : Chip :=
  match c.pbs[p].slew with
  | some sl => if slewDone sl then slewCancel p c else c
  | none => c

end Sys2Proof.Machine
end

