-- ==== Sys2Proof/Machine/Capture.lean ====
section
/-! DEFINITION. Capture channels (02 R57 to R59): edges, records, the queue, and the levels handed to the decoders. -/

namespace Sys2Proof.Machine

/-- CAP_CFG as it governs the channel: a write counts from the cycle after it (R57, R65). -/
def capCfg (c : Chip) (k : Nat) : Word := c.reg0 (capR k 0)
def capEn (c : Chip) (k : Nat) : Bool := (capCfg c k).bit 0
def capSrc (c : Chip) (k : Nat) : Nat := (capCfg c k).fld 1 2

def updCap (k : Fin 64) (f : Capture → Capture) (c : Chip) : Chip := { c with caps := vmod c.caps k f }

/-- The decoders of PB[p] see their three levels (R47, R49): changes reach the selected decoder in the present cycle, A and B
together; the other one keeps up with the levels. -/
def sense (p : Fin 8) (c : Chip) : Chip :=
  let k := sensCap c p
  let a := capLevel c k
  let b := capLevel c (k + 1)
  let z := capLevel c (k + 2)
  if !pbEn c p then c
  else if pbSrc c p = srcEnc then
    let zr := z && !c.pbs[p].encZ
    let c := updPb p (fun x => { x with encZ := z, hall := BitVec.ofNat 3 (a.toNat + 2 * b.toNat + 4 * z.toNat) }) c
    let c := c.unschedule (fun e => match e with | .encCount q _ _ => q == p | _ => false)
    let c := c.schedule 0 (.encCount p a b)
    if zr then c.schedule 0 (.indexEdge p) else c
  else if pbSrc c p = srcHall then
    let c := updPb p (fun x => { x with encA := a, encB := b, encZ := z }) c
    let c := c.unschedule (fun e => match e with | .hallChange q _ => q == p | _ => false)
    c.schedule 0 (.hallChange p (BitVec.ofNat 3 (a.toNat + 2 * b.toNat + 4 * z.toNat)))
  else sensLevels p c

/-- The level of capture channel `k` may have changed: the phase bases that take it look at their inputs. -/
def capSeen (k : Nat) (c : Chip) : Chip :=
  (List.finRange 8).foldl (fun (c : Chip) (p : Fin 8) =>
    if decide (sensCap c p ≤ k) && decide (k ≤ sensCap c p + 2) then sense p c else c) c

/-- The record of an edge of the present cycle (R58), with θ as the cycle ends; a field that STAMP does not select is 0. -/
def capRecord (c : Chip) (k : Fin 64) (rise : Bool) : CapRec :=
  let v := capCfg c k
  let comp := v.fld 18 6
  let p : Fin 8 := Fin.ofNat 8 (v.fld 14 3)
  { time := if v.bit 12 then c.capTime - BitVec.ofNat 32 comp else 0,
    ang := if v.bit 13 then angWord (thetaAge c p comp) else 0, rise := rise, ovf := false }

/-- A record enters the queue of four (R59, 01 R19, R20). -/
def capStore (k : Fin 64) (r : CapRec) (c : Chip) : Chip :=
  let x := c.caps[k]
  if x.q.length < 4 then updCap k (fun x => { x with q := x.q ++ [{ r with ovf := x.lost }], lost := false }) c
  else
    let c := c.setBits (capR k 4) (2 ^ 3)
    if (capCfg c k).bit 17 then updCap k (fun x => { x with lost := true }) c
    else updCap k (fun x => { x with q := x.q.drop 1 ++ [{ r with ovf := true }], lost := false }) c

/-- Whether EDGE takes an edge (R57). -/
def capTakes (c : Chip) (k : Nat) (rise : Bool) : Bool :=
  match (capCfg c k).fld 10 2 with
  | 0 => rise
  | 1 => !rise
  | 2 => true
  | _ => false

/-- An edge on the input of an enabled channel (R57, R58): a pulse of source 0 is a rising edge and toggles the level. Its record
is stored as the cycle ends, after the reads of the cycle (R59, 01 R20). In the cycle that takes a new input nothing is an
edge. -/
def captureNow (k : Fin 64) (rise : Bool) (c : Chip) : Chip :=
  if !capEn c k then c
  else if c.caps[k].takeAt = some c.now then capSeen k c
  else
    let pulse := capSrc c k == 0
    let rise := rise || pulse
    let c := if pulse then updCap k (fun x => { x with level := !x.level }) c else c
    let c := if capTakes c k rise && (capCfg c k).fld 12 2 != 0 then updCap k (fun x => { x with edges := x.edges ++ [rise] }) c
      else c
    capSeen k c

/-- The edges of the cycle are stored. -/
def capLand (k : Fin 64) (c : Chip) : Chip :=
  updCap k (fun x => { x with edges := [] }) (c.caps[k].edges.foldl (fun c rise => capStore k (capRecord c k rise) c) c)

/-- The end of a cycle, before the angle is retained: every channel stores its edges. -/
def capEnd (c : Chip) : Chip :=
  (List.finRange 64).foldl (fun (c : Chip) (k : Fin 64) => if c.caps[k].edges.isEmpty then c else capLand k c) c

/-- The channel takes its input as it stands; the level of source 0 starts from 0 where the channel has been enabled or its source
changed (R57). -/
def capTakeNow (k : Fin 64) (c : Chip) : Chip :=
  capSeen k (if c.caps[k].clearAt = some c.now then updCap k (fun x => { x with level := false }) c else c)

/-- A write of CAP_CFG (R57, R63): a new input is taken as it stands in the next cycle, with no edge. -/
def capCfgWrite (k : Fin 64) (v : Word) (c : Chip) : Chip :=
  if c.sealed then c
  else
    let o := c.reg (capR k 0)
    let c := c.setReg (capR k 0) (v &&& 0x1FFFFFF)
    let next := some (c.now + 1)
    let anew := v.bit 0 && (!o.bit 0 || v.fld 1 2 != o.fld 1 2)
    let c := if anew then updCap k (fun x => { x with clearAt := next }) c else c
    let c := if anew || (v.bit 0 && v.fld 3 7 != o.fld 3 7) then updCap k (fun x => { x with takeAt := next }) c else c
    c.schedule 1 (.capTake k)

/-- CAP_STAT (R65). -/
def capStat (c : Chip) (k : Fin 64) : Word := (c.reg (capR k 4)).withFld 0 3 c.caps[k].q.length

/-- A read of CAP_RDT (R59). -/
def capRead (k : Fin 64) (c : Chip) : Word × Chip :=
  match c.caps[k].q with
  | [] => (0, (c.setReg (capR k 0xC) 0).setReg (capR k 0x10) 0)
  | r :: rest =>
    let c := updCap k (fun x => { x with q := rest }) c
    let f : Word := BitVec.ofNat 32 (1 + 2 * r.rise.toNat + 4 * r.ovf.toNat)
    (r.time, (c.setReg (capR k 0xC) r.ang).setReg (capR k 0x10) f)

end Sys2Proof.Machine
end

