-- ==== Sys2Proof/Machine/CorePriv.lean ====
section
/-! DEFINITION. The core-private registers (13 R305, R322, R323), core reset through LE_CTL (09 R213), waits of banks
(11 R273, R275), and interrupts reaching the cores. -/

namespace Sys2Proof.Machine

/-- BANK_STAT.STATE of a mode (R323). -/
def modeCode : BankMode → Nat
  | .idle => 0
  | .ready => 1
  | .running => 2
  | .waiting => 3
  | .dfhalt => 4

def bankStat (c : Chip) (k : CoreId) (b : Fin 8) : Word :=
  let x := bankGet c k b
  BitVec.ofNat 32 (x.count + 16 * x.sat.toNat + 32 * modeCode x.mode)

/-- BANK_CTL.RESTART (R323): IDLE, or for bank 0 its entry; counter 0, restart record emptied, registers kept. -/
def bankRestart (k : CoreId) (b : Fin 8) (c : Chip) : Chip :=
  let was := (coreGet c k).running
  let c := dropStalls k ((coreGet c k).stalls.filter (fun o => o.bank == b))
    (updCore k (fun s => { s with long := s.long.filter (fun o => o.bank != b) }) c)
  let c := updBank k b (fun x => { x with mode := .idle, count := 0, inAct := false, restart := [], saved := [], rep := none,
                                          wait := none, met := none }) c
  if b = 0 then
    let r := vectorWord k 0 0 c
    let f := r.2.free
    let c := match r.1 with
      | some pc => updBank k 0 (fun x => { x with pc := pc }) r.2
      | none => updBank k 0 (fun x => { x with pc := f.1 }) f.2
    updBank k 0 (fun x => { x with mode := if was = some 0 then .running else .ready }) c
  else if was = some b then selectBank k c else c

def bankCtlWrite (k : CoreId) (v : Word) (c : Chip) : Chip :=
  if v.bit 8 then bankRestart k (Fin.ofNat 8 (v.fld 0 3)) c else c

/-- A write of a core-private register at `off` that the privilege check let through. -/
def privWrite (k : CoreId) (off : Nat) (v : Word) (c : Chip) : Chip :=
  let a := privR k off
  let c := triOut k 4 [off, v.toNat] c
  if lockedOff off && off != 0xC && c.bit (lockR k) 0 then c
  else if off = 0 then c.setReg a (v &&& 0xFFFFFF80)
  else if off = 4 then c.setReg a (c.w1c a 3 v)
  else if off = 0xC then c.setBits a (v.fld 0 1)
  else if off = 0x10 then bankCtlWrite k v c
  else if 0x100 ≤ off ∧ off < 0x200 then
    let b : Fin 8 := Fin.ofNat 8 ((off - 0x100) / 0x20)
    let mid := decide (b ≠ 0 ∧ b ≠ 7)
    match off % 0x20 with
    | 0 => c.setReg a ((v &&& 7) ||| (if mid then 0 else 1))
    | 4 => if mid then c.setReg a v else c
    | 8 => if k.isNKS then c else c.setReg a (v &&& 0xFFFFFFFC)
    | 0xC => if v.bit 4 && (bankGet c k b).satAt != some c.now then updBank k b (fun x => { x with sat := false }) c else c
    | _ => c
  else if 0x400 ≤ off ∧ off < 0x900 then c.setReg a (v &&& 0xF)
  else if off = 0xC00 then c.setReg a (v &&& 1)
  else if 0xC40 ≤ off ∧ off < 0xC40 + 16 * mpuRegions k then
    match off % 16 with
    | 0 => c.setReg a (v &&& 0xFFFFFFE0)
    | 4 => c.setReg a (v &&& 0xFFFFFFE0)
    | 8 => c.setReg a (v &&& 0x7F)
    | _ => c
  else c

/-- A read of a core-private register. BANK_CTL is write-only and reads 0 (00 R6). -/
def privRead (k : CoreId) (off : Nat) (c : Chip) : Word :=
  let b : Fin 8 := Fin.ofNat 8 ((off - 0x100) / 0x20)
  if 0x100 ≤ off ∧ off < 0x200 ∧ off % 0x20 = 0xC then bankStat c k b
  else if 0x100 ≤ off ∧ off < 0x200 ∧ off % 0x20 = 0x10 then (bankGet c k b).faddr
  else c.reg (privR k off)

/-- A write by the running bank of a core through its private range: at PRIV 0, and where the protection unit denies it, it raises
vector 5 (R320, R323). -/
def privPort (k : CoreId) (off : Nat) (v : Word) : Chip → Chip := eachLane k (fun c =>
  match (coreGet c k).running with
  | none => c
  | some b =>
    if !coreLive c k then c
    else if privOf (bankGet c k b).st = 0 || !mpuOk c k (privOf (bankGet c k b).st) .write (0xE0000000 + off) then
      stopAt { k := k, b := b, pc := bankPc (bankGet c k b), nxt := bankPc (bankGet c k b), due := recogDue c k } 5
        (some (BitVec.ofNat 32 (0xE0000000 + off))) 0 c c
    else privWrite k off v c)

/-! ### LE_CTL (09 R213) -/

/-- A write of LE_CTL: RUN acts as the cycle ends. In the live reconfiguration of its slice the reset that RUN = 0 applies clears
CORE_LOCK too (13 R322); an engine held in core reset already keeps it (DEDUCED, log 142). -/
def leCtlWrite (n : Fin 24) (v : Word) (c : Chip) : Chip :=
  let was := c.bit (leR n 0) 0
  let c := c.setReg (leR n 0) (v &&& 1)
  if was && !v.bit 0 then updCore (.le n) (fun s => { s with stopDue := some (controlOk.liveOn c (n.val / 2)) }) c else c

/-- The end of a cycle for a loop engine: RUN written 0 puts it in core reset; with RUN = 1 it leaves core reset at the start of the
next cycle (R213). -/
def leTurn (n : Fin 24) (c : Chip) : Chip :=
  let c := match (coreGet c (.le n)).stopDue with
    | some unlock => coreReset (.le n) unlock c
    | none => c
  if (coreGet c (.le n)).inReset && c.bit (leR n 0) 0 then coreRelease (.le n) c else c

/-- LE_STAT.IDLE: out of core reset and no bank runs. -/
def leIdle (c : Chip) (n : Fin 24) : Bool := let s := coreGet c (.le n); !s.inReset && s.running.isNone

/-- LE_STAT (09). -/
def leStat (c : Chip) (n : Fin 24) : Word :=
  let s := coreGet c (.le n)
  (c.reg (leR n 4) &&& 0xFFFFFFF8) |||
    BitVec.ofNat 32 ((!s.inReset).toNat + 2 * (leIdle c n).toNat + 4 * s.halted.toNat)

/-! ### Waits (11 R273, R275) -/

/-- The wait of a bank is over with a result; it becomes ready. -/
def waitEnd (k : CoreId) (b : Fin 8) (r : Nat) : Chip → Chip :=
  eachLane k (updBank k b (fun x => if x.mode == .waiting then { x with mode := .ready, met := some r } else x))

/-- The angle and direction codes of a WAITT descriptor. -/
def waitAngle (d : Word) : Nat := d.fld 0 20
def waitPb (d : Word) : Fin 8 := Fin.ofNat 8 (d.fld 20 3)

/-- Whether PB[p]'s swept interval of the present cycle crosses an angle in an admitted direction (R275, 03 R79). -/
def waitCrossed (c : Chip) (d : Word) : Bool :=
  let p := waitPb d
  let t := travel c p
  let lo : Int := (accPrev c p).toNat
  let back := decide (t < 0)
  let dir := d.fld 24 2
  (pointIn (min lo (lo + t)) (max lo (lo + t)) (waitAngle d)).isSome && t != 0 && (2 ≤ dir || (dir == 1) == back)

/-- Whether a CAP_TIME count is reached (R275). -/
def timeReached (c : Chip) (t : Word) : Bool := decide (0 ≤ (c.capTime - t).toInt)

/-- The wait of a bank at the end of a cycle: MET before ABORT before TIMEOUT (R280). -/
def waitOne (k : CoreId) (b : Fin 8) (c : Chip) : Chip :=
  let x := bankGet c k b
  if x.mode == .waiting then
    match x.wait with
    | some (.angle _ d since tmo) =>
      if since < c.now && waitCrossed c d then waitEnd k b 0 c
      else if pbState c (waitPb d).val < stTrack then waitEnd k b 2 c
      else match tmo with
        | some t => if t ≤ c.now then waitEnd k b 1 c else c
        | none => c
    | some (.time _ t) => if timeReached c t then waitEnd k b 0 c else c
    | _ => c
  else c

def allCores : List CoreId :=
  .triton :: (List.finRange 4).map .app ++ .mge :: (List.finRange 24).map .le

/-- Every wait of every core that executes. -/
def waitScan (c : Chip) : Chip :=
  allCores.foldl (fun (c : Chip) k =>
    if coreLive c k then (List.finRange 8).foldl (fun (c : Chip) (b : Fin 8) => waitOne k b c) c else c) c

end Sys2Proof.Machine
end

