-- ==== Sys2Proof/Machine/CoreSystem.lean ====
section
/-! DEFINITION. The system instructions (12 R293, 11 R251 to R255, R267, R273 to R275) and the core's own events
(13 R298, R308, R323). -/

namespace Sys2Proof.Machine

/-- The running bank gives up the core with PC at `pc`: outstanding long instructions complete (only a preemption
abandons them, 13 R301); the scheduler chooses as the cycle ends. -/
def switchAway (cx : Cx) (f : BankS → BankS) (c : Chip) : Chip :=
  let c := completeIf cx.k (fun _ => true) c
  updBank cx.k cx.b (fun x => f { x with pc := cx.nxt, restart := [], rep := none }) c

/-- Whether a LEVEL source routed to a bank is still asserted (13 R307); 0 and 7 route nowhere (R323). -/
def levelHeld (c : Chip) (k : CoreId) (b : Fin 8) : Bool :=
  b != 0 && b != 7 && (List.range 320).any (fun i => (coreGet c k).irq.getLsbD i && delivered c k i && c.bit (routeR k i) 3 && c.fld (routeR k i) 0 3 == b.val)

/-- The entry of the executing bank into WAITING, which the lanes of Triton compare (14 R326). -/
def waitNote (cx : Cx) (c : Chip) : Chip := triOut cx.k 2 [3, cx.b.val] c

/-- NOP (R293). -/
def execNop (h : Hdr) (s : State) : Host.Outcome State Fault Refusal :=
  s.onChip (instr h (gSpec [] [] []) (fun _ c => (.next, c)))

/-- YIELD (13 R307): in bank 0 a NOP. -/
def execYield (h : Hdr) (s : State) : Host.Outcome State Fault Refusal :=
  s.onChip (instr h (sysSpec [] [] []) (fun cx c =>
    if cx.b = 0 then (.next, c)
    else (.own, yieldBank cx.k cx.b (levelHeld c cx.k cx.b) (switchAway cx id c))))

/-- WFE (11 R273). -/
def execWfe (h : Hdr) (s : State) : Host.Outcome State Fault Refusal :=
  s.onChip (instr h (sysSpec [] [] []) (fun cx c =>
    if (bankGet c cx.k cx.b).latch then (.next, updBank cx.k cx.b (fun x => { x with latch := false }) c)
    else (.own, switchAway cx (fun x => { x with mode := .waiting, wait := some (.event c.now) }) (waitNote cx c))))

/-- A repeat prefix (11 R267). A condition that fails, and an LC of 0, skip the pair; a pair that may not be is illegal all the same
(11 R256, R268). -/
def repeatPair (h : Hdr) (pair : RepPair) (unint : Bool) (c : Chip) : Chip :=
  instr { h with cond := 0 } { sysSpec [] [] [] with ok := pair.ok, reads := condReads h.cond } (fun cx c =>
    let x := bankGet c cx.k cx.b
    let n := if unint then min x.lc.toNat 16 else x.lc.toNat
    if !condHolds x.st h.cond || n == 0 then (.jump (cx.nxt + BitVec.ofNat 32 pair.len), c)
    else (.own, updBank cx.k cx.b (fun x =>
      { x with rep := some { pre := cx.pc, repu := unint, left := n, begun := false }, pc := cx.nxt, restart := [] }) c)) c

/-- REP (11 R267). -/
def execRep (h : Hdr) (pair : RepPair) (s : State) : Host.Outcome State Fault Refusal :=
  s.onChip (repeatPair h pair false)

/-- REPU (11 R267). -/
def execRepu (h : Hdr) (pair : RepPair) (s : State) : Host.Outcome State Fault Refusal :=
  s.onChip (repeatPair h pair true)

/-- A system instruction whose operand is legal below a bound (R293). -/
def argSpec (v : Word) (bound : Nat) (sp : Spec) : Spec := { sp with ok := decide (v.toNat < bound) }

/-- SETC (11 R255). -/
def execSetc (h : Hdr) (code : Word) (s : State) : Host.Outcome State Fault Refusal :=
  s.onChip (instr h (argSpec code 16 (sysSpec [] [] [pcondR])) (onBank (fun x => { x with st := x.st.withFld 8 4 code.toNat })))

/-- BRK: vector 11 (13 R313). -/
def execBrk (h : Hdr) (s : State) : Host.Outcome State Fault Refusal :=
  s.onChip (instr h (sysSpec [] [] []) (fun _ c => (.exc 11 none 0, c)))

/-- TRAP n: vector 16 + n (13 R313). -/
def execTrap (h : Hdr) (n : Word) (s : State) : Host.Outcome State Fault Refusal :=
  s.onChip (instr h (argSpec n 16 (sysSpec [] [] [])) (fun _ c => (.exc (16 + n.toNat) none 0, c)))

/-- FENCE waits until the stores of a loop engine that are on their way have landed (09 R214); the store buffer of an NK-L core drains
(13 R296). -/
def fenceDrain (cx : Cx) (c : Chip) : Flow × Chip :=
  let c := drainStores cx.k c
  if (coreGet c cx.k).stores.isEmpty then (.next, c)
  else (.own, updCore cx.k (fun s => { s with stalls := s.stalls ++
    [{ bank := cx.b, addr := cx.pc, kind := .drain cx.nxt, fp := false, rd := none, reads := [], vflag := none,
       dz := false, qf := false, nzcv := none, ff := 0 }] }) c)

/-- FENCE: the earlier loads and stores of the bank complete (R293). -/
def execFence (h : Hdr) (s : State) : Host.Outcome State Fault Refusal :=
  s.onChip (instr h (sysSpec [] [] []) (fun cx c => fenceDrain cx (completeIf cx.k (fun _ => true) c)))

/-- FENCE.I: as FENCE; then the instruction cache is refetched, the fetch buffer not being modelled (R293, 13 R297, R319; log 35). -/
def execFenceI (h : Hdr) (s : State) : Host.Outcome State Fault Refusal :=
  s.onChip (instr h (sysSpec [] [] []) (fun cx c =>
    fenceDrain cx (updCore cx.k (fun s => { s with icache := [] }) (completeIf cx.k (fun _ => true) c))))

/-- RTE (13 R315). -/
def execRte (h : Hdr) (s : State) : Host.Outcome State Fault Refusal :=
  s.onChip (instr h (sysSpec [] [] nzcvR) (fun cx c =>
    (.own, returnException cx.k cx.b (completeIf cx.k (fun _ => true) c))))

/-- TIME: CAP_TIME, on NK-L at most 4 cycles old, how old being open (11 R252; log 5). -/
def timeValue (k : CoreId) (c : Chip) : Word × Chip :=
  if k.isNKS then (c.capTime, c) else let f := c.free; (c.capTime - BitVec.ofNat 32 (f.1.toNat % 5), f.2)

/-- The value of a system register (11 R252). -/
def sysRead (cx : Cx) (n : Nat) (c : Chip) : Word × Chip :=
  let x := bankGet c cx.k cx.b
  match n with
  | 0 => (x.st, c)
  | 1 => (x.epc, c)
  | 2 => (x.est, c)
  | 3 => (x.lc, c)
  | 4 => ((coreGet c cx.k).fcsr, c)
  | 5 => (BitVec.ofNat 32 cx.k.code, c)
  | 6 => (BitVec.ofNat 32 cx.b.val, c)
  | _ => timeValue cx.k c

/-- What RDSR and WRSR name: the numbers that exist, FCSR on NK-L only, and the flags that they read or write. -/
def sysRegSpec (k : CoreId) (sr : BitVec 8) (wr : Bool) (sp : Spec) : Spec :=
  let n := sr.toNat
  { sp with ok := decide (n < (if wr then 5 else 8)) && !(n == 4 && k.isNKS)
            fp := n == 4
            reads := if wr then sp.reads else sp.reads ++ own n
            writes := if wr then sp.writes ++ own n else sp.writes }
where
  own (n : Nat) : List Nat :=
    if n = 0 then pcondR :: nzcvR ++ [flagR stDZ, flagR stQ] else if n = 4 then [fcsrR, fctlR] else []

/-- RDSR (11 R252). -/
def execRdsr (h : Hdr) (rd : Fin 32) (sr : BitVec 8) (s : State) : Host.Outcome State Fault Refusal :=
  s.onChip (instr h (sysRegSpec h.core sr false (sysSpec [rd] [] [])) (fun cx c =>
    let n := sr.toNat
    if (n = 1 ∨ n = 2) ∧ privOf (bankGet c cx.k cx.b).st = 0 then (.exc 3 none 0, c)
    else let r := sysRead cx n c; (.next, updBank cx.k cx.b (fun x => x.setG rd r.1) r.2)))

/-- The fields of ST that software writes at PRIV 0 and above (11 R251). -/
def stUser : Word := 0x00000F7F
def stSuper : Word := 0x0000FF7F
def merge (m old v : Word) : Word := (old &&& ~~~ m) ||| (v &&& m)

/-- A write of ST (11 R251); it serialises (13 R315). -/
def stWrite (cx : Cx) (v : Word) (c : Chip) : Flow × Chip :=
  let st := (bankGet c cx.k cx.b).st
  let c' (w : Word) : Chip := updCore cx.k (fun s => { s with afterSt := true }) (updBank cx.k cx.b (fun x => { x with st := w }) c)
  if privOf st = 0 then (.next, c' (merge stUser st v))
  else if privOf st < privOf v ∨ privOf v = 3 then (.exc 3 none 0, c)
  else (.next, c' (merge stSuper st v))

/-- WRSR (11 R252). -/
def execWrsr (h : Hdr) (sr : BitVec 8) (ra : Fin 32) (s : State) : Host.Outcome State Fault Refusal :=
  s.onChip (instr h (sysRegSpec h.core sr true (sysSpec [] [ra] [])) (fun cx c =>
    let x := bankGet c cx.k cx.b
    let v := x.gr ra
    match sr.toNat with
    | 0 => stWrite cx v c
    | 1 => if privOf x.st = 0 then (.exc 3 none 0, c) else (.next, updBank cx.k cx.b (fun x => { x with epc := v }) c)
    | 2 =>
      if privOf x.st = 0 then (.exc 3 none 0, c)
      else (.next, updBank cx.k cx.b (fun x => { x with est := merge stSuper x.est v }) c)
    | 3 => (.next, updBank cx.k cx.b (fun x => { x with lc := v }) c)
    | _ => (.next, updCore cx.k (fun s => { s with fcsr := v &&& 0x001F1F0F }) c)))

/-- The doorbells of SEV are on their way to the cores of the sender's plane, to Triton through its input vote (14 R331); the same line
reaching one core twice in one cycle is one arrival (11 R274, R280). -/
def sendDoorbells (k : CoreId) (mask : Word) (d : Fin 32) (c : Chip) : Chip :=
  (bitsOf mask).foldl (fun (c : Chip) i => match coreOfBit i with
    | some t =>
      let n := if k = .triton then 1 else 1 + inputDelay t
      if corePlane t = corePlane k ∧ !(c.agenda.contains (c.now + n, .doorbell t d)) then c.schedule n (.doorbell t d) else c
    | none => c) (triOut k 3 [mask.toNat, d.val] c)

/-- SEV (11 R274). -/
def execSev (h : Hdr) (ra : Fin 32) (d : Word) (s : State) : Host.Outcome State Fault Refusal :=
  s.onChip (instr h (argSpec d 32 (sysSpec [] [ra] [])) (fun cx c =>
    (.next, sendDoorbells cx.k ((bankGet c cx.k cx.b).gr ra) (Fin.ofNat 32 d.toNat) c)))

/-- The bits of a WAITT descriptor that must be 0 (11 R275). -/
def waitReserved : Word := 0xF8800000

/-- What WAITT gives at issue: a result, or the wait (11 R275). -/
def waitIssue (cx : Cx) (rd : Fin 32) (d v : Word) (c : Chip) : Nat ⊕ WaitKind :=
  if d &&& waitReserved ≠ 0 then .inl 4
  else if d.bit 26 then (if timeReached c v then .inl 0 else .inr (.time rd v))
  else if corePlane cx.k ≠ .control then .inl 3
  else if pbState c (waitPb d).val < stTrack then .inl 2
  else .inr (.angle rd d c.now (if v = 0 then none else some (c.now + v.toNat)))

/-- WAITT (11 R275). -/
def execWaitt (h : Hdr) (rd ra rb : Fin 32) (s : State) : Host.Outcome State Fault Refusal :=
  s.onChip (instr h (sysSpec [rd] [ra, rb] [flagR stZ]) (fun cx c =>
    let x := bankGet c cx.k cx.b
    match waitIssue cx rd (x.gr ra) (x.gr rb) c with
    | .inl r => (.next, updBank cx.k cx.b (fun x =>
        { x.setG rd (BitVec.ofNat 32 r) with st := x.st.withBit stZ (r == 0) }) c)
    | .inr w => (.own, switchAway cx (fun x => { x with mode := .waiting, wait := some w }) (waitNote cx c))))

/-- WAITT_CONDITION (11 R275): the condition is met, or PB[p] leaves TRACK and COAST. -/
def execWaittCondition (k : CoreId) (b : Fin 8) (abort : Bool) (s : State) : Host.Outcome State Fault Refusal :=
  s.onChip (eachLane k (fun c => match (bankGet c k b).wait with
    | some (.angle _ _ _ _) => waitEnd k b (if abort then 2 else 0) c
    | some (.time _ _) => if abort then c else waitEnd k b 0 c
    | _ => c))

/-- WAITT_TIMEOUT (11 R275). -/
def execWaittTimeout (k : CoreId) (b : Fin 8) (s : State) : Host.Outcome State Fault Refusal :=
  s.onChip (eachLane k (fun c => match (bankGet c k b).wait with
    | some (.angle _ _ _ (some _)) => waitEnd k b 1 c
    | _ => c))

/-- LONG_INSTRUCTION_COMPLETE (13 R298): outstanding instruction `i` in program order. -/
def execLongInstructionComplete (k : CoreId) (i : Fin 4) (s : State) : Host.Outcome State Fault Refusal :=
  s.onChip (eachLane k (fun c => match (coreGet c k).long[i.val]? with
    | some o => if k = .triton ∧ triStopped c then c else completeIf k (fun p => p == o) c
    | none => c))

/-- RECOGNITION (13 R308), behind the choice for a bank that has yielded or waits. -/
def execRecognition (k : CoreId) (s : State) : Host.Outcome State Fault Refusal :=
  s.onChip (eachLane k (fun c => if coreLive c k then recognise k (settle k c) else c))

/-- BANK_CTL (13 R323). -/
def execBankCtl (k : CoreId) (v : Word) (s : State) : Host.Outcome State Fault Refusal := s.onChip (privPort k 0x10 v)

/-- CORE_LOCK (13 R322). -/
def execCoreLock (k : CoreId) (v : Word) (s : State) : Host.Outcome State Fault Refusal := s.onChip (privPort k 0xC v)

/-- LE_RUN (09 R213). -/
def execLeRun (ini : Initiator) (n : Fin 24) (v : Word) (s : State) : Host.Outcome State Fault Refusal :=
  s.onChip (gatedWrite ini (leR n 0) (leCtlWrite n v))

end Sys2Proof.Machine
end

