-- ==== Sys2Proof/Machine/DmaCore.lean ====
section
/-! DEFINITION. DMA channels (15 R347 to R365): registers, states, triggers, doorbells, errors and aborts; the memory
registers; the rotating arbiter of the fabric. -/

namespace Sys2Proof.Machine

/-! ### Arbitration (R346) -/

/-- The first requester at or after `p` among `n`. -/
def firstFrom (n p : Nat) (req : Nat → Bool) : Option Nat :=
  ((List.range n).map (fun i => (p + i) % n)).find? req

/-- Where the holder of the grant requests no longer, its run is over and the pointer moves past it. -/
def arbRest (n : Nat) (a : Arb) (req : Nat → Bool) : Arb :=
  if a.used = 0 ∨ req a.ptr then a else { ptr := (a.ptr + 1) % n, used := 0 }

/-- One grant: a requester keeps the grant for up to its weight of bursts in a row while it keeps requesting, then the pointer moves
past it. -/
def arbGrant (n : Nat) (a : Arb) (req : Nat → Bool) (weight : Nat → Nat) : Option (Nat × Arb) :=
  (firstFrom n a.ptr req).map (fun i =>
    let used := if i = a.ptr then a.used + 1 else 1
    (i, if weight i ≤ used then { ptr := (i + 1) % n, used := 0 } else { ptr := i, used := used }))

/-- The weight of port I[i]; 0 acts as 1 (15 R363). -/
def fabWeight (c : Chip) (i : Nat) : Nat := max (c.fld (memR (4 * i)) 0 4) 1

/-! ### Channels -/

def dmaCh (c : Chip) (u : Fin 2) (ch : Fin 32) : DmaCh := c.dmas[u].chans[ch]
def updDma (u : Fin 2) (f : DmaUnit → DmaUnit) (c : Chip) : Chip := { c with dmas := vmod c.dmas u f }
def updCh (u : Fin 2) (ch : Fin 32) (f : DmaCh → DmaCh) : Chip → Chip :=
  updDma u (fun x => { x with chans := vmod x.chans ch f })

def cstatR (u : Fin 2) (ch : Fin 32) : Nat := dmaC u ch 0xC
def dmaState (c : Chip) (u : Fin 2) (ch : Fin 32) : Nat := c.fld (cstatR u ch) 0 3
def setDmaState (u : Fin 2) (ch : Fin 32) (x : Nat) (c : Chip) : Chip := c.setFld (cstatR u ch) 0 3 x

/-- The states of R355 by their code. -/
def dsOff : Nat := 0
def dsIdle : Nat := 1
def dsFetch : Nat := 2
def dsWait : Nat := 3
def dsActive : Nat := 4
def dsEnd : Nat := 5
def dsError : Nat := 6

def dmaEn (c : Chip) (u : Fin 2) (ch : Fin 32) : Bool := c.bit (dmaC u ch 0) 0
/-- QUOTA; 0 acts as 1. -/
def dmaQuota (c : Chip) (u : Fin 2) (ch : Fin 32) : Nat := max (c.fld (dmaC u ch 0) 7 8) 1
def dmaQuotas (c : Chip) (u : Fin 2) : Nat :=
  (List.finRange 32).foldl (fun n (ch : Fin 32) => if dmaEn c u ch then n + dmaQuota c u ch else n) 0
def dmaSlots (c : Chip) (u : Fin 2) : Nat :=
  (List.finRange 32).foldl (fun n (ch : Fin 32) => n + (dmaCh c u ch).slots.length) 0
def dmaContexts (c : Chip) (u : Fin 2) : Nat :=
  ((List.finRange 32).filter (fun (ch : Fin 32) => !(dmaCh c u ch).slots.isEmpty)).length

/-- The first key of slot `h` of a unit's buffer, whose ECC words it holds (15 R340). -/
def slotKey (u : Fin 2) (h : Nat) : Nat := 2 ^ 32 * (33 + u.val) + 64 * h

/-- The lowest free slot of a unit's buffer: which one a burst fills shows only in the error log (DESIGN CHOICE, log 111). -/
def slotFree (c : Chip) (u : Fin 2) : Nat :=
  ((List.range 256).find? (fun h => (List.finRange 32).all (fun (ch : Fin 32) => (dmaCh c u ch).slots.all (fun s => s.home != h)))).getD 0

/-- DMA_USTAT, DMA_UIRQ and DMA_CPROG (R364). Rows remain until their last read has been issued (DEDUCED, log 38). -/
def dmaUstat (c : Chip) (u : Fin 2) : Word :=
  BitVec.ofNat 32 (dmaContexts c u + 2 ^ 8 * (256 - dmaSlots c u) + 2 ^ 17 * dmaQuotas c u)
def dmaIrq (c : Chip) (u : Fin 2) (ch : Fin 32) : Bool := c.fld (cstatR u ch) 8 6 &&& c.fld (dmaC u ch 0x18) 8 6 != 0
def dmaUirq (c : Chip) (u : Fin 2) : Word :=
  (List.finRange 32).foldl (fun (w : Word) (ch : Fin 32) => if dmaIrq c u ch then w ||| BitVec.ofNat 32 (2 ^ ch.val) else w) 0
def dmaProg (c : Chip) (u : Fin 2) (ch : Fin 32) : Word :=
  match (dmaCh c u ch).cur with
  | some d => BitVec.ofNat 32 (d.rows - (dmaCh c u ch).row)
  | none => 0

/-- The initiator that a channel is. -/
def dmaIni (u : Fin 2) (ch : Fin 32) : Initiator := if u = 0 then .dma0 else .dma1 ch

/-! ### Errors (R359) -/

/-- Word 7 as written with an error code. -/
def word7 (done : Bool) (code rows : Nat) : Nat := done.toNat + 2 * code + 2 ^ 16 * (rows % 2 ^ 16)

/-- Whether a descriptor lies aligned in system SRAM. -/
def descOk (a : Nat) : Bool := decide (0x10000000 ≤ a) && decide (a < 0x11000000) && a % 32 == 0

/-- A write of system SRAM by an engine: false for an error response. -/
def sramPut (a n x : Nat) (c : Chip) : Bool × Chip := if domainsUp c a then memWrite a n x c else (false, pdaccf c)
def sramGet (a n : Nat) (c : Chip) : Option Nat × Chip := if domainsUp c a then memRead a n c else (none, pdaccf c)

/-- The channel enters ERROR with a code and the faulting address, in the descriptor of fly `f`. -/
def dmaError (u : Fin 2) (ch : Fin 32) (code addr : Nat) (f : Option DmaFly) (c : Chip) : Chip :=
  let c := ((setDmaState u ch dsError c).setFld (cstatR u ch) 16 4 code).setReg (dmaC u ch 0x20) (BitVec.ofNat 32 addr)
  let c := match f with
    | some f => if c.bit (dmaC u ch 0) 23 && descOk f.addr then (sramPut (f.addr + 28) 4 (word7 false code f.rdone) c).2 else c
    | none => c
  let c := peaForget (iniIx (dmaIni u ch)) (updCh u ch (fun x => { DmaCh.reset with seq := x.seq }) c)
  let c := c.setBits (cstatR u ch) (2 ^ 10)
  raiseFault (144 + u.val) (c.reg (dmaC u ch 0x20)) c

/-! ### Start of a descriptor -/

/-- The fetch of a descriptor begins: words 0 to 5 are on their way (R355, R356). -/
def dmaFetch (u : Fin 2) (ch : Fin 32) (a : Nat) (c : Chip) : Chip :=
  setDmaState u ch dsFetch (c.setReg (dmaC u ch 0x14) (BitVec.ofNat 32 a))

/-- The read of a link word is issued, which clears RECHECK; a doorbell of the same cycle leaves it set (R356, R361). -/
def linkIssue (u : Fin 2) (ch : Fin 32) (c : Chip) : Chip :=
  updCh u ch (fun x => { x with link := true, ending := false })
    (if (dmaCh c u ch).bell = some c.now then c else c.clrBits (cstatR u ch) 8)

/-- A pending trigger is consumed, if there is one. -/
def trigTake (u : Fin 2) (ch : Fin 32) (c : Chip) : Option Chip :=
  let n := c.fld (cstatR u ch) 4 4
  if n = 0 then none else some (c.setFld (cstatR u ch) 4 4 (n - 1))

/-- The next row may be read, or waits for its trigger (R357): TMODE 1 consumes one before row 0, TMODE 2 before each. -/
def rowStart (u : Fin 2) (ch : Fin 32) (c : Chip) : Chip :=
  let x := dmaCh c u ch
  match x.cur with
  | none => c
  | some d =>
    let needs := d.tmode == 2 || (d.tmode == 1 && x.row == 0)
    if x.rowOn || d.rows ≤ x.row then c
    else if needs then
      match trigTake u ch c with
      | some c => setDmaState u ch dsActive (updCh u ch (fun x => { x with rowOn := true }) c)
      | none => setDmaState u ch dsWait c
    else setDmaState u ch dsActive (updCh u ch (fun x => { x with rowOn := true }) c)

/-! ### Triggers and doorbells -/

/-- A trigger of a channel (R357): counted, and discarded with TRIGOVF at 15. -/
def dmaTrig (u : Fin 2) (ch : Fin 32) (c : Chip) : Chip :=
  if !dmaEn c u ch then c
  else
    let n := c.fld (cstatR u ch) 4 4
    let c := if n = 15 then c.setBits (cstatR u ch) (2 ^ 12) else c.setFld (cstatR u ch) 4 4 (n + 1)
    if dmaState c u ch = dsWait ∧ (dmaCh c u ch).abort = none then rowStart u ch c else c

/-- A doorbell (R355, R356). -/
def dmaDoorbell (u : Fin 2) (ch : Fin 32) (c : Chip) : Chip :=
  let s := dmaState c u ch
  let c := updCh u ch (fun x => { x with bell := some c.now }) c
  if (dmaCh c u ch).abort.isSome then c
  else if s = dsIdle then dmaFetch u ch (c.reg (dmaC u ch 0x10)).toNat c
  else if s = dsFetch ∨ s = dsWait ∨ s = dsActive then
    if (dmaCh c u ch).ending then linkIssue u ch c else c.setBits (cstatR u ch) 8
  else if s = dsEnd then (if (dmaCh c u ch).link then c.setBits (cstatR u ch) 8 else linkIssue u ch c)
  else c

/-! ### Completion (R354, R356) -/

/-- The channel enters IDLE_AT_END. -/
def dmaAtEnd (u : Fin 2) (ch : Fin 32) (c : Chip) : Chip :=
  setDmaState u ch dsEnd ((updCh u ch (fun x => { x with ending := false }) c).setBits (cstatR u ch) (2 ^ 9))

/-- The doorbell of a completed descriptor, to the cores of the channel's plane (R354, 11 R274). -/
def dmaEvent (u : Fin 2) (ch : Fin 32) (c : Chip) : Chip :=
  let m := c.reg (dmaC u ch 0x1C)
  let d : Fin 32 := Fin.ofNat 32 (c.fld (dmaC u ch 0) 18 5)
  allCores.foldl (fun (c : Chip) k =>
    if m.bit k.code && corePlane k == c.plane (dmaIni u ch) then c.schedule 1 (.doorbell k d) else c) c

/-- The oldest descriptor completes where every write of it is done and its link word has been read (R354). -/
def descDone (u : Fin 2) (ch : Fin 32) (c : Chip) : Chip :=
  match (dmaCh c u ch).fly with
  | [] => c
  | f :: rest =>
    match f.link with
    | none => c
    | some (irq, evt) =>
      if !f.allRead ∨ f.rdone < f.rows then c
      else
        let wb := if c.bit (dmaC u ch 0) 23 then sramPut (f.addr + 28) 4 (word7 true 0 f.rdone) c else (true, c)
        if !wb.1 then dmaError u ch 2 (f.addr + 28) none wb.2
        else
          let c := updCh u ch (fun x => { x with fly := rest, lastDone := f.rdone }) wb.2
          let c := if irq then c.setBits (cstatR u ch) (2 ^ 8) else c
          let c := if evt then dmaEvent u ch c else c
          if rest.isEmpty && (dmaCh c u ch).ending then dmaAtEnd u ch c else c

/-! ### Abort, reset, configuration (R349, R360) -/

/-- Further issue stops: slots are freed, pending triggers and RECHECK cleared; the end follows (R360). -/
def dmaStop (u : Fin 2) (ch : Fin 32) (isAbort : Bool) (c : Chip) : Chip :=
  let c := peaForget (iniIx (dmaIni u ch)) (updCh u ch (fun x => { DmaCh.reset with seq := x.seq, abort := some isAbort }) c)
  let c := (c.setFld (cstatR u ch) 4 4 0).clrBits (cstatR u ch) 8
  c.schedule 1 (.abortComplete u ch)

/-- Nothing remains outstanding: IDLE, or OFF where EN is 0; ABORT sets ABORTF (R360, R361). -/
def dmaStopped (u : Fin 2) (ch : Fin 32) (c : Chip) : Chip :=
  match (dmaCh c u ch).abort with
  | none => c
  | some isAbort =>
    let c := updCh u ch (fun x => { x with abort := none }) c
    let c := setDmaState u ch (if dmaEn c u ch then dsIdle else dsOff) c
    if isAbort then c.setBits (cstatR u ch) (2 ^ 11) else c

/-- A write of DMA_CCTL: RESET in any state; ABORT in FETCH, WAITTRIG or ACTIVE, behind a completion of the same cycle (R361). -/
def dmaCtlWrite (u : Fin 2) (ch : Fin 32) (v : Word) (c : Chip) : Chip :=
  let c := if v.bit 1 && !v.bit 0 && dmaEn c u ch then descDone u ch c else c
  let s := dmaState c u ch
  if v.bit 0 then dmaStop u ch false c
  else if v.bit 1 && (s == dsFetch || s == dsWait || s == dsActive) && (dmaCh c u ch).abort.isNone then dmaStop u ch true c
  else c

/-- A write of DMA_CCFG (R349): refused with QUOTAF where the quotas of the enabled channels would exceed 256; PLANE and
QUOTA keep their values from SEAL onward (R362); PLANE is 0 in DMA[0]. -/
def dmaCfgWrite (u : Fin 2) (ch : Fin 32) (v : Word) (c : Chip) : Chip :=
  let a := dmaC u ch 0
  let old := c.reg a
  let v := v &&& 0x00FFFFFF
  let v := if u = 0 then v &&& 0xFFFFFFFD else v
  let v := if c.sealed then merge 0x7F82 v old else v
  let c' := c.setReg a v
  let grows := v.bit 0 && (!old.bit 0 || v.fld 7 8 != old.fld 7 8)
  if grows && decide (256 < dmaQuotas c' u) then c.setBits (cstatR u ch) (2 ^ 13)
  else if !old.bit 0 && v.bit 0 then setDmaState u ch dsIdle c'
  else if old.bit 0 && !v.bit 0 then dmaStop u ch false c'
  else c'

/-- DMA_CNEXT accepts writes only in IDLE (R355). -/
def dmaNextWrite (u : Fin 2) (ch : Fin 32) (v : Word) (c : Chip) : Chip :=
  if dmaState c u ch = dsIdle then c.setReg (dmaC u ch 0x10) (v &&& 0xFFFFFFE0) else c

/-! ### Memory registers (15 R363) -/

/-- MEM_LOGA pops the error log (R345). -/
def memLogPop (c : Chip) : Word × Chip :=
  match c.ecc.log with
  | e :: rest => (e.addr, ({ c with ecc := { c.ecc with log := rest } } : Chip).setReg (memR 0x5C) e.info)
  | [] => (0, c.setReg (memR 0x5C) 0)

/-- The memory of an id as bytes of keys: its first key, its size and its ECC word (R340). -/
def memOf (id : Nat) : Option (Nat × Nat × Nat) :=
  if id < 8 then some (0x10000000 + 0x200000 * id, 0x200000, 8)
  else if id < 11 then some (laneBase (Fin.ofNat 3 (id - 8)), 0x20000, 8)
  else if id < 15 then some (2 ^ 32 * (1 + (id - 10)), 0x20000, 8)
  else if id = 15 then some (2 ^ 32 * 6, 0x10000, 4)
  else if id < 40 then some (0x22000000 + 0x2000 * (id - 16), 0x2000, 4)
  else if id = 0x28 then some (0x20000000, 0x200000, 8)
  else if id = 0x29 then some (0x21000000, 0x1000, 4)
  else if id = 0x2A then some (0x400E0000, 0x6000, 4)
  else if id = 0x2B then some (2 ^ 32 * 35, 0x40000, 8)
  else if id = 0x2C ∨ id = 0x2D then some (2 ^ 32 * (33 + (id - 0x2C)), 0x4000, 8)
  else none

/-- The corrected word is written back (R341). -/
def eccFixNow (key : Nat) (c : Chip) : Chip := if eccErr c key = some false then eccClear key c else c

/-- A scrub step (R344): the word at the scrub position is read, and the position moves on; a pass over BG[0] counts. -/
def scrubNow (id : Nat) (c : Chip) : Chip :=
  if !c.bit (memR 0x40) 0 then c
  else match memOf id with
    | none => c
    | some (base, size, w) =>
      let pos := aread 0 c.ecc.scrub id
      let key := base + pos
      let c := match eccErr c key with
        | some true => eccFatal id pos true c
        | some false => eccCorrected id pos key true c
        | none => c
      let nxt := if size ≤ pos + w then 0 else pos + w
      let c := { c with ecc := { c.ecc with scrub := aset 0 c.ecc.scrub id nxt } }
      if nxt = 0 ∧ id = 0 then c.setFld (memR 0x44) 0 16 (c.fld (memR 0x44) 0 16 + 1) else c

/-- INTERVAL; values below 16 act as 16. -/
def scrubInterval (c : Chip) : Nat := max (c.fld (memR 0x40) 8 16) 16

/-- The memories whose scrub step falls due in the present cycle of CLK_C; those of CLK_L make two cycles in it (R340, R344). -/
def scrubIds (c : Chip) : List Nat :=
  let i := scrubInterval c
  (if (2 * c.now) / i < (2 * c.now + 2) / i then List.range 15 ++ [0x2B, 0x2C, 0x2D] else []) ++
  (if c.now / i < (c.now + 1) / i then 0x2A :: (List.range 26).map (15 + ·) else [])

/-- The scrub steps of a cycle, once its requests are known: each memory takes the oldest step due to it where its port was idle, or
where the step has waited 1024 cycles of the memory's clock (R344, R361). -/
def scrubCycle (c : Chip) : Chip :=
  let due := if c.bit (memR 0x40) 0 then c.ecc.due ++ (scrubIds c).map (fun id => (id, c.now)) else []
  let go := (due.map (·.1)).dedup.filter (fun id =>
    !c.ecc.used.contains id || due.any (fun e => e.1 == id && decide (e.2 + memCycles id 1024 ≤ c.now)))
  let left := go.foldl (fun l id => l.eraseP (fun e => e.1 == id)) due
  go.foldl (fun (c : Chip) id => scrubNow id c) { c with ecc := { c.ecc with due := left, used := [] } }

/-- The write-back of a corrected word falls due: it waits for an idle cycle of the port, at most 64 cycles of the memory's
clock (R341). -/
def eccFixDue (key since : Nat) (c : Chip) : Chip :=
  match memAt key with
  | some (id, _, _) =>
    if c.ecc.used.contains id && decide (c.now < since + memCycles id 64) then c.schedule 1 (.eccFix key since) else eccFixNow key c
  | none => c

end Sys2Proof.Machine
end

