-- ==== Sys2Proof/Machine/EventMatrix.lean ====
section
/-! DEFINITION. The event matrix (10): consumer pulses, the loop guard, configuration writes, and its commands. -/

namespace Sys2Proof.Machine

/-- The DMA channels of unit `u` whose trigger line `t` is enabled (15 R357). -/
def dmaLine (u : Fin 2) (t : Nat) (c : Chip) : Chip :=
  (List.finRange 32).foldl (fun (c : Chip) (ch : Fin 32) =>
    let v := c.reg (dmaC u ch 0)
    if v.bit 6 && v.fld 2 4 == t then c.schedule 0 (.dmaTrigger u ch) else c) c

/-- The trip inputs of slice `s` whose source is consumer channel EVC[16s + sel] (05 R132). -/
def tripEvents (e : Nat) (c : Chip) : Chip :=
  if e < 192 then
    let s : Fin 12 := Fin.ofNat 12 (e / 16)
    (List.finRange 8).foldl (fun (c : Chip) (i : Fin 8) =>
      let v := c.reg (slR s.val (0x8000 + 4 * i.val))
      if v.fld 0 3 = 4 ∧ v.fld 3 5 = e % 16 then c.schedule 0 (.tripInputActive s i) else c) c
  else c

/-- What a delivered pulse of channel `e` does at its destination (01 R28): the happening falls in the same cycle. -/
def consumerTo (e : Nat) (c : Chip) : Chip :=
  let c := tripEvents e c
  if e < 192 then
    let n : Fin 96 := Fin.ofNat 96 (e / 2)
    if e % 2 = 0 then c.schedule 0 (.sync n false) else c.schedule 0 (.schCommit n)
  else if e < 256 then c.schedule 0 (.adcTrigger (Fin.ofNat 32 ((e - 192) / 2)) (Fin.ofNat 2 (e % 2)))
  else if e < 264 then c.schedule 0 (.sdmSync (Fin.ofNat 8 (e - 256)))
  else if e < 328 then
    let k : Fin 64 := Fin.ofNat 64 (e - 264)
    if c.fld0 (capR k 0) 1 2 = 0 then c.schedule 0 (.captureEdge k true) else c
  else if e < 344 then dmaLine 0 (e - 328) c
  else if e < 360 then dmaLine 1 (e - 344) c
  else if e < 368 then
    let p : Fin 8 := Fin.ofNat 8 (e - 360)
    let c := { c with pbs := vmod c.pbs p (fun b => { b with evcPulse := some c.now, evcPrev := if b.evcPulse = some c.now then b.evcPrev else b.evcPulse }) }
    if c.fld (pbR p 0x64) 0 5 = 16 then c.schedule 0 (.disciplinePulse p) else c
  else if e < 376 then c.schedule 0 (.arm (Fin.ofNat 8 (e - 368)))
  else
    let j : Fin 8 := Fin.ofNat 8 (e - 376)
    let c := c.unschedule (fun x => decide (x = .evoutEnd j))
    let was := c.pins.evout[j]
    let first := if was.1 ≤ c.now ∧ c.now < was.2 then was.1 else c.now + 1
    ({ c with pins := { c.pins with evout := c.pins.evout.set j (first, c.now + 17) } } : Chip).schedule 17 (.evoutEnd j)

/-- Whether the loop guard of a pulse's group stops it: one more would exceed LOOPGUARD (R241). -/
def guardTrips (c : Chip) (p : EvmPulse) : Bool :=
  match p.guard with
  | some n => decide (n < pulseCount c p.ch + 1)
  | none => false

/-- A loop guard latches: the gate is held closed and the fault source is raised (R241). -/
def guardLatch (g : Nat) (c : Chip) : Chip :=
  let c := c.setBits evmLgstatR (2 ^ g)
  raiseFault 31 (c.reg evmLgstatR) c

/-- Loop guards of the present cycle, judged over every pulse that is due, before any is delivered (R241). -/
def guardAll (c : Chip) : Chip :=
  (c.evm.pipe.filter (fun p => p.due == c.now)).foldl (fun (c : Chip) p =>
    if gateOpen c p.grp && guardTrips c p then guardLatch p.grp c else c) c

/-- The pulse of channel `e` that is due; one that a command asks for goes by the configuration of the present cycle. -/
def pulseDue (c : Chip) (e : Nat) : EvmPulse :=
  (c.evm.pipe.find? (fun p => p.due == c.now && p.ch == e)).getD
    { due := c.now, ch := e, grp := groupOf c e, guard := guardOf c (groupOf c e) }

/-- Consumer channel `e` pulses where its gate is open (R235, R241); a coincidence sets its flag. -/
def consumerNow (e : Nat) (c : Chip) : Chip :=
  let p := pulseDue c e
  let c := guardAll (gatesNow c)
  let c := if gateOpen c p.grp && guardTrips c p then guardLatch p.grp c else c
  let co := c.evm.co.contains (c.now, e)
  let c := { c with evm := { c.evm with pipe := c.evm.pipe.filter (fun q => !(q.due == c.now && q.ch == e)),
                                        co := c.evm.co.filter (fun q => !(q == (c.now, e))) } }
  if gateOpen c p.grp then
    let c := { c with evm := { c.evm with counts := c.evm.counts ++ [(c.now, e)] } }
    consumerTo e (if co then c.setBits (evmCoincR (e / 32)) (2 ^ (e % 32)) else c)
  else c

/-! ### Registers (R237 to R245) -/

/-- A configuration write, which restores a faulty word (15 R342). -/
def evmPut (a : Nat) (v : Word) (c : Chip) : Chip :=
  ({ c with ecc := { c.ecc with bad := adel c.ecc.bad a } } : Chip).setReg a v

/-- CONFIGURED (17 R395). -/
def stConfigured : Nat := 6

/-- The slices on which the MGE executes a live-reconfiguration command. -/
def liveSlices (c : Chip) (ini : Initiator) : List Nat :=
  if ini = .mge then (List.range 12).filter (liveOn c) else []

/-- The columns of slice `s` in word `w` of a row: EVC[16s..16s + 15] and EVC[192 + 4s..195 + 4s] (R244). -/
def evmCols (s w : Nat) : Word :=
  if w = s / 2 then BitVec.ofNat 32 (0xFFFF * 2 ^ (16 * (s % 2)))
  else if w = 6 + s / 8 then BitVec.ofNat 32 (0xF * 2 ^ (4 * (s % 8))) else 0

/-- A write of EVM_ROW[i] word w (R243, R244). -/
def evmRowWrite (ini : Initiator) (i w : Nat) (v : Word) (c : Chip) : Chip :=
  let a := evmRowR i w
  if c.devState = stConfigured then evmPut a v c
  else
    let m := (liveSlices c ini).foldl (fun (m : Word) s => m ||| evmCols s w) 0
    if m = 0 then c else evmPut a ((c.reg a &&& ~~~ m) ||| (v &&& m)) c

/-- PART of group `g` (R247). -/
def gPart (c : Chip) (g : Nat) : Nat := c.fld (evmGcfgR g) 20 4

/-- The slice that owns the columns of EVM_CGRP[q] (R244). -/
def cgrpSlice (q : Nat) : Option Nat := if q < 48 then some (q / 4) else if q < 60 then some (q - 48) else none

/-- A write of EVM_CGRP[q] (R243, R244). -/
def evmCgrpWrite (ini : Initiator) (q : Nat) (v : Word) (c : Chip) : Chip :=
  let a := evmCgrpR q
  if c.devState = stConfigured then evmPut a (v &&& 0x1F1F1F1F) c
  else match cgrpSlice q with
    | some s =>
      if (liveSlices c ini).contains s then
        let w := (List.range 4).foldl (fun (w : Word) b =>
          let g := v.fld (8 * b) 5
          if gPart c g = s then w.withFld (8 * b) 5 g else w) (c.reg a)
        evmPut a w c
      else c
    | none => c

/-- A write of EVM_GCFG[g]: one that sets GATED gives the gate its INIT state from the next cycle (R239, R243, R244). -/
def evmGcfgWrite (ini : Initiator) (g : Nat) (v : Word) (c : Chip) : Chip :=
  let a := evmGcfgR g
  let live := (liveSlices c ini).contains (gPart c g)
  if !(c.devState == stConfigured || live) then c
  else
    let v := v &&& 0x00F1FF03
    let v := if c.devState = stConfigured then v else v.withFld 20 4 (gPart c g)
    let c := evmPut a v c
    if v.bit 0 then { c with evm := { c.evm with init := c.evm.init ++ [(c.now + 1, g, v.bit 1)] } } else c

/-- A write of EVM_GOPEN[g] or EVM_GCLOSE[g], at address `a` (R243, R244). -/
def evmGateWrite (ini : Initiator) (a g : Nat) (v : Word) (c : Chip) : Chip :=
  if c.devState == stConfigured || (liveSlices c ini).contains (gPart c g) then evmPut a (v &&& 0x03FF03FF) c else c

/-- A write of EVM_LGSTAT: latches and the counts of their groups are cleared (R242, R245). -/
def lgstatWrite (v : Word) (c : Chip) : Chip :=
  let c := c.setReg evmLgstatR (c.w1c evmLgstatR 0xFFFFFFFF v)
  { c with evm := { c.evm with counts := c.evm.counts.filter (fun p => !v.bit (groupOf c p.2)) } }

/-! ### Commands -/

/-- CONSUMER_PULSE (R235): the pulse of channel `e` falls due. -/
def execConsumerPulse (e : Fin 384) (s : State) : Host.Outcome State Fault Refusal := s.onChip (consumerNow e)

/-- EVM_GCFG (R239). -/
def execEvmGcfg (ini : Initiator) (g : Fin 32) (v : Word) (s : State) : Host.Outcome State Fault Refusal :=
  s.onChip (gatedWrite ini (evmGcfgR g) (evmGcfgWrite ini g v))

/-- EVM_LGSTAT (R242). -/
def execEvmLgstat (ini : Initiator) (v : Word) (s : State) : Host.Outcome State Fault Refusal :=
  s.onChip (gatedWrite ini evmLgstatR (lgstatWrite v))

end Sys2Proof.Machine
end

