-- ==== Sys2Proof/Machine/LinkFrame.lean ====
section
/-! DEFINITION. Link frames (16 R365, R366, R371, R372): blocks and their scrambler, the slots of a frame, its header, header check and
frame check. -/

namespace Sys2Proof.Machine

/-! ### Blocks (R365) -/

/-- The sync headers of a data and of a control block; the first bit transmitted is bit 0. -/
def headData : BitVec 2 := 2
def headCtl : BitVec 2 := 1

/-- The idle block, block type 0x1E with idle codes of 0. -/
def idleBlock : Block := { head := headCtl, body := 0x1E }

/-- One bit through the scrambler x⁵⁸ + x³⁹ + 1: bit i of the state is the bit sent i + 1 bits ago. -/
def scrambleBit (st : BitVec 58) (d : Bool) : Bool := d ^^ (st.getLsbD 38 ^^ st.getLsbD 57)

/-- The 64 bits of a block scrambled, octet 0 and its least significant bit first, with the scrambler after them. -/
def scramble (st : BitVec 58) (x : BitVec 64) : BitVec 64 × BitVec 58 :=
  (List.range 64).foldl (fun (r : BitVec 64 × BitVec 58) i =>
    let b := scrambleBit r.2 (x.getLsbD i)
    (if b then r.1 ||| (1 <<< i) else r.1, (r.2 <<< 1) ||| BitVec.ofNat 58 b.toNat)) (0, st)

/-- The same bits descrambled: the state takes up the received bits. -/
def descramble (st : BitVec 58) (x : BitVec 64) : BitVec 64 × BitVec 58 :=
  (List.range 64).foldl (fun (r : BitVec 64 × BitVec 58) i =>
    let b := scrambleBit r.2 (x.getLsbD i)
    (if b then r.1 ||| (1 <<< i) else r.1, (r.2 <<< 1) ||| BitVec.ofNat 58 (x.getLsbD i).toNat)) (0, st)

/-! ### Check codes (R371) -/

/-- One bit of the header check x⁸ + x² + x + 1, most significant bit first. -/
def crc8Bit (x : BitVec 8) : BitVec 8 := if x.getLsbD 7 then (x <<< 1) ^^^ 7 else x <<< 1

def crc8 (bs : List Byte) : Byte :=
  bs.foldl (fun (x : BitVec 8) b => (List.range 8).foldl (fun y _ => crc8Bit y) (x ^^^ b)) 0

/-- One bit of the IEEE 802.3 check, least significant bit first. -/
def crc32Bit (x : Word) : Word := if x.getLsbD 0 then (x >>> 1) ^^^ 0xEDB88320 else x >>> 1

def crc32 (bs : List Byte) : Word :=
  ~~~ bs.foldl (fun (x : Word) b => (List.range 8).foldl (fun y _ => crc32Bit y) (x ^^^ b.zeroExtend 32)) 0xFFFFFFFF

/-! ### Frames -/

/-- The planes of frames and the states of a port by their codes (R371, R388). -/
def plCtl : Nat := 0
def plMgt : Nat := 1
def plDat : Nat := 2
def plLoc : Nat := 3
def lsOff : Nat := 0
def lsTraining : Nat := 1
def lsUp : Nat := 2
def lsFailed : Nat := 3
def lsStandby : Nat := 4

/-- A header as received. -/
structure LHead where
  dst : BitVec 6
  src : BitVec 6
  plane : BitVec 2
  typ : BitVec 4
  len : Nat
  seq : BitVec 16
  hop : BitVec 5
  deriving DecidableEq, Repr

/-- The types of R372. -/
def typeListed (plane typ : Nat) : Bool :=
  match plane with
  | 0 => typ == 0
  | 1 => decide (typ ≤ 2)
  | 2 => typ == 0
  | _ => decide (typ ≤ 1)

/-- A header that passes R371, none otherwise. -/
def headOf (bs : List Byte) : Option LHead :=
  let w := leNat (bs.take 8)
  let f (lo n : Nat) : Nat := w / 2 ^ lo % 2 ^ n
  if bs.length < 8 then none
  else if BitVec.ofNat 8 (f 56 8) ≠ crc8 (bs.take 7) ∨ 1024 < f 18 11 ∨ f 50 6 ≠ 0 ∨ typeListed (f 12 2) (f 14 4) = false then none
  else some { dst := BitVec.ofNat 6 (f 0 6), src := BitVec.ofNat 6 (f 6 6), plane := BitVec.ofNat 2 (f 12 2),
              typ := BitVec.ofNat 4 (f 14 4), len := f 18 11, seq := BitVec.ofNat 16 (f 29 16), hop := BitVec.ofNat 5 (f 45 5) }

/-- The eight header bytes of a frame with its SEQ. -/
def headBytes (f : LFrame) (seq : BitVec 16) : List Byte :=
  let w := f.dst.toNat + 2 ^ 6 * f.src.toNat + 2 ^ 12 * f.plane.toNat + 2 ^ 14 * f.typ.toNat + 2 ^ 18 * (f.payload.length % 2 ^ 11) +
    2 ^ 29 * seq.toNat + 2 ^ 45 * f.hop.toNat
  leBytes 7 w ++ [crc8 (leBytes 7 w)]

/-- A frame as sent: a stomped one ends with the complement of its check (R377). -/
def frameBytes (f : LFrame) (seq : BitVec 16) : List Byte :=
  let b := headBytes f seq ++ f.payload
  b ++ leBytes 4 (if f.stomp then ~~~ crc32 b else crc32 b).toNat

/-- How the check of a received frame turns out (R371, R377). -/
inductive RxKind where
  | ok
  | stomped
  | damaged
  deriving DecidableEq, Repr

/-- A frame that ends before its last byte is damaged. -/
def rxKind (h : LHead) (bs : List Byte) : RxKind :=
  let body := bs.take (8 + h.len)
  let x := (bs.drop (8 + h.len)).take 4
  if x.length < 4 then .damaged
  else if BitVec.ofNat 32 (leNat x) = crc32 body then .ok
  else if BitVec.ofNat 32 (leNat x) = ~~~ crc32 body then .stomped
  else .damaged

/-- Bytes of a frame, the credits it takes (R378), and its slots on `lanes` lanes (R366). -/
def LFrame.size (f : LFrame) : Nat := 12 + f.payload.length
def creditsOf (n : Nat) : Nat := (n + 63) / 64
def slotsOf (n lanes : Nat) : Nat := (n + 8 * lanes - 1) / (8 * lanes)

/-- The octets of slot `s` on lane `l` (R366): byte i of the frame travels in slot ⌊i / 8w⌋, on lane ⌊(i mod 8w) / 8⌋, as octet i mod 8;
the rest of the last slot is 0x00. -/
def laneBlock (w : Nat) (bs : List Byte) (s l : Nat) : BitVec 64 :=
  BitVec.ofNat 64 (leNat ((bs.drop (8 * w * s + 8 * l)).take 8))

/-- The data slots that carry the bytes of a frame on `w` lanes. -/
def frameSlots (w : Nat) (bs : List Byte) : List Slot :=
  (List.range (slotsOf bs.length w)).map (fun s => (List.range w).map (fun l => { head := headData, body := laneBlock w bs s l }))

/-- A received slot (R366): idle, the bytes of a data slot, or an error slot. A control block of any type counts as idle (R365). -/
inductive RxSlot where
  | idle
  | data (bs : List Byte)
  | error
  deriving DecidableEq, Repr

def rxSlot (w : Nat) (s : Slot) : RxSlot :=
  let s := s.take w
  if s.length < w then .error
  else if s.all (fun b => b.head == headData) then .data (s.flatMap (fun b => leBytes 8 b.body.toNat))
  else if s.all (fun b => b.head == headCtl) then .idle
  else .error

/-- The bytes of a frame in the data slots that follow its first, and whether an error slot cut it off before `n` more bytes came. -/
def rxRest : Nat → List RxSlot → List Byte × Bool
  | 0, _ => ([], false)
  | _ + 1, [] => ([], false)
  | _ + 1, .idle :: _ => ([], false)
  | _ + 1, .error :: _ => ([], true)
  | n + 1, .data bs :: r => let x := rxRest (n + 1 - bs.length) r; (bs ++ x.1, x.2)

/-- What received slots hold: how often a bad header was counted before the first frame whose header passes, and that frame: its
header, its bytes, and whether an error slot cut it off. -/
structure RxFrame where
  bad : Nat
  frame : Option (LHead × List Byte × Bool)
  deriving DecidableEq, Repr

/-- The receiver over slots (R366, R371): the first data slot after an idle slot begins a frame; a bad header and an error slot are
counted and start the hunt, in which the first 8 bytes of each data slot are tried as a header. -/
def rxScan : Bool → Nat → List RxSlot → RxFrame
  | _, bad, [] => { bad := bad, frame := none }
  | _, bad, .idle :: r => rxScan false bad r
  | _, bad, .error :: r => rxScan true (bad + 1) r
  | hunt, bad, .data bs :: r =>
    match headOf bs with
    | some h => let x := rxRest (12 + h.len - bs.length) r; { bad := bad, frame := some (h, bs ++ x.1, x.2) }
    | none => rxScan true (if hunt then bad else bad + 1) r

/-! ### Training frames (R368) -/

/-- The content of a training frame that the port's state takes up, with what the receiver makes of the lane it came on: its number,
whether it is inverted, and its skew in units of 0.1 ns. -/
structure TrainFrame where
  lane : BitVec 2
  phase : BitVec 3
  done : Bool
  request : Byte
  status : Byte
  widths : Byte
  role : Byte
  credits : Vector Nat 3
  seqs : Vector (BitVec 16) 2
  rxLane : Fin 4
  inverted : Bool
  skew : BitVec 16
  deriving DecidableEq, Repr

/-- The payload of R368 read; the bytes that are 0 are ignored. -/
def trainOf (pay : List Byte) (rxLane : Fin 4) (inverted : Bool) (skew : BitVec 16) : TrainFrame :=
  let b (i : Nat) : Byte := pay[i]?.getD 0
  let h (i : Nat) : Nat := leNat [b i, b (i + 1)]
  { lane := (b 0).extractLsb' 0 2, phase := (b 0).extractLsb' 2 3, done := (b 0).getLsbD 7, request := b 1, status := b 2,
    widths := b 4, role := b 5, credits := #v[h 8, h 10, h 12], seqs := #v[BitVec.ofNat 16 (h 14), BitVec.ofNat 16 (h 16)],
    rxLane := rxLane, inverted := inverted, skew := skew }

end Sys2Proof.Machine
end

