-- ==== Sys2Proof/Machine/LinkCore.lean ====
section
/-! DEFINITION. The link's ports (16 R367 to R370, R374 to R382): training, queues and credits, routing, and what
leaves a port. -/

namespace Sys2Proof.Machine

/-! ### Ports -/

def llR (off : Nat) : Nat := 0x45000000 + off
def llP (p : Port) (off : Nat) : Nat :=
  match p with
  | .up => 0x45000100 + off
  | .dn => 0x45000200 + off

def lport (c : Chip) : Port → LPort
  | .up => c.link.up
  | .dn => c.link.dn

def updLink (p : Port) (f : LPort → LPort) (c : Chip) : Chip :=
  match p with
  | .up => { c with link := { c.link with up := f c.link.up } }
  | .dn => { c with link := { c.link with dn := f c.link.dn } }

def otherPort : Port → Port
  | .up => .dn
  | .dn => .up

/-- The code of a port in interrupt and fault numbers: UP 0, DN 1. -/
def portIx : Port → Nat
  | .up => 0
  | .dn => 1

/-- LL_PSTAT.STATE, PHASE and WIDTH, and the lanes of a width (R388). -/
def lstate (c : Chip) (p : Port) : Nat := c.fld (llP p 4) 0 3
def lphase (c : Chip) (p : Port) : Nat := c.fld (llP p 4) 3 3
def lwidth (c : Chip) (p : Port) : Nat := c.fld (llP p 4) 6 2
def lanesOf (w : Nat) : Nat := if w = 1 then 2 else if w = 2 then 1 else 4

/-- LL_PCTL.EN, and MAXW, whose 3 acts as 0. -/
def portEn (c : Chip) (p : Port) : Bool := c.bit (llP p 0) 0
def maxWidth (c : Chip) (p : Port) : Nat := let w := c.fld (llP p 0) 1 2; if w = 3 then 0 else w

/-- LL_ID.BOOTMODE, whether the bridge stands in UP's place (R385), and the own address, 0 before enumeration (R375). -/
def bootMode (c : Chip) : Nat := c.fld (llR 0) 9 2
def bridged (c : Chip) (p : Port) : Bool := bootMode c == 1 && decide (p = .up)
def ownAddr (c : Chip) : Nat := if c.bit (llR 0) 8 then c.fld (llR 0) 0 6 else 0

/-- The device state changes, which sets STATEF (17 R395, R418). -/
def enterState (n : Nat) (c : Chip) : Chip :=
  if c.devState = n then c else (c.setFld cmdStatR 0 4 n).setBits 0x45008004 1

/-! ### Credits and counts -/

def credIx (pl : Nat) : Fin 3 := Fin.ofNat 3 pl

/-- `k` credits of plane `pl` are free again at port `p`, which queues a STATUS (R378, R379). -/
def freeCredits (p : Port) (pl k : Nat) (c : Chip) : Chip :=
  updLink p (fun x => { x with freed := vmod x.freed (credIx pl) (· + BitVec.ofNat 16 k), status := true }) c

/-- The receive buffer that held a frame frees its credits. -/
def freeFrame (f : LFrame) (c : Chip) : Chip :=
  match f.from? with
  | some p => freeCredits p f.plane.toNat (creditsOf f.size) c
  | none => c

/-- A frame counted as dropped at port `p`, and one dropped at its egress (R388). -/
def linkDrop (p : Port) (c : Chip) : Chip := c.satInc (llP p 0x24) 0 16
def countEgressDrop (p : Port) (c : Chip) : Chip := c.satInc (llP p 0x1C) 16 16

/-! ### Queues and routes (R375) -/

/-- The first key of a place in the link buffers, of 64 bytes each (15 R340, R378). -/
def placeKey (n : Nat) : Nat := 2 ^ 32 * 35 + 64 * n

/-- The place of a frame of `k` units of 64 bytes: places are taken in turn, which shows only in the error log (DESIGN CHOICE,
log 111); the frame fills whole ECC words. -/
def takePlace (k : Nat) (c : Chip) : Nat × Chip :=
  let n := if 4096 < c.link.place + k then 0 else c.link.place
  (n, { c with link := { c.link with place := n + k },
               ecc := { c.ecc with bad := c.ecc.bad.filter (fun e => !(decide (placeKey n ≤ e.1) && decide (e.1 < placeKey (n + k)))) } })

/-- A frame takes its place in a queue: frames of own origin that came in the same cycle follow a forwarded one (R386). -/
def inQueue (now : Nat) (f : LFrame) (q : List LFrame) : List LFrame :=
  let late (g : LFrame) : Bool := f.from?.isSome && g.from?.isNone && g.queued == now
  q.filter (fun g => !late g) ++ [f] ++ q.filter late

/-- A frame goes to the queue of port `q`; management and data for a port that is OFF or FAILED are dropped. -/
def enqueue (q : Port) (f : LFrame) (c : Chip) : Chip :=
  let s := lstate c q
  if f.plane.toNat ≠ plCtl ∧ (s = lsOff ∨ s = lsFailed) ∧ bridged c q = false then
    freeFrame f (linkDrop (f.from?.getD q) c)
  else
    let r := takePlace (creditsOf f.size) c
    updLink q (fun x => { x with queues := vmod x.queues (credIx f.plane.toNat) (inQueue c.now { f with queued := c.now, home := r.1 }) }) r.2

/-- Where a frame that arrived goes. -/
inductive LRoute where
  | deliver
  | forward (q : Port)
  | both (q : Port)
  | drop
  deriving DecidableEq, Repr

def routeFrom (a : Nat) (p : Port) (dst : Nat) : LRoute :=
  match p with
  | .up =>
    if dst = a ∧ a ≠ 0 then .deliver
    else if dst = 63 then .both .dn
    else if 1 ≤ dst ∧ dst ≤ 30 then .forward .dn
    else .drop
  | .dn =>
    if dst = a ∧ a ≠ 0 then .deliver
    else if dst = 0 ∨ (1 ≤ dst ∧ dst < a) then .forward .up
    else .drop

/-- The port for a frame of own origin. -/
def routeOwn (a dst : Nat) : Option Port :=
  if dst = 0 ∨ (1 ≤ dst ∧ dst < a) then some .up
  else if a < dst ∧ dst ≤ 30 then some .dn
  else none

/-- A frame of own origin is sent (R375); one that has no port is discarded and counted as dropped, at UP (log 134). -/
def sendOwn (dst : BitVec 6) (plane : BitVec 2) (typ : BitVec 4) (payload : List Byte) (c : Chip) : Chip :=
  match routeOwn (ownAddr c) dst.toNat with
  | some q => enqueue q { dst := dst, src := BitVec.ofNat 6 (ownAddr c), plane := plane, typ := typ, hop := 0,
                          payload := payload, stomp := false, from? := none, queued := c.now, home := 0 } c
  | none => linkDrop .up c

/-! ### The transmit queue (R374) -/

/-- Words of LL_TXQ in use: those of an incomplete frame and of complete frames not yet sent. -/
def txqUsed (c : Chip) : Nat :=
  c.link.txq.length + ((c.link.up.queues[2] ++ c.link.dn.queues[2]).foldl
    (fun n f => if f.from?.isNone then n + 2 + (f.payload.length + 3) / 4 else n) 0)

/-- A word enters the queue; a complete frame is routed, or discarded with TXQF. -/
def txqTake (v : Word) (c : Chip) : Chip :=
  let q := c.link.txq ++ [v]
  let len := (q[0]?.getD 0).fld 18 11
  if q.length < 2 ∨ q.length < 2 + (len + 3) / 4 then { c with link := { c.link with txq := q } }
  else
    let c := { c with link := { c.link with txq := [] } }
    let h := q[0]?.getD 0
    let dst := h.fld 0 6
    let payload := ((q.drop 2).flatMap (fun w => leBytes 4 w.toNat)).take len
    if h.fld 12 2 ≠ plDat ∨ h.fld 14 4 ≠ 0 ∨ 1024 < len then c.setBits (llR 4) 8
    else if routeOwn (ownAddr c) dst = none then linkDrop .up (c.setBits (llR 4) 8)
    else sendOwn (BitVec.ofNat 6 dst) 2 0 payload c

/-- The writes that wait enter as space frees (R374 STALL). -/
def txqDrain : Nat → Chip → Chip
  | 0, c => c
  | n + 1, c =>
    match c.link.txqWait with
    | v :: rest =>
      if txqUsed c < 2048 then txqDrain n (txqTake v { c with link := { c.link with txqWait := rest } }) else c
    | [] => c

/-- Space in the transmit queue has become free. -/
def drained (c : Chip) : Chip := txqDrain c.link.txqWait.length c

/-- Whether LL_TXQ takes another word. -/
def txqRoom (c : Chip) : Bool := c.link.txqWait.isEmpty && decide (txqUsed c < 2048)

/-- A write of LL_TXQ; one to a full queue waits. -/
def txqWrite (v : Word) (c : Chip) : Chip :=
  if txqRoom c then txqTake v c
  else { c with link := { c.link with txqWait := c.link.txqWait ++ [v] } }

/-- Management and data frames waiting at a port that becomes OFF or FAILED are discarded (R375). -/
def dropWaiting (p : Port) (c : Chip) : Chip :=
  let x := lport c p
  let c := (x.queues[1] ++ x.queues[2]).foldl (fun (c : Chip) f => freeFrame f (linkDrop (f.from?.getD p) c)) c
  let c := updLink p (fun x => { x with queues := (x.queues.set 1 []).set 2 [] }) c
  drained c

/-! ### Training (R367 to R370) -/

/-- What a port holds of its lanes as it starts to train, or as it is stopped: no lock, and nothing waits for a lane. -/
def lanesAnew (x : LPort) : LPort :=
  { x with rx := LRx.reset, blocks := Vector.replicate 4 [], train := Vector.replicate 4 [] }

/-- Phase 1 starts at width `w`. -/
def trainFrom (p : Port) (w : Nat) (c : Chip) : Chip :=
  let c := c.setReg (llP p 4) ((((c.reg (llP p 4)).withFld 0 3 lsTraining).withFld 3 3 1).withFld 6 14 w)
  updLink p (fun x => { lanesAnew x with since := c.now, silent := false, peer := LPeer.reset }) c

/-- The receive buffer of the forwarded frame in transmission is free: its last byte has left, or its transmission ends (R378). -/
def outDone (p : Port) (c : Chip) : Chip :=
  match (lport c p).out with
  | some f => freeFrame f (updLink p (fun x => { x with out := none }) c)
  | none => c

/-- A port leaves UP (R370): the frame in transmission is abandoned, control frames held are dropped at egress. -/
def leaveUp (p : Port) (c : Chip) : Chip :=
  let held := (lport c p).queues[0]
  let c := held.foldl (fun (c : Chip) f => freeFrame f (countEgressDrop p c)) (outDone p (c.setBits (llP p 4) (2 ^ 25)))
  updLink p (fun x => { lanesAnew x with queues := x.queues.set 0 [], sending := [], busy := 0, status := false,
                                          resend := Vector.replicate 2 0, guard := false }) c

/-- A port that is UP leaves it and trains again from phase 1 at MAXW. -/
def retrainPort (p : Port) (c : Chip) : Chip :=
  if lstate c p = lsUp then trainFrom p (maxWidth c p) (leaveUp p c) else c

/-- A training phase fails (R369): a silent interval before the next narrower width, FAILED after one lane. -/
def trainFail (p : Port) (c : Chip) : Chip :=
  if lstate c p = lsTraining && !(lport c p).silent then
    let w := lwidth c p
    let c := ((c.setFld (llP p 0x28) 0 3 (lphase c p)).setFld (llP p 0x28) 3 2 w).satInc (llP p 0x28) 8 8
    if w < 2 then updLink p (fun x => { lanesAnew x with silent := true, since := c.now }) c
    else
      let c := (c.setReg (llP p 4) (((c.reg (llP p 4)).withFld 0 3 lsFailed).withFld 3 3 0)).setBits (llP p 4) (2 ^ 26)
      let c := dropWaiting p (updLink p (fun x => { lanesAnew x with since := c.now }) c)
      raiseFault (146 + portIx p) (c.reg (llP p 4)) c
  else c

/-- The end of the silent interval: phase 1 at the next narrower width. -/
def silentEnd (p : Port) (c : Chip) : Chip :=
  if lstate c p = lsTraining && (lport c p).silent then trainFrom p (lwidth c p + 1) c else c

/-- The retry delay after FAILED ends; RETRY 0 gives none. -/
def retryEnd (p : Port) (c : Chip) : Chip :=
  if lstate c p = lsFailed && c.fld (llP p 0) 8 8 != 0 then trainFrom p (maxWidth c p) c else c

/-- An active lane loses block lock: a timeout of phases 2 to 5 (R369), the end of UP (R370); it reports high BER: the end of UP alone. -/
def lockLost (p : Port) (ber : Bool) (c : Chip) : Chip :=
  if lstate c p = lsTraining && decide (2 ≤ lphase c p) then (if ber then c else trainFail p c) else retrainPort p c

/-- The window of a monitor after one more invalid sync header (R365, log 135). -/
def badHeads (w : Nat) (e : Nat × Nat) : Nat × Nat := if e.1 = w then (w, e.2 + 1) else (w, 1)

/-- Whether a monitor has met 16 invalid sync headers in window `w`. -/
def monitorTrips (w : Nat) (e : Nat × Nat) : Bool := e.1 == w && decide (16 ≤ e.2)

/-- A block received on lane `l` in slot `s`: the lock machine of Clause 49 gives lock up at 16 invalid sync headers of 64, the monitor
reports high BER at 16 within 125 µs. -/
def headSeen (l : Fin 4) (s now : Nat) (b : Block) (x : LRx) : LRx :=
  if b.head = headData ∨ b.head = headCtl then x
  else { x with lockBad := vmod x.lockBad l (badHeads (s / 64)), berBad := vmod x.berBad l (badHeads (now / 62500)) }

/-- The received slots pass the monitors of the lanes from `l0` on: those that a monitor gives up on are told with the reason, lock
before high BER. -/
def watchSlots (p : Port) (l0 : Nat) (s : Nat) (slots : List Slot) (c : Chip) : Option Bool × Chip :=
  let seen := (slots.zipIdx.flatMap (fun e => e.1.zipIdx.map (fun b => (Fin.ofNat 4 (l0 + b.2), s + e.2, b.1))))
  let r := seen.foldl (fun (r : Bool × Bool × LRx) (e : Fin 4 × Nat × Block) =>
    let x := headSeen e.1 e.2.1 c.now e.2.2 r.2.2
    (r.1 || monitorTrips (e.2.1 / 64) x.lockBad[e.1], r.2.1 || monitorTrips (c.now / 62500) x.berBad[e.1], x)) (false, false, (lport c p).rx)
  (if r.1 then some false else if r.2.1 then some true else none, updLink p (fun x => { x with rx := r.2.2 }) c)

/-- One tap setting after a coefficient request: 0 hold, 1 increment, 2 decrement, within 6 bits (R368). -/
def tapStep (req x : Nat) : Nat := if req = 1 then min (x + 1) 63 else if req = 2 then x - 1 else x

/-- LL_EQ of a lane after a request that was not standing in the frame before (R367, R368). Preset and initialise give
settings the manual does not state: free values. -/
def equalise (p : Port) (l : Nat) (req old : Byte) (c : Chip) : Chip :=
  let a := llP p (0x30 + 4 * l)
  let fresh (b : Nat) : Bool := req.getLsbD b && !old.getLsbD b
  if fresh 6 || fresh 7 then let (v, c) := c.free; c.setReg a (v &&& 0x3FFFF)
  else
    (List.range 3).foldl (fun (c : Chip) t =>
      let r := req.toNat / 4 ^ t % 4
      if old.toNat / 4 ^ t % 4 = 0 then c.setFld a (6 * t) 6 (tapStep r (c.fld a (6 * t) 6)) else c) c

/-- A training frame received on one lane (R367, R368). A partner that has gone on to a later phase was done with ours. -/
def trainTake (p : Port) (f : TrainFrame) (c : Chip) : Chip :=
  let r := f.rxLane
  let ph := lphase c p
  if lstate c p ≠ lsTraining ∨ (lport c p).silent = true ∨ ph < 2 then c
  else
    let done := decide (ph < f.phase.toNat) || (f.phase.toNat == ph && f.done)
    let old := (lport c p).peer.req[r]
    let c := updLink p (fun x => { x with peer := { x.peer with done := x.peer.done || done, heard := x.peer.heard || f.phase.toNat == ph } }) c
    if f.phase.toNat ≠ ph then c
    else
      let c := c.setReg (llP p 4) ((c.reg (llP p 4)).withBit (16 + r.val) f.inverted)
      match ph with
      | 2 =>
        let c := equalise p r.val f.request old c
        let m : BitVec 4 := BitVec.ofNat 4 (2 ^ r.val)
        updLink p (fun x =>
          let ready := if f.status.getLsbD 7 then x.peer.rxReady ||| m else x.peer.rxReady &&& ~~~ m
          { x with peer := { x.peer with req := x.peer.req.set r f.request, rxReady := ready } }) c
      | 3 =>
        let c := c.setReg (llP p 4) ((c.reg (llP p 4)).withFld (8 + 2 * r.val) 2 f.lane.toNat)
        updLink p (fun x => { x with peer := { x.peer with found := x.peer.found ||| BitVec.ofNat 4 (2 ^ f.lane.toNat) },
                                     rx := { x.rx with skew := x.rx.skew.set r f.skew } }) c
      | 4 => updLink p (fun x => { x with peer := { x.peer with widths := f.widths, role := f.role } }) c
      | _ => updLink p (fun x => { x with peer := { x.peer with
          credits := f.credits, seqs := f.seqs } }) c

/-- Whether a value holds for every active lane. -/
def allLanes (c : Chip) (p : Port) (v : BitVec 4) : Bool := (List.range (lanesOf (lwidth c p))).all (fun i => v.getLsbD i)

/-- Every active lane has held lock for 100 µs. -/
def lockHeld (c : Chip) (p : Port) : Bool :=
  (List.finRange 4).all (fun l => decide (lanesOf (lwidth c p) ≤ l.val) ||
    (match (lport c p).rx.lock[l] with
     | some t => decide (50000 ≤ c.now - t)
     | none => false))

/-- The skew between active lanes is at most 19.2 ns. -/
def skewOk (c : Chip) (p : Port) : Bool :=
  let s := ((List.finRange 4).filter (fun l => decide (l.val < lanesOf (lwidth c p)))).map (fun l => (lport c p).rx.skew[l].toNat)
  s.all (fun a => s.all (fun b => decide (a ≤ b + 192)))

/-- The condition that ends a phase holds at this port (R367): what its own lanes show, and what the partner's frames have told. -/
def phaseHeard (c : Chip) (p : Port) : Bool :=
  let x := lport c p
  match lphase c p with
  | 1 => lockHeld c p
  | 2 => allLanes c p x.peer.rxReady && allLanes c p x.rx.ready
  | 3 => allLanes c p x.peer.found && skewOk c p
  | 4 => x.peer.widths.getLsbD (lwidth c p)
  | _ => x.peer.heard

/-- The condition of a phase holds at both ends as far as the port knows: with the partner's DONE, which phase 1 has no frames
for (R367). -/
def phaseMet (c : Chip) (p : Port) : Bool := phaseHeard c p && (lphase c p == 1 || (lport c p).peer.done)

/-- The status of one coefficient after a request (R368): updated, or at the limit of its 6 bits. -/
def tapStatus (req x : Nat) : Nat := if req = 1 then (if x = 63 then 3 else 1) else if req = 2 then (if x = 0 then 2 else 1) else 0

/-- The payload of a training frame that a port sends on lane `l` (R368). -/
def trainPayload (c : Chip) (p : Port) (l : Fin 4) : List Byte :=
  let x := lport c p
  let ph := lphase c p
  let b (n : Nat) : Byte := BitVec.ofNat 8 n
  let met := phaseHeard c p
  let eq := c.reg (llP p (0x30 + 4 * l.val))
  let tap (t : Nat) : Nat := 4 ^ t * tapStatus (x.peer.req[l].toNat / 4 ^ t % 4) (eq.fld (6 * t) 6)
  let h (on : Nat) (n : Nat) : List Byte := leBytes 2 (if ph = on then n else 0)
  [b (l.val + 4 * ph + 2 ^ 7 * met.toNat), b (if ph = 2 then x.rx.request.toNat else 0),
   b (if ph = 2 then tap 0 + tap 1 + tap 2 + 2 ^ 7 * (x.rx.ready.getLsbD l.val).toNat else 0), 0,
   b (if ph = 4 then 2 ^ lwidth c p else 0), b (if ph = 4 then bootMode c else 0), 0, 0] ++
  h 5 192 ++ h 5 128 ++ h 5 640 ++ h 5 x.rxSeq[1].toNat ++ h 5 x.rxSeq[2].toNat ++ List.replicate 6 0

/-- The training frames of one microsecond, on every active lane (R367). -/
def trainSend (p : Port) (c : Chip) : Chip :=
  let f (l : Fin 4) : List Byte :=
    if l.val < lanesOf (lwidth c p) then
      frameBytes { dst := 0, src := BitVec.ofNat 6 (ownAddr c), plane := 3, typ := 0, hop := 0, payload := trainPayload c p l,
                   stomp := false, from? := none, queued := c.now, home := 0 } 0
    else []
  let blocks (l : Fin 4) : List (BitVec 64) := (List.range (slotsOf (f l).length 1)).map (fun s => laneBlock 1 (f l) s 0)
  updLink p (fun x => { x with train := Vector.ofFn f, blocks := Vector.ofFn blocks }) c

/-- What the receiver makes of its lanes in one microsecond of training, which the manual leaves to it (log 112): which lanes find
block lock and in which polarity in phase 1; the coefficient request and which lanes are ready in phase 2. -/
def laneSample (p : Port) (c : Chip) : Chip :=
  let (v, c) := c.free
  match lphase c p with
  | 1 =>
    let found (l : Fin 4) : Bool := v.bit l.val && decide (l.val < lanesOf (lwidth c p)) && (lport c p).rx.lock[l].isNone
    let c := (List.finRange 4).foldl (fun (c : Chip) l => if found l then c.putBit (llP p 4) (16 + l.val) (v.bit (4 + l.val)) else c) c
    updLink p (fun x =>
      { x with rx := { x.rx with lock := Vector.ofFn (fun l => if v.bit l.val then some (x.rx.lock[l].getD c.now) else x.rx.lock[l]) } }) c
  | 2 => updLink p (fun x => { x with rx := { x.rx with request := v.extractLsb' 0 8, ready := v.extractLsb' 8 4 } }) c
  | _ => c

/-- The frames of a replay buffer that a partner's ACK leaves (R380), compared within a half range. -/
def unacked (ack : BitVec 16) (q : List (BitVec 16 × LFrame)) : List (BitVec 16 × LFrame) :=
  q.filter (fun e => decide (2 ^ 15 ≤ (ack - e.1).toNat))

/-- A plane with its replay buffer when the port comes UP (R370, R380). -/
def resumePlane (pl : Fin 2) (now : Nat) (x : LPort) : LPort :=
  let seq := x.peer.seqs[pl]
  let q := unacked (seq - 1) x.replay[pl]
  let ix := credIx (pl.val + 1)
  { x with replay := x.replay.set pl q, resend := x.resend.set pl q.length, resends := x.resends.set pl 0,
           waiting := x.waiting.set pl (if q.isEmpty then none else some now), nak := x.nak.set pl none,
           txSeq := if q.isEmpty then x.txSeq.set ix seq else x.txSeq }

/-- Phase 5 has ended: the port is UP (R367), and the device LINKED (17 R395). -/
def portUp (p : Port) (c : Chip) : Chip :=
  let c := (c.setReg (llP p 4) (((c.reg (llP p 4)).withFld 0 3 lsUp).withFld 3 3 0)).setBits (llP p 4) (2 ^ 24)
  let c := c.setFld (llP p 0x28) 8 8 0
  let c := updLink p (fun x =>
    let x := { x with credits := x.peer.credits, freed := Vector.replicate 3 0, seen := Vector.replicate 3 0, status := false,
                      statusAt := c.now, busy := 0, sending := [], blocks := Vector.replicate 4 [], dataLog := [], guard := false }
    resumePlane 1 c.now (resumePlane 0 c.now x)) c
  if p = .up ∧ c.devState = 0 then enterState 1 c else c

/-- The condition of the present phase holds at both ends. -/
def phaseEnd (p : Port) (c : Chip) : Chip :=
  if lstate c p = lsTraining && !(lport c p).silent && phaseMet c p then
    if lphase c p = 5 then portUp p c
    else
      let c := c.setFld (llP p 4) 3 3 (lphase c p + 1)
      updLink p (fun x => { x with since := c.now, peer := { x.peer with done := false, heard := false } }) c
  else c

/-- A port is stopped at once, as OFF. -/
def portOff (p : Port) (c : Chip) : Chip :=
  let c := if lstate c p = lsUp then leaveUp p c else updLink p lanesAnew c
  dropWaiting p (c.setReg (llP p 4) (((c.reg (llP p 4)).withFld 0 3 lsOff).withFld 3 3 0))

/-- A write of LL_PCTL (R387, R388): EN starts or stops the port; MAXW is locked from SEAL onward; EN of UP reads 0 and
ignores writes with the bridge in its place. -/
def pctlWrite (p : Port) (v : Word) (c : Chip) : Chip :=
  let old := c.reg (llP p 0)
  let v := v &&& 0xFF07
  let v := if c.sealed then merge 0x6 v old else v
  let v := if bridged c p then v.withBit 0 false else v
  let c := c.setReg (llP p 0) v
  if v.bit 0 && !old.bit 0 then trainFrom p (maxWidth c p) c
  else if !v.bit 0 && old.bit 0 then portOff p c
  else c

/-- A write of LL_PCMD.RETRAIN (R369, R370). -/
def retrainWrite (p : Port) (v : Word) (c : Chip) : Chip :=
  if !v.bit 0 then c
  else if lstate c p = lsFailed then trainFrom p (maxWidth c p) c
  else retrainPort p c

/-! ### Transmission (01 R15, R376 to R380) -/

/-- The slot, of 3.2 cycles of CLK_C, at or after the present cycle. -/
def slotNow (c : Chip) : Nat := (5 * c.now + 15) / 16

/-- Slots that data frames used of the last 160 (01 R15). -/
def dataUsed (x : LPort) (s : Nat) : Nat :=
  x.dataLog.foldl (fun n e => n + (min s (e.1 + e.2) - max (s - 160) e.1)) 0

/-- Bytes of a replay buffer in use, and its size (R378). -/
def replayUsed (q : List (BitVec 16 × LFrame)) : Nat := q.foldl (fun n e => n + e.2.size) 0
def replaySize (pl : Fin 2) : Nat := if pl = 0 then 8192 else 40960

/-- The next frame of a plane, with its SEQ when it is sent again: none where the next hop lacks credit for it, or the
replay buffer space (R376, R378, R380). -/
def nextFrame (x : LPort) (pl : Fin 3) : Option (LFrame × Option (BitVec 16)) :=
  let cand : Option (LFrame × Option (BitVec 16)) :=
    if h : 1 ≤ pl.val then
      let r : Fin 2 := ⟨pl.val - 1, by omega⟩
      let q := x.replay[r]
      if x.resend[r] ≠ 0 then (q[q.length - x.resend[r]]?).map (fun e => (e.2, some e.1))
      else match x.queues[pl].head? with
        | some f => if f.stomp || decide (replayUsed q + f.size ≤ replaySize r) then some (f, none) else none
        | none => none
    else x.queues[pl].head?.map (fun f => (f, none))
  cand.filter (fun e => decide (creditsOf e.1.size ≤ x.credits[pl]))

/-- What the egress sends next (01 R15): 0 to 2 a frame of the plane, 3 a STATUS, which goes before other data. -/
def egressPick (x : LPort) (s : Nat) : Option Nat :=
  let ctl := (nextFrame x 0).isSome
  let mgt := (nextFrame x 1).isSome
  let dat := (nextFrame x 2).isSome
  let data := if x.status then some 3 else if dat then some 2 else none
  if data.isSome && decide (dataUsed x s < 32) && !(x.guard && ctl) then data
  else if ctl then some 0
  else if mgt then some 1
  else data

/-- The payload of a STATUS (R379). -/
def statusPayload (x : LPort) : List Byte :=
  let h (v : BitVec 16) : List Byte := leBytes 2 v.toNat
  h (x.rxSeq[1] - 1) ++ h (x.rxSeq[2] - 1) ++ h x.freed[0] ++ h x.freed[1] ++ h x.freed[2] ++
    [BitVec.ofNat 8 (x.nak[0].isSome.toNat + 2 * x.nak[1].isSome.toNat)] ++ List.replicate 5 0

/-- A frame goes on the lanes: its bytes, its slots, and for a data frame the record of 01 R15. -/
def putOnLanes (p : Port) (bytes : List Byte) (data : Bool) (c : Chip) : Chip :=
  let s := slotNow c
  let n := slotsOf bytes.length (lanesOf (lwidth c p))
  let w := lanesOf (lwidth c p)
  let blocks (l : Fin 4) : List (BitVec 64) :=
    if l.val < w then (List.range n).map (fun k => laneBlock w bytes k l.val) else []
  updLink p (fun x => { x with
    sending := bytes, busy := s + n, blocks := Vector.ofFn blocks,
    dataLog := (x.dataLog.filter (fun e => decide (s < e.1 + e.2 + 160))) ++ (if data then [(s, n)] else []) }) c

/-- A discard of a management or data frame raises the plane's NAK, unless one stands (R380). -/
def raiseNak (p : Port) (pl : Nat) (c : Chip) : Chip :=
  let r : Fin 2 := Fin.ofNat 2 (pl - 1)
  if pl = plCtl ∨ (lport c p).nak[r].isSome then c
  else updLink p (fun x => { x with nak := x.nak.set r (some c.now), status := true }) (c.satInc (llP p 0x20) 16 16)

/-- A frame is read from the link buffers: one that meets an uncorrectable word there is treated as received with a bad CRC (15 R342):
it is counted and raises the NAK of the port it came from; it goes on stomped where it is cut through (R377), and is discarded where
the widths differ or the bridge took it in (R376, R385). -/
def fetchFrame (p : Port) (f : LFrame) (c : Chip) : Option LFrame × Chip :=
  let r := eccSpan (placeKey f.home) (64 * creditsOf f.size) c
  if r.1 then (some f, r.2)
  else
    let c := r.2.satInc (llP (f.from?.getD p) 0x18) 0 16
    match f.from? with
    | none => (some { f with stomp := true }, c)
    | some q =>
      if bridged c q || bridged c p then (none, c)
      else
        let c := raiseNak q f.plane.toNat c
        (if lwidth c q = lwidth c p then some { f with stomp := true } else none, c)

/-- A frame of plane `pl` is sent (R376 to R380): SEQ given, credit taken, and kept for replay unless it is stomped; its receive buffer
is free once its last byte has left. -/
def putFrame (p : Port) (pl : Fin 3) (f : LFrame) (again : Option (BitVec 16)) (c : Chip) : Chip :=
  let x := lport c p
  let seq := again.getD x.txSeq[pl]
  let c := putOnLanes p (frameBytes f seq) (pl == 2) c
  let k := creditsOf f.size
  let wait := (nextFrame x 0).isSome && pl == 2
  let c := updLink p (fun x => { x with credits := vmod x.credits pl (· - k), guard := wait }) c
  let r : Fin 2 := Fin.ofNat 2 (pl.val - 1)
  match again with
  | some _ => updLink p (fun x => { x with resend := vmod x.resend r (· - 1) }) c
  | none =>
    let c := updLink p (fun x =>
      let x := { x with queues := vmod x.queues pl (·.drop 1) }
      if pl.val = 0 then { x with txSeq := vmod x.txSeq pl (· + 1) }
      else if f.stomp then x
      else { x with txSeq := vmod x.txSeq pl (· + 1), replay := vmod x.replay r (· ++ [(seq, { f with from? := none, queued := c.now })]),
                    waiting := vmod x.waiting r (fun w => some (w.getD c.now)) }) c
    let c := updLink p (fun x => { x with out := if f.from?.isSome then some f else none }) c
    drained c

/-- The egress sends a frame, or drops one that it cannot read from the link buffers. -/
def sendFrame (p : Port) (pl : Fin 3) (f : LFrame) (again : Option (BitVec 16)) (c : Chip) : Chip :=
  match fetchFrame p f c with
  | (some f, c) => putFrame p pl f again c
  | (none, c) => freeFrame f (updLink p (fun x => { x with queues := vmod x.queues pl (·.drop 1) }) c)

/-- An Ethernet frame of the bridge (R385): destination, own address, VLAN tag, type, and the frame without its CRC. -/
def bridgeBytes (c : Chip) (f : LFrame) : List Byte :=
  let be16 (x : Nat) : List Byte := [BitVec.ofNat 8 (x / 256), BitVec.ofNat 8 x]
  let mac := leBytes 4 (c.reg (llR 0x38)).toNat ++ leBytes 2 (c.reg (llR 0x3C)).toNat
  let own := leBytes 6 (Config.macAddr (c.bit (llR 0x30) 0)).toNat
  let pcp := c.fld (llR 0x34) (4 * f.plane.toNat) 3
  mac.reverse ++ own.reverse ++ be16 0x8100 ++ be16 (2 ^ 13 * pcp + c.fld (llR 0x34) 16 12) ++ be16 (c.fld (llR 0x30) 16 16) ++
    headBytes f 0 ++ f.payload

/-- The bridge sends the first waiting frame, control first (R385): no credits and no replay; a frame with a bad CRC is
discarded. -/
def bridgeSend (c : Chip) : Chip :=
  let x := c.link.up
  match (List.finRange 3).find? (fun (pl : Fin 3) => !x.queues[pl].isEmpty) with
  | none => c
  | some pl => match x.queues[pl].head? with
    | none => c
    | some f =>
      let r := fetchFrame .up f c
      let c := r.2
      let whole := r.1.any (fun g => !g.stomp)
      let c := updLink .up (fun x => { x with queues := vmod x.queues pl (·.drop 1), sending := if whole then bridgeBytes c f else [] }) c
      let c := freeFrame f c
      drained c

/-- A frame boundary at the egress of port `p` (01 R15). -/
def egress (p : Port) (c : Chip) : Chip :=
  if bridged c p then bridgeSend c
  else if lstate c p ≠ lsUp ∨ slotNow c < (lport c p).busy then c
  else
    let c := outDone p c
    let x := lport c p
    match egressPick x (slotNow c) with
    | some 3 =>
      let wait := (nextFrame x 0).isSome
      let f : LFrame := { dst := 0, src := BitVec.ofNat 6 (ownAddr c), plane := 3, typ := 1, hop := 0, payload := statusPayload x, stomp := false,
                          from? := none, queued := c.now, home := 0 }
      updLink p (fun x => { x with status := false, statusAt := c.now, guard := wait }) (putOnLanes p (frameBytes f 0) true c)
    | some pl => match nextFrame x (credIx pl) with
      | some (f, again) => sendFrame p (credIx pl) f again c
      | none => c
    | none => c

/-- One lane in one slot (R365, R366): the next data block that waits for it, else the idle block, scrambled; a lane that transmits
nothing has none. -/
def laneSlot (on : Bool) (x : LPort) (l : Fin 4) : Option Block × BitVec 58 × List (BitVec 64) :=
  if !on then (none, x.scr[l], x.blocks[l])
  else
    let b : Block := match x.blocks[l] with
      | d :: _ => { head := headData, body := d }
      | [] => idleBlock
    let r := scramble x.scr[l] b.body
    (some { b with body := r.1 }, r.2, x.blocks[l].drop 1)

/-- A slot begins on the lanes of port `p`: its active lanes transmit while it is UP or trains outside the silent interval (R369). -/
def lineSlot (p : Port) (c : Chip) : Chip :=
  let w := lanesOf (lwidth c p)
  let on := lstate c p == lsUp || (lstate c p == lsTraining && !(lport c p).silent)
  updLink p (fun x =>
    let f (l : Fin 4) := laneSlot (on && decide (l.val < w)) x l
    { x with line := Vector.ofFn (fun l => (f l).1), scr := Vector.ofFn (fun l => (f l).2.1), blocks := Vector.ofFn (fun l => (f l).2.2) }) c

/-- Whether a slot begins in the present cycle, and what it brings. -/
def blockCycle (p : Port) (c : Chip) : Chip :=
  if slotNow { c with now := c.now + 1 } = slotNow c then c else lineSlot p c

/-! ### Replay (R380, R381) -/

/-- The replay limit is reached (R381). -/
def replayLimit (p : Port) (c : Chip) : Chip :=
  let c := c.setBits (llP p 4) (2 ^ 27)
  retrainPort p (raiseFault (146 + portIx p) (c.reg (llP p 4)) c)

/-- The egress resends a plane from ACK + 1; an occasion that finds 8 resends without an advance is the limit. A resend
already waiting is not made twice (R386). -/
def resendPlane (p : Port) (pl : Fin 2) (c : Chip) : Chip :=
  let x := lport c p
  let n := x.replay[pl].length
  if n = 0 ∨ x.resend[pl] = n then c
  else if 8 ≤ x.resends[pl] then replayLimit p c
  else
    let c := c.satInc (llP p 0x20) 0 16
    updLink p (fun x => { x with resend := x.resend.set pl n, resends := vmod x.resends pl (· + 1),
                                 waiting := x.waiting.set pl (some c.now) }) c

/-- A partner's ACK of a plane (R380): the frame that is then the oldest has waited since it was sent, or sent again. -/
def ackPlane (p : Port) (pl : Fin 2) (ack : BitVec 16) (c : Chip) : Chip :=
  updLink p (fun x =>
    let q := unacked ack x.replay[pl]
    if q.length = x.replay[pl].length then x
    else { x with replay := x.replay.set pl q, resend := vmod x.resend pl (min q.length), resends := x.resends.set pl 0,
                  waiting := x.waiting.set pl (q.head?.map (fun e => max e.2.queued (x.waiting[pl].getD 0))) }) c

/-- A STATUS received (R379, R386): credits first, then acknowledgements, then NAKs. -/
def statusTake (p : Port) (payload : List Byte) (c : Chip) : Chip :=
  let h (i : Nat) : BitVec 16 := BitVec.ofNat 16 (leNat ((payload.drop i).take 2))
  let c := (List.finRange 3).foldl (fun (c : Chip) (pl : Fin 3) =>
    updLink p (fun x => { x with credits := vmod x.credits pl (· + (h (4 + 2 * pl.val) - x.seen[pl]).toNat),
                                 seen := x.seen.set pl (h (4 + 2 * pl.val)) }) c) c
  let c := ackPlane p 1 (h 2) (ackPlane p 0 (h 0) c)
  let b := (payload[10]?).getD 0
  let c := if b.getLsbD 0 then resendPlane p 0 c else c
  if b.getLsbD 1 then resendPlane p 1 c else c

/-- The oldest unacknowledged frame of a plane has waited LL_RTMO (R380). -/
def replayExpire (p : Port) (pl : Fin 2) (c : Chip) : Chip :=
  if lstate c p = lsUp ∧ (lport c p).waiting[pl].isSome then resendPlane p pl c else c

/-- LL_RTMO in cycles of CLK_C; 0 acts as 1. -/
def replayCycles (c : Chip) (p : Port) : Nat := 500 * max (c.fld (llP p 0x10) 0 16) 1

/-- The oldest control frame held for a port that is not UP is discarded (R375). -/
def holdDrop (p : Port) (c : Chip) : Chip :=
  if lstate c p = lsUp ∨ bridged c p = true then c
  else match (lport c p).queues[0] with
    | f :: rest => freeFrame f (countEgressDrop p (updLink p (fun x => { x with queues := x.queues.set 0 rest }) c))
    | [] => c

/-- No STATUS has been sent for 10 µs (R379). -/
def statusDue (p : Port) (c : Chip) : Chip := if lstate c p = lsUp then updLink p (fun x => { x with status := true }) c else c

/-- 40 µs have passed since a NAK (R380). -/
def nakEnd (p : Port) (pl : Fin 2) (c : Chip) : Chip := updLink p (fun x => { x with nak := x.nak.set pl none }) c

/-- A write of LL_WAKECTL (R384): the wake signal for DUR × 10 µs, on a port that is not UP. -/
def wakeSend (p : Port) (c : Chip) : Chip :=
  let d := c.fld (llR 0x20) 8 8
  if lstate c p = lsUp then c
  else updLink p (fun x => { x with wakeEnd := c.now + 5000 * (if d = 0 then 10 else d) }) c

end Sys2Proof.Machine
end

