-- ==== Sys2Proof/Machine/LinkRun.lean ====
section
/-! DEFINITION. Reception on the link (16 R371 to R385) and the commands of the link. -/

namespace Sys2Proof.Machine

/-! ### The command queue (17 R390, R392) -/

def cmdR (off : Nat) : Nat := 0x45008000 + off

/-- A reply packet leaves for the host (17 R390). -/
def cmdSend (bytes : List Byte) (c : Chip) : Chip :=
  sendOwn 0 1 1 bytes { c with cmd := { c.cmd with reply := bytes } }

/-- A refused command is counted (17 R393, R418). -/
def cmdRefused (authFail : Bool) (c : Chip) : Chip :=
  let c := (c.satInc (cmdR 0x18) 0 16).setBits (cmdR 4) 4
  if authFail then c.satInc (cmdR 0x18) 16 16 else c

/-- The twelve leading bytes of a reply without a session (17 R390). -/
def replyHead (c : Chip) (pkt : List Byte) (status seq flags : Nat) : List Byte :=
  let b (i : Nat) : Byte := pkt[i]?.getD 0
  let tag := if pkt.length < 4 then [0, 0] else [b 2, b 3]
  [b 0, BitVec.ofNat 8 status] ++ tag ++ leBytes 4 seq ++
    [BitVec.ofNat 8 c.devState, BitVec.ofNat 8 (flags + 2 * ((b 1).toNat / 2 % 2)), 0, 0]

/-- A command packet reaches the queue of four; a full queue answers BUSY (17 R392). -/
def cmdArrive (pkt : List Byte) (c : Chip) : Chip :=
  if c.cmd.queue.length < 4 then { c with cmd := { c.cmd with queue := c.cmd.queue ++ [pkt] } }
  else
    let c := cmdRefused false c
    cmdSend (replyHead c pkt 0x16 0 0) c

/-! ### Delivery (R372 to R374, R383) -/

/-- A write of system SRAM by an initiator, one ECC word after the other: false where some part ends in error. -/
def sramWrite : Nat → Nat → List Byte → Chip → Bool × Chip
  | 0, _, _, c => (true, c)
  | n + 1, a, bs, c =>
    if bs.isEmpty then (true, c)
    else
      let k := 8 - a % 8
      let part := bs.take k
      let r := sramPut a part.length (leNat part) c
      let rest := sramWrite n (a + part.length) (bs.drop k) r.2
      (r.1 && rest.1, rest.2)

/-- The entries of a PEA payload: word and value; none where the frame is discarded whole (R373). -/
def peaEntries (payload : List Byte) : Option (List (Nat × Word)) :=
  let n := payload.length
  let es := (List.range (n / 8)).map (fun i => (payload.drop (8 * i)).take 8)
  if n = 0 ∨ n % 8 ≠ 0 ∨ es.any (fun e => decide (512 ≤ leNat (e.take 4))) then none
  else some (es.map (fun e => (leNat (e.take 4), BitVec.ofNat 32 (leNat (e.drop 4)))))

/-- A PEA frame lands, every entry in one cycle, under the link's writer code (R373, 09 R224). -/
def peaDeliver (p : Port) (payload : List Byte) (c : Chip) : Chip :=
  match peaEntries payload with
  | some es => es.foldl (fun (c : Chip) e => peaWrite 0x26 e.1 e.2 c) c
  | none => linkDrop p c

/-- A WRITE frame (R374): written where every byte lies in system SRAM within the window. -/
def writeDeliver (p : Port) (payload : List Byte) (c : Chip) : Chip :=
  let a := leNat (payload.take 4)
  let data := payload.drop 8
  let lo := (c.reg (llR 0x10)).toNat
  let hi := (c.reg (llR 0x14)).toNat
  let inWin := decide (lo ≤ hi) && decide (lo ≤ a) && decide (a + data.length ≤ hi + 32)
  let inSram := decide (0x10000000 ≤ a) && decide (a + data.length ≤ 0x11000000)
  if !data.isEmpty && inWin && inSram then (sramWrite data.length a data c).2
  else linkDrop p (c.setBits (llR 4) 4)

/-- A frame is delivered locally (R372); a COMMAND for every device is dropped (17 R392), a REPLY is discarded. -/
def deliverFrame (p : Port) (f : LFrame) (c : Chip) : Chip :=
  if f.plane.toNat = plCtl then peaDeliver p f.payload c
  else if f.plane.toNat = plDat then writeDeliver p f.payload c
  else if f.typ = 0 then (if f.dst = 63 then linkDrop p c else cmdArrive f.payload c)
  else c

/-- An ENUM frame (R383): the address is taken, or judged; the frame is delivered to the MGE and forwarded. -/
def enumTake (p : Port) (f : LFrame) (c : Chip) : Chip :=
  let h := f.hop.toNat + 1
  if p = .dn then freeFrame f (linkDrop p c)
  else if 31 ≤ h then freeFrame f (c.setBits (llR 4) 2)
  else
    let c :=
      if !c.bit (llR 0) 8 then
        let c := c.setReg (llR 0) (((c.reg (llR 0)).withFld 0 6 h).withBit 8 true)
        if c.devState < 2 then enterState 2 c else c
      else if ownAddr c = h then c
      else c.setBits (llR 4) 1
    enqueue .dn { f with hop := BitVec.ofNat 5 h } (cmdArrive f.payload c)

/-- A frame accepted at port `p` is routed (R375). -/
def routeFrame (p : Port) (f : LFrame) (c : Chip) : Chip :=
  if f.plane.toNat = plMgt ∧ f.typ = 2 then enumTake p f c
  else match routeFrom (ownAddr c) p f.dst.toNat with
    | .deliver => freeFrame f (deliverFrame p f c)
    | .forward q => enqueue q f c
    | .both q => enqueue q f (deliverFrame p f c)
    | .drop => freeFrame f (linkDrop p c)

/-! ### Reception (R371, R377 to R382) -/

/-- A frame that arrived damaged or stomped and was being forwarded cut-through, the widths being equal, goes on stomped
(R376, R377), an ENUM frame with its new HOP (R383); any other is discarded and frees its credits. -/
def passStomped (p : Port) (f : LFrame) (c : Chip) : Chip :=
  let enum := decide (f.plane.toNat = plMgt ∧ f.typ = 2)
  let f := if enum then { f with hop := f.hop + 1 } else f
  let go (q : Port) : Chip :=
    if lstate c q = lsUp ∧ lwidth c q = lwidth c p then enqueue q { f with stomp := true } c else freeFrame f c
  if enum then (if p = .up ∧ f.hop ≠ 31 ∧ f.hop ≠ 0 then go .dn else freeFrame f c)
  else match routeFrom (ownAddr c) p f.dst.toNat with
    | .forward q => go q
    | .both q => go q
    | _ => freeFrame f c

/-- The receiver takes the SEQ of a frame (R380, R382): a control frame counts those lost before it. -/
def takeSeq (p : Port) (pl : Nat) (seq : BitVec 16) (c : Chip) : Chip :=
  let ix := credIx pl
  let c := if pl = plCtl then
      let lost := (seq - (lport c p).rxSeq[ix]).toNat
      if lost = 0 then c else c.satAdd (llP p 0x1C) 0 16 lost
    else c
  let c := updLink p (fun x => { x with rxSeq := x.rxSeq.set ix (seq + 1) }) c
  if pl = plCtl then c
  else updLink p (fun x => { x with nak := x.nak.set (Fin.ofNat 2 (pl - 1)) none, status := true }) c

/-- A frame whose header was accepted. -/
def takeFrame (p : Port) (h : LHead) (bs : List Byte) (c : Chip) : Chip :=
  let pl := h.plane.toNat
  let kind := rxKind h bs
  let c := match kind with
    | .ok => c
    | .stomped => c.satInc (llP p 0x18) 16 16
    | .damaged => c.satInc (llP p 0x18) 0 16
  let payload := (bs.drop 8).take h.len
  if pl = plLoc then (if kind = .ok ∧ h.typ = 1 then statusTake p payload c else c)
  else
    let f : LFrame := { dst := h.dst, src := h.src, plane := h.plane, typ := h.typ, hop := h.hop, payload := payload,
                        stomp := false, from? := some p, queued := c.now, home := 0 }
    let inOrder := pl == plCtl || (lport c p).rxSeq[credIx pl] == h.seq
    match kind with
    | .ok => if inOrder then routeFrame p f (takeSeq p pl h.seq c) else freeFrame f (raiseNak p pl c)
    | .stomped =>
      let c := if pl = plCtl then takeSeq p pl h.seq c else c
      if inOrder then passStomped p f c else freeFrame f c
    | .damaged =>
      let c := raiseNak p pl c
      if inOrder then passStomped p f c else freeFrame f c

/-- A bad header is counted and starts the hunt (R371). -/
def badHeader (p : Port) (c : Chip) : Chip := (c.satInc (llP p 0x24) 16 16).setBits (llP p 4) (2 ^ 28)

/-- The frame that a scan of received slots found goes to `take`, after the bad headers before it; an error slot within it is one
more (R366, R371). -/
def scanned (p : Port) (take : LHead → List Byte → Chip → Chip) (r : RxFrame) (c : Chip) : Chip :=
  let c := (List.range r.bad).foldl (fun (c : Chip) _ => badHeader p c) c
  match r.frame with
  | some (h, bs, cut) => let c := take h bs c; if cut then badHeader p c else c
  | none => c

/-- Slots received at a port that is UP, with a frame of the plane and type that the command names. Slots on which a lane loses lock
or reports high BER are lost with it (R370). -/
def linkReceive (p : Port) (plane typ : Nat) (slots : List Slot) (c : Chip) : Chip :=
  let take (h : LHead) (bs : List Byte) (c : Chip) : Chip :=
    if h.plane.toNat = plane ∧ h.typ.toNat = typ then takeFrame p h bs c else c
  if lstate c p ≠ lsUp then c
  else
    let w := lanesOf (lwidth c p)
    match watchSlots p 0 (slotNow c) (slots.map (·.take w)) c with
    | (some ber, c) => lockLost p ber c
    | (none, c) => scanned p take (rxScan false 0 (slots.map (rxSlot w))) c

/-- Slots received on one lane of a port in training, as a one-lane stream (R367, R368). The loss of its lock is a timeout there; high
BER ends only UP (R369, R370). -/
def trainReceive (p : Port) (l : Fin 4) (inverted : Bool) (skew : BitVec 16) (slots : List Slot) (c : Chip) : Chip :=
  let take (h : LHead) (bs : List Byte) (c : Chip) : Chip :=
    match rxKind h bs with
    | .ok =>
      if h.plane.toNat = plLoc ∧ h.typ = 0 ∧ h.len = 24 then trainTake p (trainOf ((bs.drop 8).take 24) l inverted skew) c else c
    | .stomped => c.satInc (llP p 0x18) 16 16
    | .damaged => c.satInc (llP p 0x18) 0 16
  if lstate c p ≠ lsTraining ∨ (lport c p).silent = true ∨ lphase c p < 2 ∨ lanesOf (lwidth c p) ≤ l.val then c
  else match watchSlots p l.val (slotNow c) (slots.map (·.take 1)) c with
    | (some false, c) => lockLost p false c
    | (_, c) => scanned p take (rxScan false 0 (slots.map (rxSlot 1))) c

/-! ### The bridge (R385) -/

/-- Bytes of a plane that the bridge's ingress queue holds. -/
def bridgeHeld (c : Chip) (pl : Nat) : Nat :=
  (lport c .dn).queues[credIx pl].foldl (fun n f => if f.from? = some .up then n + f.size else n) 0

/-- An Ethernet frame that the MAC `mac` receives: the bridge takes one of its EtherType, addressed to its MAC's own address. -/
def bridgeTake (mac : Bool) (dst : BitVec 48) (etype : BitVec 16) (payload : List Byte) (c : Chip) : Chip :=
  if bootMode c ≠ 1 ∨ mac ≠ c.bit (llR 0x30) 0 ∨ dst ≠ Config.macAddr mac ∨ etype.toNat ≠ c.fld (llR 0x30) 16 16 then c
  else if payload.length < 8 then c.satInc (llR 0x40) 0 16
  else match headOf payload with
    | none => c.satInc (llR 0x40) 16 16
    | some h =>
      let pl := h.plane.toNat
      if payload.length < 8 + h.len ∨ 8192 < bridgeHeld c pl + 12 + h.len then c.satInc (llR 0x40) 0 16
      else if pl = plLoc then c
      else routeFrame .up { dst := h.dst, src := 0, plane := h.plane, typ := h.typ, hop := h.hop,
                            payload := (payload.drop 8).take h.len, stomp := false, from? := some .up, queued := c.now, home := 0 } c

/-! ### Timers -/

/-- What falls due at a port in the present cycle (R367, R369, R375, R379, R380), in cycles of CLK_C. -/
def phaseCycles (ph : Nat) : Nat := if ph = 1 then 1000000 else if ph = 2 then 5000000 else 250000

def portTimers (p : Port) (c : Chip) : Chip :=
  let x := lport c p
  let age (t : Nat) : Nat := c.now - t
  let s := lstate c p
  let c :=
    if s = lsTraining then
      if x.silent then (if 100000 ≤ age x.since then silentEnd p c else c)
      else
        let us := decide (age x.since % 500 = 0)
        let c := if us then laneSample p c else c
        if phaseMet c p then phaseEnd p c
        else if phaseCycles (lphase c p) ≤ age x.since then trainFail p c
        else if us && decide (2 ≤ lphase c p) then trainSend p c else c
    else if s = lsFailed then
      (if c.fld (llP p 0) 8 8 ≠ 0 ∧ 500000 * c.fld (llP p 0) 8 8 ≤ age x.since then retryEnd p c else c)
    else if s = lsUp then
      let c := if 5000 ≤ age x.statusAt then statusDue p c else c
      (List.finRange 2).foldl (fun (c : Chip) (pl : Fin 2) =>
        let x := lport c p
        let c := match x.nak[pl] with
          | some t => if 20000 ≤ c.now - t then nakEnd p pl c else c
          | none => c
        match x.waiting[pl] with
        | some t => if replayCycles c p ≤ c.now - t then replayExpire p pl c else c
        | none => c) c
    else c
  let held := (lport c p).queues[0].takeWhile (fun f => decide (500 ≤ c.now - f.queued))
  let c := held.foldl (fun (c : Chip) _ => holdDrop p c) c
  blockCycle p (egress p c)

/-- The ends of a cycle of the link: what it received comes first (R386). -/
def linkCycle (c : Chip) : Chip := portTimers .dn (portTimers .up c)

/-! ### Commands -/

/-- TRAIN (R367, R368). -/
def execTrain (port : Port) (heard : LaneHeard) (s : State) : Host.Outcome State Fault Refusal :=
  s.onChip (trainReceive port heard.lane heard.inverted heard.skew heard.slots)

/-- TRAINING_PHASE_END (R367, R378). -/
def execTrainingPhaseEnd (port : Port) (s : State) : Host.Outcome State Fault Refusal := s.onChip (phaseEnd port)

/-- PHASE_TIMEOUT (R369). -/
def execPhaseTimeout (port : Port) (s : State) : Host.Outcome State Fault Refusal := s.onChip (trainFail port)

/-- SILENT_INTERVAL_END (R369). -/
def execSilentIntervalEnd (port : Port) (s : State) : Host.Outcome State Fault Refusal := s.onChip (silentEnd port)

/-- RETRY_TIMEOUT (R369). -/
def execRetryTimeout (port : Port) (s : State) : Host.Outcome State Fault Refusal := s.onChip (retryEnd port)

/-- LOCK_LOSS (R369, R370). -/
def execLockLoss (loss : LaneLoss) (s : State) : Host.Outcome State Fault Refusal := s.onChip (lockLost loss.port loss.ber)

/-- RETRAIN (R369, R370). -/
def execRetrain (ini : Initiator) (port : Port) (v : Word) (s : State) : Host.Outcome State Fault Refusal :=
  s.onChip (gatedWrite ini (llP port 0xC) (retrainWrite port v))

/-- LL_PCTL (R387, R388). -/
def execLlPctl (ini : Initiator) (port : Port) (v : Word) (s : State) : Host.Outcome State Fault Refusal :=
  s.onChip (gatedWrite ini (llP port 0) (pctlWrite port v))

/-- PEA (R373). -/
def execPea (port : Port) (slots : List Slot) (s : State) : Host.Outcome State Fault Refusal :=
  s.onChip (linkReceive port 0 0 slots)

/-- COMMAND (R372). -/
def execCommand (port : Port) (slots : List Slot) (s : State) : Host.Outcome State Fault Refusal :=
  s.onChip (linkReceive port 1 0 slots)

/-- REPLY (R372). -/
def execReply (port : Port) (slots : List Slot) (s : State) : Host.Outcome State Fault Refusal :=
  s.onChip (linkReceive port 1 1 slots)

/-- ENUM (R383). -/
def execEnum (port : Port) (slots : List Slot) (s : State) : Host.Outcome State Fault Refusal :=
  s.onChip (linkReceive port 1 2 slots)

/-- WRITE frame (R374). -/
def execWriteFrame (port : Port) (slots : List Slot) (s : State) : Host.Outcome State Fault Refusal :=
  s.onChip (linkReceive port 2 0 slots)

/-- STATUS frame (R379, R380). -/
def execStatusFrame (port : Port) (slots : List Slot) (s : State) : Host.Outcome State Fault Refusal :=
  s.onChip (linkReceive port 3 1 slots)

/-- FRAME_TRANSMIT (01 R15, R376). -/
def execFrameTransmit (port : Port) (s : State) : Host.Outcome State Fault Refusal := s.onChip (egress port)

/-- CONTROL_HOLD_TIMEOUT (R375). -/
def execControlHoldTimeout (port : Port) (s : State) : Host.Outcome State Fault Refusal := s.onChip (holdDrop port)

/-- REPLAY_TIMEOUT (R380, R381). -/
def execReplayTimeout (port : Port) (dataPlane : Bool) (s : State) : Host.Outcome State Fault Refusal :=
  s.onChip (replayExpire port (if dataPlane then 1 else 0))

/-- STATUS_TIMER (R379). -/
def execStatusTimer (port : Port) (s : State) : Host.Outcome State Fault Refusal := s.onChip (statusDue port)

/-- NAK_TIMEOUT (R380). -/
def execNakTimeout (port : Port) (dataPlane : Bool) (s : State) : Host.Outcome State Fault Refusal :=
  s.onChip (nakEnd port (if dataPlane then 1 else 0))

/-- LL_TXQ (R374). -/
def execLlTxq (ini : Initiator) (v : Word) (s : State) : Host.Outcome State Fault Refusal :=
  s.onChip (gatedWrite ini (llR 0x1000) (txqWrite v))

/-- A write of LL_WAKECTL (R384). -/
def wakectlWrite (v : Word) (c : Chip) : Chip :=
  let c := if v.bit 0 then wakeSend .up c else c
  if v.bit 1 then wakeSend .dn c else c

/-- LL_WAKECTL (R384). -/
def execLlWakectl (ini : Initiator) (v : Word) (s : State) : Host.Outcome State Fault Refusal :=
  s.onChip (gatedWrite ini (llR 0x24) (wakectlWrite v))

/-- BRIDGE_RECEIVE (R385). -/
def execBridgeReceive (frame : MacFrame) (s : State) : Host.Outcome State Fault Refusal :=
  s.onChip (bridgeTake frame.mac frame.dst frame.etype frame.payload)

/-- LL_CRCCNT (R388, 00 R8). -/
def execLlCrccnt (ini : Initiator) (port : Port) (s : State) : Host.Outcome State Fault Refusal :=
  s.onChip (gatedRead ini (llP port 0x18) (fun c => c.readClear (llP port 0x18)))

/-- LL_CTLCNT (R388, 00 R8). -/
def execLlCtlcnt (ini : Initiator) (port : Port) (s : State) : Host.Outcome State Fault Refusal :=
  s.onChip (gatedRead ini (llP port 0x1C) (fun c => c.readClear (llP port 0x1C)))

/-- LL_REPLCNT (R388, 00 R8). -/
def execLlReplcnt (ini : Initiator) (port : Port) (s : State) : Host.Outcome State Fault Refusal :=
  s.onChip (gatedRead ini (llP port 0x20) (fun c => c.readClear (llP port 0x20)))

/-- LL_DROPCNT (R388, 00 R8). -/
def execLlDropcnt (ini : Initiator) (port : Port) (s : State) : Host.Outcome State Fault Refusal :=
  s.onChip (gatedRead ini (llP port 0x24) (fun c => c.readClear (llP port 0x24)))

/-- LL_BRCNT (R388, 00 R8). -/
def execLlBrcnt (ini : Initiator) (s : State) : Host.Outcome State Fault Refusal :=
  s.onChip (gatedRead ini (llR 0x40) (fun c => c.readClear (llR 0x40)))

end Sys2Proof.Machine
end

