-- ==== Sys2Proof/Machine/NetCore.lean ====
section
/-! DEFINITION. Vehicle networks (20): the network clock, the time-event generators, and what the controllers report to
them. -/

namespace Sys2Proof.Machine

def netR (off : Nat) : Nat := 0x41080000 + off
/-- NET_TEV[i] register at `off` (R464). -/
def tevR (i off : Nat) : Nat := 0x41080100 + 0x20 * i + off

/-- The configuration of a generator as it governs the present cycle: a write acts from the next (R462). PERIOD values below 100
act as 100 (R460). -/
def tevMode (c : Chip) (i : Nat) : Nat := c.fld0 (tevR i 0) 0 3
def tevUnit (c : Chip) (i : Nat) : Nat := c.fld0 (tevR i 0) 3 4
def tevSel (c : Chip) (i : Nat) : Nat := c.fld0 (tevR i 0) 7 7
def tevPer (c : Chip) (i : Nat) : Nat := max (c.reg0 (tevR i 0xC)).toNat 100

/-! ### The clock (R456, R457) -/

/-- Nanoseconds of the clock, and the whole time in nanoseconds. -/
def netNs (c : Chip) : Nat := c.net.nanos / 2 ^ 24
def netNow (c : Chip) : Nat := c.net.secs * 10 ^ 9 + netNs c

/-- The clock at a time in 2⁻²⁴ ns, seconds modulo 2⁴⁸. -/
def netSetTime (t : Int) (c : Chip) : Chip :=
  let unit : Int := 10 ^ 9 * 2 ^ 24
  let s := t / unit
  { c with net := { c.net with secs := (s % 2 ^ 48).toNat, nanos := (t - s * unit).toNat } }

def netTime (c : Chip) : Int := (c.net.secs : Int) * (10 ^ 9 * 2 ^ 24) + (c.net.nanos : Int)

/-! ### Firing (R458, R459) -/

def updTev (i : Fin 16) (f : Tev → Tev) (c : Chip) : Chip := { c with net := { c.net with tevs := vmod c.net.tevs i f } }

/-- A generator fires. Its pulse comes in a cycle that begins 2 to 3 cycles after: 3 after a firing in the second cycle of
CLK_L, 2 or 3 (a free choice) after one in the first. Two firings for one cycle give one pulse and MISSF. -/
def tevFire (i : Fin 16) (second : Bool) (c : Chip) : Chip :=
  let (v, c) := c.free
  let d := if second || v.bit 0 then 3 else 2
  let c := (c.setReg (tevR i.val 0x14) (BitVec.ofNat 32 (netNs c))).setBits (tevR i.val 0x18) 1
  let c := if h : i.val < 2 then { c with net := { c.net with pps := c.net.pps.set i.val (c.now + 500) } } else c
  let c := if i.val < 2 then
      (c.unschedule (fun e => decide (e = .ppsEnd (Fin.ofNat 2 i.val)))).schedule 500 (.ppsEnd (Fin.ofNat 2 i.val))
    else c
  if c.net.tevs[i].pulses.contains (c.now + d) then c.setBits (tevR i.val 0x18) 2
  else (updTev i (fun t => { t with pulses := t.pulses ++ [c.now + d] }) c).schedule d (.tevPulse i)

/-- The pulse of source 480 + i (R458), which is also the discipline input of the bases that select it (02 R52). -/
def tevPulse (i : Fin 16) (c : Chip) : Chip :=
  let c := c.setReg (tevR i.val 0x10) c.capTime
  let c := updTev i (fun t => { t with pulses := t.pulses.filter (fun n => decide (c.now < n)) }) c
  let c := evPulse (480 + i.val) c
  (List.finRange 8).foldl (fun (c : Chip) (p : Fin 8) =>
    if c.fld (pbR p 0x64) 0 5 = i.val then c.schedule 0 (.disciplinePulse p) else c) c

/-- A PERIODIC generator whose due instant is reached or passed fires (R458). -/
def tevReach (second : Bool) (c : Chip) : Chip :=
  (List.finRange 16).foldl (fun (c : Chip) (i : Fin 16) =>
    if tevMode c i.val = 1 ∧ c.net.tevs[i].due ≤ netNow c then
      tevFire i second (updTev i (fun t => { t with due := t.due + tevPer c i.val }) c)
    else c) c

/-- A generator at a step of the clock that passes due instants (R460): one firing, the instants passed over counted. -/
def tevStep (i : Fin 16) (c : Chip) : Chip :=
  let due := c.net.tevs[i].due
  let p := tevPer c i.val
  if tevMode c i.val = 1 ∧ due ≤ netNow c then
    let n := (netNow c - due) / p + 1
    let c := updTev i (fun t => { t with due := due + n * p }) c
    let c := c.satAdd (tevR i.val 0x1C) 0 16 n
    tevFire i false (c.setBits (tevR i.val 0x18) 2)
  else c

/-- The due instant is formed anew from START, with the clock's seconds [47:32] (R460, R464). An instant already past
counts as passed over (DEDUCED, log 41). -/
def tevReform (i : Fin 16) (c : Chip) : Chip :=
  let s := (c.reg (tevR i.val 8)).toNat + c.net.secs / 2 ^ 32 * 2 ^ 32
  tevStep i (updTev i (fun t => { t with due := s * 10 ^ 9 + c.fld (tevR i.val 4) 0 30 }) c)

/-- One cycle of CLK_L: the clock advances by NET_INCR (R456). -/
def netTickL (second : Bool) (c : Chip) : Chip :=
  tevReach second (netSetTime (netTime c + ((c.reg (netR 0xC)).toNat : Int)) c)

/-- The due instants that writes of the cycle before form anew (R460). -/
def netTurn (c : Chip) : Chip :=
  let due := c.net.reform.filter (fun e => decide (e.1 < c.now))
  let c := { c with net := { c.net with reform := c.net.reform.filter (fun e => !decide (e.1 < c.now)) } }
  due.foldl (fun (c : Chip) e => tevReform (Fin.ofNat 16 e.2) c) c

/-- The two cycles of CLK_L in a cycle of CLK_C: the clock advances behind the accesses of its cycle (R462). -/
def netCycle (c : Chip) : Chip := netTickL true (netTickL false c)

/-! ### Register writes (R456, R460, R463) -/

def netSteps (forward : Bool) (c : Chip) : Chip :=
  if forward then (List.finRange 16).foldl (fun (c : Chip) (i : Fin 16) => tevStep i c) c else c

def netAdjWrite (v : Word) (c : Chip) : Chip :=
  netSteps (decide (0 < v.toInt)) (netSetTime (netTime c + v.toInt * 2 ^ 24) c)

def netSetsWrite (v : Word) (c : Chip) : Chip :=
  let t : Int := (v.toNat : Int) * (10 ^ 9 * 2 ^ 24) + (c.fld (netR 0x14) 0 30 : Int) * 2 ^ 24
  netSteps (decide (netTime c < t)) (netSetTime t c)

/-- A read of NET_TIMEN, and what it copies for the initiator (R457). -/
def netTimenRead (ini : Initiator) (c : Chip) : Word × Chip :=
  (BitVec.ofNat 32 (netNs c), { c with net := { c.net with copies := aset 0 c.net.copies (iniIx ini) c.net.secs } })

def netSecsRead (ini : Initiator) (c : Chip) (hi : Bool) : Word :=
  let s := aread 0 c.net.copies (iniIx ini)
  BitVec.ofNat 32 (if hi then s / 2 ^ 32 else s)

/-- A write of NET_TEVCFG, NET_TEVSTART, NET_TEVSTARTS or NET_TEVPER (R460, R463, R464), locked by SEAL where MODE ≠ 0.
START, PERIOD and MODE form the due instant anew in the next cycle. -/
def tevWrite (i : Fin 16) (reg : Fin 4) (v : Word) (c : Chip) : Chip :=
  let a := tevR i.val (4 * reg.val)
  let keep : Word := if reg = 0 then 0x7FFF else if reg = 1 then 0x3FFFFFFF else 0xFFFFFFFF
  if c.sealed && c.fld (tevR i.val 0) 0 3 != 0 && reg != 2 then c
  else
    let old := c.fld (tevR i.val 0) 0 3
    let c := c.setReg a (v &&& keep)
    if reg = 0 ∧ c.fld (tevR i.val 0) 0 3 = old then c
    else { c with net := { c.net with reform := c.net.reform ++ [(c.now, i.val)] } }

/-! ### Controllers (R455, R458) -/

/-- Every generator that `p` names fires. -/
def tevFireIf (p : Nat → Bool) (c : Chip) : Chip :=
  (List.finRange 16).foldl (fun (c : Chip) (i : Fin 16) => if p i.val then tevFire i false c else c) c

/-- The MACs run: their domain is on and their SerDes PLL in order (21 R466, R472). -/
def ethOn (c : Chip) : Bool := pdOn c 49 && !c.bit (sysR 0x100) 10

/-- The two stamps of a frame of controller `k` (R455). -/
def netStamp (k : Nat) (c : Chip) : Chip :=
  { c with net := { c.net with stamps := aput c.net.stamps k (c.capTime.toNat, netNow c) } }

def ethEvent (mode : Nat) (m q : Nat) (c : Chip) : Chip :=
  if ethOn c then
    let c := netStamp (2 * (mode - 2) + m) c
    tevFireIf (fun i => tevMode c i == mode && tevUnit c i % 2 == m && tevSel c i % 8 == q) c else c

/-! ### Commands -/

/-- NET_ADJ (R456, R460). -/
def execNetAdj (ini : Initiator) (v : Word) (s : State) : Host.Outcome State Fault Refusal :=
  s.onChip (gatedWrite ini (netR 0x10) (netAdjWrite v))

/-- NET_SETS (R456, R460). -/
def execNetSets (ini : Initiator) (v : Word) (s : State) : Host.Outcome State Fault Refusal :=
  s.onChip (gatedWrite ini (netR 0x18) (netSetsWrite v))

/-- NET_TIMEN (R457). -/
def execNetTimen (ini : Initiator) (s : State) : Host.Outcome State Fault Refusal :=
  s.onChip (gatedRead ini (netR 0) (netTimenRead ini))

/-- NET_TEVCFG, with START and PERIOD (R458, R460). -/
def execNetTevcfg (ini : Initiator) (i : Fin 16) (reg : Fin 4) (v : Word) (s : State) : Host.Outcome State Fault Refusal :=
  s.onChip (gatedWrite ini (tevR i.val (4 * reg.val)) (tevWrite i reg v))

/-- TIME_EVENT_FIRE (R458): a PERIODIC generator's due instant is reached. -/
def execTimeEventFire (i : Fin 16) (s : State) : Host.Outcome State Fault Refusal :=
  s.onChip (fun c => if tevMode c i.val = 1 then tevFire i false (updTev i (fun t => { t with due := t.due + tevPer c i.val }) c) else c)

/-- NET_TEVMISS (R464, 00 R8). -/
def execNetTevmiss (ini : Initiator) (i : Fin 16) (s : State) : Host.Outcome State Fault Refusal :=
  s.onChip (gatedRead ini (tevR i.val 0x1C) (fun c => c.readClear (tevR i.val 0x1C)))

/-- ETH_RECEIVE (R454, R458). -/
def execEthReceive (m : Fin 2) (q : Fin 8) (s : State) : Host.Outcome State Fault Refusal :=
  s.onChip (ethEvent 2 m.val q.val)

/-- ETH_TRANSMIT_END (R458). -/
def execEthTransmitEnd (m : Fin 2) (q : Fin 8) (s : State) : Host.Outcome State Fault Refusal :=
  s.onChip (ethEvent 3 m.val q.val)

/-- GATE_CYCLE_START (R458). -/
def execGateCycleStart (m : Fin 2) (s : State) : Host.Outcome State Fault Refusal :=
  s.onChip (fun c => if ethOn c then tevFireIf (fun i => tevMode c i == 6 && tevUnit c i % 2 == m.val) c else c)

/-- CAN_RECEIVE (R458). -/
def execCanReceive (i : Fin 8) (filt : Fin 128) (s : State) : Host.Outcome State Fault Refusal :=
  s.onChip (fun c => if pdOn c 50 then
    let c := netStamp (4 + i.val) c
    tevFireIf (fun k => tevMode c k == 4 && tevUnit c k % 8 == i.val && tevSel c k == filt.val) c else c)

/-- SENT_RECEIVE (R458). -/
def execSentReceive (i : Fin 16) (s : State) : Host.Outcome State Fault Refusal :=
  s.onChip (fun c => if pdOn c 50 then
    let c := netStamp (12 + i.val) c
    tevFireIf (fun k => tevMode c k == 5 && tevUnit c k == i.val) c else c)

/-- ETH_PPS is low again (R461). -/
def ppsLow (k : Fin 2) (c : Chip) : Chip := { c with net := { c.net with pps := c.net.pps.set k 0 } }

/-- PPS_END (R461). -/
def execPpsEnd (k : Fin 2) (s : State) : Host.Outcome State Fault Refusal := s.onChip (ppsLow k)

/-- The bridge MAC reports link: with BOOTMODE 01 the first report makes the device LINKED (17 R395). -/
def macLinkNow (m : Nat) (c : Chip) : Chip :=
  if bootMode c = 1 ∧ c.fld (llR 0x30) 0 1 = m then
    let c := { c with cmd := { c.cmd with macUp := true } }
    if c.devState = 0 then enterState 1 c else c
  else c

/-- MAC_LINK (17 R395). -/
def execMacLink (m : Fin 2) (s : State) : Host.Outcome State Fault Refusal := s.onChip (macLinkNow m.val)

/-- STUCK_BUS (R452): the flag of I2C[i], whose own drive is released. -/
def stuckNow (i : Fin 4) (c : Chip) : Chip :=
  if pdOn c 50 then { c with net := { c.net with stuck := c.net.stuck ||| BitVec.ofNat 4 (2 ^ i.val) } } else c

/-- STUCK_BUS (R452). -/
def execStuckBus (i : Fin 4) (s : State) : Host.Outcome State Fault Refusal := s.onChip (stuckNow i)

end Sys2Proof.Machine
end

