-- ==== Sys2Proof/Machine/PowerCore.lean ====
section
/-! DEFINITION. Power, clocks, resets and watchdogs (21 R465 to R476, R482): domains, standby and wake, monitors, the
reset scopes. -/

namespace Sys2Proof.Machine

/-! ### Resets (R473, R474, R476) -/

/-- The registers that keep their values through every reset but loss of the always-on supply (R476). -/
def keptReg (a : Nat) : Bool :=
  a == 0x43000200 || a == 0x4300001C || a == 0x43000020 || (decide (0x43000400 ≤ a) && decide (a < 0x43000480)) ||
  (decide (0x43000500 ≤ a) && decide (a < 0x43000600))

/-- Bits of RST_CAUSE (R485). -/
def rcPin : Nat := 1
def rcSupply : Nat := 2
def rcCmd : Nat := 3
def rcFault : Nat := 4
def rcWake : Nat := 5

/-- The fuses as a reset finds them: of a slot whose programming it cuts off, each bit is programmed or not, which is open (18
R436). -/
def fusesCut (c : Chip) : Fuses × Chip :=
  match c.sec.fprog with
  | none => (c.fuses, c)
  | some (k, x) =>
    let r := (List.range 12).foldl (fun (r : Nat × Chip) _ => let f := r.2.free; (2 ^ 32 * r.1 + f.1.toNat, f.2)) (0, c)
    let k : Fin 2 := if k = 0 then 0 else 1
    ({ c.fuses with anchor := c.fuses.anchor.set k.val (c.fuses.anchor[k] ||| (x &&& BitVec.ofNat 384 r.1)) }, r.2)

/-- Device reset (R473): every block at its reset values but the registers of R476; BOOTMODE sampled again; its cause
recorded beside earlier ones not yet cleared (DEDUCED, log 42). The test access port has a reset of its own (18 R432). -/
def deviceReset (boot cause src : Nat) (c : Chip) : Chip :=
  let (fuses, c) := fusesCut c
  let rc := (c.reg 0x43000200 ||| BitVec.ofNat 32 (2 ^ cause))
  let rc := if cause = rcFault then rc.withFld 8 8 src else rc
  let keep := c.regs.filter (fun e => keptReg e.1)
  let n : Chip := { Chip.reset with
    fresh := c.fresh, fuses := fuses, regs := keep, power := { Power.reset with aon := c.power.aon },
    sec := { Sec.reset with tap := c.sec.tap, boundary := c.sec.boundary, shift := c.sec.shift, draws := c.sec.draws } }
  (n.setReg 0x43000200 rc).setFld (llR 0) 9 2 boot

/-- Power-on reset: the always-on supply was lost, so nothing is kept (R473, R476). -/
def powerOn (boot : Nat) (c : Chip) : Chip :=
  let (fuses, c) := fusesCut c
  ({ Chip.reset with fresh := c.fresh, fuses := fuses } : Chip).setFld (llR 0) 9 2 boot

/-- The end of device reset (R474): fuses read (18 R420, R437), safe state with cause STOP (05 R136), bank supplies
recorded (19 R438), the device secret and the DRBG (18 R421, R430), the MGE's start, and the links (16 R387). -/
def resetEndNow (c : Chip) : Chip :=
  let f := c.fuses
  let c := copySoon (setCauseAll causeStop c)
  let c := ((c.setReg 0x50000004 (f.devid.truncate 32)).setReg 0x50000008 ((f.devid >>> 32).truncate 32))
  let prog (k : Fin 2) : Nat := (f.anchor[k] != 0).toNat
  let c := c.setReg 0x5000000C (BitVec.ofNat 32 (prog 0 + 2 * prog 1 + 4 * f.revoke.toNat))
  let count := (List.range 64).foldl (fun n i => n + (f.rollback.getLsbD i).toNat) 0
  let c := c.setReg 0x50000010 (BitVec.ofNat 32 count)
  let c := (List.range 16).foldl (fun (c : Chip) b =>
    c.setReg (gpioBank b 0x28) (BitVec.ofNat 32 (1 + 2 * (Config.bankV33 b).toNat))) c
  let c := c.setBits 0x50000000 2
  let c := if Config.pufOk f.helper then c.setBits 0x50000000 1
    else let c := c.setBits 0x50000000 (2 ^ 8); raiseFault 148 (c.reg 0x50000000) c
  let c := coreRelease .mge c
  let bm := bootMode c
  let c := if bm = 1 then c.clrBits (llP .up 0) 1 else if bm = 3 then c.clrBits (llP .dn 0) 1 else c
  let go (p : Port) (c : Chip) : Chip := if portEn c p then trainFrom p (maxWidth c p) c else c
  go .dn (go .up c)

/-- The end of a slice reset (05 R142). -/
def sliceResetEndNow (s : Fin 12) (c : Chip) : Chip :=
  { c with slices := vmod c.slices s (fun x => { x with resetUntil := none }) }

/-- A core reset that does not hold the core: it starts again where it was released (11 R250). -/
def coreRestart (k : CoreId) (c : Chip) : Chip :=
  if (coreGet c k).inReset then coreReset k false c else coreRelease k (coreReset k false c)

/-- The RESET reaction of a fault source (R478, R479). -/
def faultResetNow (i : Nat) (c : Chip) : Chip :=
  if 64 ≤ i ∧ i < 96 then
    match coreOfBit (i - 64) with
    | some k => coreRestart k c
    | none => c
  else match fltSlice i with
    | some s => if h : s < 12 then sliceReset ⟨s, h⟩ c else c
    | none => deviceReset (bootMode c) rcFault i c

/-- SAFE_N as driven, low while asserted: in device reset and in every state but RUNNING, in standby, and while DEVFLT holds
(R480). -/
def safeN (c : Chip) : PadLvl :=
  lvlOf (decide (c.devState = 8) && !inStandby c && !(List.range 12).any (fun s => causeOn c s causeDevflt))

/-! ### Domains (R465, R466) -/

/-- The domains that are fixed, and those of the slices, as masks over both words of PMU_PDCTL. -/
def fixedDomain (d : Nat) : Bool := d < 6 || d == 18 || d == 19 || (decide (53 ≤ d) && decide (d < 56))
def sliceDomain (d : Nat) : Option (Nat × Bool) :=
  if 20 ≤ d ∧ d < 32 then some (d - 20, false) else if 32 ≤ d ∧ d < 44 then some (d - 32, true) else none

/-- A memory loses its content. -/
def memLose (lo n : Nat) (c : Chip) : Chip :=
  { c with mem := adrop lo n c.mem, ecc := { c.ecc with bad := adrop lo n c.ecc.bad } }

def coreOff (k : CoreId) (c : Chip) : Chip := memLose (tcmKey k 0) (tcmSize k) (coreReset k true c)

/-- Converter cores at their reset state. -/
def adcsOff (ks : List Nat) (c : Chip) : Chip :=
  { c.unschedule (ofAdcs ks) with adcs := resetVec c.adcs ks Adc.reset }

/-- The blocks of a domain at their reset values and its memories empty (R466). The configuration of a slice's windows lies in
its digital domain (07 R182). -/
def domainReset (d : Nat) (c : Chip) : Chip :=
  if h : 6 ≤ d ∧ d < 10 then coreOff (.app ⟨d - 6, by omega⟩) c
  else if 10 ≤ d ∧ d < 18 then memLose (0x10000000 + 0x200000 * (d - 10)) 0x200000 c
  else if h : 20 ≤ d ∧ d < 32 then
    let s : Fin 12 := ⟨d - 20, by omega⟩
    let c := coreOff (.le ⟨2 * s.val, by omega⟩) (coreOff (.le ⟨2 * s.val + 1, by omega⟩) c)
    let c := winsLook s.val ((c.dropRegs (slR s.val 0x1000) 0x3000).unschedule (fun e => match e with
      | .laneResult x => x == s
      | .tripInputActive x _ => x == s
      | _ => false))
    { c.dropRegs (slR s.val 0x5000) 0xB000 with
        xls := c.xls.set s.val Xl.reset, wins := resetVec c.wins (chansOf s.val) Win.reset,
        pwms := resetVec c.pwms (chansOf s.val) { Pwm.reset with safe := causes c s.val != 0 } }
  else if 32 ≤ d ∧ d < 44 then
    let s := d - 32
    let c := adcsOff [2 * s, 2 * s + 1] (c.dropRegs (slR s 0x4000) 0x1000)
    (chansOf s).foldl (fun (c : Chip) w => winOff (Fin.ofNat 96 w) c) c
  else if d = 44 then adcsOff [24, 25, 26, 27] (c.dropRegs 0x400F0000 0x2000)
  else if d = 45 then adcsOff [28, 29, 30, 31] ((c.dropRegs 0x400F2000 0x6000).dropRegs 0x400FA000 0x1000)
  else if d = 46 then { c.dropRegs 0x400F8000 0x2000 with sdms := Vector.replicate 32 Sdm.reset }
  else if d = 47 then { c.dropRegs 0x45000100 0x100 with link := { c.link with up := LPort.reset } } |> drained
  else if d = 48 then { c.dropRegs 0x45000200 0x100 with link := { c.link with dn := LPort.reset } } |> drained
  else if h : 51 ≤ d ∧ d < 53 then
    let u : Fin 2 := ⟨d - 51, by omega⟩
    { c.dropRegs (dmaR u.val 0) 0x10000 with dmas := c.dmas.set u DmaUnit.reset }
  else c

/-- A domain loses its power and its state (R466). -/
def domainOff (d : Nat) (c : Chip) : Chip :=
  let c := domainReset d c
  if d < 32 then c.clrBits (sysR 0x10) (2 ^ d) else c.clrBits (sysR 0x14) (2 ^ (d - 32))

def pdctlBit (c : Chip) (d : Nat) : Bool := if d < 32 then c.bit (sysR 8) d else c.bit (sysR 0xC) (d - 32)
def pdctlPut (d : Nat) (b : Bool) (c : Chip) : Chip :=
  if d < 32 then c.putBit (sysR 8) d b else c.putBit (sysR 0xC) (d - 32) b

/-- The addresses of accesses in progress: loads and stores of cores whose target has not answered, a held READ, writes through
the TCM window, and DMA reads that take one access at a time. -/
def inProgress (c : Chip) : List Nat :=
  c.cores.toList.flatMap (fun s =>
    (s.stalls ++ s.long).filterMap (fun o => match o.kind with
      | .wait a _ _ _ _ => some a
      | .sram a _ _ => some a
      | _ => none) ++ s.stores.map (·.addr)) ++
  (c.cmd.held.map (fun h => h.addrs.take 1)).getD [] ++ c.tcmWin.puts.map (·.1) ++
  c.dmas.toList.flatMap (fun u => u.chans.toList.filterMap (fun x => if x.part.isSome then x.cur.map (·.src.toNat) else none))

def domainBusy (c : Chip) (d : Nat) : Bool := (inProgress c).any (fun a => (domainsAt a).contains d)

/-- The domains whose last access has completed lose their power (R466). -/
def domainsEnd (c : Chip) : Chip :=
  let ds := c.power.offDue.filter (fun d => !domainBusy c d)
  ds.foldl (fun (c : Chip) d => domainOff d c) { c with power := { c.power with offDue := c.power.offDue.filter (fun d => !ds.contains d) } }

/-- One bit of a write of PMU_PDCTL (R466); a domain goes off after the accesses in progress to it. A domain completes its power-up
within 20 µs, when is open (log 5). -/
def pdctlOne (d : Nat) (want : Bool) (c : Chip) : Chip :=
  if fixedDomain d || pdctlBit c d == want then c
  else if c.sealed && (sliceDomain d).isNone then c
  else if want then
    let (v, c) := c.free
    (pdctlPut d true c).schedule (v.toNat % 10001) (.domainPowerUp (Fin.ofNat 56 d))
  else
    let state := match sliceDomain d with
      | some (s, _) => c.fld (slR s 0) 0 3
      | none => 0
    if state = 0 ∨ state = 5 then
      let c := pdctlPut d false c
      if domainBusy c d then { c with power := { c.power with offDue := c.power.offDue ++ [d] } } else domainOff d c
    else pdaccf c

def pdctlWrite (hi : Bool) (v : Word) (c : Chip) : Chip :=
  (List.range (if hi then 24 else 32)).foldl (fun (c : Chip) i => pdctlOne (if hi then 32 + i else i) (v.bit i) c) c

/-- A domain is powered (R466): slice reset for a slice's digital domain, R182 for its analogue one; a port that comes
back enabled trains. -/
def domainUpNow (d : Fin 56) (c : Chip) : Chip :=
  if c.power.offDue.contains d.val then c.schedule 1 (.domainPowerUp d)
  else if pdOn c d.val || !pdctlBit c d.val then c
  else
    let c := if d.val < 32 then c.setBits (sysR 0x10) (2 ^ d.val) else c.setBits (sysR 0x14) (2 ^ (d.val - 32))
    let c := domainReset d.val c
    match sliceDomain d.val with
    | some (s, false) => sliceReset (Fin.ofNat 12 s) (copySoon c)
    | some (s, true) =>
      (chansOf s).foldl (fun (c : Chip) w => if c.bit (winR w 0) 0 then winAgain (Fin.ofNat 96 w) c else c) c
    | none =>
      let back (p : Port) : Chip := if bridged c p then c.clrBits (llP p 0) 1
        else if portEn c p then trainFrom p (maxWidth c p) c else c
      if d.val = 47 then back .up else if d.val = 48 then back .dn else c

/-! ### Standby and wake (R467 to R470) -/

/-- A core stops at an instruction boundary and will resume there (R468, R470). -/
def stopCore (k : CoreId) (c : Chip) : Chip :=
  match (coreGet c k).running with
  | some b => updBank k b (fun x => if x.mode == .ready then { x with mode := .running } else x) (preempt k c)
  | none => c

/-- A link port enters STANDBY. -/
def portStandby (p : Port) (c : Chip) : Chip :=
  if lstate c p = lsOff then c
  else
    let c := if lstate c p = lsUp then leaveUp p c else c
    c.setReg (llP p 4) (((c.reg (llP p 4)).withFld 0 3 lsStandby).withFld 3 3 0)

/-- The pads take and hold their STBY settings (19 R449). -/
def padsStandby (c : Chip) : Chip :=
  (List.range 1024).foldl (fun (x : Chip) n =>
    pinPut n { pinGet c n with stby := some (parkLvl (c.fld (gpioPinR n) 18 2) (padLevel c n)), parkTo := 0 } x) c

/-- Groups of system SRAM that PMU_RETMASK does not retain lose their content (R467). -/
def loseUnretained (c : Chip) : Chip :=
  (List.range 8).foldl (fun (x : Chip) g =>
    if c.bit (sysR 0x18) g then x else memLose (0x10000000 + 0x200000 * g) 0x200000 x) c

/-- The pin of wake pin `k`. -/
def wakePin (k : Nat) : Nat := 64 * (k / 4) + k % 4

/-- The detectors begin with the levels at entry. -/
def wakeStart (c : Chip) : Chip :=
  { c with pins := { c.pins with pads := [], wakes := Vector.ofFn (fun (k : Fin 64) =>
      let l := (pinGet c (wakePin k.val)).level
      { filt := l, last := l, run := 0 }) } }

/-- A write of PMU_CTL (R468): standby entry, or STBYREJF. Every core stops, the session ends, the ports enter STANDBY,
the pads take their levels, the watchdogs and CAP_TIME stop. -/
def enterStandby (v : Word) (c : Chip) : Chip :=
  let k := v.fld 0 2
  if k = 0 ∨ k = 3 then c
  else if c.devState = 7 ∨ c.devState = 8 ∨ c.cmd.long.isSome then c.setBits (sysR 4) (2 ^ 8)
  else
    let c := { c with cmd := { c.cmd with session := none, pend := none } }
    let c := (c.clrBits cmdStatR 0x10).clrBits 0x50000000 0x10
    let c := allCores.foldl (fun (c : Chip) k => stopCore k c) c
    let c := padsStandby (portStandby .dn (portStandby .up c))
    let c := loseUnretained c
    let c := wakeStart ((List.finRange 8).foldl (fun (c : Chip) (w : Fin 8) => twinStart w c) c)
    { c with power := { c.power with mode := if k = 1 then .standbyR else .standbyO, entering := true,
                                     entered := c.power.aon, wake := false, wokeAt := none } }

/-- The cycle of CLK_AON, of 31.25 units of always-on time, in which the present unit lies. -/
def aonTick (c : Chip) : Nat := 4 * c.power.aon / 125

/-- A wake request (R469): the first is recorded, with the port it came through (16 R384), and the wake proceeds as the unit of time
ends; a later one is ignored until VALID is cleared, but in the same cycle of CLK_AON the one that stands first in the order of
kinds and indices is recorded. -/
def wakeRequest (kind ix : Nat) (c : Chip) : Chip :=
  let v := c.reg (sysR 0x1C)
  if !inStandby c || (v.bit 8 && !(c.power.wokeAt == some (aonTick c) && decide (64 * kind + ix < 64 * v.fld 0 2 + v.fld 2 6))) then c
  else
    { c.setReg (sysR 0x1C) (BitVec.ofNat 32 (kind + 4 * ix + 2 ^ 8)) with
        link := { c.link with woke := if kind = 2 then some (if ix = 0 then .up else .dn) else none },
        power := { c.power with wake := true, wokeAt := some (aonTick c) } }

/-- The level of a pad changes in standby. -/
def padChange (n : Nat) (l : Bool) (c : Chip) : Chip := { c with pins := { c.pins with pads := aput c.pins.pads n l } }

/-- Whether a detector sees its condition (19 R448): a change of the filtered level, or a filtered level that stands. -/
def wakeSees (c : Chip) (k : Nat) (was now : Bool) : Bool :=
  c.bit (gpioWakeR k) 0 &&
  (match c.fld (gpioWakeR k) 1 2 with
   | 0 => !was && now
   | 1 => was && !now
   | 2 => now
   | _ => !now)

/-- A filtered level reaches the detector of wake pin `k`; the detector that raises a wake request sets WAKEF. -/
def wakeLevel (k : Fin 64) (now : Bool) (c : Chip) : Chip :=
  let d := c.pins.wakes[k]
  let c1 := { c with pins := { c.pins with wakes := vmod c.pins.wakes k (fun d => { d with filt := now }) } }
  if wakeSees c k.val d.filt now then wakeRequest 0 k.val (c1.setBits (gpioWakeR k.val) (2 ^ 8)) else c1

/-- One sample of a wake detector (19 R448): the level passes once 2 ^ FILT samples agree. -/
def wakeSample (k : Fin 64) (c : Chip) : Chip :=
  let l := padNow c (wakePin k.val)
  let d := c.pins.wakes[k]
  let run := if d.last == l then d.run + 1 else 1
  let c1 := { c with pins := { c.pins with wakes := vmod c.pins.wakes k (fun d => { d with last := l, run := run }) } }
  if 2 ^ c.fld (gpioWakeR k.val) 3 2 ≤ run then wakeLevel k l c1 else c1

/-- The detectors take a sample in each cycle of CLK_AON, of 31.25 units of always-on time (19 R448). -/
def wakeCycle (c : Chip) : Chip :=
  if aonTick c = 4 * (c.power.aon - 1) / 125 then c
  else (List.finRange 64).foldl (fun (c : Chip) (k : Fin 64) =>
    if inStandby c && c.bit (gpioWakeR k.val) 0 then wakeSample k c else c) c

/-- The level that a wake pin's filter passed (19 R448). -/
def wakePinNow (k : Fin 64) (now : Bool) (c : Chip) : Chip :=
  if inStandby c then wakeLevel k now (padChange (wakePin k.val) now c) else c

/-- Standby entry completes (R468); a wake request that waited then proceeds (R484). -/
def standbyEntered (c : Chip) : Chip :=
  if inStandby c && c.power.entering then { c with power := { c.power with entering := false } } else c

/-- The pads that changed in standby reach the synchronisers when CLK_C runs again (19 R443). -/
def padsBack (c : Chip) : Chip :=
  c.pins.pads.foldl (fun (c : Chip) e => c.schedule 2 (.padLevel (Fin.ofNat 1024 e.1) e.2)) { c with pins := { c.pins with pads := [] } }

/-- The wake completes (R470): from STANDBY-O a device reset with cause WAKE; from STANDBY-R the cores go on, enabled phase bases
acquire, the ports retrain, the watchdogs restart from 0. -/
def resumeR (c : Chip) : Chip :=
  match c.power.mode, c.power.entering, c.power.wake with
  | .standbyO, false, true => deviceReset (bootMode c) rcWake 0 c
  | .standbyR, false, true =>
    let c := { c with power := { c.power with mode := .run, wake := false, wokeAt := none, wdgs := Vector.replicate 8 c.power.aon } }
    let c := (List.finRange 8).foldl (fun (c : Chip) (p : Fin 8) => if pbEn c p then enterAcquire p c else c) c
    let c := (List.finRange 96).foldl (fun (c : Chip) (w : Fin 96) => if c.bit (winR w 0) 0 then winAgain w c else c) c
    let back (p : Port) (c : Chip) : Chip := if lstate c p = lsStandby then trainFrom p (maxWidth c p) c else c
    (back .dn (back .up (padsBack c))).setBits (sysR 4) (2 ^ 11)
  | _, _, _ => c

/-- The always-on timer reaches MS; 0 disables it (R469). -/
def aonTimerNow (c : Chip) : Chip := if c.fld (sysR 0x20) 0 24 = 0 then c else wakeRequest 3 0 c

/-- A port's wake detector reports wake (16 R384). -/
def linkWakeNow (p : Port) (c : Chip) : Chip :=
  if inStandby c && c.bit (llR 0x20) (portIx p) then
    wakeRequest 2 (portIx p) (c.setBits (llR 4) (2 ^ (4 + portIx p)))
  else c

/-- The SerDes PLL of a port has locked after a wake through the other port: with FWD the wake is sent on (16 R384). -/
def serdesLocked (p : Port) (c : Chip) : Chip :=
  if c.link.woke = some (otherPort p) ∧ c.bit (llR 0x20) 2 = true then
    wakeSend p { c with link := { c.link with woke := none } }
  else c

/-- A low-power twin's settled state (07 R184, R185); the twin that requests a wake sets WAKEF. -/
def lpState (w : Fin 8) (l u : Bool) (c : Chip) : Chip :=
  if inStandby c && c.bit (winlpR w.val 0) 0 then
    let st := stateOf l u
    let c := updTwin w (fun x => { x with filtL := l, filtU := u }) c
    let c := c.setReg (winlpR w.val 8) (((c.reg (winlpR w.val 8)).withFld 0 2 st).withBit 2 true)
    if c.bit (winlpR w.val 0) (9 + st) then wakeRequest 1 w.val (c.setBits (winlpR w.val 8) (2 ^ 8)) else c
  else c

/-- The twins take a sample every µs of a standby (07 R184). -/
def twinCycle (c : Chip) : Chip :=
  if !inStandby c || (c.power.aon - c.power.entered) % 500 != 0 then c
  else (List.finRange 8).foldl (fun (c : Chip) (w : Fin 8) =>
    if !inStandby c || !c.bit (winlpR w.val 0) 0 then c
    else match twinSample w c with
      | (some (l, u), c) => lpState w l u c
      | (none, c) => c) c

/-! ### Clocks, supplies, temperature (R472, R477) -/

def clkStatR : Nat := sysR 0x100

/-- One monitor's condition begins (R472). -/
def monitorOne (i : Nat) (c : Chip) : Chip :=
  if c.bit clkStatR i then c
  else
    let c := c.setBits clkStatR (2 ^ i + 2 ^ (16 + i))
    let c := fltLevel (160 + i) true (c.reg clkStatR) (evPulse 508 c)
    if i = 2 ∨ i = 4 then setCauseAll causeClkloss c
    else if i = 8 then retrainPort .up c
    else if i = 9 then retrainPort .dn c
    else c

/-- The monitors whose clocks fail with another's (R472): the PLLs of XIN, the SerDes PLLs of their references. -/
def monitorFeeds (i : Nat) : List Nat :=
  if i = 0 then [0, 1, 2] else if i = 6 then [6, 8, 9] else if i = 7 then [7, 10] else [i]

def monitorBegin (i : Nat) (c : Chip) : Chip := (monitorFeeds i).foldl (fun (c : Chip) k => monitorOne k c) c

def monitorEnd (i : Nat) (c : Chip) : Chip :=
  if c.bit clkStatR i then fltLevel (160 + i) false 0 (c.clrBits clkStatR (2 ^ i)) else c

/-- CLK_L stands still while PLL_SYS has lost lock (R472). -/
def clkLStopped (c : Chip) : Bool := c.bit clkStatR 1
/-- CLK_C stands still while PLL_CTL has lost lock (R472). -/
def clkCStopped (c : Chip) : Bool := c.bit clkStatR 2

/-- A supply supervisor (R477): PMU_STAT.SUPPLY and source 172 + i. -/
def supervisor (i : Nat) (begins : Bool) (c : Chip) : Chip :=
  let c := c.putBit (sysR 4) i begins
  fltLevel (172 + i) begins (c.reg (sysR 4)) c

/-- The temperature of the die (R477): a threshold reached, or left by 2 °C. -/
def temperatureNow (tj : BitVec 16) (c : Chip) : Chip :=
  let c := c.setReg (sysR 0x24) (tj.zeroExtend 32)
  let t := tj.toInt
  let one (i lo : Nat) (c : Chip) : Chip :=
    let thr := signed 16 (c.fld (sysR 0x28) lo 16)
    let live := c.flt.live.contains i
    if !live && decide (thr ≤ t) then
      let c := if i = 176 then evPulse 509 (c.setBits (sysR 4) (2 ^ 10)) else c
      fltLevel i true (c.reg (sysR 0x24)) c
    else if live && decide (t ≤ thr - 8) then fltLevel i false 0 c
    else c
  one 177 16 (one 176 0 c)

/-! ### The fault log and watchdogs (R481, R482) -/

/-- A pop of the fault log (R481). -/
def fltPop (c : Chip) : FltEntry × Chip :=
  match c.flt.log with
  | e :: rest => (e, { c with flt := { c.flt with log := rest } })
  | [] => ({ w0 := 0, w1 := 0, w2 := 0, w3 := 0 }, c)

/-- A read of FLT_LOG0: word 0, with words 1 to 3 copied. -/
def fltLog0Read (c : Chip) : Word × Chip :=
  let r := fltPop c
  (r.1.w0, ((r.2.setReg (sysR 0x1444) r.1.w1).setReg (sysR 0x1448) r.1.w2).setReg (sysR 0x144C) r.1.w3)

def wdgEn (c : Chip) (k : Nat) : Bool := c.bit (wdgR k 0) 0
/-- TIMEOUT in µs; 0 acts as 1. -/
def wdgTimeout (c : Chip) (k : Nat) : Nat := max (c.fld (wdgR k 0) 6 16) 1
/-- The count in µs; it stands at 0 while the watchdog does not run. -/
def wdgCount (c : Chip) (k : Fin 8) : Nat := if wdgEn c k.val then (c.power.aon - c.power.wdgs[k]) / 500 else 0
def wdgStat (c : Chip) (k : Fin 8) : Word := c.reg (wdgR k.val 0xC) ||| BitVec.ofNat 32 (wdgCount c k % 2 ^ 16)

def wdgStart (k : Fin 8) (c : Chip) : Chip := { c with power := { c.power with wdgs := c.power.wdgs.set k c.power.aon } }

/-- A write of WDG_CFG (R482): one that sets EN starts the count; locked by SEAL. -/
def wdgCfgWrite (k : Fin 8) (v : Word) (c : Chip) : Chip :=
  if c.sealed then c
  else
    let was := wdgEn c k.val
    let c := c.setReg (wdgR k.val 0) (v &&& 0x3FFFFF)
    if v.bit 0 && !was then wdgStart k c else c

/-- An expiry (R482). -/
def wdgExpire (k : Fin 8) (c : Chip) : Chip :=
  if !wdgEn c k.val then c
  else
    let st := wdgStat c k ||| BitVec.ofNat 32 (2 ^ 17)
    wdgStart k (raiseFault (184 + k.val) st (c.setBits (wdgR k.val 0xC) (2 ^ 17)))

def wdgWarnNow (k : Fin 8) (c : Chip) : Chip := if wdgEn c k.val then c.setBits (wdgR k.val 0xC) (2 ^ 16) else c

/-- The bit of R274 that an initiator has as a core. -/
def iniCode : Initiator → Option Nat
  | .triton => some 0
  | .app i => some (1 + i.val)
  | .mge => some 5
  | .le n => some (8 + n.val)
  | _ => none

/-- A write of WDG_KICK (R482): by the owner it restarts the count or is an expiry, as it is in the unit in which the count reaches
TIMEOUT (R484); by others it is ignored. -/
def wdgKickWrite (ini : Initiator) (k : Fin 8) (v : Word) (c : Chip) : Chip :=
  if iniCode ini ≠ some (c.fld (wdgR k.val 0) 1 5) ∨ !wdgEn c k.val then c
  else if v = 0x00005AC3 ∧ c.fld (wdgR k.val 4) 0 16 ≤ wdgCount c k ∧
      (c.power.aon + 1 - c.power.wdgs[k]) / 500 < wdgTimeout c k.val then wdgStart k c
  else wdgExpire k c

/-- One unit of always-on time in RUN: watchdogs, and the millisecond source (R482, R483). -/
def aonCycle (c : Chip) : Chip :=
  let c := { c with power := { c.power with aon := c.power.aon + 1 } }
  let c := (List.finRange 8).foldl (fun (c : Chip) (k : Fin 8) =>
    if !wdgEn c k.val then c
    else
      let d := c.power.aon - c.power.wdgs[k]
      let t := wdgTimeout c k.val
      let c := if d = 500 * ((3 * t + 3) / 4) then wdgWarnNow k c else c
      if 500 * t ≤ d then wdgExpire k c else c) c
  if c.power.aon % 500000 = 0 then evPulse 511 c else c

/-- One unit of always-on time in standby (R468, R469): entry completes, the timer runs, a resumption under way ends. -/
def standbyCycle (c : Chip) : Chip :=
  let c := { c with power := { c.power with aon := c.power.aon + 1 } }
  let c := twinCycle (wakeCycle c)
  let ms := c.fld (sysR 0x20) 0 24
  let c := if ms ≠ 0 ∧ c.power.aon - c.power.entered = 500000 * ms then aonTimerNow c else c
  if c.power.entering then standbyEntered c
  else if c.power.wokeAt = some (aonTick c) then c
  else resumeR c

end Sys2Proof.Machine
end

