-- ==== Sys2Proof/Machine/Gpio.lean ====
section
/-! DEFINITION. Pins (19 R438 to R451): levels, function changes, conflicts, bank supplies, and their commands. -/

namespace Sys2Proof.Machine

/-! ### Input signals -/

/-- The agenda without a happening of the present cycle, if it is there. -/
def undone (e : Ev) (c : Chip) : Option Chip :=
  if c.agenda.contains (c.now, e) then some { c with agenda := c.agenda.erase (c.now, e) } else none

/-- The signal that function `f` takes at pin `n` may have changed between two states of the chip: trip inputs, capture
edges and the sync chain see it (R443, 02 R57, 04 R110, 05 R132). A change that the same cycle takes back is none (R450). -/
def signalMoved (f n : Nat) (c0 c : Chip) : Chip :=
  match f, inSig f n with
  | 2, some k => tripRefresh (Fin.ofNat 12 (k / 8)) c
  | 3, some k =>
    let was := capin c0 k
    let now := capin c k
    if was != now && decide (capSrc c k = 1) then
      (undone (.captureEdge (Fin.ofNat 64 k) was) c).getD (c.schedule 0 (.captureEdge (Fin.ofNat 64 k) now))
    else c
  | 5, some k =>
    if !fnIn c0 5 k false && fnIn c 5 k false then c.schedule 0 (.chainIn 0)
    else if fnIn c0 5 k false && !fnIn c 5 k false then (undone (.chainIn 0) c).getD c else c
  | _, _ => c

/-- A level-mode interrupt sets its bit in every cycle of its level (R444). -/
def levelIrq (n : Nat) (c : Chip) : Chip :=
  let m := c.fld (gpioPinR n) 15 3
  let l := (pinGet c n).level
  if bankPg c (n / 64) && ((m == 4 && l) || (m == 5 && !l)) then c.setBits (gpioWord 0x18 n) (2 ^ (n % 32)) else c

/-- Event pins that name pin `n` with an edge selected (R445). -/
def eventPins (n : Nat) (rise : Bool) (c : Chip) : Chip :=
  (List.range 32).foldl (fun (c : Chip) i =>
    let v := c.reg (gpioEvselR i)
    let e := v.fld 10 2
    if v.fld 0 10 = n ∧ (e = 2 ∨ (e = 0 ∧ rise) ∨ (e = 1 ∧ !rise)) then evPulse (448 + i) c else c) c

/-- The filtered level of a pad changes (R443 to R445); without the bank's supply nothing sees it (R438). -/
def pinLevel (n : Fin 1024) (l : Bool) (c : Chip) : Chip :=
  if (pinGet c n).level == l then c
  else if !bankPg c (n.val / 64) then pinPut n { pinGet c n with level := l } c
  else
    let c1 := pinPut n { pinGet c n with level := l } c
    let m := c1.fld (gpioPinR n) 15 3
    let hit := (m == 3) || (m == 1 && l) || (m == 2 && !l)
    let c2 := if hit then c1.setBits (gpioWord 0x18 n) (2 ^ (n.val % 32)) else c1
    signalMoved (fselOf c n) n c (eventPins n l (levelIrq n c2))

/-! ### Writes of GPIO_PIN (R439, R441, R446, R447) -/

/-- The slice that a pin belongs to for functions 1 and 2 (R439). -/
def pinSlice (n : Nat) : Nat := n % 192 / 16

/-- Whether every field of a pin may be written (R447). -/
def pinOpen (c : Chip) (ini : Initiator) (n : Nat) (v : Word) : Bool :=
  let wave (f : Nat) : Bool := f == 1 || f == 2
  !c.sealed || (decide (ini = .mge) && liveOn c (pinSlice n) && wave (fselOf c n) && wave (v.fld 0 4))

/-- The conflicts of the cycle's end (R441, R450): each new one sets CONFLICTF, records the pin whose write made it, and raises
the fault source. -/
def conflictEnd (c : Chip) : Chip :=
  if c.pins.claims.isEmpty then c
  else
    let sigs := conflictSigs c
    let fresh := sigs.filter (fun s => !c.pins.conf.contains s)
    let c1 := fresh.foldl (fun (x : Chip) s =>
      match c.pins.claims.reverse.find? (fun n => fselOf c n == s.1 && inSig s.1 n == some s.2) with
      | some n => (x.setReg gpioConfR (BitVec.ofNat 32 (n + 2 ^ 10 * s.1 + 2 ^ 31))).setBits gpioStatR 1
      | none => x) { c with pins := { c.pins with conf := sigs, claims := [] } }
    let c2 := if fresh.isEmpty then c1 else raiseFault 149 (c1.reg gpioConfR) c1
    fltLevel 149 (!sigs.isEmpty) (c2.reg gpioConfR) c2

/-- A signal that a conflict's end leaves to one pin follows it from the next cycle (R441). -/
def leftToOne (f k : Nat) (c0 c : Chip) : Chip :=
  match claimers c f k with
  | [m] => if 2 ≤ (claimers c0 f k).length then pinPut m { pinGet c m with inFrom := max (pinGet c m).inFrom (c.now + 1) } c else c
  | _ => c

/-- The park of a function change in the present cycle (R446); `held` is what the pad showed as the cycle before ended. -/
def parkPin (n : Nat) (code : Nat) (held : PadLvl) (c : Chip) : Chip :=
  pinPut n { pinGet c n with parkTo := c.now + 4, park := parkLvl code held, inFrom := c.now + 6 } c

/-- A write of GPIO_PIN[n]. -/
def gpioPinWrite (ini : Initiator) (n : Fin 1024) (v : Word) (c : Chip) : Chip :=
  let a := gpioPinR n
  let old := c.reg a
  let v := v &&& 0xFFFFF
  let v := if pinOpen c ini n v then v else merge 0x38000 old v
  let c0 := pinPut n { pinGet c n with stby := none } c
  if !fselLegal (v.fld 0 4) n then c0.setBits gpioStatR 2
  else if v.fld 0 4 = old.fld 0 4 then levelIrq n (c0.setReg a v)
  else
    let c1 := parkPin n (v.fld 4 2) (padBefore c n) (c0.setReg a v)
    let c1 := match inSig (old.fld 0 4) n with
      | some k => leftToOne (old.fld 0 4) k c c1
      | none => c1
    let c1 := { c1 with pins := { c1.pins with claims := c1.pins.claims ++ [n.val] } }
    levelIrq n (signalMoved (v.fld 0 4) n c (signalMoved (old.fld 0 4) n c c1))

/-- The inputs of functions that open in the present cycle: six cycles after the change, or after a conflict (R441, R446). -/
def pinsOpen (c : Chip) : Chip :=
  let due := c.pins.pin.filter (fun e => decide (e.2.inFrom = c.now) && decide (0 < c.now))
  due.foldl (fun (x : Chip) e => signalMoved (fselOf c e.1) e.1 { c with now := c.now - 1 } x) c

/-- A write of GPIO_OUT or GPIO_OE ends the standby levels of the bank's pins (R449). -/
def bankWrite (b off : Nat) (v : Word) (c : Chip) : Chip :=
  let c := c.setReg (gpioBank b off) v
  let held := c.pins.pin.filter (fun e => e.1 / 64 == b && e.2.stby.isSome)
  held.foldl (fun (c : Chip) e => pinPut e.1 { pinGet c e.1 with stby := none } c) c

/-- A W1C write of GPIO_ISTAT: a bit whose level condition holds stays (R444, R450). -/
def istatWrite (b hi : Nat) (v : Word) (c : Chip) : Chip :=
  let a := gpioBank b (0x18 + 4 * hi)
  let c := c.setReg a (c.w1c a 0xFFFFFFFF v)
  (List.range 32).foldl (fun (c : Chip) i => levelIrq (64 * b + 32 * hi + i) c) c

/-- GPIO_IN: filtered levels, 0 for a bank without its supply (R438, R443). -/
def gpioIn (c : Chip) (b hi : Nat) : Word :=
  if !bankPg c b then 0
  else (List.range 32).foldl (fun (w : Word) i => if (pinGet c (64 * b + 32 * hi + i)).level then w ||| BitVec.ofNat 32 (2 ^ i) else w) 0

/-- GPIO_STAT with CONFLICT (R451). -/
def gpioStat (c : Chip) : Word := (c.reg gpioStatR).withBit 8 (!c.pins.conf.isEmpty)

/-! ### Bank supplies (R438) -/

/-- Every signal that a pin of the bank carries may have changed. -/
def bankMoved (b : Nat) (c0 c : Chip) : Chip :=
  (List.range 64).foldl (fun (c : Chip) i => signalMoved (fselOf c (64 * b + i)) (64 * b + i) c0 c) c

def anyBankOut (c : Chip) : Bool := (List.range 16).any (fun b => !bankPg c b)

def bankFail (b : Fin 16) (c : Chip) : Chip :=
  if !bankPg c b.val then c
  else
    let c1 := (c.clrBits (gpioBank b.val 0x28) 1).setBits gpioStatR 4
    supervisor 3 true (bankMoved b.val c c1)

def bankReturn (b : Fin 16) (v33 : Bool) (c : Chip) : Chip :=
  if bankPg c b.val || c.bit (gpioBank b.val 0x28) 1 != v33 then c
  else
    let c1 := bankMoved b.val c (c.setBits (gpioBank b.val 0x28) 1)
    let c1 := (List.range 64).foldl (fun (c : Chip) i => levelIrq (64 * b.val + i) c) c1
    if anyBankOut c1 then c1 else supervisor 3 false c1

/-! ### Commands -/

/-- GPIO_PIN (R446, R447). -/
def execGpioPin (ini : Initiator) (n : Fin 1024) (v : Word) (s : State) : Host.Outcome State Fault Refusal :=
  s.onChip (gatedWrite ini (gpioPinR n) (gpioPinWrite ini n v))

/-- PIN_LEVEL_CHANGE (R443 to R445); in standby the pad's level, which wake detectors sample (R448). -/
def execPinLevelChange (n : Fin 1024) (level : Bool) (s : State) : Host.Outcome State Fault Refusal :=
  s.onAon (fun c => if inStandby c then padChange n level c else pinLevel n level c)

/-- EVOUT_END (R445). -/
def execEvoutEnd (j : Fin 8) (s : State) : Host.Outcome State Fault Refusal :=
  s.onChip (fun c => { c with pins := { c.pins with evout := c.pins.evout.set j (0, 0) } })

/-- BANK_SUPPLY_FAIL (R438). -/
def execBankSupplyFail (b : Fin 16) (s : State) : Host.Outcome State Fault Refusal := s.onChip (bankFail b)

/-- BANK_SUPPLY_RETURN (R438). -/
def execBankSupplyReturn (b : Fin 16) (v33 : Bool) (s : State) : Host.Outcome State Fault Refusal := s.onChip (bankReturn b v33)

/-- WAKE_PIN (R448). -/
def execWakePin (k : Fin 64) (level : Bool) (s : State) : Host.Outcome State Fault Refusal := s.onAon (wakePinNow k level)

end Sys2Proof.Machine
end

