-- ==== Sys2Proof/Machine/Pwm.lean ====
section
/-! DEFINITION. The commands of the PWM channels and of the commit, trip and safe-state chapter (04, 05). -/

namespace Sys2Proof.Machine

/-- PWM_ENABLE (R100): the write of PWM_CFG that sets EN. -/
def execPwmEnable (ini : Initiator) (n : Fin 96) (v : Word) (s : State) : Host.Outcome State Fault Refusal :=
  s.onChip (gatedWrite ini (pwmR n 0) (pwmCfgWrite ini n v))

/-- PWM_DISABLE (R100): the write of PWM_CFG that clears EN. -/
def execPwmDisable (ini : Initiator) (n : Fin 96) (v : Word) (s : State) : Host.Outcome State Fault Refusal :=
  s.onChip (gatedWrite ini (pwmR n 0) (pwmCfgWrite ini n v))

/-- ZRO (R95, R96). -/
def execZro (n : Fin 96) (phi : Fin 32) (s : State) : Host.Outcome State Fault Refusal := s.onChip (zroAt n phi)

/-- PRD (R95, R96). -/
def execPrd (n : Fin 96) (phi : Fin 32) (s : State) : Host.Outcome State Fault Refusal := s.onChip (prdAt n phi)

/-- COMPARE_EVENT (R96). -/
def execCompareEvent (n : Fin 96) (x : Fin 4) (down : Bool) (phi : Fin 32) (s : State) : Host.Outcome State Fault Refusal :=
  s.onChip (compareAt n x down phi)

/-- DEAD_BAND_END (R104). -/
def execDeadBandEnd (n : Fin 96) (outB : Bool) (phi : Fin 32) (s : State) : Host.Outcome State Fault Refusal :=
  s.onChip (deadBandAt n outB phi)

/-- MINIMUM_PULSE_END (R105). -/
def execMinimumPulseEnd (n : Fin 96) (outB : Bool) (phi : Fin 32) (s : State) : Host.Outcome State Fault Refusal :=
  s.onChip (minPulseAt n outB phi)

/-- SYNC (R109). -/
def execSync (n : Fin 96) (chain : Bool) (s : State) : Host.Outcome State Fault Refusal := s.onChip (syncPulse n chain)

/-- SYNC_DEADLINE (R111). -/
def execSyncDeadline (n : Fin 96) (s : State) : Host.Outcome State Fault Refusal := s.onChip (deadline n)

/-- DELAY_LINE_REPLACE (R108). -/
def execDelayLineReplace (pos : Fin 192) (quiet : Bool) (s : State) : Host.Outcome State Fault Refusal :=
  s.onChip (delayLine pos quiet)

/-- PWM_IPS (R113). -/
def execPwmIps (ini : Initiator) (n : Fin 96) (v : Word) (s : State) : Host.Outcome State Fault Refusal :=
  s.onChip (gatedWrite ini (pwmR n 0x38) (ipsWrite n v))

/-- A write of PWM_XBAR (R114, 05 R137); locked by SEAL, after which only SLICE_SUBSTITUTE changes it. -/
def xbarWrite (pos : Fin 192) (v : Word) (c : Chip) : Chip :=
  if c.sealed then c
  else copySoon (c.setReg (xbarR pos) (v &&& 0xFF))

/-- PWM_XBAR (R114). -/
def execPwmXbar (ini : Initiator) (pos : Fin 192) (v : Word) (s : State) : Host.Outcome State Fault Refusal :=
  s.onChip (gatedWrite ini (xbarR pos) (xbarWrite pos v))

/-- A write of PWM_SAFE (R136, R137, R142). -/
def safeWrite (ini : Initiator) (n : Fin 96) (v : Word) (c : Chip) : Chip :=
  if !cfgOpen c ini (n.val / 8) then c else copySoon (c.setReg (pwmR n 0x9C) (v &&& 0xF))

/-- PWM_SAFE (R136). -/
def execPwmSafe (ini : Initiator) (n : Fin 96) (v : Word) (s : State) : Host.Outcome State Fault Refusal :=
  s.onChip (gatedWrite ini (pwmR n 0x9C) (safeWrite ini n v))

/-- SHADOW_WRITE (R119): shadow `k` in the shadow view. -/
def execShadowWrite (ini : Initiator) (n : Fin 96) (k : Fin 8) (v : Word) (s : State) : Host.Outcome State Fault Refusal :=
  s.onChip (gatedWrite ini (pwmR n (0x104 + 4 * k.val)) (shadowWr n k v))

/-- CLOSE (R123): a write of PWM_CMT. -/
def execClose (ini : Initiator) (n : Fin 96) (v : Word) (s : State) : Host.Outcome State Fault Refusal :=
  s.onChip (gatedWrite ini (pwmR n 0x84) (cmtWrite n v))

/-- FLUSH (R128): a write of PWM_CMT. -/
def execFlush (ini : Initiator) (n : Fin 96) (v : Word) (s : State) : Host.Outcome State Fault Refusal :=
  s.onChip (gatedWrite ini (pwmR n 0x84) (cmtWrite n v))

/-- PWM_CMTCFG (R120, R125, R126). -/
def execPwmCmtcfg (ini : Initiator) (n : Fin 96) (v : Word) (s : State) : Host.Outcome State Fault Refusal :=
  s.onChip (gatedWrite ini (pwmR n 0x80) (cmtcfgWrite ini n v))

/-- SQPUSH (R127). -/
def execSqpush (ini : Initiator) (n : Fin 96) (v : Word) (s : State) : Host.Outcome State Fault Refusal :=
  s.onChip (gatedWrite ini (pwmR n 0xC0) (sqPush n (iniIx ini) v))

/-- TRIP_INPUT_ACTIVE (R132 to R135). -/
def execTripInputActive (sl : Fin 12) (i : Fin 8) (s : State) : Host.Outcome State Fault Refusal := s.onChip (tripInput sl i)

/-- TRIPCLR (R135). -/
def execTripclr (ini : Initiator) (n : Fin 96) (v : Word) (s : State) : Host.Outcome State Fault Refusal :=
  s.onChip (gatedWrite ini (pwmR n 0x98) (tripClear n v))

/-- PWM_PULSECNT is read and cleared (R107, R116). -/
def execPwmPulsecnt (ini : Initiator) (n : Fin 96) (s : State) : Host.Outcome State Fault Refusal :=
  s.onChip (gatedRead ini (pwmR n 0x50) (fun c => c.readClear (pwmR n 0x50)))

/-- PWM_CMTCNT is read and cleared (R142, R143). -/
def execPwmCmtcnt (ini : Initiator) (n : Fin 96) (s : State) : Host.Outcome State Fault Refusal :=
  s.onChip (gatedRead ini (pwmR n 0x90) (fun c => c.readClear (pwmR n 0x90)))

end Sys2Proof.Machine
end

