-- ==== Sys2Proof/Machine/Sched.lean ====
section
/-! DEFINITION. The commands of the angle calendar scheduler (03). -/

namespace Sys2Proof.Machine

/-- SCH_INS3 (R72): the write submits the initiator's staged words. -/
def execSchIns3 (ini : Initiator) (v : Word) (s : State) : Host.Outcome State Fault Refusal :=
  s.onChip (portWrite ini 0xC v (putReq (iniIx ini) false v))

/-- INSERTION_SERVICE (R73). -/
def execInsertionService (s : State) : Host.Outcome State Fault Refusal := s.onChip (serveKind false)

/-- SCH_REM (R74). -/
def execSchRem (ini : Initiator) (v : Word) (s : State) : Host.Outcome State Fault Refusal :=
  s.onChip (portWrite ini 0x14 v (putReq (iniIx ini) true (v &&& 0xFFFFF)))

/-- REMOVAL_SERVICE (R73, R74). -/
def execRemovalService (s : State) : Host.Outcome State Fault Refusal := s.onChip (serveKind true)

/-- A write of SCH_PBCFG (R76, R77, R90). -/
def schCfgWrite (p : Fin 8) (v : Word) (c : Chip) : Chip :=
  if c.sealed then c
  else
    let old := c.reg (schP p 0)
    let c := c.setReg (schP p 0) (v &&& 0x1FF)
    if v.bit 0 && !old.bit 0 then
      let c := updSp p (fun s => { s with leave := if s.leave = some schOff then none else s.leave }) c
      if schState c p = schOff then setSchState p schWait c else c
    else if old.bit 0 && !v.bit 0 then updSp p (fun s => { s with leave := some schOff }) c
    else c

/-- SCH_EN (R76). -/
def execSchEn (ini : Initiator) (p : Fin 8) (v : Word) (s : State) : Host.Outcome State Fault Refusal :=
  s.onChip (gatedWrite ini (schP p 0) (schCfgWrite p v))

/-- An arm pulse on EVC[368 + p] (R76). -/
def armPulse (p : Fin 8) (c : Chip) : Chip :=
  if c.bit (schP p 0) 4 then armTry p (updSp p (fun s => { s with armPulse := some c.now }) c) else c

/-- ARM (R76). -/
def execArm (p : Fin 8) (s : State) : Host.Outcome State Fault Refusal := s.onChip (armPulse p)

/-- A write of SCH_PBCTL (R76). -/
def schCtlWrite (p : Fin 8) (v : Word) (c : Chip) : Chip :=
  if v.bit 0 && schState c p == schSusp then setSchState p schWait c else c

/-- RESUME (R76). -/
def execResume (ini : Initiator) (p : Fin 8) (v : Word) (s : State) : Host.Outcome State Fault Refusal :=
  s.onChip (gatedWrite ini (schP p 4) (schCtlWrite p v))

/-- The item at the front of PB[p]'s sequence is processed where `k` names its kind (R78). -/
def walkKind (p : Fin 8) (k : SchItem → Bool) (c : Chip) : Chip :=
  let c := purgeItems p c
  match c.sched.pbs[p].items with
  | it :: _ => if k it then walkOne p c else c
  | [] => c

def isCross : SchItem → Bool
  | .cross _ => true
  | _ => false
def isLoad : SchItem → Bool
  | .load _ => true
  | _ => false
def isReins : SchItem → Bool
  | .reins => true
  | _ => false
def isSweep : SchItem → Bool
  | .sweepBin _ => true
  | .sweepAct _ => true
  | _ => false
def isEvict : SchItem → Bool
  | .evict _ _ => true
  | _ => false

/-- BIN_CROSSING (R77, R85): the window follows θ, and a walker processes the crossing. -/
def execBinCrossing (p : Fin 8) (s : State) : Host.Outcome State Fault Refusal :=
  s.onChip (fun c =>
    let nu := binOf (uangNow c p)
    let c := if schState c p = schArmed ∧ c.sched.pbs[p].armedAt < c.now ∧ !c.sched.pbs[p].jumped then
        (if 64 < (nu - c.sched.pbs[p].last).natAbs then lagFault p c else followBins p 130 nu c)
      else c
    walkKind p isCross c)

/-- ACTION_LOAD (R77, R81). -/
def execActionLoad (p : Fin 8) (s : State) : Host.Outcome State Fault Refusal := s.onChip (walkKind p isLoad)

/-- REINSERTION (R71, R78): the fired periodic actions of PB[p] move, and a walker pays for one. -/
def execReinsertion (p : Fin 8) (s : State) : Host.Outcome State Fault Refusal :=
  s.onChip (fun c =>
    let mine := c.sched.moves.filter (fun m => m.2.isSome && (entryAt c m.1).pb == p)
    let c := updSch (fun s => { s with moves := s.moves.filter (fun m => !mine.contains m) }) c
    walkKind p isReins (mine.foldl (fun c m => doMove m c) c))

/-- SWEEP (R83). -/
def execSweep (p : Fin 8) (s : State) : Host.Outcome State Fault Refusal := s.onChip (walkKind p isSweep)

/-- EVICTION (R82). -/
def execEviction (p : Fin 8) (s : State) : Host.Outcome State Fault Refusal := s.onChip (walkKind p isEvict)

/-- A resident action of type `type` fires at fine tick `phi` of a crossing in the present cycle (R69, R79, R80): its
phase base's scheduler is ARMED, and DIR and residue admit the crossing. -/
def crossFire (type : Nat) (hd : Fin 131072) (phi : Fin 32) (back : Bool) (c : Chip) : Chip :=
  let e := entryAt c hd
  let rev := (c.sched.pbs[e.pb].uang + (if back then 0 else max (travel c e.pb) 0)) / 2 ^ 36
  if e.inuse && e.near && e.type == type && schState c e.pb == schArmed && qualifies e back rev then
    fireAct hd phi back false c
  else c

/-- NOP (R68). -/
def execNopAction (hd : Fin 131072) (phi : Fin 32) (back : Bool) (s : State) : Host.Outcome State Fault Refusal :=
  s.onChip (crossFire 0 hd phi back)
/-- ADC_START (R68). -/
def execAdcStart (hd : Fin 131072) (phi : Fin 32) (back : Bool) (s : State) : Host.Outcome State Fault Refusal :=
  s.onChip (crossFire 1 hd phi back)
/-- PWM_EDGE (R68). -/
def execPwmEdge (hd : Fin 131072) (phi : Fin 32) (back : Bool) (s : State) : Host.Outcome State Fault Refusal :=
  s.onChip (crossFire 2 hd phi back)
/-- PWM_COMMIT (R68). -/
def execPwmCommit (hd : Fin 131072) (phi : Fin 32) (back : Bool) (s : State) : Host.Outcome State Fault Refusal :=
  s.onChip (crossFire 3 hd phi back)
/-- EMIT (R68). -/
def execEmit (hd : Fin 131072) (phi : Fin 32) (back : Bool) (s : State) : Host.Outcome State Fault Refusal :=
  s.onChip (crossFire 4 hd phi back)
/-- GPIO_SET (R68). -/
def execGpioSet (hd : Fin 131072) (phi : Fin 32) (back : Bool) (s : State) : Host.Outcome State Fault Refusal :=
  s.onChip (crossFire 5 hd phi back)
/-- GPIO_CLR (R68). -/
def execGpioClr (hd : Fin 131072) (phi : Fin 32) (back : Bool) (s : State) : Host.Outcome State Fault Refusal :=
  s.onChip (crossFire 6 hd phi back)
/-- GPIO_TOG (R68). -/
def execGpioTog (hd : Fin 131072) (phi : Fin 32) (back : Bool) (s : State) : Host.Outcome State Fault Refusal :=
  s.onChip (crossFire 7 hd phi back)
/-- DMA_START (R68). -/
def execDmaStart (hd : Fin 131072) (phi : Fin 32) (back : Bool) (s : State) : Host.Outcome State Fault Refusal :=
  s.onChip (crossFire 8 hd phi back)
/-- WAKE (R68). -/
def execWake (hd : Fin 131072) (phi : Fin 32) (back : Bool) (s : State) : Host.Outcome State Fault Refusal :=
  s.onChip (crossFire 9 hd phi back)
/-- PEA_WRITE (R68). -/
def execPeaWrite (hd : Fin 131072) (phi : Fin 32) (back : Bool) (s : State) : Host.Outcome State Fault Refusal :=
  s.onChip (crossFire 10 hd phi back)

/-- SCH_LATECNT is read and cleared (R90, R91). -/
def execSchLatecnt (ini : Initiator) (p : Fin 8) (s : State) : Host.Outcome State Fault Refusal :=
  s.onChip (gatedRead ini (schP p 0x10) (fun c => c.readClear (schP p 0x10)))

/-- SCH_SKIPCNT is read and cleared (R90, R91). -/
def execSchSkipcnt (ini : Initiator) (p : Fin 8) (s : State) : Host.Outcome State Fault Refusal :=
  s.onChip (gatedRead ini (schP p 0x14) (fun c => c.readClear (schP p 0x14)))

end Sys2Proof.Machine
end

