-- ==== Sys2Proof/Machine/XlMath.lean ====
section
/-! DEFINITION. The arithmetic of the express lanes (08 R192, R193, R199, R200): accumulators and named values that
saturate, constants, sine and cosine, the regulator and the FOC3 computation. A computation keeps the pair (SATF, CLMPF). -/

namespace Sys2Proof.Machine

/-- A lane computation: its value and the pair (a value was saturated, an output was clamped). -/
abbrev Lane := StateM (Bool × Bool)

/-- An accumulator of 48 bits stops at its limits (R192). -/
def laneAcc (x : Int) : Lane Int := fun f =>
  let y := clampI (-(2 ^ 47)) (2 ^ 47 - 1) x
  (y, (f.1 || y != x, f.2))

/-- A named intermediate: sat of its accumulator (R192). -/
def laneSat (x : Int) : Lane Int := fun f => (sat32 x, (f.1 || sat32 x != x, f.2))

/-- The named value of a sum of two terms. -/
def laneSum (a b : Int) : Lane Int := do laneSat (← laneAcc (a + b))

/-- mul(a, b) with q fraction bits (R192). -/
def laneMul (q : Nat) (a b : Int) : Lane Int := laneAcc (asr (a * b + 2 ^ (q - 1)) q)

/-- QF as it acts (R192). -/
def laneQ (qf : Nat) : Nat := min (max qf 15) 30

/-- A result as it enters a loop (R192). -/
def laneY (q : Nat) (r : Int) : Int := r * 2 ^ (q - 15)

/-- The deviation that R193 allows: the exact value's floor and up to ⌊2^(q − 22)⌋ units below it or one more above. -/
def laneDevOf (q key : Nat) : Int :=
  let d : Int := if q < 22 then 0 else 2 ^ (q - 22)
  clampI (-d) (d + 1) (Config.laneDev q key)

/-- π with 60 fraction bits. -/
def pi60 : Int := 3622009729038561421

/-- sin x for x in the first quadrant, both with 60 fraction bits, by its series to x¹⁷. -/
def sinSeries (x : Int) : Int :=
  let x2 := asr (x * x) 60
  let one : Int := 2 ^ 60
  let t := [272, 210, 156, 110, 72, 42, 20, 6].foldl (fun (t d : Int) => one - asr (x2 * t) 60 / d) one
  asr (x * t) 60

/-- The sine of an angle of `t` × 2⁻⁶⁰ revolutions, with 60 fraction bits; exact at the quarter turns. -/
def sinTurn (t : Nat) : Int :=
  let k := t % 2 ^ 60 / 2 ^ 58
  let r := t % 2 ^ 58
  let s := fun (r : Nat) => if r = 2 ^ 58 then 2 ^ 60 else if r = 0 then 0 else sinSeries (asr (r * pi60) 59)
  match k with
  | 0 => s r
  | 1 => s (2 ^ 58 - r)
  | 2 => -s r
  | _ => -s (2 ^ 58 - r)

/-- The sine of a 20-bit angle with 60 fraction bits. -/
def sin60 (a : Nat) : Int := sinTurn (a * 2 ^ 40)

/-- The lane's sine of an angle (R193). -/
def laneSin (q a : Nat) : Int :=
  let e := asr (sin60 a) (60 - q)
  if a % 2 ^ 18 = 0 then e else e + laneDevOf q (2 * (a % 2 ^ 20))

/-- The lane's cosine of an angle (R193). -/
def laneCos (q a : Nat) : Int :=
  let e := asr (sin60 (a + 2 ^ 18)) (60 - q)
  if a % 2 ^ 18 = 0 then e else e + laneDevOf q (2 * (a % 2 ^ 20) + 1)

/-- K3 = 1/√3 and K2 = √3/2 (R193). -/
def laneK3 (q : Nat) : Int := (Nat.sqrt (2 ^ (2 * q) / 3) : Int) + laneDevOf q (2 ^ 21)
def laneK2 (q : Nat) : Int := (Nat.sqrt (3 * 2 ^ (2 * q) / 4) : Int) + laneDevOf q (2 ^ 21 + 1)

/-- RECIP and whether it saturated (R199). -/
def laneRecip (q : Nat) (vdc : Int) : Int × Bool :=
  if vdc ≤ 0 then (2 ^ 31 - 1, true)
  else
    let x : Int := 2 ^ (2 * q) / vdc
    if 2 ^ 31 ≤ x then (2 ^ 31 - 1, true) else (x, false)

/-- pi(e, KP, KI, ff, lo, hi) with the integrator's value `i`: the output and the new integrator (R200). -/
def lanePi (q : Nat) (e kp ki ff lo hi i : Int) : Lane (Int × Int) := do
  let step ← laneSat (← laneMul q ki e)
  let pe ← laneMul q kp e
  let u0 ← laneSat (← laneAcc (pe + i + step + ff))
  let inew ←
    if (decide (hi < u0) && decide (0 < step)) || (decide (u0 < lo) && decide (step < 0)) then pure i
    else do laneSat (min (max (← laneAcc (i + step)) lo) hi)
  let sum ← laneAcc (pe + inew + ff)
  let out := min (max sum lo) hi
  modify (fun f => (f.1, f.2 || out != sum))
  pure (out, inew)

/-- A compare from a duty with q fraction bits (R199, R203). -/
def laneCmp (q : Nat) (per : Nat) (u : Int) : Lane Int := do
  pure (min (max (← laneMul q per u) 0) per)

/-- What FOC3 forms before the modulation's last step: duties of a, b, c; id, iq, vd, vq; the two integrators. -/
structure FocOut where
  duty : List Int
  outs : List Int
  ints : List Int

/-- The FOC3 computation (R199): `slot` the snapshot's operands, `vb` its velocity, θs and θe in au, MOD, INV, DEC, and
the integrators. -/
def focCompute (q : Nat) (slot : Nat → Int) (ya yb vb : Int) (thS thE : Nat) (spaceVec inv dec : Bool) (i0 i1 : Int) :
    Lane FocOut := do
  let ss := laneSin q thS
  let cs := laneCos q thS
  let ib ← laneSat (← laneMul q (← laneAcc (ya + 2 * yb)) (laneK3 q))
  let d ← laneSum (← laneMul q ya cs) (← laneMul q ib ss)
  let qq ← laneSum (← laneMul q ib cs) (-(← laneMul q ya ss))
  let ed ← laneSum (slot 0) (-d)
  let eq ← laneSum (slot 1) (-qq)
  let ff ← if dec then do
      let w ← laneSat (← laneMul q vb (slot 9))
      let ffd ← laneSat (-(← laneMul q w (← laneMul q (slot 7) qq)))
      let ffq ← laneSat (← laneMul q w (← laneAcc ((← laneMul q (slot 6) d) + slot 8)))
      pure (ffd, ffq)
    else pure (0, 0)
  let (vd, j0) ← lanePi q ed (slot 2) (slot 3) ff.1 (-(slot 11)) (slot 11) i0
  let (vq, j1) ← lanePi q eq (slot 4) (slot 5) ff.2 (-(slot 12)) (slot 12) i1
  let se := laneSin q thE
  let ce := laneCos q thE
  let va ← laneSum (← laneMul q vd ce) (-(← laneMul q vq se))
  let vbt ← laneSum (← laneMul q vd se) (← laneMul q vq ce)
  let k ← laneMul q vbt (laneK2 q)
  let b ← laneSum (-(asr va 1)) k
  let c ← laneSum (-(asr va 1)) (-k)
  let v0 ← if spaceVec then
      laneSat (-(asr (← laneAcc (max va (max b c) + min va (min b c))) 1)) else pure 0
  let rc := laneRecip q (slot 10)
  modify (fun f => (f.1 || rc.2, f.2))
  let duty ← [va, b, c].mapM (fun x => do
    let mx ← laneSat (← laneMul q (← laneAcc (x + v0 + slot 13)) rc.1)
    laneSum (2 ^ (q - 1)) (if inv then -mx else mx))
  pure { duty := duty, outs := [d, qq, vd, vq], ints := [j0, j1] }

end Sys2Proof.Machine
end

