-- ==== Sys2Proof/Machine/XlCore.lean ====
section
/-! DEFINITION. Express lanes (08): freezes and snapshots, records at the tap, pairing, results, publication. -/

namespace Sys2Proof.Machine

def updXl (s : Fin 12) (f : Xl → Xl) (c : Chip) : Chip := { c with xls := vmod c.xls s f }

/-- The mode in use: XL_STAT.MODEA (R191). -/
def xlMode (c : Chip) (s : Nat) : Nat := c.fld (xlR s 4) 1 2
def xlFoc (c : Chip) (s : Nat) : Word := c.reg (xlR s 0x14)
def xlLoop (c : Chip) (s l : Nat) : Word := c.reg (xlR s (0x40 + 4 * l))
/-- XL_INT[k] at the start of the cycle, signed. -/
def xlInt (c : Chip) (s k : Nat) : Int := (c.reg0 (xlR s (0x100 + 4 * k))).toInt

/-- N − 1 by mode (R190). -/
def xlDelay : Nat → Nat
  | 1 => 9
  | 2 => 2
  | _ => 1

/-- The loops whose trigger is a conversion of core `core` (0 or 1) with input id `id` (R195, R203). -/
def xlLoops (c : Chip) (s core id : Nat) : List Nat :=
  match xlMode c s with
  | 0 => []
  | 1 => if core = 0 ∧ c.fld (xlR s 0x18) 0 8 = id then [0] else []
  | m => (List.range (if m = 2 then 4 else 2)).filter (fun l =>
      let v := xlLoop c s l
      v.bit 19 && v.fld 5 1 == core && v.fld 6 8 == id)

/-- The key of the snapshot that a conversion of core `core` with input id `id` leaves for loop `l` (R195). -/
def xlKey (core id l : Nat) : Nat := 1024 * core + 4 * id + l

/-! ### Freezes (R194 to R196) -/

/-- The words of XL_BIND and XL_COEF, index 0 to 15 and 16 to 31, as a freeze takes them: without the writes of its cycle
(R210). -/
def xlCfgWord (c : Chip) (s : Fin 12) (j : Nat) : Word := c.reg0 (xlR s.val (0x80 + 4 * j))

/-- The slots that a mode uses, and the q of each (R196). -/
def xlUsed : Nat → Nat
  | 1 => 14
  | 2 => 16
  | 3 => 10
  | _ => 0
def xlSlotQ (c : Chip) (s j : Nat) : Nat :=
  match xlMode c s with
  | 1 => laneQ ((xlFoc c s).fld 0 5)
  | 2 => laneQ ((xlLoop c s (j / 4)).fld 0 5)
  | _ => laneQ ((xlLoop c s (j / 5)).fld 0 5)

/-- The value of slot `j` at a freeze (R194), and the read of a Pea word that it is (R229). -/
def xlSlot (s : Fin 12) (j : Fin 16) (c : Chip) : Word × Chip :=
  let b := xlCfgWord c s j.val
  if xlUsed (xlMode c s) ≤ j.val then (0, c)
  else match b.fld 0 2 with
    | 1 => peaSnap (b.fld 2 9) c
    | 2 => (wordI c.xls[s].tap[j], c)
    | _ => (xlCfgWord c s (16 + j.val), c)

/-- The sixteen slot values of a freeze (R195). -/
def xlSlots (s : Fin 12) (c : Chip) : Vector Word 16 × Chip :=
  (List.finRange 16).foldl (fun (r : Vector Word 16 × Chip) j =>
    let x := xlSlot s j r.2
    (r.1.set j x.1, x.2)) (Vector.replicate 16 0, c)

/-- The snapshot of a freeze in the present cycle (R195, R198). -/
def xlSnapNow (s : Fin 12) (c : Chip) : XlSnap × Chip :=
  let p : Fin 8 := Fin.ofNat 8 ((xlFoc c s).fld 5 3)
  let r := xlSlots s c
  ({ slots := r.1, vb := c.reg (pbR p.val 0x14), theta := ((accEnd c p).toNat >>> 16) % 2 ^ 20 }, r.2)

/-- A sample instant of a trigger conversion freezes the operands of its loops (R195); the first is one that ends after
the cycle in which the enabling write lands (R191). XL_RECIP shows the RECIP formed from the snapshot (R199). The record of an
earlier conversion of the core has come by then, or comes no more. -/
def xlFreeze (s : Fin 12) (core id : Nat) (c : Chip) : Chip :=
  let ls := xlLoops c s core id
  let c := updXl s (fun x => { x with snaps := adrop (1024 * core) 1024 x.snaps }) c
  if ls.isEmpty || c.xls[s].enAt == some c.now then c
  else
    let (sn, c) := xlSnapNow s c
    let c := updXl s (fun x => { x with snaps := ls.foldl (fun l k => aput l (xlKey core id k) sn) x.snaps }) c
    if xlMode c s = 1 then
      c.setReg (xlR s.val 0x24) (wordI (laneRecip (laneQ ((xlFoc c s).fld 0 5)) (sn.slots[10].toInt)).1)
    else c

/-! ### Records at the tap (R194, R197, R203) -/

/-- A result falls due: one happening for a result cycle of a lane. -/
def xlStart (s : Fin 12) (f : XlFlight) (c : Chip) : Chip :=
  let again := c.xls[s].flight.any (fun g => g.due == f.due)
  let c := updXl s (fun x => { x with flight := x.flight ++ [f] }) c
  if again then c else c.schedule (f.due - c.now) (.laneResult s)

/-- A pair miss: PAIRF and its count (R197). -/
def xlMiss (s : Fin 12) (c : Chip) : Chip := (c.setBits (xlR s.val 4) (2 ^ 11)).satInc (xlR s.val 0x10) 16 16

/-- The FOC3 computation starts on a pair (R197, R198, R201); a pair whose IDA record has no snapshot starts none. -/
def xlStartFoc (s : Fin 12) (a b : XlRec) (c : Chip) : Chip :=
  match a.snap with
  | none => c
  | some sn =>
    let foc := xlFoc c s
    let p : Fin 8 := Fin.ofNat 8 (foc.fld 5 3)
    let low := decide (sn.slots[10].toInt ≤ (c.reg (xlR s.val 0x20)).toInt)
    let lost := !(pbState c p == stTrack || pbState c p == stCoast)
    let c := if low then c.setBits (xlR s.val 4) (2 ^ 12) else c
    let c := if lost then c.setBits (xlR s.val 4) (2 ^ 13) else c
    let thE := (predict c p (accPrev c p) (c.fld (xlR s.val 0x1C) 0 16)).fld 0 20
    xlStart s { due := c.now + xlDelay 1, ints := none, mode := 1, loop := 0, cfg := foc, ra := a.r, rb := b.r, snap := sn, thE := thE,
                bad := low || lost } c

/-- A record of IDA (`isA`) or IDB is held, or completes a pair no later than PAIRWIN cycles after the first (R197). -/
def xlHold (s : Fin 12) (isA : Bool) (r : XlRec) (c : Chip) : Chip :=
  let x := c.xls[s]
  let own := if isA then x.heldA else x.heldB
  let oth := if isA then x.heldB else x.heldA
  let c := if own.isSome then xlMiss s c else c
  match oth with
  | none => updXl s (fun x => if isA then { x with heldA := some r } else { x with heldB := some r }) c
  | some o =>
    let c := updXl s (fun x => { x with heldA := none, heldB := none }) c
    if isA then xlStartFoc s r o c else xlStartFoc s o r c

/-- The pair window of a record held alone has passed: the record is discarded (R197). -/
def xlPairEnd (s : Fin 12) (c : Chip) : Chip :=
  let x := c.xls[s]
  if x.heldA.isSome || x.heldB.isSome then xlMiss s (updXl s (fun x => { x with heldA := none, heldB := none }) c)
  else c

/-- The windows that end with the present cycle, by PAIRWIN or by PAIR_WINDOW (R197, R210: a second record in the last cycle
pairs). -/
def xlExpire (s : Fin 12) (c : Chip) : Chip :=
  let win := c.fld (xlR s.val 0x18) 16 8
  let ended := decide (c.xls[s].pairAt = some c.now)
  let old := fun (r : Option XlRec) => match r with
    | some r => decide (r.cycle + win ≤ c.now) || (ended && decide (r.cycle < c.now))
    | none => false
  if old c.xls[s].heldA || old c.xls[s].heldB then xlPairEnd s c else c

/-- PAIR_WINDOW: the window of a record held alone passes with the present cycle, at whose end the record goes (R197, R210). -/
def xlPairOver (s : Fin 12) (c : Chip) : Chip := updXl s (fun x => { x with pairAt := some c.now }) c

/-- Whether a record of core `core` is one of FOC3's IDA (`isA`) or IDB (R197). -/
def xlIsIn (c : Chip) (s : Nat) (isA : Bool) (t : Nat × Word) : Bool :=
  xlMode c s == 1 && t.1 == (if isA then 0 else 1) && c.fld (xlR s 0x18) (if isA then 0 else 8) 8 == t.2.fld 16 8

/-- Records of IDA and IDB that arrive in one cycle pair with each other: one held from before is replaced (R197, R210). -/
def xlTogether (s : Fin 12) (c : Chip) : Chip :=
  let ts := c.xls[s].taps
  if ts.any (xlIsIn c s.val true) && ts.any (xlIsIn c s.val false) then xlPairEnd s c else c

/-- The tap latches take a record, as y of the slot's loop (R192, R194). -/
def xlLatch (s : Fin 12) (rec : Word) (c : Chip) : Chip :=
  let tap := Vector.ofFn (fun (j : Fin 16) =>
    if (xlCfgWord c s j.val).fld 11 8 = rec.fld 16 8 then laneY (xlSlotQ c s j.val) (signed 16 (rec.fld 0 16)) else c.xls[s].tap[j])
  updXl s (fun x => { x with tap := tap }) c

/-- A record reaches the lane (R195, R197, R203): each computation takes the snapshot of the record's conversion. -/
def xlRecord (s : Fin 12) (core : Nat) (rec : Word) (c : Chip) : Chip :=
  let id := rec.fld 16 8
  let r := signed 16 (rec.fld 0 16)
  let ls := xlLoops c s core id
  let sn := fun (l : Nat) => aget c.xls[s].snaps (xlKey core id l)
  let used := fun (c : Chip) => updXl s (fun x => { x with snaps := ls.foldl (fun k l => adel k (xlKey core id l)) x.snaps }) c
  match xlMode c s with
  | 0 => c
  | 1 =>
    if xlIsIn c s.val true (core, rec) then xlHold s true { r := r, snap := sn 0, cycle := c.now } (used c)
    else if xlIsIn c s.val false (core, rec) then xlHold s false { r := r, snap := none, cycle := c.now } c
    else c
  | m => ls.foldl (fun (c' : Chip) l => match sn l with
    | some k => xlStart s { due := c'.now + xlDelay m, ints := none, mode := m, loop := l, cfg := xlLoop c' s l, ra := r, rb := 0,
                            snap := k, thE := 0, bad := false } c'
    | none => c') (used c)

/-- The computations whose integrator cycle is the present one take XL_INT: cycle 5 of FOC3, cycle 2 of SCALAR4 (R202, R203). -/
def xlInts (s : Fin 12) (c : Chip) : Chip :=
  updXl s (fun x => { x with flight := x.flight.map (fun f =>
    if f.mode = 1 ∧ f.due = c.now + 5 then { f with ints := some (xlInt c s 0, xlInt c s 1) }
    else if f.mode = 2 ∧ f.due = c.now + 1 then { f with ints := some (xlInt c s f.loop, 0) }
    else f) }) c

/-- EN written 0 takes effect at the end of its cycle: what is in flight is abandoned (R191). -/
def xlOff (s : Fin 12) (c : Chip) : Chip :=
  updXl s (fun x => { x with flight := [], snaps := [], heldA := none, heldB := none, taps := [], enAt := none })
    (c.setFld (xlR s.val 4) 1 2 0)

/-- The end of a cycle for a lane: latches, then the records of the cycle, then windows, IRST and EN (R191, R210). -/
def xlEnd (s : Fin 12) (c : Chip) : Chip :=
  let taps := c.xls[s].taps
  let c := taps.foldl (fun (c : Chip) t => xlLatch s t.2 c) c
  let c := taps.foldl (fun (c : Chip) t => xlRecord s t.1 t.2 c) (xlTogether s c)
  let c := xlExpire s (updXl s (fun x => { x with taps := [], wrote := [], intW := [] }) c)
  let c := if c.xls[s].flight.isEmpty then c else xlInts s c
  let c := if c.xls[s].irstAt = some c.now then
      let c := (List.range 4).foldl (fun (c : Chip) k => c.setReg (xlR s.val (0x100 + 4 * k)) 0) c
      updXl s (fun x => { x with irstAt := none }) c
    else c
  if xlMode c s ≠ 0 ∧ c.bit (xlR s.val 0) 0 = false then xlOff s c else c

/-! ### Results (R199 to R207) -/

/-- What a result cycle gathers: SATF or CLMPF of some computation. -/
def xlFlags (s : Nat) (f : Bool × Bool) (c : Chip) : Chip :=
  let c := if f.1 then c.setBits (xlR s 4) (2 ^ 9) else c
  if f.2 then c.setBits (xlR s 4) (2 ^ 10) else c

/-- Whether a higher loop has written target `k` in the present cycle: compare x of channel ch is 4·ch + x, window w is
32 + w (R205). -/
def xlBeaten (c : Chip) (s : Fin 12) (l k : Nat) : Bool := c.xls[s].wrote.any (fun e => e.1 == k && decide (l < e.2))

/-- Loop `l` has written target `k` in the present cycle. -/
def xlWrote (s : Fin 12) (l k : Nat) (c : Chip) : Chip := updXl s (fun x => { x with wrote := (k, l) :: x.wrote }) c

/-- A compare write of loop `l` of the lane; one to a channel whose POINT is not 5 sets IGNF. Where two loops write one compare in
one cycle, the higher loop's value lands (R205). -/
def xlCompare (s : Fin 12) (l ch : Nat) (x : Fin 4) (v : Int) (c : Chip) : Chip :=
  let n : Fin 96 := Fin.ofNat 96 (8 * s.val + ch % 8)
  let k := 4 * (ch % 8) + x.val
  let c := if cmtPoint c n = 5 then c else c.setBits (xlR s.val 4) (2 ^ 14)
  if xlBeaten c s l k then c else laneCompare n x (wordI v) (xlWrote s l k c)

/-- A result writes integrator `k`; it wins over a write of software in the same cycle (R200, R210). -/
def xlSetInt (s : Fin 12) (k : Nat) (v : Int) (c : Chip) : Chip :=
  updXl s (fun x => { x with intW := k :: x.intW }) (c.setReg (xlR s.val (0x100 + 4 * k)) (wordI v))

/-- Output `i` appears and is published (R206). -/
def xlOutput (s : Fin 12) (i : Nat) (v : Int) (c : Chip) : Chip :=
  let c := c.setReg (xlR s.val (0x120 + 4 * i)) (wordI v)
  let p := c.reg (xlR s.val (0x110 + 4 * i))
  if p.bit 9 then peaWrite (24 + s.val) (p.fld 0 9) (wordI v) c else c

/-- The active period of channel `ch` of the slice at the start of the cycle (R199); a coarse part below 4 acts as 4 ticks (04 R95). -/
def xlPer (c : Chip) (s : Fin 12) (ch : Nat) : Nat := perOf (c.reg0 (pwmR (8 * s.val + ch % 8) 4))

/-- The integrators that a computation uses: as taken in their cycle; PEAK2's is its result cycle (R202 to R204). -/
def xlIntOf (c : Chip) (s : Fin 12) (f : XlFlight) : Int × Int :=
  f.ints.getD (if f.mode = 1 then (xlInt c s 0, xlInt c s 1) else (xlInt c s f.loop, 0))

/-- The result of FOC3 (R199, R201). -/
def xlFocResult (s : Fin 12) (f : XlFlight) (c : Chip) : Chip × Bool :=
  let ch := fun (k : Nat) => f.cfg.fld (8 + 3 * k) 3
  let c0 := c
  if f.bad then
    ([0, 1, 2].foldl (fun (c : Chip) k => xlCompare s 0 (ch k) 0 (xlPer c0 s (ch k) / 2 : Nat) c) c, false)
  else
    let q := laneQ (f.cfg.fld 0 5)
    let slot := fun (j : Nat) => ((f.snap.slots[j]?).getD 0).toInt
    let comp : Lane (FocOut × List Int) := do
      let o ← focCompute q slot (laneY q f.ra) (laneY q f.rb) f.snap.vb.toInt f.snap.theta f.thE (f.cfg.bit 17)
        (f.cfg.bit 18) (f.cfg.bit 19) (xlIntOf c0 s f).1 (xlIntOf c0 s f).2
      let v ← o.duty.zipIdx.mapM (fun e => laneCmp q (xlPer c0 s (ch e.2)) e.1)
      pure (o, v)
    let ((o, v), fl) := comp.run (false, false)
    let c := v.zipIdx.foldl (fun (c : Chip) e => xlCompare s 0 (ch e.2) 0 e.1 c) c
    let c := o.ints.zipIdx.foldl (fun (c : Chip) e => xlSetInt s e.2 e.1 c) c
    let c := o.outs.zipIdx.foldl (fun (c : Chip) e => xlOutput s e.2 e.1 c) c
    (xlFlags s fl c, fl.1 || fl.2)

/-- The PI regulator of a SCALAR4 or PEAK2 loop, with the value and the new integrator (R203, R204). -/
def xlLoopPi (c : Chip) (s : Fin 12) (f : XlFlight) (base : Nat) : Lane (Int × Int) := do
  let q := laneQ (f.cfg.fld 0 5)
  let slot := fun (j : Nat) => ((f.snap.slots[base + j]?).getD 0).toInt
  let e ← laneSum (slot 0) (-(laneY q f.ra))
  lanePi q e (slot 1) (slot 2) 0 0 (slot 3) (xlIntOf c s f).1

/-- The result of a SCALAR4 loop (R203). -/
def xlScalarResult (s : Fin 12) (f : XlFlight) (c : Chip) : Chip × Bool :=
  let q := laneQ (f.cfg.fld 0 5)
  let ch := f.cfg.fld 14 3
  let comp : Lane (Int × Int × Int) := do
    let (u, i) ← xlLoopPi c s f (4 * f.loop)
    let v ← if f.cfg.bit 20 then laneSum (2 ^ q) (-u) else pure u
    let k ← laneCmp q (xlPer c s ch) v
    pure (u, i, k)
  let ((u, i, k), fl) := comp.run (false, false)
  let c := xlCompare s f.loop ch (Fin.ofNat 4 (f.cfg.fld 17 2)) k c
  let c := xlSetInt s f.loop i c
  (xlFlags s fl (xlOutput s f.loop u c), fl.1 || fl.2)

/-- The upper code and slope that PEAK2 writes (R204). -/
def xlPeakCode (q : Nat) (u slope : Int) : Nat × Int :=
  ((clampI 0 4095 (asr (u + 2 ^ (q - 13)) (q - 12))).toNat,
   clampI (-32768) 32767 (asr (slope + 2 ^ (q - 9)) (q - 8)))

/-- The lane's write of WIN_THR.HI and WIN_RAMPH.SLOPE (R204, 07 R180). -/
def xlThrWrite (w : Fin 96) (code : Nat) (slope : Int) (c : Chip) : Chip :=
  thrWrite w ((c.reg (winR w 4)).withFld 16 12 code) (c.reg (winR w 8))
    ((c.reg (winR w 0xC)).withFld 0 16 (wordI slope).toNat) c

/-- The result of a PEAK2 loop; where both write one window in one cycle, loop 1's values land (R204, R205). -/
def xlPeakResult (s : Fin 12) (f : XlFlight) (c : Chip) : Chip × Bool :=
  let q := laneQ (f.cfg.fld 0 5)
  let ((u, i), fl) := (xlLoopPi c s f (5 * f.loop)).run (false, false)
  let (code, sf) := xlPeakCode q u (((f.snap.slots[5 * f.loop + 4]?).getD 0).toInt)
  let c := (List.range 8).foldl (fun (c : Chip) k =>
    if f.cfg.bit (24 + k) && !xlBeaten c s f.loop (32 + k) then
      xlThrWrite (Fin.ofNat 96 (8 * s.val + k)) code sf (xlWrote s f.loop (32 + k) c)
    else c) c
  let c := xlSetInt s f.loop i c
  (xlFlags s fl (xlOutput s f.loop u c), fl.1 || fl.2)

/-- One computation delivers its result. -/
def xlDeliver (s : Fin 12) (f : XlFlight) (c : Chip) : Chip × Bool :=
  match f.mode with
  | 1 => xlFocResult s f c
  | 2 => xlScalarResult s f c
  | _ => xlPeakResult s f c

/-- A result cycle: the computations that `p` names deliver, by rising loop, with one count and at most one pulse of
source 496 + s (R205, R207). -/
def xlResult (s : Fin 12) (p : XlFlight → Bool) (c : Chip) : Chip :=
  let fs := c.xls[s].flight.filter p
  if fs.isEmpty then c
  else
    let c := updXl s (fun x => { x with flight := x.flight.filter (fun f => !p f) }) c
    let byLoop := (List.range 4).flatMap (fun l => fs.filter (fun f => f.loop == l))
    let (c, sat) := byLoop.foldl (fun (a : Chip × Bool) f =>
      let r := xlDeliver s f a.1
      (r.1, a.2 || r.2)) (c, false)
    let c := c.setBits (xlR s.val 4) (2 ^ 8)
    let c := if c.xls[s].resAt = some c.now then c else c.satInc (xlR s.val 0x10) 0 16
    let c := updXl s (fun x => { x with resAt := some c.now }) c
    if c.bit0 (xlR s.val 0) 3 || (c.bit0 (xlR s.val 0) 4 && sat) then evPulse (496 + s.val) c else c

/-! ### Registers -/

/-- A write of XL_CFG (R191): enabling takes MODE; while enabled only the event fields are taken. A lane written EN = 0 is off from
the next cycle. -/
def xlCfgWrite (ini : Initiator) (s : Fin 12) (v : Word) (c : Chip) : Chip :=
  if !cfgOpen c ini s then c
  else
    let o := c.reg (xlR s.val 0)
    if o.bit 0 && v.bit 0 then c.setReg (xlR s.val 0) ((v &&& 0x19) ||| (o &&& 6))
    else
      let c := c.setReg (xlR s.val 0) (v &&& 0x1F)
      if v.bit 0 then
        updXl s (fun x => { Xl.reset with irstAt := x.irstAt, enAt := some c.now }) (c.setFld (xlR s.val 4) 1 2 (v.fld 1 2))
      else c

/-- A write of XL_BIND[j] or XL_COEF[j], at +0x80 + 4k. -/
def xlSlotWrite (ini : Initiator) (s : Fin 12) (k : Nat) (v : Word) (c : Chip) : Chip :=
  if cfgOpen c ini s then c.setReg (xlR s.val (0x80 + 4 * k)) (if k < 16 then v &&& 0x7FFFF else v) else c

/-- A write of XL_CTL: the integrators are 0 after the cycle (R210, R212). -/
def xlCtlWrite (s : Fin 12) (v : Word) (c : Chip) : Chip :=
  if v.bit 0 then updXl s (fun x => { x with irstAt := some c.now }) c else c

/-- Whether a write at offset `o` is one of an integrator that a result of the present cycle has written: the hardware's update wins
(R210, 00 R8). -/
def xlIntHeld (c : Chip) (s : Fin 12) (o : Nat) : Bool := decide (0x100 ≤ o) && decide (o < 0x110) && c.xls[s].intW.contains ((o - 0x100) / 4)

/-- XL_STAT as read: BUSY while a computation is in flight (R212). -/
def xlStat (c : Chip) (s : Fin 12) : Word := (c.reg (xlR s.val 4)).withBit 0 (!c.xls[s].flight.isEmpty)

end Sys2Proof.Machine
end

