-- ==== Sys2Proof/Machine/AdcCore.lean ====
section
/-! DEFINITION. The SAR cores (06 R145 to R160, R168): starts, sequences, conversion timing, correction, records, queue. -/

namespace Sys2Proof.Machine

def updAdc (k : Fin 32) (f : Adc → Adc) (c : Chip) : Chip := { c with adcs := vmod c.adcs k f }

def adcEn (c : Chip) (k : Nat) : Bool := c.bit (adcR k 0) 0
def adcRdy (c : Chip) (k : Nat) : Bool := c.bit (adcR k 4) 1
def adcSeqR (k e : Nat) : Nat := adcR k (0x100 + 4 * e)

/-- The first mux input of a core, which is its base id (R145): a slice core's through SLICE_AINMAP (17 R415). -/
def adcBase (c : Chip) (k : Nat) : Nat := if k < 24 then ballOf c (k / 2) 0 else 96 + 8 * (k - 24)

/-- Whether core `k` can convert input `id` (R145, R148). -/
def adcCan (c : Chip) (k id : Nat) : Bool :=
  (decide (adcBase c k ≤ id) && decide (id < adcBase c k + 8)) ||
  (decide (24 ≤ k) && decide (0xE0 ≤ id) && decide (id < 0xE4))

/-! ### Inputs (R146, R167, R168) -/

/-- The ball of mux position `i` of core `k`. -/
def adcBall (c : Chip) (k i : Nat) : Nat := adcBase c k + i

/-- The raw code of a voltage in microvolts (R146). -/
def adcCode (v vref : Int) : Nat := if v ≤ 0 then 0 else if vref ≤ v then 16383 else (16384 * v / vref).toNat

/-- Whether the exciter of PB[p] runs (R167). -/
def excRuns (c : Chip) (p : Nat) : Bool := pbEn c p && (pbSrc c p == srcResolver || pbSrc c p == srcSdm)

/-- The code of the exciter of PB[p] at its present phase (R167). -/
def excCode (c : Chip) (p : Fin 8) : Nat :=
  let mid : Int := c.fld (udacR p 8) 0 12
  let amp : Int := c.fld (udacR p 8) 16 12
  (clampI 0 4095 (mid + asr (amp * sinTurn (excPhase c p c.now * 2 ^ 60).floor.toNat + 2 ^ 59) 60)).toNat

/-- The update of UDAC[p]'s exciter code, in every fourth cycle from the one in which the exciter began; at the start of a cycle
(R167). While the exciter stands the code is MID. -/
def udacTurn (p : Fin 8) (c : Chip) : Chip :=
  if !excRuns c p then updPb p (fun b => { b with udac := c.fld (udacR p 8) 0 12 }) c
  else if (c.now - c.pbs[p].excGrid) % 4 = 0 then updPb p (fun b => { b with udac := excCode c p }) c
  else c

/-- The code of UDAC[p] (R167): static, or the exciter's; none while Hi-Z. -/
def udacCode (c : Chip) (p : Fin 8) : Option Nat :=
  match c.fld (udacR p 0) 0 2 with
  | 1 => some (c.fld (udacR p 4) 0 12)
  | 2 => some (if excRuns c p then c.pbs[p].udac else c.fld (udacR p 8) 0 12)
  | _ => none

/-- A readback of a node with expected code `e` within ± `tol` (R168); open where the acquisition is below 200 ns or the
node shows no stated code. -/
def nodeCode (c : Chip) (acq : Nat) (e : Option Int) (lo hi : Int) : Nat :=
  let d := Config.nodeDev c.now
  match e with
  | some x => if 95 ≤ acq then (clampI 0 16383 (x + clampI lo hi d)).toNat else (d % 16384).toNat
  | none => (d % 16384).toNat

/-- The raw code of an internal input (R168). -/
def adcInternal (c : Chip) (id chk acq : Nat) : Nat :=
  match id % 4 with
  | 0 =>
    if chk < 192 then nodeCode c acq (some (4 * dacCode c (Fin.ofNat 96 (chk / 2)) (chk % 2 == 1))) (-24) 24
    else if chk < 200 then nodeCode c acq ((udacCode c (Fin.ofNat 8 (chk - 192))).map (fun d => 4 * (d : Int))) (-24) 24
    else nodeCode c acq (some 0) 0 8
  | 1 => nodeCode c acq (some 8192) (-8) 8
  | 2 => nodeCode c acq (some ((16384 * 1200000 + Config.vref / 2) / Config.vref)) (-80) 80
  | _ => nodeCode c acq (some 0) 0 8

/-- The code that the sample instant of the present cycle holds (R146, R168). -/
def adcSampled (c : Chip) (k : Nat) (v : AdcConv) : Nat :=
  let id := v.seq.fld 0 8
  if 0xE0 ≤ id then adcInternal c id v.chk (v.seq.fld 12 8)
  else
    let p := Config.ain c.now (adcBall c k (id % 8))
    let n := if v.seq.bit 8 then Config.ain c.now (adcBall c k (v.seq.fld 9 3)) else 0
    adcCode (p - n) Config.vref

/-! ### Starts and sequences (R147 to R151) -/

/-- An entry is taken at the end of the cycle before its first acquisition cycle, and its acquisition begins (R148,
R149). -/
def adcTake (k : Fin 32) (entry src : Nat) (c : Chip) : Chip :=
  let seq := c.reg (adcSeqR k entry)
  let v : AdcConv :=
    { entry := entry, seq := seq, chk := c.fld (adcR k 0x28) 0 9, src := src, left := 2 ^ min (seq.fld 20 3) 4, sum := 0,
      stamp := 0, tsel := false, code := 0, sampleAt := c.now + seq.fld 12 8 + 5, endAt := 0, held := false }
  updAdc k (fun a => { a with cur := some v }) c

/-- The next acquisition of an averaged entry (R151). -/
def adcAgain (k : Fin 32) (v : AdcConv) (c : Chip) : Chip :=
  updAdc k (fun a => { a with cur := some { v with
    left := v.left - 1, sum := v.sum + v.code, chk := c.fld (adcR k 0x28) 0 9, held := false,
    sampleAt := c.now + v.seq.fld 12 8 + 5 } }) c

/-- The first pending start begins where the core is idle (R150). -/
def adcNextStart (k : Fin 32) (c : Chip) : Chip :=
  match c.adcs[k].cur, c.adcs[k].pending with
  | none, p :: rest => adcTake k p.entry p.src (updAdc k (fun a => { a with pending := rest }) c)
  | _, _ => c

/-- Whether an entry ends its sequence (R148). -/
def adcLast (v : AdcConv) : Bool := v.seq.bit 28 || v.entry == 31

/-- The last conversion cycle of a conversion: another acquisition of the entry, the next entry, or the end of the
sequence (R148 to R151). -/
def adcConvEnd (k : Fin 32) (v : AdcConv) (c : Chip) : Chip :=
  if 1 < v.left then adcAgain k v c
  else
    let c := updAdc k (fun a => { a with cur := none, done := some v }) c
    if adcLast v then c else adcTake k (v.entry + 1) v.src c

/-- The pending queue with a start in the order of R150, and whether some start is lost: an idle core takes one more. -/
def adcQueue (a : Adc) (st : AdcStart) : List AdcStart × Bool :=
  let l := a.pending.filter (fun p => !(p.at_ == st.at_ && decide (st.src < p.src)))
  let r := a.pending.filter (fun p => p.at_ == st.at_ && decide (st.src < p.src))
  let cap := if a.cur.isNone then 5 else 4
  let all := l ++ st :: r
  (all.take cap, decide (cap < all.length))

/-- A start reaches core `k` (R147, R150). -/
def adcStartAt (k : Fin 32) (entry src : Nat) (c : Chip) : Chip :=
  if !adcRdy c k then c.setBits (adcR k 4) (2 ^ 13)
  else
    let (q, lost) := adcQueue c.adcs[k] { entry := entry, src := src, at_ := c.now }
    let c := updAdc k (fun a => { a with pending := q }) c
    if lost then (c.setBits (adcR k 4) (2 ^ 11)).satInc (adcR k 0x20) 16 16 else c

/-- A pulse of trigger `t` (R147). -/
def adcTrig (k : Fin 32) (t : Fin 2) (c : Chip) : Chip :=
  let v := c.reg (adcR k 0xC)
  if v.bit (16 + t.val) then adcStartAt k (v.fld (8 * t.val) 5) t.val c else c

/-- A write of ADC_SWSTART (R147). -/
def adcSwWrite (k : Fin 32) (v : Word) (c : Chip) : Chip := if v.bit 8 then adcStartAt k (v.fld 0 5) 3 c else c

/-- The sample instant (R149, R155): input held, stamp taken, express lanes frozen. -/
def adcSample (k : Fin 32) (c : Chip) : Chip :=
  match c.adcs[k].cur with
  | some v =>
    if v.held then c
    else
      let tsel := c.bit (adcR k 0) 2
      let p : Fin 8 := Fin.ofNat 8 (c.fld (adcR k 0) 3 3)
      let first := v.left == 2 ^ min (v.seq.fld 20 3) 4
      let v := if first then { v with tsel := tsel, stamp := if tsel then c.capTime else angWord (accEnd c p) } else v
      let v := { v with held := true, code := adcSampled c k.val v, sampleAt := c.now, endAt := c.now + 15 }
      let c := updAdc k (fun a => { a with cur := some v }) c
      let c := if v.left = 1 then c.schedule 16 (.conversionComplete k) else c
      if first && decide (k.val < 24) then xlFreeze (Fin.ofNat 12 (k.val / 2)) (k.val % 2) (v.seq.fld 0 8) c else c
  | none => c

/-! ### Records (R152 to R159) -/

/-- Result and flags LIM and SAT of a raw code; a write of ADC_COR or ADC_LIM applies from the next cycle (R152, R153). -/
def adcCorrect (c : Chip) (k id raw : Nat) : Int × Bool × Bool :=
  if 0xE0 ≤ id then (raw, false, false)
  else
    let cor := c.reg0 (adcR k (0x40 + 4 * (id % 8)))
    let x := asr ((raw - signed 16 (cor.fld 0 16)) * (cor.fld 16 16 : Int) + 2048) 12
    let r := clampI (-32768) 32767 x
    let lim := c.reg0 (adcR k (0x60 + 4 * (id % 8)))
    (r, decide (r < signed 16 (lim.fld 0 16)) || decide (signed 16 (lim.fld 16 16) < r), r != x)

/-- A record (R154). -/
def mkRecord (res : Int) (id : Nat) (lim seqend sat tsel : Bool) (src : Nat) (stamp : Word) : BitVec 64 :=
  stamp ++ (BitVec.ofNat 32 ((BitVec.ofInt 16 res).toNat + 2 ^ 16 * (id % 256) + 2 ^ 24 * lim.toNat + 2 ^ 26 * seqend.toNat
    + 2 ^ 27 * sat.toNat + 2 ^ 28 * tsel.toNat + 2 ^ 29 * (src % 8)))

def recLow (r : BitVec 64) : Word := r.setWidth 32
def recHigh (r : BitVec 64) : Word := r.extractLsb' 32 32

/-- The queue of `cap` records after a store: contents, the loss still to be marked, and whether a record was lost
(R157, 01 R19, R20). -/
def recStore (cap : Nat) (newest : Bool) (q : List (BitVec 64)) (lost : Bool) (r : BitVec 64) :
    List (BitVec 64) × Bool × Bool :=
  let mark : BitVec 64 := 2 ^ 25
  if q.length < cap then (q ++ [if lost then r ||| mark else r], false, false)
  else if newest then (q, true, true)
  else (q.drop 1 ++ [r ||| mark], false, true)

/-- The bank activation that a stored record brings in the cycle in which it becomes poppable (09 R216). -/
def adcActivate (k : Fin 32) (c : Chip) : Chip :=
  let q := c.fld (adcR k 0) 6 2
  if k.val < 24 ∧ (q = 1 ∨ q = 2) then
    let n := k.val / 2 * 2 + (q - 1)
    let v := c.reg (leR n 8)
    let b := v.fld (4 * (k.val % 2)) 3
    if v.bit (4 * (k.val % 2) + 3) && b != 0 && b != 7 then
      c.schedule 1 (.schWake (Fin.ofNat 32 (8 + n)) (Fin.ofNat 8 b))
    else c
  else c

/-- A record is stored in the core's queue (R157), with WMF by the level it leaves (R159). -/
def adcStore (k : Fin 32) (r : BitVec 64) (c : Chip) : Chip :=
  let a := c.adcs[k]
  let (q, lost, loss) := recStore 64 (c.bit (adcR k 0) 1) a.q a.lost r
  let c := updAdc k (fun a => { a with q := q, lost := lost }) c
  let c := if loss then (c.setBits (adcR k 4) (2 ^ 10)).satInc (adcR k 0x20) 0 16 else c
  if loss && c.bit (adcR k 0) 1 then c
  else
    let wm := let w := c.fld (adcR k 0) 8 7; if w = 0 then 64 else w
    adcActivate k (if wm ≤ q.length then c.setBits (adcR k 4) (2 ^ 12) else c)

/-- The end of a correction cycle: a record goes to its destinations (R149, R156). -/
def adcLand (k : Fin 32) (e : Word × BitVec 64) (c : Chip) : Chip :=
  let c := if e.1.bit 24 then
      updAdc k (fun a => { a with res := a.res.set (e.1.fld 25 3 % 8) e.2 (Nat.mod_lt _ (by decide)) }) c
    else c
  if e.1.bit 23 then adcStore k e.2 c else c

/-- The correction cycle (R149, R151 to R157, R159): one record, its flags, and the events of the next cycle. With AVG > 0 the entry
with EVT = 1 gives one event for its record, after its last conversion (DESIGN CHOICE, log 127: R159 speaks of each conversion). -/
def adcComplete (k : Fin 32) (c : Chip) : Chip :=
  match c.adcs[k].done with
  | none => c
  | some v =>
    let c := updAdc k (fun a => { a with done := none }) c
    let m := min (v.seq.fld 20 3) 4
    let raw := if m = 0 then v.code else (v.sum + v.code + 2 ^ m / 2) / 2 ^ m
    let id := v.seq.fld 0 8
    let (res, lim, sat) := adcCorrect c k id raw
    let r := mkRecord res id lim (adcLast v) sat v.tsel v.src v.stamp
    let c := c.setBits (adcR k 4) (2 ^ 8 * (adcLast v).toNat + 2 ^ 9 * lim.toNat + 2 ^ 14 * sat.toNat)
    let c := updAdc k (fun a => { a with stores := a.stores ++ [(v.seq, r)] }) c
    let c := if v.seq.bit 29 then evPulseIn 1 (288 + k.val) c else c
    c.schedule 1 (.adcTap k (recLow r))

/-- A conversion that is forced to its end by the command (R149): the converting core's last conversion cycle has come. -/
def adcFinish (k : Fin 32) (c : Chip) : Chip :=
  match c.adcs[k].done, c.adcs[k].cur with
  | none, some v => if v.held then adcComplete k (adcNextStart k (adcConvEnd k v c)) else c
  | _, _ => adcComplete k c

/-- A record at the tap: the lane of a slice core, and the trackers (R156, 02 R50, R51). -/
def adcTapped (k : Fin 32) (r : Word) (c : Chip) : Chip :=
  let c := trkRecord k (r.fld 16 8) (BitVec.ofNat 16 (r.fld 0 16)) c
  if k.val < 24 then
    let s : Fin 12 := Fin.ofNat 12 (k.val / 2)
    if xlMode c s = 0 then c else updXl s (fun x => { x with taps := x.taps ++ [(k.val % 2, r)] }) c
  else c

/-! ### Registers -/

/-- The consumer that QCON names: 0 registers, 1 and 2 the sample ports of LE[2s] and LE[2s + 1] (R157). -/
def adcQcon (c : Chip) (k : Nat) : Nat :=
  let q := c.fld (adcR k 0) 6 2
  if 24 ≤ k ∨ q = 3 then 0 else q

/-- A pop by consumer `who` (R157). -/
def adcPop (k : Fin 32) (who : Nat) (c : Chip) : BitVec 64 × Chip :=
  match c.adcs[k].q with
  | r :: rest => if adcQcon c k = who then (r, updAdc k (fun a => { a with q := rest }) c) else (emptyRec, c)
  | [] => (emptyRec, c)

/-- The hold copy of an initiator (R158). -/
def adcKeep (k : Fin 32) (ix : Nat) (r : BitVec 64) (c : Chip) : Chip :=
  updAdc k (fun a => { a with hold := aset 0 a.hold ix (recHigh r) }) c

/-- The consumer that pops as an initiator: a loop engine of the ADC's slice by its sample port, else the bus (R157, 09 R215). -/
def adcWho (k : Fin 32) (ini : Initiator) : Nat :=
  match ini with
  | .le n => if k.val / 2 = n.val / 2 then n.val % 2 + 1 else 0
  | _ => 0

/-- A read of ADC_QPOPL and of ADC_RESL[j] (R158). -/
def adcQpop (k : Fin 32) (ini : Initiator) (c : Chip) : Word × Chip :=
  let r := adcPop k (adcWho k ini) c
  (recLow r.1, adcKeep k (iniIx ini) r.1 r.2)
def adcRes (k : Fin 32) (j : Fin 8) (ini : Initiator) (c : Chip) : Word × Chip :=
  let r := c.adcs[k].res[j]
  (recLow r, adcKeep k (iniIx ini) r c)
def adcHold (c : Chip) (k : Fin 32) (ini : Initiator) : Word := aread 0 c.adcs[k].hold (iniIx ini)

/-- ADC_STAT and ADC_QSTAT as read (R172). -/
def adcStat (c : Chip) (k : Fin 32) : Word := (c.reg (adcR k 4)).withBit 0 c.adcs[k].cur.isSome
def adcQstat (c : Chip) (k : Fin 32) : Word :=
  BitVec.ofNat 32 (c.adcs[k].q.length + 2 ^ 8 * min c.adcs[k].pending.length 4)

/-- Whether configuration writes reach core `k` (R171). -/
def adcOpen (c : Chip) (ini : Initiator) (k : Nat) : Bool := if k < 24 then cfgOpen c ini (k / 2) else !c.sealed

/-- READY is reached (R160). -/
def adcReadyNow (k : Fin 32) (c : Chip) : Chip :=
  if adcEn c k && c.adcs[k].readyAt.isSome then
    (updAdc k (fun a => { a with readyAt := none }) c).setBits (adcR k 4) 2
  else c

/-- The start of a cycle: READY, from which starts are accepted (R160). -/
def adcTurn (k : Fin 32) (c : Chip) : Chip := if c.adcs[k].readyAt = some c.now then adcReadyNow k c else c

/-- EN taken to 0, at the end of the cycle of the write (R160): only a conversion at its last cycle is finished. -/
def adcOff (k : Fin 32) (c : Chip) : Chip :=
  updAdc k (fun a =>
    let ends := match a.cur with
      | some v => if v.held && v.endAt == c.now && v.left == 1 then some v else a.done
      | none => a.done
    { a with cur := none, done := ends, pending := [], readyAt := none }) (c.clrBits (adcR k 4) 2)

/-- What the end of a cycle brings a core: its records stored, EN written 0, the sample instant, the end of a conversion, the next
start (R149, R150, R160). -/
def adcEnd (k : Fin 32) (c : Chip) : Chip :=
  let c := c.adcs[k].stores.foldl (fun c e => adcLand k e c) (updAdc k (fun a => { a with stores := [] }) c)
  if !adcEn c k && (adcRdy c k || c.adcs[k].readyAt.isSome) then adcOff k c
  else
    let c : Chip := match c.adcs[k].cur with
      | some v =>
        if !v.held && v.sampleAt == c.now then adcSample k c
        else if v.held && v.endAt == c.now then adcConvEnd k v c else c
      | none => c
    adcNextStart k c

/-- A write of ADC_CFG (R160). -/
def adcCfgWrite (ini : Initiator) (k : Fin 32) (v : Word) (c : Chip) : Chip :=
  if !adcOpen c ini k then c
  else
    let c1 := c.setReg (adcR k 0) (v &&& 0x7FFF)
    if v.bit 0 && !adcRdy c k && c.adcs[k].readyAt.isNone then
      updAdc k (fun a => { a with readyAt := some (c.now + 1000) }) c1
    else c1

/-- A write of ADC_SEQ[e] (R148). -/
def adcSeqWrite (ini : Initiator) (k : Fin 32) (e : Nat) (v : Word) (c : Chip) : Chip :=
  if adcOpen c ini k && adcCan c k (v.fld 0 8) then c.setReg (adcSeqR k e) (v &&& 0x3FFFFFFF) else c

end Sys2Proof.Machine
end

