-- ==== Sys2Proof/Machine/SdmCore.lean ====
section
/-! DEFINITION. Sigma-delta demodulators (06 R161 to R166): clocks, the main path, the fast path, lost clock and stuck
stream. -/

namespace Sys2Proof.Machine

def updSdm (k : Fin 32) (f : Sdm → Sdm) (c : Chip) : Chip := { c with sdms := vmod c.sdms k f }

def sdmEn (c : Chip) (k : Nat) : Bool := c.bit (sdmR k 0) 0
/-- FEN as it governs the present cycle (R164, R169). -/
def sdmFen (c : Chip) (k : Nat) : Bool := c.bit0 (sdmR k 4) 5
/-- OSR and FOSR as they act (R173). -/
def sdmOsr (c : Chip) (k : Nat) : Nat := max (c.fld (sdmR k 0) 3 8) 7 + 1
def sdmFosr (c : Chip) (k : Nat) : Nat := max (c.fld (sdmR k 4) 0 5) 3 + 1

/-- The level of the selected clock (R161). -/
def sdmClk (c : Chip) (k : Nat) : Bool := if c.bit (sdmR k 0) 1 then sdmClko c (k / 4) else fnIn c 4 (2 * k + 1) false

/-! ### Threshold outputs (R164, R165) -/

/-- The threshold outputs take levels: flags, event, capture and trip inputs follow (R165). -/
def sdmTh (k : Fin 32) (t1 t2 : Bool) (c : Chip) : Chip :=
  let x := c.sdms[k]
  if x.th1 == t1 && x.th2 == t2 then c
  else
    let was := x.th1 || x.th2
    let c := updSdm k (fun x => { x with th1 := t1, th2 := t2 }) c
    let c := c.setBits (sdmR k 0xC) (2 ^ 12 * (t1 && !x.th1).toNat + 2 ^ 13 * (t2 && !x.th2).toNat)
    let c := if (t1 || t2) != was then
        let c := if t1 || t2 then evPulse (320 + k.val) c else c
        (List.finRange 64).foldl (fun (c : Chip) (j : Fin 64) =>
          let v := c.reg (capR j 0)
          if v.bit 0 && v.fld 1 2 == 3 && v.fld 3 7 == k.val then c.schedule 0 (.captureEdge j (t1 || t2)) else c) c
      else c
    tripRefreshAll c

/-- f of the sinc2 filter of length F over the bits kept (R164). -/
def sdmF (F : Nat) (bits : List Bool) : Nat :=
  (bits.take (2 * F - 1)).zipIdx.foldl (fun a e => if e.1 then a + min (e.2 + 1) (2 * F - 1 - e.2) else a) 0

/-- SDM_FVAL. -/
def sdmFval (c : Chip) (k : Fin 32) : Word := BitVec.ofNat 32 (sdmF (sdmFosr c k) c.sdms[k].fbits)

/-- Whether a condition of R166 lasts. -/
def sdmLost (c : Chip) (k : Fin 32) : Bool := c.sdms[k].lossClk || c.sdms[k].lossStuck

/-- The threshold outputs as they are while FEN = 1: by LOSSACT while a condition of R166 lasts, by f and the thresholds once the
fast path is settled, inactive before, also where FOSR has been raised (R164, R166). -/
def sdmFastOut (k : Fin 32) (c : Chip) : Chip :=
  if sdmLost c k then (if c.bit (sdmR k 4) 6 then sdmTh k true true c else c)
  else if c.sdms[k].fcnt < 2 * sdmFosr c k then sdmTh k false false (c.clrBits (sdmR k 0xC) 1)
  else
    let f := sdmF (sdmFosr c k) c.sdms[k].fbits
    sdmTh k (decide (c.fld (sdmR k 8) 0 11 < f)) (decide (f < c.fld (sdmR k 8) 16 11)) (c.setBits (sdmR k 0xC) 1)

/-- The fast path is settled: 2 × FOSR bits since FEN (R164). -/
def sdmSettle (k : Fin 32) (c : Chip) : Chip :=
  if sdmEn c k && sdmFen c k then
    sdmFastOut k (updSdm k (fun x => { x with fcnt := max x.fcnt (2 * sdmFosr c k) }) c)
  else c

/-- The fast path takes a bit: f follows every bit, and those after FEN count for its settling (R164). -/
def sdmFastBit (k : Fin 32) (b : Bool) (c : Chip) : Chip :=
  let c := updSdm k (fun x => { x with fbits := (b :: x.fbits).take 64 }) c
  if sdmFen c k then
    sdmFastOut k (if sdmLost c k then c else updSdm k (fun x => { x with fcnt := x.fcnt + 1 }) c)
  else c

/-- The fast path starts its settling anew: both outputs inactive (R164, R166). -/
def sdmFastRestart (k : Fin 32) (c : Chip) : Chip :=
  sdmTh k false false ((updSdm k (fun x => { x with fcnt := 0 }) c).clrBits (sdmR k 0xC) 1)

/-- The start of a cycle: FEN = 0 leaves both outputs inactive and the path unsettled (R164, R169). -/
def sdmTurn (k : Fin 32) (c : Chip) : Chip :=
  if !sdmFen c k && (c.sdms[k].fcnt != 0 || c.sdms[k].th1 || c.sdms[k].th2) then sdmFastRestart k c else c

/-! ### Main path (R162, R163) -/

/-- The sinc3 filter restarts: the next two outputs are discarded (R162). -/
def sdmRestart (k : Fin 32) (c : Chip) : Chip :=
  updSdm k (fun x => { x with i1 := 0, i2 := 0, i3 := 0, p0 := 0, p1 := 0, p2 := 0, n := 0, disc := 2 }) c

/-- An output reaches the trackers, and will be a record as the cycle ends, after the pops of the cycle (R162, R163, R169). -/
def sdmOut (k : Fin 32) (sum : Int) (c : Chip) : Chip :=
  let y := asr sum (c.fld (sdmR k 0) 11 5)
  let r := clampI (-32768) 32767 y
  trkSdm k (BitVec.ofInt 16 r) (updSdm k (fun x => { x with stores := x.stores ++ [(r, r != y)] }) c)

/-- An output of the cycle is stored as a record with its stamp (R163, R169). -/
def sdmStore (k : Fin 32) (o : Int × Bool) (c : Chip) : Chip :=
  let comp := c.fld (sdmR k 0) 22 6
  let tsel := c.bit (sdmR k 0) 17
  let p : Fin 8 := Fin.ofNat 8 (c.fld (sdmR k 0) 18 3)
  let stamp := if tsel then c.capTime - BitVec.ofNat 32 comp else angWord (thetaAge c p comp)
  let rec64 := mkRecord o.1 (0xC0 + k.val) false false o.2 tsel 0 stamp
  let (q, lost, loss) := recStore 16 (c.bit (sdmR k 0) 21) c.sdms[k].q c.sdms[k].lost rec64
  let c := updSdm k (fun x => { x with q := q, lost := lost }) c
  let stored := !(loss && c.bit (sdmR k 0) 21)
  c.setBits (sdmR k 0xC) (2 ^ 10 * loss.toNat + 2 ^ 11 * o.2.toNat + 2 ^ 14 * stored.toNat)

/-- The end of a cycle: its outputs are stored. -/
def sdmLand (k : Fin 32) (c : Chip) : Chip :=
  c.sdms[k].stores.foldl (fun c o => sdmStore k o c) (updSdm k (fun x => { x with stores := [] }) c)

/-- The main path takes a bit (R162). -/
def sdmMainBit (k : Fin 32) (b : Bool) (c : Chip) : Chip :=
  let x := c.sdms[k]
  let a1 := x.i1 + (if b then 1 else -1)
  let a2 := x.i2 + a1
  let a3 := x.i3 + a2
  let n := x.n + 1
  if n < sdmOsr c k then updSdm k (fun x => { x with i1 := a1, i2 := a2, i3 := a3, n := n }) c
  else
    let d0 := a3 - x.p0
    let d1 := d0 - x.p1
    let d2 := d1 - x.p2
    let c := updSdm k (fun x => { x with i1 := a1, i2 := a2, i3 := a3, n := 0, p0 := a3, p1 := d0, p2 := d1,
                                         disc := x.disc - 1 }) c
    if x.disc = 0 then (if sdmLost c k then c else sdmOut k d2 c) else c

/-! ### Lost clock and stuck stream (R166) -/

/-- A condition begins: SDM_STAT shows it and LOSSACT governs the threshold outputs (R166). -/
def sdmLoss (k : Fin 32) (clk : Bool) (c : Chip) : Chip :=
  if !sdmEn c k || (if clk then c.sdms[k].lossClk else c.sdms[k].lossStuck) then c
  else
    let c := updSdm k (fun x => if clk then { x with lossClk := true } else { x with lossStuck := true }) c
    let c := c.setBits (sdmR k 0xC) (if clk then 2 ^ 8 else 2 ^ 9)
    if sdmFen c k then sdmFastOut k c else c

/-- A condition ends: the settling counts of R162 and R164 start again (R166). -/
def sdmLossOver (k : Fin 32) (clk : Bool) (c : Chip) : Chip :=
  if (if clk then c.sdms[k].lossClk else c.sdms[k].lossStuck) then
    let c := updSdm k (fun x => if clk then { x with lossClk := false } else { x with lossStuck := false }) c
    if sdmLost c k then c else sdmFastRestart k (sdmRestart k c)
  else c

/-- A modulator bit is sampled (R161 to R166). In the cycle of a sync pulse it belongs to neither phase of the main path
(R162). -/
def sdmBit (k : Fin 32) (b : Bool) (c : Chip) : Chip :=
  if !sdmEn c k then c
  else
    let c := sdmLossOver k true (updSdm k (fun x => { x with edgeAt := c.now }) c)
    let same := c.sdms[k].lastBit == some b
    let c := updSdm k (fun x => { x with lastBit := some b, run := if same then x.run + 1 else 1 }) c
    let c := if same then c else sdmLossOver k false c
    let n := 8 * c.fld (sdmR k 4) 8 8
    let c := if n ≠ 0 ∧ n ≤ c.sdms[k].run then sdmLoss k false c else c
    sdmFastBit k b (if sdmLost c k || c.sdms[k].sync then c else sdmMainBit k b c)

/-- What a cycle brings a demodulator, before the counters' events of the cycle: a bit at its clock edge, or the lost clock after 256 cycles; the threshold
outputs follow SDM_TH and LOSSACT as written (R164, R166). -/
def sdmCycle (k : Fin 32) (c : Chip) : Chip :=
  let lvl := sdmClk c k
  let was := c.sdms[k].clkPrev
  let c := updSdm k (fun x => { x with clkPrev := lvl }) c
  if !sdmEn c k then c
  else
    let c := if lvl != was && lvl != c.bit (sdmR k 0) 2 then sdmBit k (fnIn c 4 (2 * k.val) false) c
      else if c.sdms[k].edgeAt + 256 ≤ c.now then sdmLoss k true c else c
    let c := if sdmFen c k then sdmFastOut k c else c
    if c.sdms[k].sync then updSdm k (fun x => { x with sync := false }) c else c

/-- A sync pulse: the filter restarts, and the bits from the next cycle on are the first of its new phase (R162). -/
def sdmSyncNow (g : Fin 8) (c : Chip) : Chip :=
  (List.range 4).foldl (fun (c : Chip) i =>
    let k : Fin 32 := Fin.ofNat 32 (4 * g.val + i)
    if sdmEn c k && c.bit (sdmR k 0) 16 then updSdm k (fun x => { x with sync := true }) (sdmRestart k c) else c) c

/-! ### Registers -/

/-- A write of SDM_CFG (R162, R171). EN written 0 makes both threshold outputs inactive and the fast path unsettled at once, ends both
conditions of R166 and keeps the queue (DESIGN CHOICE, log 128: the manual does not say). -/
def sdmCfgWrite (k : Fin 32) (v : Word) (c : Chip) : Chip :=
  if c.sealed then c
  else
    let was := sdmEn c k
    let c := c.setReg (sdmR k 0) (v &&& 0xFFFFFFF)
    if v.bit 0 && !was then
      let c := updSdm k (fun x => { x with edgeAt := c.now, lastBit := none, run := 0, lossClk := false,
                                           lossStuck := false, fbits := [] }) c
      sdmFastRestart k (sdmRestart k c)
    else if was && !v.bit 0 then
      sdmFastRestart k (updSdm k (fun x => { x with lossClk := false, lossStuck := false }) c)
    else c

/-- A write of SDM_FAST (R164, R171). -/
def sdmFastWrite (k : Fin 32) (v : Word) (c : Chip) : Chip :=
  if c.sealed then c else c.setReg (sdmR k 4) (v &&& 0xFF7F)

/-- A write of SDM_CLKDIV[g]: a DIV outside its range is stored as the nearer limit (R161). -/
def sdmDivWrite (g : Nat) (v : Word) (c : Chip) : Chip :=
  if c.sealed then c else c.setReg (sdmClkdivR g) ((v &&& 0x17F).withFld 0 7 (min (max (v.fld 0 7) 20) 100))

/-- A read of SDM_QPOPL (R163, R158). -/
def sdmQpop (k : Fin 32) (ini : Initiator) (c : Chip) : Word × Chip :=
  match c.sdms[k].q with
  | r :: rest => (recLow r, updSdm k (fun x => { x with q := rest, hold := aset 0 x.hold (iniIx ini) (recHigh r) }) c)
  | [] => (recLow emptyRec, updSdm k (fun x => { x with hold := aset 0 x.hold (iniIx ini) 0 }) c)
def sdmHold (c : Chip) (k : Fin 32) (ini : Initiator) : Word := aread 0 c.sdms[k].hold (iniIx ini)

end Sys2Proof.Machine
end

