-- ==== Sys2Proof/Machine/Crypto.lean ====
section
/-! DEFINITION. The algorithms that the security chapter names (18): SHA-384, HKDF, AES-256-GCM, ECDSA and ECDH over
P-384 with public-key recovery. The manual refers to the standards; their content is PRESUMED from them (log 44). -/

namespace Sys2Proof.Machine

/-- Bytes of a number, most significant first, and the number of such bytes. -/
def beBytes (n x : Nat) : List Byte := (leBytes n x).reverse
def beNat (bs : List Byte) : Nat := leNat bs.reverse

/-! ### SHA-384 (FIPS 180-4) -/

/-- The primes below 410: 80 of them. -/
def shaPrimes : List Nat :=
  (List.range 410).filter (fun n => decide (2 ≤ n) && (List.range 21).all (fun d => d < 2 || decide (n ≤ d) || n % d != 0))

/-- The integer cube root, by bits from `2 ^ k` down. -/
def icbrt (x : Nat) : Nat → Nat → Nat
  | 0, r => r
  | k + 1, r => let t := r + 2 ^ k; icbrt x k (if t * t * t ≤ x then t else r)

def shaK : List (BitVec 64) := (shaPrimes.take 80).map (fun p => BitVec.ofNat 64 (icbrt (p * 2 ^ 192) 70 0))
def shaInit : List (BitVec 64) := ((shaPrimes.drop 8).take 8).map (fun p => BitVec.ofNat 64 (Nat.sqrt (p * 2 ^ 128)))

def rotr64 (x : BitVec 64) (n : Nat) : BitVec 64 := x.rotateRight n

/-- The message schedule, newest word first. -/
def shaSchedule (block : List (BitVec 64)) : List (BitVec 64) :=
  ((List.range 64).foldl (fun (ws : List (BitVec 64)) _ =>
    let w (i : Nat) : BitVec 64 := ws[i]?.getD 0
    let s0 := rotr64 (w 14) 1 ^^^ rotr64 (w 14) 8 ^^^ (w 14 >>> 7)
    let s1 := rotr64 (w 1) 19 ^^^ rotr64 (w 1) 61 ^^^ (w 1 >>> 6)
    (s1 + w 6 + s0 + w 15) :: ws) block.reverse).reverse

/-- One round on the eight working words. -/
def shaRound (v : List (BitVec 64)) (kw : BitVec 64 × BitVec 64) : List (BitVec 64) :=
  match v with
  | [a, b, c, d, e, f, g, h] =>
    let t1 := h + (rotr64 e 14 ^^^ rotr64 e 18 ^^^ rotr64 e 41) + ((e &&& f) ^^^ (~~~ e &&& g)) + kw.1 + kw.2
    let t2 := (rotr64 a 28 ^^^ rotr64 a 34 ^^^ rotr64 a 39) + ((a &&& b) ^^^ (a &&& c) ^^^ (b &&& c))
    [t1 + t2, a, b, c, d + t1, e, f, g]
  | _ => v

/-- The blocks of 128 bytes, as words. -/
def shaBlocks : Nat → List Byte → List (List (BitVec 64))
  | 0, _ => []
  | n + 1, bs =>
    (List.range 16).map (fun i => BitVec.ofNat 64 (beNat ((bs.drop (8 * i)).take 8))) :: shaBlocks n (bs.drop 128)

def sha384 (m : List Byte) : List Byte :=
  let z := (239 - m.length % 128) % 128
  let p := m ++ [0x80] ++ List.replicate z 0 ++ beBytes 16 (8 * m.length)
  let out := (shaBlocks (p.length / 128) p).foldl (fun hs b =>
    List.zipWith (· + ·) hs ((List.zip shaK (shaSchedule b)).foldl shaRound hs)) shaInit
  (out.flatMap (fun w => beBytes 8 w.toNat)).take 48

/-! ### HMAC and HKDF (RFC 2104, RFC 5869) -/

def hmac384 (key m : List Byte) : List Byte :=
  let k := if key.length ≤ 128 then key else sha384 key
  let k := k ++ List.replicate (128 - k.length) 0
  sha384 (k.map (· ^^^ 0x5C) ++ sha384 (k.map (· ^^^ 0x36) ++ m))

/-- `n` output blocks of the expansion. -/
def hkdfExpand (prk info : List Byte) : Nat → Nat → List Byte → List Byte
  | 0, _, _ => []
  | n + 1, i, t => let t := hmac384 prk (t ++ info ++ [BitVec.ofNat 8 i]); t ++ hkdfExpand prk info n (i + 1) t

def hkdf384 (ikm salt info : List Byte) (len : Nat) : List Byte :=
  (hkdfExpand (hmac384 salt ikm) info ((len + 47) / 48) 1 []).take len

/-! ### AES-256 (FIPS 197) -/

/-- Multiplication in GF(2⁸) modulo x⁸ + x⁴ + x³ + x + 1. -/
def gfMul (a b : Byte) : Byte :=
  ((List.range 8).foldl (fun (s : Byte × Byte) i =>
    (if b.getLsbD i then s.1 ^^^ s.2 else s.1, if s.2.getLsbD 7 then (s.2 <<< 1) ^^^ 0x1B else s.2 <<< 1)) (0, a)).1

/-- The inverse, by the power 254. -/
def gfInv (a : Byte) : Byte :=
  let sq (x : Byte) : Byte := gfMul x x
  ((List.range 6).foldl (fun (s : Byte × Byte) _ => let p := sq s.2; (gfMul s.1 p, p)) (sq a, sq a)).1

def aesSub (a : Byte) : Byte :=
  let x := gfInv a
  x ^^^ x.rotateLeft 1 ^^^ x.rotateLeft 2 ^^^ x.rotateLeft 3 ^^^ x.rotateLeft 4 ^^^ 0x63

/-- The substitution as a table. -/
def aesTable : List Byte := (List.range 256).map (fun i => aesSub (BitVec.ofNat 8 i))
def aesSbox (t : List Byte) (a : Byte) : Byte := t[a.toNat]?.getD 0

/-- The key schedule: 60 words of four bytes, in order. -/
def aesKeys (t : List Byte) (key : List Byte) : List (List Byte) :=
  let w0 := (List.range 8).map (fun i => (key.drop (4 * i)).take 4)
  let out := (List.range 52).foldl (fun (s : List (List Byte) × Byte) j =>
    let i := j + 8
    let prev := s.1.headD []
    let far := s.1[7]?.getD []
    let rot := prev.drop 1 ++ prev.take 1
    let tmp := if i % 8 = 0 then (match rot.map (aesSbox t) with
        | b :: bs => (b ^^^ s.2) :: bs
        | [] => [])
      else if i % 8 = 4 then prev.map (aesSbox t) else prev
    (List.zipWith (· ^^^ ·) far tmp :: s.1, if i % 8 = 0 then gfMul s.2 2 else s.2)) (w0.reverse, (1 : Byte))
  out.1.reverse

def mixColumn (c : List Byte) : List Byte :=
  match c with
  | [a, b, d, e] =>
    [gfMul a 2 ^^^ gfMul b 3 ^^^ d ^^^ e, a ^^^ gfMul b 2 ^^^ gfMul d 3 ^^^ e, a ^^^ b ^^^ gfMul d 2 ^^^ gfMul e 3,
     gfMul a 3 ^^^ b ^^^ d ^^^ gfMul e 2]
  | _ => c

def addKey (ks : List (List Byte)) (r : Nat) (s : List Byte) : List Byte :=
  List.zipWith (· ^^^ ·) s ((ks.drop (4 * r)).take 4).flatten

/-- One block under an expanded key. -/
def aesBlock (t : List Byte) (ks : List (List Byte)) (block : List Byte) : List Byte :=
  let shift (s : List Byte) : List Byte := (List.range 16).map (fun i => s[(i + 4 * (i % 4)) % 16]?.getD 0)
  let sub (s : List Byte) : List Byte := shift (s.map (aesSbox t))
  let mix (s : List Byte) : List Byte := (List.range 4).flatMap (fun i => mixColumn ((s.drop (4 * i)).take 4))
  let s := (List.range 13).foldl (fun s r => addKey ks (r + 1) (mix (sub s))) (addKey ks 0 block)
  addKey ks 14 (sub s)

/-! ### GCM (NIST SP 800-38D), nonces of 12 bytes and tags of 16 -/

/-- Multiplication in GF(2¹²⁸), the first bit most significant. -/
def ghashMul (x y : BitVec 128) : BitVec 128 :=
  ((List.range 128).foldl (fun (s : BitVec 128 × BitVec 128) i =>
    (if x.getMsbD i then s.1 ^^^ s.2 else s.1,
     if s.2.getLsbD 0 then (s.2 >>> 1) ^^^ (0xE1#128 <<< 120) else s.2 >>> 1)) (0, y)).1

def pad16 (bs : List Byte) : List Byte := bs ++ List.replicate ((16 - bs.length % 16) % 16) 0

/-- The hash over whole blocks. -/
def ghash (h : BitVec 128) : Nat → BitVec 128 → List Byte → BitVec 128
  | 0, y, _ => y
  | n + 1, y, bs => ghash h n (ghashMul (y ^^^ BitVec.ofNat 128 (beNat (bs.take 16))) h) (bs.drop 16)

/-- The key stream applied from counter `i` on. -/
def gcmStream (t : List Byte) (ks : List (List Byte)) (iv : List Byte) : Nat → Nat → List Byte → List Byte
  | 0, _, _ => []
  | n + 1, i, bs =>
    List.zipWith (· ^^^ ·) (bs.take 16) (aesBlock t ks (iv ++ beBytes 4 i)) ++ gcmStream t ks iv n (i + 1) (bs.drop 16)

/-- The tag of a ciphertext with its associated data. -/
def gcmTag (key iv aad ct : List Byte) : List Byte :=
  let t := aesTable
  let ks := aesKeys t key
  let h := BitVec.ofNat 128 (beNat (aesBlock t ks (List.replicate 16 0)))
  let data := pad16 aad ++ pad16 ct ++ beBytes 8 (8 * aad.length) ++ beBytes 8 (8 * ct.length)
  let y := ghash h (data.length / 16) 0 data
  List.zipWith (· ^^^ ·) (beBytes 16 y.toNat) (aesBlock t ks (iv ++ [0, 0, 0, 1]))

/-- Encryption and decryption are one stream. -/
def gcmCrypt (key iv text : List Byte) : List Byte :=
  let t := aesTable
  gcmStream t (aesKeys t key) iv ((text.length + 15) / 16) 2 text

/-! ### P-384 (FIPS 186-5, SEC 1) -/

def ecP : Nat := 2 ^ 384 - 2 ^ 128 - 2 ^ 96 + 2 ^ 32 - 1
def ecN : Nat := 0xFFFFFFFFFFFFFFFFFFFFFFFFFFFFFFFFFFFFFFFFFFFFFFFFC7634D81F4372DDF581A0DB248B0A77AECEC196ACCC52973
def ecB : Nat := 0xB3312FA7E23EE7E4988E056BE3F82D19181D9C6EFE8141120314088F5013875AC656398D8A2ED19D2A85C8EDD3EC2AEF
def ecGx : Nat := 0xAA87CA22BE8B05378EB1C71EF320AD746E1D3B628BA79B9859F741E082542A385502F25DBF55296C3A545E3872760AB7
def ecGy : Nat := 0x3617DE4A96262C6F5D9E98BF9292DC29F8F41DBD289A147CE9DA3113B5F0B8C00A60B1CE1D7E819D7A431D7C90EA0E5F

/-- A power modulo `m`, over `k` bits of the exponent. -/
def powMod (b e m : Nat) : Nat → Nat
  | 0 => 1
  | k + 1 => let r := powMod b (e / 2) m k; let r := r * r % m; if e % 2 = 1 then r * b % m else r

def invMod (x m : Nat) : Nat := powMod x (m - 2) m 384

/-- A point of the curve; none is the point at infinity. -/
abbrev EcPoint := Option (Nat × Nat)

def ecG : EcPoint := some (ecGx, ecGy)

def subMod (a b m : Nat) : Nat := (a + m - b % m) % m

def ecSlope (num den : Nat) (x1 y1 x2 : Nat) : EcPoint :=
  let l := num * invMod den ecP % ecP
  let x3 := subMod (subMod (l * l % ecP) x1 ecP) x2 ecP
  some (x3, subMod (l * subMod x1 x3 ecP % ecP) y1 ecP)

def ecAdd (p q : EcPoint) : EcPoint :=
  match p, q with
  | none, _ => q
  | _, none => p
  | some (x1, y1), some (x2, y2) =>
    if x1 = x2 then
      if (y1 + y2) % ecP = 0 then none
      else ecSlope ((3 * x1 * x1 + ecP - 3) % ecP) (2 * y1 % ecP) x1 y1 x1
    else ecSlope (subMod y2 y1 ecP) (subMod x2 x1 ecP) x1 y1 x2

def ecNeg (p : EcPoint) : EcPoint := p.map (fun e => (e.1, (ecP - e.2) % ecP))

/-- A multiple of a point, over `k` bits of the scalar. -/
def ecMul (p : EcPoint) : Nat → Nat → EcPoint
  | 0, _ => none
  | k + 1, e => let h := ecMul p k (e / 2); let d := ecAdd h h; if e % 2 = 1 then ecAdd d p else d

def ecScale (e : Nat) (p : EcPoint) : EcPoint := ecMul p 384 e

/-- The curve's equation. -/
def onCurve (x y : Nat) : Bool :=
  decide (x < ecP) && decide (y < ecP) && (y * y) % ecP == (x * x * x + (ecP - 3) * x + ecB) % ecP

/-- X‖Y of a point, and a point read from it: none where it is not valid. -/
def ecEncode : EcPoint → List Byte
  | some (x, y) => beBytes 48 x ++ beBytes 48 y
  | none => List.replicate 96 0

def ecDecode (bs : List Byte) : EcPoint :=
  let x := beNat (bs.take 48)
  let y := beNat ((bs.drop 48).take 48)
  if onCurve x y then some (x, y) else none

/-- ECDSA verification of r‖s over a hash by a key. -/
def ecdsaVerify (q : EcPoint) (hash sig : List Byte) : Bool :=
  let r := beNat (sig.take 48)
  let s := beNat ((sig.drop 48).take 48)
  if r = 0 ∨ s = 0 ∨ ecN ≤ r ∨ ecN ≤ s ∨ q = none then false
  else
    let w := invMod s ecN
    match ecAdd (ecScale (beNat hash * w % ecN) ecG) (ecScale (r * w % ecN) q) with
    | some (x, _) => x % ecN == r
    | none => false

/-- The candidate keys of a signature (SEC 1, 4.1.6), in the standard's order. -/
def ecdsaRecover (hash sig : List Byte) : List (Nat × Nat) :=
  let r := beNat (sig.take 48)
  let s := beNat ((sig.drop 48).take 48)
  if r = 0 ∨ s = 0 ∨ ecN ≤ r ∨ ecN ≤ s then []
  else
    ([0, 1].flatMap (fun j =>
      let x := r + j * ecN
      let y := powMod ((x * x * x + (ecP - 3) * x + ecB) % ecP) ((ecP + 1) / 4) ecP 384
      if onCurve x y then
        let y0 := if y % 2 = 0 then y else (ecP - y) % ecP
        [y0, (ecP - y0) % ecP].filterMap (fun y =>
          let ri := invMod r ecN
          let q := ecScale ri (ecAdd (ecScale s (some (x, y))) (ecNeg (ecScale (beNat hash % ecN) ecG)))
          if ecdsaVerify q hash sig then q else none)
      else []))

/-- An ECDSA signature with private scalar `d` and per-message scalar `k`. -/
def ecdsaSign (d k : Nat) (hash : List Byte) : List Byte :=
  match ecScale k ecG with
  | some (x, _) =>
    let r := x % ecN
    beBytes 48 r ++ beBytes 48 (invMod k ecN * (beNat hash + r * d) % ecN)
  | none => List.replicate 96 0

/-- A private scalar from random or derived bytes (18 R422). -/
def ecScalar (c : Nat) : Nat := c % (ecN - 1) + 1

end Sys2Proof.Machine
end

