-- ==== Sys2Proof/Machine/SecCore.lean ====
section
/-! DEFINITION. The security subsystem (18): anchors and their programming, revocation, identity and session keys, the
random words, the debug token, halts and the test access port. -/

namespace Sys2Proof.Machine

def secR (off : Nat) : Nat := 0x50000000 + off

/-- The security fault source (21 R477: 148) with SEC_STAT. -/
def secFault (c : Chip) : Chip := raiseFault 148 (c.reg (secR 0)) c

def fprogf (c : Chip) : Chip := c.setBits (secR 0) (2 ^ 10)

/-! ### Fuses (R420, R423 to R425) -/

def fuseCount (f : Fuses) : Nat := (List.range 64).foldl (fun n i => n + (f.rollback.getLsbD i).toNat) 0

/-- DEVID as the eight bytes that salts, messages and results carry: least significant first (DEDUCED from R389, log 47). -/
def devidBytes (f : Fuses) : List Byte := leBytes 8 f.devid.toNat

def anchorBlank (f : Fuses) (k : Fin 2) : Bool := f.anchor[k] == 0
def anchorRevoked (f : Fuses) (k : Fin 2) : Bool := f.revoke.getLsbD k.val

/-- A slot that signatures may name (R423). -/
def anchorOk (f : Fuses) (k : Fin 2) : Bool := !anchorBlank f k && !anchorRevoked f k

/-- A key hashes to an anchor. -/
def anchorIs (f : Fuses) (k : Fin 2) (key : List Byte) : Bool := (f.anchor[k]).toNat == beNat (sha384 key)

/-- The twelve words staged for slot 1, as 48 bytes. -/
def anchorStage (c : Chip) : List Byte := (List.range 12).flatMap (fun k => leBytes 4 (c.reg (secR (0x40 + 4 * k))).toNat)

/-- What GO programs into a slot: none where the write is refused (R423). SLOT 0 takes the factory session's key. -/
def anchorNew (c : Chip) (k : Fin 2) : Option (List Byte) :=
  if bootMode c ≠ 3 ∨ !anchorBlank c.fuses k ∨ c.sec.fprog.isSome then none
  else if k = 1 then some (anchorStage c)
  else (c.cmd.session.bind (·.factory)).map sha384

/-- A write of SEC_FPCMD (R423); SEAL locks it (R431). -/
def fpcmdWrite (v : Word) (c : Chip) : Chip :=
  if c.sealed then c
  else
    let k : Fin 2 := if v.bit 0 then 1 else 0
    let c := c.putBit (secR 0x70) 0 (v.bit 0)
    if !v.bit 8 then c
    else match anchorNew c k with
      | none => fprogf c
      | some bs => { c.setBits (secR 0x70) (2 ^ 9) with
          sec := { c.sec with fprog := some (BitVec.ofNat 1 k.val, BitVec.ofNat 384 (beNat bs)) } }

/-- The programming of a slot ends: its bits are set. Its time, at most 400 µs, is open: it ends at the next tick (log 1). -/
def fuseProgEnd (c : Chip) : Chip :=
  match c.sec.fprog with
  | none => c
  | some (k, x) =>
    let k : Fin 2 := if k = 0 then 0 else 1
    let f := { c.fuses with anchor := c.fuses.anchor.set k.val (c.fuses.anchor[k] ||| x) }
    { c.clrBits (secR 0x70) (2 ^ 9) with fuses := f, sec := { c.sec with fprog := none } }

/-- Whether a request to revoke slot `k` is kept (R424). -/
def revokeOk (c : Chip) (k : Fin 2) : Bool :=
  let o : Fin 2 := if k = 0 then 1 else 0
  !anchorRevoked c.fuses o && (match c.cmd.applied with
    | some (slot, _) => decide (slot = o.val)
    | none => false)

/-- A write of SEC_REVOKE (R424); SEAL locks it (R431). -/
def revokeWrite (v : Word) (c : Chip) : Chip :=
  if c.sealed then c
  else (List.finRange 2).foldl (fun (c : Chip) (k : Fin 2) =>
    if !v.bit k.val then c
    else if revokeOk c k then c.setBits (secR 0x14) (2 ^ k.val) else fprogf c) c

/-- Requests are checked again against the container applied last (R436). -/
def revokeRecheck (c : Chip) : Chip :=
  (List.finRange 2).foldl (fun (c : Chip) (k : Fin 2) =>
    if c.bit (secR 0x14) k.val && !revokeOk c k then fprogf (c.clrBits (secR 0x14) (2 ^ k.val)) else c) c

/-- One fuse bit is programmed: whether it takes is free, another value for each (bit 0 of the word set: it failed; R425). A
programming that has failed goes no further. -/
def fuseBit (set : Fuses → Fuses) (r : Bool × Chip) : Bool × Chip :=
  if !r.1 then r
  else
    let w := r.2.free
    if w.1.bit 0 then (false, fprogf w.2) else (true, { w.2 with fuses := set w.2.fuses })

/-- What SEAL programs, bit by bit: the rollback count of the applied container in ascending order, then the kept revocations
(R424, R425; their order DESIGN CHOICE, log 113); false where a bit fails. -/
def sealFuses (c : Chip) : Bool × Chip :=
  let want := match c.cmd.applied with
    | some (_, r) => r
    | none => 0
  let roll := (List.range 64).filter (fun i => decide (fuseCount c.fuses ≤ i) && decide (i < want))
  let r := roll.foldl (fun r i => fuseBit (fun f => { f with rollback := f.rollback ||| BitVec.ofNat 64 (2 ^ i) }) r) (true, c)
  ((List.range 2).filter (c.bit (secR 0x14))).foldl (fun r k =>
    fuseBit (fun f => { f with revoke := f.revoke ||| BitVec.ofNat 2 (2 ^ k) }) r) r

/-! ### Random words (R429, R430) -/

def rngOk (c : Chip) : Bool := c.bit (secR 0) 1

/-- One word of the DRBG; 0 once it has stopped. Its words are free values (log 5). -/
def rngDraw (c : Chip) : Word × Chip :=
  if rngOk c then (Config.rngWord c.sec.draws, { c with sec := { c.sec with draws := c.sec.draws + 1 } }) else (0, c)

/-- A scalar of the P-384 group from fourteen words of the DRBG. -/
def rngScalar (c : Chip) : Nat × Chip :=
  let r := (List.range 14).foldl (fun (r : Nat × Chip) _ =>
    let w := rngDraw r.2
    (2 ^ 32 * r.1 + w.1.toNat, w.2)) (0, c)
  (ecScalar r.1, r.2)

def rngFail (c : Chip) : Chip := secFault ((c.clrBits (secR 0) 2).setBits (secR 0) (2 ^ 9))

/-! ### Identity and sessions (R421, R422, R427, R428) -/

def asciiBytes (s : String) : List Byte := s.toList.map (fun x => BitVec.ofNat 8 x.toNat)

/-- The identity's private scalar. -/
def idScalar (f : Fuses) : Nat :=
  ecScalar (beNat (hkdf384 (beBytes 32 (Config.pufSecret f.helper).toNat) (devidBytes f) (asciiBytes "IDK1") 56))

/-- The identity public key; zeros where the device secret was not reconstructed. -/
def idPublic (c : Chip) : List Byte :=
  if c.bit (secR 0) 0 then ecEncode (ecScale (idScalar c.fuses) ecG) else List.replicate 96 0

/-- The host key under which a signature verifies by slot `k` (R423). -/
def keyUnder (f : Fuses) (k : Fin 2) (hash sig : List Byte) : Option (List Byte) :=
  if anchorOk f k then
    (((ecdsaRecover hash sig).map (fun q => ecEncode (some q))).find? (fun key => anchorIs f k key))
  else none

/-- The host key of a signature, and whether it opens a factory session (R423). -/
def hostKey (c : Chip) (hash sig : List Byte) : Option (List Byte × Bool) :=
  match keyUnder c.fuses 0 hash sig, keyUnder c.fuses 1 hash sig with
  | some key, _ => some (key, false)
  | none, some key => some (key, false)
  | none, none =>
    if bootMode c = 3 ∧ anchorBlank c.fuses 0 then
      match ecdsaRecover hash sig with
      | q :: _ => some (ecEncode (some q), true)
      | [] => none
    else none

/-- The keys of a session from both ephemeral keys (R428). -/
def sessionKeys (f : Fuses) (z : Nat) (qh qd : List Byte) (factory : Option (List Byte)) : Session :=
  let k := hkdf384 (beBytes 48 z) (devidBytes f) (asciiBytes "KEY1" ++ qh ++ qd) 96
  { kc := k.take 32, kr := (k.drop 32).take 32, ki := (k.drop 64).take 32, seq := 0, rseq := 0, factory := factory }

/-- SESSION_OPEN (R427): its final status and results; on success the new keys are pending. Without a device secret or a
DRBG it is INTERNAL before any other check (R421, R430; DEDUCED, log 48). -/
def sessionOpenRun (qh sig : List Byte) (c : Chip) : (Nat × List Byte) × Chip :=
  let f := c.fuses
  if !(c.bit (secR 0) 0) || !rngOk c then ((0x30, []), c)
  else match ecDecode qh with
    | none => ((0x12, []), c)
    | some q =>
      match hostKey c (sha384 (asciiBytes "HSO1" ++ devidBytes f ++ qh)) sig with
      | none => ((0x14, []), c)
      | some (key, fac) =>
        let d := rngScalar c
        let k := rngScalar d.2
        let qd := ecEncode (ecScale d.1 ecG)
        let sg := ecdsaSign (idScalar f) k.1 (sha384 (asciiBytes "DSO1" ++ devidBytes f ++ qh ++ qd))
        let z := match ecScale d.1 (some q) with
          | some (x, _) => x
          | none => 0
        let s := sessionKeys f z qh qd (if fac then some key else none)
        ((0, qd ++ sg), { k.2 with cmd := { k.2.cmd with pend := some s } })

/-! ### The debug token (R433, R434) -/

/-- The detail code of a token, 0 where every check passes. -/
def tokenCode (f : Fuses) (t : List Byte) : Nat :=
  let fld (i n : Nat) : Nat := leNat ((t.drop i).take n)
  if t.length ≠ 120 ∨ fld 0 4 ≠ 0x31474244 ∨ fld 4 2 ≠ 1 ∨ 4 ≤ fld 6 2 ∨ fld 18 6 ≠ 0 then 1
  else if 2 ≤ fld 16 1 then 2
  else
    let k : Fin 2 := if fld 16 1 = 0 then 0 else 1
    if !anchorOk f k then 2
    else if (keyUnder f k (sha384 (t.take 24)) (t.drop 24)).isNone then 3
    else if fld 17 1 < fuseCount f then 5
    else if fld 8 8 ≠ f.devid.toNat then 6
    else 0

/-- An accepted token unlocks its scope until device reset, beside what an earlier one unlocked. -/
def debugGrant (t : List Byte) (c : Chip) : Chip :=
  c.setBits (secR 0x1C) (1 + 2 * (leNat ((t.drop 6).take 2) % 4))

def dbgRun (c : Chip) : Bool := c.bit (secR 0x1C) 1
def dbgMem (c : Chip) : Bool := c.bit (secR 0x1C) 2

/-! ### Halts (05 R136, R138, R139) -/

def safecfgR (s : Nat) : Nat := slR s 0x8040

/-- The cores that PWM_SAFECFG.OWNER selects (05 R143). -/
def slowners (c : Chip) (s : Nat) : List CoreId :=
  (if h : s < 12 then
    (if c.bit (safecfgR s) 0 then [CoreId.le ⟨2 * s, by omega⟩] else []) ++
    (if c.bit (safecfgR s) 1 then [CoreId.le ⟨2 * s + 1, by omega⟩] else [])
   else []) ++
  (if c.bit (safecfgR s) 2 then [CoreId.triton] else []) ++
  ((List.finRange 4).filter (fun (i : Fin 4) => c.bit (safecfgR s) (3 + i.val))).map CoreId.app

/-- Cause HALT of every slice: it begins while an owner is halted and HALTOVR is 0, and ends when no owner is halted. -/
def haltScan (c : Chip) : Chip :=
  (List.range 12).foldl (fun (c : Chip) s =>
    let held := (slowners c s).any (fun k => (coreGet c k).halted)
    if held && !c.bit (safecfgR s) 7 then setCause causeHalt s c
    else if !held then clrCause causeHalt s c else c) c

/-- The debug module halts a core, or lets it go on; it answers while RUNCTRL is unlocked (R432, R434). The halt request of a lane of
Triton is an output of class 5 (14 R326). -/
def haltSet (k : CoreId) (b : Bool) (c : Chip) : Chip :=
  if dbgRun c then haltScan (eachLane k (fun c => triOut k 5 [32, b.toNat] (updCore k (fun s => { s with halted := b }) c)) c) else c

/-! ### The test access port (R432) -/

/-- An instruction of the TAP, and the bits its data register captures. -/
def tapSet (t : TapInstr) (cap : List Bool) (c : Chip) : Chip := { c with sec := { c.sec with tap := t, shift := cap } }

def wordBits (w : Word) : List Bool := (List.range 32).map w.bit

/-- An instruction under which the boundary register governs the pads: TAPF and the security fault (R432). -/
def tapDrive (t : TapInstr) (c : Chip) : Chip :=
  secFault ((tapSet t [false] c).setBits (secR 0) (2 ^ 11))

/-- The levels at the pads that SAMPLE captures: the level outside, or where the pad drives, its own. -/
def padSample (c : Chip) : List Bool :=
  (List.range 1024).map (fun n => match padLevel c n with
    | .hi => true
    | .lo => false
    | .z => (pinGet c n).level)

end Sys2Proof.Machine
end

