-- ==== Sys2Proof/Machine/TriCore.lean ====
section
/-! DEFINITION. Synchroniser votes and the reintegration of a lane of Triton (14 R331 to R339). -/

namespace Sys2Proof.Machine

/-- TRI_CFG.SYNCLIM; 0 acts as 1 (R333). -/
def syncLim (c : Chip) : Nat := max (c.fld (triR 0) 0 8) 1

/-! ### The input vote (R331, R333) -/

/-- The level of an input in a lane's synchroniser copy. -/
def syncCopy (c : Chip) (input : Nat) (level : Bool) (lane : Fin 3) : Bool := level != c.vote.flips.contains (lane, input)

/-- The majority of the three copies; that of an isolated lane votes too. -/
def syncVote (c : Chip) (input : Nat) (level : Bool) : Bool :=
  2 ≤ ((List.finRange 3).filter (syncCopy c input level)).length

/-- The majority of the copies of the interrupt lines. -/
def voteLines (c : Chip) (x : BitVec 320) : BitVec 320 :=
  if c.vote.flips.isEmpty then x
  else (List.range 288).foldl (fun (y : BitVec 320) i => if syncVote c i (x.getLsbD i) then y ||| BitVec.ofNat 320 (2 ^ i) else y) 0

/-- The votes that a lane's copy of an input has lost in a row up to the present cycle. -/
def lostRun (c : Chip) (lane : Fin 3) (input : Nat) : Nat :=
  match c.vote.runs.find? (fun r => r.1 == (lane, input)) with
  | some (_, n, t) => if c.now ≤ t + 1 then n else 0
  | none => 0

/-- A lane's copy of an input loses the vote `lost` more times in a row (R333): each is counted; at SYNCLIM in a row the lane is to be
isolated. -/
def syncLost (lane : Fin 3) (input lost : Nat) (c : Chip) : Chip :=
  let n := lostRun c lane input + lost
  let c := { c with vote := { c.vote with
    runs := c.vote.runs.filter (fun (r : (Fin 3 × Nat) × Nat × Nat) => r.1 != (lane, input)) ++ [((lane, input), n, c.now)]
    flips := if c.vote.flips.contains (lane, input) then c.vote.flips else c.vote.flips ++ [(lane, input)] } }
  let c := c.satAdd (triR 0x18) (10 * lane.val) 10 lost
  if syncLim c ≤ n then triIsolate lane 3 0 c else c

/-- The end of a cycle for the synchronisers: runs of lost votes that it did not go on with are over. -/
def syncEnd (c : Chip) : Chip :=
  { c with vote := { c.vote with flips := [], runs := c.vote.runs.filter (fun r => decide (c.now ≤ r.2.2)) } }

/-- GPIO input levels as Triton reads them: bit by bit the majority of the three pad copies (R331). -/
def voteWord (c : Chip) (base : Nat) (w : Word) : Word :=
  if c.vote.flips.isEmpty then w
  else (List.range 32).foldl (fun (y : Word) i => y.withBit i (syncVote c (320 + base + i) (w.getLsbD i))) w

/-! ### Reintegration (R334 to R337) -/

/-- The cycle in which the pause ends: 256 and 12 cycles of CLK_L after the drain, or 12 after a failure (R336, R337). -/
def pauseDue (p : TriPause) : Option Nat := p.drained.map (fun t => t + (if p.fail.isSome then 6 else 134))

/-- A reintegration fails (R337): the pair goes on in DMR. -/
def failNow (lane : Fin 3) (cause : Nat) (c : Chip) : Chip :=
  reintRes lane cause (((({ c with tri := none } : Chip).setFld (triR 4) 0 2 triDMR)).setBits (triR 4) (2 ^ 11))

/-- A cause of failure: once the pause has begun the pair resumes at the end of 12 switch cycles (R337). -/
def reintFail (cause : Nat) (c : Chip) : Chip :=
  match c.tri with
  | none => c
  | some r => match r.pause with
    | none => failNow r.lane cause c
    | some p =>
      if p.fail.isSome then c
      else { c with tri := some { r with pause := some { p with fail := some cause, drained := some c.now } } }

/-- TRI_CTL.REINT (R334). -/
def reintStart (lane : Nat) (c : Chip) : Chip :=
  if h : lane < 3 then
    if triMode c = triDMR ∧ !triIn c lane ∧ c.tri = none then
      { c.setFld (triR 4) 0 2 triREINT with tri := some { lane := ⟨lane, h⟩, start := c.now, copied := false, line := 0, queue := [], pause := none } }
    else c.setBits (triR 4) (2 ^ 12)
  else c.setBits (triR 4) (2 ^ 12)

/-- TRI_CTL.ABORT (R337); in the cycle in which the pause ends it comes too late (R338). -/
def reintAbort (c : Chip) : Chip :=
  match c.tri.bind (·.pause) with
  | some p => if (pauseDue p).any (fun t => decide (t ≤ c.now)) then c else reintFail 4 c
  | none => reintFail 4 c

/-- Whether the MGE executes TRITON_REINTEGRATE (17 R416). -/
def reintegrates (c : Chip) : Bool := c.cmd.long.any (fun l => l.pkt.head? == some 0x50)

/-- A write of TRI_CTL: REINT from the MGE while it executes TRITON_REINTEGRATE (R334), then ABORT (R337). -/
def triCtlWrite (ini : Initiator) (v : Word) (c : Chip) : Chip :=
  let c := if v.bit 2 && decide (ini = .mge) && reintegrates c then reintStart (v.fld 0 2) c else c
  if v.bit 3 then reintAbort c else c

/-- Bytes of the returning lane's TCM are written. -/
def laneWrite (lane : Fin 3) (off n x : Nat) (c : Chip) : Chip :=
  let l := laneState c lane
  let l := { l with tcm := (List.range n).foldl (fun m i =>
    if off + i < 0x20000 then aset 0 m (2 ^ 32 + off + i) (BitVec.ofNat 8 (x / 256 ^ i)) else m) l.tcm }
  let bad := (laneBad c lane).filter (fun e => !(decide (off ≤ e.1) && decide (e.1 + 8 ≤ off + n)))
  putLaneBad lane bad { c with lanes := c.lanes.set lane (some l) }

/-- One cycle of CLK_L of the second port (R335): a mirror write, else a line from the donor; an uncorrectable line ends the
reintegration. -/
def mirrorCycle (c : Chip) : Chip :=
  match c.tri with
  | none => c
  | some r =>
    match r.queue with
    | (off, n, x) :: q => laneWrite r.lane off n x { c with tri := some { r with queue := q } }
    | [] =>
      if 8192 ≤ r.line then c
      else
        let donor := (lanesIn c).headD 0
        let e := eccRead (laneBase donor + 16 * r.line) 16 c
        if !e.1 then reintFail 3 e.2
        else
          let c := laneWrite r.lane (16 * r.line) 16 (memVal e.2 (2 ^ 32 + 16 * r.line) 16) e.2
          { c with tri := some { r with line := r.line + 1 } }

/-- The copy ends once every line has been copied (R335). -/
def reintCopied (c : Chip) : Chip :=
  match c.tri with
  | some r => if 8192 ≤ r.line then { c with tri := some { r with copied := true } } else c
  | none => c

/-- The returning lane takes the donor's architectural state; in no lane does the instruction cache hold a line (R336). -/
def laneTake (lane : Fin 3) (q : List (Nat × Nat × Nat)) (c : Chip) : Chip :=
  let c := q.foldl (fun (c : Chip) m => laneWrite lane m.1 m.2.1 m.2.2 c) { c with cores := c.cores.set 0 { c.cores[0] with icache := [] } }
  let c := { c with lanes := c.lanes.map (fun (x : Option LaneS) => x.map (fun (l : LaneS) => { l with core := { l.core with icache := [] } })) }
  { c with lanes := c.lanes.set lane (some { laneOf c with tcm := (laneState c lane).tcm }) }

/-- What arrived during the pause is delivered, in its order (R336). -/
def deliverHeld (held : List (Bool × Nat)) (c : Chip) : Chip :=
  held.foldl (fun (c : Chip) e => if e.1 then doorbellNow .triton e.2 c else activateNow .triton (Fin.ofNat 8 e.2) c) c

/-- The end of the pause (R336, R337): success, or the failure met in it; then the bank switch is completed and what waited is
delivered. TRI_PAUSE is the drain, which ends in an odd or an even cycle of CLK_L, 256 and 12. -/
def pauseOver (odd : Bool) (c : Chip) : Chip :=
  match c.tri with
  | none => c
  | some r => match r.pause with
    | none => c
    | some p =>
      let c := match p.fail with
        | some cause => failNow r.lane cause c
        | none =>
          let c := laneTake r.lane r.queue { c with tri := none }
          let d := 2 * (p.drained.getD c.now - p.start)
          let c := (c.setFld (triR 4) 0 2 triTMR)
          let c := refit ((c.setBits (triR 4) (2 ^ (4 + r.lane.val))).setBits (triR 4) (2 ^ 10))
          (c.setReg (triR 0x14) (BitVec.ofNat 32 (d - odd.toNat + 268))).satInc (triR (0x20 + 4 * r.lane.val)) 16 16
      deliverHeld p.held (eachLane .triton (selectBank .triton) c)

/-- Whether the present cycle is the last of a pause. -/
def pauseEnds (c : Chip) : Bool :=
  match c.tri.bind (·.pause) with
  | some p => (pauseDue p).any (fun t => decide (t ≤ c.now))
  | none => false

/-- The pause ends in its last cycle. -/
def reintDone (odd : Bool) (c : Chip) : Chip := if pauseEnds c then pauseOver odd c else c

/-- Whether nothing that Triton has requested is outstanding, and its store buffers are empty (R336). -/
def triDrained (c : Chip) : Bool :=
  (lanesIn c).all (fun i => let s := (laneState c i).core; s.long.isEmpty && s.stalls.isEmpty && s.stores.isEmpty) &&
  !c.peaBus.reqs.any (fun r => r.ini == iniIx .triton && !r.cmd)

/-- The drain of the pause exceeds 3,700 cycles of CLK_L (R337 DRAIN). -/
def reintDrain (c : Chip) : Chip :=
  match c.tri.bind (·.pause) with
  | some p => if p.drained.isNone && decide (3700 < 2 * (c.now - p.start)) then reintFail 1 c else c
  | none => c

/-- The pause in the end of a cycle (R336): the drain, then its end, in which the odd cycle of CLK_L is free (log 133). -/
def pauseCycle (c : Chip) : Chip :=
  let c := match c.tri with
    | some r => match r.pause with
      | some p =>
        if p.drained.isNone && triDrained c then { c with tri := some { r with pause := some { p with drained := some c.now } } } else c
      | none => c
    | none => c
  let c := reintDrain c
  let f := c.free
  if pauseEnds c then reintDone (f.1.bit 0) f.2 else c

/-- The limit of TRI_REINTMAX microseconds from the start, in cycles of CLK_C; 0 acts as 1 (R337, R339). -/
def reintLimit (c : Chip) : Nat := 500 * max (c.fld (triR 0xC) 0 16) 1

/-- Whether the limit has passed with no pause begun: cause TIME (R337). -/
def reintLate (c : Chip) : Bool :=
  match c.tri with
  | some r => decide (r.start + reintLimit c ≤ c.now) && r.pause.isNone
  | none => false

end Sys2Proof.Machine
end

