-- ==== Sys2Proof/Machine/Bus.lean ====
section
/-! DEFINITION. Accesses by address (00 R4 to R8; 01 R13, R24, R25): what a write or a read of each register does, the
windows of the control bridge and system SRAM, and the answer that an initiator gets. -/

namespace Sys2Proof.Machine

/-! ### Registers without a behaviour of their own (00 R6 to R8) -/

/-- Whether the seal leaves a register open: before SEAL, or for the MGE in the live reconfiguration of its slice (01
R13). -/
def unsealed (c : Chip) (ini : Initiator) (a : Nat) : Bool :=
  !c.sealed || (decide (ini = .mge) && (match sliceAt a with
    | some s => liveOn c s
    | none => false))

/-- A plain write: the writable bits take the value, written ones clear the W1C bits. -/
def plainWrite (ini : Initiator) (a : Nat) (v : Word) (c : Chip) : Chip :=
  match rowOf a with
  | none => c
  | some (r, _, _) =>
    let m : Word := BitVec.ofNat 32 (if unsealed c ini a then r.rw else r.live)
    let x := c.w1c a (BitVec.ofNat 32 r.w1c) v
    c.setReg a ((x &&& ~~~ m) ||| (v &&& m))

/-! ### Slices -/

/-- A write of PWM_SYNC (04 R111): setting WDEN and changing SRC restart the watchdog, clearing WDEN stops it. -/
def pwmSyncWrite (ini : Initiator) (n : Fin 96) (v : Word) (c : Chip) : Chip :=
  let a := pwmR n 0x44
  let old := c.reg a
  let c := plainWrite ini a v c
  let new := c.reg a
  if !new.bit 2 then updPwm n (fun p => { p with wd := none }) c
  else if !old.bit 2 || old.bit 1 != new.bit 1 then wdStart n c
  else c

/-- A write to PWM[n] at channel offset `o` (04 R117, 05 R143). -/
def pwmWrite (ini : Initiator) (n : Fin 96) (o a : Nat) (v : Word) (c : Chip) : Chip :=
  if 0xA0 ≤ o ∧ o < 0xC0 then sqdWrite n (iniIx ini) (Fin.ofNat 8 ((o - 0xA0) / 4)) v c
  else if 0x104 ≤ o ∧ o < 0x124 then shadowWr n (Fin.ofNat 8 ((o - 0x104) / 4)) v c
  else match o with
    | 0x00 => pwmCfgWrite ini n v c
    | 0x38 => ipsWrite n v c
    | 0x44 => pwmSyncWrite ini n v c
    | 0x80 => cmtcfgWrite ini n v c
    | 0x84 => cmtWrite n v c
    | 0x98 => tripClear n v c
    | 0x9C => safeWrite ini n v c
    | 0xC0 => sqPush n (iniIx ini) v c
    | _ => plainWrite ini a v c

/-- A read of PWM[n] at channel offset `o`. -/
def pwmRead (ini : Initiator) (n : Fin 96) (o a : Nat) (c : Chip) : Word × Chip :=
  if 0x104 ≤ o ∧ o < 0x124 then (shadowNow c n (Fin.ofNat 8 ((o - 0x104) / 4)), c)
  else match o with
    | 0x3C => ((c.reg a).withBit 15 (pwmDirDown c n), c)
    | 0x40 => (BitVec.ofNat 32 (pwmCnt c n), c)
    | 0x50 => c.readClear a
    | 0x88 => (cmtstat c n, c)
    | 0x90 => c.readClear a
    | 0xC4 => (aread 0 c.pwms[n].sqres (iniIx ini), c)
    | _ => (c.reg a, c)

/-- A write to the +0x8000 block of slice `s` (04 R118, 05 R144). -/
def tripBlockWrite (ini : Initiator) (s : Fin 12) (o a : Nat) (v : Word) (c : Chip) : Chip :=
  if 0x8400 ≤ o ∧ o < 0x8440 ∧ o % 4 = 0 then xbarWrite (Fin.ofNat 192 (16 * s.val + (o - 0x8400) / 4)) v c
  else if o < 0x8020 then tripRefresh s (plainWrite ini a v c)
  else if o = 0x8040 then haltScan (plainWrite ini a (if c.sealed then v.withBit 7 false else v) c)
  else plainWrite ini a v c

/-- A write to ADC[k] at core offset `o` (06 R172). -/
def adcWrite (ini : Initiator) (k : Fin 32) (o a : Nat) (v : Word) (c : Chip) : Chip :=
  if 0x100 ≤ o ∧ o < 0x180 then adcSeqWrite ini k ((o - 0x100) / 4) v c
  else match o with
    | 0x00 => adcCfgWrite ini k v c
    | 0x10 => adcSwWrite k v c
    | _ => plainWrite ini a v c

def adcRead (ini : Initiator) (k : Fin 32) (o a : Nat) (c : Chip) : Word × Chip :=
  if 0x80 ≤ o ∧ o < 0xA0 then adcRes k (Fin.ofNat 8 ((o - 0x80) / 4)) ini c
  else match o with
    | 0x04 => (adcStat c k, c)
    | 0x14 => (adcQstat c k, c)
    | 0x18 => adcQpop k ini c
    | 0x1C => (adcHold c k ini, c)
    | 0x20 => c.readClear a
    | _ => (c.reg a, c)

/-- A write to WIN[w] at offset `o` (07 R188). -/
def winWrite (ini : Initiator) (w : Fin 96) (o a : Nat) (v : Word) (c : Chip) : Chip :=
  match o with
  | 0x0 => winCfgWrite ini w v c
  | 0x4 => winThrWrite ini w 0 v c
  | 0x8 => winThrWrite ini w 1 v c
  | 0xC => winThrWrite ini w 2 v c
  | _ => plainWrite ini a v c

/-- A write to XL[s] at offset `o` (08 R212). -/
def xlWrite (ini : Initiator) (s : Fin 12) (o a : Nat) (v : Word) (c : Chip) : Chip :=
  if 0x80 ≤ o ∧ o < 0x100 then xlSlotWrite ini s ((o - 0x80) / 4) v c
  else if xlIntHeld c s o then c
  else match o with
    | 0x00 => xlCfgWrite ini s v c
    | 0x0C => xlCtlWrite s v c
    | _ => plainWrite ini a v c

/-- A write within slice `s` at slice offset `o` (01 R25). -/
def sliceWrite (ini : Initiator) (s : Fin 12) (o a : Nat) (v : Word) (c : Chip) : Chip :=
  if 0x1000 ≤ o ∧ o < 0x2000 then
    pwmWrite ini (Fin.ofNat 96 (8 * s.val + (o - 0x1000) / 0x200)) ((o - 0x1000) % 0x200) a v c
  else if 0x3000 ≤ o ∧ o < 0x3200 then
    winWrite ini (Fin.ofNat 96 (8 * s.val + (o - 0x3000) / 0x40)) (o % 0x40) a v c
  else if 0x4000 ≤ o ∧ o < 0x5000 then
    adcWrite ini (Fin.ofNat 32 (2 * s.val + (o - 0x4000) / 0x800)) (o % 0x800) a v c
  else if 0x5000 ≤ o ∧ o < 0x6000 then xlWrite ini s (o - 0x5000) a v c
  else if o = 0x6000 then leCtlWrite (Fin.ofNat 24 (2 * s.val)) v c
  else if o = 0x7000 then leCtlWrite (Fin.ofNat 24 (2 * s.val + 1)) v c
  else if 0x8000 ≤ o then tripBlockWrite ini s o a v c
  else plainWrite ini a v c

def sliceRead (ini : Initiator) (s : Fin 12) (o a : Nat) (c : Chip) : Word × Chip :=
  if 0x1000 ≤ o ∧ o < 0x2000 then
    pwmRead ini (Fin.ofNat 96 (8 * s.val + (o - 0x1000) / 0x200)) ((o - 0x1000) % 0x200) a c
  else if 0x3000 ≤ o ∧ o < 0x3200 ∧ o % 0x40 = 0x18 then
    (winDac c (Fin.ofNat 96 (8 * s.val + (o - 0x3000) / 0x40)), c)
  else if o = 0x3800 then (winSum c s.val, c)
  else if 0x4000 ≤ o ∧ o < 0x5000 then
    adcRead ini (Fin.ofNat 32 (2 * s.val + (o - 0x4000) / 0x800)) (o % 0x800) a c
  else match o with
    | 0x5004 => (xlStat c s, c)
    | 0x5010 => c.readClear a
    | 0x6004 => (leStat c (Fin.ofNat 24 (2 * s.val)), c)
    | 0x7004 => (leStat c (Fin.ofNat 24 (2 * s.val + 1)), c)
    | 0x8020 => (tripstat c s.val, c)
    | 0x8044 => (safestat c s.val, c)
    | _ => (c.reg a, c)

/-! ### Phase bases, capture, scheduler -/

/-- A write to PB[p] at offset `o` (02 R64). -/
def pbWrite (ini : Initiator) (p : Fin 8) (o a : Nat) (v : Word) (c : Chip) : Chip :=
  match o with
  | 0x00 => pbCfgWrite p v c
  | 0x04 => pbCtlWrite p v c
  | 0x10 => pbAngWrite p v c
  | 0x14 => pbVelWrite p v c
  | 0x40 => pbSensWrite p v c
  | 0x30 => plainWrite ini a (BitVec.ofNat 32 (min (v.fld 0 24) 0x29F16B)) c
  | 0x54 => pbExcWrite p v c
  | 0x74 => swangWrite p v c
  | 0x78 => swvelWrite p v c
  | _ => plainWrite ini a v c

/-- A read of PB[p]: angle and prediction from the accumulator at the start of the cycle (00 R8, 02 R54). -/
def pbRead (p : Fin 8) (o a : Nat) (c : Chip) : Word × Chip :=
  match o with
  | 0x10 => (angWord (accPrev c p), c)
  | 0x1C => (predict c p (accPrev c p) (c.fld (pbR p 0x20) 0 16), c)
  | _ => (c.reg a, c)

/-- A read of the scheduler at offset `o` (03 R91). -/
def schRead (ini : Initiator) (o a : Nat) (c : Chip) : Word × Chip :=
  if 0x100 ≤ o ∧ o < 0x200 then
    let p : Fin 8 := Fin.ofNat 8 ((o - 0x100) / 0x20)
    match o % 0x20 with
    | 0x10 => c.readClear a
    | 0x14 => c.readClear a
    | 0x18 => (BitVec.ofNat 32 (schActcnt c p), c)
    | 0x1C => (BitVec.ofNat 32 (min (nearCount c p) 127 + 2 ^ 8 * (loadsWaiting c p % 2 ^ 16)), c)
    | _ => (c.reg a, c)
  else match o with
    | 0x10 => ((portOf c (iniIx ini)).insRes, c)
    | 0x18 => ((portOf c (iniIx ini)).remRes, c)
    | 0x1C => (BitVec.ofNat 32 (schFree c), c)
    | _ => (c.reg a, c)

def schWrite (ini : Initiator) (o a : Nat) (v : Word) (c : Chip) : Chip :=
  let p : Fin 8 := Fin.ofNat 8 ((o - 0x100) / 0x20)
  if 0x100 ≤ o ∧ o < 0x200 ∧ o % 0x20 = 0 then schCfgWrite p v c
  else if 0x100 ≤ o ∧ o < 0x200 ∧ o % 0x20 = 4 then schCtlWrite p v c
  else plainWrite ini a v c

/-! ### Event matrix, converters of the utility block, Pea control -/

/-- A write to the event matrix at offset `o` (10 R247). -/
def evmWrite (ini : Initiator) (o a : Nat) (v : Word) (c : Chip) : Chip :=
  if o < 0x6000 then evmRowWrite ini (o / 48) (o % 48 / 4) v c
  else if 0x8000 ≤ o ∧ o < 0x8200 then
    match o % 16 with
    | 0 => evmGcfgWrite ini ((o - 0x8000) / 16) v c
    | 4 => evmGateWrite ini a ((o - 0x8000) / 16) v c
    | 8 => evmGateWrite ini a ((o - 0x8000) / 16) v c
    | _ => c
  else if 0x9000 ≤ o ∧ o < 0x9180 then evmCgrpWrite ini ((o - 0x9000) / 4) v c
  else if o = 0xA044 then lgstatWrite v c
  else plainWrite ini a v c

def evmRead (o a : Nat) (c : Chip) : Word × Chip := if o = 0xA040 then (gstat c, c) else (c.reg a, c)

/-- A write to the utility block at offset `o` from 0x400F_0000 (06 R172 to R174, 09 R233). -/
def utilWrite (ini : Initiator) (o a : Nat) (v : Word) (c : Chip) : Chip :=
  if o < 0x4000 then adcWrite ini (Fin.ofNat 32 (24 + o / 0x800)) (o % 0x800) a v c
  else if 0x8000 ≤ o ∧ o < 0x8800 then
    let k : Fin 32 := Fin.ofNat 32 ((o - 0x8000) / 0x40)
    match o % 0x40 with
    | 0x00 => sdmCfgWrite k v c
    | 0x04 => sdmFastWrite k v c
    | _ => plainWrite ini a v c
  else if 0x9000 ≤ o ∧ o < 0x9020 then sdmDivWrite ((o - 0x9000) / 4) v c
  else if 0xC000 ≤ o ∧ o < 0xC800 then peaAllocWrite ini ((o - 0xC000) / 4) v c
  else if o = 0xD100 then peaCmtPut ini v c
  else plainWrite ini a v c

def utilRead (ini : Initiator) (o a : Nat) (c : Chip) : Word × Chip :=
  if o < 0x4000 then adcRead ini (Fin.ofNat 32 (24 + o / 0x800)) (o % 0x800) a c
  else if 0x8000 ≤ o ∧ o < 0x8800 then
    let k : Fin 32 := Fin.ofNat 32 ((o - 0x8000) / 0x40)
    match o % 0x40 with
    | 0x14 => (BitVec.ofNat 32 c.sdms[k].q.length, c)
    | 0x18 => sdmQpop k ini c
    | 0x1C => (sdmHold c k ini, c)
    | 0x20 => (sdmFval c k, c)
    | _ => (c.reg a, c)
  else if o = 0xD10C then (peaPend c, c)
  else (c.reg a, c)

/-! ### Networks, pins, power, faults, watchdogs, Triton, memory -/

/-- A write to the networks at offset `o` from 0x4108_0000 (20 R464). -/
def netWrite (ini : Initiator) (o a : Nat) (v : Word) (c : Chip) : Chip :=
  if 0x100 ≤ o ∧ o < 0x300 ∧ o % 0x20 < 0x10 then
    tevWrite (Fin.ofNat 16 ((o - 0x100) / 0x20)) (Fin.ofNat 4 (o % 0x20 / 4)) v c
  else match o with
    | 0x10 => netAdjWrite v c
    | 0x18 => netSetsWrite v c
    | _ => plainWrite ini a v c

def netRead (ini : Initiator) (o a : Nat) (c : Chip) : Word × Chip :=
  if 0x100 ≤ o ∧ o < 0x300 ∧ o % 0x20 = 0x1C then c.readClear a
  else match o with
    | 0x0 => netTimenRead ini c
    | 0x4 => (netSecsRead ini c false, c)
    | 0x8 => (netSecsRead ini c true, c)
    | _ => (c.reg a, c)

/-- A write to the pins at offset `o` from 0x4200_0000 (19 R451). -/
def gpioWrite (ini : Initiator) (o a : Nat) (v : Word) (c : Chip) : Chip :=
  if o < 0x1000 then gpioPinWrite ini (Fin.ofNat 1024 (o / 4)) v c
  else if 0x1000 ≤ o ∧ o < 0x1400 then
    let b := (o - 0x1000) / 0x40
    let k := o % 0x40
    if k < 0x10 then bankWrite b k v c
    else if k = 0x18 ∨ k = 0x1C then istatWrite b ((k - 0x18) / 4) v c
    else plainWrite ini a v c
  else plainWrite ini a v c

/-- A read of the pins; Triton reads input levels through its vote (14 R331). -/
def gpioRead (ini : Initiator) (o a : Nat) (c : Chip) : Word × Chip :=
  if 0x1000 ≤ o ∧ o < 0x1400 ∧ (o % 0x40 = 0x10 ∨ o % 0x40 = 0x14) then
    let b := (o - 0x1000) / 0x40
    let hi := o % 0x40 / 4 % 2
    (if ini = .triton then voteWord c (64 * b + 32 * hi) (gpioIn c b hi) else gpioIn c b hi, c)
  else if o = 0x2100 then (gpioStat c, c)
  else (c.reg a, c)

/-- A write of FLT_CFG (21 R478): a REACT below the floor stores the floor, 5 to 7 store 4; reactions that nothing holds
any longer end. Locked by SEAL. -/
def fltCfgWrite (i : Nat) (v : Word) (c : Chip) : Chip :=
  if c.sealed then c
  else endReactions (c.setReg (fltCfgR i) ((v &&& 0x0FFF0000) ||| BitVec.ofNat 32 (max (min (v.fld 0 3) 4) (fltFloor i))))

/-- A write to the system block at offset `o` from 0x4300_0000 (21 R485, 14 R339, 15 R363). -/
def sysRegWrite (ini : Initiator) (o a : Nat) (v : Word) (c : Chip) : Chip :=
  if 0x1000 ≤ o ∧ o < 0x1400 then fltCfgWrite ((o - 0x1000) / 4) v c
  else if 0x1400 ≤ o ∧ o < 0x1420 then clearPend ((o - 0x1400) / 4) v c
  else if 0x300 ≤ o ∧ o < 0x380 ∧ o % 0x10 = 0 then wdgCfgWrite (Fin.ofNat 8 ((o - 0x300) / 0x10)) v c
  else if 0x300 ≤ o ∧ o < 0x380 ∧ o % 0x10 = 8 then wdgKickWrite ini (Fin.ofNat 8 ((o - 0x300) / 0x10)) v c
  else match o with
    | 0x000 => if v.fld 0 2 = 1 ∨ v.fld 0 2 = 2 then enterStandby v c else c
    | 0x008 => pdctlWrite false v c
    | 0x00C => pdctlWrite true v c
    | 0x2008 => triCtlWrite ini v c
    | _ => plainWrite ini a v c

def sysRegRead (o a : Nat) (c : Chip) : Word × Chip :=
  if 0x300 ≤ o ∧ o < 0x380 ∧ o % 0x10 = 0xC then (wdgStat c (Fin.ofNat 8 ((o - 0x300) / 0x10)), c)
  else match o with
    | 0x1440 => fltLog0Read c
    | 0x1450 => (BitVec.ofNat 32 c.flt.log.length, c)
    | 0x1454 => c.readClear a
    | 0x2018 => c.readClear a
    | 0x3048 => c.readClear a
    | 0x304C => c.readClear a
    | 0x3058 => memLogPop c
    | _ => (c.reg a, c)

/-! ### DMA, link, commands, security -/

/-- A write to DMA[u] at offset `o` (15 R364). -/
def dmaWrite (ini : Initiator) (u : Fin 2) (o a : Nat) (v : Word) (c : Chip) : Chip :=
  let ch : Fin 32 := Fin.ofNat 32 ((o - 0x1000) / 0x40)
  if 0x1000 ≤ o ∧ o < 0x1800 then
    match o % 0x40 with
    | 0x00 => dmaCfgWrite u ch v c
    | 0x04 => dmaCtlWrite u ch v c
    | 0x08 => dmaDoorbell u ch c
    | 0x10 => dmaNextWrite u ch v c
    | _ => plainWrite ini a v c
  else plainWrite ini a v c

def dmaRead (u : Fin 2) (o a : Nat) (c : Chip) : Word × Chip :=
  if 0x1000 ≤ o ∧ o < 0x1800 ∧ o % 0x40 = 0x24 then (dmaProg c u (Fin.ofNat 32 ((o - 0x1000) / 0x40)), c)
  else match o with
    | 0x0 => (dmaUstat c u, c)
    | 0x4 => (dmaUirq c u, c)
    | _ => (c.reg a, c)

/-- LL_CREDIT (16 R388). -/
def llCredit (c : Chip) (p : Port) : Word :=
  let x := (lport c p).credits
  BitVec.ofNat 32 (min x[0] 255 + 2 ^ 8 * min x[1] 255 + 2 ^ 16 * min x[2] 1023)

/-- CMD_HBCNT: milliseconds since START or the last HEARTBEAT (17 R406). -/
def hbCount (c : Chip) : Nat := if c.cmd.hbArmed then min ((c.now - c.cmd.hbFrom) / 500000) 0xFFFF else 0

/-- CMD_STAT (17 R418). -/
def cmdStat (c : Chip) : Word :=
  let op := match c.cmd.long with
    | some l => (l.pkt.headD 0).toNat
    | none => 0
  (((c.reg cmdStatR).withBit 4 c.cmd.session.isSome).withBit 5 c.cmd.long.isSome).withFld 8 8 op

/-- A write to the link and command block at offset `o` from 0x4500_0000 (16 R388, 17 R418). -/
def linkWrite (ini : Initiator) (o a : Nat) (v : Word) (c : Chip) : Chip :=
  if 0x1000 ≤ o ∧ o < 0x2000 then txqWrite v c
  else match o with
    | 0x024 => wakectlWrite v c
    | 0x100 => pctlWrite .up v c
    | 0x200 => pctlWrite .dn v c
    | 0x10C => retrainWrite .up v c
    | 0x20C => retrainWrite .dn v c
    | _ => plainWrite ini a v c

def linkRead (o a : Nat) (c : Chip) : Word × Chip :=
  if 0x100 ≤ o ∧ o < 0x300 ∧ 0x18 ≤ o % 0x100 ∧ o % 0x100 < 0x28 then c.readClear a
  else match o with
    | 0x040 => c.readClear a
    | 0x114 => (llCredit c .up, c)
    | 0x214 => (llCredit c .dn, c)
    | 0x8000 => (cmdStat c, c)
    | 0x8010 => (BitVec.ofNat 32 (hbCount c), c)
    | 0x8018 => c.readClear a
    | 0x801C => ((c.cmd.session.map (·.seq)).getD 0, c)
    | _ => (c.reg a, c)

/-- A write to the security block at offset `o` from 0x5000_0000 (18 R437). -/
def secWrite (ini : Initiator) (o a : Nat) (v : Word) (c : Chip) : Chip :=
  if 0x40 ≤ o ∧ o < 0x70 then c.setReg a v
  else match o with
    | 0x14 => revokeWrite v c
    | 0x70 => fpcmdWrite v c
    | _ => plainWrite ini a v c

def secRead (o a : Nat) (c : Chip) : Word × Chip :=
  if 0x40 ≤ o ∧ o < 0x70 then (0, c)
  else if o = 0x18 then rngDraw c
  else (c.reg a, c)

/-! ### By address -/

/-- What a register write does once it has passed its check (01 R24). -/
def regWrite (ini : Initiator) (a : Nat) (v : Word) (c : Chip) : Chip :=
  if a < 0x400C0000 then sliceWrite ini (Fin.ofNat 12 ((a - 0x40000000) / 0x10000)) (a % 0x10000) a v c
  else if a < 0x400C0800 then pbWrite ini (Fin.ofNat 8 ((a - 0x400C0000) / 0x100)) (a % 0x100) a v c
  else if 0x400C1000 ≤ a ∧ a < 0x400C1800 ∧ a % 0x20 = 0 then capCfgWrite (Fin.ofNat 64 ((a - 0x400C1000) / 0x20)) v c
  else if a < 0x400D0000 then plainWrite ini a v c
  else if a < 0x400E0000 then schWrite ini (a - 0x400D0000) a v c
  else if a < 0x400F0000 then evmWrite ini (a - 0x400E0000) a v c
  else if a < 0x41000000 then utilWrite ini (a - 0x400F0000) a v c
  else if a < 0x42000000 then (if 0x41080000 ≤ a then netWrite ini (a - 0x41080000) a v c else c)
  else if a < 0x43000000 then gpioWrite ini (a - 0x42000000) a v c
  else if a < 0x44000000 then sysRegWrite ini (a - 0x43000000) a v c
  else if a < 0x44020000 then dmaWrite ini (Fin.ofNat 2 ((a - 0x44000000) / 0x10000)) (a % 0x10000) a v c
  else if a < 0x45000000 then c
  else if a < 0x50000000 then linkWrite ini (a - 0x45000000) a v c
  else secWrite ini (a - 0x50000000) a v c

/-- What a register read answers once it has passed its check. -/
def regRead (ini : Initiator) (a : Nat) (c : Chip) : Word × Chip :=
  if a < 0x400C0000 then sliceRead ini (Fin.ofNat 12 ((a - 0x40000000) / 0x10000)) (a % 0x10000) a c
  else if a < 0x400C0800 then pbRead (Fin.ofNat 8 ((a - 0x400C0000) / 0x100)) (a % 0x100) a c
  else if a = 0x400C0800 then (c.capTime, c)
  else if 0x400C1000 ≤ a ∧ a < 0x400C1800 then
    let k : Fin 64 := Fin.ofNat 64 ((a - 0x400C1000) / 0x20)
    match a % 0x20 with
    | 0x4 => (capStat c k, c)
    | 0x8 => capRead k c
    | _ => (c.reg a, c)
  else if a < 0x400D0000 then (c.reg a, c)
  else if a < 0x400E0000 then schRead ini (a - 0x400D0000) a c
  else if a < 0x400F0000 then evmRead (a - 0x400E0000) a c
  else if a < 0x41000000 then utilRead ini (a - 0x400F0000) a c
  else if a < 0x42000000 then (if 0x41080000 ≤ a then netRead ini (a - 0x41080000) a c else (0, c))
  else if a < 0x43000000 then gpioRead ini (a - 0x42000000) a c
  else if a < 0x44000000 then sysRegRead (a - 0x43000000) a c
  else if a < 0x44020000 then dmaRead (Fin.ofNat 2 ((a - 0x44000000) / 0x10000)) (a % 0x10000) a c
  else if a < 0x45000000 then (0, c)
  else if a < 0x50000000 then linkRead (a - 0x45000000) a c
  else secRead (a - 0x50000000) a c

/-- The register ranges of peripheral blocks (00 R4). -/
def registerRange (a : Nat) : Bool := decide (0x40000000 ≤ a) && decide (a < 0x60000000)

/-- System SRAM and the TCM window, whose keys are their addresses. -/
def memWindow (a : Nat) : Bool :=
  (decide (0x10000000 ≤ a) && decide (a < 0x11000000)) || (decide (0x22000000 ≤ a) && decide (a < 0x22030000))

/-- A write through the window of a loop engine's TCM: it lands in a TCM cycle of its own, after the core's data accesses of that cycle
(09 R213). One that meets an uncorrectable word that it covers in part ends with an error response (15 R343). -/
def tcmPut (a n x : Nat) (c : Chip) : Chip :=
  if eccErr c a = some true ∧ !wholeWord a n then (memWrite a n x c).2.err
  else { c with tcmWin := { c.tcmWin with puts := c.tcmWin.puts ++ [(a, n, x)] } }.ack

/-- The writes through the window that have a TCM cycle at the end of the present one: the oldest of each TCM that no read has had
(09 R213). -/
def tcmEnd (c : Chip) : Chip :=
  let ns := (c.tcmWin.puts.map (fun e => tcmWinLe e.1)).dedup.filter (fun n => !c.tcmWin.gets.contains n)
  let c := ns.foldl (fun (c : Chip) n => match c.tcmWin.puts.find? (fun e => tcmWinLe e.1 == n) with
    | some e =>
      let c := { c with tcmWin := { c.tcmWin with puts := c.tcmWin.puts.erase e } }
      if domainsUp c e.1 then (memWrite e.1 e.2.1 e.2.2 c).2 else c
    | none => c) c
  { c with tcmWin := { c.tcmWin with gets := [] } }

/-- A write of `n` bytes to a memory window; an uncorrectable word ends it with an error response (15 R342). -/
def windowPut (ini : Initiator) (a n x : Nat) (c : Chip) : Chip :=
  match verdict c ini a true with
  | .ok => if inTcmWin a then tcmPut a n x c else let r := memWrite a n x c; if r.1 then r.2.ack else r.2.err
  | v => refuse v a c

def windowGet (ini : Initiator) (a n : Nat) (c : Chip) : Chip :=
  match verdict c ini a false with
  | .ok =>
    let c := if inTcmWin a then { c with tcmWin := { c.tcmWin with gets := tcmWinLe a :: c.tcmWin.gets } } else c
    let r := memRead a n c
    match r.1 with
    | some x => r.2.answer (BitVec.ofNat 32 x)
    | none => r.2.err
  | v => refuse v a c

/-- An aligned word written by an initiator to an address outside its own ranges (00 R4, R7; 01 R24). The answer says
whether it ended with an error response. A write to the action memory window changes nothing (03 R75). -/
def busWrite (ini : Initiator) (a : Nat) (v : Word) (c : Chip) : Chip :=
  if a % 4 ≠ 0 ∨ 2 ^ 32 ≤ a then c.err
  else if memWindow a then windowPut ini a 4 v.toNat c
  else if 0x21000000 ≤ a ∧ a < 0x21000800 then peaShared ini ((a - 0x21000000) / 4) (some v) c
  else if a = schR 0 ∨ a = schR 4 ∨ a = schR 8 then
    portWrite ini (a - schR 0) v (stageWrite ini (a - schR 0) v) c
  else if a = schR 0xC then portWrite ini 0xC v (putReq (iniIx ini) false v) c
  else if a = schR 0x14 then portWrite ini 0x14 v (putReq (iniIx ini) true (v &&& 0xFFFFF)) c
  else if registerRange a then gatedWrite ini a (regWrite ini a v) c
  else if 0x20000000 ≤ a ∧ a < 0x20200000 then gatedWrite ini a Chip.err c
  else gatedWrite ini a (fun c => c) c

/-- A read of the action memory window by the third port, which it occupies for a cycle (03 R75, R78, R87). -/
def actionGet (ini : Initiator) (a : Nat) (c : Chip) : Chip :=
  match verdict c ini a false with
  | .ok =>
    let r := windowWord ((a - 0x20000000) / 16) (a % 16 / 4)
      (updSch (fun s => { s with readFree := max s.readFree c.now + 1 }) c)
    match r.1 with
    | some v => r.2.answer v
    | none => r.2.err
  | v => refuse v a c

/-- A read of a row of the event matrix, whose words have ECC (15 R340, R342). -/
def rowGet (ini : Initiator) (a : Nat) (c : Chip) : Chip :=
  match verdict c ini a false with
  | .ok =>
    let r := eccRead a 4 c
    if r.1 then r.2.answer (r.2.reg a) else r.2.err
  | v => refuse v a c

/-- An aligned word read by an initiator outside its own ranges. A read that `readWaits` names is put off by its initiator. -/
def busRead (ini : Initiator) (a : Nat) (c : Chip) : Chip :=
  if a % 4 ≠ 0 ∨ 2 ^ 32 ≤ a then c.err
  else if memWindow a then windowGet ini a 4 c
  else if 0x21000000 ≤ a ∧ a < 0x21000800 then peaShared ini ((a - 0x21000000) / 4) none c
  else if 0x400E0000 ≤ a ∧ a < 0x400E6000 then rowGet ini a c
  else if registerRange a then gatedRead ini a (regRead ini a) c
  else if 0x20000000 ≤ a ∧ a < 0x20200000 then
    actionGet ini a c
  else if 0xF0000000 ≤ a ∧ a < 0xF0020000 then
    gatedRead ini a (fun c => (BitVec.ofNat 32 (romVal (a - 0xF0000000) 4), c)) c
  else gatedRead ini a (fun c => (0, c)) c

/-- The answer of the last access, none for an error response. -/
def Chip.got (c : Chip) : Option Word := if c.resp.ok then c.resp.data.head? else none

/-- REGISTER_WRITE (00 R4 to R8): an initiator writes a word at an address. -/
def execRegisterWrite (ini : Initiator) (addr v : Word) (s : State) : Host.Outcome State Fault Refusal :=
  s.onChip (busWrite ini addr.toNat v)

end Sys2Proof.Machine
end

