-- ==== Sys2Proof/Machine/Debug.lean ====
section
/-! DEFINITION. Accesses of the MGE to every address it reaches, its own ranges among them (01 R24), and through them the
debug module (18 R432, R434). -/

namespace Sys2Proof.Machine

/-- The core-private range of a core (01 R24). -/
def privRange (a : Nat) : Bool := decide (0xE0000000 ≤ a) && decide (a < 0xE0100000)

/-- A word written by the MGE: its RAM, its private registers, or the bus. -/
def mgeWrite (a : Nat) (v : Word) (c : Chip) : Chip :=
  if a % 4 ≠ 0 then c.err
  else if a < tcmSize .mge then
    let r := memWrite (tcmKey .mge a) 4 v.toNat c
    if r.1 then r.2.ack else r.2.err
  else if privRange a then privWrite .mge (a - 0xE0000000) v c.ack
  else busWrite .mge a v c

/-- A word read by the MGE. -/
def mgeRead (a : Nat) (c : Chip) : Chip :=
  if a % 4 ≠ 0 then c.err
  else if a < tcmSize .mge then
    let r := memRead (tcmKey .mge a) 4 c
    match r.1 with
    | some x => r.2.answer (BitVec.ofNat 32 x)
    | none => r.2.err
  else if privRange a then c.answer (privRead .mge (a - 0xE0000000) c)
  else busRead .mge a c

/-- A word of the TCM of a lane (14 R329). -/
def laneWord (l : LaneS) (off : Nat) : Word :=
  BitVec.ofNat 32 (leNat ((List.range 4).map (fun i => aread 0 l.tcm (2 ^ 32 + off / 4 * 4 + i))))

/-- An access to the debug module, to the state of a lane of Triton, an isolated one too, among them (14 R329): within the unlocked scope it answers, else it shifts out zeros and ignores what is
shifted in. -/
def debugAccess (a : DebugAccess) (c : Chip) : Chip :=
  let c := { c with sec := { c.sec with tap := .debug } }
  match a with
  | .readReg k b r => c.answer (if dbgRun c then (bankGet c k b).g[r] else 0)
  | .readRestart k b i => c.answer (if dbgRun c then (bankGet c k b).restart[i.val]?.getD 0 else 0)
  | .readMem x => if dbgMem c then mgeRead x.toNat c else c.answer 0
  | .writeMem x v => if dbgMem c then mgeWrite x.toNat v c else c.answer 0
  | .readLaneReg l b r => c.answer (if dbgRun c then (laneState c l).core.banks[b].g[r] else 0)
  | .readLaneMem l x => c.answer (if dbgMem c then laneWord (laneState c l) x.toNat else 0)

/-- DEBUG_MODULE_ACCESS (R432, R434). -/
def execDebugModuleAccess (a : DebugAccess) (s : State) : Host.Outcome State Fault Refusal := s.onChip (debugAccess a)

end Sys2Proof.Machine
end

