-- ==== Sys2Proof/Machine/Packet.lean ====
section
/-! DEFINITION. Command packets and replies, and the checks made before a command executes (17 R389 to R398, R410; 18 R423,
R429). -/

namespace Sys2Proof.Machine

/-! ### Packets (R389, 18 R429) -/

/-- A little-endian field of `n` bytes. -/
def fldAt (bs : List Byte) (i n : Nat) : Nat := leNat ((bs.drop i).take n)

def pkOpc (pkt : List Byte) : Nat := fldAt pkt 0 1
def pkFlags (pkt : List Byte) : Nat := fldAt pkt 1 1
def pkAuth (pkt : List Byte) : Bool := pkFlags pkt % 2 == 1
def pkEnc (pkt : List Byte) : Bool := pkFlags pkt / 2 % 2 == 1
def pkSeq (pkt : List Byte) : Nat := fldAt pkt 4 4

/-- The parameter field as it stands in the packet, and the tag. -/
def pkRaw (pkt : List Byte) : List Byte :=
  let p := pkt.drop 8
  if pkAuth pkt then p.take (p.length - 16) else p
def pkTag (pkt : List Byte) : List Byte := pkt.drop (pkt.length - 16)

/-- The GCM nonce of a SEQ. -/
def seqIv (n : Nat) : List Byte := List.replicate 8 0 ++ leBytes 4 n

/-- The tag of a header with a body under a key: the body as text, or as further associated data. -/
def packetTag (key : List Byte) (seq : Nat) (enc : Bool) (head body : List Byte) : List Byte :=
  if enc then gcmTag key (seqIv seq) head body else gcmTag key (seqIv seq) (head ++ body) []

/-- Whether a packet verifies under a session. -/
def pkVerifies (s : Session) (pkt : List Byte) : Bool :=
  decide (24 ≤ pkt.length) && packetTag s.kc (pkSeq pkt) (pkEnc pkt) (pkt.take 8) (pkRaw pkt) == pkTag pkt

/-- The parameters in the clear. -/
def pkParams (s : Option Session) (pkt : List Byte) : List Byte :=
  match s with
  | some s => if pkEnc pkt then gcmCrypt s.kc (seqIv (pkSeq pkt)) (pkRaw pkt) else pkRaw pkt
  | none => pkRaw pkt

/-! ### Replies (R390) -/

def authSession (c : Chip) : CmdAuth → Option Session
  | .no => none
  | .force => c.cmd.session
  | .pend => c.cmd.pend

def putSession (a : CmdAuth) (s : Session) (c : Chip) : Chip :=
  match a with
  | .no => c
  | .force => { c with cmd := { c.cmd with session := some s } }
  | .pend => { c with cmd := { c.cmd with pend := some s } }

/-- One reply: under a session numbered, tagged and encrypted as the command was; otherwise plain. -/
def cmdReply (a : CmdAuth) (pkt : List Byte) (status : Nat) (final : Bool) (res : List Byte) (c : Chip) : Chip :=
  match authSession c a with
  | none => cmdSend (replyHead c pkt status 0 (4 * final.toNat) ++ res) c
  | some s =>
    let n := s.rseq.toNat + 1
    let head := replyHead c pkt status n (1 + 4 * final.toNat)
    let body := if pkEnc pkt then gcmCrypt s.kr (seqIv n) res else res
    cmdSend (head ++ body ++ packetTag s.kr n (pkEnc pkt) head body) (putSession a { s with rseq := BitVec.ofNat 32 n } c)

/-- A refusal: counted, and answered (R393). -/
def cmdRefuse (a : CmdAuth) (pkt : List Byte) (status : Nat) (c : Chip) : Chip :=
  cmdReply a pkt status false [] (cmdRefused (status == 0x14) c)

/-! ### Checks (R393, in the order of its table) -/

/-- The opcodes of R398. -/
def cmdListed (o : Nat) : Bool :=
  (decide (1 ≤ o) && decide (o ≤ 5)) || (decide (0x10 ≤ o) && decide (o ≤ 0x16)) ||
  (decide (0x20 ≤ o) && decide (o ≤ 0x22)) || (decide (0x30 ≤ o) && decide (o ≤ 0x32)) ||
  (decide (0x40 ≤ o) && decide (o ≤ 0x45)) || o == 0x50 || o == 0x60 || o == 0x61 || o == 0x7F

/-- Step 3: who authenticates the command; none where it fails (R391). -/
def cmdAuth (c : Chip) (pkt : List Byte) : Option CmdAuth :=
  let o := pkOpc pkt
  if o ≤ 4 then (if pkAuth pkt then none else some .no)
  else if !pkAuth pkt then none
  else
    let a : CmdAuth := if o = 5 then .pend else .force
    match authSession c a with
    | some s => if pkVerifies s pkt then some a else none
    | none => none

/-- Step 4: SEQ above the last consumed; 1 for SESSION_CONFIRM (R391). -/
def cmdSeqOk (c : Chip) (a : CmdAuth) (pkt : List Byte) : Bool :=
  match a, authSession c a with
  | .no, _ => true
  | .pend, some s => pkSeq pkt == 1 && s.seq == 0
  | _, some s => decide (s.seq.toNat < pkSeq pkt)
  | _, none => false

/-- SEQ is consumed. -/
def cmdConsume (a : CmdAuth) (pkt : List Byte) (c : Chip) : Chip :=
  match authSession c a with
  | some s => putSession a { s with seq := BitVec.ofNat 32 (pkSeq pkt) } c
  | none => c

/-- The table of R396: 0 where the opcode is legal, else the status. -/
def stateCell (o st : Nat) : Nat :=
  if o ≤ 5 then 0
  else if o = 0x10 then (if 7 ≤ st then 0x15 else if 3 ≤ st ∧ st ≤ 5 then 0 else 0x13)
  else if o = 0x11 ∨ o = 0x12 then (if 7 ≤ st then 0x15 else if st = 4 then 0 else 0x13)
  else if o = 0x13 then (if 7 ≤ st then 0x15 else if st = 5 ∨ st = 6 then 0 else 0x13)
  else if o = 0x14 then (if 7 ≤ st then 0x15 else if st = 6 then 0 else 0x13)
  else if o = 0x15 then (if st = 7 ∨ st = 9 then 0 else 0x13)
  else if o = 0x16 then (if 7 ≤ st then 0 else 0x13)
  else if o = 0x21 then (if 7 ≤ st then 0x15 else if 3 ≤ st then 0 else 0x13)
  else if 0x40 ≤ o ∧ o ≤ 0x50 then (if st = 8 ∨ st = 9 then 0 else 0x13)
  else if 3 ≤ st then 0 else 0x13

/-- The opcodes of a factory session (18 R423): IDENTIFY, READ, WRITE, READ_BLOCK, STATUS, RESET. -/
def factoryOk (o : Nat) : Bool := [3, 0x20, 0x21, 0x22, 0x30, 0x7F].contains o

/-- SLICE_STAT.STATE (R419). -/
def sliceState (c : Chip) (s : Nat) : Nat := c.fld (slR s 0) 0 3
def slIdle : Nat := 0
def slRunning : Nat := 1
def slDraining : Nat := 2
def slReloading : Nat := 3
def slVerifying : Nat := 4
def slFenced : Nat := 5
def setSliceState (s st : Nat) (c : Chip) : Chip := c.setFld (slR s 0) 0 3 st

/-- Whether the slice that a command names is in a state the command allows (R410). Slices that do not exist are found at
step 7; the states that RESET allows also (R405). -/
def sliceAllows (c : Chip) (o : Nat) (ps : List Byte) : Bool :=
  let s := fldAt ps 0 1
  let st := sliceState c s
  if !(decide (0x40 ≤ o) && decide (o ≤ 0x45)) || ps.isEmpty || decide (12 ≤ s) then true
  else if o = 0x40 then st == slRunning
  else if o = 0x41 then st == slIdle || st == slDraining || st == slReloading || st == slVerifying
  else if o = 0x42 then st == slReloading
  else if o = 0x43 then st == slDraining || st == slVerifying
  else if o = 0x44 then st != slFenced
  else
    let t := fldAt ps 1 1
    st == slFenced && (decide (12 ≤ t) || sliceState c t == slIdle || sliceState c t == slDraining)

/-- Step 5. In a factory session every other opcode is refused, whoever authenticates it: R423 names IDENTIFY, which never
carries a session, among its exceptions (DEDUCED, log 90). -/
def cmdStateCheck (c : Chip) (o : Nat) (ps : List Byte) : Nat :=
  let x := stateCell o c.devState
  if x ≠ 0 then x
  else if (c.cmd.session.bind (·.factory)).isSome && !factoryOk o then 0x13
  else if sliceAllows c o ps then 0 else 0x13

/-- Step 6: the lengths of R398. -/
def cmdLenOk (o n : Nat) : Bool :=
  match o with
  | 0x01 => decide (n ≤ 972)
  | 0x04 => n == 192
  | 0x10 => n == 8
  | 0x11 => decide (5 ≤ n) && decide (n ≤ 976)
  | 0x20 => n == 4
  | 0x21 => n == 8
  | 0x22 => n == 6
  | 0x31 => n == 1
  | 0x32 => n == 2
  | 0x40 => n == 6
  | 0x41 => n == 9
  | 0x42 => n == 1
  | 0x43 => n == 1
  | 0x44 => n == 1
  | 0x45 => n == 2
  | 0x50 => n == 1
  | 0x60 => decide (1 ≤ n) && decide (n ≤ 512)
  | 0x61 => n == 4
  | 0x7F => n == 2
  | _ => n == 0

/-- An area of `n` bytes in system SRAM. -/
def sramArea (a n : Nat) : Bool := decide (0x10000000 ≤ a) && decide (a + n ≤ 0x11000000)

/-- Whether a write of TRI_CTL.REINT for the lane would be accepted (14 R334). -/
def reintOk (c : Chip) (lane : Nat) : Bool :=
  decide (lane < 3) && triMode c == triDMR && !triIn c lane && c.tri.isNone

/-- The core of a code of R408. -/
def coreOfTarget (t : Nat) : Option CoreId := if t = 5 then none else coreOfBit t

/-- Step 7: the parameter values, by the rule of each command. -/
def cmdValuesOk (c : Chip) (o : Nat) (ps : List Byte) : Bool :=
  let s := fldAt ps 0 1
  match o with
  | 0x10 => fldAt ps 0 4 % 32 == 0 && sramArea (fldAt ps 0 4) (fldAt ps 4 4)
  | 0x11 => decide (fldAt ps 0 4 + (ps.length - 4) ≤ c.cmd.length)
  | 0x22 => decide (1 ≤ fldAt ps 4 2) && decide (fldAt ps 4 2 ≤ 243)
  | 0x31 => decide (1 ≤ s) && decide (s ≤ 60)
  | 0x32 => decide (fldAt ps 0 2 < 256) || fldAt ps 0 2 == 0xFFFF
  | 0x40 => decide (s < 12) && decide (fldAt ps 1 1 < 2)
  | 0x41 => decide (s < 12) && sramArea (fldAt ps 1 4) (fldAt ps 5 4)
  | 0x42 => decide (s < 12)
  | 0x43 => decide (s < 12)
  | 0x44 => decide (s < 12)
  | 0x45 => decide (s < 12) && decide (fldAt ps 1 1 < 12)
  | 0x50 => reintOk c s
  | 0x7F =>
    let t := fldAt ps 1 1
    s == 0 || (s == 1 && (coreOfTarget t).isSome) ||
      (s == 2 && decide (t < 12) && [slIdle, slDraining, slFenced].contains (sliceState c t))
  | _ => true

/-- The long operations (R397). -/
def cmdLong (o : Nat) : Bool := [0x04, 0x12, 0x13, 0x40, 0x41, 0x42, 0x50].contains o

/-- START while a DEVFLT cause is live is BUSY (R403). -/
def devfltLive (c : Chip) : Bool := (List.range 12).any (fun s => causeOn c s causeDevflt)

/-- Steps 6 to 8: the status of the first check that fails, else 0. -/
def cmdParamCheck (c : Chip) (o flags : Nat) (ps : List Byte) : Nat :=
  if !cmdLenOk o ps.length then 0x11
  else if 4 ≤ flags ∨ flags = 2 ∨ !cmdValuesOk c o ps then 0x12
  else if cmdLong o && c.cmd.long.isSome then 0x16
  else if o = 0x15 && devfltLive c then 0x16
  else 0

end Sys2Proof.Machine
end

