-- ==== Sys2Proof/Machine/Container.lean ====
section
/-! DEFINITION. The Sedeok container (17 R400, R401, R407 to R409, R412, R413; 18 R426): its segments, verification, and
what applying them does. -/

namespace Sys2Proof.Machine

/-- One segment (R408): type, target, destination, the offset of its payload in the container, and the payload. -/
structure Seg where
  type : Nat
  target : Nat
  dest : Nat
  off : Nat
  data : List Byte
  deriving DecidableEq, Repr

/-! ### The staged bytes -/

/-- The staged bytes; none where one cannot be read. -/
def stageGet (base len : Nat) (c : Chip) : Option (List Byte) × Chip :=
  let r := (List.range ((base % 8 + len + 7) / 8)).foldl (fun (r : Bool × Chip) i =>
    let k := base / 8 * 8 + 8 * i
    if !domainsUp r.2 k then (false, pdaccf r.2)
    else let e := eccRead k 1 r.2; (r.1 && e.1, e.2)) (true, c)
  (if r.1 then some ((List.range len).map (fun i => memByte r.2 (base + i))) else none, r.2)

/-- Bytes put at a memory key in whole words where they cover one; false where one ended in error. -/
def putBytes : Nat → Nat → List Byte → Chip → Bool × Chip
  | 0, _, _, c => (true, c)
  | fuel + 1, key, bs, c =>
    if bs = [] then (true, c)
    else if !domainsUp c key then (false, pdaccf c)
    else
      let n := if key % 8 = 0 ∧ 8 ≤ bs.length then 8 else if key % 4 = 0 ∧ 4 ≤ bs.length then 4 else 1
      let w := memWrite key n (leNat (bs.take n)) c
      let r := putBytes fuel (key + n) (bs.drop n) w.2
      (w.1 && r.1, r.2)

/-! ### The header and the segments (R407, R408) -/

/-- Segments read from the segment area: exactly `n` of them, each padded to a multiple of 8. -/
def segsOf : Nat → Nat → List Byte → Option (List Seg)
  | 0, _, bs => if bs = [] then some [] else none
  | n + 1, off, bs =>
    let len := fldAt bs 4 4
    let pad := (len + 7) / 8 * 8
    if bs.length < 16 + pad ∨ fldAt bs 1 1 ≠ 0 ∨ fldAt bs 12 4 ≠ 0 then none
    else (segsOf n (off + 16 + pad) (bs.drop (16 + pad))).map (fun rest =>
      { type := fldAt bs 0 1, target := fldAt bs 2 2, dest := fldAt bs 8 4, off := off + 16,
        data := (bs.drop 16).take len } :: rest)

/-- The segment area: bytes 64 to TOTAL − 193 (18 R426). -/
def segArea (bs : List Byte) : List Byte := (bs.take (bs.length - 192)).drop 64
def contSegs (bs : List Byte) : Option (List Seg) :=
  let n := fldAt bs 12 4
  if n = 0 ∨ 4096 < n then none else segsOf n 64 (segArea bs)

def contEnc (bs : List Byte) : Bool := fldAt bs 6 2 % 2 == 1
def contSlice (bs : List Byte) : Bool := fldAt bs 6 2 / 2 % 2 == 1
def contAnchor (bs : List Byte) : Nat := fldAt bs 16 1
def contRoll (bs : List Byte) : Nat := fldAt bs 17 1
def contUse (bs : List Byte) : Nat := fldAt bs 18 2

/-- Check 1 (R409). A ROLLBACK above 64 and a slice that does not exist fall under it too (DEDUCED, log 51). -/
def contHeadOk (bs : List Byte) : Bool :=
  decide (256 ≤ bs.length) && fldAt bs 0 4 == 0x4B444553 && fldAt bs 4 2 == 1 && fldAt bs 8 4 == bs.length &&
  bs.length % 8 == 0 && decide (fldAt bs 6 2 < 4) && fldAt bs 56 8 == 0 && decide (contRoll bs ≤ 64) &&
  decide (contUse bs < 2 ^ 12)

/-- Checks 1 to 6 (R409): the detail code, 0 where all pass. -/
def contHeadCode (f : Fuses) (bs : List Byte) : Nat :=
  let n := bs.length
  let k : Fin 2 := if contAnchor bs = 0 then 0 else 1
  let key := (bs.drop (n - 192)).take 96
  if !contHeadOk bs then 1
  else if 2 ≤ contAnchor bs ∨ !anchorOk f k then 2
  else if !anchorIs f k key then 3
  else if !(match ecDecode key with
            | some q => ecdsaVerify (some q) (sha384 (bs.take (n - 96))) (bs.drop (n - 96))
            | none => false) then 4
  else if contRoll bs < fuseCount f then 5
  else if fldAt bs 20 8 ≠ 0 ∧ fldAt bs 20 8 ≠ f.devid.toNat then 6
  else 0

/-- Address and value pairs of a REGS payload. -/
def regPairs : List Byte → List (Nat × Word)
  | a :: b :: d :: e :: f :: g :: h :: i :: rest =>
    (leNat [a, b, d, e], BitVec.ofNat 32 (leNat [f, g, h, i])) :: regPairs rest
  | _ => []

/-- Words of a payload. -/
def dataWords : List Byte → List Word
  | a :: b :: d :: e :: rest => BitVec.ofNat 32 (leNat [a, b, d, e]) :: dataWords rest
  | _ => []

/-- Check 8 (R409): types, lengths, and a kind of container that fits them and the command. -/
def contKindOk (kind : Option (Fin 12)) (bs : List Byte) (segs : List Seg) : Bool :=
  let lenOk (g : Seg) : Bool := match g.type with
    | 3 => g.data.length % 8 == 0
    | 4 => g.data.length == 25344
    | 5 => g.data.length == 2176
    | 6 => g.data.length % 16 == 0
    | 7 => g.data.length % 4 == 0
    | _ => true
  contSlice bs == kind.isSome && segs.all lenOk &&
  (match kind with
   | none => segs.all (fun g => decide (1 ≤ g.type) && decide (g.type ≤ 6))
   | some s => contUse bs == 2 ^ s.val && segs.all (fun g => [2, 3, 6, 7].contains g.type) &&
       decide ((segs.filter (fun g => g.type == 6)).foldl (fun n g => n + g.data.length) 0 ≤ 16 * 240))

/-- An address that a slice container may name in a device-map REGS segment (R408): R13, 03 R89, 09 R228, 10 R244. -/
def sliceAddrOk (c : Chip) (s : Fin 12) (a : Nat) (v : Word) : Bool :=
  sliceAt a == some s.val ||
  (decide (0x21000000 ≤ a) && decide (a < 0x21000800) && peaPart c ((a - 0x21000000) / 4) == s.val) ||
  (decide (0x400FC000 ≤ a) && decide (a < 0x400FC800) && peaPart c ((a - 0x400FC000) / 4) == s.val && v.fld 10 4 == s.val) ||
  (decide (0x400E0000 ≤ a) && decide (a < 0x400E6000) && evmCols s.val ((a - 0x400E0000) % 48 / 4) != 0) ||
  (decide (0x400E8000 ≤ a) && decide (a < 0x400E8200) && gPart c ((a - 0x400E8000) / 16) == s.val) ||
  (decide (0x400E9000 ≤ a) && decide (a < 0x400E9180) && cgrpSlice ((a - 0x400E9000) / 4) == some s.val) ||
  [schR 0, schR 4, schR 8, schR 0xC, schR 0x14].contains a

def leInSlice (s : Fin 12) (k : CoreId) : Bool :=
  match k with
  | .le n => n.val / 2 == s.val
  | _ => false

/-- Check 9 (R409): the destination of one segment is permitted for the kind of container. -/
def destOk (c : Chip) (kind : Option (Fin 12)) (base : Nat) (g : Seg) : Bool :=
  let own (k : CoreId) : Bool := match kind with
    | some s => leInSlice s k
    | none => true
  match g.type with
  | 1 => g.target == 0 && g.dest == base + g.off
  | 2 => match coreOfTarget g.target with
    | some k => decide (g.dest + g.data.length ≤ tcmSize k) && own k
    | none => false
  | 3 =>
    if g.target = 0xFFFF then (regPairs g.data).all (fun p => p.1 % 4 == 0 && (match kind with
      | some s => sliceAddrOk c s p.1 p.2
      | none => true))
    else match coreOfTarget g.target with
      | some k => own k && (regPairs g.data).all (fun p => p.1 % 4 == 0 && privRange p.1)
      | none => false
  | 6 => g.target == 0 && g.dest == 0 && (match kind with
    | some s => (List.range (g.data.length / 16)).all (fun i =>
        targetIn c (fldAt g.data (16 * i) 4 / 2 ^ 28) (fldAt g.data (16 * i + 12) 4 % 2 ^ 12) s.val)
    | none => true)
  | 7 => g.target == 0 && g.dest == 0 && (match kind with
    | some s => (dataWords g.data).all (fun v =>
        let e := entryAt c (v.fld 0 17)
        !e.inuse || e.gen.toNat != v.fld 17 3 || targetIn c e.type e.target s.val)
    | none => true)
  | _ => g.target == 0 && g.dest == 0

/-- Decryption in place (18 R426): whether the tag holds, and the container with its segment area in the clear, set to 0
where it does not. -/
def contDecrypt (base : Nat) (bs : List Byte) (c : Chip) : Bool × List Byte × Chip :=
  if !contEnc bs then (true, bs, c)
  else
    let ki := (c.cmd.session.map (·.ki)).getD (List.replicate 32 0)
    let iv := (bs.drop 28).take 12
    let ct := segArea bs
    let ok := gcmTag ki iv (bs.take 28) ct == (bs.drop 40).take 16
    let pt := if ok then gcmCrypt ki iv ct else List.replicate ct.length 0
    (ok, bs.take 64 ++ pt ++ bs.drop (bs.length - 192), (putBytes ct.length (base + 64) pt c).2)

/-- Verification of the container staged at `base` (R409): the detail code with the segments; none where the staged bytes
cannot be read. -/
def verifyCont (kind : Option (Fin 12)) (base len : Nat) (c : Chip) : Option (Nat × List Seg) × Chip :=
  let r := stageGet base len c
  match r.1 with
  | none => (none, r.2)
  | some bs =>
    let code := contHeadCode r.2.fuses bs
    if code ≠ 0 then (some (code, []), r.2)
    else
      let d := contDecrypt base bs r.2
      let c := d.2.2
      if !d.1 then (some (7, []), c)
      else match contSegs d.2.1 with
        | none => (some (8, []), c)
        | some segs =>
          if !contKindOk kind bs segs then (some (8, []), c)
          else if !segs.all (destOk c kind base) then (some (9, []), c)
          else (some (0, segs), c)

/-! ### Application (R401, R412) -/

/-- The loop engine whose LE_CTL an address is. -/
def leOfCtl (a : Nat) : Option (Fin 24) := (List.finRange 24).find? (fun n => leR n 0 == a)

/-- REGS pairs in order: false where an access ends with an error response. LE_CTL writes are held. -/
def applyRegs (core : Option CoreId) : List (Nat × Word) → Chip → Bool × Chip
  | [], c => (true, c)
  | (a, v) :: rest, c =>
    match core, leOfCtl a with
    | some k, _ => applyRegs core rest (eachLane k (privWrite k (a - 0xE0000000) v) c)
    | none, some n => applyRegs core rest { c with cmd := { c.cmd with heldLe := c.cmd.heldLe ++ [(n.val, v)] } }
    | none, none =>
      let c := if a = 0x45000010 ∨ a = 0x45000014 then { c with cmd := { c.cmd with winSet := true } } else c
      let c := mgeWrite a v c
      if c.resp.ok then applyRegs core rest c else (false, c)

/-- Words to ascending addresses given by a list. -/
def applyWords : List (Nat × Word) → Chip → Bool × Chip
  | [], c => (true, c)
  | (a, v) :: rest, c =>
    let c := mgeWrite a v c
    if c.resp.ok then applyWords rest c else (false, c)

/-- The addresses of an EVM image (R408). -/
def evmAddrs : List Nat :=
  (List.range 6144).map (fun i => 0x400E0000 + 4 * i) ++
  (List.range 32).flatMap (fun g => [evmGcfgR g, evmGopenR g, evmGcloseR g]) ++ (List.range 96).map evmCgrpR

/-- The addresses of a PEA image (R408). -/
def peaAddrs : List Nat :=
  (List.range 512).map peaAllocR ++ (List.range 16).flatMap (fun d => [peaDomR d, peaDomBinR d])

/-- Bytes written to Triton's TCM by the load path reach every lane's copy (14 R325). -/
def lanesLoad (off : Nat) (bs : List Byte) (c : Chip) : Chip :=
  (List.finRange 3).foldl (fun (c : Chip) i =>
    let c := putLaneBad i ((laneBad c i).filter (fun e => !(decide (off ≤ e.1) && decide (e.1 + 8 ≤ off + bs.length)))) c
    if (c.lanes[i]).isNone then c else bs.zipIdx.foldl (fun (c : Chip) b => laneWrite i (off + b.2) 1 b.1.toNat c) c) c

/-- TCM segments written into their TCMs (R400, R412). -/
def applyTcm : List Seg → Chip → Bool × Chip
  | [], c => (true, c)
  | g :: rest, c =>
    match (if g.type = 2 then coreOfTarget g.target else none) with
    | some k =>
      let r := putBytes g.data.length (tcmKey k g.dest) g.data c
      let t := applyTcm rest (if k = .triton then lanesLoad g.dest g.data r.2 else r.2)
      (r.1 && t.1, t.2)
    | none => applyTcm rest c

def okStatus (r : Bool × Chip) : Nat × Chip := (if r.1 then 0 else 0x30, r.2)

/-- One segment written by the MGE (R401, R412): its status. -/
def applySeg (g : Seg) (c : Chip) : Nat × Chip :=
  match g.type with
  | 2 => okStatus (applyTcm [g] c)
  | 3 => okStatus (applyRegs (if g.target = 0xFFFF then none else coreOfTarget g.target) (regPairs g.data) c)
  | 4 => okStatus (applyWords (List.zip evmAddrs (dataWords g.data)) c)
  | 5 => okStatus (applyWords (List.zip peaAddrs (dataWords g.data)) c)
  | _ => (0, c)

/-- The insertions of an ACTIONS segment, each with the wait for its result (03 R72). -/
def insTasks (ix : Nat) : List Word → List MgeTask
  | w0 :: w1 :: w2 :: w3 :: rest => .ins ix w0 w1 w2 w3 :: .insGot ix :: insTasks ix rest
  | _ => []

def segTask (ix : Nat) (g : Seg) : MgeTask := .seg ix g.type g.target g.dest g.data

/-- The work of APPLY_CONFIG: the segments in container order (R401). -/
def imageTasks (segs : List Seg) : List MgeTask :=
  segs.zipIdx.flatMap (fun x =>
    if x.1.type = 6 then insTasks x.2 (dataWords x.1.data) else if x.1.type = 2 then [] else [segTask x.2 x.1])

/-- The accesses of 8 bytes, aligned where they cover a whole word, that bytes at an offset take. -/
def bytePieces : Nat → Nat → List Byte → List (Nat × List Byte)
  | 0, _, _ => []
  | n + 1, off, bs =>
    if bs = [] then [] else (off, bs.take (8 - off % 8)) :: bytePieces n (off + (8 - off % 8)) (bs.drop (8 - off % 8))

/-- Single accesses of a segment: TCM words, and pairs of REGS. -/
def segPieces (g : Seg) : List Seg :=
  if g.type = 2 then (bytePieces g.data.length g.dest g.data).map (fun p => { g with dest := p.1, data := p.2 })
  else (List.range (g.data.length / 8)).map (fun i => { g with data := (g.data.drop (8 * i)).take 8 })

/-- The work of SLICE_LOAD in the order of R412, access by access. -/
def sliceTasks (segs : List Seg) : List MgeTask :=
  let of (t : Nat) : List (Seg × Nat) := segs.zipIdx.filter (fun x => x.1.type == t)
  let each (t : Nat) : List MgeTask := (of t).flatMap (fun x => (segPieces x.1).map (segTask x.2))
  (of 7).flatMap (fun x => (dataWords x.1.data).flatMap (fun v => [.rem v, .remGot])) ++ each 2 ++ each 3 ++
  (of 6).flatMap (fun x => insTasks x.2 (dataWords x.1.data))

/-- The accesses that a task makes at its target port. -/
def taskCost : MgeTask → Nat
  | .remGot => 0
  | .ins _ _ _ _ _ => 4
  | _ => 1

def taskIx : MgeTask → Nat
  | .seg ix _ _ _ _ => ix
  | .ins ix _ _ _ _ => ix
  | .insGot ix => ix
  | _ => 0

/-- One task of the MGE: its status, and the result register of an insertion; none where it waits for the port (03 R72,
R74). -/
def taskRun (t : MgeTask) (c : Chip) : Option ((Nat × Option Word) × Chip) :=
  let plain (r : Nat × Chip) : Option ((Nat × Option Word) × Chip) := some ((r.1, none), r.2)
  match t with
  | .seg _ ty tg d data => plain (applySeg { type := ty, target := tg, dest := d, off := 0, data := data } c)
  | .rem v => plain (okStatus (applyWords [(schR 0x14, v &&& 0xFFFFF)] c))
  | .remGot => if reqWaits c 5 true then none else plain (0, c)
  | .ins _ w0 w1 w2 w3 => plain (okStatus (applyWords [(schR 0, w0), (schR 4, w1), (schR 8, w2), (schR 0xC, w3)] c))
  | .insGot _ =>
    if reqWaits c 5 false then none
    else
      let c := mgeRead (schR 0x10) c
      match c.got with
      | none => some ((0x30, none), c)
      | some x => some ((if x.fld 28 4 ≠ 0 then 0x21 else 0, some (x &&& 0xFFFFF)), c)

/-- Where the work of the MGE stands: its status and the index of a failed segment once it has ended, what is left, and the
handles inserted. -/
structure TaskEnd where
  status : Option (Nat × Nat)
  left : List MgeTask
  got : List Word

/-- The work of the MGE as far as it goes in this cycle. -/
def taskStep : List MgeTask → List Word → Chip → TaskEnd × Chip
  | [], got, c => ({ status := some (0, 0xFFFFFFFF), left := [], got := got }, c)
  | t :: ts, got, c =>
    match taskRun t c with
    | none => ({ status := none, left := t :: ts, got := got }, c)
    | some ((st, h), c) =>
      if st = 0 then taskStep ts (got ++ h.toList) c
      else ({ status := some (st, taskIx t), left := [], got := got }, c)

/-- One access of reload traffic: the first task, where it can go on; the accesses it made (R416). -/
def reloadOne (ts : List MgeTask) (got : List Word) (c : Chip) : (TaskEnd × Nat) × Chip :=
  match ts with
  | [] => (({ status := some (0, 0xFFFFFFFF), left := [], got := got }, 0), c)
  | t :: ts =>
    match taskRun t c with
    | none => (({ status := none, left := t :: ts, got := got }, 0), c)
    | some ((st, h), c) =>
      if st ≠ 0 then (({ status := some (st, taskIx t), left := [], got := got }, taskCost t), c)
      else (({ status := if ts.isEmpty then some (0, 0xFFFFFFFF) else none, left := ts, got := got ++ h.toList }, taskCost t), c)

/-- The cycles of CLK_C between two accesses of reload traffic, so that it takes at most CMD_RLDCFG.SHARE percent of the cycles of
CLK_L of a port in every window (R416, R418): 0 acts as 1, more than 50 as 50. The even spacing is the model's choice (log 140). -/
def reloadGap (c : Chip) : Nat :=
  let s := max 1 (min (c.fld (cmdR 0x14) 0 7) 50)
  ((99 + s) / s + 1) / 2

/-- The removal of every linked action through the MGE's port, in the order of handles (R401, 03 R74). -/
def removeTasks (c : Chip) : List MgeTask :=
  (c.sched.entries.filter (fun e => linked c e.1)).flatMap (fun e =>
    [.rem (BitVec.ofNat 32 (e.1 + 2 ^ 17 * e.2.gen.toNat)), .remGot])

/-- The MGE executes a live-reconfiguration command on slice `s` (01 R13). -/
def withLive {α : Type} (s : Fin 12) (f : Chip → α × Chip) (c : Chip) : α × Chip :=
  let put (b : Bool) (c : Chip) : Chip := { c with slices := vmod c.slices s (fun x => { x with live := b }) }
  let r := f (put true c)
  (r.1, put false r.2)

/-! ### The comparison of SLICE_VERIFY (R413) -/

/-- The bits of a core-private register that read back as written (13 R323). -/
def privMask (k : CoreId) (off : Nat) : Word :=
  if off = 0 then 0xFFFFFF80
  else if 0x100 ≤ off ∧ off < 0x200 then
    let b := (off - 0x100) / 0x20
    match off % 0x20 with
    | 0 => if b = 0 ∨ b = 7 then 6 else 7
    | 4 => if b = 0 ∨ b = 7 then 0 else 0xFFFFFFFF
    | 8 => if k.isNKS then 0 else 0xFFFFFFFC
    | _ => 0
  else if 0x400 ≤ off ∧ off < 0x900 then 0xF
  else if off = 0xC00 then 1
  else if 0xC40 ≤ off ∧ off < 0xC40 + 16 * mpuRegions k then
    (if off % 16 = 8 then 0x7F else if off % 16 = 0xC then 0 else 0xFFFFFFE0)
  else 0

/-- The RW fields of a register of the device map. -/
def rwMask (a : Nat) : Word :=
  match rowOf a with
  | some (r, _, _) => BitVec.ofNat 32 r.rw
  | none => 0

/-- The pairs of every REGS segment with their target, in order. -/
def allPairs (segs : List Seg) : List ((Nat × Nat) × Word) :=
  segs.flatMap (fun g => if g.type = 3 then (regPairs g.data).map (fun p => ((g.target, p.1), p.2)) else [])

/-- The last value written to each register, by first appearance. -/
def lastPairs (ps : List ((Nat × Nat) × Word)) : List ((Nat × Nat) × Word) :=
  ((ps.map (·.1)).dedup).map (fun a => (a, ((ps.reverse.find? (fun p => p.1 == a)).map (·.2)).getD 0))

/-- The accesses that the reading back of a slice takes (R413, R416). -/
def sliceAccesses (segs : List Seg) : Nat :=
  segs.foldl (fun n g => if g.type = 2 ∨ g.type = 3 then n + (segPieces g).length else n) 0

/-- The reading of the TCM bytes and registers that SLICE_LOAD wrote: false where one meets an uncorrectable word or an error
response (R394 INTERNAL). -/
def sliceReads (segs : List Seg) (c : Chip) : Bool × Chip :=
  let r := segs.foldl (fun (r : Bool × Chip) g => match (if g.type = 2 then coreOfTarget g.target else none) with
    | some k =>
      if g.data.isEmpty then r
      else if !domainsUp r.2 (tcmKey k g.dest) then (false, pdaccf r.2)
      else let e := eccRange (tcmKey k g.dest) g.data.length r.2; (r.1 && e.1, e.2)
    | none => r) (true, c)
  (r.1 && (allPairs segs).all (fun p => p.1.1 != 0xFFFF || rwMask p.1.2 == 0 || (mgeRead p.1.2 r.2).got.isSome), r.2)

/-- The addresses at which TCM bytes and then RW fields differ from the container. -/
def sliceDiffs (segs : List Seg) (c : Chip) : List Nat :=
  segs.flatMap (fun g => match (if g.type = 2 then coreOfTarget g.target else none) with
    | some k => ((List.range g.data.length).filter (fun i =>
        memByte c (tcmKey k (g.dest + i)) != g.data[i]?.getD 0)).map (fun i => tcmKey k (g.dest + i))
    | none => []) ++
  ((lastPairs (allPairs segs)).filter (fun p =>
    let a := p.1.2
    match (if p.1.1 = 0xFFFF then none else coreOfTarget p.1.1) with
    | some k => (privRead k (a - 0xE0000000) c ^^^ p.2) &&& privMask k (a - 0xE0000000) != 0
    | none => (leOfCtl a).isNone && (((mgeRead a c).got.getD 0 ^^^ p.2) &&& rwMask a) != 0)).map (·.1.2)

end Sys2Proof.Machine
end

