-- ==== Sys2Proof/Machine/CmdRun.lean ====
section
/-! DEFINITION. What each command does once its checks have passed, the long operations, and the heartbeat (17 R397 to
R417). -/

namespace Sys2Proof.Machine

/-- The status and results of a command. -/
abbrev Answer := Nat × List Byte

def wordBytes (w : Word) : List Byte := leBytes 4 w.toNat

def updCmd (f : Cmd → Cmd) (c : Chip) : Chip := { c with cmd := f c.cmd }

/-! ### Long operations (R397) -/

/-- The long operation ends: its second reply, LONGF. Its reply is under the session in force now (R417). -/
def longEnd (status : Nat) (res : List Byte) (c : Chip) : Chip :=
  match c.cmd.long with
  | none => c
  | some l =>
    let c := (updCmd (fun m => { m with long := none }) c).setBits (cmdR 4) 8
    cmdReply (if pkAuth l.pkt then .force else .no) l.pkt status true res c

/-- The long operation in progress, where its opcode is `o`. -/
def longIs (c : Chip) (o : Nat) : Option LongCmd := c.cmd.long.filter (fun l => pkOpc l.pkt == o)

/-- The parameters of a long operation, kept in its packet in the clear. -/
def longParams (l : LongCmd) : List Byte := pkRaw l.pkt

/-- SESSION_OPEN completes (18 R427). -/
def sessionOpenEnd (c : Chip) : Chip :=
  match longIs c 0x04 with
  | none => c
  | some l =>
    let ps := longParams l
    let r := sessionOpenRun (ps.take 96) (ps.drop 96) c
    longEnd r.1.1 r.1.2 r.2

/-- LOAD_END completes (R400): verification, the TCM segments, LOADED; or SESSION. -/
def loadEndEnd (c : Chip) : Chip :=
  match longIs c 0x12 with
  | none => c
  | some _ =>
    let sg := (stageGet c.cmd.base c.cmd.length c).1.map (fun bs => sha384 (bs.take (bs.length - 96)))
    let r := verifyCont none c.cmd.base c.cmd.length c
    let fail (st code : Nat) (c : Chip) : Chip :=
      longEnd st (BitVec.ofNat 8 code :: [0, 0, 0] ++ sg.getD (List.replicate 48 0)) (enterState 3 c)
    match r.1 with
    | none => fail 0x30 0 r.2
    | some (code, segs) =>
      if code ≠ 0 then fail 0x20 code r.2
      else
        let t := applyTcm segs r.2
        if !t.1 then fail 0x30 0 t.2
        else longEnd 0 ([0, 0, 0, 0] ++ sg.getD [])
          (enterState 5 (updCmd (fun m => { m with digest := sg.getD [] }) t.2))

/-- APPLY_CONFIG starts (R401): CONFIGURED, and the container counts as applied (18 R424, R437). -/
def applyStart (c : Chip) : Chip :=
  let bs := ((stageGet c.cmd.base c.cmd.length c).1).getD []
  let c := updCmd (fun m => { m with applied := some (contAnchor bs, contRoll bs), sliceUse := BitVec.ofNat 16 (contUse bs),
                                     further := m.applied.isSome,
                                     heldLe := [], winSet := false }) c
  let c := (c.setFld (secR 0) 2 1 (contAnchor bs)).setBits (secR 0) 8
  revokeRecheck (enterState 6 c)

/-- The work of the long operation in progress: begun with `ts` where it has not begun, and then as far as it goes in this
cycle; what is left of it is kept. -/
def longTasks (l : LongCmd) (ts : List MgeTask) (c : Chip) : TaskEnd × Chip :=
  let r := taskStep (l.todo.getD ts) l.got c
  (r.1, updCmd (fun m => { m with long := m.long.map (fun l => { l with todo := some r.1.left, got := r.1.got }) }) r.2)

/-- The reload traffic of SLICE_LOAD goes on: one access where its share of the port allows it (R416). -/
def reloadTasks (l : LongCmd) (ts : List MgeTask) (c : Chip) : TaskEnd × Chip :=
  let left := l.todo.getD ts
  let r := if c.now < l.due then (({ status := none, left := left, got := l.got }, 0), c) else reloadOne left l.got c
  let due := if r.1.2 = 0 then l.due else c.now + r.1.2 * reloadGap c
  (r.1.1, updCmd (fun m => { m with long := m.long.map (fun l =>
    { l with todo := some r.1.1.left, got := r.1.1.got, due := due }) }) r.2)

/-- APPLY_CONFIG goes on (R401): a further one removes every linked action first; it completes with its last segment or the one that
fails. -/
def applyEnd (c : Chip) : Chip :=
  match longIs c 0x13 with
  | none => c
  | some l =>
    let go (ts : List MgeTask) (c : Chip) : Chip :=
      let t := longTasks l ts c
      match t.1.status with
      | some (st, ix) => longEnd st (leBytes 4 ix) t.2
      | none => t.2
    if l.todo.isSome then go [] c
    else
      let r := stageGet c.cmd.base c.cmd.length c
      match r.1.bind contSegs with
      | none => longEnd 0x30 (leBytes 4 0) r.2
      | some segs => go ((if c.cmd.further then removeTasks c else []) ++ imageTasks segs) r.2

/-! ### Slices (R411 to R415) -/

def updSlice (s : Fin 12) (f : Slice → Slice) (c : Chip) : Chip := { c with slices := vmod c.slices s f }

/-- Loop engine `j` of a slice. -/
def leOf (s : Fin 12) (j : Fin 2) : Fin 24 := ⟨2 * s.val + j.val, by omega⟩

/-- XL_CFG.EN and LE_CTL.RUN of the slice written 0 (R411, R414). -/
def quiet (s : Fin 12) (c : Chip) : Chip :=
  (withLive s (fun c =>
    let c := xlCfgWrite .mge s (c.reg (xlR s.val 0) &&& ~~~ (1 : Word)) c
    ((), leCtlWrite (leOf s 1) 0 (leCtlWrite (leOf s 0) 0 c))) c).2

/-- The channels of the slice no longer wait for their pattern. -/
def drainStop (s : Fin 12) (c : Chip) : Chip :=
  let c := (chansFin s).foldl (fun (c : Chip) (n : Fin 96) => updPwm n (fun p => { p with draining := false }) c) c
  c.unschedule (fun e => match e with
    | .drainLimit n => n.val / 8 == s.val
    | .sliceDrainComplete => true
    | _ => false)

/-- SLICE_DRAIN is applied in the present cycle (R411). In MODE 0 the outputs take their safe levels in the next (R136). -/
def drainStart (s : Fin 12) (mode : Nat) (pat : Word) (c : Chip) : Chip :=
  let c := drainStop s c
  let c := updSlice s (fun x => { x with patCode := pat, drainAt := c.now, drainLast := c.now + 1,
                                         pattern := if mode = 0 then [] else List.replicate 16 none }) c
  if mode = 0 then setCause causeStop s.val c
  else
    let c := setCause causeStop s.val c
    (chansFin s).foldl (fun (c : Chip) (n : Fin 96) =>
      (updPwm n (fun p => { p with draining := true }) c).schedule (if c.bit (pwmR n 0) 0 then 500000 else 1)
        (.drainLimit n)) c

/-- SLICE_DRAIN completes once every output holds (R411); the slice is DRAINING from then (R410; DEDUCED, log 141). -/
def drainEnd (c : Chip) : Chip :=
  match longIs c 0x40 with
  | none => c
  | some l =>
    let s : Fin 12 := Fin.ofNat 12 (fldAt (longParams l) 0 1)
    let x := c.slices[s]
    if (chansFin s).any (fun n => c.pwms[n].draining) || decide (c.now < x.drainLast) then c
    else
      let c := updSlice s (fun y => { y with recXl := c.bit (xlR s.val 0) 0, recLe0 := c.bit (leR (leOf s 0) 0) 0,
                                             recLe1 := c.bit (leR (leOf s 1) 0) 0 }) c
      longEnd 0 (leBytes 4 (x.drainLast - x.drainAt)) (setSliceState s.val slDraining (quiet s c))

/-- SLICE_LOAD goes on (R412): verification, then the work of its container; the slice is RELOADING when it ends (R410; DEDUCED,
log 141). -/
def sliceLoadEnd (c : Chip) : Chip :=
  match longIs c 0x41 with
  | none => c
  | some l =>
    let ps := longParams l
    let s : Fin 12 := Fin.ofNat 12 (fldAt ps 0 1)
    let base := fldAt ps 1 4
    let len := fldAt ps 5 4
    let answer (st code : Nat) (hs : List Word) (c : Chip) : Chip :=
      longEnd st ([BitVec.ofNat 8 code, BitVec.ofNat 8 hs.length, 0, 0] ++ hs.flatMap wordBytes)
        (setSliceState s.val slReloading c)
    let go (ts : List MgeTask) (c : Chip) : Chip :=
      let t := withLive s (reloadTasks l ts) c
      match t.1.status with
      | some (st, _) => answer st 0 t.1.got t.2
      | none => t.2
    if l.todo.isSome then go [] c
    else
      let r := verifyCont (some s) base len c
      match r.1 with
      | none => answer 0x30 0 [] r.2
      | some (code, segs) =>
        if code ≠ 0 then answer 0x20 code [] r.2
        else go (sliceTasks segs) (updCmd (fun m => { m with reload := m.reload.set s (base, len),
                                                             heldLe := m.heldLe.filter (fun e => e.1 / 2 != s.val) }) r.2)

/-- CORE_LOCK of both loop engines of a slice, as the low bits of a byte. -/
def sliceLocks (s : Fin 12) (c : Chip) : Nat :=
  (c.bit (lockR (.le (leOf s 0))) 0).toNat + 2 * (c.bit (lockR (.le (leOf s 1))) 0).toNat

/-- The end of SLICE_VERIFY: the results of R398, and with VERIFY_FAIL the detail code of R409 after them (log 136). -/
def verifyDone (s : Fin 12) (status code : Nat) (diffs : List Nat) (c : Chip) : Chip :=
  longEnd status (leBytes 4 diffs.length ++ leBytes 4 (diffs.headD 0) ++ [BitVec.ofNat 8 (sliceLocks s c)] ++
      (if status = 0x20 then [BitVec.ofNat 8 code] else []))
    (setSliceState s.val (if status = 0 then slVerifying else slReloading) c)

/-- The comparison of SLICE_VERIFY; on a match the held LE_CTL writes, from which LOCKTMO runs (R413). -/
def verifyCompare (s : Fin 12) (c : Chip) : Chip :=
  let r := stageGet (c.cmd.reload[s]).1 (c.cmd.reload[s]).2 c
  match r.1.bind contSegs with
  | none => verifyDone s 0x30 0 [] r.2
  | some segs =>
    let r := sliceReads segs r.2
    let diffs := sliceDiffs segs r.2
    if !r.1 then verifyDone s 0x30 0 [] r.2
    else if diffs ≠ [] then verifyDone s 0x20 10 diffs r.2
    else
      let held := r.2.cmd.heldLe.filter (fun e => e.1 / 2 == s.val)
      let c := updCmd (fun m => { m with heldLe := m.heldLe.filter (fun e => e.1 / 2 != s.val),
                                         startedLe := ((held.filter (fun e => e.2.bit 0)).map (·.1)).dedup,
                                         long := m.long.map (fun l => { l with out := some (0, []), start := r.2.now }) }) r.2
      (withLive s (fun c => ((), held.foldl (fun (c : Chip) e => leCtlWrite (Fin.ofNat 24 e.1) e.2 c) c)) c).2

/-- SLICE_VERIFY begins: the reading back takes its share of the ports (R416). -/
def verifyBegin (s : Fin 12) (c : Chip) : Chip :=
  let r := stageGet (c.cmd.reload[s]).1 (c.cmd.reload[s]).2 c
  match r.1.bind contSegs with
  | none => verifyDone s 0x30 0 [] r.2
  | some segs => updCmd (fun m => { m with long := m.long.map (fun l =>
      { l with todo := some [], due := c.now + reloadGap c * sliceAccesses segs }) }) r.2

/-- SLICE_VERIFY goes on (R413): the reading back, the comparison; then it waits for CORE_LOCK of the engines started, LOCKTMO µs
at most. -/
def sliceVerifyEnd (c : Chip) : Chip :=
  match longIs c 0x42 with
  | none => c
  | some l =>
    let s : Fin 12 := Fin.ofNat 12 (fldAt (longParams l) 0 1)
    if l.todo.isNone then verifyBegin s c
    else if c.now < l.due then c
    else
    let c := if l.out.isNone then verifyCompare s c else c
    if c.cmd.long.isNone then c
    else if c.cmd.startedLe.all (fun n => c.bit (lockR (.le (Fin.ofNat 24 n))) 0) then verifyDone s 0 0 [] c
    else if l.start + 500 * c.fld (cmdR 0x14) 16 16 ≤ c.now then verifyDone s 0x20 11 [] c
    else c

/-- TRITON_REINTEGRATE completes when the reintegration has ended (R416). -/
def reintegrateEnd (c : Chip) : Chip :=
  match longIs c 0x50 with
  | none => c
  | some l =>
    if c.tri.isSome then c
    else longEnd (if triIn c (fldAt (longParams l) 0 1) then 0 else 0x30) (wordBytes (c.reg (triR 0x10))) c

/-- The long operation in progress goes on. -/
def longStep (c : Chip) : Chip :=
  match c.cmd.long with
  | none => c
  | some l =>
    match pkOpc l.pkt with
    | 0x04 => sessionOpenEnd c
    | 0x12 => loadEndEnd c
    | 0x13 => applyEnd c
    | 0x40 => drainEnd c
    | 0x41 => sliceLoadEnd c
    | 0x42 => sliceVerifyEnd c
    | _ => reintegrateEnd c

/-- A long operation on slice `s` is ended by a later command (R397, R417). -/
def longCut (s : Fin 12) (c : Chip) : Chip :=
  match c.cmd.long with
  | some l =>
    if 0x40 ≤ pkOpc l.pkt ∧ pkOpc l.pkt ≤ 0x42 ∧ fldAt (longParams l) 0 1 = s.val then longEnd 0x13 [] c else c
  | none => c

/-! ### The commands -/

/-- SESSION_CONFIRM (18 R427): the pending session is in force. -/
def confirm (c : Chip) : Chip :=
  match c.cmd.pend with
  | none => c
  | some s =>
    let c := updCmd (fun m => { m with session := some s, pend := none }) c
    let c := c.putBit (secR 0) 4 s.factory.isSome
    if c.devState = 2 then enterState 3 c else c

/-- LOAD_BEGIN (R400). -/
def loadBegin (base len : Nat) (c : Chip) : Chip :=
  let c := updCmd (fun m => { m with base := base, length := len, digest := [] }) c
  let c := (c.setReg 0x45000010 (BitVec.ofNat 32 base)).setReg 0x45000014 (BitVec.ofNat 32 ((base + len + 31) / 32 * 32 - 32))
  enterState 4 c

/-- The locks of SEAL and the state SEALED (R402, 18 R431; 05 R138). -/
def sealLocks (c : Chip) : Chip :=
  let c := allCores.foldl (fun (c : Chip) k => eachLane k (fun c => c.setBits (lockR k) 1) c) c
  let c := (List.range 12).foldl (fun (c : Chip) s => c.clrBits (safecfgR s) (2 ^ 7)) c
  let c := if c.cmd.winSet then c else (c.setReg 0x45000010 0).setReg 0x45000014 0
  haltScan (enterState 7 c)

/-- SEAL (R402, 18 R424, R425): a fuse bit that fails to program ends it with INTERNAL and no lock. -/
def sealNow (c : Chip) : Answer × Chip :=
  let r := sealFuses c
  if r.1 then ((0, r.2.cmd.digest), sealLocks r.2) else ((0x30, []), r.2)

/-- START (R403, R410). From SAFE it ends the STOP cause of the slices that run (DEDUCED, log 54); where STOP came before the first
START, it does all that a START from SEALED does. -/
def startNow (c : Chip) : Chip :=
  let again := c.devState = 9 ∧ c.cmd.hbArmed = true
  let c := if again then
      (List.range 12).foldl (fun (c : Chip) s => if sliceState c s = slRunning then clrCause causeStop s c else c) c
    else
      let c := (CoreId.triton :: (List.finRange 4).map CoreId.app).foldl (fun (c : Chip) k => coreRelease k c) c
      let c := c.cmd.heldLe.foldl (fun (c : Chip) e => leCtlWrite (Fin.ofNat 24 e.1) e.2 c) c
      let c := updCmd (fun m => { m with heldLe := [] }) c
      (List.range 12).foldl (fun (c : Chip) s =>
        if c.cmd.sliceUse.getLsbD s then setSliceState s slRunning (clrCause causeStop s c)
        else setSliceState s slIdle c) c
  enterState 8 (updCmd (fun m => { m with hbArmed := true, hbFrom := c.now }) c)

/-- The results of STATUS (R398). -/
def statusBytes (c : Chip) : List Byte :=
  [BitVec.ofNat 8 c.devState, BitVec.ofNat 8 (triMode c)] ++
  (List.range 12).map (fun s => BitVec.ofNat 8 (sliceState c s)) ++ [0, 0] ++
  wordBytes c.capTime ++ leBytes 4 c.flt.log.length ++ leBytes 4 (hbCount c)

/-- FAULT_LOG: up to `n` entries popped. -/
def popFaults : Nat → Chip → List FltEntry × Chip
  | 0, c => ([], c)
  | n + 1, c =>
    if c.flt.log = [] then ([], c)
    else let p := fltPop c; let r := popFaults n p.2; (p.1 :: r.1, r.2)

def fltBytes (e : FltEntry) : List Byte := wordBytes e.w0 ++ wordBytes e.w1 ++ wordBytes e.w2 ++ wordBytes e.w3

/-- CLEAR_FAULT: one source, or all. -/
def clearFaults (n : Nat) (c : Chip) : Chip :=
  if n = 0xFFFF then (List.range 8).foldl (fun (c : Chip) w => clearPend w 0xFFFFFFFF c) c
  else clearPend (n / 32) (BitVec.ofNat 32 (2 ^ (n % 32))) c

/-- SLICE_RESUME (R414). -/
def resumeSlice (s : Fin 12) (c : Chip) : Chip :=
  let x := c.slices[s]
  let c := if sliceState c s.val = slDraining then
      (withLive s (fun c =>
        let c := if x.recXl then xlCfgWrite .mge s (c.reg (xlR s.val 0) ||| 1) c else c
        let c := if x.recLe0 then leCtlWrite (leOf s 0) 1 c else c
        ((), if x.recLe1 then leCtlWrite (leOf s 1) 1 c else c)) c).2
    else c
  setSliceState s.val slRunning (clrCause causeStop s.val c)

/-- SLICE_FENCE (R414, R417). -/
def fenceSlice (s : Fin 12) (c : Chip) : Chip :=
  let c := drainStop s (longCut s c)
  let c := updSlice s (fun x => { x with pattern := [] }) c
  setSliceState s.val slFenced (quiet s (setCause causeStop s.val c))

/-- SLICE_SUBSTITUTE (R415). -/
def substitute (f p : Fin 12) (c : Chip) : Chip :=
  let c := (List.range 16).foldl (fun (c : Chip) j =>
    (c.setReg (xbarR (16 * f.val + j)) (BitVec.ofNat 32 (16 * p.val + j))).setReg (xbarR (16 * p.val + j)) 0xFF) (copySoon c)
  let c := c.setReg (slR p.val 4) (BitVec.ofNat 32 f.val)
  (c.setBits (slR f.val 0) 8).setFld (slR f.val 0) 4 4 p.val

/-- RESET with scope 1 or 2 (R405). -/
def resetTarget (scope t : Nat) (c : Chip) : Chip :=
  if scope = 1 then match coreOfTarget t with
    | some k => coreRestart k c
    | none => c
  else if h : t < 12 then sliceReset ⟨t, h⟩ (drainStop ⟨t, h⟩ (longCut ⟨t, h⟩ c)) else c

/-- The command itself, after its checks: the status, the results, the state. A long operation answers ACCEPTED. -/
def cmdDo (o : Nat) (ps : List Byte) (c : Chip) : Answer × Chip :=
  let s : Fin 12 := Fin.ofNat 12 (fldAt ps 0 1)
  let ok (c : Chip) : Answer × Chip := ((0, []), c)
  match o with
  | 0x01 => ((0, ps), c)
  | 0x02 => ((if c.bit (llR 4) 0 then 0x18 else 0,
      [BitVec.ofNat 8 (ownAddr c), BitVec.ofNat 8 (bootMode c)] ++ devidBytes c.fuses), c)
  | 0x03 => ((0, devidBytes c.fuses ++ leBytes 2 Config.siliconRev.toNat ++ leBytes 2 Config.romVersion.toNat ++
      [BitVec.ofNat 8 (fuseCount c.fuses), BitVec.ofNat 8 (c.reg (secR 0xC)).toNat] ++ idPublic c), c)
  | 0x05 => ok (confirm c)
  | 0x10 => ok (loadBegin (fldAt ps 0 4) (fldAt ps 4 4) c)
  | 0x11 =>
    let r := putBytes ps.length (c.cmd.base + fldAt ps 0 4) (ps.drop 4) c
    ((if r.1 then 0 else 0x30, []), r.2)
  | 0x14 => sealNow c
  | 0x15 => ok (startNow c)
  | 0x16 => ok (enterState 9 (setCauseAll causeStop c))
  | 0x21 =>
    let c := mgeWrite (fldAt ps 0 4) (BitVec.ofNat 32 (fldAt ps 4 4)) c
    ((if c.resp.ok then 0 else 0x12, []), c)
  | 0x30 => ((0, statusBytes c), c)
  | 0x31 =>
    let r := popFaults (fldAt ps 0 1) c
    ((0, [BitVec.ofNat 8 r.1.length, 0, 0, 0] ++ r.1.flatMap fltBytes), r.2)
  | 0x32 => ok (clearFaults (fldAt ps 0 2) c)
  | 0x43 => ok (resumeSlice s c)
  | 0x44 => ok (fenceSlice s c)
  | 0x45 => ok (substitute s (Fin.ofNat 12 (fldAt ps 1 1)) c)
  | 0x60 =>
    let code := tokenCode c.fuses ps
    if code = 0 then ok (debugGrant ps c) else ((0x20, [BitVec.ofNat 8 code]), c)
  | 0x61 => ((0, ps.take 4 ++ wordBytes c.capTime), updCmd (fun m => { m with hbFrom := c.now }) c)
  | 0x7F => ok (resetTarget (fldAt ps 0 1) (fldAt ps 1 1) c)
  | _ => ok c

/-- A long operation starts. Its packet is kept with its parameters in the clear. -/
def longStart (a : CmdAuth) (pkt : List Byte) (o : Nat) (ps : List Byte) (c : Chip) : Chip :=
  let tail := if pkAuth pkt then List.replicate 16 0 else []
  let c := updCmd (fun m => { m with long := some { pkt := pkt.take 8 ++ ps ++ tail, start := c.now, due := c.now, out := none, todo := none, got := [] } }) c
  let c := if o = 0x13 then applyStart c
    else if o = 0x40 then drainStart (Fin.ofNat 12 (fldAt ps 0 1)) (fldAt ps 1 1) (BitVec.ofNat 32 (fldAt ps 2 4)) c
    else if o = 0x50 then reintStart (fldAt ps 0 1) c
    else c
  cmdReply a pkt 1 false [] c

/-- RESET with scope 0: the reply, then device reset (R405); the reply stays the last one made. -/
def resetDevice (a : CmdAuth) (pkt : List Byte) (c : Chip) : Chip :=
  let c := cmdReply a pkt 0 false [] c
  updCmd (fun m => { m with reply := c.cmd.reply }) (deviceReset (bootMode c) rcCmd 0 c)

/-- The reads of READ and READ_BLOCK, word by word: none where one ends in error; what is left where a target has not answered. -/
def readWords : List Nat → List Word → Chip → Option (List Nat × List Word) × Chip
  | [], got, c => (some ([], got), c)
  | a :: as, got, c =>
    if readWaits c .mge a then (some (a :: as, got), peaWant .mge a c)
    else
      let c := mgeRead a c
      match c.got with
      | none => (none, c)
      | some w => readWords as (got ++ [w]) c

/-- READ or READ_BLOCK goes on; it is answered with its last word or at an error response (R404). -/
def readStep (h : HeldRead) (c : Chip) : Chip :=
  let r := readWords h.addrs h.got c
  match r.1 with
  | none => cmdReply h.auth h.pkt 0x12 false [] (cmdRefused false (updCmd (fun m => { m with held := none }) r.2))
  | some ([], ws) => cmdReply h.auth h.pkt 0 false (ws.flatMap wordBytes) (updCmd (fun m => { m with held := none }) r.2)
  | some (as, ws) => updCmd (fun m => { m with held := some { h with addrs := as, got := ws } }) r.2

/-- The addresses of READ or READ_BLOCK. -/
def readAddrs (o : Nat) (ps : List Byte) : List Nat :=
  if o = 0x20 then [fldAt ps 0 4] else (List.range (fldAt ps 4 2)).map (fun i => fldAt ps 0 4 + 4 * i)

/-- A command that passed its checks. -/
def cmdPass (a : CmdAuth) (pkt : List Byte) (o : Nat) (ps : List Byte) (c : Chip) : Chip :=
  if cmdLong o then longStart a pkt o ps c
  else if o = 0x7F ∧ fldAt ps 0 1 = 0 then resetDevice a pkt c
  else if o = 0x20 ∨ o = 0x22 then readStep { auth := a, pkt := pkt, addrs := readAddrs o ps, got := [] } c
  else
    let r := cmdDo o ps c
    let c := if r.1.1 = 0x12 then cmdRefused false r.2 else r.2
    cmdReply (if o = 5 then .force else a) pkt r.1.1 false r.1.2 c

/-- Steps 3 to 9 of R393 and the command. -/
def cmdChecked (pkt : List Byte) (c : Chip) : Chip :=
  let o := pkOpc pkt
  match cmdAuth c pkt with
  | none => cmdRefuse .no pkt 0x14 c
  | some a =>
    if !cmdSeqOk c a pkt then cmdRefuse a pkt 0x17 c
    else
      let ps := pkParams (authSession c a) pkt
      let c := cmdConsume a pkt c
      let st := cmdStateCheck c o ps
      if st ≠ 0 then cmdRefuse a pkt st c
      else
        let st := cmdParamCheck c o (pkFlags pkt) ps
        if st ≠ 0 then cmdRefuse a pkt st c else cmdPass a pkt o ps c

/-- The MGE takes a command packet (R392, R393). In POWERED no frame reaches it, in LINKED only ENUM frames do (R396). -/
def cmdRun (pkt : List Byte) (c : Chip) : Chip :=
  if c.devState = 0 ∨ (c.devState = 1 ∧ pkOpc pkt ≠ 2) then c
  else if pkt.length < 8 ∨ 1000 < pkt.length then cmdRefuse .no pkt 0x11 c
  else if !cmdListed (pkOpc pkt) then cmdRefuse .no pkt 0x10 c
  else cmdChecked pkt c

/-- STOP and HEARTBEAT are taken ahead of every waiting command (R392). -/
def urgent (pkt : List Byte) : Bool := pkOpc pkt == 0x16 || pkOpc pkt == 0x61

/-- The next command of the queue is taken; none while a read waits for its target. -/
def cmdTake (c : Chip) : Chip :=
  match c.cmd.held with
  | some h => readStep h c
  | none =>
    let q := c.cmd.queue
    match (q.find? urgent).or q.head? with
    | some pkt => cmdRun pkt (updCmd (fun m => { m with queue := q.erase pkt }) c)
    | none => c

/-! ### The heartbeat (R406) -/

/-- The count reaches PERIOD. -/
def heartbeatExpire (c : Chip) : Chip :=
  if c.cmd.hbArmed ∧ c.fld (cmdR 0xC) 0 16 ≠ 0 then
    let n := hbCount c
    updCmd (fun m => { m with hbFrom := c.now }) (raiseFault 150 (BitVec.ofNat 32 n) (c.setBits (cmdR 4) 2))
  else c

def heartbeatLate (c : Chip) : Bool :=
  c.cmd.hbArmed && c.fld (cmdR 0xC) 0 16 != 0 && decide (c.fld (cmdR 0xC) 0 16 ≤ hbCount c)

/-- The watchdog in the present cycle: a HEARTBEAT accepted in it comes first (R417). -/
def heartbeatTurn (c : Chip) : Chip := if heartbeatLate c then heartbeatExpire c else c

/-- Whether a channel under a hand-off drain takes its pattern without a zero boundary: one that is stopped in the cycle after, one
that runs after 1 ms (R411). -/
def drainLimit (n : Fin 96) (c : Chip) : Bool :=
  decide ((c.slices[Fin.ofNat 12 (n.val / 8)]).drainAt + (if c.bit (pwmR n 0) 0 then 500000 else 1) ≤ c.now)

end Sys2Proof.Machine
end

