-- ==== Sys2Proof/Machine/Command.lean ====
section
/-! DEFINITION. The commands of the host (17): a packet that reaches the head of the queue and is taken. A command row acts
on packets of its own opcode. -/

namespace Sys2Proof.Machine

/-- A packet of opcode `o` is taken by the MGE (R392, R393), or waits in line while a read waits for its target. -/
def takeAs (o : Nat) (pkt : List Byte) (c : Chip) : Chip :=
  if pkt.length = 0 ∨ pkOpc pkt ≠ o then c
  else if c.cmd.held.isSome then cmdArrive pkt c
  else cmdRun pkt c

/-- PING (R398). -/
def execPing (pkt : List Byte) (s : State) : Host.Outcome State Fault Refusal := s.onChip (takeAs 0x01 pkt)

/-- ENUMERATE (R398, R399). -/
def execEnumerate (pkt : List Byte) (s : State) : Host.Outcome State Fault Refusal := s.onChip (takeAs 0x02 pkt)

/-- IDENTIFY (R398). -/
def execIdentify (pkt : List Byte) (s : State) : Host.Outcome State Fault Refusal := s.onChip (takeAs 0x03 pkt)

/-- SESSION_OPEN (18 R427). -/
def execSessionOpen (pkt : List Byte) (s : State) : Host.Outcome State Fault Refusal := s.onChip (takeAs 0x04 pkt)

/-- SESSION_CONFIRM (18 R427). -/
def execSessionConfirm (pkt : List Byte) (s : State) : Host.Outcome State Fault Refusal := s.onChip (takeAs 0x05 pkt)

/-- LOAD_BEGIN (R400). -/
def execLoadBegin (pkt : List Byte) (s : State) : Host.Outcome State Fault Refusal := s.onChip (takeAs 0x10 pkt)

/-- LOAD_SEGMENT (R400). -/
def execLoadSegment (pkt : List Byte) (s : State) : Host.Outcome State Fault Refusal := s.onChip (takeAs 0x11 pkt)

/-- LOAD_END (R400). -/
def execLoadEnd (pkt : List Byte) (s : State) : Host.Outcome State Fault Refusal := s.onChip (takeAs 0x12 pkt)

/-- APPLY_CONFIG (R401). -/
def execApplyConfig (pkt : List Byte) (s : State) : Host.Outcome State Fault Refusal := s.onChip (takeAs 0x13 pkt)

/-- SEAL (R402). -/
def execSeal (pkt : List Byte) (s : State) : Host.Outcome State Fault Refusal := s.onChip (takeAs 0x14 pkt)

/-- START (R403). -/
def execStart (pkt : List Byte) (s : State) : Host.Outcome State Fault Refusal := s.onChip (takeAs 0x15 pkt)

/-- STOP (R403). -/
def execStop (pkt : List Byte) (s : State) : Host.Outcome State Fault Refusal := s.onChip (takeAs 0x16 pkt)

/-- READ (R404). -/
def execRead (pkt : List Byte) (s : State) : Host.Outcome State Fault Refusal := s.onChip (takeAs 0x20 pkt)

/-- WRITE (R404). -/
def execWrite (pkt : List Byte) (s : State) : Host.Outcome State Fault Refusal := s.onChip (takeAs 0x21 pkt)

/-- READ_BLOCK (R404). -/
def execReadBlock (pkt : List Byte) (s : State) : Host.Outcome State Fault Refusal := s.onChip (takeAs 0x22 pkt)

/-- STATUS (R398). -/
def execStatus (pkt : List Byte) (s : State) : Host.Outcome State Fault Refusal := s.onChip (takeAs 0x30 pkt)

/-- FAULT_LOG (R398). -/
def execFaultLog (pkt : List Byte) (s : State) : Host.Outcome State Fault Refusal := s.onChip (takeAs 0x31 pkt)

/-- CLEAR_FAULT (R398). -/
def execClearFault (pkt : List Byte) (s : State) : Host.Outcome State Fault Refusal := s.onChip (takeAs 0x32 pkt)

/-- SLICE_DRAIN (R411). -/
def execSliceDrain (pkt : List Byte) (s : State) : Host.Outcome State Fault Refusal := s.onChip (takeAs 0x40 pkt)

/-- SLICE_LOAD (R412). -/
def execSliceLoad (pkt : List Byte) (s : State) : Host.Outcome State Fault Refusal := s.onChip (takeAs 0x41 pkt)

/-- SLICE_VERIFY (R413). -/
def execSliceVerify (pkt : List Byte) (s : State) : Host.Outcome State Fault Refusal := s.onChip (takeAs 0x42 pkt)

/-- SLICE_RESUME (R414). -/
def execSliceResume (pkt : List Byte) (s : State) : Host.Outcome State Fault Refusal := s.onChip (takeAs 0x43 pkt)

/-- SLICE_FENCE (R414). -/
def execSliceFence (pkt : List Byte) (s : State) : Host.Outcome State Fault Refusal := s.onChip (takeAs 0x44 pkt)

/-- SLICE_SUBSTITUTE (R415). -/
def execSliceSubstitute (pkt : List Byte) (s : State) : Host.Outcome State Fault Refusal := s.onChip (takeAs 0x45 pkt)

/-- TRITON_REINTEGRATE (R416). -/
def execTritonReintegrate (pkt : List Byte) (s : State) : Host.Outcome State Fault Refusal := s.onChip (takeAs 0x50 pkt)

/-- DEBUG_UNLOCK (18 R433). -/
def execDebugUnlock (pkt : List Byte) (s : State) : Host.Outcome State Fault Refusal := s.onChip (takeAs 0x60 pkt)

/-- HEARTBEAT (R406). -/
def execHeartbeat (pkt : List Byte) (s : State) : Host.Outcome State Fault Refusal := s.onChip (takeAs 0x61 pkt)

/-- RESET (R405). -/
def execReset (pkt : List Byte) (s : State) : Host.Outcome State Fault Refusal := s.onChip (takeAs 0x7F pkt)

/-- SESSION_OPEN_COMPLETE (18 R427). -/
def execSessionOpenComplete (s : State) : Host.Outcome State Fault Refusal := s.onChip sessionOpenEnd

/-- LOAD_END_COMPLETE (R400, R409). -/
def execLoadEndComplete (s : State) : Host.Outcome State Fault Refusal := s.onChip loadEndEnd

/-- APPLY_CONFIG_COMPLETE (R401). -/
def execApplyConfigComplete (s : State) : Host.Outcome State Fault Refusal := s.onChip applyEnd

/-- SLICE_DRAIN_COMPLETE (R411). -/
def execSliceDrainComplete (s : State) : Host.Outcome State Fault Refusal := s.onChip drainEnd

/-- SLICE_LOAD_COMPLETE (R412). -/
def execSliceLoadComplete (s : State) : Host.Outcome State Fault Refusal := s.onChip sliceLoadEnd

/-- SLICE_VERIFY_COMPLETE (R413). -/
def execSliceVerifyComplete (s : State) : Host.Outcome State Fault Refusal := s.onChip sliceVerifyEnd

/-- HEARTBEAT_EXPIRY (R406). -/
def execHeartbeatExpiry (s : State) : Host.Outcome State Fault Refusal := s.onChip heartbeatTurn

/-- DRAIN_LIMIT (R411): a channel without a zero boundary takes the pattern. -/
def execDrainLimit (n : Fin 96) (s : State) : Host.Outcome State Fault Refusal := 
  s.onChip (fun c => if drainLimit n c then drainTake n (32 * c.now) c else c)

/-- CMD_REJCNT (R418): a read, which clears it. -/
def execCmdRejcnt (ini : Initiator) (s : State) : Host.Outcome State Fault Refusal := s.onChip (busRead ini (cmdR 0x18))

end Sys2Proof.Machine
end

