-- ==== Sys2Proof/Machine/Conv.lean ====
section
/-! DEFINITION. The commands of the converters (06). -/

namespace Sys2Proof.Machine

/-- ADC_TRIGGER (R147): a pulse of trigger `t`. -/
def execAdcTrigger (k : Fin 32) (t : Fin 2) (s : State) : Host.Outcome State Fault Refusal := s.onChip (adcTrig k t)

/-- ADC_SWSTART (R147). -/
def execAdcSwstart (ini : Initiator) (k : Fin 32) (v : Word) (s : State) : Host.Outcome State Fault Refusal :=
  s.onChip (gatedWrite ini (adcR k 0x10) (adcSwWrite k v))

/-- SAMPLE_INSTANT (R149, R155): the acquisition in progress ends. -/
def execSampleInstant (k : Fin 32) (s : State) : Host.Outcome State Fault Refusal := s.onChip (adcSample k)

/-- CONVERSION_COMPLETE (R149). -/
def execConversionComplete (k : Fin 32) (s : State) : Host.Outcome State Fault Refusal := s.onChip (adcFinish k)

/-- ADC_ENABLE (R160): the write of ADC_CFG that sets EN. -/
def execAdcEnable (ini : Initiator) (k : Fin 32) (v : Word) (s : State) : Host.Outcome State Fault Refusal :=
  s.onChip (gatedWrite ini (adcR k 0) (adcCfgWrite ini k v))

/-- ADC_READY (R160). -/
def execAdcReady (k : Fin 32) (s : State) : Host.Outcome State Fault Refusal := s.onChip (adcReadyNow k)

/-- ADC_DISABLE (R160): the write of ADC_CFG that clears EN. -/
def execAdcDisable (ini : Initiator) (k : Fin 32) (v : Word) (s : State) : Host.Outcome State Fault Refusal :=
  s.onChip (gatedWrite ini (adcR k 0) (adcCfgWrite ini k v))

/-- ADC_QPOPL (R158). -/
def execAdcQpopl (ini : Initiator) (k : Fin 32) (s : State) : Host.Outcome State Fault Refusal :=
  s.onChip (gatedRead ini (adcR k 0x18) (adcQpop k ini))

/-- ADC_RESL[j] (R158). -/
def execAdcResl (ini : Initiator) (k : Fin 32) (j : Fin 8) (s : State) : Host.Outcome State Fault Refusal :=
  s.onChip (gatedRead ini (adcR k (0x80 + 4 * j.val)) (adcRes k j ini))

/-- ADC_CNT: the read that clears both counts (R172). -/
def execAdcCnt (ini : Initiator) (k : Fin 32) (s : State) : Host.Outcome State Fault Refusal :=
  s.onChip (gatedRead ini (adcR k 0x20) (fun c => c.readClear (adcR k 0x20)))

/-- SDM_OUTPUT (R162, R163): modulator bits are sampled, the last of them the one that completes an output. -/
def execSdmOutput (k : Fin 32) (bits : List Bool) (s : State) : Host.Outcome State Fault Refusal :=
  s.onChip (fun c => bits.foldl (fun (c : Chip) b => sdmBit k b c) c)

/-- SDM_SYNC (R162): a pulse on EVC[256 + g]. -/
def execSdmSync (g : Fin 8) (s : State) : Host.Outcome State Fault Refusal := s.onChip (sdmSyncNow g)

/-- FAST_PATH_THRESHOLD (R164, R165): modulator bits are sampled, the last of them the one that crosses. -/
def execFastPathThreshold (k : Fin 32) (bits : List Bool) (s : State) : Host.Outcome State Fault Refusal :=
  s.onChip (fun c => bits.foldl (fun (c : Chip) b => sdmBit k b c) c)

/-- FAST_PATH_SETTLED (R164). -/
def execFastPathSettled (k : Fin 32) (s : State) : Host.Outcome State Fault Refusal := s.onChip (sdmSettle k)

/-- SDM_CLKLOSS (R166). -/
def execSdmClkloss (k : Fin 32) (s : State) : Host.Outcome State Fault Refusal := s.onChip (sdmLoss k true)

/-- STUCK (R166). -/
def execStuck (k : Fin 32) (s : State) : Host.Outcome State Fault Refusal := s.onChip (sdmLoss k false)

/-- SDM_LOSS_END (R166). -/
def execSdmLossEnd (k : Fin 32) (s : State) : Host.Outcome State Fault Refusal :=
  s.onChip (fun c => sdmLossOver k false (sdmLossOver k true c))

/-- SDM_QPOPL (R163). -/
def execSdmQpopl (ini : Initiator) (k : Fin 32) (s : State) : Host.Outcome State Fault Refusal :=
  s.onChip (gatedRead ini (sdmR k 0x18) (sdmQpop k ini))

end Sys2Proof.Machine
end

