-- ==== Sys2Proof/Machine/CoreMem.lean ====
section
/-! DEFINITION. Loads, stores and atomics of the cores (12 R289 to R291; 11 R266, R279; 13 R298 to R304, R310, R320;
09 R214 to R220). -/

namespace Sys2Proof.Machine

/-- An outstanding load of the same 8-byte block completes first (13 R298). -/
def waitBlock (k : CoreId) (a n : Nat) (c : Chip) : Chip :=
  completeIf k (fun o => match o.kind with
    | .sram b m _ => decide (b / 8 ≤ (a + n - 1) / 8) && decide (a / 8 ≤ (b + m - 1) / 8)
    | _ => false) c

/-- The ADC whose ADC_QPOPL an address is, where the loop engine's own slice has it (09 R215). -/
def samplePort (k : CoreId) (a : Nat) : Option (Fin 32 × Nat) :=
  match k with
  | .le n =>
    let b := 0x40000000 + 0x10000 * (n.val / 2) + 0x4000
    if a = b + 0x18 then some (Fin.ofNat 32 (2 * (n.val / 2)), n.val % 2 + 1)
    else if a = b + 0x818 then some (Fin.ofNat 32 (2 * (n.val / 2) + 1), n.val % 2 + 1)
    else none
  | _ => none

/-- Whether an address is in the register block of a loop engine's own slice, which it reaches by the slice-local path (09 R214). -/
def sliceLocal (k : CoreId) (a : Nat) : Bool :=
  match k with
  | .le n => decide (a / 0x10000 = 0x4000 + n.val / 2)
  | _ => false

/-- Whether a loop engine reaches an address through the cluster port I11 (09 R214). -/
def clusterPath (k : CoreId) (a : Nat) : Bool :=
  (match k with
   | .le _ => true
   | _ => false) &&
  decide (tcmSize k ≤ a) && !sliceLocal k a && (peaWordOf a).isNone && !(decide (0xE0000000 ≤ a) && decide (a < 0xE0100000))

/-- Whether a doubleword store of a loop engine reaches PWM staging words of its own slice (09 R217). -/
def sqdPair (k : CoreId) (a : Nat) : Bool :=
  sliceLocal k a && decide (a / 0x1000 % 0x10 = 1) && decide (0xA0 ≤ a % 0x200) && decide (a % 0x200 < 0xC0)

/-- Ranges that take aligned words only (00 R4, 09 R218, 03 R75). -/
def wordsOnly (a : Nat) : Bool :=
  registerRange a || privRange' a || (decide (0x20000000 ≤ a) && decide (a < 0x21000800))
where
  privRange' (a : Nat) : Bool := decide (0xE0000000 ≤ a) && decide (a < 0xE0100000)

/-! ### Accesses outside the core's memory -/

/-- A word or less read through the core's bus, the Pea port or the sample port; the answer is in `resp`. -/
def devRead (k : CoreId) (a n : Nat) (c : Chip) : Chip :=
  if n ≠ 4 && wordsOnly a then c.err
  else if wordsOnly.privRange' a then c.answer (privRead k (a - 0xE0000000) c)
  else match k, peaWordOf a, samplePort k a with
    | .le m, some w, _ => peaPort m w none true c
    | _, _, some (adc, who) =>
      let r := adcPop adc who c
      (adcKeep adc (iniIx (coreIni k)) r.1 r.2).answer (recLow r.1)
    | _, _, _ => if memWindow a then windowGet (coreIni k) a n c else busRead (coreIni k) a c

/-- A word or less written through the core's bus or the Pea port. -/
def devWrite (k : CoreId) (a n x : Nat) (c : Chip) : Chip :=
  if n ≠ 4 && wordsOnly a then c.err
  else if wordsOnly.privRange' a then privWrite k (a - 0xE0000000) (BitVec.ofNat 32 x) c.ack
  else match k, peaWordOf a with
    | .le m, some w => peaPort m w (some (BitVec.ofNat 32 x)) true c
    | _, _ => if memWindow a then windowPut (coreIni k) a n x c else busWrite (coreIni k) a (BitVec.ofNat 32 x) c

/-! ### Loads -/

/-- A register of a load: general, or floating-point. -/
def landReg (cx : Cx) (fp : Bool) (rd : Fin 32) (v : Word) (c : Chip) : Chip :=
  if fp then updCore cx.k (fun s => { s with f := s.f.set rd v }) c
  else updBank cx.k cx.b (fun x => x.setG rd v) c

/-- An error that the bank takes as vector 7 at its next instruction (13 R313). -/
def dataError (cx : Cx) (a : Nat) (c : Chip) : Chip :=
  updBank cx.k cx.b (fun x => { x with async := some (BitVec.ofNat 32 a) }) c

/-- An access that holds its bank until its target answers. -/
def stallOp (cx : Cx) (kind : LongKind) (fp : Bool) (rd : Option (Fin 32)) (c : Chip) : Chip :=
  updCore cx.k (fun s => { s with stalls := s.stalls ++
    [{ bank := cx.b, addr := cx.pc, kind := kind, fp := fp, rd := rd, reads := [], vflag := none,
       dz := false, qf := false, nzcv := none, ff := 0 }] }) c

/-- A load whose target does not answer in this cycle: its next attempt is in the next one (13 R298, R303). A loop engine's load from
system SRAM, and one in a repeat pair, keep PC at it until then; any other moves PC on (R304; 11 R269). -/
def stallLoad (cx : Cx) (n : Nat) (sgn fp : Bool) (rd : Fin 32) (a : Nat) (c : Chip) : Flow × Chip :=
  let c := peaWant (coreIni cx.k) a c
  let stay := inSram a || ((bankGet c cx.k cx.b).rep).isSome
  (if stay then .own else .next, stallOp cx (.wait a n sgn (c.now + 1) (if stay then some cx.nxt else none)) fp (some rd) c)

/-- A Pea-port access of a loop engine, or its write of PEA_CMT (no word): outside the home bank an error response; else PC stays at it
until it has been served (09 R220, R223). -/
def lePea (cx : Cx) (n : Fin 24) (w : Option Nat) (wr : Option Word) (rd : Option (Fin 32)) (a : Nat) (c : Chip) : Flow × Chip :=
  if w.any (fun w => w / 64 != n.val / 3) then (.exc 5 (some (BitVec.ofNat 32 a)) 0, c.setBits (leR n 4) (2 ^ 8))
  else (.own, stallOp cx (.pea w wr.isNone cx.nxt) false rd (peaAsk (iniIx (.le n)) n.val w wr false c))

/-- The loop engine and Pea word of an aligned word access on a Pea port; none where it is no such access. -/
def peaPortOf (k : CoreId) (a n : Nat) : Option (Fin 24 × Nat) :=
  match k, peaWordOf a with
  | .le m, some w => if n = 4 then some (m, w) else none
  | _, _ => none

/-- Whether a core's load waits: the target holds it back, one that would be let through (03 R72, R74, R78); or a path of a loop
engine answers later (09 R214). -/
def loadWaits (c : Chip) (k : CoreId) (a : Nat) : Bool :=
  readWaits c (coreIni k) a && decide (verdict c (coreIni k) a false = .ok)
def loadStalls (c : Chip) (k : CoreId) (a : Nat) : Bool :=
  loadWaits c k a || clusterPath k a || (sliceLocal k a && (samplePort k a).isNone)

/-- The instruction of an access with PC still at it is over. -/
def stallDone (k : CoreId) (o : LongOp) (nxt : Word) (c : Chip) : Chip :=
  instrDone { k := k, b := o.bank, pc := o.addr, nxt := nxt } c

/-- One word of a doubleword load; none where it ends in error, with whether that error is an uncorrectable word of the
core's memory. -/
def pairWord (k : CoreId) (a : Nat) (c : Chip) : Option Word × Bool × Chip :=
  let c := memNote k false a 4 0 c
  match corePlace k a with
  | some (.rom o) => (some (BitVec.ofNat 32 (romVal o 4)), false, c)
  | some (.mem key) =>
    if !domainsUp c key then (none, true, pdaccf c)
    else
      let r := if a < tcmSize k then tcmLoad k a 4 c else memRead key 4 c
      (r.1.map (fun x => BitVec.ofNat 32 x), true, r.2)
  | none =>
    if wordsOnly a then (none, false, c.err)
    else let c := devRead k a 4 c; (c.got, false, c)

/-- One part of a store: to the core's own memory, on NK-L through its store buffer (13 R296), to the bus or the Pea port. The Boolean says
that it ended in error. -/
def storePart (k : CoreId) (b : Fin 8) (a n x : Nat) (c : Chip) : Bool × Chip :=
  let c := memNote k true a n (x % 256 ^ n) c
  if !k.isNKS && decide (a + n ≤ tcmSize k) then (false, bufPut k b a n x c)
  else match corePlace k a with
  | some (.mem key) =>
    if !domainsUp c key then (true, pdaccf c)
    else let r := memWrite key n x c; (!r.1, r.2)
  | _ => let c := devWrite k a n x c; (!c.resp.ok, c)

/-- Whether an error of a store is precise: on the Pea port (13 R313). -/
def preciseStore (k : CoreId) (a : Nat) : Bool :=
  match k with
  | .le _ => (peaWordOf a).isSome
  | _ => false

/-- A store of a loop engine outside its TCM, the Pea store and its private range is on its way until a later cycle (09 R214). -/
def storeBuffered (k : CoreId) (a : Nat) : Bool := sliceLocal k a || clusterPath k a

/-- The store goes on its way, a doubleword as its two words, a cycle later for its second cycle (09 R217). -/
def bufferStore (cx : Cx) (n a x : Nat) (c : Chip) : Chip :=
  updCore cx.k (fun s => { s with stores := s.stores ++ (accessParts a n).map (fun p =>
    { bank := cx.b, addr := p.1, n := p.2, val := x / 256 ^ (p.1 - a) % 256 ^ p.2, due := if n = 8 then c.now + 2 else c.now + 1 }) }) c

/-- The loop engine whose aligned word store is a write of PEA_CMT that R13 lets through (09 R223). -/
def leCmt (k : CoreId) (a n : Nat) (c : Chip) : Option (Fin 24) :=
  match k with
  | .le m => if a = peaCmtR ∧ n = 4 ∧ verdict c (.le m) a true = .ok then some m else none
  | _ => none

/-! ### Words moved one by one on NK-S: CALLM, RETM and doubleword loads (13 R304; 11 R266, R270 to R272) -/

def slotsOff (k : CoreId) (p : LongOp) (c : Chip) : Chip := updCore k (fun s => { s with stalls := s.stalls.erase p }) c
def slotsSet (k : CoreId) (p : LongOp) (q : Slots) (c : Chip) : Chip :=
  updCore k (fun s => { s with stalls := s.stalls.erase p ++ [{ p with kind := .slots q }] }) c
def slotsCx (k : CoreId) (p : LongOp) (q : Slots) (c : Chip) : Cx :=
  { k := k, b := p.bank, pc := p.addr, nxt := q.nxt, due := recogDue c k }

/-- The word at the head has been moved, with its value where it was read; the next is for the next cycle. -/
def slotMoved (k : CoreId) (p : LongOp) (q : Slots) (v : Option Word) (c : Chip) : Chip :=
  let got := match q.left, v with
    | (_, r, _) :: _, some v => q.got ++ [(r, v)]
    | _, _ => q.got
  slotsSet k p { q with left := q.left.tail, got := got, due := some (c.now + 1) } c

/-- The word at the head faults: no register is written; the progress index of CALLM and RETM is 1 plus the words moved (R314). -/
def slotStop (k : CoreId) (p : LongOp) (q : Slots) (v : Nat) (fa : Option Word) (c : Chip) : Chip :=
  stopAt (slotsCx k p q c) v fa (if q.goto.isSome then (q.left.head?.map (·.1)).getD 0 + 1 else 0) c (slotsOff k p c)

/-- An error of the word at the head that is taken as vector 7 (R313): no register is written. -/
def slotLost (k : CoreId) (p : LongOp) (q : Slots) (a : Word) (c : Chip) : Chip :=
  dataError (slotsCx k p q c) a.toNat (slotsOff k p c)

/-- What a read of the word at the head has brought; `mem` says that an error is one of memory. -/
def slotGot (k : CoreId) (p : LongOp) (q : Slots) (a : Word) (v : Option Word) (mem : Bool) (c : Chip) : Chip :=
  match v with
  | some _ => slotMoved k p q v c
  | none => if mem then slotLost k p q a c else slotStop k p q 5 (some a) c

/-- The answer to the word at the head comes later, to an access of its own. -/
def slotAwait (k : CoreId) (p : LongOp) (q : Slots) (kind : LongKind) (c : Chip) : Chip :=
  stallOp (slotsCx k p q c) kind false none (slotsSet k p { q with due := none } c)

/-- One word is moved by the way that its address has (09 R214, R220). -/
def slotMove (k : CoreId) (p : LongOp) (q : Slots) (r : Fin 32) (a : Word) (c : Chip) : Chip :=
  let cx := slotsCx k p q c
  let x := (bankGet c k p.bank).gr r
  match peaPortOf k a.toNat 4, (if q.write then leCmt k a.toNat 4 c else none) with
  | some (m, w), _ =>
    if w / 64 != m.val / 3 then slotStop k p q 5 (some a) (c.setBits (leR m 4) (2 ^ 8))
    else slotAwait k p q (.pea (some w) (!q.write) q.nxt)
      (peaAsk (iniIx (.le m)) m.val (some w) (if q.write then some x else none) false c)
  | none, some m => slotAwait k p q (.pea none false q.nxt) (peaAsk (iniIx (.le m)) m.val none (some x) false c)
  | none, none =>
    if q.write then
      if storeBuffered k a.toNat then slotMoved k p q none (bufferStore cx 4 a.toNat x.toNat c)
      else
        let w := storePart k p.bank a.toNat 4 x.toNat c
        if w.1 then slotLost k p q a w.2 else slotMoved k p q none w.2
    else if loadStalls c k a.toNat then slotAwait k p q (.wait a.toNat 4 false (c.now + 1) (some q.nxt)) (peaWant (coreIni k) a.toNat c)
    else
      let v := if wordsOnly a.toNat then let c := devRead k a.toNat 4 c; (c.got, false, c) else pairWord k a.toNat c
      slotGot k p q a v.1 v.2.1 v.2.2

/-- The end of the instruction: the registers are written, and it goes on at its target. -/
def slotsEnd (k : CoreId) (p : LongOp) (q : Slots) (c : Chip) : Chip :=
  let put (r : Fin 32) (v : Option Word) (x : BankS) : BankS := match v with
    | some v => x.setG r v
    | none => x
  finish (slotsCx k p q c) c (match q.goto with
    | some t => .jump t
    | none => .next,
    updBank k p.bank (fun x => put (lrOf k) q.lr (put (spOf k) q.sp (q.got.foldl (fun (x : BankS) e => x.setG e.1 e.2) x))) (slotsOff k p c))

/-- One cycle of such an instruction, once the word before has been moved. -/
def slotTry (k : CoreId) (c : Chip) (p : LongOp) : Chip :=
  match p.kind with
  | .slots q =>
    if !q.due.any (fun d => decide (d ≤ c.now)) then c
    else match q.left with
      | [] => slotsEnd k p q c
      | (_, r, a) :: _ =>
        match accessExc (slotsCx k p q c) (if q.write then .write else .read) a.toNat 4 c with
        | some (.exc v fa _) => slotStop k p q v fa c
        | _ => slotMove k p q r a c
  | _ => c

/-- The instruction begins, with its first word in this cycle. -/
def slotsStart (cx : Cx) (q : Slots) (c : Chip) : Flow × Chip :=
  let p : LongOp := { bank := cx.b, addr := cx.pc, kind := .slots { q with due := some c.now, nxt := cx.nxt }, fp := false, rd := none,
                      reads := [], vflag := none, dz := false, qf := false, nzcv := none, ff := 0 }
  (.own, slotTry cx.k (updCore cx.k (fun s => { s with stalls := s.stalls ++ [p] }) c) p)

/-! ### Waiting accesses -/

/-- What a waiting load finds when its target answers: of system SRAM, or of a device. A loop engine's value by the slice-local path is
for the instruction of the cycle after (09 R214); an error leaves PC where it is for vector 5 (R299). -/
def stallAnswer (k : CoreId) (o : LongOp) (a n : Nat) (sgn : Bool) (nxt : Option Word) (c : Chip) : Chip :=
  if inSram a then
    let here (c : Chip) : Chip := match nxt with
      | some pc => stallDone k o pc c
      | none => c
    if domainsUp c a then completeOp k { o with kind := .sram a n sgn } (here c)
    else updBank k o.bank (fun x => { x with async := some (BitVec.ofNat 32 a) }) (here (pdaccf c))
  else
    let c := devRead k a n c
    let again (kind : LongKind) (c : Chip) : Chip := updCore k (fun s => { s with stalls := s.stalls ++ [{ o with kind := kind }] }) c
    match c.got, nxt with
    | some v, some pc =>
      if sliceLocal k a then again (.hold (extend n sgn v.toNat) c.now pc) c else landOp k o (extend n sgn v.toNat) (stallDone k o pc c)
    | none, some _ =>
      updBank k o.bank (fun x => { x with devErr := some ((x.rep.map (·.pre)).getD o.addr, BitVec.ofNat 32 a) }) c
    | some v, none =>
      let kind : LongKind := .device true (BitVec.ofNat 32 a) (extend n sgn v.toNat)
      if sliceLocal k a then again kind c else completeOp k { o with kind := kind } c
    | none, none =>
      if sliceLocal k a then again (.device false (BitVec.ofNat 32 a) 0) c else devFail k o (BitVec.ofNat 32 a) c

/-- A waiting load is tried again; one for a word of `Slots` answers that. -/
def stallTry (k : CoreId) (c : Chip) (o : LongOp) : Chip :=
  match o.kind with
  | .wait a n sgn due nxt =>
    if decide (c.now < due) || loadWaits c k a then c
    else
      let c := updCore k (fun s => { s with stalls := s.stalls.erase o }) c
      match bankSlots c k o.bank with
      | some (p, q) =>
        let v := if inSram a then pairWord k a c else let c := devRead k a 4 c; (c.got, false, c)
        slotGot k p q (BitVec.ofNat 32 a) v.1 v.2.1 v.2.2
      | none => stallAnswer k o a n sgn nxt c
  | _ => c

/-- What a served Pea access brings the instruction that holds the bank (09 R220). -/
def peaAnswer (k : CoreId) (o : LongOp) (w : Option Nat) (read : Bool) (nxt : Word) (c : Chip) : Chip :=
  let r : Option (Option Word × Chip) := match w, read with
    | some w, true => peaFetch (iniIx (coreIni k)) w c
    | _, _ => none
  let a : Word := BitVec.ofNat 32 (0x21000000 + 4 * w.getD 0)
  match bankSlots c k o.bank, r with
  | some (p, q), some (v, c) => slotGot k p q a v false c
  | some (p, q), none => slotMoved k p q none c
  | none, some (some v, c) => landOp k o v (stallDone k o nxt c)
  | none, some (none, c) => updBank k o.bank (fun x => { x with devErr := some ((x.rep.map (·.pre)).getD o.addr, a) }) c
  | none, none => stallDone k o nxt c

/-- What a core's accesses bring with the end of a cycle: values of the slice-local path, served Pea accesses, a divide that is over,
a transfer of the floating-point file that no recognition meets (13 R321), and FENCE once no store is on its way (09 R214, R220). -/
def stallEnd (k : CoreId) (c : Chip) : Chip :=
  (coreGet c k).stalls.foldl (fun (c : Chip) o =>
    let off (c : Chip) : Chip := updCore k (fun s => { s with stalls := s.stalls.erase o }) c
    match o.kind with
    | .device _ _ _ => completeOp k o (off c)
    | .drain nxt => if (coreGet c k).stores.isEmpty then stallDone k o nxt (off c) else c
    | .hold v due nxt => if due ≤ c.now then landOp k o v (stallDone k o nxt (off c)) else c
    | .fpFile due =>
      if c.now < due || recogDue c k then c
      else
        let r := fpReady k o.bank (off c)
        if r.1 then r.2 else raiseEx { k := k, b := o.bank, pc := o.addr, nxt := o.addr } 10 none 0 r.2
    | .pea w read nxt => if c.peaBus.reqs.any (fun r => r.ini == iniIx (coreIni k) && !r.cmd) then c else peaAnswer k o w read nxt (off c)
    | _ => c) c

/-- A store lands; an error is taken as vector 7 (13 R313). -/
def storeLand (k : CoreId) (t : PortStore) (c : Chip) : Chip :=
  let r := match corePlace k t.addr with
    | some (.mem key) => if !domainsUp c key then (false, pdaccf c) else memWrite key t.n t.val c
    | _ => let c := devWrite k t.addr t.n t.val c; (c.resp.ok, c)
  if r.1 then r.2 else updBank k t.bank (fun x => { x with async := some (BitVec.ofNat 32 t.addr) }) r.2

/-- The stores of a loop engine by the slice-local path land in their order, those that are due (09 R214, R217). -/
def sliceStores (n : Fin 24) (c : Chip) : Chip :=
  let ts := ((coreGet c (.le n)).stores.filter (fun t => sliceLocal (.le n) t.addr)).takeWhile (fun t => decide (t.due ≤ c.now))
  if ts.isEmpty then c
  else
    let c := updCore (.le n) (fun s => { s with stores := ts.foldl (fun l t => l.erase t) s.stores }) c
    ts.foldl (fun (c : Chip) t => storeLand (.le n) t c) c

/-- The next access of a loop engine through I11: its oldest store, else its load that the target does not hold back. -/
def clusterNext (c : Chip) (n : Fin 24) : Option (PortStore ⊕ LongOp) :=
  let s := coreGet c (.le n)
  match s.stores.find? (fun t => clusterPath (.le n) t.addr) with
  | some t => some (.inl t)
  | none => (s.stalls.find? (fun o => match o.kind with
      | .wait a _ _ due _ => clusterPath (.le n) a && decide (due ≤ c.now) && !loadWaits c (.le n) a
      | _ => false)).map Sum.inr

/-- The loop engines in the order in which I11 serves them next (09 R214). -/
def clusterOrder (c : Chip) : List (Fin 24) := (List.range 24).map (fun i => Fin.ofNat 24 (c.clus + 1 + i))

/-- The fabric target of an access through I11. -/
def clusterTarget (x : PortStore ⊕ LongOp) : Option (Fin 10) :=
  match x with
  | .inl t => fabTarget t.addr
  | .inr o => match o.kind with
    | .wait a _ _ _ _ => fabTarget a
    | _ => none

/-- The target that I11 asks the fabric for. -/
def clusterAsk (c : Chip) : Option (Fin 10) := ((clusterOrder c).findSome? (clusterNext c)).bind clusterTarget

/-- Whether a burst of a DMA engine holds a target (01 R16). -/
def targetHeld (c : Chip) (t : Option (Fin 10)) : Bool :=
  match t with
  | some t => (c.fab[t].granted.map (fun p => decide (6 ≤ p.val) && decide (p.val < 10))).getD false
  | none => false

/-- I11 serves one access of the 24 loop engines in a cycle, in round-robin order, where no burst holds its target (09 R214, 01 R16;
the rate by log 110). -/
def clusterCycle (c : Chip) : Chip :=
  match (clusterOrder c).find? (fun n => (clusterNext c n).any (fun x => !targetHeld c (clusterTarget x))) with
  | none => c
  | some n =>
    let c' := { c with clus := n.val }
    match clusterNext c n with
    | some (.inl t) => storeLand (.le n) t (updCore (.le n) (fun s => { s with stores := s.stores.erase t }) c')
    | some (.inr o) => stallTry (.le n) c' o
    | none => c'

/-- The accesses that wait, at the start of a cycle: stores first, then loads. -/
def stallCycle (c : Chip) : Chip :=
  let c := (List.finRange 24).foldl (fun (c : Chip) (n : Fin 24) => sliceStores n c) c
  let c := clusterCycle c
  allCores.foldl (fun (c : Chip) k => if k = .triton ∧ triStopped c then c else eachLane k (fun c =>
    (coreGet c k).stalls.foldl (fun (c : Chip) o => match o.kind with
      | .wait a _ _ _ _ => if clusterPath k a then c else stallTry k c o
      | .slots _ => slotTry k c o
      | _ => c) c) c) c

/-- The end of a device-space load whose answer stands in `resp`. On NK-S and in a repeat pair the answer comes before the
instruction ends; otherwise the load is long (13 R298, R299, R303). -/
def deviceLoad (cx : Cx) (n : Nat) (sgn fp : Bool) (rd : Fin 32) (ra : Fin 32) (a : Nat) (c : Chip) : Flow × Chip :=
  let c := devRead cx.k a n c
  let inline := cx.k.isNKS || ((bankGet c cx.k cx.b).rep).isSome
  match c.got with
  | some v =>
    let v := extend n sgn v.toNat
    if inline then (.next, landReg cx fp rd v c)
    else (.next, issue cx
      { bank := cx.b, addr := cx.pc, kind := .device true (BitVec.ofNat 32 a) v, fp := fp, rd := some rd,
        reads := [ra.val], vflag := none, dz := false, qf := false, nzcv := none, ff := 0 } c)
  | none =>
    if inline then (.exc 5 (some (BitVec.ofNat 32 a)) 0, c)
    else (.next, issue cx
      { bank := cx.b, addr := cx.pc, kind := .device false (BitVec.ofNat 32 a) 0, fp := fp, rd := some rd,
        reads := [ra.val], vflag := none, dz := false, qf := false, nzcv := none, ff := 0 } c)

/-- A load of `n` bytes to one register (R289). An SRAM group without power answers with an error, taken as the error of a
long load (log 49). -/
def loadAt (n : Nat) (sgn fp : Bool) (rd ra : Fin 32) (off : Word) (cx : Cx) (c : Chip) : Flow × Chip :=
  let a := ((bankGet c cx.k cx.b).gr ra + off).toNat
  match accessExc cx .read a n c with
  | some e => (e, c)
  | none =>
    let c := memNote cx.k false a n 0 (waitBlock cx.k a n c)
    match peaPortOf cx.k a n with
    | some (m, w) => lePea cx m (some w) none (some rd) a c
    | none =>
    if cx.k.isNKS && clusterPath cx.k a && (corePlace cx.k a).isSome then stallLoad cx n sgn fp rd a c
    else match corePlace cx.k a with
    | some (.rom o) => (.next, landReg cx fp rd (extend n sgn (romVal o n)) c)
    | some (.mem key) =>
      if !domainsUp c key then (.next, dataError cx a (pdaccf c))
      else if a < tcmSize cx.k && a % n == 0 then
        let r := tcmLoad cx.k a n c
        match r.1 with
        | some x => (.next, landReg cx fp rd (extend n sgn x) r.2)
        | none => (.next, dataError cx a r.2)
      else (.next, issue cx
        { bank := cx.b, addr := cx.pc, kind := .sram a n sgn, fp := fp, rd := some rd, reads := [ra.val],
          vflag := none, dz := false, qf := false, nzcv := none, ff := 0 } c)
    | none => if loadStalls c cx.k a then stallLoad cx n sgn fp rd a c else deviceLoad cx n sgn fp rd ra a c

/-- LDW with W (11 R266; 09 R215): a register pair, the lower-numbered register from the lower address. -/
def loadPair (rd ra : Fin 32) (off : Word) (cx : Cx) (c : Chip) : Flow × Chip :=
  let a := ((bankGet c cx.k cx.b).gr ra + off).toNat
  match accessExc cx .read a 8 c with
  | some e => (e, c)
  | none =>
    let put (lo hi : Word) (c : Chip) : Flow × Chip :=
      (.next, updBank cx.k cx.b (fun x => (x.setG rd lo).setG (pairReg rd) hi) c)
    match samplePort cx.k a with
    | some (adc, who) => let r := adcPop adc who c; put (recLow r.1) (recHigh r.1) r.2
    | none =>
      if clusterPath cx.k a && !wordsOnly a then
        slotsStart cx { write := false, left := [(0, rd, BitVec.ofNat 32 a), (1, pairReg rd, BitVec.ofNat 32 (a + 4))], got := [], sp := none,
                        lr := none, goto := none, nxt := cx.nxt, due := none } c
      else
      let l := pairWord cx.k a c
      match l.1 with
      | none => if l.2.1 then (.next, dataError cx a l.2.2) else (.exc 5 (some (BitVec.ofNat 32 a)) 0, l.2.2)
      | some lo =>
        let h := pairWord cx.k (a + 4) l.2.2
        match h.1 with
        | some hi => put lo hi h.2.2
        | none =>
          if h.2.1 then (.next, dataError cx (a + 4) h.2.2) else (.exc 5 (some (BitVec.ofNat 32 (a + 4))) 0, h.2.2)

/-! ### Stores -/

/-- How an instruction goes on after a store, which may have restarted or reset its own bank. -/
def afterStore (cx : Cx) (c : Chip) : Flow × Chip :=
  let s := coreGet c cx.k
  if s.running == some cx.b && bankPc s.banks[cx.b] == cx.pc then (.next, c) else (.own, c)

/-- A store of `n` bytes of `x` (R289); both halves of a split store write together, in the store buffer as one entry (13 R310). -/
def storeAt (n : Nat) (ra : Fin 32) (off : Word) (val : Chip → Nat) (cx : Cx) (c : Chip) : Flow × Chip :=
  let a := ((bankGet c cx.k cx.b).gr ra + off).toNat
  match accessExc cx .write a n c with
  | some e => (e, c)
  | none =>
    let c := waitBlock cx.k a n c
    let x := val c
    match peaPortOf cx.k a n, leCmt cx.k a n c with
    | some (m, w), _ => lePea cx m (some w) (some (BitVec.ofNat 32 x)) none a c
    | none, some m => lePea cx m none (some (BitVec.ofNat 32 x)) none a c
    | none, none =>
    if storeBuffered cx.k a && !(n = 8 && wordsOnly a && !sqdPair cx.k a) then (.next, bufferStore cx n a x c)
    else if !cx.k.isNKS && decide (a + n ≤ tcmSize cx.k) then (.next, bufPut cx.k cx.b a n x (memNote cx.k true a n (x % 256 ^ n) c))
    else if n = 8 && wordsOnly a then
      (if preciseStore cx.k a then (.exc 5 (some (BitVec.ofNat 32 a)) 0, c) else (.next, dataError cx a c))
    else
      let r := (accessParts a n).foldl (fun (r : Bool × Chip) p =>
        let w := storePart cx.k cx.b p.1 p.2 (x / 256 ^ (p.1 - a)) r.2
        (r.1 || w.1, w.2)) (false, c)
      if r.1 then (if preciseStore cx.k a then (.exc 5 (some (BitVec.ofNat 32 a)) 0, r.2) else afterStore cx (dataError cx a r.2))
      else afterStore cx r.2

/-- The value of a general register, of a pair, of a floating-point register. -/
def regVal (cx : Cx) (rd : Fin 32) (c : Chip) : Nat := ((bankGet c cx.k cx.b).gr rd).toNat
def pairVal (cx : Cx) (rd : Fin 32) (c : Chip) : Nat := regVal cx rd c + 2 ^ 32 * regVal cx (pairReg rd) c
def fregVal (cx : Cx) (fd : Fin 32) (c : Chip) : Nat := ((coreGet c cx.k).f[fd]).toNat

/-! ### Decode -/

def loadSpec (rd ra : Fin 32) : Spec := { gSpec [rd] [ra] [] with long := true }
def storeSpec (rd ra : Fin 32) : Spec := gSpec [] [ra, rd] []

/-- A W form: the pair of an even register, on NK-S only (11 R266). -/
def wSpec (k : CoreId) (rd ra : Fin 32) (sp : Spec) (load : Bool) : Spec :=
  { sp with
    gs := [rd, pairReg rd, ra], ok := k.isNKS && decide (rd.val % 2 = 0)
    reads := if load then sp.reads else sp.reads ++ [(pairReg rd).val]
    writes := if load then sp.writes ++ [(pairReg rd).val] else sp.writes }

/-- The floating-point loads and stores: NK-L only; they use the floating-point file. -/
def ldfSpec (fd ra : Fin 32) (off : Word) : Spec :=
  { nkl := true, nks := false, gs := [ra], ok := true, rep := true, reads := [ra.val], writes := [32 + fd.val],
    fp := true, long := true, acc := some (false, ra, off) }
def stfSpec (fd ra : Fin 32) (off : Word) : Spec :=
  { nkl := true, nks := false, gs := [ra], ok := true, rep := true, reads := [ra.val, 32 + fd.val], writes := [],
    fp := true, long := false, acc := some (true, ra, off) }

/-- LDB (R289). -/
def execLdb (h : Hdr) (rd ra : Fin 32) (off : Word) (s : State) : Host.Outcome State Fault Refusal :=
  s.onChip (instr h (loadSpec rd ra) (loadAt 1 true false rd ra off))

/-- LDBU (R289). -/
def execLdbu (h : Hdr) (rd ra : Fin 32) (off : Word) (s : State) : Host.Outcome State Fault Refusal :=
  s.onChip (instr h (loadSpec rd ra) (loadAt 1 false false rd ra off))

/-- LDH (R289). -/
def execLdh (h : Hdr) (rd ra : Fin 32) (off : Word) (s : State) : Host.Outcome State Fault Refusal :=
  s.onChip (instr h (loadSpec rd ra) (loadAt 2 true false rd ra off))

/-- LDHU (R289). -/
def execLdhu (h : Hdr) (rd ra : Fin 32) (off : Word) (s : State) : Host.Outcome State Fault Refusal :=
  s.onChip (instr h (loadSpec rd ra) (loadAt 2 false false rd ra off))

/-- LDW (R289), with W a register pair (11 R266). -/
def execLdw (h : Hdr) (w : Bool) (rd ra : Fin 32) (off : Word) (s : State) : Host.Outcome State Fault Refusal :=
  s.onChip (if w then instr h (wSpec h.core rd ra (loadSpec rd ra) true) (loadPair rd ra off)
            else instr h (loadSpec rd ra) (loadAt 4 false false rd ra off))

/-- LDF (R289). -/
def execLdf (h : Hdr) (fd ra : Fin 32) (off : Word) (s : State) : Host.Outcome State Fault Refusal :=
  s.onChip (instr h (ldfSpec fd ra off) (loadAt 4 false true fd ra off))

/-- STB (R289). -/
def execStb (h : Hdr) (rd ra : Fin 32) (off : Word) (s : State) : Host.Outcome State Fault Refusal :=
  s.onChip (instr h (storeSpec rd ra) (fun cx => storeAt 1 ra off (regVal cx rd) cx))

/-- STH (R289). -/
def execSth (h : Hdr) (rd ra : Fin 32) (off : Word) (s : State) : Host.Outcome State Fault Refusal :=
  s.onChip (instr h (storeSpec rd ra) (fun cx => storeAt 2 ra off (regVal cx rd) cx))

/-- STW (R289), with W a register pair (11 R266). -/
def execStw (h : Hdr) (w : Bool) (rd ra : Fin 32) (off : Word) (s : State) : Host.Outcome State Fault Refusal :=
  s.onChip (if w then instr h (wSpec h.core rd ra (storeSpec rd ra) false) (fun cx => storeAt 8 ra off (pairVal cx rd) cx)
            else instr h (storeSpec rd ra) (fun cx => storeAt 4 ra off (regVal cx rd) cx))

/-- STF (R289). -/
def execStf (h : Hdr) (fd ra : Fin 32) (off : Word) (s : State) : Host.Outcome State Fault Refusal :=
  s.onChip (instr h (stfSpec fd ra off) (fun cx => storeAt 4 ra off (fregVal cx fd) cx))

/-! ### Atomics (R291) -/

/-- An atomic: the word read, what it writes there if anything, and whether Z is written. -/
def atomicAt (rd ra rb : Fin 32) (new : Word → Word → Word → Option Word) (z : Bool) (cx : Cx) (c : Chip) : Flow × Chip :=
  let x := bankGet c cx.k cx.b
  let a := (x.gr ra).toNat
  let pr := privOf x.st
  let no (v : Nat) : Flow × Chip := (.exc v (some (x.gr ra)) 0, c)
  if a % 4 ≠ 0 then no 6
  else if splitRange cx.k a = 0 then no 5
  else if !(mpuOk c cx.k pr .read a && mpuOk c cx.k pr .write a) then no 5
  else
    let c := memNote cx.k false a 4 0 (drainStores cx.k (waitBlock cx.k a 4 c))
    match corePlace cx.k a with
    | some (.mem key) =>
      if !domainsUp c key then (.next, dataError cx a (pdaccf c))
      else
        let r := memRead key 4 c
        match r.1 with
        | none => (.next, dataError cx a r.2)
        | some m =>
          let t : Word := BitVec.ofNat 32 m
          let c := match new t (x.gr rd) (x.gr rb) with
            | some v => (memWrite key 4 v.toNat (memNote cx.k true a 4 v.toNat r.2)).2
            | none => r.2
          (.next, updBank cx.k cx.b (fun y =>
            let y := if z then { y with st := y.st.withBit stZ (t == x.gr rd) } else y
            y.setG rd t) c)
    | _ => no 5

/-- The atomics are NK-L only. -/
def atomicSpec (rd ra rb : Fin 32) (flags : List Nat) : Spec := { gSpec [rd] [ra, rb, rd] flags with nks := false }

/-- SWAP (R291). -/
def execSwap (h : Hdr) (rd ra rb : Fin 32) (s : State) : Host.Outcome State Fault Refusal :=
  s.onChip (instr h (atomicSpec rd ra rb []) (atomicAt rd ra rb (fun _ _ b => some b) false))

/-- CAS (R291). -/
def execCas (h : Hdr) (rd ra rb : Fin 32) (s : State) : Host.Outcome State Fault Refusal :=
  s.onChip (instr h (atomicSpec rd ra rb [flagR stZ])
    (atomicAt rd ra rb (fun t d b => if t = d then some b else none) true))

/-- AMOADD (R291). -/
def execAmoadd (h : Hdr) (rd ra rb : Fin 32) (s : State) : Host.Outcome State Fault Refusal :=
  s.onChip (instr h (atomicSpec rd ra rb []) (atomicAt rd ra rb (fun t _ b => some (t + b)) false))

/-- AMOAND (R291). -/
def execAmoand (h : Hdr) (rd ra rb : Fin 32) (s : State) : Host.Outcome State Fault Refusal :=
  s.onChip (instr h (atomicSpec rd ra rb []) (atomicAt rd ra rb (fun t _ b => some (t &&& b)) false))

/-- AMOOR (R291). -/
def execAmoor (h : Hdr) (rd ra rb : Fin 32) (s : State) : Host.Outcome State Fault Refusal :=
  s.onChip (instr h (atomicSpec rd ra rb []) (atomicAt rd ra rb (fun t _ b => some (t ||| b)) false))

end Sys2Proof.Machine
end

