-- ==== Sys2Proof/Machine/CoreBranch.lean ====
section
/-! DEFINITION. Branches, calls, returns and the register-mask calls (12 R292; 11 R262, R264, R270 to R272). -/

namespace Sys2Proof.Machine

/-- The target of a relative branch or call: on NK-L the instruction's own address + 2 × offset (R262), on NK-S the next
address + offset (R264). -/
def relTarget (cx : Cx) (off : Word) : Word := if cx.k.isNKS then cx.nxt + off else cx.pc + 2 * off

/-- lr holds the address of the next instruction. -/
def link (cx : Cx) (c : Chip) : Chip := updBank cx.k cx.b (fun x => x.setG (lrOf cx.k) cx.nxt) c

/-- Whether a register target raises the alignment exception (R262). -/
def oddTarget (k : CoreId) (t : Word) : Bool := !k.isNKS && t.bit 0

/-- BR (R292). -/
def execBr (h : Hdr) (off : Word) (s : State) : Host.Outcome State Fault Refusal :=
  s.onChip (instr h (sysSpec [] [] []) (fun cx c => (.jump (relTarget cx off), c)))

/-- CALL (R292). -/
def execCall (h : Hdr) (off : Word) (s : State) : Host.Outcome State Fault Refusal :=
  s.onChip (instr h (sysSpec [lrOf h.core] [] []) (fun cx c => (.jump (relTarget cx off), link cx c)))

/-- JR (R292). -/
def execJr (h : Hdr) (ra : Fin 32) (s : State) : Host.Outcome State Fault Refusal :=
  s.onChip (instr h (sysSpec [] [ra] []) (fun cx c =>
    let t := (bankGet c cx.k cx.b).gr ra
    if oddTarget cx.k t then (.exc 6 none 0, c) else (.jump t, c)))

/-- JLR (R292): the target is read before lr is written. -/
def execJlr (h : Hdr) (ra : Fin 32) (s : State) : Host.Outcome State Fault Refusal :=
  s.onChip (instr h (sysSpec [lrOf h.core] [ra] []) (fun cx c =>
    let t := (bankGet c cx.k cx.b).gr ra
    if oddTarget cx.k t then (.exc 6 none 0, c) else (.jump t, link cx c)))

/-- RET (R292). -/
def execRet (h : Hdr) (s : State) : Host.Outcome State Fault Refusal :=
  s.onChip (instr h (sysSpec [] [lrOf h.core] []) (fun cx c => (.jump ((bankGet c cx.k cx.b).gr (lrOf cx.k)), c)))

/-! ### CALLM and RETM -/

/-- The words of a register-mask call with their addresses from `base`: the named registers, then lr (R270). -/
def maskSlots (k : CoreId) (mask : BitVec 16) (base : Word) : List (Fin 32 × Word) :=
  (maskRegs k mask ++ [lrOf k]).zipIdx.map (fun p => (p.1, base + BitVec.ofNat 32 (4 * p.2)))

/-- A mask that the core kind has: eight bits on NK-S, bit 7 illegal (R270). -/
def maskOk (k : CoreId) (mask : BitVec 16) : Bool := !k.isNKS || decide (mask.toNat < 128)

/-- The pushes of CALLM on NK-L in order: the exception of the first word that the protection unit or the private range stops, with
1 plus the words moved; an error of a store ends it with its registers kept (R272; 13 R314, R320). -/
def pushSlots (cx : Cx) (xs : List (Nat × Fin 32 × Word)) (c : Chip) : Option Flow × Chip :=
  match xs with
  | [] => (none, c)
  | (i, r, a) :: rest =>
    match accessExc cx .write a.toNat 4 c with
    | some (.exc v fa _) => (some (.exc v fa (i + 1)), c)
    | some e => (some e, c)
    | none =>
      let w := storePart cx.k cx.b a.toNat 4 (regVal cx r c) (waitBlock cx.k a.toNat 4 c)
      if w.1 then (some .own, dataError cx a.toNat w.2) else pushSlots cx rest w.2

/-- The loads of RETM on NK-L in order: the values, or how the instruction ends without them (R272). -/
def popSlots (cx : Cx) (xs : List (Nat × Fin 32 × Word)) (got : List (Fin 32 × Word)) (c : Chip) :
    (Flow ⊕ List (Fin 32 × Word)) × Chip :=
  match xs with
  | [] => (.inr got, c)
  | (i, r, a) :: rest =>
    match accessExc cx .read a.toNat 4 c with
    | some (.exc v fa _) => (.inl (.exc v fa (i + 1)), c)
    | some e => (.inl e, c)
    | none =>
      let c := waitBlock cx.k a.toNat 4 c
      let w := if wordsOnly a.toNat then let c := devRead cx.k a.toNat 4 (memNote cx.k false a.toNat 4 0 c); (c.got, false, c)
        else pairWord cx.k a.toNat c
      match w.1 with
      | some v => popSlots cx rest (got ++ [(r, v)]) w.2.2
      | none =>
        if w.2.1 then (.inl .own, dataError cx a.toNat w.2.2) else (.inl (.exc 5 (some a) (i + 1)), w.2.2)

def indexed (xs : List (Fin 32 × Word)) : List (Nat × Fin 32 × Word) := xs.zipIdx.map (fun p => (p.2, p.1.1, p.1.2))

/-- What decode knows of CALLM and RETM: every named register, lr and sp. -/
def callmSpec (k : CoreId) (mask : BitVec 16) (rt : Fin 32) : Spec :=
  let rs := maskRegs k mask ++ [lrOf k, spOf k]
  { sysSpec [lrOf k, spOf k] (if k.isNKS then rs else rt :: rs) [] with ok := maskOk k mask }
def retmSpec (k : CoreId) (mask : BitVec 16) : Spec :=
  let rs := maskRegs k mask ++ [lrOf k, spOf k]
  { sysSpec rs [lrOf k, spOf k] [] with ok := maskOk k mask }

/-- The body of CALLM (R270, R272): on NK-S word by word (13 R304). -/
def callmBody (mask : BitVec 16) (rt : Fin 32) (off : Word) (cx : Cx) (c : Chip) : Flow × Chip :=
  let x := bankGet c cx.k cx.b
  let t := if cx.k.isNKS then relTarget cx off else x.gr rt
  let sp := x.gr (spOf cx.k)
  let base := sp - BitVec.ofNat 32 (4 * ((maskRegs cx.k mask).length + 1))
  if oddTarget cx.k t then (.exc 6 none 1, c)
  else if sp.toNat % 4 ≠ 0 then (.exc 6 (some base) 1, c)
  else if cx.k.isNKS then
    slotsStart cx { write := true, left := indexed (maskSlots cx.k mask base), got := [], sp := some base, lr := some cx.nxt, goto := some t,
                    nxt := cx.nxt, due := none } c
  else
    let r := pushSlots cx (indexed (maskSlots cx.k mask base)) c
    match r.1 with
    | some e => (e, r.2)
    | none => (.jump t, updBank cx.k cx.b (fun x => (x.setG (spOf cx.k) base).setG (lrOf cx.k) cx.nxt) r.2)

/-- CALLM (R270). -/
def execCallm (h : Hdr) (mask : BitVec 16) (rt : Fin 32) (off : Word) (s : State) : Host.Outcome State Fault Refusal :=
  s.onChip (instr h (callmSpec h.core mask rt) (callmBody mask rt off))

/-- The body of RETM (R271, R272): on NK-S word by word (13 R304). -/
def retmBody (mask : BitVec 16) (cx : Cx) (c : Chip) : Flow × Chip :=
  let x := bankGet c cx.k cx.b
  let sp := x.gr (spOf cx.k)
  let t := x.gr (lrOf cx.k)
  if sp.toNat % 4 ≠ 0 then (.exc 6 (some sp) 1, c)
  else if cx.k.isNKS then
    let ws := indexed (maskSlots cx.k mask sp)
    slotsStart cx { write := false, left := ws, got := [], sp := some (sp + BitVec.ofNat 32 (4 * ws.length)), lr := none, goto := some t,
                    nxt := cx.nxt, due := none } c
  else
    let r := popSlots cx (indexed (maskSlots cx.k mask sp)) [] c
    match r.1 with
    | .inl e => (e, r.2)
    | .inr vs => (.jump t, updBank cx.k cx.b (fun x =>
        (vs.foldl (fun (x : BankS) p => x.setG p.1 p.2) x).setG (spOf cx.k)
          (sp + BitVec.ofNat 32 (4 * vs.length))) r.2)

/-- RETM (R271). -/
def execRetm (h : Hdr) (mask : BitVec 16) (s : State) : Host.Outcome State Fault Refusal :=
  s.onChip (instr h (retmSpec h.core mask) (retmBody mask))

end Sys2Proof.Machine
end

