-- ==== Sys2Proof/Machine/DmaRun.lean ====
section
/-! DEFINITION. The engines of the DMA units (15 R348 to R359) and the commands of memory and DMA. Each step of an engine
is complete when it is taken (log 1). -/

namespace Sys2Proof.Machine

/-! ### Descriptor fetch (R351, R353) -/

/-- The control bridge and the peripheral bridge (01 R11). -/
def onBridge (a : Nat) : Bool := fabTarget a == some 8 || fabTarget a == some 9

/-- The address of row `r` of a transfer. -/
def rowAddr (base stride : Word) (r : Nat) : Nat := (base + stride * BitVec.ofNat 32 r).toNat

def descOf (a : Nat) (w : Vector Word 6) : DmaDesc :=
  { addr := a, src := w[0], dst := w[1], len := w[2].fld 0 25, rows := w[3].fld 0 16 + 1, tmode := w[3].fld 16 2,
    sstride := w[4], dstride := w[5] }

/-- A descriptor whose LEN, TMODE and must-be-0 bits are valid. -/
def descValid (w : Vector Word 6) : Bool :=
  w[2].fld 0 25 != 0 && w[2].fld 25 7 == 0 && w[3].fld 16 2 != 3 && w[3].fld 18 14 == 0

/-- The first row address on a bridge that breaks R353. -/
def misplaced (d : DmaDesc) : Option Nat :=
  let bad (a : Nat) : Bool := onBridge a && (a % 4 != 0 || d.len % 4 != 0)
  (((List.range d.rows).map (rowAddr d.src d.sstride)).find? bad).or
    (((List.range d.rows).map (rowAddr d.dst d.dstride)).find? bad)

/-- Words 0 to 5 of a descriptor; none with the address of a word that cannot be read. -/
def descWords (a : Nat) (c : Chip) : Vector Word 6 × Option Nat × Chip :=
  (List.finRange 6).foldl (fun (r : Vector Word 6 × Option Nat × Chip) (i : Fin 6) =>
    if r.2.1.isSome then r
    else
      let g := sramGet (a + 4 * i.val) 4 r.2.2
      match g.1 with
      | some x => (r.1.set i (BitVec.ofNat 32 x), none, g.2)
      | none => (r.1, some (a + 4 * i.val), g.2)) (Vector.replicate 6 0, none, c)

/-- Words 0 to 5 have come: the descriptor starts, or the channel enters ERROR. -/
def descFetched (u : Fin 2) (ch : Fin 32) (c : Chip) : Chip :=
  if dmaState c u ch ≠ dsFetch ∨ (dmaCh c u ch).abort.isSome then c
  else
    let a := (c.reg (dmaC u ch 0x14)).toNat
    let fly (q : Nat) : DmaFly := { seq := q, addr := a, rows := 0, allRead := false, rdone := 0, link := none }
    let q := (dmaCh c u ch).seq + 1
    if !descOk a then dmaError u ch 4 a none c
    else
      let w := descWords a c
      match w.2.1 with
      | some bad => dmaError u ch 5 bad (some (fly q)) w.2.2
      | none =>
        let d := descOf a w.1
        if !descValid w.1 then dmaError u ch 4 a (some (fly q)) w.2.2
        else match misplaced d with
          | some bad => dmaError u ch 6 bad (some (fly q)) w.2.2
          | none =>
            let c := updCh u ch (fun x => { x with seq := q, cur := some d, row := 0, pos := 0, rowOn := false,
                                                   fly := x.fly ++ [{ fly q with rows := d.rows }] }) w.2.2
            rowStart u ch c

/-! ### Read engine (R349, R350, R352) -/

/-- Source, destination and bytes of a channel's next read burst: the part of the row within one 64-byte block. -/
def nextBurst (x : DmaCh) (d : DmaDesc) : Nat × Nat × Nat :=
  let s := (rowAddr d.src d.sstride x.row + x.pos) % 2 ^ 32
  (s, (rowAddr d.dst d.dstride x.row + x.pos) % 2 ^ 32, min (d.len - x.pos) (64 - s % 64))

/-- Whether the target of a channel's next read holds it back (03 R72, R78). -/
def burstWaits (c : Chip) (u : Fin 2) (ch : Fin 32) : Bool :=
  match (dmaCh c u ch).cur with
  | none => false
  | some d =>
    let b := nextBurst (dmaCh c u ch) d
    !memWindow b.1 && (List.range ((b.2.2 + 3) / 4)).any (fun i => readWaits c (dmaIni u ch) (b.1 + 4 * i))

/-- Whether a channel is ready for a read burst, its target apart. -/
def readWants (c : Chip) (u : Fin 2) (ch : Fin 32) : Bool :=
  let x := dmaCh c u ch
  dmaState c u ch == dsActive && x.abort.isNone && x.rowOn && x.cur.isSome && decide (x.slots.length < dmaQuota c u ch) &&
  (!x.slots.isEmpty || decide (dmaContexts c u < 16))

/-- Whether a channel is ready for a read burst. -/
def readReady (c : Chip) (u : Fin 2) (ch : Fin 32) : Bool := readWants c u ch && !burstWaits c u ch

/-- A channel ready for a read burst from the Pea store asks for its words (09 R221). -/
def burstAsk (u : Fin 2) (ch : Fin 32) (c : Chip) : Chip :=
  match (dmaCh c u ch).cur with
  | none => c
  | some d =>
    let b := nextBurst (dmaCh c u ch) d
    if (peaWordOf b.1).isSome && readWants c u ch then
      (List.range ((b.2.2 + 3) / 4)).foldl (fun (c : Chip) i => peaWant (dmaIni u ch) (b.1 + 4 * i) c) c
    else c

/-- The first double-bit ECC word of `[k, k + n)`, as the address of its first byte. -/
def badWord (c : Chip) (k n : Nat) : Option Nat :=
  ((List.range n).map (fun i => (eccWord (k + i)).1)).find? (fun w => eccErr c w == some true)

/-- The bytes of `[a, a + n)` as one burst reads them, or the address of the word that ends it with an error response. -/
def burstGet (ini : Initiator) (a n : Nat) (c : Chip) : Except Nat (List Byte) × Chip :=
  if memWindow a then
    match verdict c ini a false with
    | .ok =>
      let lo := a / 8 * 8
      let m := (a + n + 7) / 8 * 8 - lo
      let r := eccRead lo m c
      (if r.1 then .ok ((List.range n).map (fun i => memByte r.2 (a + i))) else .error ((badWord c lo m).getD a), r.2)
    | v => (.error a, refuse v a c)
  else
    let r := (List.range ((n + 3) / 4)).foldl (fun (r : Except Nat (List Byte) × Chip) i =>
      match r.1 with
      | .error _ => r
      | .ok bs =>
        let c := busRead ini (a + 4 * i) r.2
        (match c.got with
         | some w => .ok (bs ++ leBytes 4 w.toNat)
         | none => .error (a + 4 * i), c)) (.ok [], c)
    (r.1.map (·.take n), r.2)

/-- Whether the target of a read burst answers one access at a time: the third port of the action memory, and the TCM of a loop engine
(03 R78, 09 R213). -/
def slowRead (a : Nat) : Bool := (decide (0x20000000 ≤ a) && decide (a < 0x20200000)) || inTcmWin a

/-- A row is over: the next one, or the end of the descriptor's reads with the read of its link word (R356). -/
def rowOver (u : Fin 2) (ch : Fin 32) (d : DmaDesc) (c : Chip) : Chip :=
  let c := updCh u ch (fun x => { x with row := x.row + 1, pos := 0, rowOn := false }) c
  let x := dmaCh c u ch
  if x.row < d.rows then rowStart u ch c
  else
    let c := updCh u ch (fun x => { x with cur := none, fly := x.fly.map (fun f =>
      if f.seq = x.seq then { f with allRead := true } else f) }) c
    linkIssue u ch c

/-- A read burst of channel `ch` is over: its data fill whole ECC words of its slot, or the channel enters ERROR (R349, R359). -/
def readEnd (u : Fin 2) (ch : Fin 32) (d : DmaDesc) (r : Except Nat (List Byte)) (c : Chip) : Chip :=
  let x := dmaCh c u ch
  match r with
  | .error bad => dmaError u ch 1 bad (x.fly.find? (fun f => f.seq == x.seq)) c
  | .ok bs =>
    let (_, t, n) := nextBurst x d
    let last := decide (d.len ≤ x.pos + n)
    let h := slotFree c u
    let c := (List.range 8).foldl (fun (c : Chip) i => eccClear (slotKey u h + 8 * i) c) c
    let c := updCh u ch (fun x => { x with pos := x.pos + n, part := none, slots := x.slots ++
      [{ seq := x.seq, home := h, dst := t, data := bs, last := last }] }) c
    if last then rowOver u ch d c else c

/-- The next access of a read burst that takes one at a time, once its target takes it (03 R78, 09 R213). -/
def partStep (u : Fin 2) (ch : Fin 32) (c : Chip) : Chip :=
  let x := dmaCh c u ch
  match x.part, x.cur with
  | some bs, some d =>
    let (s, _, n) := nextBurst x d
    let a := s + bs.length
    if readWaits c (dmaIni u ch) a then c
    else
      let c := busRead (dmaIni u ch) a c
      match c.got with
      | none => readEnd u ch d (.error a) c
      | some w =>
        let bs := bs ++ leBytes 4 w.toNat
        if n ≤ bs.length then readEnd u ch d (.ok (bs.take n)) c else updCh u ch (fun x => { x with part := some bs }) c
  | _, _ => c

/-- One read burst of channel `ch`. -/
def readOne (u : Fin 2) (ch : Fin 32) (c : Chip) : Chip :=
  let x := dmaCh c u ch
  match x.cur with
  | none => c
  | some d =>
    let (s, _, n) := nextBurst x d
    if slowRead s then partStep u ch (updCh u ch (fun x => { x with part := some [] }) c)
    else let r := burstGet (dmaIni u ch) s n c; readEnd u ch d r.1 r.2

def dmaWt (c : Chip) (u : Fin 2) (i : Nat) : Nat := c.fld (dmaR u.val (0x1000 + 0x40 * i)) 15 3 + 1

/-- Whether the read engine has a burst in progress. -/
def readBusy (c : Chip) (u : Fin 2) : Bool := (List.finRange 32).any (fun (ch : Fin 32) => (dmaCh c u ch).part.isSome)

/-- The grants of the engines of a unit, each by its own arbiter (R350). -/
def readGrant (c : Chip) (u : Fin 2) : Option (Nat × Arb) :=
  if readBusy c u then none else arbGrant 32 c.dmas[u].rd (fun i => readReady c u (Fin.ofNat 32 i)) (dmaWt c u)

/-- The read engine grants one burst at a time (R350). -/
def readEngine (u : Fin 2) (c : Chip) : Chip :=
  match readGrant c u with
  | some (i, a) => readOne u (Fin.ofNat 32 i) (updDma u (fun x => { x with rd := a }) c)
  | none => if readBusy c u then c
            else updDma u (fun x => { x with rd := arbRest 32 x.rd (fun i => readReady c u (Fin.ofNat 32 i)) }) c

/-! ### Write engine (R350, R352 to R354) -/

/-- Bytes written to a memory window, ECC word by ECC word; with the address of a word that ends in an error response. -/
def chunkPut (ini : Initiator) : Nat → Nat → List Byte → Chip → Option Nat × Chip
  | 0, _, _, c => (none, c)
  | n + 1, a, bs, c =>
    if bs.isEmpty then (none, c)
    else
      let w := eccWord a
      let k := w.1 + w.2 - a
      let part := bs.take k
      let c := windowPut ini a part.length (leNat part) c
      if c.resp.ok then chunkPut ini n (a + part.length) (bs.drop k) c else (some a, c)

def burstPut (ini : Initiator) (a : Nat) (bs : List Byte) (c : Chip) : Option Nat × Chip :=
  if memWindow a then chunkPut ini 16 a bs c
  else
    (List.range ((bs.length + 3) / 4)).foldl (fun (r : Option Nat × Chip) i =>
      if r.1.isNone then
        let c := busWrite ini (a + 4 * i) (BitVec.ofNat 32 (leNat ((bs.drop (4 * i)).take 4))) r.2
        (if c.resp.ok then none else some (a + 4 * i), c)
      else r) (none, c)

/-- One write burst of channel `ch`, within one 64-byte block of the destination; its slot is freed with its last byte. An
uncorrectable word of the slot ends the transfer with its destination as the faulting address (15 R342; log 111). -/
def writeOne (u : Fin 2) (ch : Fin 32) (c : Chip) : Chip :=
  match (dmaCh c u ch).slots with
  | [] => c
  | s :: rest =>
    let f := (dmaCh c u ch).fly.find? (fun f => f.seq == s.seq)
    let e := eccSpan (slotKey u s.home) 64 c
    let c := e.2
    if !e.1 then dmaError u ch 3 s.dst f c
    else
      let n := min s.data.length (64 - s.dst % 64)
      let r := burstPut (dmaIni u ch) s.dst (s.data.take n) c
      match r.1 with
      | some bad => dmaError u ch 2 bad f r.2
      | none =>
      if n < s.data.length then
        updCh u ch (fun x => { x with slots := { s with dst := (s.dst + n) % 2 ^ 32, data := s.data.drop n } :: rest }) r.2
      else
        updCh u ch (fun x => { x with slots := rest, fly := x.fly.map (fun f =>
          if f.seq = s.seq ∧ s.last then { f with rdone := f.rdone + 1 } else f) }) r.2

/-- Whether a channel has a filled slot to write: a write to a full LL_TXQ waits (R350; 16 R374). -/
def writeReady (c : Chip) (u : Fin 2) (ch : Fin 32) : Bool :=
  match (dmaCh c u ch).slots with
  | [] => false
  | s :: _ => !(decide (llR 0x1000 ≤ s.dst) && decide (s.dst < llR 0x2000)) || txqRoom c

def writeGrant (c : Chip) (u : Fin 2) : Option (Nat × Arb) :=
  arbGrant 32 c.dmas[u].wr (fun i => writeReady c u (Fin.ofNat 32 i)) (dmaWt c u)

def writeEngine (u : Fin 2) (c : Chip) : Chip :=
  match writeGrant c u with
  | some (i, a) => writeOne u (Fin.ofNat 32 i) (updDma u (fun x => { x with wr := a }) c)
  | none => updDma u (fun x => { x with wr := arbRest 32 x.wr (fun i => writeReady c u (Fin.ofNat 32 i)) }) c

/-! ### Link words and completion (R354, R356) -/

/-- The read of a link word returns (R356). Its must-be-0 bits make the descriptor invalid (R351). An error of the read that a doorbell
in IDLE_AT_END asked for is one in the descriptor at DMA_CCUR, which is complete (R359). -/
def linkWordTake (u : Fin 2) (ch : Fin 32) (c : Chip) : Chip :=
  let x := dmaCh c u ch
  if !x.link then c
  else
    let a := (c.reg (dmaC u ch 0x14)).toNat
    let done : DmaFly := { seq := x.seq, addr := a, rows := x.lastDone, allRead := true, rdone := x.lastDone, link := none }
    let f := (x.fly.find? (fun f => f.seq == x.seq)).or (some done)
    let g := sramGet (a + 24) 4 c
    match g.1 with
    | none => dmaError u ch 5 (a + 24) f g.2
    | some n =>
      let w : Word := BitVec.ofNat 32 n
      if w.fld 3 2 ≠ 0 then dmaError u ch 4 a f g.2
      else
        let c := updCh u ch (fun x => { x with link := false, fly := x.fly.map (fun f =>
          if f.seq = x.seq ∧ f.link.isNone then { f with link := some (w.bit 1, w.bit 2) } else f) }) g.2
        if !w.bit 0 then dmaFetch u ch (w &&& 0xFFFFFFE0).toNat c
        else if c.bit (cstatR u ch) 3 then linkIssue u ch c
        else if x.fly.isEmpty then dmaAtEnd u ch c
        else updCh u ch (fun x => { x with ending := true }) c

/-! ### Fabric grants (R346) -/

/-- The channel of DMA[1] whose burst an engine asks the fabric for: the one its own arbiter grants next. -/
def engineChan (c : Chip) (wr : Bool) : Option (Fin 32) :=
  (if wr then writeGrant c 1 else readGrant c 1).map (fun g => Fin.ofNat 32 g.1)

/-- The class of a port: 0 control, 1 management, 2 data (01 R16); a burst of DMA[1] has the class of its channel (R347). -/
def fabClass (c : Chip) (i : Nat) : Nat :=
  if i = 0 ∨ i = 11 then 0
  else if i = 5 then 1
  else if i = 8 ∨ i = 9 then
    match engineChan c (i == 9) with
    | some ch => if c.plane (dmaIni 1 ch) == .control then 0 else 2
    | none => 2
  else 2

/-- One grant at a fabric target (01 R16, 15 R346): Triton first, its grant leaving the pointer as it was. -/
def fabGrant (t : Fin 10) (reqs : BitVec 12) (c : Chip) : Chip :=
  let put (x : FabTarget) : Chip := { c with fab := vmod c.fab t (fun _ => x) }
  if reqs.getLsbD 0 then put { c.fab[t] with granted := some 0 }
  else
    let best := (List.range 3).find? (fun k => (List.range 12).any (fun i => reqs.getLsbD i && fabClass c i == k))
    match best with
    | none => put { arb := arbRest 12 c.fab[t].arb (fun i => reqs.getLsbD i), granted := none }
    | some k =>
      match arbGrant 12 c.fab[t].arb (fun i => reqs.getLsbD i && fabClass c i == k) (fabWeight c) with
      | some (i, a) => put { arb := a, granted := some (Fin.ofNat 12 i) }
      | none => c

/-! ### A cycle of the fabric and the engines (R348, R350) -/

/-- The address that engine port I[p], p = 6 to 9, asks the fabric for: that of the burst that its engine grants next (01 R11). -/
def engineAsk (c : Chip) (p : Nat) : Option Nat :=
  let u : Fin 2 := Fin.ofNat 2 ((p - 6) / 2)
  if p % 2 = 0 then (readGrant c u).bind (fun g =>
    let x := dmaCh c u (Fin.ofNat 32 g.1)
    x.cur.map (fun d => (nextBurst x d).1))
  else (writeGrant c u).bind (fun g => (dmaCh c u (Fin.ofNat 32 g.1)).slots.head?.map (·.dst))

/-- The ports that ask for target `t` at a burst boundary: the engines', where a slot that a write of the same boundary empties is free
for a read (01 R20), and the loop-engine cluster's. -/
def fabReqs (c : Chip) (t : Fin 10) : BitVec 12 :=
  let w := writeEngine 1 (writeEngine 0 c)
  let asks (p : Nat) : Bool := (engineAsk (if p % 2 = 0 then w else c) p).bind fabTarget == some t
  BitVec.ofNat 12 ((List.range 4).foldl (fun n i => if asks (6 + i) then n + 2 ^ (6 + i) else n)
    (if clusterAsk c == some t then 2 ^ 11 else 0))

/-- The grants of a burst boundary: a burst of 8 beats takes 8 cycles of CLK_L at its target, four of CLK_C (01 R11, R16). -/
def fabCycle (c : Chip) : Chip :=
  if c.now % 4 = 0 then
    let rs := (List.finRange 10).map (fun (t : Fin 10) => (t, fabReqs c t))
    rs.foldl (fun (c : Chip) (r : Fin 10 × BitVec 12) => fabGrant r.1 r.2 c) c
  else c

/-- Whether port I[p] may make its burst: its target has granted it, or no target serves the address. -/
def engineGo (c : Chip) (p : Nat) : Bool :=
  match engineAsk c p with
  | none => false
  | some a => match fabTarget a with
    | some t => c.fab[t].granted == some (Fin.ofNat 12 p)
    | none => true

/-- The bursts of the engines at a boundary, those of the control class or the others, writes before reads. -/
def fabBursts (ctl : Bool) (c : Chip) : Chip :=
  if c.now % 4 = 0 then
    [7, 9, 6, 8].foldl (fun (c : Chip) p =>
      if engineGo c p && decide (fabClass c p = 0) == ctl then
        (if p % 2 = 0 then readEngine else writeEngine) (Fin.ofNat 2 ((p - 6) / 2)) c
      else c) c
  else c

/-- What both units do in one cycle of CLK_C: fetches and link reads return, descriptors complete, and at a burst boundary each engine
moves one burst, which keeps the rate of R348; the bursts of control channels come first (01 R16). -/
def dmaCycle (c : Chip) : Chip :=
  let units (f : Fin 2 → Chip → Chip) (c : Chip) : Chip := (List.finRange 2).foldl (fun (c : Chip) (u : Fin 2) => f u c) c
  let chans (f : Fin 2 → Fin 32 → Chip → Chip) (u : Fin 2) (c : Chip) : Chip :=
    (List.finRange 32).foldl (fun (c : Chip) (ch : Fin 32) => f u ch c) c
  let c := units (chans (fun u ch c => if dmaEn c u ch then descDone u ch (linkWordTake u ch (descFetched u ch c)) else c)) c
  fabBursts true (units (chans burstAsk) (units (chans partStep) c))

/-! ### Commands -/

/-- FABRIC_GRANT (R346, 01 R16). -/
def execFabricGrant (t : Fin 10) (reqs : BitVec 12) (s : State) : Host.Outcome State Fault Refusal :=
  s.onChip (fabGrant t reqs)

/-- ECC_WRITEBACK (R341): word `word` of memory `id`. -/
def execEccWriteback (id : Fin 46) (word : Nat) (s : State) : Host.Outcome State Fault Refusal :=
  s.onChip (fun c => match memOf id.val with
    | some (base, size, w) => if word * w < size then eccFixNow (base + word * w) c else c
    | none => c)

/-- SCRUB_STEP (R344). -/
def execScrubStep (id : Fin 46) (s : State) : Host.Outcome State Fault Refusal := s.onChip (scrubNow id.val)

/-- MEM_LOGA (R345). -/
def execMemLoga (ini : Initiator) (s : State) : Host.Outcome State Fault Refusal :=
  s.onChip (gatedRead ini (memR 0x58) memLogPop)

/-- MEM_CECNT (R363, 00 R8). -/
def execMemCecnt (ini : Initiator) (s : State) : Host.Outcome State Fault Refusal :=
  s.onChip (gatedRead ini (memR 0x48) (fun c => c.readClear (memR 0x48)))

/-- MEM_UECNT (R363, 00 R8). -/
def execMemUecnt (ini : Initiator) (s : State) : Host.Outcome State Fault Refusal :=
  s.onChip (gatedRead ini (memR 0x4C) (fun c => c.readClear (memR 0x4C)))

/-- DMA_CCFG (R349). -/
def execDmaCcfg (ini : Initiator) (u : Fin 2) (ch : Fin 32) (v : Word) (s : State) : Host.Outcome State Fault Refusal :=
  s.onChip (gatedWrite ini (dmaC u ch 0) (dmaCfgWrite u ch v))

/-- DMA_RESET (R360): a write of DMA_CCTL. -/
def execDmaReset (ini : Initiator) (u : Fin 2) (ch : Fin 32) (v : Word) (s : State) : Host.Outcome State Fault Refusal :=
  s.onChip (gatedWrite ini (dmaC u ch 4) (dmaCtlWrite u ch v))

/-- DMA_ABORT (R360): a write of DMA_CCTL. -/
def execDmaAbort (ini : Initiator) (u : Fin 2) (ch : Fin 32) (v : Word) (s : State) : Host.Outcome State Fault Refusal :=
  s.onChip (gatedWrite ini (dmaC u ch 4) (dmaCtlWrite u ch v))

/-- ABORT_COMPLETE (R360). -/
def execAbortComplete (u : Fin 2) (ch : Fin 32) (s : State) : Host.Outcome State Fault Refusal := s.onChip (dmaStopped u ch)

/-- DMA_CDB (R355). -/
def execDmaCdb (ini : Initiator) (u : Fin 2) (ch : Fin 32) (_v : Word) (s : State) : Host.Outcome State Fault Refusal :=
  s.onChip (gatedWrite ini (dmaC u ch 8) (dmaDoorbell u ch))

/-- DMA_TRIGGER (R357). -/
def execDmaTrigger (u : Fin 2) (ch : Fin 32) (s : State) : Host.Outcome State Fault Refusal := s.onChip (dmaTrig u ch)

/-- DESCRIPTOR_FETCH (R351). -/
def execDescriptorFetch (u : Fin 2) (ch : Fin 32) (s : State) : Host.Outcome State Fault Refusal := s.onChip (descFetched u ch)

/-- DMA_READ_BURST (R350). -/
def execDmaReadBurst (u : Fin 2) (s : State) : Host.Outcome State Fault Refusal := s.onChip (readEngine u)

/-- DMA_WRITE_BURST (R350). -/
def execDmaWriteBurst (u : Fin 2) (s : State) : Host.Outcome State Fault Refusal := s.onChip (writeEngine u)

/-- LINK_WORD_READ (R356). -/
def execLinkWordRead (u : Fin 2) (ch : Fin 32) (s : State) : Host.Outcome State Fault Refusal := s.onChip (linkWordTake u ch)

/-- DESCRIPTOR_COMPLETE (R354). -/
def execDescriptorComplete (u : Fin 2) (ch : Fin 32) (s : State) : Host.Outcome State Fault Refusal := s.onChip (descDone u ch)

end Sys2Proof.Machine
end

