-- ==== Sys2Proof/Machine/FloatMath.lean ====
section
/-! DEFINITION. IEEE 754 binary32 and binary16 arithmetic (11 R253, 12 R294): exact values, one rounding, flags. -/

namespace Sys2Proof.Machine

/-- A format: bits of the fraction and greatest exponent. -/
structure Fmt where
  mb : Nat
  emax : Nat
  deriving DecidableEq, Repr

def binary32 : Fmt := { mb := 23, emax := 127 }
def binary16 : Fmt := { mb := 10, emax := 15 }

/-- The exponent of the least subnormal's unit, the bits of infinity, and the sign bit. -/
def Fmt.qmin (f : Fmt) : Int := 1 - (f.emax : Int) - (f.mb : Int)
def Fmt.infBits (f : Fmt) : Nat := (2 * f.emax + 1) * 2 ^ f.mb
def Fmt.signBit (f : Fmt) : Nat := 2 * (f.emax + 1) * 2 ^ f.mb

/-- What a datum stands for; a finite number is `m × 2^e`. -/
inductive FNum where
  | nan (signalling : Bool)
  | inf (neg : Bool)
  | fin (neg : Bool) (m : Nat) (e : Int)
  deriving DecidableEq, Repr

/-- The exception flags of R253 from bit 0: invalid, division by zero, overflow, underflow, inexact. -/
abbrev FFlags := BitVec 5
def fInv : FFlags := 1
def fDz : FFlags := 2
def fOvf : FFlags := 4
def fUnf : FFlags := 8
def fInx : FFlags := 16

/-- The control of an operation: rounding mode and flush to zero (R253). -/
structure FCtl where
  rm : Nat
  ftz : Bool
  deriving DecidableEq, Repr

def fctl (fcsr : Word) : FCtl := { rm := if 5 ≤ fcsr.fld 0 3 then 0 else fcsr.fld 0 3, ftz := fcsr.bit 3 }

def signOf (f : Fmt) (x : Nat) : Bool := decide (f.signBit ≤ x % (2 * f.signBit))

/-- The datum of a bit pattern, subnormal operands flushed under FTZ. -/
def unpack (f : Fmt) (k : FCtl) (x : Nat) : FNum :=
  let s := signOf f x
  let m := x % 2 ^ f.mb
  let e := x / 2 ^ f.mb % (2 * (f.emax + 1))
  if e = 2 * f.emax + 1 then (if m = 0 then .inf s else .nan (decide (m < 2 ^ (f.mb - 1))))
  else if e = 0 then .fin s (if k.ftz then 0 else m) f.qmin
  else .fin s (m + 2 ^ f.mb) (f.qmin + e - 1)

/-- Whether a magnitude truncated to `r` with remainder `rem` of `2^sh` rounds away from zero. -/
def roundsUp (rm : Nat) (neg : Bool) (r rem sh : Nat) : Bool :=
  match rm with
  | 0 => decide (2 ^ sh < 2 * rem) || (decide (2 * rem = 2 ^ sh) && r % 2 == 1)
  | 1 => decide (2 ^ sh ≤ 2 * rem)
  | 3 => !neg && decide (0 < rem)
  | 4 => neg && decide (0 < rem)
  | _ => false

/-- `m` divided by `2^sh` and rounded, and whether that was inexact. -/
def roundShift (rm : Nat) (neg : Bool) (m sh : Nat) : Nat × Bool :=
  let r := m / 2 ^ sh
  let rem := m % 2 ^ sh
  (if roundsUp rm neg r rem sh && decide (0 < sh) then r + 1 else r, decide (0 < rem))

/-- `m × 2^(e − q)` rounded to an integer. -/
def roundTo (rm : Nat) (neg : Bool) (m : Nat) (e q : Int) : Nat × Bool :=
  if e < q then roundShift rm neg m (q - e).toNat else (m * 2 ^ (e - q).toNat, false)

def withSign (f : Fmt) (neg : Bool) (x : Nat) : Nat := if neg then f.signBit + x else x

/-- The result of an overflow by rounding mode. -/
def overflowBits (f : Fmt) (rm : Nat) (neg : Bool) : Nat :=
  let inf := match rm with
    | 2 => false
    | 3 => !neg
    | 4 => neg
    | _ => true
  if inf then f.infBits else f.infBits - 1

/-- The value `± m × 2^e` rounded to a format, with its flags. -/
def roundPack (f : Fmt) (k : FCtl) (neg : Bool) (m : Nat) (e : Int) : Nat × FFlags :=
  if m = 0 then (withSign f neg 0, 0)
  else
    let top : Int := e + (Nat.log2 m : Int)
    let q := max (top - (f.mb : Int)) f.qmin
    let r := roundTo k.rm neg m e q
    let bits := (q - f.qmin).toNat * 2 ^ f.mb + r.1
    let small := decide (top < f.qmin + (f.mb : Int))
    let after := (roundTo k.rm neg m e (top - (f.mb : Int))).1
    let tiny := small && (Config.tinyBefore || !(decide (top = f.qmin + (f.mb : Int) - 1) && after == 2 ^ (f.mb + 1)))
    if f.infBits ≤ bits then (withSign f neg (overflowBits f k.rm neg), fOvf ||| fInx)
    else if k.ftz && decide (bits < 2 ^ f.mb) then (withSign f neg 0, fUnf ||| fInx)
    else (withSign f neg bits, (if r.2 then fInx else 0) ||| (if tiny && r.2 then fUnf else 0))

/-- A quiet NaN: its sign and payload are the implementation's. -/
def quietNan (f : Fmt) (free : Word) : Nat :=
  f.infBits + 2 ^ (f.mb - 1) + free.toNat % 2 ^ (f.mb - 1) + (if free.msb then f.signBit else 0)

/-- The result of an operation before it is packed: a NaN, an infinity, or a number to round. -/
inductive FRes where
  | nan (invalid : Bool)
  | inf (neg : Bool) (dz : Bool)
  | num (neg : Bool) (m : Nat) (e : Int)
  deriving DecidableEq, Repr

def packRes (f : Fmt) (k : FCtl) (free : Word) (r : FRes) : Nat × FFlags :=
  match r with
  | .nan iv => (quietNan f free, if iv then fInv else 0)
  | .inf neg dz => (withSign f neg f.infBits, if dz then fDz else 0)
  | .num neg m e => roundPack f k neg m e

def FNum.isNan : FNum → Bool
  | .nan _ => true
  | _ => false
def FNum.isSig : FNum → Bool
  | .nan s => s
  | _ => false

/-- The signed number `(−1)^neg × m × 2^(e − q)` for `q ≤ e`. -/
def scaled (neg : Bool) (m : Nat) (e q : Int) : Int :=
  let x : Int := (m * 2 ^ (e - q).toNat : Nat)
  if neg then -x else x

/-- An exact sum; a zero sum of opposite signs is +0, −0 when rounding toward −∞. -/
def sumRes (k : FCtl) (s1 : Bool) (m1 : Nat) (e1 : Int) (s2 : Bool) (m2 : Nat) (e2 : Int) : FRes :=
  let q := min e1 e2
  let x := scaled s1 m1 e1 q + scaled s2 m2 e2 q
  if x = 0 then .num (if m1 = 0 ∧ s1 = s2 then s1 else decide (k.rm = 4)) 0 0
  else .num (decide (x < 0)) x.natAbs q

def addRes (k : FCtl) (a b : FNum) : FRes :=
  match a, b with
  | .inf s, .inf t => if s = t then .inf s false else .nan true
  | .inf s, .fin _ _ _ => .inf s false
  | .fin _ _ _, .inf t => .inf t false
  | .fin s m e, .fin t n d => sumRes k s m e t n d
  | a, b => .nan (a.isSig || b.isSig)

def FNum.negate : FNum → FNum
  | .inf s => .inf (!s)
  | .fin s m e => .fin (!s) m e
  | x => x

def mulRes (a b : FNum) : FRes :=
  match a, b with
  | .inf s, .inf t => .inf (s != t) false
  | .inf s, .fin t m _ => if m = 0 then .nan true else .inf (s != t) false
  | .fin s m _, .inf t => if m = 0 then .nan true else .inf (s != t) false
  | .fin s m e, .fin t n d => .num (s != t) (m * n) (e + d)
  | a, b => .nan (a.isSig || b.isSig)

def divRes (a b : FNum) : FRes :=
  match a, b with
  | .inf _, .inf _ => .nan true
  | .inf s, .fin t _ _ => .inf (s != t) false
  | .fin s _ _, .inf t => .num (s != t) 0 0
  | .fin s m e, .fin t n d =>
    if n = 0 then (if m = 0 then .nan true else .inf (s != t) true)
    else
      let x := m * 2 ^ 64
      .num (s != t) (2 * (x / n) + (if x % n = 0 then 0 else 1)) (e - d - 65)
  | a, b => .nan (a.isSig || b.isSig)

/-- The integer square root, from bit `i − 1` down. -/
def isqrtFrom (x : Nat) : Nat → Nat → Nat
  | 0, r => r
  | i + 1, r => isqrtFrom x i (if (r + 2 ^ i) * (r + 2 ^ i) ≤ x then r + 2 ^ i else r)

def sqrtRes (a : FNum) : FRes :=
  match a with
  | .nan s => .nan s
  | .inf s => if s then .nan true else .inf false false
  | .fin s m e =>
    if m = 0 then .num s 0 0
    else if s then .nan true
    else
      let odd := e % 2 = 1
      let x := (if odd then 2 * m else m) * 2 ^ 64
      let r := isqrtFrom x 48 0
      .num false (2 * r + (if r * r = x then 0 else 1)) ((if odd then e - 1 else e) / 2 - 33)

/-- FMAC: d + a × b rounded once. -/
def fmaRes (k : FCtl) (d a b : FNum) : FRes :=
  if a.isNan || b.isNan then .nan (d.isSig || a.isSig || b.isSig)
  else match mulRes a b with
    | .nan _ => .nan (if d.isNan then d.isSig || Config.fmacInvalid else true)
    | .inf s _ => addRes k (.inf s) d
    | .num s m e => addRes k (.fin s m e) d

/-- The order of two numbers: their difference as a signed number; −0 equals +0. -/
def cmpNum (a b : FNum) : Option Int :=
  match a, b with
  | .inf s, .inf t => some (if s = t then 0 else if s then -1 else 1)
  | .inf s, .fin _ _ _ => some (if s then -1 else 1)
  | .fin _ _ _, .inf t => some (if t then 1 else -1)
  | .fin s m e, .fin t n d => let q := min e d; some (scaled s m e q - scaled t n d q)
  | _, _ => none

def negOf : FNum → Bool
  | .inf s => s
  | .fin s _ _ => s
  | _ => false

def zeroOf : FNum → Bool
  | .fin _ m _ => m == 0
  | _ => false

/-- minimumNumber and maximumNumber: a number goes before a NaN, −0 is less than +0. The datum chosen; none for a NaN. -/
def minRes (wantMax : Bool) (a b : FNum) : Option Bool :=
  if a.isNan then (if b.isNan then none else some true)
  else if b.isNan then some false
  else match cmpNum a b with
    | some d =>
      let less := if d = 0 then negOf a && !negOf b else decide (d < 0)
      some (less == wantMax && !(d = 0 && negOf a == negOf b))
    | none => none

/-- A datum's own bits, a flushed subnormal as a signed zero. -/
def ownBits (f : Fmt) (a : FNum) (x : Nat) : Nat := if zeroOf a then withSign f (negOf a) 0 else x % (2 * f.signBit)

/-- FMIN, FMAX. -/
def minMax (f : Fmt) (k : FCtl) (wantMax : Bool) (free : Word) (x y : Nat) : Nat × FFlags :=
  let a := unpack f k x
  let b := unpack f k y
  let fl : FFlags := if a.isSig || b.isSig then fInv else 0
  match minRes wantMax a b with
  | none => (quietNan f free, fl)
  | some false => (ownBits f a x, fl)
  | some true => (ownBits f b y, fl)

/-- FCMP: N Z C V (R294), invalid for a signalling NaN only. -/
def fcmpRes (k : FCtl) (x y : Nat) : BitVec 4 × FFlags :=
  let a := unpack binary32 k x
  let b := unpack binary32 k y
  let fl : FFlags := if a.isSig || b.isSig then fInv else 0
  match cmpNum a b with
  | none => (0b0011, fl)
  | some d => (if d < 0 then 0b1000 else if d = 0 then 0b0110 else 0b0010, fl)

/-- FTOI, FTOU: rounded per RM, clamped to the limits with invalid (R294). -/
def toInteger (k : FCtl) (lo hi : Int) (x : Nat) : Int × FFlags :=
  match unpack binary32 k x with
  | .nan _ => (0, fInv)
  | .inf s => (if s then lo else hi, fInv)
  | .fin s m e =>
    let r := roundTo k.rm s m e 0
    let v : Int := if s then -(r.1 : Int) else (r.1 : Int)
    if v < lo then (lo, fInv) else if hi < v then (hi, fInv) else (v, if r.2 && Config.convertInexact then fInx else 0)

/-- ITOF, UTOF. -/
def ofInteger (k : FCtl) (x : Int) : Nat × FFlags := roundPack binary32 k (decide (x < 0)) x.natAbs 0

/-- FNARROW, FWIDEN: between the formats. -/
def convert (src dst : Fmt) (k : FCtl) (free : Word) (x : Nat) : Nat × FFlags :=
  packRes dst k free (match unpack src k x with
    | .nan s => .nan s
    | .inf s => .inf s false
    | .fin s m e => .num s m e)

/-- FKIND (R294). -/
def kindOf (x : Nat) : Nat :=
  let k := match unpack binary32 { rm := 0, ftz := false } x with
    | .nan false => 4
    | .nan true => 5
    | .inf _ => 3
    | .fin _ m _ => if m = 0 then 0 else if m < 2 ^ 23 then 1 else 2
  k + (if signOf binary32 x then 8 else 0)

end Sys2Proof.Machine
end

