-- ==== Sys2Proof/Machine/Float.lean ====
section
/-! DEFINITION. The floating-point instructions, on NK-L (12 R294, 11 R253; 13 R298 to R300). -/

namespace Sys2Proof.Machine

/-- What a floating-point instruction delivers: a result, the FCSR flags it raises, and N Z C V for FCMP. -/
structure FOut where
  v : Word
  ff : FFlags
  nzcv : Option (BitVec 4)
  deriving DecidableEq, Repr

/-- The destination of a floating-point instruction. -/
inductive FDst where
  | f (r : Fin 32)
  | g (r : Fin 32)
  | none
  deriving DecidableEq, Repr

def FDst.writes : FDst → List Nat
  | .f r => [32 + r.val]
  | .g r => [r.val]
  | .none => nzcvR

/-- The registers of a floating-point instruction; it obeys the controls of FCSR. -/
def fspec (d : FDst) (fs gs : List (Fin 32)) (unit : Nat) : Spec :=
  { nkl := true, nks := false, gs := [], ok := true, rep := true, reads := fs.map (fun r => 32 + r.val) ++ gs.map (·.val) ++ [fctlR],
    writes := d.writes, fp := true, long := true, unit := unit }

/-- A floating-point instruction: an enabled flag raises vector 9 with nothing written (R253); it is outstanding until it
completes, with an enabled trap at once (13 R300). -/
def fpInstr (h : Hdr) (d : FDst) (fs gs : List (Fin 32)) (op : CoreS → BankS → FOut) (c : Chip) (unit : Nat := 0) : Chip :=
  instr h (fspec d fs gs unit) (fun cx c =>
    let s := coreGet c cx.k
    let o := op s s.banks[cx.b]
    let ten := s.fcsr.fld 16 5
    if ten &&& o.ff.toNat ≠ 0 then (.exc 9 none 0, c)
    else
      let l : LongOp :=
        { bank := cx.b, addr := cx.pc, kind := .value o.v, fp := (match d with
            | .f _ => true
            | _ => false), rd := (match d with
            | .f r => some r
            | .g r => some r
            | .none => none), reads := fs.map (fun r => 32 + r.val) ++ gs.map (·.val) ++ [fctlR], vflag := none, dz := false,
          qf := false, nzcv := o.nzcv, ff := o.ff, unit := unit }
      (.next, if ten ≠ 0 then completeOp cx.k l c else issue cx l c)) c

def fOut (r : Nat × FFlags) : FOut := { v := BitVec.ofNat 32 r.1, ff := r.2, nzcv := none }
def fPlain (v : Word) : FOut := { v := v, ff := 0, nzcv := none }

/-- The format of an arithmetic instruction: FN bit 5 selects binary16 (R294). -/
def fmtOf (half : Bool) : Fmt := if half then binary16 else binary32

/-- A two-operand operation by its number (for the NaN it delivers). -/
def fop2 (half : Bool) (n : Nat) (f : FCtl → FNum → FNum → FRes) (s : CoreS) (a b : Word) : FOut :=
  let k := fctl s.fcsr
  let t := fmtOf half
  fOut (packRes t k (Config.nanBits n a b 0) (f k (unpack t k a.toNat) (unpack t k b.toNat)))

/-- FADD (R294). -/
def execFadd (h : Hdr) (half : Bool) (fd fa fb : Fin 32) (s : State) : Host.Outcome State Fault Refusal :=
  s.onChip (fpInstr h (.f fd) [fa, fb] [] (fun s _ => fop2 half 0 addRes s s.f[fa] s.f[fb]))

/-- FSUB (R294). -/
def execFsub (h : Hdr) (half : Bool) (fd fa fb : Fin 32) (s : State) : Host.Outcome State Fault Refusal :=
  s.onChip (fpInstr h (.f fd) [fa, fb] []
    (fun s _ => fop2 half 1 (fun k a b => addRes k a b.negate) s s.f[fa] s.f[fb]))

/-- FMUL (R294). -/
def execFmul (h : Hdr) (half : Bool) (fd fa fb : Fin 32) (s : State) : Host.Outcome State Fault Refusal :=
  s.onChip (fpInstr h (.f fd) [fa, fb] [] (fun s _ => fop2 half 2 (fun _ a b => mulRes a b) s s.f[fa] s.f[fb]))

/-- FDIV (R294). -/
def execFdiv (h : Hdr) (half : Bool) (fd fa fb : Fin 32) (s : State) : Host.Outcome State Fault Refusal :=
  s.onChip (fun c => fpInstr h (.f fd) [fa, fb] [] (fun s _ => fop2 half 3 (fun _ a b => divRes a b) s s.f[fa] s.f[fb]) c 2)

/-- FSQRT (R294). -/
def execFsqrt (h : Hdr) (half : Bool) (fd fa : Fin 32) (s : State) : Host.Outcome State Fault Refusal :=
  s.onChip (fun c => fpInstr h (.f fd) [fa] [] (fun s _ => fop2 half 4 (fun _ a _ => sqrtRes a) s s.f[fa] 0) c 2)

/-- FMAC (R294): rounded once. -/
def execFmac (h : Hdr) (half : Bool) (fd fa fb : Fin 32) (s : State) : Host.Outcome State Fault Refusal :=
  s.onChip (fpInstr h (.f fd) [fd, fa, fb] [] (fun s _ =>
    let k := fctl s.fcsr
    let t := fmtOf half
    fOut (packRes t k (Config.nanBits 5 s.f[fa] s.f[fb] s.f[fd])
      (fmaRes k (unpack t k s.f[fd].toNat) (unpack t k s.f[fa].toNat) (unpack t k s.f[fb].toNat)))))

/-- FMIN (R294). -/
def execFmin (h : Hdr) (half : Bool) (fd fa fb : Fin 32) (s : State) : Host.Outcome State Fault Refusal :=
  s.onChip (fpInstr h (.f fd) [fa, fb] [] (fun s _ =>
    fOut (minMax (fmtOf half) (fctl s.fcsr) false (Config.nanBits 6 s.f[fa] s.f[fb] 0) s.f[fa].toNat s.f[fb].toNat)))

/-- FMAX (R294). -/
def execFmax (h : Hdr) (half : Bool) (fd fa fb : Fin 32) (s : State) : Host.Outcome State Fault Refusal :=
  s.onChip (fpInstr h (.f fd) [fa, fb] [] (fun s _ =>
    fOut (minMax (fmtOf half) (fctl s.fcsr) true (Config.nanBits 7 s.f[fa] s.f[fb] 0) s.f[fa].toNat s.f[fb].toNat)))

/-- FNEG (R294): the sign bit inverted. -/
def execFneg (h : Hdr) (half : Bool) (fd fa : Fin 32) (s : State) : Host.Outcome State Fault Refusal :=
  s.onChip (fpInstr h (.f fd) [fa] [] (fun s _ =>
    fPlain (if half then (s.f[fa] &&& 0xFFFF) ^^^ 0x8000 else s.f[fa] ^^^ 0x80000000)))

/-- FABS (R294): the sign bit cleared. -/
def execFabs (h : Hdr) (half : Bool) (fd fa : Fin 32) (s : State) : Host.Outcome State Fault Refusal :=
  s.onChip (fpInstr h (.f fd) [fa] [] (fun s _ =>
    fPlain (if half then s.f[fa] &&& 0x7FFF else s.f[fa] &&& 0x7FFFFFFF)))

/-- FCMP (R294). -/
def execFcmp (h : Hdr) (fa fb : Fin 32) (s : State) : Host.Outcome State Fault Refusal :=
  s.onChip (fpInstr h .none [fa, fb] [] (fun s _ =>
    let r := fcmpRes (fctl s.fcsr) s.f[fa].toNat s.f[fb].toNat
    { v := 0, ff := r.2, nzcv := some r.1 }))

/-- FTOI (R294). -/
def execFtoi (h : Hdr) (rd fa : Fin 32) (s : State) : Host.Outcome State Fault Refusal :=
  s.onChip (fpInstr h (.g rd) [fa] [] (fun s _ =>
    let r := toInteger (fctl s.fcsr) (-(2 ^ 31)) (2 ^ 31 - 1) s.f[fa].toNat
    { v := wordI r.1, ff := r.2, nzcv := none }))

/-- FTOU (R294). -/
def execFtou (h : Hdr) (rd fa : Fin 32) (s : State) : Host.Outcome State Fault Refusal :=
  s.onChip (fpInstr h (.g rd) [fa] [] (fun s _ =>
    let r := toInteger (fctl s.fcsr) 0 (2 ^ 32 - 1) s.f[fa].toNat
    { v := wordI r.1, ff := r.2, nzcv := none }))

/-- ITOF (R294). -/
def execItof (h : Hdr) (fd ra : Fin 32) (s : State) : Host.Outcome State Fault Refusal :=
  s.onChip (fpInstr h (.f fd) [] [ra] (fun s x => fOut (ofInteger (fctl s.fcsr) (x.gr ra).toInt)))

/-- UTOF (R294). -/
def execUtof (h : Hdr) (fd ra : Fin 32) (s : State) : Host.Outcome State Fault Refusal :=
  s.onChip (fpInstr h (.f fd) [] [ra] (fun s x => fOut (ofInteger (fctl s.fcsr) ((x.gr ra).toNat : Int))))

/-- FNARROW (R294): binary32 to binary16. -/
def execFnarrow (h : Hdr) (fd fa : Fin 32) (s : State) : Host.Outcome State Fault Refusal :=
  s.onChip (fpInstr h (.f fd) [fa] [] (fun s _ =>
    fOut (convert binary32 binary16 (fctl s.fcsr) (Config.nanBits 8 s.f[fa] 0 0) s.f[fa].toNat)))

/-- FWIDEN (R294): binary16 to binary32. -/
def execFwiden (h : Hdr) (fd fa : Fin 32) (s : State) : Host.Outcome State Fault Refusal :=
  s.onChip (fpInstr h (.f fd) [fa] [] (fun s _ =>
    fOut (convert binary16 binary32 (fctl s.fcsr) (Config.nanBits 9 s.f[fa] 0 0) s.f[fa].toNat)))

/-- FMOVTG (R294). -/
def execFmovtg (h : Hdr) (rd fa : Fin 32) (s : State) : Host.Outcome State Fault Refusal :=
  s.onChip (fpInstr h (.g rd) [fa] [] (fun s _ => fPlain s.f[fa]))

/-- FMOVFG (R294). -/
def execFmovfg (h : Hdr) (fd ra : Fin 32) (s : State) : Host.Outcome State Fault Refusal :=
  s.onChip (fpInstr h (.f fd) [] [ra] (fun _ x => fPlain (x.gr ra)))

/-- FKIND (R294). -/
def execFkind (h : Hdr) (rd fa : Fin 32) (s : State) : Host.Outcome State Fault Refusal :=
  s.onChip (fpInstr h (.g rd) [fa] [] (fun s _ => fPlain (BitVec.ofNat 32 (kindOf s.f[fa].toNat))))

end Sys2Proof.Machine
end

