-- ==== Sys2Proof/Machine/MulDiv.lean ====
section
/-! DEFINITION. Multiply, divide, saturating and accumulator instructions (12 R286 to R288, 11 R277). -/

namespace Sys2Proof.Machine

/-- A long instruction that writes one general register (13 R298). -/
def longVal (cx : Cx) (rd : Fin 32) (rs : List (Fin 32)) (v : Word) : LongOp :=
  { bank := cx.b, addr := cx.pc, kind := .value v, fp := false, rd := some rd, reads := rs.map (·.val), vflag := none,
    dz := false, qf := false, nzcv := none, ff := 0 }

/-- A multiply: rd := op ra rb, a long instruction on NK-L. -/
def mul3 (h : Hdr) (rd ra rb : Fin 32) (op : Word → Word → Word) (c : Chip) : Chip :=
  instr h { gSpec [rd] [ra, rb] [] with long := true } (fun cx c =>
    let x := bankGet c cx.k cx.b
    (.next, issue cx (longVal cx rd [ra, rb] (op (x.gr ra) (x.gr rb))) c)) c

/-- A divide leaves issue: on NK-L it occupies the divider until it completes (R287); on NK-S, but in this cycle, it holds the core for
34 cycles (13 R303). -/
def issueDivide (cx : Cx) (o : LongOp) (v : Word) (c : Chip) : Flow × Chip :=
  if cx.k.isNKS then
    (.own, updCore cx.k (fun s => { s with stalls := s.stalls ++ [{ o with kind := .hold v (c.now + 33) cx.nxt }] }) c)
  else (.next, issue cx { o with unit := 1 } c)

/-- A division (R277, R287): with DZT = 1 and a zero divisor DZ is set and vector 8 raised. -/
def div3 (h : Hdr) (k : DivKind) (rd ra rb : Fin 32) (c : Chip) : Chip :=
  let fl := if k = .divs then [flagR stQ, flagR stDZ] else [flagR stV, flagR stDZ]
  instr h { gSpec [rd] [ra, rb] fl with long := true, unit := 1 } (fun cx c =>
    let x := bankGet c cx.k cx.b
    let a := x.gr ra
    let b := x.gr rb
    if b == 0 && x.st.bit stDZT then
      (.exc 8 none 0, updBank cx.k cx.b (fun x => { x with st := x.st.withBit stDZ true }) c)
    else
      let u := divideFlags k a b
      issueDivide cx { longVal cx rd [ra, rb] (divide k a b) with vflag := u.v, dz := u.dz, qf := u.q } (divide k a b) c) c

def mulLo (a b : Word) : Word := a * b
def mulHiS (a b : Word) : Word := wordI (asr (a.toInt * b.toInt) 32)
def mulHiU (a b : Word) : Word := BitVec.ofNat 32 (a.toNat * b.toNat / 2 ^ 32)

/-- A saturating result. -/
def sat3 (h : Hdr) (rd ra rb : Fin 32) (op : Int → Int → Int) (c : Chip) : Chip :=
  alu3 h rd ra rb [flagR stQ] (fun _ a b => satFlags (op a.toInt b.toInt)) c
def sat2 (h : Hdr) (rd ra : Fin 32) (op : Int → Int) (c : Chip) : Chip :=
  alu2 h rd ra [flagR stQ] (fun a => satFlags (op a.toInt)) c

/-- MUL (R286). -/
def execMul (h : Hdr) (rd ra rb : Fin 32) (s : State) : Host.Outcome State Fault Refusal :=
  s.onChip (mul3 h rd ra rb mulLo)

/-- MULH (R286): the high word of the signed product. -/
def execMulh (h : Hdr) (rd ra rb : Fin 32) (s : State) : Host.Outcome State Fault Refusal :=
  s.onChip (mul3 h rd ra rb mulHiS)

/-- MULHU (R286). -/
def execMulhu (h : Hdr) (rd ra rb : Fin 32) (s : State) : Host.Outcome State Fault Refusal :=
  s.onChip (mul3 h rd ra rb mulHiU)

/-- MULI (R285). -/
def execMuli (h : Hdr) (rd ra : Fin 32) (imm : Word) (s : State) : Host.Outcome State Fault Refusal :=
  s.onChip (instr h { gSpec [rd] [ra] [] with long := true } (fun cx c =>
    (.next, issue cx (longVal cx rd [ra] ((bankGet c cx.k cx.b).gr ra * imm)) c)))

/-- DIV (R286, R287). -/
def execDiv (h : Hdr) (rd ra rb : Fin 32) (s : State) : Host.Outcome State Fault Refusal :=
  s.onChip (div3 h .div rd ra rb)

/-- DIVU (R286, R287). -/
def execDivu (h : Hdr) (rd ra rb : Fin 32) (s : State) : Host.Outcome State Fault Refusal :=
  s.onChip (div3 h .divu rd ra rb)

/-- REM (R286, R287). -/
def execRem (h : Hdr) (rd ra rb : Fin 32) (s : State) : Host.Outcome State Fault Refusal :=
  s.onChip (div3 h .rem rd ra rb)

/-- REMU (R286, R287). -/
def execRemu (h : Hdr) (rd ra rb : Fin 32) (s : State) : Host.Outcome State Fault Refusal :=
  s.onChip (div3 h .remu rd ra rb)

/-- DIVS (R286, R287): the saturating signed quotient. -/
def execDivs (h : Hdr) (rd ra rb : Fin 32) (s : State) : Host.Outcome State Fault Refusal :=
  s.onChip (div3 h .divs rd ra rb)

/-- ADDS (R286). -/
def execAdds (h : Hdr) (rd ra rb : Fin 32) (s : State) : Host.Outcome State Fault Refusal :=
  s.onChip (sat3 h rd ra rb (fun a b => a + b))

/-- SUBS (R286). -/
def execSubs (h : Hdr) (rd ra rb : Fin 32) (s : State) : Host.Outcome State Fault Refusal :=
  s.onChip (sat3 h rd ra rb (fun a b => a - b))

/-- NEGS (R286, R277). -/
def execNegs (h : Hdr) (rd ra : Fin 32) (s : State) : Host.Outcome State Fault Refusal :=
  s.onChip (sat2 h rd ra (fun a => -a))

/-- ABSS (R286, R277). -/
def execAbss (h : Hdr) (rd ra : Fin 32) (s : State) : Host.Outcome State Fault Refusal :=
  s.onChip (sat2 h rd ra absI)

/-- MULQ31, on NK-L (R286). -/
def execMulq31 (h : Hdr) (rd ra rb : Fin 32) (s : State) : Host.Outcome State Fault Refusal :=
  s.onChip (instr h (nklOnly (gSpec [rd] [ra, rb] [flagR stQ])) (onBank (fun x =>
    x.result rd (satFlags (asr ((x.gr ra).toInt * (x.gr rb).toInt + 2 ^ 30) 31)))))

/-- MULQ15, on NK-L (R286). -/
def execMulq15 (h : Hdr) (rd ra rb : Fin 32) (s : State) : Host.Outcome State Fault Refusal :=
  s.onChip (instr h (nklOnly (gSpec [rd] [ra, rb] [flagR stQ])) (onBank (fun x =>
    x.result rd (satFlags (asr ((x.gr ra).toInt * (x.gr rb).toInt + 2 ^ 14) 15)))))

/-! ### Accumulators, on NK-S (R288) -/

/-- MAC (R288). -/
def execMac (h : Hdr) (ac : Fin 2) (ra rb : Fin 32) (s : State) : Host.Outcome State Fault Refusal :=
  s.onChip (instr h (nksOnly (gSpec [] [ra, rb] [flagR stQ])) (onBank (fun x =>
    x.setAcc ac (x.ac[ac].toInt + (x.gr ra).toInt * (x.gr rb).toInt))))

/-- MSU (R288). -/
def execMsu (h : Hdr) (ac : Fin 2) (ra rb : Fin 32) (s : State) : Host.Outcome State Fault Refusal :=
  s.onChip (instr h (nksOnly (gSpec [] [ra, rb] [flagR stQ])) (onBank (fun x =>
    x.setAcc ac (x.ac[ac].toInt - (x.gr ra).toInt * (x.gr rb).toInt))))

/-- ACLR (R288). -/
def execAclr (h : Hdr) (ac : Fin 2) (s : State) : Host.Outcome State Fault Refusal :=
  s.onChip (instr h (nksOnly (gSpec [] [] [])) (onBank (fun x => { x with ac := x.ac.set ac 0 })))

/-- ACSH (R288): an arithmetic shift right by ra[5:0]. -/
def execAcsh (h : Hdr) (ac : Fin 2) (ra : Fin 32) (s : State) : Host.Outcome State Fault Refusal :=
  s.onChip (instr h (nksOnly (gSpec [] [ra] [])) (onBank (fun x =>
    { x with ac := x.ac.set ac (BitVec.ofInt 48 (asr x.ac[ac].toInt ((x.gr ra).fld 0 6))) })))

/-- ACRD (R288): the accumulator rounded, shifted and saturated. -/
def execAcrd (h : Hdr) (rd : Fin 32) (ac : Fin 2) (ra : Fin 32) (s : State) : Host.Outcome State Fault Refusal :=
  s.onChip (instr h (nksOnly (gSpec [rd] [ra] [flagR stQ])) (onBank (fun x =>
    let n := (x.gr ra).fld 0 6
    let a := x.ac[ac].toInt
    x.result rd (satFlags (if n = 0 then a else asr (a + 2 ^ (n - 1)) n)))))

/-- ACWR (R288). -/
def execAcwr (h : Hdr) (ac : Fin 2) (ra : Fin 32) (s : State) : Host.Outcome State Fault Refusal :=
  s.onChip (instr h (nksOnly (gSpec [] [ra] [])) (onBank (fun x =>
    { x with ac := x.ac.set ac ((x.gr ra).signExtend 48) })))

end Sys2Proof.Machine
end

