-- ==== Sys2Proof/Machine/Phase.lean ====
section
/-! DEFINITION. The commands of the phase bases and capture channels (02). -/

namespace Sys2Proof.Machine

/-- PB_ENABLE (R38): the write of PB_CFG that sets EN. -/
def execPbEnable (ini : Initiator) (p : Fin 8) (v : Word) (s : State) : Host.Outcome State Fault Refusal :=
  s.onChip (gatedWrite ini (pbR p 0) (pbCfgWrite p v))

/-- PB_DISABLE (R38): the write of PB_CFG that clears EN. -/
def execPbDisable (ini : Initiator) (p : Fin 8) (v : Word) (s : State) : Host.Outcome State Fault Refusal :=
  s.onChip (gatedWrite ini (pbR p 0) (pbCfgWrite p v))

/-- ACQ (R38): a write of PB_CTL. -/
def execAcq (ini : Initiator) (p : Fin 8) (v : Word) (s : State) : Host.Outcome State Fault Refusal :=
  s.onChip (gatedWrite ini (pbR p 4) (pbCtlWrite p v))

/-- PB_ANG (R64): a write of the angle while EN = 0. -/
def execPbAng (ini : Initiator) (p : Fin 8) (v : Word) (s : State) : Host.Outcome State Fault Refusal :=
  s.onChip (gatedWrite ini (pbR p 0x10) (pbAngWrite p v))

/-- ENC_COUNT (R47): the decoder takes the levels of A and B. -/
def execEncCount (p : Fin 8) (a b : Bool) (s : State) : Host.Outcome State Fault Refusal :=
  s.onChip (encLevels p a b)

/-- INDEX_EDGE (R47): a rising edge of Z. -/
def execIndexEdge (p : Fin 8) (s : State) : Host.Outcome State Fault Refusal := s.onChip (encIndex p)

/-- HALL_CHANGE (R49). -/
def execHallChange (p : Fin 8) (st : BitVec 3) (s : State) : Host.Outcome State Fault Refusal :=
  s.onChip (hallTake p st)

/-- STROBE (R50). -/
def execStrobe (p : Fin 8) (s : State) : Host.Outcome State Fault Refusal := s.onChip (strobeNow p)

/-- TRACKER_SAMPLE (R50): both samples have reached the observer. -/
def execTrackerSample (p : Fin 8) (sn cs : BitVec 16) (s : State) : Host.Outcome State Fault Refusal :=
  s.onChip (trkPair p sn cs)

/-- TRACKER_SAMPLE_TIMEOUT (R50). -/
def execTrackerSampleTimeout (p : Fin 8) (s : State) : Host.Outcome State Fault Refusal := s.onChip (trkTimeout p)

/-- GRID_SAMPLE (R51). -/
def execGridSample (p : Fin 8) (x : BitVec 16) (s : State) : Host.Outcome State Fault Refusal := s.onChip (gridTake p x)

/-- DISCIPLINE_PULSE (R52). -/
def execDisciplinePulse (p : Fin 8) (s : State) : Host.Outcome State Fault Refusal := s.onChip (disciplineNow p)

/-- PB_SWANG (R53). -/
def execPbSwang (ini : Initiator) (p : Fin 8) (v : Word) (s : State) : Host.Outcome State Fault Refusal :=
  s.onChip (gatedWrite ini (pbR p 0x74) (swangWrite p v))

/-- PB_SWVEL (R53). -/
def execPbSwvel (ini : Initiator) (p : Fin 8) (v : Word) (s : State) : Host.Outcome State Fault Refusal :=
  s.onChip (gatedWrite ini (pbR p 0x78) (swvelWrite p v))

/-- UPDATE_APPLY (R41): the oldest update that waits reaches its application cycle. -/
def execUpdateApply (p : Fin 8) (s : State) : Host.Outcome State Fault Refusal := s.onChip (updateApply p)

/-- SLEW_END (R41). -/
def execSlewEnd (p : Fin 8) (s : State) : Host.Outcome State Fault Refusal := s.onChip (slewEndNow p)

/-- PB_TIMEOUT (R44). -/
def execPbTimeout (p : Fin 8) (s : State) : Host.Outcome State Fault Refusal := s.onChip (timeout p)

/-- REVOLUTION (R36): REV differs from the cycle before; `back` is the direction, which the event does not depend on. -/
def execRevolution (p : Fin 8) (_back : Bool) (s : State) : Host.Outcome State Fault Refusal := s.onChip (revNow p)

/-- CAPTURE_EDGE (R57, R58). -/
def execCaptureEdge (k : Fin 64) (rise : Bool) (s : State) : Host.Outcome State Fault Refusal :=
  s.onChip (captureNow k rise)

/-- CAP_RDT (R59): the read that removes the oldest record. -/
def execCapRdt (ini : Initiator) (k : Fin 64) (s : State) : Host.Outcome State Fault Refusal :=
  s.onChip (gatedRead ini (capR k 8) (capRead k))

end Sys2Proof.Machine
end

