-- ==== Sys2Proof/Machine/Power.lean ====
section
/-! DEFINITION. The commands of power, clocks, resets and faults (21). -/

namespace Sys2Proof.Machine

/-- PMU_PDCTL (R466). -/
def execPmuPdctl (ini : Initiator) (hi : Bool) (v : Word) (s : State) : Host.Outcome State Fault Refusal :=
  s.onChip (gatedWrite ini (sysR (if hi then 0xC else 8)) (pdctlWrite hi v))

/-- DOMAIN_POWER_UP (R466). -/
def execDomainPowerUp (d : Fin 56) (s : State) : Host.Outcome State Fault Refusal := s.onChip (domainUpNow d)

/-- ENTER_STANDBY_R (R468): the write of PMU_CTL with ENTER 1. -/
def execEnterStandbyR (ini : Initiator) (v : Word) (s : State) : Host.Outcome State Fault Refusal :=
  s.onChip (gatedWrite ini (sysR 0) (fun c => if v.fld 0 2 = 1 then enterStandby v c else c))

/-- ENTER_STANDBY_O (R468): the write of PMU_CTL with ENTER 2. -/
def execEnterStandbyO (ini : Initiator) (v : Word) (s : State) : Host.Outcome State Fault Refusal :=
  s.onChip (gatedWrite ini (sysR 0) (fun c => if v.fld 0 2 = 2 then enterStandby v c else c))

/-- STANDBY_ENTRY_COMPLETE (R468). -/
def execStandbyEntryComplete (s : State) : Host.Outcome State Fault Refusal := s.onAon standbyEntered

/-- STANDBY_R_RESUMED (R470). -/
def execStandbyRResumed (s : State) : Host.Outcome State Fault Refusal := 
  s.onAon (fun c => if c.power.mode = .standbyR then resumeR c else c)

/-- AON_TIMER (R469). -/
def execAonTimer (s : State) : Host.Outcome State Fault Refusal := s.onAon aonTimerNow

/-- LINK_WAKE (16 R384). -/
def execLinkWake (port : Port) (s : State) : Host.Outcome State Fault Refusal := s.onAon (linkWakeNow port)

/-- SERDES_PLL_LOCK (16 R384). -/
def execSerdesPllLock (port : Port) (s : State) : Host.Outcome State Fault Refusal := s.onChip (serdesLocked port)

/-- LP_WINDOW_WAKE (07 R184, R185). -/
def execLpWindowWake (w : Fin 8) (l u : Bool) (s : State) : Host.Outcome State Fault Refusal := s.onAon (lpState w l u)

/-- POWER_ON_RESET (R473). -/
def execPowerOnReset (boot : BitVec 2) (s : State) : Host.Outcome State Fault Refusal := s.onAon (powerOn boot.toNat)

/-- RESET_N (R473, 22 R496). -/
def execResetN (boot : BitVec 2) (s : State) : Host.Outcome State Fault Refusal := s.onAon (deviceReset boot.toNat rcPin 0)

/-- SUPPLY_BELOW_THRESHOLD (R473). -/
def execSupplyBelowThreshold (boot : BitVec 2) (s : State) : Host.Outcome State Fault Refusal :=
  s.onAon (deviceReset boot.toNat rcSupply 0)

/-- RESET_END (R474): it ends a device reset in progress. -/
def execResetEnd (s : State) : Host.Outcome State Fault Refusal :=
  s.onChip (fun c => if c.agenda.any (fun e => decide (e.2 = .resetEnd)) then
    resetEndNow (c.unschedule (fun e => decide (e = .resetEnd))) else c)

/-- SLICE_RESET_END (05 R142). -/
def execSliceResetEnd (sl : Fin 12) (s : State) : Host.Outcome State Fault Refusal := s.onChip (sliceResetEndNow sl)

/-- CLOCK_MONITOR (R472). -/
def execClockMonitor (i : Fin 12) (s : State) : Host.Outcome State Fault Refusal := s.onChip (monitorBegin i.val)

/-- CLOCK_MONITOR_END (R472). -/
def execClockMonitorEnd (i : Fin 12) (s : State) : Host.Outcome State Fault Refusal := s.onChip (monitorEnd i.val)

/-- CLKLOSS (05 R136): the asynchronous path at the pads. -/
def execClkloss (s : State) : Host.Outcome State Fault Refusal := s.onChip (setCauseAll causeClkloss)

/-- SUPPLY_SUPERVISOR (R477). -/
def execSupplySupervisor (i : Fin 4) (begins : Bool) (s : State) : Host.Outcome State Fault Refusal :=
  s.onChip (supervisor i.val begins)

/-- TEMPERATURE_THRESHOLD (R477). -/
def execTemperatureThreshold (tj : BitVec 16) (s : State) : Host.Outcome State Fault Refusal := s.onChip (temperatureNow tj)

/-- FLT_LOG0 (R481). -/
def execFltLog0 (ini : Initiator) (s : State) : Host.Outcome State Fault Refusal :=
  s.onChip (gatedRead ini (sysR 0x1440) fltLog0Read)

/-- FLT_LOST (R485, 00 R8). -/
def execFltLost (ini : Initiator) (s : State) : Host.Outcome State Fault Refusal :=
  s.onChip (gatedRead ini (sysR 0x1454) (fun c => c.readClear (sysR 0x1454)))

/-- WDG_CFG (R482). -/
def execWdgCfg (ini : Initiator) (k : Fin 8) (v : Word) (s : State) : Host.Outcome State Fault Refusal :=
  s.onChip (gatedWrite ini (wdgR k.val 0) (wdgCfgWrite k v))

/-- WDG_KICK (R482). -/
def execWdgKick (ini : Initiator) (k : Fin 8) (v : Word) (s : State) : Host.Outcome State Fault Refusal :=
  s.onChip (gatedWrite ini (wdgR k.val 8) (wdgKickWrite ini k v))

/-- WDG_WARN (R482). -/
def execWdgWarn (k : Fin 8) (s : State) : Host.Outcome State Fault Refusal := s.onChip (wdgWarnNow k)

/-- WDG_EXPIRY (R482). -/
def execWdgExpiry (k : Fin 8) (s : State) : Host.Outcome State Fault Refusal := s.onChip (wdgExpire k)

/-- MILLISECOND_TICK (R483): source 511 pulses. -/
def execMillisecondTick (s : State) : Host.Outcome State Fault Refusal := s.onChip (evPulse 511)

end Sys2Proof.Machine
end

