-- ==== Sys2Proof/Machine/Security.lean ====
section
/-! DEFINITION. The commands of the security subsystem (18) and the halts of debug (05 R136). -/

namespace Sys2Proof.Machine

/-- FUSE_PROGRAM (R423): the write of SEC_FPCMD. -/
def execFuseProgram (ini : Initiator) (v : Word) (s : State) : Host.Outcome State Fault Refusal :=
  s.onChip (gatedWrite ini (secR 0x70) (fpcmdWrite v))

/-- FUSE_PROGRAM_COMPLETE (R423). -/
def execFuseProgramComplete (s : State) : Host.Outcome State Fault Refusal := s.onChip fuseProgEnd

/-- SEC_REVOKE (R424). -/
def execSecRevoke (ini : Initiator) (v : Word) (s : State) : Host.Outcome State Fault Refusal :=
  s.onChip (gatedWrite ini (secR 0x14) (revokeWrite v))

/-- SEC_RNG (R430): each read returns a new word. -/
def execSecRng (ini : Initiator) (s : State) : Host.Outcome State Fault Refusal :=
  s.onChip (gatedRead ini (secR 0x18) rngDraw)

/-- RNG_HEALTH_FAILURE (R430). -/
def execRngHealthFailure (s : State) : Host.Outcome State Fault Refusal := s.onChip rngFail

/-- BYPASS (R432): one bit, captured 0 (IEEE 1149.1; PRESUMED, log 46). -/
def execBypass (s : State) : Host.Outcome State Fault Refusal := s.onAon (tapSet .bypass [false])

/-- IDCODE (R432): the data register captures SEC_IDCODE. -/
def execIdcode (s : State) : Host.Outcome State Fault Refusal :=
  s.onAon (fun c => tapSet .idcode (wordBits (c.reg (secR 0x20))) c)

/-- SAMPLE_PRELOAD (R432): the pads are captured; what is shifted in becomes the boundary register. -/
def execSamplePreload (load : Option (List Bool)) (s : State) : Host.Outcome State Fault Refusal :=
  s.onAon (fun c =>
    let c := tapSet .samplePreload (padSample c) c
    match load with
    | some bits => { c with sec := { c.sec with boundary := bits } }
    | none => c)

/-- EXTEST (R432). -/
def execExtest (s : State) : Host.Outcome State Fault Refusal := s.onAon (tapDrive .extest)

/-- CLAMP (R432). -/
def execClamp (s : State) : Host.Outcome State Fault Refusal := s.onAon (tapDrive .clamp)

/-- HIGHZ (R432). -/
def execHighz (s : State) : Host.Outcome State Fault Refusal := s.onAon (tapDrive .highz)

/-- HALT (R434, 05 R136). -/
def execHalt (k : CoreId) (s : State) : Host.Outcome State Fault Refusal := s.onChip (haltSet k true)

/-- DEBUG_RESUME (05 R139). -/
def execDebugResume (k : CoreId) (s : State) : Host.Outcome State Fault Refusal := s.onChip (haltSet k false)

end Sys2Proof.Machine
end

