-- ==== Sys2Proof/Machine/Triton.lean ====
section
/-! DEFINITION. The commands of Triton's voter (14 R333 to R339). -/

namespace Sys2Proof.Machine

/-- SYNC_LIMIT (R333). -/
def execSyncLimit (vote : LostVote) (s : State) : Host.Outcome State Fault Refusal :=
  s.onChip (syncLost vote.lane vote.input vote.lost)

/-- REINT (R334): a write of TRI_CTL. -/
def execReint (ini : Initiator) (v : Word) (s : State) : Host.Outcome State Fault Refusal := s.onChip (busWrite ini (triR 8) v)

/-- REINT_ABORT (R337): a write of TRI_CTL. -/
def execReintAbort (ini : Initiator) (v : Word) (s : State) : Host.Outcome State Fault Refusal :=
  s.onChip (busWrite ini (triR 8) v)

/-- COPY_END (R335). -/
def execCopyEnd (s : State) : Host.Outcome State Fault Refusal := s.onChip reintCopied

/-- PAUSE_END (R336, R337): `odd` tells whether the drain took an odd number of cycles of CLK_L. -/
def execPauseEnd (odd : Bool) (s : State) : Host.Outcome State Fault Refusal := s.onChip (reintDone odd)

/-- REINT_DRAIN_LIMIT (R337). -/
def execReintDrainLimit (s : State) : Host.Outcome State Fault Refusal := s.onChip reintDrain

/-- REINT_TIMEOUT (R337): cause TIME. -/
def execReintTimeout (s : State) : Host.Outcome State Fault Refusal := s.onChip (fun c => if reintLate c then reintFail 2 c else c)

/-- TRI_SYNCCNT (R339): a read, which clears it. -/
def execTriSynccnt (ini : Initiator) (s : State) : Host.Outcome State Fault Refusal := s.onChip (busRead ini (triR 0x18))

end Sys2Proof.Machine
end

