-- ==== Sys2Proof/Machine/Window.lean ====
section
/-! DEFINITION. The commands of the window comparators (07). -/

namespace Sys2Proof.Machine

/-- WIN_ENABLE (R181): the write of WIN_CFG that sets EN. -/
def execWinEnable (ini : Initiator) (w : Fin 96) (v : Word) (s : State) : Host.Outcome State Fault Refusal :=
  s.onChip (gatedWrite ini (winR w 0) (winCfgWrite ini w v))

/-- WIN_RESTART (R182): the write of WIN_CFG that changes INPUT or HYST. -/
def execWinRestart (ini : Initiator) (w : Fin 96) (v : Word) (s : State) : Host.Outcome State Fault Refusal :=
  s.onChip (gatedWrite ini (winR w 0) (winCfgWrite ini w v))

/-- WIN_DISABLE (R182): the write of WIN_CFG that clears EN. -/
def execWinDisable (ini : Initiator) (w : Fin 96) (v : Word) (s : State) : Host.Outcome State Fault Refusal :=
  s.onChip (gatedWrite ini (winR w 0) (winCfgWrite ini w v))

/-- WIN_SETTLED (R181): a settling window takes the majority of the samples kept. -/
def execWinSettled (w : Fin 96) (s : State) : Host.Outcome State Fault Refusal :=
  s.onChip (fun c =>
    if winEn c w && c.wins[w].settleFrom.isSome then
      let m := filtM (c.fld (winR w 0) 6 3)
      winSettle w (winMajority c w m).1 (winMajority c w m).2 c
    else c)

/-- WIN_STATE_CHANGE (R177, R183): the filter output registers of a settled window take `l` and `u`. -/
def execWinStateChange (w : Fin 96) (l u : Bool) (s : State) : Host.Outcome State Fault Refusal :=
  s.onChip (fun c => if winEn c w && winSettledB c w then winEnter w l u c else c)

/-- WIN_THR (R180): a write of WIN_THR, WIN_RAMPL or WIN_RAMPH. -/
def execWinThr (ini : Initiator) (w : Fin 96) (reg : Fin 3) (v : Word) (s : State) : Host.Outcome State Fault Refusal :=
  s.onChip (gatedWrite ini (winR w (4 + 4 * reg.val)) (winThrWrite ini w reg v))

end Sys2Proof.Machine
end

