-- ==== Sys2Proof/Machine/XLane.lean ====
section
/-! DEFINITION. The commands of the express lanes (08). -/

namespace Sys2Proof.Machine

/-- XL_ENABLE (R191): the write of XL_CFG that sets EN. -/
def execXlEnable (ini : Initiator) (x : Fin 12) (v : Word) (s : State) : Host.Outcome State Fault Refusal :=
  s.onChip (gatedWrite ini (xlR x 0) (xlCfgWrite ini x v))

/-- XL_DISABLE (R191): the write of XL_CFG that clears EN. -/
def execXlDisable (ini : Initiator) (x : Fin 12) (v : Word) (s : State) : Host.Outcome State Fault Refusal :=
  s.onChip (gatedWrite ini (xlR x 0) (xlCfgWrite ini x v))

/-- PAIR_WINDOW (R197): the pair window of a record held alone passes with the present cycle. -/
def execPairWindow (x : Fin 12) (s : State) : Host.Outcome State Fault Refusal := s.onChip (xlPairOver x)

/-- FOC3_RESULT (R202). -/
def execFoc3Result (x : Fin 12) (s : State) : Host.Outcome State Fault Refusal :=
  s.onChip (xlResult x (fun f => f.mode == 1))

/-- SCALAR4_RESULT of loop `l` (R203). -/
def execScalar4Result (x : Fin 12) (l : Fin 4) (s : State) : Host.Outcome State Fault Refusal :=
  s.onChip (xlResult x (fun f => f.mode == 2 && f.loop == l.val))

/-- PEAK2_RESULT of loop `l` (R204). -/
def execPeak2Result (x : Fin 12) (l : Fin 2) (s : State) : Host.Outcome State Fault Refusal :=
  s.onChip (xlResult x (fun f => f.mode == 3 && f.loop == l.val))

/-- IRST (R212): a write of XL_CTL. -/
def execIrst (ini : Initiator) (x : Fin 12) (v : Word) (s : State) : Host.Outcome State Fault Refusal :=
  s.onChip (gatedWrite ini (xlR x 0xC) (xlCtlWrite x v))

/-- XL_CNT: the read that clears both counts (R212). -/
def execXlCnt (ini : Initiator) (x : Fin 12) (s : State) : Host.Outcome State Fault Refusal :=
  s.onChip (gatedRead ini (xlR x 0x10) (fun c => c.readClear (xlR x 0x10)))

end Sys2Proof.Machine
end

