-- ==== Sys2Proof/Machine/Dispatch.lean ====
section
/-! DEFINITION. The dispatch of a command to its meaning: one arm per constructor of `Instr`. -/

namespace Sys2Proof.Machine

def exec (i : Instr) (s : State) : Host.Outcome State Fault Refusal :=
  match i with
  | .registerWrite ini addr v => Sys2Proof.Machine.execRegisterWrite ini addr v s
  | .fabricGrant t reqs => Sys2Proof.Machine.execFabricGrant t reqs s
  | .pbEnable ini p v => Sys2Proof.Machine.execPbEnable ini p v s
  | .pbDisable ini p v => Sys2Proof.Machine.execPbDisable ini p v s
  | .acq ini p v => Sys2Proof.Machine.execAcq ini p v s
  | .pbAng ini p v => Sys2Proof.Machine.execPbAng ini p v s
  | .encCount p a b => Sys2Proof.Machine.execEncCount p a b s
  | .indexEdge p => Sys2Proof.Machine.execIndexEdge p s
  | .hallChange p st => Sys2Proof.Machine.execHallChange p st s
  | .strobe p => Sys2Proof.Machine.execStrobe p s
  | .trackerSample p sn cs => Sys2Proof.Machine.execTrackerSample p sn cs s
  | .trackerSampleTimeout p => Sys2Proof.Machine.execTrackerSampleTimeout p s
  | .gridSample p x => Sys2Proof.Machine.execGridSample p x s
  | .disciplinePulse p => Sys2Proof.Machine.execDisciplinePulse p s
  | .pbSwang ini p v => Sys2Proof.Machine.execPbSwang ini p v s
  | .pbSwvel ini p v => Sys2Proof.Machine.execPbSwvel ini p v s
  | .updateApply p => Sys2Proof.Machine.execUpdateApply p s
  | .slewEnd p => Sys2Proof.Machine.execSlewEnd p s
  | .pbTimeout p => Sys2Proof.Machine.execPbTimeout p s
  | .revolution p back => Sys2Proof.Machine.execRevolution p back s
  | .captureEdge c rise => Sys2Proof.Machine.execCaptureEdge c rise s
  | .capRdt ini c => Sys2Proof.Machine.execCapRdt ini c s
  | .schIns3 ini v => Sys2Proof.Machine.execSchIns3 ini v s
  | .insertionService => Sys2Proof.Machine.execInsertionService s
  | .schRem ini v => Sys2Proof.Machine.execSchRem ini v s
  | .removalService => Sys2Proof.Machine.execRemovalService s
  | .schEn ini p v => Sys2Proof.Machine.execSchEn ini p v s
  | .arm p => Sys2Proof.Machine.execArm p s
  | .resume ini p v => Sys2Proof.Machine.execResume ini p v s
  | .binCrossing p => Sys2Proof.Machine.execBinCrossing p s
  | .actionLoad p => Sys2Proof.Machine.execActionLoad p s
  | .reinsertion p => Sys2Proof.Machine.execReinsertion p s
  | .sweep p => Sys2Proof.Machine.execSweep p s
  | .eviction p => Sys2Proof.Machine.execEviction p s
  | .nopAction hd phi back => Sys2Proof.Machine.execNopAction hd phi back s
  | .adcStart hd phi back => Sys2Proof.Machine.execAdcStart hd phi back s
  | .pwmEdge hd phi back => Sys2Proof.Machine.execPwmEdge hd phi back s
  | .pwmCommit hd phi back => Sys2Proof.Machine.execPwmCommit hd phi back s
  | .emit hd phi back => Sys2Proof.Machine.execEmit hd phi back s
  | .gpioSet hd phi back => Sys2Proof.Machine.execGpioSet hd phi back s
  | .gpioClr hd phi back => Sys2Proof.Machine.execGpioClr hd phi back s
  | .gpioTog hd phi back => Sys2Proof.Machine.execGpioTog hd phi back s
  | .dmaStart hd phi back => Sys2Proof.Machine.execDmaStart hd phi back s
  | .wake hd phi back => Sys2Proof.Machine.execWake hd phi back s
  | .peaWrite hd phi back => Sys2Proof.Machine.execPeaWrite hd phi back s
  | .pwmEnable ini n v => Sys2Proof.Machine.execPwmEnable ini n v s
  | .pwmDisable ini n v => Sys2Proof.Machine.execPwmDisable ini n v s
  | .zro n phi => Sys2Proof.Machine.execZro n phi s
  | .prd n phi => Sys2Proof.Machine.execPrd n phi s
  | .compareEvent n x down phi => Sys2Proof.Machine.execCompareEvent n x down phi s
  | .deadBandEnd n outB phi => Sys2Proof.Machine.execDeadBandEnd n outB phi s
  | .minimumPulseEnd n outB phi => Sys2Proof.Machine.execMinimumPulseEnd n outB phi s
  | .sync n chain => Sys2Proof.Machine.execSync n chain s
  | .syncDeadline n => Sys2Proof.Machine.execSyncDeadline n s
  | .delayLineReplace pos quiet => Sys2Proof.Machine.execDelayLineReplace pos quiet s
  | .pwmIps ini n v => Sys2Proof.Machine.execPwmIps ini n v s
  | .pwmXbar ini pos v => Sys2Proof.Machine.execPwmXbar ini pos v s
  | .pwmSafe ini n v => Sys2Proof.Machine.execPwmSafe ini n v s
  | .shadowWrite ini n k v => Sys2Proof.Machine.execShadowWrite ini n k v s
  | .close ini n v => Sys2Proof.Machine.execClose ini n v s
  | .flush ini n v => Sys2Proof.Machine.execFlush ini n v s
  | .pwmCmtcfg ini n v => Sys2Proof.Machine.execPwmCmtcfg ini n v s
  | .sqpush ini n v => Sys2Proof.Machine.execSqpush ini n v s
  | .tripInputActive s_ i_ => Sys2Proof.Machine.execTripInputActive s_ i_ s
  | .tripclr ini n v => Sys2Proof.Machine.execTripclr ini n v s
  | .halt c => Sys2Proof.Machine.execHalt c s
  | .debugResume c => Sys2Proof.Machine.execDebugResume c s
  | .adcTrigger k t => Sys2Proof.Machine.execAdcTrigger k t s
  | .adcSwstart ini k v => Sys2Proof.Machine.execAdcSwstart ini k v s
  | .sampleInstant k => Sys2Proof.Machine.execSampleInstant k s
  | .conversionComplete k => Sys2Proof.Machine.execConversionComplete k s
  | .adcEnable ini k v => Sys2Proof.Machine.execAdcEnable ini k v s
  | .adcReady k => Sys2Proof.Machine.execAdcReady k s
  | .adcDisable ini k v => Sys2Proof.Machine.execAdcDisable ini k v s
  | .adcQpopl ini k => Sys2Proof.Machine.execAdcQpopl ini k s
  | .adcResl ini k j => Sys2Proof.Machine.execAdcResl ini k j s
  | .adcCnt ini k => Sys2Proof.Machine.execAdcCnt ini k s
  | .sdmOutput k bits => Sys2Proof.Machine.execSdmOutput k bits s
  | .sdmSync g => Sys2Proof.Machine.execSdmSync g s
  | .fastPathThreshold k bits => Sys2Proof.Machine.execFastPathThreshold k bits s
  | .fastPathSettled k => Sys2Proof.Machine.execFastPathSettled k s
  | .sdmClkloss k => Sys2Proof.Machine.execSdmClkloss k s
  | .stuck k => Sys2Proof.Machine.execStuck k s
  | .sdmQpopl ini k => Sys2Proof.Machine.execSdmQpopl ini k s
  | .winEnable ini w v => Sys2Proof.Machine.execWinEnable ini w v s
  | .winRestart ini w v => Sys2Proof.Machine.execWinRestart ini w v s
  | .winDisable ini w v => Sys2Proof.Machine.execWinDisable ini w v s
  | .winSettled w => Sys2Proof.Machine.execWinSettled w s
  | .winStateChange w l u => Sys2Proof.Machine.execWinStateChange w l u s
  | .winThr ini w reg v => Sys2Proof.Machine.execWinThr ini w reg v s
  | .lpWindowWake w l u => Sys2Proof.Machine.execLpWindowWake w l u s
  | .xlEnable ini s_ v => Sys2Proof.Machine.execXlEnable ini s_ v s
  | .xlDisable ini s_ v => Sys2Proof.Machine.execXlDisable ini s_ v s
  | .pairWindow s_ => Sys2Proof.Machine.execPairWindow s_ s
  | .foc3Result s_ => Sys2Proof.Machine.execFoc3Result s_ s
  | .scalar4Result s_ l => Sys2Proof.Machine.execScalar4Result s_ l s
  | .peak2Result s_ l => Sys2Proof.Machine.execPeak2Result s_ l s
  | .irst ini s_ v => Sys2Proof.Machine.execIrst ini s_ v s
  | .xlCnt ini s_ => Sys2Proof.Machine.execXlCnt ini s_ s
  | .leRun ini n v => Sys2Proof.Machine.execLeRun ini n v s
  | .peaPortAccess n w wr => Sys2Proof.Machine.execPeaPortAccess n w wr s
  | .peaSharedAccess ini w wr => Sys2Proof.Machine.execPeaSharedAccess ini w wr s
  | .peaCmt ini v => Sys2Proof.Machine.execPeaCmt ini v s
  | .peaAlloc ini w v => Sys2Proof.Machine.execPeaAlloc ini w v s
  | .consumerPulse c => Sys2Proof.Machine.execConsumerPulse c s
  | .evmGcfg ini g v => Sys2Proof.Machine.execEvmGcfg ini g v s
  | .evmLgstat ini v => Sys2Proof.Machine.execEvmLgstat ini v s
  | .add h rd ra rb => Sys2Proof.Machine.execAdd h rd ra rb s
  | .adc h rd ra rb => Sys2Proof.Machine.execAdc h rd ra rb s
  | .sub h rd ra rb => Sys2Proof.Machine.execSub h rd ra rb s
  | .sbc h rd ra rb => Sys2Proof.Machine.execSbc h rd ra rb s
  | .and h rd ra rb => Sys2Proof.Machine.execAnd h rd ra rb s
  | .or h rd ra rb => Sys2Proof.Machine.execOr h rd ra rb s
  | .xor h rd ra rb => Sys2Proof.Machine.execXor h rd ra rb s
  | .bic h rd ra rb => Sys2Proof.Machine.execBic h rd ra rb s
  | .lsl h rd ra rb => Sys2Proof.Machine.execLsl h rd ra rb s
  | .lsr h rd ra rb => Sys2Proof.Machine.execLsr h rd ra rb s
  | .asr h rd ra rb => Sys2Proof.Machine.execAsr h rd ra rb s
  | .ror h rd ra rb => Sys2Proof.Machine.execRor h rd ra rb s
  | .min h rd ra rb => Sys2Proof.Machine.execMin h rd ra rb s
  | .max h rd ra rb => Sys2Proof.Machine.execMax h rd ra rb s
  | .minu h rd ra rb => Sys2Proof.Machine.execMinu h rd ra rb s
  | .maxu h rd ra rb => Sys2Proof.Machine.execMaxu h rd ra rb s
  | .cmp h ra rb => Sys2Proof.Machine.execCmp h ra rb s
  | .cmpu h ra rb => Sys2Proof.Machine.execCmpu h ra rb s
  | .tst h ra rb => Sys2Proof.Machine.execTst h ra rb s
  | .mov h w rd ra => Sys2Proof.Machine.execMov h w rd ra s
  | .sxtb h rd ra => Sys2Proof.Machine.execSxtb h rd ra s
  | .sxth h rd ra => Sys2Proof.Machine.execSxth h rd ra s
  | .zxtb h rd ra => Sys2Proof.Machine.execZxtb h rd ra s
  | .zxth h rd ra => Sys2Proof.Machine.execZxth h rd ra s
  | .clz h rd ra => Sys2Proof.Machine.execClz h rd ra s
  | .neg h rd ra => Sys2Proof.Machine.execNeg h rd ra s
  | .abs h rd ra => Sys2Proof.Machine.execAbs h rd ra s
  | .movfh h rd ra => Sys2Proof.Machine.execMovfh h rd ra s
  | .movth h rd ra => Sys2Proof.Machine.execMovth h rd ra s
  | .addi h rd ra imm => Sys2Proof.Machine.execAddi h rd ra imm s
  | .subi h rd imm => Sys2Proof.Machine.execSubi h rd imm s
  | .andi h rd ra imm => Sys2Proof.Machine.execAndi h rd ra imm s
  | .ori h rd ra imm => Sys2Proof.Machine.execOri h rd ra imm s
  | .xori h rd ra imm => Sys2Proof.Machine.execXori h rd ra imm s
  | .lsli h rd ra imm => Sys2Proof.Machine.execLsli h rd ra imm s
  | .lsri h rd ra imm => Sys2Proof.Machine.execLsri h rd ra imm s
  | .asri h rd ra imm => Sys2Proof.Machine.execAsri h rd ra imm s
  | .rori h rd ra imm => Sys2Proof.Machine.execRori h rd ra imm s
  | .cmpi h ra imm => Sys2Proof.Machine.execCmpi h ra imm s
  | .cmpui h ra imm => Sys2Proof.Machine.execCmpui h ra imm s
  | .muli h rd ra imm => Sys2Proof.Machine.execMuli h rd ra imm s
  | .movi h rd imm => Sys2Proof.Machine.execMovi h rd imm s
  | .movhi h rd imm => Sys2Proof.Machine.execMovhi h rd imm s
  | .addiw h rd imm => Sys2Proof.Machine.execAddiw h rd imm s
  | .addsp h off => Sys2Proof.Machine.execAddsp h off s
  | .mul h rd ra rb => Sys2Proof.Machine.execMul h rd ra rb s
  | .mulh h rd ra rb => Sys2Proof.Machine.execMulh h rd ra rb s
  | .mulhu h rd ra rb => Sys2Proof.Machine.execMulhu h rd ra rb s
  | .div h rd ra rb => Sys2Proof.Machine.execDiv h rd ra rb s
  | .divu h rd ra rb => Sys2Proof.Machine.execDivu h rd ra rb s
  | .rem h rd ra rb => Sys2Proof.Machine.execRem h rd ra rb s
  | .remu h rd ra rb => Sys2Proof.Machine.execRemu h rd ra rb s
  | .adds h rd ra rb => Sys2Proof.Machine.execAdds h rd ra rb s
  | .subs h rd ra rb => Sys2Proof.Machine.execSubs h rd ra rb s
  | .negs h rd ra => Sys2Proof.Machine.execNegs h rd ra s
  | .abss h rd ra => Sys2Proof.Machine.execAbss h rd ra s
  | .divs h rd ra rb => Sys2Proof.Machine.execDivs h rd ra rb s
  | .mulq31 h rd ra rb => Sys2Proof.Machine.execMulq31 h rd ra rb s
  | .mulq15 h rd ra rb => Sys2Proof.Machine.execMulq15 h rd ra rb s
  | .mac h ac ra rb => Sys2Proof.Machine.execMac h ac ra rb s
  | .msu h ac ra rb => Sys2Proof.Machine.execMsu h ac ra rb s
  | .aclr h ac => Sys2Proof.Machine.execAclr h ac s
  | .acsh h ac ra => Sys2Proof.Machine.execAcsh h ac ra s
  | .acrd h rd ac ra => Sys2Proof.Machine.execAcrd h rd ac ra s
  | .acwr h ac ra => Sys2Proof.Machine.execAcwr h ac ra s
  | .ldb h rd ra off => Sys2Proof.Machine.execLdb h rd ra off s
  | .ldbu h rd ra off => Sys2Proof.Machine.execLdbu h rd ra off s
  | .ldh h rd ra off => Sys2Proof.Machine.execLdh h rd ra off s
  | .ldhu h rd ra off => Sys2Proof.Machine.execLdhu h rd ra off s
  | .ldw h w rd ra off => Sys2Proof.Machine.execLdw h w rd ra off s
  | .ldf h fd ra off => Sys2Proof.Machine.execLdf h fd ra off s
  | .stb h rd ra off => Sys2Proof.Machine.execStb h rd ra off s
  | .sth h rd ra off => Sys2Proof.Machine.execSth h rd ra off s
  | .stw h w rd ra off => Sys2Proof.Machine.execStw h w rd ra off s
  | .stf h fd ra off => Sys2Proof.Machine.execStf h fd ra off s
  | .swap h rd ra rb => Sys2Proof.Machine.execSwap h rd ra rb s
  | .cas h rd ra rb => Sys2Proof.Machine.execCas h rd ra rb s
  | .amoadd h rd ra rb => Sys2Proof.Machine.execAmoadd h rd ra rb s
  | .amoand h rd ra rb => Sys2Proof.Machine.execAmoand h rd ra rb s
  | .amoor h rd ra rb => Sys2Proof.Machine.execAmoor h rd ra rb s
  | .br h off => Sys2Proof.Machine.execBr h off s
  | .call h off => Sys2Proof.Machine.execCall h off s
  | .jr h ra => Sys2Proof.Machine.execJr h ra s
  | .jlr h ra => Sys2Proof.Machine.execJlr h ra s
  | .ret h => Sys2Proof.Machine.execRet h s
  | .callm h mask rt off => Sys2Proof.Machine.execCallm h mask rt off s
  | .retm h mask => Sys2Proof.Machine.execRetm h mask s
  | .nop h => Sys2Proof.Machine.execNop h s
  | .yield h => Sys2Proof.Machine.execYield h s
  | .wfe h => Sys2Proof.Machine.execWfe h s
  | .rep h pair => Sys2Proof.Machine.execRep h pair s
  | .repu h pair => Sys2Proof.Machine.execRepu h pair s
  | .setc h code => Sys2Proof.Machine.execSetc h code s
  | .brk h => Sys2Proof.Machine.execBrk h s
  | .trap h n => Sys2Proof.Machine.execTrap h n s
  | .fence h => Sys2Proof.Machine.execFence h s
  | .fenceI h => Sys2Proof.Machine.execFenceI h s
  | .rte h => Sys2Proof.Machine.execRte h s
  | .rdsr h rd sr => Sys2Proof.Machine.execRdsr h rd sr s
  | .wrsr h sr ra => Sys2Proof.Machine.execWrsr h sr ra s
  | .sev h ra d => Sys2Proof.Machine.execSev h ra d s
  | .waitt h rd ra rb => Sys2Proof.Machine.execWaitt h rd ra rb s
  | .waittCondition c b abort => Sys2Proof.Machine.execWaittCondition c b abort s
  | .waittTimeout c b => Sys2Proof.Machine.execWaittTimeout c b s
  | .fadd h half fd fa fb => Sys2Proof.Machine.execFadd h half fd fa fb s
  | .fsub h half fd fa fb => Sys2Proof.Machine.execFsub h half fd fa fb s
  | .fmul h half fd fa fb => Sys2Proof.Machine.execFmul h half fd fa fb s
  | .fdiv h half fd fa fb => Sys2Proof.Machine.execFdiv h half fd fa fb s
  | .fsqrt h half fd fa => Sys2Proof.Machine.execFsqrt h half fd fa s
  | .fmac h half fd fa fb => Sys2Proof.Machine.execFmac h half fd fa fb s
  | .fmin h half fd fa fb => Sys2Proof.Machine.execFmin h half fd fa fb s
  | .fmax h half fd fa fb => Sys2Proof.Machine.execFmax h half fd fa fb s
  | .fneg h half fd fa => Sys2Proof.Machine.execFneg h half fd fa s
  | .fabs h half fd fa => Sys2Proof.Machine.execFabs h half fd fa s
  | .fcmp h fa fb => Sys2Proof.Machine.execFcmp h fa fb s
  | .ftoi h rd fa => Sys2Proof.Machine.execFtoi h rd fa s
  | .ftou h rd fa => Sys2Proof.Machine.execFtou h rd fa s
  | .itof h fd ra => Sys2Proof.Machine.execItof h fd ra s
  | .utof h fd ra => Sys2Proof.Machine.execUtof h fd ra s
  | .fnarrow h fd fa => Sys2Proof.Machine.execFnarrow h fd fa s
  | .fwiden h fd fa => Sys2Proof.Machine.execFwiden h fd fa s
  | .fmovtg h rd fa => Sys2Proof.Machine.execFmovtg h rd fa s
  | .fmovfg h fd ra => Sys2Proof.Machine.execFmovfg h fd ra s
  | .fkind h rd fa => Sys2Proof.Machine.execFkind h rd fa s
  | .longInstructionComplete c i_ => Sys2Proof.Machine.execLongInstructionComplete c i_ s
  | .recognition c => Sys2Proof.Machine.execRecognition c s
  | .bankCtl c v => Sys2Proof.Machine.execBankCtl c v s
  | .coreLock c v => Sys2Proof.Machine.execCoreLock c v s
  | .syncLimit vote => Sys2Proof.Machine.execSyncLimit vote s
  | .reint ini v => Sys2Proof.Machine.execReint ini v s
  | .reintAbort ini v => Sys2Proof.Machine.execReintAbort ini v s
  | .copyEnd => Sys2Proof.Machine.execCopyEnd s
  | .pauseEnd odd => Sys2Proof.Machine.execPauseEnd odd s
  | .reintDrainLimit => Sys2Proof.Machine.execReintDrainLimit s
  | .reintTimeout => Sys2Proof.Machine.execReintTimeout s
  | .triSynccnt ini => Sys2Proof.Machine.execTriSynccnt ini s
  | .eccWriteback id word => Sys2Proof.Machine.execEccWriteback id word s
  | .scrubStep id => Sys2Proof.Machine.execScrubStep id s
  | .memLoga ini => Sys2Proof.Machine.execMemLoga ini s
  | .memCecnt ini => Sys2Proof.Machine.execMemCecnt ini s
  | .memUecnt ini => Sys2Proof.Machine.execMemUecnt ini s
  | .dmaCcfg ini u c v => Sys2Proof.Machine.execDmaCcfg ini u c v s
  | .dmaReset ini u c v => Sys2Proof.Machine.execDmaReset ini u c v s
  | .dmaAbort ini u c v => Sys2Proof.Machine.execDmaAbort ini u c v s
  | .abortComplete u c => Sys2Proof.Machine.execAbortComplete u c s
  | .dmaCdb ini u c v => Sys2Proof.Machine.execDmaCdb ini u c v s
  | .dmaTrigger u c => Sys2Proof.Machine.execDmaTrigger u c s
  | .descriptorFetch u c => Sys2Proof.Machine.execDescriptorFetch u c s
  | .dmaReadBurst u => Sys2Proof.Machine.execDmaReadBurst u s
  | .dmaWriteBurst u => Sys2Proof.Machine.execDmaWriteBurst u s
  | .linkWordRead u c => Sys2Proof.Machine.execLinkWordRead u c s
  | .descriptorComplete u c => Sys2Proof.Machine.execDescriptorComplete u c s
  | .train port heard => Sys2Proof.Machine.execTrain port heard s
  | .trainingPhaseEnd port => Sys2Proof.Machine.execTrainingPhaseEnd port s
  | .phaseTimeout port => Sys2Proof.Machine.execPhaseTimeout port s
  | .silentIntervalEnd port => Sys2Proof.Machine.execSilentIntervalEnd port s
  | .retryTimeout port => Sys2Proof.Machine.execRetryTimeout port s
  | .lockLoss loss => Sys2Proof.Machine.execLockLoss loss s
  | .retrain ini port v => Sys2Proof.Machine.execRetrain ini port v s
  | .llPctl ini port v => Sys2Proof.Machine.execLlPctl ini port v s
  | .pea port slots => Sys2Proof.Machine.execPea port slots s
  | .command port slots => Sys2Proof.Machine.execCommand port slots s
  | .reply port slots => Sys2Proof.Machine.execReply port slots s
  | .enum port slots => Sys2Proof.Machine.execEnum port slots s
  | .writeFrame port slots => Sys2Proof.Machine.execWriteFrame port slots s
  | .statusFrame port slots => Sys2Proof.Machine.execStatusFrame port slots s
  | .frameTransmit port => Sys2Proof.Machine.execFrameTransmit port s
  | .controlHoldTimeout port => Sys2Proof.Machine.execControlHoldTimeout port s
  | .replayTimeout port dataPlane => Sys2Proof.Machine.execReplayTimeout port dataPlane s
  | .statusTimer port => Sys2Proof.Machine.execStatusTimer port s
  | .nakTimeout port dataPlane => Sys2Proof.Machine.execNakTimeout port dataPlane s
  | .llTxq ini v => Sys2Proof.Machine.execLlTxq ini v s
  | .llWakectl ini v => Sys2Proof.Machine.execLlWakectl ini v s
  | .linkWake port => Sys2Proof.Machine.execLinkWake port s
  | .bridgeReceive frame => Sys2Proof.Machine.execBridgeReceive frame s
  | .llCrccnt ini port => Sys2Proof.Machine.execLlCrccnt ini port s
  | .llCtlcnt ini port => Sys2Proof.Machine.execLlCtlcnt ini port s
  | .llReplcnt ini port => Sys2Proof.Machine.execLlReplcnt ini port s
  | .llDropcnt ini port => Sys2Proof.Machine.execLlDropcnt ini port s
  | .llBrcnt ini => Sys2Proof.Machine.execLlBrcnt ini s
  | .ping pkt => Sys2Proof.Machine.execPing pkt s
  | .enumerate pkt => Sys2Proof.Machine.execEnumerate pkt s
  | .identify pkt => Sys2Proof.Machine.execIdentify pkt s
  | .sessionOpen pkt => Sys2Proof.Machine.execSessionOpen pkt s
  | .sessionOpenComplete => Sys2Proof.Machine.execSessionOpenComplete s
  | .sessionConfirm pkt => Sys2Proof.Machine.execSessionConfirm pkt s
  | .loadBegin pkt => Sys2Proof.Machine.execLoadBegin pkt s
  | .loadSegment pkt => Sys2Proof.Machine.execLoadSegment pkt s
  | .loadEnd pkt => Sys2Proof.Machine.execLoadEnd pkt s
  | .loadEndComplete => Sys2Proof.Machine.execLoadEndComplete s
  | .applyConfig pkt => Sys2Proof.Machine.execApplyConfig pkt s
  | .applyConfigComplete => Sys2Proof.Machine.execApplyConfigComplete s
  | .seal pkt => Sys2Proof.Machine.execSeal pkt s
  | .start pkt => Sys2Proof.Machine.execStart pkt s
  | .stop pkt => Sys2Proof.Machine.execStop pkt s
  | .read pkt => Sys2Proof.Machine.execRead pkt s
  | .write pkt => Sys2Proof.Machine.execWrite pkt s
  | .readBlock pkt => Sys2Proof.Machine.execReadBlock pkt s
  | .status pkt => Sys2Proof.Machine.execStatus pkt s
  | .faultLog pkt => Sys2Proof.Machine.execFaultLog pkt s
  | .clearFault pkt => Sys2Proof.Machine.execClearFault pkt s
  | .sliceDrain pkt => Sys2Proof.Machine.execSliceDrain pkt s
  | .sliceDrainComplete => Sys2Proof.Machine.execSliceDrainComplete s
  | .drainLimit n => Sys2Proof.Machine.execDrainLimit n s
  | .sliceLoad pkt => Sys2Proof.Machine.execSliceLoad pkt s
  | .sliceLoadComplete => Sys2Proof.Machine.execSliceLoadComplete s
  | .sliceVerify pkt => Sys2Proof.Machine.execSliceVerify pkt s
  | .sliceVerifyComplete => Sys2Proof.Machine.execSliceVerifyComplete s
  | .sliceResume pkt => Sys2Proof.Machine.execSliceResume pkt s
  | .sliceFence pkt => Sys2Proof.Machine.execSliceFence pkt s
  | .sliceSubstitute pkt => Sys2Proof.Machine.execSliceSubstitute pkt s
  | .tritonReintegrate pkt => Sys2Proof.Machine.execTritonReintegrate pkt s
  | .debugUnlock pkt => Sys2Proof.Machine.execDebugUnlock pkt s
  | .heartbeat pkt => Sys2Proof.Machine.execHeartbeat pkt s
  | .reset pkt => Sys2Proof.Machine.execReset pkt s
  | .heartbeatExpiry => Sys2Proof.Machine.execHeartbeatExpiry s
  | .cmdRejcnt ini => Sys2Proof.Machine.execCmdRejcnt ini s
  | .fuseProgram ini v => Sys2Proof.Machine.execFuseProgram ini v s
  | .fuseProgramComplete => Sys2Proof.Machine.execFuseProgramComplete s
  | .secRevoke ini v => Sys2Proof.Machine.execSecRevoke ini v s
  | .secRng ini => Sys2Proof.Machine.execSecRng ini s
  | .rngHealthFailure => Sys2Proof.Machine.execRngHealthFailure s
  | .bypass => Sys2Proof.Machine.execBypass s
  | .idcode => Sys2Proof.Machine.execIdcode s
  | .samplePreload load => Sys2Proof.Machine.execSamplePreload load s
  | .extest => Sys2Proof.Machine.execExtest s
  | .clamp => Sys2Proof.Machine.execClamp s
  | .highz => Sys2Proof.Machine.execHighz s
  | .gpioPin ini n v => Sys2Proof.Machine.execGpioPin ini n v s
  | .pinLevelChange n level => Sys2Proof.Machine.execPinLevelChange n level s
  | .evoutEnd j => Sys2Proof.Machine.execEvoutEnd j s
  | .bankSupplyFail b => Sys2Proof.Machine.execBankSupplyFail b s
  | .bankSupplyReturn b v33 => Sys2Proof.Machine.execBankSupplyReturn b v33 s
  | .wakePin k level => Sys2Proof.Machine.execWakePin k level s
  | .netAdj ini v => Sys2Proof.Machine.execNetAdj ini v s
  | .netSets ini v => Sys2Proof.Machine.execNetSets ini v s
  | .netTimen ini => Sys2Proof.Machine.execNetTimen ini s
  | .netTevcfg ini i_ reg v => Sys2Proof.Machine.execNetTevcfg ini i_ reg v s
  | .timeEventFire i_ => Sys2Proof.Machine.execTimeEventFire i_ s
  | .netTevmiss ini i_ => Sys2Proof.Machine.execNetTevmiss ini i_ s
  | .ethReceive m q => Sys2Proof.Machine.execEthReceive m q s
  | .ethTransmitEnd m q => Sys2Proof.Machine.execEthTransmitEnd m q s
  | .gateCycleStart m => Sys2Proof.Machine.execGateCycleStart m s
  | .canReceive i_ filt => Sys2Proof.Machine.execCanReceive i_ filt s
  | .sentReceive i_ => Sys2Proof.Machine.execSentReceive i_ s
  | .ppsEnd k => Sys2Proof.Machine.execPpsEnd k s
  | .pmuPdctl ini hi v => Sys2Proof.Machine.execPmuPdctl ini hi v s
  | .domainPowerUp d => Sys2Proof.Machine.execDomainPowerUp d s
  | .enterStandbyR ini v => Sys2Proof.Machine.execEnterStandbyR ini v s
  | .enterStandbyO ini v => Sys2Proof.Machine.execEnterStandbyO ini v s
  | .aonTimer => Sys2Proof.Machine.execAonTimer s
  | .powerOnReset boot => Sys2Proof.Machine.execPowerOnReset boot s
  | .resetN boot => Sys2Proof.Machine.execResetN boot s
  | .supplyBelowThreshold boot => Sys2Proof.Machine.execSupplyBelowThreshold boot s
  | .resetEnd => Sys2Proof.Machine.execResetEnd s
  | .sliceResetEnd s_ => Sys2Proof.Machine.execSliceResetEnd s_ s
  | .clockMonitor i_ => Sys2Proof.Machine.execClockMonitor i_ s
  | .clockMonitorEnd i_ => Sys2Proof.Machine.execClockMonitorEnd i_ s
  | .supplySupervisor i_ begins => Sys2Proof.Machine.execSupplySupervisor i_ begins s
  | .temperatureThreshold tj => Sys2Proof.Machine.execTemperatureThreshold tj s
  | .fltLog0 ini => Sys2Proof.Machine.execFltLog0 ini s
  | .fltLost ini => Sys2Proof.Machine.execFltLost ini s
  | .wdgCfg ini k v => Sys2Proof.Machine.execWdgCfg ini k v s
  | .wdgKick ini k v => Sys2Proof.Machine.execWdgKick ini k v s
  | .wdgWarn k => Sys2Proof.Machine.execWdgWarn k s
  | .wdgExpiry k => Sys2Proof.Machine.execWdgExpiry k s
  | .millisecondTick => Sys2Proof.Machine.execMillisecondTick s
  | .schLatecnt ini p => Sys2Proof.Machine.execSchLatecnt ini p s
  | .schSkipcnt ini p => Sys2Proof.Machine.execSchSkipcnt ini p s
  | .pwmPulsecnt ini n => Sys2Proof.Machine.execPwmPulsecnt ini n s
  | .pwmCmtcnt ini n => Sys2Proof.Machine.execPwmCmtcnt ini n s
  | .clkloss => Sys2Proof.Machine.execClkloss s
  | .sdmLossEnd k => Sys2Proof.Machine.execSdmLossEnd k s
  | .macLink m => Sys2Proof.Machine.execMacLink m s
  | .debugModuleAccess a => Sys2Proof.Machine.execDebugModuleAccess a s
  | .stuckBus i_ => Sys2Proof.Machine.execStuckBus i_ s
  | .serdesPllLock port => Sys2Proof.Machine.execSerdesPllLock port s
  | .standbyEntryComplete => Sys2Proof.Machine.execStandbyEntryComplete s
  | .standbyRResumed => Sys2Proof.Machine.execStandbyRResumed s

end Sys2Proof.Machine
end

