-- ==== Sys2Proof/Machine/Irq.lean ====
section
/-! DEFINITION. The interrupt lines (01 R26) at their levels, and what their edges bring the cores (13 R306). -/

namespace Sys2Proof.Machine

/-- Some bit of `m` is set in a status register and enabled in another. -/
def enabledIn (c : Chip) (stat en m : Nat) : Bool := c.reg stat &&& c.reg en &&& BitVec.ofNat 32 m != 0

/-- PWM[n] (04 R117, 05 R143). -/
def irqPwm (c : Chip) (n : Nat) : Bool :=
  enabledIn c (pwmR n 0x3C) (pwmR n 0x34) 0x7FFF || enabledIn c (pwmR n 0x88) (pwmR n 0x8C) 0x3F00

/-- PB[p] and the capture channels bound to it (02 R60, R64). -/
def irqPb (c : Chip) (p : Nat) : Bool :=
  enabledIn c (pbR p 8) (pbR p 0xC) 0x7FF00 ||
  (List.finRange 64).any (fun (k : Fin 64) =>
    let v := c.reg (capR k 0)
    v.bit 24 && (capPb v == p) && (capStat c k &&& 0xF != 0))
where
  capPb (v : Word) : Nat := v.fld 14 3

/-- The TEV generators `8 * m` to `8 * m + 7` (20 R460). -/
def irqTev (c : Chip) (m : Nat) : Bool :=
  (List.range 8).any (fun i =>
    let a := 8 * m + i
    c.bit (tevR a 0) 14 && c.reg (tevR a 0x18) &&& 3 != 0)

/-- Faults, watchdogs, power and clocks (21 R483). -/
def irqSys (c : Chip) (i : Nat) : Bool :=
  if i = 272 then (List.range 256).any (fun k => fltPending c k && decide (1 ≤ fltReact c k))
  else if i = 273 then decide (max (c.fld (sysR 0x1458) 0 7) 1 ≤ c.flt.log.length) || c.fld (sysR 0x1454) 0 16 != 0
  else if i < 282 then c.bit (wdgR (i - 274) 0xC) 16
  else if i = 282 then c.fld (sysR 4) 8 3 != 0
  else if i = 283 then c.fld (sysR 0x100) 16 12 != 0
  else if i = 284 then c.bit (sysR 4) 11
  else false

/-- Whether interrupt `i` is asserted. The network controllers' own lines are not modelled (log 55). -/
def irqLevel (c : Chip) (i : Nat) : Bool :=
  if i < 96 then irqPwm c i
  else if i < 108 then enabledIn c (xlR (i - 96) 4) (xlR (i - 96) 8) 0x7F00
  else if i < 140 then enabledIn c (adcR (i - 108) 4) (adcR (i - 108) 8) 0x7F00
  else if i < 172 then enabledIn c (sdmR (i - 140) 0xC) (sdmR (i - 140) 0x10) 0x7F00
  else if i < 184 then (List.range 8).any (fun j =>
    enabledIn c (winR (8 * (i - 172) + j) 0x10) (winR (8 * (i - 172) + j) 0x14) 0x3F00)
  else if i < 192 then irqPb c (i - 184)
  else if i < 200 then enabledIn c (schP (i - 192) 8) (schP (i - 192) 0xC) 0xFC
  else if i < 216 then
    enabledIn c (gpioBank (i - 200) 0x18) (gpioBank (i - 200) 0x20) 0xFFFFFFFF ||
    enabledIn c (gpioBank (i - 200) 0x1C) (gpioBank (i - 200) 0x24) 0xFFFFFFFF
  else if i < 248 then false
  else if i < 256 then (dmaUirq c (Fin.ofNat 2 ((i - 248) / 4))).fld (8 * ((i - 248) % 4)) 8 != 0
  else if i = 256 then enabledIn c (llP .up 4) (llP .up 8) 0x1F000000
  else if i = 257 then enabledIn c (llP .dn 4) (llP .dn 8) 0x1F000000
  else if i = 258 then enabledIn c (llR 4) (llR 8) 0x3F
  else if i = 259 then enabledIn c (cmdR 4) (cmdR 8) 0xF
  else if i = 266 then irqTev c 0
  else if i = 270 then irqTev c 1
  else if i < 272 then false
  else irqSys c i

/-- The levels of all lines. -/
def irqLevels (c : Chip) : BitVec 320 := (List.range 288).foldl (fun (x : BitVec 320) i =>
  if irqLevel c i then x ||| BitVec.ofNat 320 (2 ^ i) else x) 0

/-- One core sees the lines of a cycle: each that was deasserted and is asserted is an activation (13 R306). -/
def irqCore (now : BitVec 320) (k : CoreId) (c : Chip) : Chip :=
  let was := (coreGet c k).irq
  let c := (List.range 288).foldl (fun (c : Chip) i =>
    if now.getLsbD i && !was.getLsbD i then interrupt k i c else c) c
  updCore k (fun s => { s with irq := now }) c

/-- The voted lines on their way to Triton (14 R331): those of the present cycle enter where they differ from the last, and those that are
due are delivered, in a pause of its reintegration after it (14 R336). -/
def irqTriton (x : BitVec 320) (c : Chip) : Chip :=
  let v := voteLines c x
  let last := (c.vote.pipe.getLast?.map (·.2)).getD (coreGet c .triton).irq
  let pipe := if v = last then c.vote.pipe else c.vote.pipe ++ [(c.now + inputDelay .triton, v)]
  if triPaused c then { c with vote := { c.vote with pipe := pipe } }
  else
    let c := { c with vote := { c.vote with pipe := pipe.filter (fun (e : Nat × BitVec 320) => decide (c.now < e.1)) } }
    (pipe.filter (fun (e : Nat × BitVec 320) => decide (e.1 ≤ c.now))).foldl (fun (c : Chip) e => irqCore e.2 .triton c) c

/-- The interrupt lines of a cycle reach every core, Triton through its vote. -/
def irqScan (c : Chip) : Chip :=
  let x := irqLevels c
  syncEnd (irqTriton x (allCores.foldl (fun (c : Chip) k => if k = .triton then c else irqCore x k c) c))

end Sys2Proof.Machine
end

