-- ==== Sys2Proof/Machine/Tick.lean ====
section
/-! DEFINITION. What the block does of its own in one cycle of CLK_C when no command waits (log 1): the happenings that are
due, in their order, then what every cycle brings, then the end of the cycle. -/

namespace Sys2Proof.Machine

/-! ### The agenda -/

/-- The fine tick of a happening within its cycle. -/
def evPhi : Ev → Nat
  | .fire _ phi _ _ => phi.val
  | .gpioEdge _ _ phi => phi.val
  | .zro _ phi => phi.val
  | .prd _ phi => phi.val
  | .compareEvent _ _ _ phi => phi.val
  | .deadBandEnd _ _ phi => phi.val
  | .minimumPulseEnd _ _ phi => phi.val
  | .outStage _ phi => phi.val
  | _ => 0

/-- At one fine tick, the channels' own events before the scheduler's (03 R80, R88), then the output stages, which follow all of
them (04 R96), then what their delays bring. -/
def evClass : Ev → Nat
  | .fire _ _ _ _ => 2
  | .gpioEdge _ _ _ => 2
  | .zro _ _ => 1
  | .prd _ _ => 1
  | .compareEvent _ _ _ _ => 1
  | .outStage _ _ => 3
  | .deadBandEnd _ _ _ => 4
  | .minimumPulseEnd _ _ _ => 4
  | _ => 0

/-- The scheduler's own go by ascending handle at one fine tick (03 R80). -/
def evRank : Ev → Nat
  | .fire hd _ _ _ => hd.val
  | .schPea _ _ hd => hd.val
  | _ => 0

/-- Lexicographic order of lists of numbers. -/
def lexLt : List Nat → List Nat → Bool
  | x :: xs, y :: ys => decide (x < y) || (x == y && lexLt xs ys)
  | [], _ :: _ => true
  | _, [] => false

def evKey (e : Nat × Ev) : List Nat := [e.1, evPhi e.2, evClass e.2, evRank e.2]

/-- Whether one happening comes before another; equal ones keep the order in which they were placed. -/
def evBefore (a b : Nat × Ev) : Bool := lexLt (evKey a) (evKey b)

/-- The next happening that is due; those at an instant within the cycle wait for its sweep, which places the rest of
them. -/
def nextDue (c : Chip) : Option (Nat × Ev) :=
  c.agenda.foldl (fun best e =>
    if decide (c.now < e.1) || (!c.swept && evClass e.2 != 0) then best
    else match best with
      | none => some e
      | some b => if evBefore e b then some e else some b) none

/-- What a happening does: the effect that its command has. -/
def runEv (e : Ev) (c : Chip) : Chip :=
  match e with
  | .consumerPulse e => consumerNow e c
  | .adcTrigger k t => adcTrig k t c
  | .sync n chain => syncPulse n chain c
  | .chainIn s => chainPulse s c
  | .encCount p a b => encLevels p a b c
  | .indexEdge p => encIndex p c
  | .hallChange p st => hallTake p st c
  | .sdmSync g => sdmSyncNow g c
  | .captureEdge k rise => captureNow k rise c
  | .dmaTrigger u ch => dmaTrig u ch c
  | .disciplinePulse p => disciplineNow p c
  | .strobe p => strobeNow p c
  | .arm p => armPulse p c
  | .evoutEnd j => { c with pins := { c.pins with evout := c.pins.evout.set j (0, 0) } }
  | .schAdc k entry => adcStartAt k entry.val 2 c
  | .schCommit n => eventCommit n c
  | .schPea w v _ => peaWrite 0x25 w.val v c
  | .gpioEdge pin how _ => gpioAct pin.val how.val c
  | .srcPulse n => evPulse n.val c
  | .schWake core bank => match coreOfBit core.val with
    | some k => activateBank k bank c
    | none => c
  | .senseTake p => sensLevels p c
  | .capTake k => capTakeNow k c
  | .capLook k => capSeen k.val c
  | .updateApply p => updateApply p c
  | .slewEnd p => slewEndNow p c
  | .trackerTimeout p => trkTimeout p c
  | .fire hd phi back late => fireAct hd.val phi.val back late c
  | .zro n phi => zroAt n phi.val c
  | .prd n phi => prdAt n phi.val c
  | .compareEvent n x down phi => compareAt n x down phi.val c
  | .deadBandEnd n outB phi => deadBandAt n outB phi.val c
  | .minimumPulseEnd n outB phi => minPulseAt n outB phi.val c
  | .outStage n phi => outStageAt n phi.val c
  | .adcTap k r => adcTapped k r c
  | .conversionComplete k => adcFinish k c
  | .laneResult s => xlResult s (fun f => f.due == c.now) c
  | .tripInputActive s i => tripInput s i c
  | .sliceResetEnd s => sliceResetEndNow s c
  | .resetEnd => resetEndNow c
  | .domainPowerUp d => domainUpNow d c
  | .ppsEnd k => ppsLow k c
  | .abortComplete u ch => dmaStopped u ch c
  | .drainLimit n => drainTake n (32 * c.now) c
  | .sliceDrainComplete => drainEnd c
  | .faultReset i => faultResetNow i.val c
  | .eccFix k since => eccFixDue k since c
  | .tevPulse i => tevPulse i c
  | .padLevel n l => pinLevel n l c
  | .rowRead n => (eccSpan (evmRowR n.val 0) 48 c).2
  | .doorbell k d => doorbell k d.val c

/-- One happening leaves the agenda and takes place. -/
def runDue (e : Nat × Ev) (c : Chip) : Chip := runEv e.2 { c with agenda := c.agenda.erase e }

/-! ### The parts of a cycle -/

def overPbs (f : Fin 8 → Chip → Chip) (c : Chip) : Chip := (List.finRange 8).foldl (fun (c : Chip) (p : Fin 8) => f p c) c
def overPwms (f : Fin 96 → Chip → Chip) (c : Chip) : Chip := (List.finRange 96).foldl (fun (c : Chip) (n : Fin 96) => f n c) c
def overUnits (f : Fin 32 → Chip → Chip) (c : Chip) : Chip := (List.finRange 32).foldl (fun (c : Chip) (k : Fin 32) => f k c) c
def overSlices (f : Fin 12 → Chip → Chip) (c : Chip) : Chip := (List.finRange 12).foldl (fun (c : Chip) (s : Fin 12) => f s c) c

/-- What every cycle brings once its first happenings are over and the modulator bits sampled in it have acted: the travel of the
phase bases, the calendar it meets, and the counters' events, placed in the agenda. -/
def sweepCycle (c : Chip) : Chip :=
  let c := overPbs pbCycle c
  let c := overPbs schCross c
  let c := overPwms pwmScan (walkers c)
  { c with swept := true }

/-- Whether position `pos` has no transition within 2 cycles on either side of the cycle before the present one; those of the next
are known (04 R108). -/
def lineQuiet (pos : Fin 192) (c : Chip) : Bool := c.outs[pos].moves.all (fun m => decide (m + 3 < c.now))

/-- A delay line whose calibration is due is replaced in the first quiet cycle, or not at all within 10 µs; what a cycle did is
known when the next has ended (04 R108). -/
def lineCycle (c : Chip) : Chip :=
  (List.finRange 192).foldl (fun (c : Chip) (pos : Fin 192) =>
    if c.now ≤ c.outs[pos].calDue then c
    else if lineQuiet pos c then delayLine pos true c
    else if c.outs[pos].calDue + 5000 < c.now then delayLine pos false c
    else c) c

/-- A core in the end of a cycle: its store buffer drains (13 R296), then recognition, then what is outstanding completes; how long it
takes is open (log 1). -/
def coreCycle (k : CoreId) : Chip → Chip := eachLane k (fun c =>
  let c := stallEnd k (drainStores k c)
  if coreLive c k && !(clkLStopped c && !k.isNKS) then completeIf k (fun _ => true) (recognise k (settle k c)) else c)

/-- The link and the network clock in the end of a cycle; they stand still without CLK_L (21 R472). -/
def linksEnd (c : Chip) : Chip := if clkLStopped c then c else netCycle (linkCycle c)

/-- The end of a cycle of CLK_C. -/
def endCycle (c : Chip) : Chip :=
  let c := (List.finRange 96).foldl (fun (c : Chip) (w : Fin 96) => winCycle w c) c
  let c := overPwms pwmEnd (tcmEnd c)
  let c := conflictEnd c
  let c := lineCycle (posCycle (tripCycle (peaEnd (copyCycle c))))
  let c := overUnits sdmLand (overSlices xlEnd (overUnits adcEnd c))
  let c := schEnd (waitScan c)
  let c := overPbs pbEnd (capEnd c)
  let c := fuseProgEnd (aonCycle c)
  let c := pauseCycle (reintCopied c)
  let c := if reintLate c then reintFail 2 c else c
  let c := heartbeatTurn c
  let c := allCores.foldl (fun (c : Chip) k => coreCycle k c) (irqScan (haltScan c))
  logsEnd (scrubCycle (domainsEnd (linksEnd ((List.finRange 24).foldl (fun (c : Chip) (n : Fin 24) => leTurn n c) c))))

/-- The block's own initiators come first in a cycle, so that their accesses land before its happenings (log 1), in the order of the
fabric's classes: the accesses that waited for their targets and the DMA bursts of the control plane, the management engine with its
commands, the DMA bursts of the data plane (01 R16). -/
def busCycle (c : Chip) : Chip :=
  if clkLStopped c then stallCycle c
  else fabBursts false (cmdTake (longStep (dmaCycle (mirrorCycle (mirrorCycle (stallCycle (fabCycle c)))))))

/-- The start of the next cycle; the registers as they stand at its start are those that its activations leave. -/
def startCycle (c : Chip) : Chip :=
  let c := { c with now := c.now + 1, swept := false, regs0 := c.regs, regs1 := c.regs0, hwset := [], counted := [] }
  let c := { c with evm := { c.evm with pulsed := [], counts := c.evm.counts.filter (fun e => decide (c.now < e.1 + 256)) } }
  let c := netTurn (pinsOpen (gatesNow c))
  let c := (List.finRange 96).foldl (fun (c : Chip) (w : Fin 96) => winTurn w (winRamp w c)) c
  let c := overUnits sdmTurn (overUnits adcTurn c)
  let c := overPbs udacTurn (overPwms overStart (overPwms pwmStart c))
  { c with regs0 := c.regs }

/-- Whether CLK_C does not run: standby, or its loss (21 R467, R471). -/
def atRest (c : Chip) : Bool := c.power.mode != .run || clkCStopped c

/-- The happenings that are due take place in their order, `n` of them at most. -/
def runDues : Nat → Chip → Chip
  | 0, c => c
  | n + 1, c =>
    if atRest c then c
    else match nextDue c with
      | some e => runDues n (runDue e c)
      | none => c

/-- A bound on the happenings of one step, which no cycle reaches (log 1). -/
def stepBound : Nat := 1000000

/-- One step without a command (log 1): in standby or without CLK_C one unit of always-on time; else the present cycle runs
to its end, and the next one starts. -/
def tick (c : Chip) : Chip :=
  if c.power.mode ≠ .run then standbyCycle c
  else if clkCStopped c then logsEnd (aonCycle c)
  else
    let c := runDues stepBound c
    let c := if c.swept || atRest c then c else runDues stepBound (overUnits sdmCycle c)
    let c := if c.swept || atRest c then c else runDues stepBound (sweepCycle c)
    if atRest c || (nextDue c).isSome then c else busCycle (startCycle (endCycle c))

end Sys2Proof.Machine
end

