-- ==== Sys2Proof/WellFormed.lean ====
section
/-! DEFINITION. Well-formed commands: the operands that the manual gives each row; and the instructions that each Nalruek
encoding can hold (11 R258 to R266). -/

namespace Sys2Proof

/-- The header of a Nalruek instruction; none for the other commands. -/
def Instr.hdr : Instr → Option Hdr
  | .add h _ _ _ => some h
  | .adc h _ _ _ => some h
  | .sub h _ _ _ => some h
  | .sbc h _ _ _ => some h
  | .and h _ _ _ => some h
  | .or h _ _ _ => some h
  | .xor h _ _ _ => some h
  | .bic h _ _ _ => some h
  | .lsl h _ _ _ => some h
  | .lsr h _ _ _ => some h
  | .asr h _ _ _ => some h
  | .ror h _ _ _ => some h
  | .min h _ _ _ => some h
  | .max h _ _ _ => some h
  | .minu h _ _ _ => some h
  | .maxu h _ _ _ => some h
  | .cmp h _ _ => some h
  | .cmpu h _ _ => some h
  | .tst h _ _ => some h
  | .mov h _ _ _ => some h
  | .sxtb h _ _ => some h
  | .sxth h _ _ => some h
  | .zxtb h _ _ => some h
  | .zxth h _ _ => some h
  | .clz h _ _ => some h
  | .neg h _ _ => some h
  | .abs h _ _ => some h
  | .movfh h _ _ => some h
  | .movth h _ _ => some h
  | .addi h _ _ _ => some h
  | .subi h _ _ => some h
  | .andi h _ _ _ => some h
  | .ori h _ _ _ => some h
  | .xori h _ _ _ => some h
  | .lsli h _ _ _ => some h
  | .lsri h _ _ _ => some h
  | .asri h _ _ _ => some h
  | .rori h _ _ _ => some h
  | .cmpi h _ _ => some h
  | .cmpui h _ _ => some h
  | .muli h _ _ _ => some h
  | .movi h _ _ => some h
  | .movhi h _ _ => some h
  | .addiw h _ _ => some h
  | .addsp h _ => some h
  | .mul h _ _ _ => some h
  | .mulh h _ _ _ => some h
  | .mulhu h _ _ _ => some h
  | .div h _ _ _ => some h
  | .divu h _ _ _ => some h
  | .rem h _ _ _ => some h
  | .remu h _ _ _ => some h
  | .adds h _ _ _ => some h
  | .subs h _ _ _ => some h
  | .negs h _ _ => some h
  | .abss h _ _ => some h
  | .divs h _ _ _ => some h
  | .mulq31 h _ _ _ => some h
  | .mulq15 h _ _ _ => some h
  | .mac h _ _ _ => some h
  | .msu h _ _ _ => some h
  | .aclr h _ => some h
  | .acsh h _ _ => some h
  | .acrd h _ _ _ => some h
  | .acwr h _ _ => some h
  | .ldb h _ _ _ => some h
  | .ldbu h _ _ _ => some h
  | .ldh h _ _ _ => some h
  | .ldhu h _ _ _ => some h
  | .ldw h _ _ _ _ => some h
  | .ldf h _ _ _ => some h
  | .stb h _ _ _ => some h
  | .sth h _ _ _ => some h
  | .stw h _ _ _ _ => some h
  | .stf h _ _ _ => some h
  | .swap h _ _ _ => some h
  | .cas h _ _ _ => some h
  | .amoadd h _ _ _ => some h
  | .amoand h _ _ _ => some h
  | .amoor h _ _ _ => some h
  | .br h _ => some h
  | .call h _ => some h
  | .jr h _ => some h
  | .jlr h _ => some h
  | .ret h => some h
  | .callm h _ _ _ => some h
  | .retm h _ => some h
  | .nop h => some h
  | .yield h => some h
  | .wfe h => some h
  | .rep h _ => some h
  | .repu h _ => some h
  | .setc h _ => some h
  | .brk h => some h
  | .trap h _ => some h
  | .fence h => some h
  | .fenceI h => some h
  | .rte h => some h
  | .rdsr h _ _ => some h
  | .wrsr h _ _ => some h
  | .sev h _ _ => some h
  | .waitt h _ _ _ => some h
  | .fadd h _ _ _ _ => some h
  | .fsub h _ _ _ _ => some h
  | .fmul h _ _ _ _ => some h
  | .fdiv h _ _ _ _ => some h
  | .fsqrt h _ _ _ => some h
  | .fmac h _ _ _ _ => some h
  | .fmin h _ _ _ _ => some h
  | .fmax h _ _ _ _ => some h
  | .fneg h _ _ _ => some h
  | .fabs h _ _ _ => some h
  | .fcmp h _ _ => some h
  | .ftoi h _ _ => some h
  | .ftou h _ _ => some h
  | .itof h _ _ => some h
  | .utof h _ _ => some h
  | .fnarrow h _ _ => some h
  | .fwiden h _ _ => some h
  | .fmovtg h _ _ => some h
  | .fmovfg h _ _ => some h
  | .fkind h _ _ => some h
  | _ => none

/-- Lengths and conditions that the encodings have (11 R255, R258, R263). -/
def Hdr.ok (h : Hdr) : Bool :=
  if h.core.isNKS then decide (1 ≤ h.len) && decide (h.len ≤ 11)
  else h.len == 4 || (h.len == 2 && (h.cond == 0 || h.cond == 1 || h.cond == 2 || h.cond == 15))

/-- The registers that an enable or a control command writes have the bit that makes the write that command: EN = 1 or 0
(02 R38, 04 R100, 06 R160, 07 R181, R182, 08 R191), the W1S bit of a control register, the mode of a standby entry (21 R468). -/
def Instr.ctlOk : Instr → Bool
  | .pbEnable _ _ v => v.bit 0
  | .pbDisable _ _ v => !v.bit 0
  | .acq _ _ v => v.bit 0
  | .resume _ _ v => v.bit 0
  | .pwmEnable _ _ v => v.bit 0
  | .pwmDisable _ _ v => !v.bit 0
  | .close _ _ v => v.bit 0
  | .flush _ _ v => v.bit 1
  | .tripclr _ _ v => v.bit 0
  | .adcSwstart _ _ v => v.bit 8
  | .adcEnable _ _ v => v.bit 0
  | .adcDisable _ _ v => !v.bit 0
  | .winEnable _ _ v => v.bit 0
  | .winRestart _ _ v => v.bit 0
  | .winDisable _ _ v => !v.bit 0
  | .xlEnable _ _ v => v.bit 0
  | .xlDisable _ _ v => !v.bit 0
  | .irst _ _ v => v.bit 0
  | .reint _ v => v.bit 2
  | .reintAbort _ v => v.bit 3
  | .dmaReset _ _ _ v => v.bit 0
  | .dmaAbort _ _ _ v => v.bit 1
  | .retrain _ _ v => v.bit 0
  | .fuseProgram _ v => v.bit 8
  | .enterStandbyR _ v => v.fld 0 2 == 1
  | .enterStandbyO _ v => v.fld 0 2 == 2
  | _ => true

/-- The operands that only one core kind has, the fields of five bits on NK-L, and the parcel that a repeat prefix names (11 R258,
R261, R263, R266, R270; 12 R285, R293). -/
def Instr.formOk : Instr → Bool
  | .mov h w _ _ => !w || h.core.isNKS
  | .ldw h w _ _ _ => !w || h.core.isNKS
  | .stw h w _ _ _ => !w || h.core.isNKS
  | .subi h _ _ => !h.core.isNKS && h.len == 2
  | .movfh h _ _ => !h.core.isNKS && h.len == 2
  | .movth h _ _ => !h.core.isNKS && h.len == 2
  | .addsp h _ => !h.core.isNKS && h.len == 2
  | .callm h _ rt off => if h.core.isNKS then rt == 0 else off == 0
  | .rep h ⟨n, _⟩ => if h.core.isNKS then decide (1 ≤ n) && decide (h.len + n ≤ 11) else n == 2 || n == 4
  | .repu h ⟨n, _⟩ => if h.core.isNKS then decide (1 ≤ n) && decide (h.len + n ≤ 11) else n == 2 || n == 4
  | .lsli h _ _ n => h.core.isNKS || decide (n.toNat < 32)
  | .lsri h _ _ n => h.core.isNKS || decide (n.toNat < 32)
  | .asri h _ _ n => h.core.isNKS || decide (n.toNat < 32)
  | .rori h _ _ n => h.core.isNKS || decide (n.toNat < 32)
  | .sev h _ d => h.core.isNKS || decide (d.toNat < 32)
  | .trap h n => h.core.isNKS || decide (n.toNat < 32)
  | .setc h n => h.core.isNKS || decide (n.toNat < 32)
  | _ => true

/-- A command that the manual gives. -/
def Instr.wf (i : Instr) : Bool :=
  (match i.hdr with
   | some h => h.ok
   | none => true) && i.formOk && i.ctlOk

/-! ### What the encodings hold -/

def fits11s (x : Word) : Bool := (x.setWidth 11).signExtend 32 == x
def fits11z (x : Word) : Bool := (x.setWidth 11).setWidth 32 == x
def fits16s (x : Word) : Bool := (x.setWidth 16).signExtend 32 == x
def fits21s (x : Word) : Bool := (x.setWidth 21).signExtend 32 == x
/-- An offset of format M for accesses of 2ˢ bytes. -/
def fitsOff (s : Nat) (x : Word) : Bool := 2 ^ s * ((x.extractLsb' s 11).signExtend 32) == x

/-- The immediates of a 32-bit NK-L instruction fit (12 R285, R289, R292, R293); `next` is the length of the next parcel, `nextOk`
whether it may be repeated. -/
def Instr.nklFits (next : Nat) (nextOk : Bool) : Instr → Bool
  | .addi _ _ _ x => fits11s x
  | .andi _ _ _ x => fits11z x
  | .ori _ _ _ x => fits11z x
  | .xori _ _ _ x => fits11z x
  | .cmpi _ _ x => fits11s x
  | .cmpui _ _ x => fits11z x
  | .muli _ _ _ x => fits11s x
  | .movi _ _ x => fits16s x
  | .addiw _ _ x => fits16s x
  | .ldb _ _ _ x => fits11s x
  | .ldbu _ _ _ x => fits11s x
  | .ldh _ _ _ x => fitsOff 1 x
  | .ldhu _ _ _ x => fitsOff 1 x
  | .ldw _ _ _ _ x => fitsOff 2 x
  | .ldf _ _ _ x => fitsOff 2 x
  | .stb _ _ _ x => fits11s x
  | .sth _ _ _ x => fitsOff 1 x
  | .stw _ _ _ _ x => fitsOff 2 x
  | .stf _ _ _ x => fitsOff 2 x
  | .br _ x => fits21s x
  | .call _ x => fits21s x
  | .rep _ ⟨n, ok⟩ => n == next && ok == nextOk
  | .repu _ ⟨n, ok⟩ => n == next && ok == nextOk
  | .rdsr _ _ sr => decide (sr.toNat < 32)
  | .wrsr _ sr _ => decide (sr.toNat < 32)
  | _ => true

/-- An instruction that 32-bit NK-L code can hold, before a parcel of `next` bytes. -/
def Instr.nkl32 (next : Nat) (nextOk : Bool) (i : Instr) : Bool :=
  (match i.hdr with
   | some h => !h.core.isNKS && h.len == 4
   | none => false) && i.wf && i.nklFits next nextOk && (encodeNkl32 i).isSome

/-- The registers of an instruction's three register fields in NK-S code. -/
def Instr.nksRegs : Instr → List (Fin 32)
  | .add _ rd ra rb => [rd, ra, rb]
  | .adc _ rd ra rb => [rd, ra, rb]
  | .sub _ rd ra rb => [rd, ra, rb]
  | .sbc _ rd ra rb => [rd, ra, rb]
  | .and _ rd ra rb => [rd, ra, rb]
  | .or _ rd ra rb => [rd, ra, rb]
  | .xor _ rd ra rb => [rd, ra, rb]
  | .bic _ rd ra rb => [rd, ra, rb]
  | .lsl _ rd ra rb => [rd, ra, rb]
  | .lsr _ rd ra rb => [rd, ra, rb]
  | .asr _ rd ra rb => [rd, ra, rb]
  | .ror _ rd ra rb => [rd, ra, rb]
  | .min _ rd ra rb => [rd, ra, rb]
  | .max _ rd ra rb => [rd, ra, rb]
  | .minu _ rd ra rb => [rd, ra, rb]
  | .maxu _ rd ra rb => [rd, ra, rb]
  | .cmp _ ra rb => [ra, rb]
  | .cmpu _ ra rb => [ra, rb]
  | .tst _ ra rb => [ra, rb]
  | .mov _ _ rd ra => [rd, ra]
  | .sxtb _ rd ra => [rd, ra]
  | .sxth _ rd ra => [rd, ra]
  | .zxtb _ rd ra => [rd, ra]
  | .zxth _ rd ra => [rd, ra]
  | .clz _ rd ra => [rd, ra]
  | .neg _ rd ra => [rd, ra]
  | .abs _ rd ra => [rd, ra]
  | .addi _ rd ra _ => [rd, ra]
  | .subi _ rd _ => [rd]
  | .andi _ rd ra _ => [rd, ra]
  | .ori _ rd ra _ => [rd, ra]
  | .xori _ rd ra _ => [rd, ra]
  | .lsli _ rd ra _ => [rd, ra]
  | .lsri _ rd ra _ => [rd, ra]
  | .asri _ rd ra _ => [rd, ra]
  | .rori _ rd ra _ => [rd, ra]
  | .cmpi _ ra _ => [ra]
  | .cmpui _ ra _ => [ra]
  | .muli _ rd ra _ => [rd, ra]
  | .movi _ rd _ => [rd]
  | .movhi _ rd _ => [rd]
  | .addiw _ rd _ => [rd]
  | .mul _ rd ra rb => [rd, ra, rb]
  | .mulh _ rd ra rb => [rd, ra, rb]
  | .mulhu _ rd ra rb => [rd, ra, rb]
  | .div _ rd ra rb => [rd, ra, rb]
  | .divu _ rd ra rb => [rd, ra, rb]
  | .rem _ rd ra rb => [rd, ra, rb]
  | .remu _ rd ra rb => [rd, ra, rb]
  | .adds _ rd ra rb => [rd, ra, rb]
  | .subs _ rd ra rb => [rd, ra, rb]
  | .negs _ rd ra => [rd, ra]
  | .abss _ rd ra => [rd, ra]
  | .divs _ rd ra rb => [rd, ra, rb]
  | .mulq31 _ rd ra rb => [rd, ra, rb]
  | .mulq15 _ rd ra rb => [rd, ra, rb]
  | .mac _ _ ra rb => [ra, rb]
  | .msu _ _ ra rb => [ra, rb]
  | .acsh _ _ ra => [ra]
  | .acrd _ rd _ ra => [rd, ra]
  | .acwr _ _ ra => [ra]
  | .ldb _ rd ra _ => [rd, ra]
  | .ldbu _ rd ra _ => [rd, ra]
  | .ldh _ rd ra _ => [rd, ra]
  | .ldhu _ rd ra _ => [rd, ra]
  | .ldw _ _ rd ra _ => [rd, ra]
  | .stb _ rd ra _ => [rd, ra]
  | .sth _ rd ra _ => [rd, ra]
  | .stw _ _ rd ra _ => [rd, ra]
  | .swap _ rd ra rb => [rd, ra, rb]
  | .cas _ rd ra rb => [rd, ra, rb]
  | .amoadd _ rd ra rb => [rd, ra, rb]
  | .amoand _ rd ra rb => [rd, ra, rb]
  | .amoor _ rd ra rb => [rd, ra, rb]
  | .jr _ ra => [ra]
  | .jlr _ ra => [ra]
  | .callm _ _ rt _ => [rt]
  | .rdsr _ rd _ => [rd]
  | .wrsr _ _ ra => [ra]
  | .sev _ ra _ => [ra]
  | .waitt _ rd ra rb => [rd, ra, rb]
  | _ => []

/-- The masks and immediates that NK-S code can hold (11 R270; 12 R285). -/
def Instr.nksFits : Instr → Bool
  | .callm _ m _ _ => decide (m.toNat < 256)
  | .retm _ m => decide (m.toNat < 256)
  | _ => true

/-- An instruction that NK-S code holds in the form of `encodeNks`. -/
def Instr.nks (i : Instr) : Bool :=
  (match i.hdr, encodeNks i with
   | some h, some bs => h.core.isNKS && h.len == bs.length
   | _, _ => false) && i.wf && i.nksFits && i.nksRegs.all (fun r => decide (r.val < 16))

end Sys2Proof
end

