-- ==== Sys2Proof/Safety.lean ====
section
/-! DEFINITION. The terms in which claims are stated: outcomes, canonical registers and memory, an access let through, a core
that is ready to execute. -/

namespace Sys2Proof.Machine

/-! ### Canonical data -/

/-- The canonical form of memory: keys rising, no entry that equals the 0 an unlisted byte reads as (21 R474). -/
def Memory.wf (m : List (Nat × Byte)) : Bool := awf (fun _ => 0) m

/-- The canonical form of the register file over its reset values. -/
def Registers.wf (r : List (Nat × Word)) : Bool := awf resetVal r

/-! ### Commands -/

/-- The device is in RUN, where every command acts (21 R467). -/
def State.inRun (s : State) : Prop := s.chip.power.mode = .run

/-- The commands that the always-on domain and the test access port take in every power state (16 R384, 18 R432, 21 R467 to R470,
R473). -/
def alwaysOn : Instr → Bool
  | .pinLevelChange _ _ | .wakePin _ _ | .linkWake _ | .lpWindowWake _ _ _ | .aonTimer | .standbyEntryComplete | .standbyRResumed => true
  | .powerOnReset _ | .resetN _ | .supplyBelowThreshold _ => true
  | .bypass | .idcode | .samplePreload _ | .extest | .clamp | .highz => true
  | _ => false

/-- The canonical form of what a lane of Triton holds of its own: within Triton's keys, its TCM and its core-private registers. -/
def laneWf (x : Option LaneS) : Bool :=
  match x with
  | some l => Memory.wf l.tcm && Registers.wf l.regs && l.tcm.all (fun e => inTri e.1) && l.regs.all (fun e => inTri e.1)
  | none => true

/-- The canonical form of the state's memory and registers, Triton's lanes among them, which the model keeps so that equal states
are equal data. -/
def State.canonical (s : State) : Prop :=
  Memory.wf s.chip.mem = true ∧ Registers.wf s.chip.regs = true ∧ ∀ i : Fin 3, laneWf s.chip.lanes[i] = true

/-- The next state of a command whose effect on the chip is `f`. -/
def State.after (s : State) (f : Chip → Chip) : State := { s with chip := f s.chip }

/-- The command `i` goes on to a next state of which `p` holds. -/
def Goes (i : Instr) (s : State) (p : State → Prop) : Prop := ∃ t, exec i s = .next t ∧ p t

/-- Every register outside `as` reads as before. -/
def RegsBut (s t : State) (as : List Nat) : Prop := ∀ a, a ∉ as → t.chip.reg a = s.chip.reg a

/-- An access of `ini` to `a` is let through (01 R12, R13, R24; 21 R466). -/
def Chip.grants (c : Chip) (ini : Initiator) (a : Nat) (wr : Bool) : Prop := verdict c ini a wr = .ok

/-- An update that a source hands over at cycle `now`, applied `d` cycles later, with no index and no interval (02 R45). -/
def plainUpdate (now d : Nat) (m : BitVec 36) (t : Word) : PbUpdate :=
  { m := m, t := t, due := now + d, isZ := false, idx := false, bound := none, seen := now }

/-! ### Instructions -/

/-- What a fetch that meets no error leaves: the port of the memory is used in the cycle (15 R344), where the instruction cache does not
answer. -/
def fetchMark (k : CoreId) (pc : Word) (c : Chip) : Chip :=
  match corePlace k pc.toNat with
  | some (.mem key) => if inSram pc.toNat then c else portUse key c
  | _ => c

/-- The bank `b` of core `k` is about to execute an instruction of `len` bytes with nothing of the core's own in its way: the
core executes, its earlier long instructions have completed, no load or transfer waits, no error is pending, no repeat pair
or restart is under way, and the fetch succeeds with no error in its ECC words, from the TCM or the instruction cache. The lanes of
Triton in service hold the same and have the same inputs, so that they execute as one (14 R326). -/
structure Ready (c : Chip) (k : CoreId) (b : Fin 8) (len : Nat) : Prop where
  running : (coreGet c k).running = some b
  live : coreLive c k = true
  awake : (bankGet c k b).mode = .running
  free : (coreGet c k).stalls = []
  lanes : k = .triton → c.run = none ∧ lanesSame c = true ∧ syncLane c = none
  done : (coreGet c k).long = []
  plain : (coreGet c k).afterSt = false
  noDev : (bankGet c k b).devErr = none
  noAsync : (bankGet c k b).async = none
  noRep : (bankGet c k b).rep = none
  noRestart : (bankGet c k b).restart = []
  fetch : fetchOk { k := k, b := b, pc := (bankGet c k b).pc, nxt := (bankGet c k b).pc + BitVec.ofNat 32 len } len c =
    (true, fetchMark k (bankGet c k b).pc c)

/-- The general registers of a core: 16 on NK-S, 32 on NK-L (11 R248). -/
def hasRegs (k : CoreId) (rs : List (Fin 32)) : Prop := k.isNKS = true → ∀ r ∈ rs, r.val < 16

/-- The state once the instruction of bank `b` is fetched. -/
def State.fetched (s : State) (h : Hdr) (b : Fin 8) : State := s.after (fetchMark h.core (bankGet s.chip h.core b).pc)

/-- The state after an instruction whose whole effect is `f` on its bank, with PC at the next instruction. -/
def State.bankStep (s : State) (h : Hdr) (b : Fin 8) (f : BankS → BankS) : State :=
  (s.fetched h b).after (updBank h.core b (fun x => { f x with pc := x.pc + BitVec.ofNat 32 h.len }))

/-- A ready bank executes an instruction whose registers exist and whose condition holds (11 R254, R256). -/
structure Runs (s : State) (h : Hdr) (b : Fin 8) (rs : List (Fin 32)) : Prop where
  ready : Ready s.chip h.core b h.len
  regs : hasRegs h.core rs
  cond : condHolds (bankGet s.chip h.core b).st h.cond = true

/-- The bank of an instruction before it. -/
def State.bank (s : State) (h : Hdr) (b : Fin 8) : BankS := bankGet s.chip h.core b

/-- The rows of 11 R278: operand, amount and the carry before, to the result and the carry after. -/
inductive ShiftRow : Shift → Word → Nat → Bool → Word → Bool → Prop where
  | zero (k : Shift) (u : Word) (c : Bool) : ShiftRow k u 0 c u c
  | lsl (u : Word) (n : Nat) (c : Bool) : 1 ≤ n → n ≤ 31 → ShiftRow .lsl u n c (u <<< n) (u.getLsbD (32 - n))
  | lsr (u : Word) (n : Nat) (c : Bool) : 1 ≤ n → n ≤ 31 → ShiftRow .lsr u n c (u >>> n) (u.getLsbD (n - 1))
  | lsl32 (u : Word) (c : Bool) : ShiftRow .lsl u 32 c 0 (u.getLsbD 0)
  | lsr32 (u : Word) (c : Bool) : ShiftRow .lsr u 32 c 0 (u.getLsbD 31)
  | lslMore (u : Word) (n : Nat) (c : Bool) : 32 < n → ShiftRow .lsl u n c 0 false
  | lsrMore (u : Word) (n : Nat) (c : Bool) : 32 < n → ShiftRow .lsr u n c 0 false
  | asr (u : Word) (n : Nat) (c : Bool) : 1 ≤ n → n ≤ 31 → ShiftRow .asr u n c (u.sshiftRight n) (u.getLsbD (n - 1))
  | asrMore (u : Word) (n : Nat) (c : Bool) : 32 ≤ n →
      ShiftRow .asr u n c (if u.getLsbD 31 then 0xFFFFFFFF else 0) (u.getLsbD 31)
  | ror (u : Word) (n : Nat) (c : Bool) : 1 ≤ n →
      ShiftRow .ror u n c (u.rotateRight (n % 32)) ((u.rotateRight (n % 32)).getLsbD 31)

/-- A naturally aligned access of `n` bytes to the core's own memory that the protection unit lets through and whose ECC
word holds no error (11 R279; 13 R320; 15 R341). -/
structure OwnAccess (s : State) (h : Hdr) (b : Fin 8) (t : AccKind) (a n : Nat) : Prop where
  inside : a + n ≤ tcmSize h.core
  aligned : a % n = 0
  open_ : mpuOk s.chip h.core (privOf (s.bank h b).st) t a = true
  up : domainsUp s.chip (tcmKey h.core a) = true
  clean : eccErr s.chip (tcmKey h.core a) = none

/-- A byte of a core's TCM as its loads see it: the newest store in the buffer, else memory (13 R296). -/
def tcmByte (c : Chip) (k : CoreId) (a : Nat) : Byte := (storeByte (coreGet c k).stores a).getD (memByte c (tcmKey k a))

/-- `n` cycles of a core that moves words one by one, as far as these words go (13 R304). -/
def slotsAfter (k : CoreId) : Nat → Chip → Chip
  | 0, c => c
  | n + 1, c => let c := { c with now := c.now + 1 }; slotsAfter k n ((coreGet c k).stalls.foldl (slotTry k) c)

/-- ST with the flags N and Z (11 R257). -/
def nzSt (st : Word) (n z : Bool) : Word := (st.withBit stN n).withBit stZ z

/-- ST with the four flags N, Z, C and V (11 R251, R257). -/
def nzcv (st : Word) (n z c v : Bool) : Word := (((st.withBit stN n).withBit stZ z).withBit stC c).withBit stV v

/-- The instruction `i` issues and has the effect `f` on its bank when it completes: at once on NK-S (13 R303); on NK-L it is
outstanding, with only PC moved on, until LONG_INSTRUCTION_COMPLETE (13 R298). -/
def Issues (s : State) (h : Hdr) (b : Fin 8) (i : Instr) (f : BankS → BankS) : Prop :=
  ∃ t, exec i s = .next t ∧
    (h.core.isNKS = true → t = s.bankStep h b f) ∧
    (h.core.isNKS = false → (coreGet t.chip h.core).long.length = 1 ∧ t.chip.mem = s.chip.mem ∧
      t.bank h b = { s.bank h b with pc := (s.bank h b).pc + BitVec.ofNat 32 h.len }) ∧
    exec (.longInstructionComplete h.core 0) t = .next (s.bankStep h b f)

/-- The divide `i` issues and has the effect `f` on its bank when it completes: on NK-S, which it holds with PC at it, as its 34th cycle
ends (13 R303); on NK-L it is outstanding, with only PC moved on, until LONG_INSTRUCTION_COMPLETE (13 R298). -/
def Divides (s : State) (h : Hdr) (b : Fin 8) (i : Instr) (f : BankS → BankS) : Prop :=
  ∃ t, exec i s = .next t ∧ t.chip.mem = s.chip.mem ∧
    (h.core.isNKS = true → t.bank h b = s.bank h b ∧ (coreGet t.chip h.core).stalls.length = 1 ∧
      stallEnd h.core { t.chip with now := s.chip.now + 33 } = { (s.bankStep h b f).chip with now := s.chip.now + 33 }) ∧
    (h.core.isNKS = false → (coreGet t.chip h.core).long.length = 1 ∧
      t.bank h b = { s.bank h b with pc := (s.bank h b).pc + BitVec.ofNat 32 h.len } ∧
      exec (.longInstructionComplete h.core 0) t = .next (s.bankStep h b f))

/-! ### Floating point (12 R294, 11 R253) -/

/-- A bank of an NK-L core that owns the floating-point file, with no trap enabled, executes (13 R311, 11 R253). -/
structure RunsFp (s : State) (h : Hdr) (b : Fin 8) : Prop where
  runs : Runs s h b []
  nkl : h.core.isNKS = false
  owner : (s.bank h b).st.bit stFPA = true
  noTrap : (coreGet s.chip h.core).fcsr.fld 16 5 = 0

/-- A normal number of a format with `e` exponent and `f` fraction bits, by its bits. -/
def fNormal (e f : Nat) (x : Nat) : Prop := x / 2 ^ f % 2 ^ e ≠ 0 ∧ x / 2 ^ f % 2 ^ e ≠ 2 ^ e - 1 ∧ x < 2 ^ (1 + e + f)

/-- The value of a normal number (IEEE 754-2019 3.4). -/
def fValue (e f : Nat) (x : Nat) : Rat :=
  (if x / 2 ^ (e + f) % 2 = 1 then -1 else 1) * ((2 ^ f + x % 2 ^ f : Nat) : Rat) *
    (2 : Rat) ^ ((x / 2 ^ f % 2 ^ e : Int) - (2 ^ (e - 1) - 1 : Int) - (f : Int))

/-- A floating-point instruction issues; its completion writes `dst` and sets the FCSR flags `ff` (13 R298, 11 R253), with PC
moved on and nothing else changed. -/
def IssuesFp (s : State) (h : Hdr) (b : Fin 8) (i : Instr) (f : CoreS → CoreS) : Prop :=
  ∃ t, exec i s = .next t ∧ (coreGet t.chip h.core).long.length = 1 ∧
    exec (.longInstructionComplete h.core 0) t =
      .next ((s.fetched h b).after (fun c => updCore h.core f (updBank h.core b (fun x => { x with pc := x.pc + BitVec.ofNat 32 h.len }) c)))

/-! ### Command packets (17 R389 to R396) -/

/-- A packet of opcode `o` with parameters `ps` that passes steps 1 to 4 of 17 R393 and its flags, in a device that takes
commands, with no read that waits for its target and no long operation in its way; in a factory session, of an opcode that
it takes. -/
structure Admitted (s : State) (o : Nat) (pkt ps : List Byte) : Prop where
  run : s.inRun
  state : 2 ≤ s.chip.devState
  length : 8 ≤ pkt.length ∧ pkt.length ≤ 1000
  opcode : pkOpc pkt = o
  flags : pkFlags pkt = 0 ∨ pkFlags pkt = 1 ∨ pkFlags pkt = 3
  auth : ∃ a, cmdAuth s.chip pkt = some a ∧ cmdSeqOk s.chip a pkt = true ∧ pkParams (authSession s.chip a) pkt = ps
  factory : s.chip.cmd.session.bind (·.factory) = none ∨ factoryOk o = true
  free : cmdLong o = true → s.chip.cmd.long = none
  idle : s.chip.cmd.held = none

/-- The last reply answers `pkt` with a status and, where it is not encrypted, with results that begin with `res`. -/
def Answers (t : State) (pkt : List Byte) (status : Nat) (res : List Byte) : Prop :=
  t.chip.cmd.reply.take 2 = [pkt.headD 0, BitVec.ofNat 8 status] ∧
  (pkEnc pkt = false → (t.chip.cmd.reply.drop 12).take res.length = res)

/-- The command changed no byte of memory and no register but those of `as` and the count of frames dropped at UP, where a
reply goes that the port cannot send. -/
def Leaves (s t : State) (as : List Nat) : Prop := t.chip.mem = s.chip.mem ∧ RegsBut s t (llP .up 0x24 :: as)

end Sys2Proof.Machine
end

