-- ==== Sys2Proof/Certificates/Slice0/Obligations.lean ====
section
/-! DEFINITION. The statements for the provers. Each names the rules of spec/ that it states, or that it rests on. -/

open Sys2Proof Sys2Proof.Machine

/-! ### The block as a whole -/

/-- The step takes the command at the front of the queue and executes it on the state with the queue's rest. That an empty queue
gives one cycle of the block's own is the model's choice (log 1). -/
def Obligations.StepRunsFront : Prop := ∀ (s : State) (i : Instr) (rest : List Instr),
  step { s with pending := i :: rest } = exec i { s with pending := rest } ∧
  step { s with pending := [] } = .next { chip := tick s.chip, pending := [] }

/-- Every command goes on to a next state and leaves the queue alone; in standby only the always-on domain and the test access port
act (21 R467, R468). -/
def Obligations.CommandsAnswer : Prop := ∀ (i : Instr) (s : State),
  Goes i s fun t => t.pending = s.pending ∧ (s.chip.power.mode ≠ .run → alwaysOn i = false → t = s)

/-- The state after device reset: POWERED and in RUN with nothing waiting, memory 0 (21 R474), and the reset values of the registers
that the tables of each chapter give, here one or more of each. -/
def Obligations.ResetValues : Prop :=  let c := State.reset.chip
  State.reset.pending = [] ∧ State.reset.inRun ∧ c.devState = 0 ∧ c.now = 0 ∧ c.cmd.session = none ∧ c.flt.log = [] ∧
  (∀ k, memByte c k = 0) ∧ (∀ k : CoreId, (coreGet c k).inReset = true) ∧
  ∀ e ∈ ([(pbR 7 0x54, 0xC350), (pbR 0 0x24, 0x00130040), (capR 63 0, 0), (schP 3 0, 4), (pwmR 95 4, 0x80), (pwmR 8 0x80, 8),
      (xbarR 17, 17), (slR 11 0x8040, 0x7F), (adcR 31 0, 0x4000), (sdmR 5 0, 0x19F8), (winR 9 0, 0x40), (winR 9 4, 0x0FFF0000),
      (xlR 2 0x14, 0x8800), (peaAllocR 511, 0x3C3F), (evmGcfgR 31, 0x00F14000), (evmRowR 0 0, 0), (triR 4, 0x70), (triR 0xC, 0x3E8),
      (memR 0x40, 0x00010001), (memR 0, 4), (dmaC 1 31 0, 0x400), (llP .up 0, 0xA01), (llR 0x20, 0x1403), (0x45008014, 0x03E8000A),
      (secR 0x20, 0x19640E4B), (netR 0xC, 0x01000000), (tevR 15 0xC, 0xF4240), (sysR 0x10, 0xFFFFFFFF), (sysR 0x28, 0x02580230),
      (sysR 0x18, 0xFF)] : List (Nat × Word)), c.reg e.1 = e.2

/-- The state after reset is in canonical form. -/
def Obligations.ResetIsCanonical : Prop := State.reset.canonical

/-- Every step keeps memory and registers, those of Triton's lanes among them, in canonical form: keys rising, and no entry that
equals what an unlisted key reads as. -/
def Obligations.StepKeepsCanonical : Prop := ∀ s t : State, s.canonical → step s = .next t → t.canonical

/-! ### Encodings of the Nalruek instructions (11, 12) -/

/-- The encodings that the source writes out (the example after 11 R262, the one after 12 R294) and others by the tables of 11 R259
to R266; the reserved opcodes decode to nothing (11 R260, R265). -/
def Obligations.DecodeExamples : Prop :=  let l (c n : Nat) : Hdr := { core := .app 0, cond := BitVec.ofNat 4 c, len := n }
  let e (c n : Nat) : Hdr := { core := .le 0, cond := BitVec.ofNat 4 c, len := n }
  decodeNkl (.app 0) [0x9005, 0x31C0] = some (.add (l 2 4) 5 6 7) ∧
  decodeCode (.app 0) [0x05, 0x90, 0xC0, 0x31] = some (none, .add (l 2 4) 5 6 7) ∧
  decodeNkl (.app 0) [0x0239] = some (.add (l 0 2) 3 3 9) ∧
  decodeNkl (.app 0) [0x8384, 0x1003] = some (.ldw (l 0 4) false 4 2 12) ∧
  decodeNkl (.app 0) [0x8000, 0x2150] = some (.cmp (l 0 4) 4 5) ∧
  decodeNkl (.app 0) [0x8A66, 0x000F] = some (.callm (l 1 4) 0x000F 6 0) ∧
  decodeNkl (.app 0) [0xFFFF, 0xFFFF] = none ∧
  decodeNks (.le 0) [0x54, 0x42, 0x0C] = some (none, .ldw (e 0 3) false 4 2 12) ∧
  decodeNks (.le 0) [0x85, 0x45] = some (none, .cmp (e 0 2) 4 5) ∧
  decodeNks (.le 0) [0xC1, 0x76, 0x0F, 0x20, 0x01] = some (none, .callm (e 1 5) 0x000F 0 0x120) ∧
  decodeNks (.le 0) [0xC1, 0xD3, 0x10, 0x44, 0x78, 0x56, 0x34, 0x12] = some (none, .addi (e 1 8) 4 4 0x12345678) ∧
  decodeNks (.le 0) [0xD2, 0x54, 0x21, 0x18] = some (none, .ldw (e 0 4) true 2 1 0x18) ∧
  decodeNks (.le 0) [0x00] = none

/-- 11 R258 to R260, 12 R284 to R294: every 32-bit NK-L instruction, with every operand that its fields hold, is decoded from the
word that its encoding gives it, before an instruction of `next` bytes that a repeat pair may hold or not. -/
def Obligations.NklRoundTrip : Prop := ∀ (i : Instr) (h : Hdr) (next : Nat) (nextOk : Bool) (w : Word),
  i.hdr = some h → i.nkl32 next nextOk = true → encodeNkl32 i = some w → w.getLsbD 31 = true ∧ decodeNkl32 h.core w next nextOk = some i

/-- 11 R263 to R266, 12 R284 to R293: every NK-S instruction in the form of the encoder (its immediate in 4 bytes) is decoded from
its bytes. -/
def Obligations.NksRoundTrip : Prop := ∀ (i : Instr) (h : Hdr) (bs : List Byte),
  i.hdr = some h → i.nks = true → encodeNks i = some bs → decodeNks h.core bs = some (none, i)

/-! ### Nalruek instructions (11, 12, 13) -/

/-- 12 R284, R285, 11 R257, R277: additions and subtractions write rd and N, Z, C, V; logical instructions write rd, N and Z;
comparisons and TST write flags alone; NEG and ABS of −2³¹ keep it and set V, and NEG of 0 alone sets C. Nothing else changes but
PC. -/
def Obligations.ArithmeticResults : Prop :=
  (∀ (s : State) (h : Hdr) (b : Fin 8) (rd ra rb : Fin 32) (imm : Word),
    Runs s h b [rd, ra, rb] →
    let x := s.bank h b
    let u := x.g[ra]
    let v := x.g[rb]
    let c := x.st.bit stC
    let put (r : Word) (cy ov : Bool) : State :=
      s.bankStep h b (fun y => { y with g := y.g.set rd r, st := nzcv y.st (r.getLsbD 31) (r == 0) cy ov })
    let sum (v : Word) : State := put (u + v) (decide (2 ^ 32 ≤ u.toNat + v.toNat)) (decide ((u + v).toInt ≠ u.toInt + v.toInt))
    exec (.add h rd ra rb) s = .next (sum v) ∧
    exec (.addi h rd ra imm) s = .next (sum imm) ∧
    exec (.adc h rd ra rb) s = .next (put (u + v + if c then 1 else 0)
      (decide (2 ^ 32 ≤ u.toNat + v.toNat + c.toNat)) (decide ((u + v + if c then 1 else 0).toInt ≠ u.toInt + v.toInt + c.toNat))) ∧
    exec (.sub h rd ra rb) s = .next (put (u - v) (decide (v.toNat ≤ u.toNat)) (decide ((u - v).toInt ≠ u.toInt - v.toInt))) ∧
    exec (.sbc h rd ra rb) s = .next (put (u - v - if c then 0 else 1)
      (decide (v.toNat + (!c).toNat ≤ u.toNat)) (decide ((u - v - if c then 0 else 1).toInt ≠ u.toInt - v.toInt - (!c).toNat)))) ∧
  (∀ (s : State) (h : Hdr) (b : Fin 8) (rd ra rb : Fin 32) (imm : Word),
    Runs s h b [rd, ra, rb] →
    let u := (s.bank h b).g[ra]
    let v := (s.bank h b).g[rb]
    let put (r : Word) : State :=
      s.bankStep h b (fun y => { y with g := y.g.set rd r, st := nzSt y.st (r.getLsbD 31) (r == 0) })
    exec (.and h rd ra rb) s = .next (put (u &&& v)) ∧
    exec (.or h rd ra rb) s = .next (put (u ||| v)) ∧
    exec (.xor h rd ra rb) s = .next (put (u ^^^ v)) ∧
    exec (.bic h rd ra rb) s = .next (put (u &&& ~~~ v)) ∧
    exec (.andi h rd ra imm) s = .next (put (u &&& imm)) ∧
    exec (.ori h rd ra imm) s = .next (put (u ||| imm)) ∧
    exec (.xori h rd ra imm) s = .next (put (u ^^^ imm))) ∧
  (∀ (s : State) (h : Hdr) (b : Fin 8) (ra rb : Fin 32) (imm : Word),
    Runs s h b [ra, rb] →
    let u := (s.bank h b).g[ra]
    let v := (s.bank h b).g[rb]
    let flags (f : Word → Word) : State := s.bankStep h b (fun y => { y with st := f y.st })
    let diff (v : Word) (st : Word) : Word := nzcv st ((u - v).getLsbD 31) (u - v == 0) (decide (v.toNat ≤ u.toNat))
      (decide ((u - v).toInt ≠ u.toInt - v.toInt))
    let below (v : Word) (st : Word) : Word := nzcv st (decide (u.toNat < v.toNat)) (u == v) (decide (v.toNat ≤ u.toNat)) false
    exec (.cmp h ra rb) s = .next (flags (diff v)) ∧
    exec (.cmpi h ra imm) s = .next (flags (diff imm)) ∧
    exec (.cmpu h ra rb) s = .next (flags (below v)) ∧
    exec (.cmpui h ra imm) s = .next (flags (below imm)) ∧
    exec (.tst h ra rb) s = .next (flags (fun st => nzSt st ((u &&& v).getLsbD 31) (u &&& v == 0)))) ∧
  (∀ (s : State) (h : Hdr) (b : Fin 8) (rd ra : Fin 32),
    Runs s h b [rd, ra] →
    let u := (s.bank h b).g[ra]
    let r := if u.getLsbD 31 then 0 - u else u
    exec (.neg h rd ra) s = .next (s.bankStep h b (fun y =>
      { y with g := y.g.set rd (0 - u),
               st := nzcv y.st ((0 - u).getLsbD 31) (u == 0) (u == 0) (u == 0x80000000) })) ∧
    exec (.abs h rd ra) s = .next (s.bankStep h b (fun y =>
      { y with g := y.g.set rd r, st := (nzSt y.st (r.getLsbD 31) (r == 0)).withBit stV (u == 0x80000000) })))

/-- 12 R284, R285, 11 R261, R266: moves, extensions, minima and maxima, CLZ and the immediate moves write rd and no flag; SUBI
writes its flags; with W on NK-S, MOV copies an even register pair. MINU, MAXU, CLZ, MOVFH, MOVTH, ADDIW, ADDSP and SUBI are NK-L
only. -/
def Obligations.MoveResults : Prop :=
  (∀ (s : State) (h : Hdr) (b : Fin 8) (rd ra rb : Fin 32) (imm : Word) (hi : BitVec 16),
    Runs s h b [rd, ra, rb] →
    let x := s.bank h b
    let u := x.g[ra]
    let v := x.g[rb]
    let put (r : Word) : State := s.bankStep h b (fun y => { y with g := y.g.set rd r })
    exec (.mov h false rd ra) s = .next (put u) ∧
    exec (.sxtb h rd ra) s = .next (put ((u.setWidth 8).signExtend 32)) ∧
    exec (.sxth h rd ra) s = .next (put ((u.setWidth 16).signExtend 32)) ∧
    exec (.zxtb h rd ra) s = .next (put ((u.setWidth 8).setWidth 32)) ∧
    exec (.zxth h rd ra) s = .next (put ((u.setWidth 16).setWidth 32)) ∧
    exec (.min h rd ra rb) s = .next (put (if u.slt v then u else v)) ∧
    exec (.max h rd ra rb) s = .next (put (if u.slt v then v else u)) ∧
    exec (.movi h rd imm) s = .next (put imm) ∧
    exec (.movhi h rd hi) s = .next (put (hi ++ (x.g[rd].setWidth 16 : BitVec 16)))) ∧
  (∀ (s : State) (h : Hdr) (b : Fin 8) (rd ra rb : Fin 32) (d a : Fin 16) (imm : Word),
    Runs s h b [rd, ra, rb] → h.core.isNKS = false →
    let x := s.bank h b
    let u := x.g[ra]
    let v := x.g[rb]
    let put (i : Fin 32) (r : Word) : State := s.bankStep h b (fun y => { y with g := y.g.set i r })
    let lo (i : Fin 16) : Fin 32 := ⟨i.val, by omega⟩
    let hi (i : Fin 16) : Fin 32 := ⟨16 + i.val, by omega⟩
    exec (.minu h rd ra rb) s = .next (put rd (if u.ult v then u else v)) ∧
    exec (.maxu h rd ra rb) s = .next (put rd (if u.ult v then v else u)) ∧
    exec (.clz h rd ra) s = .next (put rd u.clz) ∧
    exec (.movfh h d a) s = .next (put (lo d) x.g[hi a]) ∧
    exec (.movth h d a) s = .next (put (hi d) x.g[lo a]) ∧
    exec (.addiw h rd imm) s = .next (put rd (x.g[rd] + imm)) ∧
    exec (.addsp h imm) s = .next (put 31 (x.g[(31 : Fin 32)] + imm)) ∧
    exec (.subi h rd imm) s = .next (s.bankStep h b (fun y =>
      let r := x.g[rd] - imm
      { y with g := y.g.set rd r,
               st := nzcv y.st (r.getLsbD 31) (r == 0) (decide (imm.toNat ≤ x.g[rd].toNat)) (decide (r.toInt ≠ x.g[rd].toInt - imm.toInt)) }))) ∧
  (∀ (s : State) (h : Hdr) (b : Fin 8) (rd ra : Fin 32),
    Runs s h b [rd, pairReg rd, ra, pairReg ra] → h.core.isNKS = true → rd.val % 2 = 0 → ra.val % 2 = 0 →
    let x := s.bank h b
    exec (.mov h true rd ra) s = .next (s.bankStep h b (fun y =>
      { y with g := (y.g.set rd x.g[ra]).set (pairReg rd) x.g[pairReg ra] })))

/-- 11 R278: a shift by the low 8 bits of rb, or by an immediate of 0 to 31, gives the row of the table, and every operand and
amount has exactly one row; N and Z are those of the result (12 R284, R285). -/
def Obligations.ShiftResults : Prop :=
  (∀ (s : State) (h : Hdr) (b : Fin 8) (rd ra rb : Fin 32) (n r : Word) (c : Bool),
    Runs s h b [rd, ra, rb] → n.toNat < 32 →
    let x := s.bank h b
    let u := x.g[ra]
    let t : State := s.bankStep h b (fun y =>
      { y with g := y.g.set rd r, st := (nzSt y.st (r.getLsbD 31) (r == 0)).withBit stC c })
    let byReg (k : Shift) (i : Instr) : Prop := ShiftRow k u (x.g[rb].toNat % 256) (x.st.bit stC) r c → exec i s = .next t
    let byImm (k : Shift) (i : Instr) : Prop := ShiftRow k u n.toNat (x.st.bit stC) r c → exec i s = .next t
    byReg .lsl (.lsl h rd ra rb) ∧ byReg .lsr (.lsr h rd ra rb) ∧ byReg .asr (.asr h rd ra rb) ∧ byReg .ror (.ror h rd ra rb) ∧
    byImm .lsl (.lsli h rd ra n) ∧ byImm .lsr (.lsri h rd ra n) ∧ byImm .asr (.asri h rd ra n) ∧ byImm .ror (.rori h rd ra n)) ∧
  (∀ (k : Shift) (u : Word) (n : Nat) (c : Bool),
    ∃ r d, ShiftRow k u n c r d ∧ ∀ r' d', ShiftRow k u n c r' d' → r' = r ∧ d' = d)

/-- 12 R285 to R287, 11 R277, 13 R298, R303: a multiply writes rd alone when it completes; a division by anything but 0 writes its
result and V (DIVS may set Q and writes no V); with DZT = 0 a division by 0 sets DZ and gives the limits, or the dividend as
remainder; with DZT = 1 it sets DZ, writes no register, and raises the divide-by-zero exception (vector 8) at the instruction. -/
def Obligations.MultiplyDivideResults : Prop :=
  (∀ (s : State) (h : Hdr) (b : Fin 8) (rd ra rb : Fin 32) (imm : Word),
    Runs s h b [rd, ra, rb] →
    let u := (s.bank h b).g[ra]
    let v := (s.bank h b).g[rb]
    let put (r : Word) (y : BankS) : BankS := { y with g := y.g.set rd r }
    Issues s h b (.mul h rd ra rb) (put (u * v)) ∧
    Issues s h b (.mulh h rd ra rb) (put (((u.signExtend 64) * (v.signExtend 64)).extractLsb' 32 32)) ∧
    Issues s h b (.mulhu h rd ra rb) (put (((u.setWidth 64) * (v.setWidth 64)).extractLsb' 32 32)) ∧
    Issues s h b (.muli h rd ra imm) (put (u * imm))) ∧
  (∀ (s : State) (h : Hdr) (b : Fin 8) (rd ra rb : Fin 32),
    Runs s h b [rd, ra, rb] → (s.bank h b).g[rb] ≠ 0 →
    let u := (s.bank h b).g[ra]
    let v := (s.bank h b).g[rb]
    let lone := u == 0x80000000 && v == 0xFFFFFFFF
    let put (r : Word) (f : Word → Word) (y : BankS) : BankS := { y with g := y.g.set rd r, st := f y.st }
    Divides s h b (.div h rd ra rb) (put (u.sdiv v) (fun st => st.withBit stV lone)) ∧
    Divides s h b (.rem h rd ra rb) (put (u.srem v) (fun st => st.withBit stV lone)) ∧
    Divides s h b (.divu h rd ra rb) (put (u / v) (fun st => st.withBit stV false)) ∧
    Divides s h b (.remu h rd ra rb) (put (u % v) (fun st => st.withBit stV false)) ∧
    Divides s h b (.divs h rd ra rb) (put (if lone then 0x7FFFFFFF else u.sdiv v) (fun st => if lone then st.withBit stQ true else st))) ∧
  (∀ (s : State) (h : Hdr) (b : Fin 8) (rd ra rb : Fin 32),
    Runs s h b [rd, ra, rb] → (s.bank h b).g[rb] = 0 → (s.bank h b).st.bit stDZT = false →
    let u := (s.bank h b).g[ra]
    let top : Word := if u.getLsbD 31 then 0x80000000 else 0x7FFFFFFF
    let put (r : Word) (v : Bool) (y : BankS) : BankS :=
      { y with g := y.g.set rd r, st := (if v then y.st.withBit stV false else y.st).withBit stDZ true }
    Divides s h b (.div h rd ra rb) (put top true) ∧
    Divides s h b (.rem h rd ra rb) (put u true) ∧
    Divides s h b (.divu h rd ra rb) (put 0xFFFFFFFF true) ∧
    Divides s h b (.remu h rd ra rb) (put u true) ∧
    Divides s h b (.divs h rd ra rb) (put top false)) ∧
  (∀ (s : State) (h : Hdr) (b : Fin 8) (rd ra rb : Fin 32),
    Runs s h b [rd, ra, rb] → (s.bank h b).g[rb] = 0 → (s.bank h b).st.bit stDZT = true →
    recogDue s.chip h.core = false →
    let t : State := (s.fetched h b).after (fun c => takeException h.core b true 8 (s.bank h b).pc 0
      (updBank h.core b (fun y => { y with st := y.st.withBit stDZ true }) c))
    exec (.div h rd ra rb) s = .next t ∧ exec (.divu h rd ra rb) s = .next t ∧ exec (.rem h rd ra rb) s = .next t ∧
    exec (.remu h rd ra rb) s = .next t ∧ exec (.divs h rd ra rb) s = .next t)

/-- 12 R286, R288, 11 R277: the saturating instructions clamp to 32 bits and set Q where they clamp; Q is never cleared. The
accumulators of NK-S: a sum or difference inside the 48-bit range is exact and leaves Q. -/
def Obligations.SaturatingResults : Prop :=
  (∀ (s : State) (h : Hdr) (b : Fin 8) (rd ra rb : Fin 32),
    Runs s h b [rd, ra, rb] →
    let u := (s.bank h b).g[ra].toInt
    let v := (s.bank h b).g[rb].toInt
    let put (x : Int) : State := s.bankStep h b (fun y =>
      { y with g := y.g.set rd (BitVec.ofInt 32 (max (-2147483648) (min x 2147483647))),
               st := if -2147483648 ≤ x ∧ x ≤ 2147483647 then y.st else y.st.withBit stQ true })
    exec (.adds h rd ra rb) s = .next (put (u + v)) ∧
    exec (.subs h rd ra rb) s = .next (put (u - v)) ∧
    exec (.negs h rd ra) s = .next (put (-u)) ∧
    exec (.abss h rd ra) s = .next (put |u|) ∧
    (h.core.isNKS = false →
      exec (.mulq31 h rd ra rb) s = .next (put ((u * v + 2 ^ 30) / 2 ^ 31)) ∧
      exec (.mulq15 h rd ra rb) s = .next (put ((u * v + 2 ^ 14) / 2 ^ 15)))) ∧
  (∀ (s : State) (h : Hdr) (b : Fin 8) (ac : Fin 2) (rd ra rb : Fin 32),
    Runs s h b [rd, ra, rb] → h.core.isNKS = true →
    let x := s.bank h b
    let a := x.ac[ac].toInt
    let p := x.g[ra].toInt * x.g[rb].toInt
    let n := x.g[ra].toNat % 64
    let q := if n = 0 then a else (a + 2 ^ (n - 1)) / 2 ^ n
    let setAc (v : Int) : State := s.bankStep h b (fun y => { y with ac := y.ac.set ac (BitVec.ofInt 48 v) })
    let inside (v : Int) : Prop := -(2 ^ 47) ≤ v ∧ v < 2 ^ 47
    (inside (a + p) → exec (.mac h ac ra rb) s = .next (setAc (a + p))) ∧
    (inside (a - p) → exec (.msu h ac ra rb) s = .next (setAc (a - p))) ∧
    exec (.aclr h ac) s = .next (setAc 0) ∧
    exec (.acsh h ac ra) s = .next (setAc (a / 2 ^ n)) ∧
    exec (.acwr h ac ra) s = .next (setAc x.g[ra].toInt) ∧
    exec (.acrd h rd ac ra) s = .next (s.bankStep h b (fun y =>
      { y with g := y.g.set rd (BitVec.ofInt 32 (max (-2147483648) (min q 2147483647))),
               st := if -2147483648 ≤ q ∧ q ≤ 2147483647 then y.st else y.st.withBit stQ true })))

/-- 11 R277: an accumulator result outside the 48-bit range stops at the limit and sets Q; +2⁴⁷ itself has no 48-bit form, so the
upper limit is 2⁴⁷ − 1 (the model's choice, log 56). -/
def Obligations.AccumulatorLimits : Prop := ∀ (s : State) (h : Hdr) (b : Fin 8) (ac : Fin 2) (ra rb : Fin 32),
  Runs s h b [ra, rb] → h.core.isNKS = true →
  let x := s.bank h b
  let a := x.ac[ac].toInt
  let p := x.g[ra].toInt * x.g[rb].toInt
  let lim (hi : Bool) : State := s.bankStep h b (fun y =>
    { y with ac := y.ac.set ac (if hi then BitVec.intMax 48 else BitVec.intMin 48), st := y.st.withBit stQ true })
  (2 ^ 47 ≤ a + p → exec (.mac h ac ra rb) s = .next (lim true)) ∧
  (a + p < -(2 ^ 47) → exec (.mac h ac ra rb) s = .next (lim false)) ∧
  (2 ^ 47 ≤ a - p → exec (.msu h ac ra rb) s = .next (lim true)) ∧
  (a - p < -(2 ^ 47) → exec (.msu h ac ra rb) s = .next (lim false))

/-- 12 R289, 11 R266, R279, 13 R296, 00 R3: a load from the core's own memory writes its register with the little-endian value,
extended, and nothing else but PC; with W on NK-S, a register pair, the lower-numbered register from the lower address; LDF loads a
floating-point register of a bank that owns the file. -/
def Obligations.LoadResults : Prop := ∀ (s : State) (h : Hdr) (b : Fin 8) (rd ra : Fin 32) (off : Word),
  Runs s h b [rd, pairReg rd, ra] →
  let x := s.bank h b
  let k := h.core
  let a := (x.g[ra] + off).toNat
  let ts := (coreGet s.chip k).stores
  let m (i : Nat) : Byte := tcmByte s.chip k (a + i)
  let loads (i : Instr) (n : Nat) (t : State) : Prop :=
    ((∀ j : Fin n, storeByte ts (a + j.val) = none) → exec i s = .next (t.after (portUse (tcmKey k a)))) ∧
    ((∀ j : Fin n, (storeByte ts (a + j.val)).isSome = true) → exec i s = .next t) ∧
    (k.isNKS = false → s.chip.ecc.bad = [] → Goes i s fun u => u.bank h b = t.bank h b ∧ (coreGet u.chip k).f = (coreGet t.chip k).f ∧
      u.chip.regs = s.chip.regs)
  let put (r : Word) : State := s.bankStep h b (fun y => { y with g := y.g.set rd r })
  (OwnAccess s h b .read a 1 →
    loads (.ldb h rd ra off) 1 (put ((m 0).signExtend 32)) ∧
    loads (.ldbu h rd ra off) 1 (put ((m 0).setWidth 32))) ∧
  (OwnAccess s h b .read a 2 →
    loads (.ldh h rd ra off) 2 (put ((m 1 ++ m 0).signExtend 32)) ∧
    loads (.ldhu h rd ra off) 2 (put ((m 1 ++ m 0).setWidth 32))) ∧
  (OwnAccess s h b .read a 4 →
    loads (.ldw h false rd ra off) 4 (put (Word.ofBytes (m 0) (m 1) (m 2) (m 3)))) ∧
  (OwnAccess s h b .read a 8 → OwnAccess s h b .read (a + 4) 4 → k.isNKS = true → rd.val % 2 = 0 →
    (∀ j : Fin 8, storeByte ts (a + j.val) = none) → exec (.ldw h true rd ra off) s = .next ((s.bankStep h b (fun y =>
      { y with g := (y.g.set rd (Word.ofBytes (m 0) (m 1) (m 2) (m 3))).set (pairReg rd) (Word.ofBytes (m 4) (m 5) (m 6) (m 7)) })).after
        (portUse (tcmKey k a)))) ∧
  (k.isNKS = false → x.st.bit stFPA = true → OwnAccess s h b .read a 4 → loads (.ldf h rd ra off) 4
    ((s.bankStep h b id).after (updCore k (fun q => { q with f := q.f.set rd (Word.ofBytes (m 0) (m 1) (m 2) (m 3)) }))))

/-- 12 R289, 13 R296, R303, 00 R3: a store to the core's own memory writes its bytes and no other byte, no register and no flag: on
NK-S at once; on NK-L through a buffer of four, of which the oldest lands when a fifth store comes, and which memory shows once it
drains. While a lane of Triton returns, the write is queued for it (14 R335). -/
def Obligations.StoreResults : Prop := ∀ (s : State) (h : Hdr) (b : Fin 8) (rd ra : Fin 32) (off : Word),
  Runs s h b [rd, pairReg rd, ra] →
  let x := s.bank h b
  let k := h.core
  let a := (x.g[ra] + off).toNat
  let ts := (coreGet s.chip k).stores
  let written (u : Chip) (n v : Nat) : Prop := ∀ j, memByte u j =
    if tcmKey k a ≤ j ∧ j < tcmKey k a + n then BitVec.ofNat 8 (v / 256 ^ (j - tcmKey k a)) else memByte s.chip j
  let stores (i : Instr) (n v : Nat) : Prop :=
    let e : PortStore := { bank := b, addr := a, n := n, val := v % 256 ^ n }
    (k.isNKS = true → Goes i s fun t => t = (s.bankStep h b id).after (fun c => { portUse (tcmKey k a) c with mem := t.chip.mem }) ∧
      written t.chip n v) ∧
    (k.isNKS = false → ts.length < 4 → Goes i s fun t => t = (s.bankStep h b id).after (fun c =>
        { updCore k (fun q => { q with stores := q.stores ++ [e] }) c with tri := (memNote k true a n (v % 256 ^ n) s.chip).tri }) ∧
      (ts = [] → written (drainStores k t.chip) n v)) ∧
    (k.isNKS = false → ts.length = 4 → Goes i s fun t => (coreGet t.chip k).stores = ts.tail ++ [e] ∧ (t.bank h b).g = x.g ∧
      (t.bank h b).pc = x.pc + BitVec.ofNat 32 h.len)
  (OwnAccess s h b .write a 1 → stores (.stb h rd ra off) 1 x.g[rd].toNat) ∧
  (OwnAccess s h b .write a 2 → stores (.sth h rd ra off) 2 x.g[rd].toNat) ∧
  (OwnAccess s h b .write a 4 → stores (.stw h false rd ra off) 4 x.g[rd].toNat) ∧
  (OwnAccess s h b .write a 8 → OwnAccess s h b .write (a + 4) 4 → k.isNKS = true → rd.val % 2 = 0 →
    stores (.stw h true rd ra off) 8 (x.g[rd].toNat + 2 ^ 32 * x.g[pairReg rd].toNat)) ∧
  (OwnAccess s h b .write a 4 → k.isNKS = false → x.st.bit stFPA = true →
    stores (.stf h rd ra off) 4 (coreGet s.chip k).f[rd].toNat)

/-- 12 R291, 11 R279, 13 R314: an atomic on a word of the core's TCM returns the word in rd and writes the new one; CAS writes only
on a match and sets Z; an unaligned atomic raises the alignment exception (vector 6), and one outside the TCM and system SRAM the
data-protect exception (vector 5), with no access made; BANK_FADDR holds the address. -/
def Obligations.AtomicInstructions : Prop :=
  (∀ (s : State) (h : Hdr) (b : Fin 8) (rd ra rb : Fin 32),
    Runs s h b [rd, ra, rb] → h.core.isNKS = false →
    let x := s.bank h b
    let k := h.core
    let a := x.g[ra].toNat
    let m (i : Nat) : Byte := memByte s.chip (tcmKey k (a + i))
    let w := Word.ofBytes (m 0) (m 1) (m 2) (m 3)
    OwnAccess s h b .read a 4 → OwnAccess s h b .write a 4 →
    let swaps (i : Instr) (new : Option Word) (st : Word) : Prop :=
      ((coreGet s.chip k).stores = [] → Goes i s fun t =>
        t = (s.bankStep h b (fun y => { y with g := y.g.set rd w, st := st })).after (fun c =>
          { portUse (tcmKey k a) c with mem := t.chip.mem, tri := match new with
            | some v => (memNote k true a 4 v.toNat s.chip).tri
            | none => s.chip.tri }) ∧
        ∀ j, memByte t.chip j = if tcmKey k a ≤ j ∧ j < tcmKey k a + 4 then Word.byte (new.getD w) (j - tcmKey k a) else memByte s.chip j) ∧
      (s.chip.ecc.bad = [] → ∃ t, exec i s = .next t ∧ exec i (s.after (drainStores k)) = .next t)
    swaps (.swap h rd ra rb) (some x.g[rb]) x.st ∧
    swaps (.cas h rd ra rb) (if w = x.g[rd] then some x.g[rb] else none) (x.st.withBit stZ (w == x.g[rd])) ∧
    swaps (.amoadd h rd ra rb) (some (w + x.g[rb])) x.st ∧
    swaps (.amoand h rd ra rb) (some (w &&& x.g[rb])) x.st ∧
    swaps (.amoor h rd ra rb) (some (w ||| x.g[rb])) x.st) ∧
  (∀ (s : State) (h : Hdr) (b : Fin 8) (rd ra rb : Fin 32) (i : Instr),
    Runs s h b [rd, ra, rb] → h.core.isNKS = false → recogDue s.chip h.core = false →
    i ∈ [.swap h rd ra rb, .cas h rd ra rb, .amoadd h rd ra rb, .amoand h rd ra rb, .amoor h rd ra rb] →
    let x := s.bank h b
    let a := x.g[ra].toNat
    let traps (v : Nat) : Prop := exec i s = .next ((s.fetched h b).after (fun c => takeException h.core b true v x.pc 0
      (updBank h.core b (fun y => { y with faddr := x.g[ra] }) c)))
    (a % 4 ≠ 0 → traps 6) ∧
    (a % 4 = 0 → ¬ a < tcmSize h.core → ¬ (0x10000000 ≤ a ∧ a < 0x11000000) → traps 5))

/-- 12 R292, 11 R262, R264: branches, calls and returns; a relative target counts halfwords from the instruction on NK-L and bytes
from the next on NK-S. JR and JLR read their target before lr is written. On NK-L a register target whose bit 0 is 1 raises the
alignment exception at the branch, with no register written. -/
def Obligations.BranchResults : Prop :=
  (∀ (s : State) (h : Hdr) (b : Fin 8) (ra : Fin 32) (off : Word),
    Runs s h b [ra] →
    let x := s.bank h b
    let next := x.pc + BitVec.ofNat 32 h.len
    let target := if h.core.isNKS then next + off else x.pc + 2 * off
    let lr : Fin 32 := if h.core.isNKS then 14 else 30
    let go (pc : Word) (f : BankS → BankS) : State := (s.fetched h b).after (updBank h.core b (fun y => { f y with pc := pc }))
    let link (y : BankS) : BankS := { y with g := y.g.set lr next }
    exec (.br h off) s = .next (go target id) ∧
    exec (.call h off) s = .next (go target link) ∧
    exec (.ret h) s = .next (go x.g[lr] id) ∧
    ((h.core.isNKS = true ∨ x.g[ra].getLsbD 0 = false) →
      exec (.jr h ra) s = .next (go x.g[ra] id) ∧ exec (.jlr h ra) s = .next (go x.g[ra] link))) ∧
  (∀ (s : State) (h : Hdr) (b : Fin 8) (ra : Fin 32) (mask : BitVec 16),
    Runs s h b [ra] → h.core.isNKS = false → (s.bank h b).g[ra].getLsbD 0 = true → recogDue s.chip h.core = false →
    let t (prog : Nat) : State := (s.fetched h b).after (takeException h.core b true 6 (s.bank h b).pc prog)
    exec (.jr h ra) s = .next (t 0) ∧ exec (.jlr h ra) s = .next (t 0) ∧ exec (.callm h mask ra 0) s = .next (t 1))

/-- 11 R270, R271: CALLM stores the named registers and then lr below sp, lowers sp, links and branches; RETM loads them from sp,
raises sp, and goes to the address that lr held; nothing else changes. The stack lies in the core's own memory here. On NK-S a mask
that names g15 is illegal whatever the condition. -/
def Obligations.CallmRetmResults : Prop :=
  (∀ (s : State) (h : Hdr) (b : Fin 8) (mask : BitVec 16) (rt : Fin 32) (off : Word),
    Runs s h b [] → (h.core.isNKS = true → mask.toNat < 128) →
    let x := s.bank h b
    let k := h.core
    let lr : Fin 32 := if k.isNKS then 14 else 30
    let sp : Fin 32 := if k.isNKS then 15 else 31
    let rs := maskRegs k mask ++ [lr]
    let base := x.g[sp] - BitVec.ofNat 32 (4 * rs.length)
    let next := x.pc + BitVec.ofNat 32 h.len
    let target := if k.isNKS then next + off else x.g[rt]
    (k.isNKS = false → target.getLsbD 0 = false) → 4 * rs.length ≤ x.g[sp].toNat → x.g[sp].toNat % 4 = 0 →
    (∀ i : Fin rs.length, OwnAccess s h b .write (base.toNat + 4 * i.val) 4) → s.chip.ecc.bad = [] →
    let done (u : Chip) : Prop := bankGet u k b = { x with g := (x.g.set sp base).set lr next, pc := target } ∧ u.regs = s.chip.regs
    let pushed (u u0 : Chip) : Prop :=
      (∀ i : Fin rs.length, memVal u (tcmKey k (base.toNat + 4 * i.val)) 4 = x.g[rs[i]].toNat) ∧
      ∀ j, (j < tcmKey k base.toNat ∨ tcmKey k base.toNat + 4 * rs.length ≤ j) → memByte u j = memByte u0 j
    ∃ t, exec (.callm h mask rt off) s = .next t ∧
      (k.isNKS = false → done t.chip ∧ pushed (drainStores k t.chip) (drainStores k s.chip) ∧
        t.chip.tri = ((List.finRange rs.length).foldl (fun (c : Chip) i =>
          memNote k true (base.toNat + 4 * i.val) 4 x.g[rs[i]].toNat c) s.chip).tri) ∧
      (k.isNKS = true → t.bank h b = x ∧ done (slotsAfter k rs.length t.chip) ∧ pushed (slotsAfter k rs.length t.chip) s.chip)) ∧
  (∀ (s : State) (h : Hdr) (b : Fin 8) (mask : BitVec 16),
    Runs s h b [] → (h.core.isNKS = true → mask.toNat < 128) →
    let x := s.bank h b
    let k := h.core
    let lr : Fin 32 := if k.isNKS then 14 else 30
    let sp : Fin 32 := if k.isNKS then 15 else 31
    let rs := maskRegs k mask ++ [lr]
    x.g[sp].toNat % 4 = 0 → x.g[sp].toNat + 4 * rs.length ≤ 2 ^ 32 →
    (∀ i : Fin rs.length, OwnAccess s h b .read (x.g[sp].toNat + 4 * i.val) 4) → s.chip.ecc.bad = [] →
    (k.isNKS = true → (coreGet s.chip k).stores = []) →
    let word (a : Nat) : Word := Word.ofBytes (tcmByte s.chip k a) (tcmByte s.chip k (a + 1)) (tcmByte s.chip k (a + 2)) (tcmByte s.chip k (a + 3))
    let done (u : Chip) : Prop :=
      bankGet u k b = { x with g := (bankGet u k b).g, pc := x.g[lr] } ∧
      (∀ i : Fin rs.length, (bankGet u k b).g[rs[i]] = word (x.g[sp].toNat + 4 * i.val)) ∧
      (bankGet u k b).g[sp] = x.g[sp] + BitVec.ofNat 32 (4 * rs.length) ∧
      (∀ r : Fin 32, r ∉ rs → r ≠ sp → (bankGet u k b).g[r] = x.g[r]) ∧
      (∀ a, a < tcmSize k → tcmByte u k a = tcmByte s.chip k a) ∧ u.regs = s.chip.regs
    ∃ t, exec (.retm h mask) s = .next t ∧ (k.isNKS = false → done t.chip) ∧
      (k.isNKS = true → t.bank h b = x ∧ done (slotsAfter k rs.length t.chip))) ∧
  (∀ (s : State) (h : Hdr) (b : Fin 8) (mask : BitVec 16) (rt : Fin 32) (off : Word),
    Ready s.chip h.core b h.len → h.core.isNKS = true → mask.getLsbD 7 = true → recogDue s.chip h.core = false →
    exec (.callm h mask rt off) s = .next ((s.fetched h b).after (takeException h.core b true 2 (s.bank h b).pc 0)))

/-- 12 R293, 11 R255, R273, 13 R305, R307, 09 R214: NOP, the fences, YIELD in bank 0, WFE with its latch set, and SETC; while a
store of a loop engine is on its way a fence keeps PC and waits; the stores in an NK-L core's buffer are written (13 R296), and
FENCE.I empties the instruction cache. WFE with its latch clear makes its bank wait behind the instruction; YIELD ends an activation
with no LEVEL source asserted: the counter is one less, the bank IDLE at 0, else READY. The recognition that follows either gives
the core to the highest READY bank (of Triton, where no lane returns); after WFE with none, to none. -/
def Obligations.SystemResults : Prop :=
  (∀ (s : State) (h : Hdr) (b : Fin 8) (code : Word),
    Runs s h b [] →
    let t (f : BankS → BankS) : State := s.bankStep h b f
    let fenced (c : Chip) : State := s.after (fun _ => updBank h.core b (fun y => { y with pc := y.pc + BitVec.ofNat 32 h.len })
      (drainStores h.core c))
    let anew (c : Chip) : Chip := updCore h.core (fun q => { q with icache := [] }) c
    exec (.nop h) s = .next (t id) ∧
    (h.core.isNKS = false ∨ (coreGet s.chip h.core).stores = [] →
      exec (.fence h) s = .next (fenced (s.fetched h b).chip) ∧ exec (.fenceI h) s = .next (fenced (anew (s.fetched h b).chip))) ∧
    (h.core.isNKS = true → (coreGet s.chip h.core).stores ≠ [] → ∀ i ∈ [Instr.fence h, Instr.fenceI h], Goes i s fun t =>
      stalled t.chip h.core b = true ∧ t.bank h b = s.bank h b ∧ (coreGet t.chip h.core).stores = (coreGet s.chip h.core).stores ∧
      t.chip.mem = s.chip.mem ∧ t.chip.regs = s.chip.regs) ∧
    (code.toNat < 16 → exec (.setc h code) s = .next (t (fun y => { y with st := y.st.withFld 8 4 code.toNat }))) ∧
    (b = 0 → exec (.yield h) s = .next (t id)) ∧
    ((s.bank h b).latch = true → exec (.wfe h) s = .next (t (fun y => { y with latch := false })))) ∧
  (∀ (s : State) (h : Hdr) (b : Fin 8),
    Runs s h b [] → (s.bank h b).latch = false → (h.core = .triton → s.chip.tri = none) →
    let t := s.bankStep h b (fun y => { y with mode := .waiting, wait := some (.event s.chip.now) })
    exec (.wfe h) s = .next t ∧
    ((∀ o : Fin 8, (bankGet s.chip h.core o).mode ≠ .ready) →
      exec (.recognition h.core) t = .next (t.after (updCore h.core (fun q => { q with running := none })))) ∧
    ∀ o : Fin 8, (bankGet s.chip h.core o).mode = .ready → (∀ p : Fin 8, (bankGet s.chip h.core p).mode = .ready → p ≤ o) →
      ∃ u, exec (.recognition h.core) t = .next u ∧ (coreGet u.chip h.core).running = some o ∧ (bankGet u.chip h.core o).mode = .running) ∧
  (∀ (s : State) (h : Hdr) (b : Fin 8),
    Runs s h b [] → b ≠ 0 → (coreGet s.chip h.core).irq = 0 → (h.core = .triton → s.chip.tri = none) →
    let n := (s.bank h b).count - 1
    let t := s.bankStep h b (fun y => { y with count := n, inAct := false, mode := if n = 0 then .idle else .ready })
    exec (.yield h) s = .next t ∧
    ∀ o : Fin 8, (bankGet t.chip h.core o).mode = .ready → (∀ p : Fin 8, (bankGet t.chip h.core p).mode = .ready → p ≤ o) →
      ∃ u, exec (.recognition h.core) t = .next u ∧ (coreGet u.chip h.core).running = some o)

/-- 11 R267, R269: a repeat prefix with LC ≠ 0 begins its pair (one that may be repeated); REPU runs at most 16 iterations; with LC
= 0 the pair is skipped. An iteration of a repeated ADD counts LC down; the last one ends the pair at the next instruction, and
every iteration before it starts the instruction again. -/
def Obligations.RepeatPairs : Prop :=
  (∀ (s : State) (h : Hdr) (b : Fin 8) (n : Nat),
    Runs s h b [] →
    let x := s.bank h b
    let next := x.pc + BitVec.ofNat 32 h.len
    let pair (u : Bool) (k : Nat) : State := (s.fetched h b).after (updBank h.core b (fun y =>
      { y with rep := some { pre := x.pc, repu := u, left := k, begun := false }, pc := next }))
    let skip : State := (s.fetched h b).after (updBank h.core b (fun y => { y with pc := next + BitVec.ofNat 32 n }))
    (x.lc ≠ 0 → exec (.rep h ⟨n, true⟩) s = .next (pair false x.lc.toNat) ∧
      exec (.repu h ⟨n, true⟩) s = .next (pair true (min x.lc.toNat 16))) ∧
    (x.lc = 0 → exec (.rep h ⟨n, true⟩) s = .next skip ∧ exec (.repu h ⟨n, true⟩) s = .next skip)) ∧
  (∀ (s : State) (h hp : Hdr) (b : Fin 8) (rd ra rb : Fin 32) (s1 : State),
    Runs s hp b [] → hasRegs h.core [rd, ra, rb] → h.core = hp.core → condHolds (s.bank hp b).st h.cond = true →
    (s.bank hp b).lc ≠ 0 → exec (.rep hp ⟨h.len, true⟩) s = .next s1 →
    fetchOk { k := h.core, b := b, pc := (s1.bank h b).pc, nxt := (s1.bank h b).pc + BitVec.ofNat 32 h.len } h.len s1.chip
      = (true, fetchMark h.core (s1.bank h b).pc s1.chip) →
    ∃ t, exec (.add h rd ra rb) s1 = .next t ∧
      (t.bank h b).lc = (s.bank hp b).lc - 1 ∧
      (t.bank h b).g = (s.bank hp b).g.set rd ((s.bank hp b).g[ra] + (s.bank hp b).g[rb]) ∧
      (t.bank h b).pc = (if (s.bank hp b).lc = 1 then (s1.bank h b).pc + BitVec.ofNat 32 h.len else (s1.bank h b).pc) ∧
      ((t.bank h b).rep.isSome ↔ (s.bank hp b).lc ≠ 1))

/-- 13 R313 to R315, 12 R293: BRK and TRAP n enter their exceptions: EPC is the next instruction, EST the old ST with PROG 0; EXC is
set and IE cleared, PRIV is that of BANK_CFG, and PC is the word at CORE_VBAR + 4 × vector, where no bank of higher priority is
recognised in the cycle (R316). RTE restores PC and ST from EPC and EST, with PROG 0 and FPA kept, and the restart record that the
exception at this EPC found (R301); the next instruction is serialised. -/
def Obligations.TrapAndReturn : Prop :=
  (∀ (s : State) (h : Hdr) (b : Fin 8) (n : Word) (v : Nat) (i : Instr) (w : Word) (c : Chip),
    Runs s h b [] → ((i = .brk h ∧ v = 11) ∨ (n.toNat < 16 ∧ i = .trap h n ∧ v = 16 + n.toNat)) →
    let x := s.bank h b
    x.st.bit stEXC = false → recogDue s.chip h.core = false → vectorWord h.core b v (s.fetched h b).chip = (some w, c) →
    ¬ (b = 7 ∧ s.chip.bit (dfstatR h.core) 0 = true) →
    exec i s = .next (s.after (fun _ => updBank h.core b (fun y =>
      { y with epc := x.pc + BitVec.ofNat 32 h.len, est := x.st.withFld 16 5 0,
               st := (((x.st.withBit stEXC true).withBit stIE false).withFld 12 2 (bankPriv s.chip h.core b)).withFld 16 5 0,
               pc := w }) c))) ∧
  (∀ (s : State) (h : Hdr) (b : Fin 8),
    Runs s h b [] → privOf (s.bank h b).est ≤ bankPriv s.chip h.core b →
    let back (f : BankS → BankS) : Prop := exec (.rte h) s = .next ((s.fetched h b).after (fun c =>
      updCore h.core (fun q => { q with afterSt := true }) (updBank h.core b (fun y =>
        { f y with st := (y.est.withFld 16 5 0).withBit stFPA (y.st.bit stFPA) }) c)))
    ((∀ e ∈ (s.bank h b).saved, e.1 ≠ (s.bank h b).epc) → back (fun y => { y with pc := y.epc, saved := y.saved })) ∧
    ∀ (rec : List Word) (pc : Word) (rest : List (Word × List Word × Word)), (s.bank h b).saved = ((s.bank h b).epc, rec, pc) :: rest →
      back (fun y => { y with pc := pc, restart := rec, saved := rest }))

/-- 11 R251, R252: RDSR returns each system register that the privilege lets it read; TIME on NK-S is CAP_TIME. WRSR writes EPC,
EST, LC and FCSR, and of ST the fields that the privilege may change; a PRIV above the present one or of 3 raises the privilege
exception (vector 3) with ST unchanged. EPC and EST named at PRIV 0 raise it, and no register is written. -/
def Obligations.SystemRegisters : Prop :=
  (∀ (s : State) (h : Hdr) (b : Fin 8) (rd : Fin 32),
    Runs s h b [rd] →
    let x := s.bank h b
    let put (r : Word) : State := s.bankStep h b (fun y => { y with g := y.g.set rd r })
    exec (.rdsr h rd 0) s = .next (put x.st) ∧
    (privOf x.st ≠ 0 → exec (.rdsr h rd 1) s = .next (put x.epc) ∧ exec (.rdsr h rd 2) s = .next (put x.est)) ∧
    exec (.rdsr h rd 3) s = .next (put x.lc) ∧
    (h.core.isNKS = false → x.st.bit stFPA = true → exec (.rdsr h rd 4) s = .next (put (coreGet s.chip h.core).fcsr)) ∧
    exec (.rdsr h rd 5) s = .next (put (BitVec.ofNat 32 h.core.code)) ∧
    exec (.rdsr h rd 6) s = .next (put (BitVec.ofNat 32 b.val)) ∧
    (h.core.isNKS = true → exec (.rdsr h rd 7) s = .next (put s.chip.capTime))) ∧
  (∀ (s : State) (h : Hdr) (b : Fin 8) (ra : Fin 32),
    Runs s h b [ra] →
    let x := s.bank h b
    let v := x.g[ra]
    let mix (m old : Word) : Word := (old &&& ~~~ m) ||| (v &&& m)
    let serial (st : Word) : State := (s.fetched h b).after (fun c => updBank h.core b (fun y => { y with st := st, pc := y.pc + BitVec.ofNat 32 h.len })
      (updCore h.core (fun q => { q with afterSt := true }) c))
    (privOf x.st = 0 → exec (.wrsr h 0 ra) s = .next (serial (mix 0x00000F7F x.st))) ∧
    (privOf x.st ≠ 0 → privOf v ≤ privOf x.st → privOf v ≠ 3 → exec (.wrsr h 0 ra) s = .next (serial (mix 0x0000FF7F x.st))) ∧
    (privOf x.st ≠ 0 → (privOf x.st < privOf v ∨ privOf v = 3) → recogDue s.chip h.core = false →
      exec (.wrsr h 0 ra) s = .next ((s.fetched h b).after (takeException h.core b true 3 x.pc 0))) ∧
    (privOf x.st ≠ 0 → exec (.wrsr h 1 ra) s = .next (s.bankStep h b (fun y => { y with epc := v })) ∧
      exec (.wrsr h 2 ra) s = .next (s.bankStep h b (fun y => { y with est := mix 0x0000FF7F y.est }))) ∧
    exec (.wrsr h 3 ra) s = .next (s.bankStep h b (fun y => { y with lc := v })) ∧
    (h.core.isNKS = false → x.st.bit stFPA = true → exec (.wrsr h 4 ra) s = .next
      ((s.fetched h b).after (fun c => updBank h.core b (fun y => { y with pc := y.pc + BitVec.ofNat 32 h.len })
        (updCore h.core (fun q => { q with fcsr := v &&& 0x001F1F0F }) c))))) ∧
  (∀ (s : State) (h : Hdr) (b : Fin 8) (r : Fin 32) (n : BitVec 8),
    Runs s h b [r] → privOf (s.bank h b).st = 0 → (n = 1 ∨ n = 2) → recogDue s.chip h.core = false →
    let t : State := (s.fetched h b).after (takeException h.core b true 3 (s.bank h b).pc 0)
    exec (.rdsr h r n) s = .next t ∧ exec (.wrsr h n r) s = .next t)

/-- 11 R256, R266, R252: what decode refuses raises the illegal-instruction exception (vector 2) at the instruction, whatever its
condition: instructions that the core kind lacks, registers above 15 on NK-S, an odd register as a pair, the system registers that
do not exist, arguments beyond their range (12 R285, R293), and a repeat prefix of a pair that may not be (R268), with LC 0 too;
where no bank of higher priority is recognised in the cycle (13 R316). An instruction whose condition fails does nothing: only PC
moves on. -/
def Obligations.DecodeChecks : Prop :=
  (∀ (s : State) (h : Hdr) (b : Fin 8) (i : Instr) (rd ra rb : Fin 32) (imm : Word)
      (a : Fin 2) (n : BitVec 8) (len : Nat),
    Ready s.chip h.core b h.len → recogDue s.chip h.core = false →
    ((h.core.isNKS = true ∧ (i ∈ [.minu h rd ra rb, .maxu h rd ra rb, .clz h rd ra, .subi h rd imm, .addiw h rd imm, .addsp h imm,
        .mulq31 h rd ra rb, .mulq15 h rd ra rb, .swap h rd ra rb, .cas h rd ra rb, .fadd h false rd ra rb, .fmovtg h rd ra, .ldf h rd ra imm,
        .rdsr h rd 4, .wrsr h 4 ra] ∨ (16 ≤ rd.val ∧ i ∈ [.add h rd ra rb, .movi h rd imm, .ldw h false rd ra imm]) ∨
        (rd.val % 2 = 1 ∧ i ∈ [.mov h true rd ra, .ldw h true rd ra imm, .stw h true rd ra imm]))) ∨
     h.core.isNKS = false ∧ i ∈ [.mac h a ra rb, .msu h a ra rb, .aclr h a, .acsh h a ra, .acrd h rd a ra, .acwr h a ra,
        .mov h true rd ra, .ldw h true rd ra imm, .stw h true rd ra imm] ∨
     8 ≤ n.toNat ∧ i = .rdsr h rd n ∨ 5 ≤ n.toNat ∧ i = .wrsr h n ra ∨
     32 ≤ imm.toNat ∧ i ∈ [.lsli h rd ra imm, .lsri h rd ra imm, .asri h rd ra imm, .rori h rd ra imm, .sev h ra imm] ∨
     16 ≤ imm.toNat ∧ i ∈ [.trap h imm, .setc h imm] ∨ i ∈ [.rep h ⟨len, false⟩, .repu h ⟨len, false⟩]) →
    exec i s = .next ((s.fetched h b).after (takeException h.core b true 2 (s.bank h b).pc 0))) ∧
  (∀ (s : State) (h : Hdr) (b : Fin 8) (i : Instr) (rd ra rb : Fin 32) (imm n d : Word),
    Ready s.chip h.core b h.len → hasRegs h.core [rd, ra, rb] → condHolds (s.bank h b).st h.cond = false →
    n.toNat < 16 → d.toNat < 32 →
    i ∈ [.add h rd ra rb, .sub h rd ra rb, .and h rd ra rb, .lsl h rd ra rb, .cmp h ra rb, .mul h rd ra rb, .div h rd ra rb,
      .adds h rd ra rb, .ldb h rd ra imm, .ldw h false rd ra imm, .stb h rd ra imm, .stw h false rd ra imm, .br h imm, .call h imm,
      .jr h ra, .jlr h ra, .ret h, .yield h, .wfe h, .setc h n, .brk h, .trap h n, .rte h, .rdsr h rd 1, .wrsr h 0 ra, .sev h ra d,
      .lsli h rd ra d, .waitt h rd ra rb] →
    exec i s = .next (s.bankStep h b id))

/-- 11 R274, R275: SEV sends doorbell d to every core of the sender's plane whose bit is set, and to no other, to Triton through its
input vote (14 R331). WAITT gives its result at once for a bad descriptor, a time already reached, an angle outside the control
plane or with its phase base not in TRACK or COAST; Z tells a result of 0. The end of a wait makes the bank ready with its result, 0
for the condition, 1 for the timeout, 2 for an abort; no other bank changes. -/
def Obligations.DoorbellsAndWaits : Prop :=
  (∀ (s : State) (h : Hdr) (b : Fin 8) (ra : Fin 32) (d : Word),
    Runs s h b [ra] → d.toNat < 32 →
    let due (k : CoreId) : Nat := s.chip.now + (if h.core = .triton then 1 else 1 + inputDelay k)
    ∃ t, exec (.sev h ra d) s = .next t ∧
      t = (s.bankStep h b id).after (fun c => { c with agenda := t.chip.agenda }) ∧
      ∀ (k : CoreId) (e : Fin 32), (due k, Ev.doorbell k e) ∈ t.chip.agenda ↔
        (due k, Ev.doorbell k e) ∈ s.chip.agenda ∨
        (e.val = d.toNat ∧ (s.bank h b).g[ra].getLsbD k.code = true ∧ corePlane k = corePlane h.core)) ∧
  (∀ (s : State) (h : Hdr) (b : Fin 8) (rd ra rb : Fin 32),
    Runs s h b [rd, ra, rb] →
    let x := s.bank h b
    let d := x.g[ra]
    let gives (r : Nat) : Prop := exec (.waitt h rd ra rb) s = .next (s.bankStep h b (fun y =>
      { y with g := y.g.set rd (BitVec.ofNat 32 r), st := y.st.withBit stZ (r == 0) }))
    let clean := d &&& 0xF8800000 = 0
    (¬ clean → gives 4) ∧
    (clean → d.getLsbD 26 = true → 0 ≤ (s.chip.capTime - x.g[rb]).toInt → gives 0) ∧
    (clean → d.getLsbD 26 = false → corePlane h.core ≠ .control → gives 3) ∧
    (clean → d.getLsbD 26 = false → corePlane h.core = .control → pbState s.chip (Fin.ofNat 8 (d.fld 20 3)) < 2 → gives 2)) ∧
  (∀ (s : State) (k : CoreId) (b : Fin 8) (rd : Fin 32) (d : Word) (at_ : Nat) (tmo : Option Nat),
    s.inRun → (k = .triton → lanesSame s.chip = true ∧ syncLane s.chip = none) → (bankGet s.chip k b).mode = .waiting → (bankGet s.chip k b).wait = some (.angle rd d at_ tmo) →
    let ends (r : Nat) : State := s.after (updBank k b (fun y => { y with mode := .ready, met := some r }))
    exec (.waittCondition k b false) s = .next (ends 0) ∧
    exec (.waittCondition k b true) s = .next (ends 2) ∧
    (tmo ≠ none → exec (.waittTimeout k b) s = .next (ends 1)) ∧
    (tmo = none → exec (.waittTimeout k b) s = .next s))

/-- 13 R308, R322, R323: a READY bank of higher priority preempts the running bank, which becomes READY, unless recognition is
deferred: by IE = 0, after a write of ST, or in a REPU pair that has begun; a pair will begin again at its prefix. CORE_LOCK is set
by a write of 1 at PRIV 1 and above; BANK_CTL.RESTART puts a bank above 0 in IDLE with counter 0 and an empty restart record; at
PRIV 0, and where the protection unit denies it (R320), the write raises vector 5. -/
def Obligations.BanksAndPrivateWrites : Prop :=
  (∀ (s : State) (k : CoreId) (b t : Fin 8),
    coreLive s.chip k = true → (k = .triton → s.chip.run = none ∧ lanesSame s.chip = true ∧ syncLane s.chip = none ∧ s.chip.tri = none) →
    (coreGet s.chip k).running = some b → (coreGet s.chip k).long = [] → (coreGet s.chip k).stalls = [] → (bankGet s.chip k b).mode = .running →
    (bankGet s.chip k t).mode = .ready → (∀ o : Fin 8, (bankGet s.chip k o).mode = .ready → o ≤ t) → b < t →
    ((bankGet s.chip k b).st.bit stIE = true → (coreGet s.chip k).afterSt = false →
      (∀ r, (bankGet s.chip k b).rep = some r → r.repu = false ∨ r.begun = false) →
      ∃ u, exec (.recognition k) s = .next u ∧ (coreGet u.chip k).running = some t ∧ (bankGet u.chip k t).mode = .running ∧
        (bankGet u.chip k b).mode = .ready ∧
        (bankGet u.chip k b).pc = (match (bankGet s.chip k b).rep with
          | some r => r.pre
          | none => (bankGet s.chip k b).pc) ∧
        (bankGet u.chip k b).g = (bankGet s.chip k b).g) ∧
    ((bankGet s.chip k b).st.bit stIE = false ∨ (coreGet s.chip k).afterSt = true ∨
      (∃ r, (bankGet s.chip k b).rep = some r ∧ r.repu = true ∧ r.begun = true) → exec (.recognition k) s = .next s)) ∧
  (∀ (s : State) (k : CoreId) (b o : Fin 8),
    coreLive s.chip k = true → (k = .triton → s.chip.run = none ∧ lanesSame s.chip = true ∧ syncLane s.chip = none) →
    (coreGet s.chip k).running = some b →
    let pr := privOf (bankGet s.chip k b).st
    (pr ≠ 0 → mpuOk s.chip k pr .write 0xE000000C = true →
      (∃ t, exec (.coreLock k 1) s = .next t ∧ t.chip.bit (lockR k) 0 = true ∧ t.chip.cores = s.chip.cores)) ∧
    (pr ≠ 0 → mpuOk s.chip k pr .write 0xE0000010 = true →
      (o ≠ 0 → o ≠ b → ∃ t, exec (.bankCtl k (BitVec.ofNat 32 (256 + o.val))) s = .next t ∧
        (bankGet t.chip k o).mode = .idle ∧ (bankGet t.chip k o).count = 0 ∧ (bankGet t.chip k o).restart = [] ∧
        (bankGet t.chip k o).g = (bankGet s.chip k o).g ∧ t.chip.regs = s.chip.regs)) ∧
    (pr = 0 ∨ mpuOk s.chip k pr .write 0xE000000C = false → recogDue s.chip k = false → ∀ v,
      let pc := bankPc (bankGet s.chip k b)
      exec (.coreLock k v) s = .next (s.after (raiseEx { k := k, b := b, pc := pc, nxt := pc } 5 (some 0xE000000C) 0))))

/-- 12 R294, 11 R253: the moves, FNEG, FABS and FKIND work on the bits of an f register and raise no flag; an arithmetic instruction
on normal binary32 operands whose exact result is a normal number delivers that number and raises no flag, in every rounding mode;
FCMP gives 1000, 0110 and 0010 for less, equal and greater, and conversions of values that fit are exact. 13 R311: a bank that does
not own the file starts its transfer first, of 33 or 17 cycles of CLK_C, at whose end it owns the file, with the words of its save
area. -/
def Obligations.FloatResults : Prop :=
  (∀ (s : State) (h : Hdr) (b : Fin 8) (fd fa rd ra : Fin 32),
    RunsFp s h b →
    let u := (coreGet s.chip h.core).f[fa]
    let putF (v : Word) (q : CoreS) : CoreS := { q with f := q.f.set fd v }
    let putG (v : Word) (q : CoreS) : CoreS := { q with banks := vmod q.banks b (fun y => { y with g := y.g.set rd v }) }
    let e := u.extractLsb' 23 8
    let m := u.extractLsb' 0 23
    let kind : Nat := if e = 0 then (if m = 0 then 0 else 1) else if e ≠ 255 then 2 else if m = 0 then 3 else
      if u.getLsbD 22 then 4 else 5
    IssuesFp s h b (.fneg h false fd fa) (putF (u ^^^ 0x80000000)) ∧
    IssuesFp s h b (.fabs h false fd fa) (putF (u &&& 0x7FFFFFFF)) ∧
    IssuesFp s h b (.fneg h true fd fa) (putF ((u &&& 0xFFFF) ^^^ 0x8000)) ∧
    IssuesFp s h b (.fabs h true fd fa) (putF (u &&& 0x7FFF)) ∧
    IssuesFp s h b (.fmovtg h rd fa) (putG u) ∧
    IssuesFp s h b (.fmovfg h fd ra) (putF (s.bank h b).g[ra]) ∧
    IssuesFp s h b (.fkind h rd fa) (putG (BitVec.ofNat 32 (kind + if u.getLsbD 31 then 8 else 0)))) ∧
  (∀ (s : State) (h : Hdr) (b : Fin 8) (fd fa fb : Fin 32) (r : Word),
    RunsFp s h b →
    let f := (coreGet s.chip h.core).f
    let val (x : Word) : Rat := fValue 8 23 x.toNat
    let put (q : CoreS) : CoreS := { q with f := q.f.set fd r }
    fNormal 8 23 f[fa].toNat → fNormal 8 23 f[fb].toNat → fNormal 8 23 r.toNat →
    (val r = val f[fa] + val f[fb] → IssuesFp s h b (.fadd h false fd fa fb) put) ∧
    (val r = val f[fa] - val f[fb] → IssuesFp s h b (.fsub h false fd fa fb) put) ∧
    (val r = val f[fa] * val f[fb] → IssuesFp s h b (.fmul h false fd fa fb) put) ∧
    (val r * val f[fb] = val f[fa] → IssuesFp s h b (.fdiv h false fd fa fb) put) ∧
    (r.getLsbD 31 = false → val r * val r = val f[fa] → IssuesFp s h b (.fsqrt h false fd fa) put) ∧
    (fNormal 8 23 f[fd].toNat → val r = val f[fd] + val f[fa] * val f[fb] → IssuesFp s h b (.fmac h false fd fa fb) put) ∧
    (r = (if val f[fa] ≤ val f[fb] then f[fa] else f[fb]) → IssuesFp s h b (.fmin h false fd fa fb) put) ∧
    (r = (if val f[fa] ≤ val f[fb] then f[fb] else f[fa]) → IssuesFp s h b (.fmax h false fd fa fb) put)) ∧
  (∀ (s : State) (h : Hdr) (b : Fin 8) (fd fa fb rd ra : Fin 32) (r : Word),
    RunsFp s h b →
    let f := (coreGet s.chip h.core).f
    let g := (s.bank h b).g
    let val (x : Word) : Rat := fValue 8 23 x.toNat
    let flags (n z c : Bool) (q : CoreS) : CoreS := { q with banks := vmod q.banks b (fun y => { y with st := nzcv y.st n z c false }) }
    let putF (q : CoreS) : CoreS := { q with f := q.f.set fd r }
    let putG (q : CoreS) : CoreS := { q with banks := vmod q.banks b (fun y => { y with g := y.g.set rd r }) }
    (fNormal 8 23 f[fa].toNat → fNormal 8 23 f[fb].toNat →
      (val f[fa] < val f[fb] → IssuesFp s h b (.fcmp h fa fb) (flags true false false)) ∧
      (f[fa] = f[fb] → IssuesFp s h b (.fcmp h fa fb) (flags false true true)) ∧
      (val f[fb] < val f[fa] → IssuesFp s h b (.fcmp h fa fb) (flags false false true))) ∧
    (fNormal 8 23 f[fa].toNat → (r.toInt : Rat) = val f[fa] → IssuesFp s h b (.ftoi h rd fa) putG) ∧
    (fNormal 8 23 f[fa].toNat → (r.toNat : Rat) = val f[fa] → IssuesFp s h b (.ftou h rd fa) putG) ∧
    (fNormal 8 23 r.toNat → val r = (g[ra].toInt : Rat) → IssuesFp s h b (.itof h fd ra) putF) ∧
    (fNormal 8 23 r.toNat → val r = (g[ra].toNat : Rat) → IssuesFp s h b (.utof h fd ra) putF) ∧
    (fNormal 8 23 f[fa].toNat → fNormal 5 10 r.toNat → fValue 5 10 r.toNat = val f[fa] → IssuesFp s h b (.fnarrow h fd fa) putF) ∧
    (fNormal 5 10 (f[fa].toNat % 65536) → fNormal 8 23 r.toNat → val r = fValue 5 10 (f[fa].toNat % 65536) →
      IssuesFp s h b (.fwiden h fd fa) putF)) ∧
  (∀ (s : State) (h : Hdr) (b : Fin 8) (fd fa : Fin 32),
    Runs s h b [] → h.core.isNKS = false → (s.bank h b).st.bit stFPA = false → recogDue s.chip h.core = false →
    let due := s.chip.now + (if (coreGet s.chip h.core).fpOwner.isSome then 32 else 16)
    let a := areaOf s.chip h.core b
    ∃ t, exec (.fneg h false fd fa) s = .next t ∧ t.bank h b = s.bank h b ∧ stalled t.chip h.core b = true ∧
      (coreGet t.chip h.core).f = (coreGet s.chip h.core).f ∧ t.chip.mem = s.chip.mem ∧
      (∀ n < due, stallEnd h.core { t.chip with now := n } = { t.chip with now := n }) ∧
      ((coreGet s.chip h.core).fpOwner = none → (coreGet s.chip h.core).stores = [] → a + 132 ≤ tcmSize h.core →
        (∀ i < 33, mpuOk s.chip h.core (privOf (s.bank h b).st) .read (a + 4 * i) = true ∧ eccErr s.chip (tcmKey h.core (a + 4 * i)) = none) →
        let u := coreGet (stallEnd h.core { t.chip with now := due }) h.core
        u.stalls = [] ∧ u.fpOwner = some b ∧ u.banks[b] = { s.bank h b with st := (s.bank h b).st.withBit stFPA true } ∧
        (∀ (i : Fin 32) (j : Fin 4), u.f[i].extractLsb' (8 * j.val) 8 = memByte s.chip (tcmKey h.core (a + 4 * i.val + j.val))) ∧
        u.fcsr = BitVec.ofNat 32 (memVal s.chip (tcmKey h.core (a + 128)) 4) &&& 0x001F1F0F))

/-! ### Phase bases, captures and the scheduler (02, 03) -/

/-- 02 R38, R41, R53, R56, R64: enabling a phase base enters ACQUIRE (TRACK for a TIME source without discipline) and keeps the
angle; disabling enters OFF, keeps the angle and cancels the slew; ACQ enters ACQUIRE again; PB_ANG sets the angle of a phase base
that is off; PB_SWANG hands an update over with the stamp that SWSTAMP selects; PB_SWVEL sets the velocity, which under forward-only
is held at 0 with the REVERSE fault. An update applied in the cycle before the command is discarded with PB_DISABLE, and the first
one accepted in ACQUIRE with ACQ. -/
def Obligations.PhaseBaseCommands : Prop := ∀ (s : State) (ini : Initiator) (p : Fin 8) (v : Word),
  s.inRun →
  let c := s.chip
  (c.grants ini (pbR p 0) true → c.sealed = false → v.fld 1 3 ≠ 7 →
    (v.bit 0 = true → pbEn c p = false → Goes (.pbEnable ini p v) s fun t =>
      t.chip.reg (pbR p 0) = v &&& 0xFFF ∧ pbState t.chip p = (if v.fld 1 3 = 0 ∧ discOn c p = false then 2 else 1) ∧
      t.chip.pbs[p].acc = c.pbs[p].acc ∧ t.chip.pbs[p].nAcc = 0 ∧ t.chip.pbs[p].pend = [] ∧ t.chip.pbs[p].tmoFrom = some c.now ∧
      RegsBut s t [pbR p 0, pbR p 8]) ∧
    (v.bit 0 = false → pbEn c p = true → Goes (.pbDisable ini p v) s fun t =>
      t.chip.reg (pbR p 0) = v &&& 0xFFF ∧ pbState t.chip p = 0 ∧ t.chip.bit (pbR p 8) 3 = false ∧
      t.chip.pbs[p].acc = c.pbs[p].acc ∧ t.chip.pbs[p].slew = none ∧ t.chip.pbs[p].pend = [] ∧
      (takenNow c p = [] → t.chip.pbs[p].jump = c.pbs[p].jump ∧ RegsBut s t [pbR p 0, pbR p 8]) ∧
      (∀ x xs, takenNow c p = x :: xs → t.chip.pbs[p].jump = x.jump ∧ t.chip.reg (pbR p 0x3C) = x.cnt ∧
        RegsBut s t [pbR p 0, pbR p 8, pbR p 0x14, pbR p 0x38, pbR p 0x3C]))) ∧
  (c.grants ini (pbR p 4) true → v.bit 0 = true → pbState c p ≠ 0 →
    (takenNow c p = [] → Goes (.acq ini p v) s fun t =>
      pbState t.chip p = 1 ∧ t.chip.pbs[p].nAcc = 0 ∧ t.chip.pbs[p].prevUpd = none ∧ t.chip.pbs[p].slew = none ∧
      t.chip.pbs[p].acc = c.pbs[p].acc ∧ RegsBut s t [pbR p 8]) ∧
    ∀ x, takenNow c p = [x] → pbFwd c p = false → 0 ≤ stampAge c x.u.t → stampAge c x.u.t ≤ 65535 → Goes (.acq ini p v) s fun t =>
      pbState t.chip p = (if pbSrc c p = 1 ∧ c.bit (pbR p 0x40) 6 = true ∧ x.u.isZ = true then 2 else 1) ∧
      t.chip.pbs[p].nAcc = 1 ∧ t.chip.reg (pbR p 0x3C) = x.cnt + 1 ∧ t.chip.pbs[p].slew = none ∧ t.chip.pbs[p].acc = c.pbs[p].acc) ∧
  (c.grants ini (pbR p 0x10) true → c.sealed = false → pbEn c p = false → Goes (.pbAng ini p v) s fun t =>
    t.chip.pbs[p].acc = v.setWidth 48 <<< 16 ∧ t.chip.regs = c.regs) ∧
  (c.grants ini (pbR p 0x74) true → pbEn c p = true → pbSrc c p = 6 → ∀ (n : Nat) (stamp : Word),
    (c.fld (pbR p 0) 6 2 = 0 ∨ c.fld (pbR p 0) 6 2 = 3 → stamp = c.capTime) →
    (c.fld (pbR p 0) 6 2 = 1 → stamp = c.reg (pbR p 0x70)) →
    (c.fld (pbR p 0) 6 2 = 2 → c.pbs[p].evcPulse = some n ∧ n ≠ c.now ∧ stamp = BitVec.ofNat 32 n) →
    Goes (.pbSwang ini p v) s fun t =>
      t.chip.pbs[p].pend = c.pbs[p].pend ++ [plainUpdate c.now 2 (BitVec.ofNat 36 (v.fld 0 20 * 2 ^ 16)) stamp] ∧
      t.chip.agenda = c.agenda ++ [(c.now + 2, .updateApply p)] ∧ t.chip.regs = c.regs) ∧
  (c.grants ini (pbR p 0x78) true → pbSrc c p = 6 → (pbFwd c p = true → 0 ≤ v.toInt) → Goes (.pbSwvel ini p v) s fun t =>
    t.chip.reg (pbR p 0x14) = v ∧ t.chip.pbs[p].acc = c.pbs[p].acc ∧ RegsBut s t [pbR p 0x14]) ∧
  (c.grants ini (pbR p 0x78) true → pbSrc c p = 6 → pbFwd c p = true → v.toInt < 0 → Goes (.pbSwvel ini p v) s fun t =>
    t.chip.reg (pbR p 0x14) = 0 ∧ t.chip.bit (pbR p 8) 11 = true ∧ t.chip.pbs[p].acc = c.pbs[p].acc)

/-- 02 R44, R47, R49 to R52: the encoder counts one step for a change of A or B, in the direction that PB_SENS selects, and rejects
a change of both; in the cycle that takes new levels nothing counts; Z gives the index angle, and a count of the same cycle none; a
Hall change to a neighbouring sector gives the boundary passed, and any other is an error. The strobe awaits its samples for 256
cycles; a pair in time whose amplitude is in range is an update 14 cycles later, and any other, or none in time, sets SIGERR; a
sample moves the grid observer's integrator (its step is open, log 12), whose angle is an update where the amplitude is in range;
the discipline pulse gives an update. -/
def Obligations.PhaseSources : Prop :=
  (∀ (s : State) (p : Fin 8) (a b : Bool) (st : BitVec 3) (i j : Nat),
    s.inRun → pbEn s.chip p = true →
    let c := s.chip
    let x := c.pbs[p]
    let step := (c.reg (pbR p 0x44)).setWidth 36
    let fwd := (quadIx a b == (quadIx x.encA x.encB + 1) % 4) != (pbSens c p).bit 7
    let update (t : State) (m : BitVec 36) : Prop := t.chip.pbs[p].pend.getLast?.map (·.m) = some m ∧
      t.chip.pbs[p].tmoFrom = some c.now ∧ t.chip.agenda = c.agenda ++ [(c.now + 2, .updateApply p)] ∧ RegsBut s t [pbR p 8]
    let neighbour : Prop := ∃ i j, hallIx c p st = some i ∧ hallIx c p x.hall = some j ∧ (i = (j + 1) % 6 ∨ j = (i + 1) % 6)
    (pbSrc c p = 1 → x.takeAt = some c.now → Goes (.encCount p a b) s fun t =>
      t.chip.pbs[p] = { x with encA := a, encB := b } ∧ t.chip.regs = c.regs) ∧
    (pbSrc c p = 1 → x.takeAt ≠ some c.now →
      ((x.encA == a) ≠ (x.encB == b) → (∀ u ∈ x.pend, u.isZ = true → u.seen ≠ c.now) → Goes (.encCount p a b) s fun t =>
        t.chip.pbs[p].encP = (if fwd then x.encP + step else x.encP - step) ∧ update t (if fwd then x.encP + step else x.encP)) ∧
      (x.encA ≠ a → x.encB ≠ b → Goes (.encCount p a b) s fun t =>
        t.chip.bit (pbR p 8) 14 = true ∧ t.chip.pbs[p].encP = x.encP ∧ t.chip.pbs[p].pend = x.pend ∧ RegsBut s t [pbR p 8]) ∧
      (c.bit (pbR p 0x40) 6 = true → Goes (.indexEdge p) s fun t =>
        t.chip.pbs[p].encP = BitVec.ofNat 36 (c.fld (pbR p 0x48) 0 20 * 2 ^ 16) ∧
        (∀ u ∈ t.chip.pbs[p].pend, u.seen = c.now → u.isZ = true) ∧
        update t (BitVec.ofNat 36 (c.fld (pbR p 0x48) 0 20 * 2 ^ 16)))) ∧
    (pbSrc c p = 2 → x.takeAt ≠ some c.now → st ≠ x.hall →
      (hallIx c p st = some i → hallIx c p x.hall = some j → i = (j + 1) % 6 → Goes (.hallChange p st) s fun t =>
        update t (hallB c p i)) ∧
      (hallIx c p st = some i → hallIx c p x.hall = some j → j = (i + 1) % 6 → Goes (.hallChange p st) s fun t =>
        update t (hallB c p (i + 1))) ∧
      (¬ neighbour → Goes (.hallChange p st) s fun t =>
        t.chip.bit (pbR p 8) 15 = true ∧ t.chip.pbs[p] = { x with hall := st } ∧ RegsBut s t [pbR p 8]))) ∧
  (∀ (s : State) (p : Fin 8) (sn cs x : BitVec 16) (t0 : Nat),
    s.inRun → pbEn s.chip p = true →
    let c := s.chip
    let b := c.pbs[p]
    let tracker := pbSrc c p = 3 ∨ pbSrc c p = 4
    let update (t : State) (m : BitVec 36) (st : Word) (d : Nat) : Prop :=
      t.chip.pbs[p].pend = b.pend ++ [plainUpdate c.now d m st] ∧
      (c.now + d, Ev.updateApply p) ∈ t.chip.agenda ∧ t.chip.regs = c.regs
    let bad (t : State) : Prop := t.chip.bit (pbR p 8) 12 = true ∧ t.chip.pbs[p].pend = b.pend ∧ RegsBut s t [pbR p 8]
    (tracker → Goes (.strobe p) s fun t => t.chip.pbs[p].strobeAt = some c.now ∧ t.chip.bit (pbR p 8) 17 = true ∧
      (c.now + 257, Ev.trackerTimeout p) ∈ t.chip.agenda ∧ RegsBut s t [pbR p 8]) ∧
    (tracker → b.strobeAt = some t0 → (c.now ≤ t0 ∨ t0 + 256 < c.now) → exec (.trackerSample p sn cs) s = .next s) ∧
    (tracker → b.strobeAt = some t0 → t0 < c.now → c.now ≤ t0 + 256 → Goes (.trackerSample p sn cs) s fun t => t.chip.pbs[p].strobeAt = none ∧
      if ampOk c p (sn.toInt * sn.toInt + cs.toInt * cs.toInt).toNat then
        update t (BitVec.ofNat 36 (trkAngle (c.fld (pbR p 0) 8 4 + 1) sn.toInt cs.toInt * 2 ^ 16))
          (BitVec.ofNat 32 (t0 + c.fld (pbR p 0x50) 24 8)) 14
      else bad t) ∧
    (b.strobeAt = some t0 → Goes (.trackerSampleTimeout p) s fun t => t.chip.pbs[p].strobeAt = none ∧ bad t) ∧
    (pbSrc c p = 5 → Goes (.gridSample p x) s fun t =>
      let o := Config.gridStep (c.reg (pbR p 0x14)) (c.now - b.gridAt) b.gridI b.gridQ x.toInt
      t.chip.pbs[p].gridI = o.1 ∧ t.chip.pbs[p].gridQ = o.2 ∧ t.chip.pbs[p].gridAt = c.now ∧
      if ampOk c p (o.1 * o.1 + o.2 * o.2).toNat then
        update t (BitVec.ofNat 36 (trkAngle 1 o.1 (-o.2) * 2 ^ 16)) (c.capTime - BitVec.ofNat 32 (c.fld (pbR p 0x50) 24 8)) 14
      else bad t) ∧
    (pbSrc c p = 0 → discOn c p = true → Goes (.disciplinePulse p) s fun t =>
      update t (BitVec.ofNat 36 (c.fld (pbR p 0x68) 0 20 * 2 ^ 16)) (c.capTime - BitVec.ofNat 32 (c.fld (pbR p 0x50) 24 8)) 2))

/-- 02 R36, R38, R39, R41, R44: an update accepted in ACQUIRE jumps the angle by its error and counts; the second, or the first Z of
an encoder with ZEN, enters TRACK; a stale stamp is refused; a finished slew ends; a timeout that runs stops an encoder or Hall
phase base, lets another coast from TRACK with the LOSS fault, and in ACQUIRE gives the fault alone, where no update falls due in
the cycle; one that is accepted in it goes first (R56); a revolution sets REVF. -/
def Obligations.UpdatesAndTimeouts : Prop := ∀ (s : State) (p : Fin 8) (u : PbUpdate) (rest : List PbUpdate) (sl : Slew) (back : Bool),
  s.inRun →
  let c := s.chip
  let b := c.pbs[p]
  let c1 := updMarks p u (updPb p (fun x => { x with pend := rest }) c)
  let age := stampAge c u.t
  (b.pend = u :: rest → u.due = c.now → pbState c p ≠ 0 →
    (pbState c p = 1 → pbFwd c p = false → 0 ≤ age → age ≤ 65535 → Goes (.updateApply p) s fun t =>
      t.chip.pbs[p].pend = rest ∧ t.chip.pbs[p].acc = b.acc ∧ t.chip.pbs[p].jump = b.jump + BitVec.ofInt 48 (updErr c1 p u) ∧
      t.chip.pbs[p].nAcc = b.nAcc + 1 ∧ t.chip.pbs[p].tmoFrom = some c.now ∧
      pbState t.chip p = (if (if pbSrc c p = 1 ∧ c.bit (pbR p 0x40) 6 = true then u.isZ else decide (1 ≤ b.nAcc)) then 2 else 1) ∧
      t.chip.reg (pbR p 0x3C) = c.reg (pbR p 0x3C) + 1 ∧ t.chip.bit (pbR p 8) 18 = true) ∧
    (age < 0 ∨ 65535 < age → Goes (.updateApply p) s fun t =>
      t.chip.pbs[p].pend = rest ∧ t.chip.pbs[p].acc = b.acc ∧ t.chip.pbs[p].jump = b.jump ∧ t.chip.pbs[p].nAcc = b.nAcc ∧
      t.chip.bit (pbR p 8) 13 = true ∧
      RegsBut s t [pbR p 8]) ∧
    (pbState c p = 2 → 0 ≤ age → age ≤ 65535 → c.fld (pbR p 0x2C) 0 20 ≠ 0 → (c.fld (pbR p 0x2C) 0 20 * 2 ^ 16 : Nat) < absI (updErr c1 p u) →
      Goes (.updateApply p) s fun t => t.chip.pbs[p].jump = b.jump ∧ t.chip.pbs[p].nAcc = b.nAcc ∧
        t.chip.pbs[p].jlims = b.jlims + 1 ∧ t.chip.reg (pbR p 0x3C) = c.reg (pbR p 0x3C)) ∧
    (rest = [] → pbState c p = 1 → 0 ≤ age → age ≤ 65535 → exec (.pbTimeout p) s = exec (.updateApply p) s)) ∧
  (b.slew = some sl → slewDone sl = true → Goes (.slewEnd p) s fun t =>
    t.chip.pbs[p].slew = none ∧ t.chip.bit (pbR p 8) 3 = false ∧ t.chip.pbs[p].acc = b.acc ∧ RegsBut s t [pbR p 8]) ∧
  (pbState c p ≠ 0 → tmoRuns c p = true → b.tmoFrom ≠ none → b.tmoFrom ≠ some c.now → (∀ w ∈ b.pend, w.due ≠ c.now) →
    (pbSrc c p = 1 ∨ pbSrc c p = 2 → Goes (.pbTimeout p) s fun t =>
      t.chip.reg (pbR p 0x14) = 0 ∧ t.chip.bit (pbR p 8) 4 = true ∧ t.chip.pbs[p].slew = none ∧ t.chip.pbs[p].acc = b.acc ∧
      t.chip.pbs[p].tmoFrom = none ∧ RegsBut s t [pbR p 8, pbR p 0x14]) ∧
    (pbSrc c p ≠ 1 → pbSrc c p ≠ 2 → pbState c p = 2 → Goes (.pbTimeout p) s fun t =>
      pbState t.chip p = 3 ∧ t.chip.bit (pbR p 8) 8 = true ∧ t.chip.pbs[p].slew = none ∧ t.chip.pbs[p].acc = b.acc) ∧
    (pbSrc c p ≠ 1 → pbSrc c p ≠ 2 → pbState c p = 1 → Goes (.pbTimeout p) s fun t =>
      pbState t.chip p = 1 ∧ t.chip.bit (pbR p 8) 8 = true ∧ t.chip.pbs[p] = { b with tmoFrom := none })) ∧
  ((∀ w ∈ b.pend, w.due ≠ c.now) → tmoRuns c p = false ∨ b.tmoFrom = none ∨ b.tmoFrom = some c.now → exec (.pbTimeout p) s = .next s) ∧
  (Goes (.revolution p back) s fun t => t.chip.bit (pbR p 8) 16 = true ∧ t.chip.pbs[p].prevRev = revOf c p ∧ RegsBut s t [pbR p 8])

/-- 02 R57 to R59: an edge that EDGE selects is noted (a pulse of source 0 is a rising edge and toggles the level), and as the cycle
ends its record is stored, with the time and the angle that STAMP selects; a full queue drops the newest or the oldest and sets its
overflow bit; a read of CAP_RDT returns the oldest record and removes it. CAP_CFG governs from the cycle after its write; the level
of source 0 starts from 0 where the channel has been enabled or its source changed, and not for a new selection. -/
def Obligations.CaptureRecords : Prop := ∀ (s : State) (ini : Initiator) (k : Fin 64) (rise : Bool) (r : CapRec) (rest : List CapRec),
  s.inRun →
  let c := s.chip
  let v := c.reg0 (capR k 0)
  let x := c.caps[k]
  let up := rise || v.fld 1 2 == 0
  let sel := v.fld 10 2 == 2 || (v.fld 10 2 == 0 && up) || (v.fld 10 2 == 1 && !up)
  let time : Word := if v.bit 12 then c.capTime - BitVec.ofNat 32 (v.fld 18 6) else 0
  let ang : Word := if v.bit 13 then angWord (thetaAge c (Fin.ofNat 8 (v.fld 14 3)) (v.fld 18 6)) else 0
  let record (ovf : Bool) : CapRec := { time := time, ang := ang, rise := rise, ovf := ovf }
  (v.bit 0 = true → x.takeAt ≠ some c.now → v.fld 12 2 ≠ 0 → Goes (.captureEdge k rise) s fun t =>
    t.chip.regs = c.regs ∧ t.chip.caps[k] = { x with level := if v.fld 1 2 = 0 then !x.level else x.level, edges := if sel then x.edges ++ [up] else x.edges }) ∧
  (x.clearAt = some c.now → (capTakeNow k c).caps[k].level = false) ∧ (x.clearAt ≠ some c.now → (capTakeNow k c).caps[k].level = x.level) ∧
  (x.edges = [rise] →
    let d := capLand k c
    d.caps[k].edges = [] ∧
    if x.q.length < 4 then d.caps[k].q = x.q ++ [record x.lost] ∧ d.caps[k].lost = false ∧ d.regs = c.regs
    else d.bit (capR k 4) 3 = true ∧ (∀ a, a ≠ capR k 4 → d.reg a = c.reg a) ∧
      if v.bit 17 then d.caps[k].q = x.q ∧ d.caps[k].lost = true else d.caps[k].q = x.q.drop 1 ++ [record true]) ∧
  (c.grants ini (capR k 8) false →
    (x.q = r :: rest → Goes (.capRdt ini k) s fun t =>
      t.chip.resp = { ok := true, data := [r.time] } ∧ t.chip.caps[k].q = rest ∧ t.chip.reg (capR k 0xC) = r.ang ∧
      t.chip.reg (capR k 0x10) = BitVec.ofNat 32 (1 + 2 * r.rise.toNat + 4 * r.ovf.toNat) ∧ RegsBut s t [capR k 0xC, capR k 0x10]) ∧
    (x.q = [] → Goes (.capRdt ini k) s fun t =>
      t.chip.resp = { ok := true, data := [0] } ∧ t.chip.reg (capR k 0xC) = 0 ∧ t.chip.reg (capR k 0x10) = 0 ∧
      RegsBut s t [capR k 0xC, capR k 0x10]))

/-- 03 R72 to R74: SCH_INS3 and SCH_REM put a request in line; the third port serves the request next in line, with its effect at
the cycle's end: an insertion links the action at a free handle, or answers its status; a removal frees the entry, tells of one that
fired in the cycle, or answers a mismatch. (The cycle's end is taken with no other action to be moved, and no held request of the
same kind and initiator behind.) -/
def Obligations.InsertionPort : Prop := ∀ (s : State) (ini : Initiator) (v : Word) (r : SchReq) (h : Nat) (c1 : Chip),
  s.inRun →
  let c := s.chip
  let ix := iniIx ini
  let q := portOf c ix
  let busy (rem : Bool) := c.sched.reqs.any (fun r => r.ini == ix && r.removal == rem)
  let land (rem : Bool) := if busy rem then none else some c.now
  let request (rem : Bool) (w : Word) : SchReq :=
    { land := land rem, ini := ix, removal := rem, w0 := q.w0, w1 := q.w1, w2 := q.w2, w3 := w }
  let e := entryAt c (r.w3.fld 0 17)
  (c.grants ini (schR 0xC) true → (c.sealed = false ∨ ini ≠ .mge) →
    exec (.schIns3 ini v) s = .next (s.after (fun c => { c.ack with sched := { c.sched with reqs := c.sched.reqs ++ [request false v] } }))) ∧
  (c.grants ini (schR 0x14) true → (c.sealed = false ∨ ini ≠ .mge) →
    exec (.schRem ini v) s = .next (s.after (fun c =>
      { c.ack with sched := { c.sched with reqs := c.sched.reqs ++ [request true (v &&& 0xFFFFF)] } }))) ∧
  (portReq c = some r → r.ini < 96 →
    (∀ x ∈ c.sched.reqs, x.land = none → x.ini = r.ini → x.removal ≠ r.removal) →
    let served (i : Instr) (p : Chip → Prop) : Prop := Goes i s fun t => t.chip = { c with sched := { c.sched with due := some r } } ∧
      (∀ x ∈ c.sched.moves, r.removal = true ∧ x.1 = r.w3.fld 0 17) →
        p (schServe t.chip) ∧ (schServe t.chip).sched.due = none ∧ (schServe t.chip).regs = c.regs
    (r.removal = false →
      (insStatus c r.w0 r.w1 r.w2 r.w3 ≠ 0 → served .insertionService fun d =>
        (portOf d r.ini).insRes = BitVec.ofNat 32 (2 ^ 27 + 2 ^ 28 * insStatus c r.w0 r.w1 r.w2 r.w3) ∧
        d.sched.entries = c.sched.entries ∧ d.sched.bins = c.sched.bins) ∧
      (insStatus c r.w0 r.w1 r.w2 r.w3 = 0 → takeFree c = some (h, c1) → served .insertionService fun d =>
        let a := entryAt d h
        (portOf d r.ini).insRes = BitVec.ofNat 32 (h + 2 ^ 17 * (entryAt c h).gen.toNat + 2 ^ 27) ∧
        a.inuse = true ∧ a.pos = r.w0.fld 0 20 ∧ a.pb.val = r.w0.fld 20 3 ∧ a.type = r.w0.fld 28 4 ∧ a.param = r.w1 ∧
        a.step = r.w2.fld 0 21 ∧ a.rn = r.w2.fld 21 5 ∧ a.k = r.w2.fld 26 5 ∧ a.target = r.w3.fld 0 12 ∧
        a.gen = (entryAt c h).gen ∧ h ∈ binList d a.pb (a.pos / 256))) ∧
    (r.removal = true →
      (linked c (r.w3.fld 0 17) = false ∨ e.gen.toNat ≠ r.w3.fld 17 3 → c.sched.moves = [] → served .removalService fun d =>
        (portOf d r.ini).remRes = 6 ∧ d.sched.entries = c.sched.entries) ∧
      (linked c (r.w3.fld 0 17) = true → e.gen.toNat = r.w3.fld 17 3 → served .removalService fun d =>
        (portOf d r.ini).remRes = (if c.sched.fired.contains (r.w3.fld 0 17) then 5 else 4) ∧
        (entryAt d (r.w3.fld 0 17)).inuse = false ∧ (entryAt d (r.w3.fld 0 17)).gen = e.gen + 1 ∧
        d.sched.freed = c.sched.freed ++ [r.w3.fld 0 17])))

/-- 03 R71, R76 to R78, R81 to R83: SCH_EN leads from OFF to WAIT, and written 0 to OFF at the cycle's end, the arm pulse to ARMED
with the window around the present angle, which is the one that the arming cycle leaves; RESUME from SUSPENDED to WAIT; the walkers
process a bin crossing, a load, which fires an action swept over before it, late, a re-insertion, a sweep and an eviction. -/
def Obligations.SchedulerWalk : Prop := ∀ (s : State) (ini : Initiator) (p : Fin 8) (v : Word) (m : Int) (rest : List SchItem) (h : Nat)
    (r : SchRec) (back : Bool),
  s.inRun →
  let c := s.chip
  let x := c.sched.pbs[p]
  let e := entryAt c h
  let walks := schState c p = 2 ∧ x.armedAt < c.now
  (c.grants ini (schP p 0) true → c.sealed = false → v.bit 0 = true → c.bit (schP p 0) 0 = false → schState c p = 0 →
    Goes (.schEn ini p v) s fun t => schState t.chip p = 1 ∧ t.chip.reg (schP p 0) = v &&& 0x1FF ∧
      RegsBut s t [schP p 0, schP p 8]) ∧
  (c.grants ini (schP p 0) true → c.sealed = false → v.bit 0 = false → c.bit (schP p 0) 0 = true →
    Goes (.schEn ini p v) s fun t => t.chip.sched.pbs[p].leave = some 0 ∧ t.chip.reg (schP p 0) = v &&& 0x1FF ∧
      RegsBut s t [schP p 0]) ∧
  (c.grants ini (schP p 4) true → v.bit 0 = true → schState c p = 3 → Goes (.resume ini p v) s fun t =>
    schState t.chip p = 1 ∧ t.chip.sched = c.sched ∧ RegsBut s t [schP p 8]) ∧
  (schState c p = 1 → c.bit (schP p 0) 0 = true → c.bit (schP p 0) 4 = true → 2 ≤ pbState c p → x.leave = none →
    Goes (.arm p) s fun t => schState t.chip p = 2 ∧ t.chip.sched.pbs[p].armedAt = c.now ∧
      t.chip.sched.pbs[p].centre = binOf (uangNow c p) ∧ RegsBut s t [schP p 8]) ∧
  (schState c p = 2 → x.armedAt = c.now → schState (schCross p c) p = 2 ∧ (schCross p c).sched.pbs[p].centre = binOf (uangNow c p)) ∧
  (walks → x.items = .cross (some m) :: rest → x.jumped = false → binOf (uangNow c p) = x.centre → (x.centre - x.last).natAbs ≤ 64 →
    Goes (.binCrossing p) s fun t => t.chip.sched.pbs[p].last = m ∧ t.chip.sched.pbs[p].items = rest ∧ t.chip.regs = c.regs) ∧
  (walks → x.items = .load h :: rest → recOf c p h = some r → r.resident = false → r.swept = none → nearCount c p < 64 →
    c.ecc.bad = [] → removing c h = false →
      ((∀ o ∈ x.owed, o.1 ≠ h) → Goes (.actionLoad p) s fun t =>
        (entryAt t.chip h).near = true ∧ (recOf t.chip p h).map (·.resident) = some true ∧ t.chip.sched.pbs[p].items = rest ∧
        t.chip.agenda = c.agenda ∧ t.chip.regs = c.regs) ∧
      (x.owed = [(h, back)] → e.catchSkip = false → Goes (.actionLoad p) s fun t => t.chip.sched.pbs[p].owed = [] ∧
        t.chip.agenda = c.agenda ++ [(c.now, .fire (Fin.ofNat 131072 h) 0 back true)] ∧ t.chip.regs = c.regs)) ∧
  (c.sched.moves = [(h, some back)] → linked c h = true → e.pb = p → schState c p ≠ 2 → x.items = [] →
    Goes (.reinsertion p) s fun t =>
      let pos := (if back then e.pos + 2 ^ 20 - e.step % 2 ^ 20 else e.pos + e.step) % 2 ^ 20
      (entryAt t.chip h).pos = pos ∧ (entryAt t.chip h).inuse = true ∧ h ∈ binList t.chip p (pos / 256) ∧
      t.chip.sched.moves = [] ∧ t.chip.regs = c.regs) ∧
  (walks → x.items = .sweepBin m :: rest → Goes (.sweep p) s fun t =>
    t.chip.sched.pbs[p].last = m ∧ t.chip.sched.entries = c.sched.entries ∧ t.chip.regs = c.regs ∧
    t.chip.sched.pbs[p].items = (binList c p (bin4096 m)).map .sweepAct ++ rest) ∧
  (walks → x.items = .evict h (some back) :: rest → c.ecc.bad = [] → linked c h = true → removing c h = false → e.catchSkip = false →
    Goes (.eviction p) s fun t => t.chip.sched.pbs[p].items = rest ∧
      t.chip.agenda = c.agenda ++ [(c.now, .fire (Fin.ofNat 131072 h) 0 back true)] ∧ t.chip.regs = c.regs)

/-- 03 R68 to R71: a resident action of an ARMED scheduler whose crossing qualifies fires and is moved at the end of the cycle; each
type has its effect: ADC_START in 2 cycles, an edge of the PWM channel, a commit in 2 cycles, an event of source 384 + TARGET in 1,
a GPIO output set, cleared or toggled in 3 (6 ns), a DMA trigger and a bank activation in 1 cycle, a Pea write in 2. -/
def Obligations.ScheduledActions : Prop := ∀ (s : State) (hd : Fin 131072) (phi : Fin 32) (back : Bool),
  let c := s.chip
  let e := entryAt c hd
  let rev := (c.sched.pbs[e.pb].uang + (if back then 0 else max (travel c e.pb) 0)) / 2 ^ 36
  s.inRun → e.inuse = true → e.near = true → schState c e.pb = 2 → qualifies e back rev = true →
  let fires (ty : Nat) (i : Instr) (p : Chip → Prop) : Prop := e.type = ty → Goes i s fun t =>
    hd.val ∈ t.chip.sched.fired ∧ (hd.val, if e.step = 0 then none else some back) ∈ t.chip.sched.moves ∧
    t.chip.sched.pbs = c.sched.pbs ∧ p t.chip
  let due (n : Nat) (x : Ev) (d : Chip) : Prop := d.agenda = c.agenda ++ [(c.now + n, x)] ∧ d.regs = c.regs ∧ d.pwms = c.pwms
  let pin := e.target % 1024
  let out (how : Fin 8) (b : Bool) (d : Chip) : Prop := due 3 (.gpioEdge (Fin.ofNat 1024 e.target) how phi) d ∧
    (gpioAct pin how.val c).bit (gpioWord 0 pin) (pin % 32) = b ∧ ∀ a, a ≠ gpioWord 0 pin → (gpioAct pin how.val c).reg a = c.reg a
  fires 0 (.nopAction hd phi back) (fun d => d.regs = c.regs ∧ d.agenda = c.agenda ∧ d.pwms = c.pwms) ∧
  fires 1 (.adcStart hd phi back) (due 2 (.schAdc (Fin.ofNat 32 e.target) (Fin.ofNat 32 (e.param.fld 0 5)))) ∧
  (∀ n : Fin 96, e.target = n.val → fires 2 (.pwmEdge hd phi back) (fun d =>
    d.pwms = (forcedEdge n (e.param.bit 0) (e.param.fld 1 2) (c.instant phi) c).pwms)) ∧
  (∀ n : Fin 96, e.target = n.val → fires 3 (.pwmCommit hd phi back) (due 2 (.schCommit n))) ∧
  fires 4 (.emit hd phi back) (due 1 (.srcPulse (Fin.ofNat 512 (384 + e.target % 64)))) ∧
  fires 5 (.gpioSet hd phi back) (out 5 true) ∧
  fires 6 (.gpioClr hd phi back) (out 6 false) ∧
  fires 7 (.gpioTog hd phi back) (out 7 (!c.bit (gpioWord 0 pin) (pin % 32))) ∧
  (c.bit (dmaC 1 (e.target % 32) 0) 1 = true → fires 8 (.dmaStart hd phi back) (due 1 (.dmaTrigger 1 (Fin.ofNat 32 e.target)))) ∧
  fires 9 (.wake hd phi back) (due 1 (.schWake (Fin.ofNat 32 e.target) (Fin.ofNat 8 (e.target / 256)))) ∧
  fires 10 (.peaWrite hd phi back) (due 2 (.schPea (Fin.ofNat 512 e.target) e.param hd))

/-! ### PWM, conversion and windows (04 to 07) -/

/-- 04 R100, R113, R114, R117, 05 R119 to R123, R127, R128, R135 to R137: the writes of a channel's registers before SEAL. EN and
its neighbours govern from the next cycle, at whose start the counter starts or holds and the outputs fall; a change of COMP waits
there for the levels that the events of the instant leave; the crossbar and safe levels are copied at the next cycle's end. A shadow
write, CLOSE, FLUSH and push enter the commit stages at the end of their cycle (here each the only one of it, with no IMMEDIATE
point and no change of COH): the shadow, counted as written; all shadows to the hold stage; the queue emptied, or longer by the
writer's staging words, of which a ninth is discarded with SETQ_OVF. TRIPCLR then clears the latch when no selected input is active.
-/
def Obligations.PwmCommands : Prop := ∀ (s : State) (ini : Initiator) (n : Fin 96) (pos : Fin 192) (k : Fin 8) (v : Word),
  s.inRun →
  let c := s.chip
  let p := c.pwms[n]
  let cfg := c.reg (pwmR n 0)
  let open_ (off : Nat) : Prop := c.grants ini (pwmR n off) true
  let sets (i : Instr) (a : Nat) (w : Word) : Prop := Goes i s fun t => t.chip.reg a = w ∧ RegsBut s t [a] ∧ t.chip.pwms = c.pwms
  let puts (i : Instr) (ws : List SetWrite) : Prop := Goes i s fun t => t.chip.regs = c.regs ∧
    t.chip.pwms[n] = { p with writes := p.writes ++ ws }
  let staged : Vector Word 8 := Vector.ofFn fun j : Fin 8 => cmtVal j (stagingOf c n (iniIx ini))[j]
  let ends (w : SetWrite) (f : PwmSet → Chip → Prop) : Prop :=
    p.writes = [w] → cmtPoint c n ≠ 3 → cmtCoh c n = c.bit (pwmR n 0x80) 3 →
      (setEnd n c).pwms[n].writes = [] ∧ f (setEnd n c).pwms[n].cur (setEnd n c)
  (open_ 0 → c.sealed = false → v.fld 1 2 ≠ 3 →
    (v.bit 0 = true → cfg.bit 0 = false → pwmRun c n = false →
      sets (.pwmEnable ini n v) (pwmR n 0) ((v &&& 0xFFF7).withBit 3 (v.bit 4))) ∧
    (v.bit 0 = false → sets (.pwmDisable ini n v) (pwmR n 0) ((cfg.withBit 0 false).withBit 4 (v.bit 4)))) ∧
  (let d := pwmTurn n c
   (pwmRun c n = true → p.ran = false → d.pwms[n].ran = true ∧ d.pwms[n].t0 = 32 * c.now ∧ d.pwms[n].angle = cfg.bit 3 ∧
      (cfg.bit 3 = true → d.reg (pwmR n 0x4C) = angWord (accPrev c (pwmPb c n)))) ∧
   (pwmRun c n = false → p.ran = true → d.pwms[n].ran = false ∧ d.pwms[n].outA.lvl = false ∧ d.pwms[n].outB.lvl = false ∧
      pwmPos d n = (if p.angle then p.v0 * 2 ^ 11 + p.sub else timePos c n) ∧ d.regs = c.regs)) ∧
  (open_ 0x38 → Goes (.pwmIps ini n v) s fun t => t.chip.reg (pwmR n 0x38) = v &&& 0xFFFFFF ∧
    RegsBut s t [pwmR n 0x38, pwmR n 0x3C] ∧ ∀ j : Fin 6,
      (p.ipsNow[j] = 0 → t.chip.pwms[n].ips[j] = 0) ∧
      (p.ipsNow[j] = 1 → v.fld (4 * j.val) 4 = 0 → t.chip.pwms[n].ips[j] = 0 ∧ t.chip.bit (pwmR n 0x3C) j.val = true) ∧
      (p.ipsNow[j] = 1 → v.fld (4 * j.val) 4 ≠ 0 → t.chip.pwms[n].ips[j] = 1)) ∧
  (c.grants ini (xbarR pos) true → c.sealed = false → sets (.pwmXbar ini pos v) (xbarR pos) (v &&& 0xFF) ∧
    Goes (.pwmXbar ini pos v) s fun t => t.chip.pins = { c.pins with copyDue := c.pins.copyDue ++ [c.now] }) ∧
  (open_ 0x9C → c.sealed = false → sets (.pwmSafe ini n v) (pwmR n 0x9C) (v &&& 0xF) ∧
    Goes (.pwmSafe ini n v) s fun t => t.chip.pins = { c.pins with copyDue := c.pins.copyDue ++ [c.now] }) ∧
  (∀ t ∈ c.pins.copyDue, t < c.now → copyHeld c pos = false → (copyCycle c).outs[pos].copy = copyOf c pos) ∧
  ((∀ t ∈ c.pins.copyDue, c.now ≤ t) → copyCycle c = c) ∧
  (pwmRun c n = true → p.ran = true → pwmComp c n ≠ p.comp → (pwmTurn n c).pwms[n].compDue = true ∧ (pwmTurn n c).pwms[n].outA = p.outA ∧
    (pwmTurn n c).pwms[n].outB = p.outB ∧ (pwmTurn n c).regs = c.regs) ∧
  (open_ 0x80 → c.sealed = false → v.fld 0 3 < 6 → (v.bit 8 = true → v.fld 0 3 ≠ 3 ∧ v.fld 0 3 ≠ 5) →
    sets (.pwmCmtcfg ini n v) (pwmR n 0x80) (v &&& 0x1FF)) ∧
  (open_ (0x104 + 4 * k.val) →
    (pwmRun c n = false → Goes (.shadowWrite ini n k v) s fun t => t.chip.reg (activeR n k) = cmtVal k v ∧
      RegsBut s t [activeR n k] ∧ t.chip.pwms[n] = { p with writes := p.writes ++ [.shadow k (cmtVal k v)] }) ∧
    (pwmRun c n = true → puts (.shadowWrite ini n k v) (SetWrite.shadow k (cmtVal k v) ::
      (if cmtCloser c n = k.val + 1 ∧ cmtCoh c n = true ∧ cmtSqen c n = false then [.close] else [])))) ∧
  (open_ 0x84 → v.bit 0 = true → v.bit 1 = false → cmtCoh c n = true → cmtSqen c n = false → puts (.close ini n v) [.close]) ∧
  (open_ 0x84 → v.bit 0 = false → v.bit 1 = true → puts (.flush ini n v) [.flush]) ∧
  (open_ 0xC0 → v.bit 0 = true → puts (.sqpush ini n v) [.push (iniIx ini) staged]) ∧
  (∀ x, ends (.shadow k x) fun q d => q.shadow = p.cur.shadow.set k x ∧ q.hold = p.cur.hold ∧ q.setq = p.cur.setq ∧
    (pwmRun c n = true → q.written.getLsbD k.val = true ∧ (cmtCoh c n = true → cmtSqen c n = false → q.isOpen = true) ∧
      (committedNow c n = true → d.bit (pwmR n 0x88) 9 = true))) ∧
  (ends .close fun q d => q.hold = p.cur.shadow ∧ q.held = true ∧ q.isOpen = false ∧ q.shadow = p.cur.shadow ∧
    (pwmRun c n = true → committedNow c n = true → d.bit (pwmR n 0x88) 9 = true)) ∧
  (ends .flush fun q d => q = { p.cur with setq := [] } ∧ d.regs = c.regs) ∧
  (∀ (ix : Nat) (x : Vector Word 8), ends (.push ix x) fun q d =>
    if p.cur.setq.length < 8 then q = { p.cur with setq := p.cur.setq ++ [x] } ∧ d.regs = c.regs ∧
      aread 0 d.pwms[n].sqres ix = BitVec.ofNat 32 (4 + 16 * (p.cur.setq.length + 1))
    else q = p.cur ∧ d.bit (pwmR n 0x88) 11 = true) ∧
  (open_ 0x98 → v.bit 0 = true → Goes (.tripclr ini n v) s fun t => t.chip.regs = c.regs ∧
    t.chip.pwms[n] = { p with clrDue := true }) ∧
  (p.clrDue = true → (tripHits c n = false → (tripEnd n c).bit (pwmR n 0x88) 14 = false) ∧
    (tripHits c n = true → (tripEnd n c).regs = c.regs))

/-- 04 R95, R96, R104, R105, R108, R109, R111, R113: what the counter's events do: ZRO and PRD start the next segment, a compare
event happens once in its segment, each counts its interrupt through the prescaler; a rise that falls due raises its output, a held
output falls at the end of its minimum pulse unless its next pulse has started; sync loads the counter with the whole sum modulo
PER, and the watchdog's deadline reports and is followed by the next; a delay line is replaced in a quiet cycle. -/
def Obligations.PwmEvents : Prop := ∀ (s : State) (n : Fin 96) (x : Fin 4) (down outB chain quiet : Bool) (phi : Fin 32) (pos : Fin 192),
  s.inRun →
  let c := s.chip
  let p := c.pwms[n]
  let T := 32 * c.now + phi.val
  let o := getOut c n outB
  let other := getOut c n (!outB)
  let comp := pwmComp c n
  let counts (i : Fin 6) (t : State) : Prop :=
    if c.fld (pwmR n 0x38) (4 * i.val) 4 ≤ p.ips[i] then t.chip.pwms[n].ips[i] = 0 ∧ t.chip.bit (pwmR n 0x3C) i.val = true
    else t.chip.pwms[n].ips[i] = p.ips[i] + 1
  let segment (v : Nat) (dn : Bool) (t : State) : Prop :=
    t.chip.pwms[n].t0 = T ∧ t.chip.pwms[n].v0 = v ∧ t.chip.pwms[n].down = dn ∧ t.chip.pwms[n].occ = []
  (pwmRun c n = true →
    (Goes (.zro n phi) s fun t => counts 0 t ∧
      segment (if pwmMode c n = 1 then pwmPer t.chip n else 0) (pwmMode c n == 1) t) ∧
    (pwmMode c n < 3 → Goes (.prd n phi) s fun t => counts 1 t ∧
      segment (if pwmMode c n = 0 then 0 else if pwmMode c n = 1 then pwmPer t.chip n else pwmPer c n) (pwmMode c n != 0) t) ∧
    (Goes (.compareEvent n x down phi) s fun t => counts (Fin.ofNat 6 (2 + x.val)) t ∧ x.val ∈ t.chip.pwms[n].occ ∧
      t.chip.pwms[n].t0 = p.t0 ∧ t.chip.pwms[n].v0 = p.v0)) ∧
  (∀ r : Rise, o.rises.filter (fun x => x.due == T) = [r] → r.fall = none → o.drv = true → o.lvl = false →
    (comp = true → other.lvl = false ∧ bandEnd other (deadBand c n outB) ≤ T) →
    (∀ f, fallFrom c n outB comp (cfgNow c n).2.1 (cfgNow c n).2.2.1 (comingFrom c n 4) p.levA p.levB = some f →
      T < f ∧ T + pwmMinp c n ≤ f) → Goes (.deadBandEnd n outB phi) s fun t =>
    (getOut t.chip n outB).lvl = true ∧ (getOut t.chip n outB).start = T ∧ ∀ x ∈ (getOut t.chip n outB).rises, x.due ≠ T) ∧
  ((∀ r ∈ o.rises, r.due ≠ T) → exec (.deadBandEnd n outB phi) s = .next s) ∧
  (o.hold = some T → Goes (.minimumPulseEnd n outB phi) s fun t => (getOut t.chip n outB).hold = none ∧
    if o.drv && o.waiting.isEmpty && o.rises.all (fun r => decide (r.due ≤ T)) then (getOut t.chip n outB).lvl = o.lvl ∧ t.chip.regs = c.regs
    else (getOut t.chip n outB).lvl = false ∧ (getOut t.chip n outB).lastFall = some T) ∧
  (pwmRun c n = true → c.bit (pwmR n 0x44) 0 = true → c.bit (pwmR n 0x44) 1 = chain → Goes (.sync n chain) s fun t =>
    t.chip.pwms[n].syncLoad = some ((c.reg (pwmR n 0x48)).toNat + (if chain then 32 * c.fld (pwmR n 0x44) 21 11 else 0),
      c.bit (pwmR n 0x44) 20) ∧ t.chip.regs = c.regs) ∧
  (∀ (l : Nat) (dn : Bool), l % pwmPer c n ≠ 0 → (syncLoadNow n l dn c).pwms[n].v0 = l % pwmPer c n ∧
    (syncLoadNow n l dn c).pwms[n].t0 = 32 * c.now ∧ (syncLoadNow n l dn c).pwms[n].sub = 0 ∧
    (syncLoadNow n l dn c).pwms[n].down = (if pwmMode c n = 2 then dn else pwmMode c n == 1)) ∧
  (c.bit (pwmR n 0x44) 2 = true →
    (c.bit (pwmR n 0x44) 1 = true → Goes (.syncDeadline n) s fun t => t.chip.pwms[n].wd = none ∧
      t.chip.bit (pwmR n 0x3C) 9 = true ∧ RegsBut s t [pwmR n 0x3C]) ∧
    (c.bit (pwmR n 0x44) 1 = false → Goes (.syncDeadline n) s fun t => t.chip.bit (pwmR n 0x44) 1 = true ∧
      t.chip.bit (pwmR n 0x3C) 8 = true ∧ RegsBut s t [pwmR n 0x3C, pwmR n 0x44] ∧
      t.chip.pwms[n].wd = some (((wdSpan c n : Nat) : Rat) + min (p.wd.getD 0) 0))) ∧
  (Goes (.delayLineReplace pos quiet) s fun t => t.chip.outs[pos].calDue = c.outs[pos].calDue + 500000 ∧
    if quiet then t.chip.outs[pos].line = (!c.outs[pos].line) ∧ t.chip.regs = c.regs
    else t.chip.outs[pos].line = c.outs[pos].line ∧ (c.fld (xbarR pos) 0 8 < 192 →
      t.chip.bit (pwmR (c.fld (xbarR pos) 0 8 / 2) 0x3C) 10 = true))

/-- 05 R132 to R140, 18 R434: an active trip input is seen, and from the next cycle overrides the channels that select it, latched
where they do not release by themselves; a halted owner puts its slices in safe state unless HALTOVR is set, their channels from the
next cycle, and they lose that cause when none is halted. -/
def Obligations.TripsAndHalt : Prop := ∀ (s : State) (sl : Fin 12) (i j : Fin 8) (k : CoreId),
  s.inRun →
  let c := s.chip
  let n : Fin 96 := ⟨8 * sl.val + j.val, by omega⟩
  (Goes (.tripInputActive sl i) s fun t => t.chip.bit (tripstatR sl) (8 + i.val) = true ∧ RegsBut s t [tripstatR sl] ∧
    t.chip.pwms = c.pwms ∧ (c.bit (pwmR n 0x94) i.val = true → tripHits t.chip n = true ∧
      (tripEnd n t.chip).pwms[n].tripDue = true)) ∧
  (c.pwms[n].tripDue = true →
    (tripStart n c).pwms[n].tripOver = true ∧ (tripStart n c).pwms[n].tripDue = false ∧
    (c.pwms[n].tripOver = false → (tripStart n c).bit (pwmR n 0x88) 13 = true) ∧
    (c.bit (pwmR n 0x94) 12 = false → (tripStart n c).bit (pwmR n 0x88) 14 = true)) ∧
  (dbgRun c = true → (k = .triton → lanesSame c = true ∧ syncLane c = none) →
    (Goes (.halt k) s fun t => (coreGet t.chip k).halted = true ∧ (coreGet t.chip k).banks = (coreGet c k).banks ∧
      (k ∈ slowners c sl → c.bit (safecfgR sl) 7 = false → causeOn t.chip sl causeHalt = true ∧
        (safestat t.chip sl).bit causeHalt = true ∧ (safeTurn n t.chip).pwms[n].safe = true)) ∧
    (Goes (.debugResume k) s fun t => (coreGet t.chip k).halted = false ∧ (coreGet t.chip k).banks = (coreGet c k).banks ∧
      ((∀ o ∈ slowners c sl, o ≠ k → (coreGet c o).halted = false) → causeOn t.chip sl causeHalt = false))) ∧
  (dbgRun c = false → exec (.halt k) s = .next s ∧ exec (.debugResume k) s = .next s)

/-- 06 R147 to R160: starts enter the queue of a ready core; the sample instant holds the input and takes the stamp (here with no
error in a word that a lane's freeze reads); a conversion ends in one corrected record, which its destinations take as the cycle
ends; a write that sets EN leads to READY after 1,000 cycles, and EN written 0 to rest as its cycle ends; a read pops the queue for
the consumer that QCON names (a loop engine of the slice by its sample port, any other initiator the registers) or returns a result
register, and keeps the high word for its initiator. -/
def Obligations.AdcResults : Prop := ∀ (s : State) (ini : Initiator) (k : Fin 32) (tr : Fin 2) (j : Fin 8) (v : Word) (x : AdcConv)
    (r : BitVec 64) (rest : List (BitVec 64)),
  s.inRun →
  let c := s.chip
  let a := c.adcs[k]
  let starts (i : Instr) (entry src : Nat) : Prop :=
    (adcRdy c k = true → a.pending.length < 4 → (∀ p ∈ a.pending, p.at_ ≠ c.now) → Goes i s fun t =>
      t.chip.adcs[k].pending = a.pending ++ [⟨entry, src, c.now⟩] ∧ t.chip.regs = c.regs) ∧
    (adcRdy c k = false → Goes i s fun t => t.chip.adcs = c.adcs ∧ t.chip.bit (adcR k 4) 13 = true ∧ RegsBut s t [adcR k 4])
  let first := x.left = 2 ^ min (x.seq.fld 20 3) 4
  let id := x.seq.fld 0 8
  let m := min (x.seq.fld 20 3) 4
  let raw := if m = 0 then x.code else (x.sum + x.code + 2 ^ m / 2) / 2 ^ m
  let y := adcCorrect c k id raw
  let rec_ := mkRecord y.1 id y.2.1 (adcLast x) y.2.2 x.tsel x.src x.stamp
  let pops (i : Instr) (q : List (BitVec 64)) (rec_ : BitVec 64) : Prop := Goes i s fun t =>
    t.chip.resp = { ok := true, data := [rec_.setWidth 32] } ∧ t.chip.adcs[k].q = q ∧
    aread 0 t.chip.adcs[k].hold (iniIx ini) = rec_.extractLsb' 32 32 ∧ t.chip.regs = c.regs
  (c.bit (adcR k 0xC) (16 + tr.val) = true → starts (.adcTrigger k tr) (c.fld (adcR k 0xC) (8 * tr.val) 5) tr.val) ∧
  (c.grants ini (adcR k 0x10) true → v.bit 8 = true → starts (.adcSwstart ini k v) (v.fld 0 5) 3) ∧
  (a.cur = some x → x.held = false → c.ecc.bad = [] → Goes (.sampleInstant k) s fun t =>
    (t.chip.adcs[k].cur.map (·.held)) = some true ∧ (t.chip.adcs[k].cur.map (·.endAt)) = some (c.now + 15) ∧
    (first → (t.chip.adcs[k].cur.map (·.stamp)) =
      some (if c.bit (adcR k 0) 2 then c.capTime else angWord (accEnd c (Fin.ofNat 8 (c.fld (adcR k 0) 3 3))))) ∧
    t.chip.adcs[k].q = a.q ∧ RegsBut s t [xlR (k.val / 2) 0x24]) ∧
  (a.done = some x → Goes (.conversionComplete k) s fun t =>
    t.chip.adcs[k] = { a with done := none, stores := a.stores ++ [(x.seq, rec_)] } ∧
    (c.now + 1, Ev.adcTap k (rec_.setWidth 32)) ∈ t.chip.agenda ∧ RegsBut s t [adcR k 4]) ∧
  (a.q.length < 64 → a.lost = false → let d := adcLand k (x.seq, rec_) c
    d.adcs[k].q = (if x.seq.bit 23 then a.q ++ [rec_] else a.q) ∧
    (∀ i : Fin 8, d.adcs[k].res[i] = if x.seq.bit 24 ∧ x.seq.fld 25 3 = i.val then rec_ else a.res[i]) ∧
    (∀ b, b ≠ adcR k 4 → d.reg b = c.reg b)) ∧
  (c.grants ini (adcR k 0) true → c.sealed = false →
    (v.bit 0 = true → Goes (.adcEnable ini k v) s fun t => t.chip.reg (adcR k 0) = v &&& 0x7FFF ∧ RegsBut s t [adcR k 0] ∧
      t.chip.adcs[k] = (if adcRdy c k = false ∧ a.readyAt = none then { a with readyAt := some (c.now + 1000) } else a)) ∧
    (v.bit 0 = false → Goes (.adcDisable ini k v) s fun t => t.chip.reg (adcR k 0) = v &&& 0x7FFF ∧ RegsBut s t [adcR k 0] ∧
      t.chip.adcs[k] = a)) ∧
  (adcEn c k = false → adcRdy c k = true ∨ a.readyAt ≠ none → a.stores = [] → let d := adcEnd k c
    adcRdy d k = false ∧ d.adcs[k].readyAt = none ∧ d.adcs[k].cur = none ∧ d.adcs[k].pending = [] ∧ d.adcs[k].q = a.q) ∧
  (adcEn c k = true → a.readyAt = some c.now → adcRdy (adcTurn k c) k = true) ∧
  (adcEn c k = true → a.readyAt ≠ none → Goes (.adcReady k) s fun t => adcRdy t.chip k = true ∧ t.chip.adcs[k].readyAt = none ∧
    RegsBut s t [adcR k 4]) ∧
  (c.grants ini (adcR k 0x18) false →
    (a.q = r :: rest → if adcQcon c k = adcWho k ini then pops (.adcQpopl ini k) rest r else pops (.adcQpopl ini k) a.q emptyRec) ∧
    (a.q = [] → pops (.adcQpopl ini k) [] emptyRec)) ∧
  (c.grants ini (adcR k (0x80 + 4 * j.val)) false → pops (.adcResl ini k j) a.q a.res[j])

/-- 06 R162 to R166, R169: the bit that completes an output gives one record, stored as the cycle ends; a fast path that is not
settled leaves both outputs inactive; sync restarts the main path, which a bit of its own cycle passes by; a settled fast path
compares its sum with the thresholds; a lost clock or a stuck stream is shown and governs the threshold outputs until it ends. -/
def Obligations.SdmResults : Prop := ∀ (s : State) (ini : Initiator) (k : Fin 32) (g : Fin 8) (b : Bool) (r : BitVec 64)
    (rest : List (BitVec 64)),
  s.inRun →
  let c := s.chip
  let x := c.sdms[k]
  let a3 := x.i3 + (x.i2 + (x.i1 + if b then 1 else -1))
  let sum := a3 - x.p0 - x.p1 - x.p2
  let res := max (-32768) (min (sum / 2 ^ c.fld (sdmR k 0) 11 5) 32767)
  let sound := sdmLost c k = false ∧ x.sync = false ∧ c.fld (sdmR k 4) 8 8 = 0
  let bits := (b :: x.fbits).take 64
  let above (l : List Bool) := decide (c.fld (sdmR k 8) 0 11 < sdmF (sdmFosr c k) l)
  let below (l : List Bool) := decide (sdmF (sdmFosr c k) l < c.fld (sdmR k 8) 16 11)
  let loses (i : Instr) (bitNo : Nat) : Prop := Goes i s fun t => t.chip.bit (sdmR k 0xC) bitNo = true ∧
    (sdmFen c k = true → c.bit (sdmR k 4) 6 = true → t.chip.sdms[k].th1 = true ∧ t.chip.sdms[k].th2 = true) ∧
    t.chip.sdms[k].q = x.q ∧ RegsBut s t [sdmR k 0xC]
  (sdmEn c k = true → sound →
    (sdmOsr c k ≤ x.n + 1 → x.disc = 0 → Goes (.sdmOutput k [b]) s fun t => t.chip.sdms[k].n = 0 ∧ t.chip.sdms[k].q = x.q ∧
      t.chip.sdms[k].stores = x.stores ++ [(res, res != sum / 2 ^ c.fld (sdmR k 0) 11 5)]) ∧
    (sdmFen c k = true → x.fcnt + 1 < 2 * sdmFosr c k → Goes (.fastPathThreshold k [b]) s fun t =>
      t.chip.sdms[k].th1 = false ∧ t.chip.sdms[k].th2 = false ∧ t.chip.bit (sdmR k 0xC) 0 = false) ∧
    (sdmFen c k = true → 2 * sdmFosr c k ≤ x.fcnt + 1 → Goes (.fastPathThreshold k [b]) s fun t =>
      t.chip.sdms[k].th1 = above bits ∧ t.chip.sdms[k].th2 = below bits ∧ t.chip.bit (sdmR k 0xC) 0 = true) ∧
    (sdmFen c k = true → Goes (.fastPathSettled k) s fun t =>
      t.chip.sdms[k].th1 = above x.fbits ∧ t.chip.sdms[k].th2 = below x.fbits ∧ t.chip.bit (sdmR k 0xC) 0 = true ∧
      RegsBut s t [sdmR k 0xC])) ∧
  (∀ o, x.stores = [o] → x.q.length < 16 → let d := sdmLand k c
    d.sdms[k].stores = [] ∧ d.sdms[k].q.length = x.q.length + 1 ∧
    (d.sdms[k].q.getLast?.map (fun r => r.extractLsb' 0 16)) = some (BitVec.ofInt 16 o.1) ∧
    (d.sdms[k].q.getLast?.map (fun r => (r.extractLsb' 16 8).toNat)) = some (0xC0 + k.val) ∧
    d.bit (sdmR k 0xC) 14 = true ∧ (o.2 = true → d.bit (sdmR k 0xC) 11 = true) ∧ ∀ b, b ≠ sdmR k 0xC → d.reg b = c.reg b) ∧
  (Goes (.sdmSync g) s fun t => t.chip.regs = c.regs ∧
    ∀ i : Fin 32, t.chip.sdms[i].n = (if i.val / 4 = g.val ∧ sdmEn c i ∧ c.bit (sdmR i 0) 16 then 0 else c.sdms[i].n) ∧
      t.chip.sdms[i].disc = (if i.val / 4 = g.val ∧ sdmEn c i ∧ c.bit (sdmR i 0) 16 then 2 else c.sdms[i].disc) ∧
      t.chip.sdms[i].sync = (if i.val / 4 = g.val ∧ sdmEn c i ∧ c.bit (sdmR i 0) 16 then true else c.sdms[i].sync)) ∧
  (sdmEn c k = true → sdmLost c k = false → x.sync = true → c.fld (sdmR k 4) 8 8 = 0 → Goes (.sdmOutput k [b]) s fun t =>
    t.chip.sdms[k].n = x.n ∧ t.chip.sdms[k].disc = x.disc ∧ t.chip.sdms[k].stores = x.stores ∧ t.chip.sdms[k].i3 = x.i3) ∧
  (sdmFen c k = false → x.th1 = true ∨ x.th2 = true → (sdmTurn k c).sdms[k].th1 = false ∧ (sdmTurn k c).sdms[k].th2 = false) ∧
  (sdmEn c k = true → x.lossClk = false → loses (.sdmClkloss k) 8) ∧
  (sdmEn c k = true → x.lossStuck = false → loses (.stuck k) 9) ∧
  (x.lossClk = true ∨ x.lossStuck = true → Goes (.sdmLossEnd k) s fun t => t.chip.sdms[k].lossClk = false ∧
    t.chip.sdms[k].lossStuck = false ∧ t.chip.sdms[k].disc = 2 ∧ t.chip.sdms[k].fcnt = 0 ∧ t.chip.sdms[k].th1 = false ∧
    t.chip.sdms[k].th2 = false ∧ RegsBut s t [sdmR k 0xC]) ∧
  (c.grants ini (sdmR k 0x18) false →
    (x.q = r :: rest → Goes (.sdmQpopl ini k) s fun t => t.chip.resp = { ok := true, data := [r.setWidth 32] } ∧
      t.chip.sdms[k].q = rest ∧ aread 0 t.chip.sdms[k].hold (iniIx ini) = r.extractLsb' 32 32 ∧ t.chip.regs = c.regs) ∧
    (x.q = [] → Goes (.sdmQpopl ini k) s fun t => t.chip.resp = { ok := true, data := [0xFF0000] } ∧ t.chip.regs = c.regs))

/-- 07 R175, R180 to R183: a write of WIN_CFG that enables a window, or changes the input or hysteresis of an enabled one, starts
its settling in state IN with the next cycle, and one that disables it stops it then; the settled state and later changes follow the
filtered outputs; a threshold write takes its fields but those that a lane in PEAK2 owns. -/
def Obligations.WindowResults : Prop := ∀ (s : State) (ini : Initiator) (w : Fin 96) (v : Word) (l u : Bool),
  s.inRun →
  let c := s.chip
  let old := c.reg (winR w 0)
  let x := c.wins[w]
  let again := v.bit 0 && (!old.bit 0 || old.fld 1 5 != v.fld 1 5)
  let m := filtM (c.fld (winR w 0) 6 3)
  let d := winTurn w c
  let blank (from_ : Option Nat) : Prop := winState d w = 1 ∧ winSettledB d w = false ∧ d.wins[w].settleFrom = from_ ∧
    d.wins[w].samples = [] ∧ d.wins[w].next = none ∧ (∀ a, a ≠ winR w 0x10 → d.reg a = c.reg a)
  let bound (old own : Word) (mask lane : Word) : Word := if peakBound c w then (own &&& mask &&& ~~~ lane) ||| (old &&& lane) else own &&& mask
  let sets (i : Instr) (off : Nat) (u : Word) : Prop := Goes i s fun t => t.chip.reg (winR w off) = u ∧ RegsBut s t [winR w off] ∧
    t.chip.wins = c.wins
  (c.grants ini (winR w 0) true → c.sealed = false → ∀ i ∈ [Instr.winEnable ini w v, .winRestart ini w v, .winDisable ini w v],
    Goes i s fun t => t.chip.reg (winR w 0) = v &&& 0xFFF ∧ RegsBut s t [winR w 0] ∧
      t.chip.wins[w] = { x with restart := x.restart || again }) ∧
  (winEn c w = true → x.restart = true → blank (some (c.now - 1))) ∧
  (winEn c w = false → x.on = true → blank none) ∧
  (winEn c w = true → c.wins[w].settleFrom ≠ none → Goes (.winSettled w) s fun t => winSettledB t.chip w = true ∧
    winState t.chip w = stateOf (winMajority c w m).1 (winMajority c w m).2 ∧ t.chip.bit (winR w 0x10) 11 = true ∧
    t.chip.wins[w].settleFrom = none ∧ RegsBut s t [winR w 0x10]) ∧
  (winEn c w = true → winSettledB c w = true → Goes (.winStateChange w l u) s fun t => winState t.chip w = stateOf l u ∧
    t.chip.wins[w].filtL = l ∧ t.chip.wins[w].filtU = u ∧ (winState c w ≠ stateOf l u → t.chip.bit (winR w 0x10) (8 + stateOf l u) = true) ∧
    RegsBut s t [winR w 0x10]) ∧
  (c.grants ini (winR w 4) true → sets (.winThr ini w 0 v) 4 (bound (c.reg (winR w 4)) v 0x0FFF0FFF 0x0FFF0000)) ∧
  (c.grants ini (winR w 8) true → c.sealed = false → sets (.winThr ini w 1 v) 8 (v &&& 0x1FFFFF)) ∧
  (c.grants ini (winR w 0xC) true → c.sealed = false →
    sets (.winThr ini w 2 v) 0xC (bound (c.reg (winR w 0xC)) v 0x1FFFFF 0xFFFF))

/-! ### Express lanes, loop engines and events (08 to 10) -/

/-- 08 R191, R197, R199 to R207, R210, R212: enabling takes the mode with nothing in flight; an enabled lane takes the event fields
alone; a lane written EN = 0 abandons what is in flight as the cycle ends; a record held alone whose pair window passes with the
cycle is discarded as the cycle ends and counted, and so is one held from before where both records of a pair arrive together; a
result delivers integrators (from those taken in their own cycle) and outputs, counts once in its cycle and sets RESF; IRST makes
the integrators 0 as its cycle ends. (The cycle's end is taken with no record at the tap.) -/
def Obligations.LaneResults : Prop := ∀ (s : State) (ini : Initiator) (x : Fin 12) (l : Fin 4) (lp : Fin 2) (v : Word) (f : XlFlight)
    (r : XlRec),
  s.inRun →
  let c := s.chip
  let xl := c.xls[x]
  let q := laneQ (f.cfg.fld 0 5)
  let slot := fun (j : Nat) => ((f.snap.slots[j]?).getD 0).toInt
  let counted (t : State) : Prop := t.chip.xls[x].flight = [] ∧ t.chip.bit (xlR x 4) 8 = true ∧
    t.chip.fld (xlR x 0x10) 0 16 = (if xl.resAt = some c.now then c.fld (xlR x 0x10) 0 16 else min (c.fld (xlR x 0x10) 0 16 + 1) 0xFFFF)
  let foc := ((focCompute q slot (laneY q f.ra) (laneY q f.rb) f.snap.vb.toInt f.snap.theta f.thE (f.cfg.bit 17) (f.cfg.bit 18)
    (f.cfg.bit 19) (xlIntOf c x f).1 (xlIntOf c x f).2).run (false, false)).1
  let pi (base : Nat) := ((xlLoopPi c x f base).run (false, false)).1
  (c.grants ini (xlR x 0) true → c.sealed = false →
    (c.bit (xlR x 0) 0 = false → v.bit 0 = true → Goes (.xlEnable ini x v) s fun t => t.chip.reg (xlR x 0) = v &&& 0x1F ∧
      xlMode t.chip x = v.fld 1 2 ∧ t.chip.xls[x] = { Xl.reset with irstAt := xl.irstAt, enAt := some c.now } ∧
      RegsBut s t [xlR x 0, xlR x 4]) ∧
    (c.bit (xlR x 0) 0 = true → v.bit 0 = true → Goes (.xlEnable ini x v) s fun t =>
      t.chip.reg (xlR x 0) = (v &&& 0x19) ||| (c.reg (xlR x 0) &&& 6) ∧ t.chip.xls = c.xls ∧ RegsBut s t [xlR x 0]) ∧
    (v.bit 0 = false → Goes (.xlDisable ini x v) s fun t => t.chip.reg (xlR x 0) = v &&& 0x1F ∧ t.chip.xls = c.xls ∧
      RegsBut s t [xlR x 0])) ∧
  (xl.taps = [] →
    (xlMode c x ≠ 0 → c.bit (xlR x 0) 0 = false → let d := xlEnd x c
      xlMode d x = 0 ∧ d.xls[x].flight = [] ∧ d.xls[x].snaps = [] ∧ d.xls[x].heldA = none ∧ d.xls[x].heldB = none) ∧
    (xl.irstAt = some c.now → (xlEnd x c).xls[x].irstAt = none ∧ ∀ i : Fin 4, (xlEnd x c).reg (xlR x (0x100 + 4 * i.val)) = 0) ∧
    (xl.flight = [f] → f.mode = 1 → f.due = c.now + 5 → c.bit (xlR x 0) 0 = true →
      (xlEnd x c).xls[x].flight = [{ f with ints := some (xlInt c x 0, xlInt c x 1) }])) ∧
  (Goes (.pairWindow x) s fun t => t.chip.xls[x] = { xl with pairAt := some c.now } ∧ t.chip.regs = c.regs) ∧
  (xl.taps = [] → (xl.heldA = some r ∧ xl.heldB = none ∨ xl.heldA = none ∧ xl.heldB = some r) →
    (xl.pairAt = some c.now ∧ r.cycle < c.now ∨ r.cycle + c.fld (xlR x 0x18) 16 8 ≤ c.now) → let d := xlEnd x c
      d.xls[x].heldA = none ∧ d.xls[x].heldB = none ∧ d.bit (xlR x 4) 11 = true ∧
      d.fld (xlR x 0x10) 16 16 = min (c.fld (xlR x 0x10) 16 16 + 1) 0xFFFF) ∧
  (xl.taps.any (xlIsIn c x true) = true → xl.taps.any (xlIsIn c x false) = true → xl.heldA ≠ none ∨ xl.heldB ≠ none →
    (xlTogether x c).xls[x].heldA = none ∧ (xlTogether x c).xls[x].heldB = none ∧ (xlTogether x c).bit (xlR x 4) 11 = true) ∧
  (xl.flight = [f] →
    (f.mode = 1 → f.loop = 0 → Goes (.foc3Result x) s fun t => counted t ∧
      (f.bad = false → ∀ i : Fin 4, (h : i.val < foc.ints.length) → t.chip.reg (xlR x (0x100 + 4 * i.val)) = wordI foc.ints[i]) ∧
      (f.bad = true → ∀ i : Fin 4, t.chip.reg (xlR x (0x100 + 4 * i.val)) = c.reg (xlR x (0x100 + 4 * i.val)))) ∧
    (f.mode = 2 → f.loop = l.val → f.cfg.bit 20 = false → Goes (.scalar4Result x l) s fun t => counted t ∧
      t.chip.reg (xlR x (0x100 + 4 * l.val)) = wordI (pi (4 * l.val)).2 ∧
      t.chip.reg (xlR x (0x120 + 4 * l.val)) = wordI (pi (4 * l.val)).1) ∧
    (f.mode = 3 → f.loop = lp.val → Goes (.peak2Result x lp) s fun t => counted t ∧
      t.chip.reg (xlR x (0x100 + 4 * lp.val)) = wordI (pi (5 * lp.val)).2 ∧
      t.chip.reg (xlR x (0x120 + 4 * lp.val)) = wordI (pi (5 * lp.val)).1)) ∧
  (c.grants ini (xlR x 0xC) true → v.bit 0 = true → Goes (.irst ini x v) s fun t => t.chip.xls[x].irstAt = some c.now ∧
    t.chip.regs = c.regs)

/-- 09 R213, R218 to R227, R229: LE_CTL.RUN takes a loop engine out of reset, or puts it in, as the cycle ends. A port asks its own
bank alone; a shared requester waits for the bank under its code; a bank serves in its frame cycle: a read returns V, or an error,
and a write waits for the end of the cycle, at which the owner's lands in the shadow and sets pending, a non-owner's is dropped with
NOWNF, and the MGE's makes both values before SEAL, or where the word's slice was under live reconfiguration when it was asked.
PEA_CMT makes the named domains commit as the cycle ends, or sets CMTREJF; a commit copies the shadow of a pending word. (Errors in
ECC words aside but where they are named.) -/
def Obligations.PeaResults : Prop := ∀ (s : State) (ini : Initiator) (n : Fin 24) (w : Fin 512) (v : Word) (wr : Option Word) (d : Fin 16)
    (r : PeaReq) (k : Nat),
  s.inRun →
  let c := s.chip
  let x := peaGet c w
  let ix := peaCodeOf c ini
  let others (e : Chip) : Prop := ∀ u : Fin 512, u ≠ w → peaGet e u = peaGet c u
  let asks (i : Instr) (q : PeaReq) : Prop := Goes i s fun t => t.chip.peaBus = { c.peaBus with reqs := c.peaBus.reqs ++ [q] } ∧
    t.chip.resp = { ok := true, data := [] } ∧ t.chip.pea = c.pea ∧ t.chip.regs = c.regs
  let notLe : Prop := ∀ m : Fin 24, ini ≠ .le m
  let turned := leTurn n c
  (c.grants ini (leR n 0) true → Goes (.leRun ini n v) s fun t => t.chip.reg (leR n 0) = v &&& 1 ∧ RegsBut s t [leR n 0] ∧
    (c.bit (leR n 0) 0 = true → v.bit 0 = false → (coreGet t.chip (.le n)).stopDue ≠ none)) ∧
  ((coreGet c (.le n)).stopDue = none → (coreGet c (.le n)).inReset = true → c.bit (leR n 0) 0 = true →
    (coreGet turned (.le n)).inReset = false) ∧
  ((coreGet c (.le n)).stopDue ≠ none → c.bit (leR n 0) 0 = false →
    (coreGet turned (.le n)).inReset = true ∧ coreLive turned (.le n) = false) ∧
  (w.val / 64 = n.val / 3 → asks (.peaPortAccess n w wr) ⟨iniIx (.le n), n, c.now, some w, wr, true, peaLive c (some w)⟩) ∧
  (w.val / 64 ≠ n.val / 3 → exec (.peaPortAccess n w wr) s = .next (s.after (fun c => (c.setBits (leR n 4) 0x100).err))) ∧
  (notLe → c.grants ini (0x21000000 + 4 * w.val) wr.isSome →
    (wr = none → peaFetch (iniIx ini) w c = none) → asks (.peaSharedAccess ini w wr) ⟨iniIx ini, ix, c.now, some w, wr, true, peaLive c (some w)⟩) ∧
  (c.capTime.toNat % 4 = n.val % 3 → c.peaBus.reqs = [r] → r.code = n.val → r.asked < c.now →
    peaTake c (Fin.ofNat 8 (n.val / 3)) = some r) ∧
  (r.word = some w.val →
    (r.wr = some v → (peaServe r c).peaBus.lands = c.peaBus.lands ++
      [(if r.code = 0x28 ∧ r.live = true then liveCode else r.code, w.val, v)] ∧ (peaServe r c).pea = c.pea) ∧
    (r.wr = none → r.cmd = true → (peaServe r c).pea = c.pea ∧
      (eccErr c (peaVKey w) = none → (peaServe r c).resp = { ok := true, data := [x.v] }) ∧
      (eccErr c (peaVKey w) = some true → (peaServe r c).resp = { ok := false, data := [] } ∧
        (peaServe r c).bit peaStatR 3 = true ∧ (peaServe r c).reg peaFltwR = BitVec.ofNat 32 (w.val + 2 ^ 9 * 0x3F + 2 ^ 15)))) ∧
  (let landed := peaLand k w v c
   (peaOwner c w = k → k < 0x28 → eccErr c (peaVKey w) ≠ some true →
      peaGet landed w = { x with sh := v, pend := true } ∧ others landed ∧ landed.regs = c.regs) ∧
   (peaOwner c w ≠ k ∨ k = 0x3F → k ≠ 0x28 → k ≠ liveCode → landed.pea = c.pea ∧ landed.bit peaStatR 0 = true ∧
      landed.reg peaFltwR = BitVec.ofNat 32 (w.val + 2 ^ 9 * (k % 64) + 2 ^ 15)) ∧
   ((k = 0x28 ∧ c.sealed = false) ∨ k = liveCode → peaGet landed w = { v := v, sh := v, pend := false } ∧ others landed ∧ landed.regs = c.regs)) ∧
  (c.grants ini peaCmtR true → notLe →
    (v.bit d = true → domKind c d = 3 → domCmtr c d = ix → ix < 0x28 → Goes (.peaCmt ini v) s fun t =>
      t.chip.peaBus.doms.getLsbD d = true ∧ t.chip.pea = c.pea) ∧
    (v.bit d = true → domCmtr c d ≠ ix → Goes (.peaCmt ini v) s fun t => t.chip.bit peaStatR 1 = true ∧ t.chip.pea = c.pea)) ∧
  (c.grants (.le n) peaCmtR true → asks (.peaCmt (.le n) v) ⟨iniIx (.le n), n, c.now, none, some v, true, false⟩) ∧
  (c.peaBus.doms.getLsbD d = true → peaDom c w = d.val → x.pend = true → awf (fun _ => PeaWord.reset) c.pea = true →
    c.ecc.bad = [] → peaGet (peaCommits c) w = { x with v := x.sh, pend := false })

/-- 09 R227: a write of PEA_ALLOC[w] whose OWNER is a loop engine (codes 0 to 23) outside its home bank, or a loop engine or a
transform lane (codes 24 to 35) of another slice than PART, leaves the entry and sets ALLOCF; any other sets S := V in its word and
clears the pending bit, at the end of its cycle. From SEAL on this holds of the writes that 09 R228 lets through. -/
def Obligations.AllocationRule : Prop := ∀ (s : State) (ini : Initiator) (w : Fin 512) (v : Word),
  s.inRun →
  let c := s.chip
  let owner := v.fld 0 6
  let part := v.fld 10 4
  let refused : Prop := (owner < 24 ∧ w.val / 64 ≠ owner / 3) ∨ (owner < 24 ∧ part ≠ owner / 2) ∨ (24 ≤ owner ∧ owner < 36 ∧ part ≠ owner - 24)
  c.grants ini (peaAllocR w) true → c.sealed = false ∨ (ini = .mge ∧ liveOn c (peaPart c w) = true ∧ part = peaPart c w) →
    (refused → Goes (.peaAlloc ini w v) s fun t => t.chip.reg (peaAllocR w) = c.reg (peaAllocR w) ∧ t.chip.bit peaStatR 2 = true ∧
      t.chip.pea = c.pea ∧ t.chip.peaBus = c.peaBus ∧ RegsBut s t [peaStatR]) ∧
    (¬ refused → Goes (.peaAlloc ini w v) s fun t => t.chip.reg (peaAllocR w) = v &&& 0x3FFF ∧ t.chip.pea = c.pea ∧
      RegsBut s t [peaAllocR w] ∧ (peaGet (peaEnd t.chip) w).sh = (peaGet (peaEnd t.chip) w).v ∧
      (peaGet (peaEnd t.chip) w).pend = false)

/-- 10 R235, R239, R241, R242, R245, 01 R28: a consumer pulse whose gate is open acts at its destination in its cycle, one whose
gate is closed does not (in a cycle with no loop guard at work), and one more than its group's loop guard allows latches it; a write
of EVM_GCFG while CONFIGURED gives a gated group its INIT state from the next cycle; a written one of EVM_LGSTAT clears its latch
but one set in the same cycle, and the counts of its group. -/
def Obligations.EventMatrix : Prop := ∀ (s : State) (ini : Initiator) (e : Fin 384) (g : Fin 32) (v : Word),
  s.inRun →
  let c := s.chip
  let d := gatesNow c
  let p := pulseDue c e
  let calm : Prop := p.guard = none ∧ ∀ q ∈ c.evm.pipe, q.due = c.now → q.guard = none
  let dest (t : State) : Prop :=
    let due (n : Nat) (x : Ev) : Prop := (c.now + n, x) ∈ t.chip.agenda
    if e.val < 192 then (if e.val % 2 = 0 then due 0 (.sync (Fin.ofNat 96 (e.val / 2)) false) else due 0 (.schCommit (Fin.ofNat 96 (e.val / 2))))
    else if e.val < 256 then due 0 (.adcTrigger (Fin.ofNat 32 ((e.val - 192) / 2)) (Fin.ofNat 2 e.val))
    else if e.val < 264 then due 0 (.sdmSync (Fin.ofNat 8 (e.val - 256)))
    else if e.val < 328 then (c.fld0 (capR (e.val - 264) 0) 1 2 = 0 → due 0 (.captureEdge (Fin.ofNat 64 (e.val - 264)) true))
    else if e.val < 344 then ∀ ch : Fin 32, c.bit (dmaC 0 ch 0) 6 = true → c.fld (dmaC 0 ch 0) 2 4 = e.val - 328 → due 0 (.dmaTrigger 0 ch)
    else if e.val < 360 then ∀ ch : Fin 32, c.bit (dmaC 1 ch 0) 6 = true → c.fld (dmaC 1 ch 0) 2 4 = e.val - 344 → due 0 (.dmaTrigger 1 ch)
    else if e.val < 368 then t.chip.pbs[Fin.ofNat 8 (e.val - 360)].evcPulse = some c.now ∧
      (c.fld (pbR (e.val - 360) 0x64) 0 5 = 16 → due 0 (.disciplinePulse (Fin.ofNat 8 (e.val - 360))))
    else if e.val < 376 then due 0 (.arm (Fin.ofNat 8 (e.val - 368)))
    else due 17 (.evoutEnd (Fin.ofNat 8 (e.val - 376)))
  (gateOpen d p.grp = true → calm → Goes (.consumerPulse e) s fun t =>
    dest t ∧ t.chip.evm.counts = c.evm.counts ++ [(c.now, e.val)] ∧ RegsBut s t [evmCoincR (e.val / 32)]) ∧
  (gateOpen d p.grp = false → calm → Goes (.consumerPulse e) s fun t =>
    t.chip.agenda = c.agenda ∧ t.chip.evm.counts = c.evm.counts ∧ t.chip.regs = c.regs) ∧
  (∀ lim, p.guard = some lim → lim < pulseCount c e + 1 → p.grp < 32 → gateOpen d p.grp = true →
    (∀ q ∈ c.evm.pipe, q.due = c.now → q.ch = e.val ∧ q = p) → Goes (.consumerPulse e) s fun t =>
      t.chip.bit evmLgstatR p.grp = true ∧ t.chip.evm.counts = c.evm.counts) ∧
  (c.grants ini (evmGcfgR g) true → c.devState = 6 → Goes (.evmGcfg ini g v) s fun t =>
    t.chip.reg (evmGcfgR g) = v &&& 0x00F1FF03 ∧ RegsBut s t [evmGcfgR g] ∧
    (v.bit 0 = true → (c.now + 1, g.val, v.bit 1) ∈ t.chip.evm.init)) ∧
  (c.grants ini evmLgstatR true → Goes (.evmLgstat ini v) s fun t =>
    t.chip.reg evmLgstatR = c.reg evmLgstatR &&& ~~~ (v &&& ~~~ c.fresh1 evmLgstatR) ∧ RegsBut s t [evmLgstatR] ∧
    t.chip.evm.counts = c.evm.counts.filter (fun q => !v.bit (groupOf c q.2)))

/-! ### Triton, memory and DMA (14, 15) -/

/-- 14 R326 to R329, R331, R333 to R339, 17 R416: the comparison forwards outputs that agree, isolates the one lane of three that
differs, and stops where all do, the pair differs or the voter's halves disagree. The vote of an input outvotes one copy; each lost
vote counts for the lane, and SYNCLIM of them in a row isolate it with cause SYNC, keeping what it held, or stop Triton where no
isolation is allowed. REINT, while TRITON_REINTEGRATE executes, sets MODE to REINT or, refused, only REJF; the copy takes writes of
the donor first, then 16 bytes, and ends after its last line. A drain past its limit, the time limit before the pause, ABORT and a
failure met in the pause leave Triton in DMR with the cause; the end of the pause 268 cycles of CLK_L after the drain is the
success, which gives the lane the donor's state. The odd cycle of TRI_PAUSE is named by the row, which is the model's choice (log
133). -/
def Obligations.TritonVoter : Prop := ∀ (s : State) (lane : Fin 3) (input lost : Nat) (odd : Bool) (ini : Initiator) (v : Word) (r : Reint)
    (p : TriPause),
  s.inRun →
  let c := s.chip
  let n := lostRun c lane input + lost
  let lim := max (c.fld (triR 0) 0 8) 1
  let counted (t : State) : Prop := t.chip.fld (triR 0x18) (10 * lane.val) 10 = min (c.fld (triR 0x18) (10 * lane.val) 10 + lost) 0x3FF
  let lost' := Instr.syncLimit ⟨lane, input, lost⟩
  let fails (cause : Nat) (t : State) : Prop := t.chip.tri = none ∧ triMode t.chip = 1 ∧ t.chip.bit (triR 4) 11 = true ∧
    t.chip.reg (triR 0x10) = BitVec.ofNat 32 (cause + 16 * r.lane.val) ∧
    (∀ l : Fin 3, triIn t.chip l.val = triIn c l.val) ∧ RegsBut s t [triR 4, triR 0x10]
  let agree (x y : Fin 3 × Chip) : Prop := ∀ cls, cls < 6 → outsOf x.2 cls = outsOf y.2 cls
  let laneByte (x : Chip) (i : Nat) : Byte := aread 0 (laneState x r.lane).tcm (2 ^ 32 + i)
  (∀ x y z : Fin 3 × Chip, metFatal x.2 = false → metFatal y.2 = false → metFatal z.2 = false →
    (agree x y → agree y z → compareLanes false [x, y, z] = .forward) ∧
    (agree x y → ¬ agree y z → ∃ cls, compareLanes false [x, y, z] = .isolate z.1 1 cls) ∧
    (agree x z → ¬ agree y z → ∃ cls, compareLanes false [x, y, z] = .isolate y.1 1 cls) ∧
    (agree y z → ¬ agree x z → ∃ cls, compareLanes false [x, y, z] = .isolate x.1 1 cls) ∧
    (∀ cls, cls < 6 → outsOf x.2 cls ≠ outsOf y.2 cls → outsOf y.2 cls ≠ outsOf z.2 cls → outsOf x.2 cls ≠ outsOf z.2 cls →
      compareLanes false [x, y, z] = .stop 1) ∧
    (agree x y → compareLanes false [x, y] = .forward) ∧ (¬ agree x y → compareLanes false [x, y] = .stop 0) ∧
    compareLanes true [x, y, z] = .stop 2) ∧
  (∀ level : Bool, (∀ l k : Fin 3, (l, input) ∈ c.vote.flips → (k, input) ∈ c.vote.flips → l = k) → syncVote c input level = level) ∧
  (n < lim → Goes lost' s fun t => counted t ∧ t.chip.lanes = c.lanes ∧ t.chip.cores = c.cores ∧ t.chip.mem = c.mem ∧
    RegsBut s t [triR 0x18]) ∧
  (lim ≤ n → triMode c = 0 → (∀ l : Fin 3, triIn c l.val = true) → lanesSame c = true → Goes lost' s fun t =>
    counted t ∧ triMode t.chip = 1 ∧ t.chip.lanes[lane] = some (laneOf c) ∧ t.chip.mem = c.mem ∧ t.chip.cores = c.cores ∧
    (∀ l : Fin 3, triIn t.chip l.val = (triIn c l.val && decide (l ≠ lane))) ∧ t.chip.fld (triR (0x20 + 4 * lane.val)) 0 3 = 3 ∧
    t.chip.bit (triR 4) 8 = true ∧ fltPending t.chip 33 = true) ∧
  (lim ≤ n → triMode c = 1 ∨ triMode c = 3 → triIn c lane.val = true → Goes lost' s fun t => counted t ∧
    triMode t.chip = 2 ∧ t.chip.fld (triR 4) 2 2 = (if isoNow c then 1 else 0) ∧ t.chip.bit (triR 4) 9 = true ∧
    t.chip.tri = none ∧ fltPending t.chip 34 = true) ∧
  (c.grants .mge (triR 8) true → v.bit 2 = true → v.bit 3 = false →
    (reintegrates c = true → triMode c = 1 → triIn c lane.val = false → c.tri = none → v.fld 0 2 = lane.val →
      Goes (.reint .mge v) s fun t => triMode t.chip = 3 ∧ t.chip.tri = some ⟨lane, c.now, false, 0, [], none⟩ ∧
        RegsBut s t [triR 4]) ∧
    (reintegrates c = true → triMode c ≠ 1 ∨ triIn c (v.fld 0 2) = true ∨ c.tri ≠ none ∨ v.fld 0 2 = 3 →
      Goes (.reint .mge v) s fun t => t.chip.tri = c.tri ∧ t.chip.reg (triR 4) = c.reg (triR 4) ||| 0x1000 ∧ RegsBut s t [triR 4]) ∧
    (reintegrates c = false → Goes (.reint .mge v) s fun t => t.chip.tri = c.tri ∧ RegsBut s t [])) ∧
  (c.tri = some r → triMode c = 3 →
    (∀ off k x q, r.queue = (off, k, x) :: q → off + k ≤ 0x20000 →
      (mirrorCycle c).tri = some { r with queue := q } ∧
      ∀ i, i < k → laneByte (mirrorCycle c) (off + i) = BitVec.ofNat 8 (x / 256 ^ i)) ∧
    (r.queue = [] → r.line < 8192 → c.ecc.bad = [] → (mirrorCycle c).tri = some { r with line := r.line + 1 } ∧
      ∀ i, i < 16 → laneByte (mirrorCycle c) (16 * r.line + i) = memByte c (2 ^ 32 + 16 * r.line + i)) ∧
    (8192 ≤ r.line → Goes .copyEnd s fun t => t.chip.tri = some { r with copied := true } ∧ t.chip.regs = c.regs ∧
      t.chip.mem = c.mem ∧ t.chip.lanes = c.lanes) ∧
    (r.line < 8192 → exec .copyEnd s = .next s) ∧
    (r.pause = none →
      (c.grants ini (triR 8) true → v.bit 3 = true → v.bit 2 = false → Goes (.reintAbort ini v) s (fails 4)) ∧
      (r.start + 500 * max (c.fld (triR 0xC) 0 16) 1 ≤ c.now → Goes .reintTimeout s (fails 2)) ∧
      (c.now < r.start + 500 * max (c.fld (triR 0xC) 0 16) 1 → exec .reintTimeout s = .next s)) ∧
    (r.pause = some p → exec .reintTimeout s = .next s ∧
      (p.fail = none → p.drained = none → 3700 < 2 * (c.now - p.start) → Goes .reintDrainLimit s fun t =>
        t.chip.tri = some { r with pause := some { p with fail := some 1, drained := some c.now } } ∧ t.chip.regs = c.regs) ∧
      (2 * (c.now - p.start) ≤ 3700 → exec .reintDrainLimit s = .next s) ∧
      (∀ d k, p.drained = some d → (p.fail = none → c.now < d + 134) → (p.fail = some k → c.now < d + 6) →
        exec (.pauseEnd odd) s = .next s) ∧
      (p.held = [] → lanesSame c = true → syncLane c = none →
        (∀ d k, p.drained = some d → p.fail = some k → d + 6 ≤ c.now → Goes (.pauseEnd odd) s (fails k)) ∧
        (∀ d, p.drained = some d → p.fail = none → d + 134 ≤ c.now → r.queue = [] → triIn c r.lane.val = false →
          (laneState c r.lane).tcm = (laneOf c).tcm → laneBad c r.lane = [] → Goes (.pauseEnd odd) s fun t =>
            t.chip.tri = none ∧ triMode t.chip = 0 ∧ triIn t.chip r.lane.val = true ∧ lanesSame t.chip = true ∧
            t.chip.bit (triR 4) 10 = true ∧
            t.chip.reg (triR 0x14) = BitVec.ofNat 32 (2 * (d - p.start) - odd.toNat + 268) ∧
            t.chip.fld (triR (0x20 + 4 * r.lane.val)) 16 16 = min (c.fld (triR (0x20 + 4 * r.lane.val)) 16 16 + 1) 0xFFFF ∧
            RegsBut s t [triR 4, triR 0x14, triR (0x20 + 4 * r.lane.val)]))))

/-- 15 R341, R344 to R346, 01 R16: a write-back clears a single-bit error and changes no byte; a scrub step moves the position on
and counts what it finds; MEM_LOGA pops the oldest entry; a target grants Triton first, else, of the requesters of the first class
that asks, the one at or after the pointer, which passes the pointer on once it has had its weight of bursts in a row; a holder that
asks no longer loses it. -/
def Obligations.MemoryAndFabric : Prop := ∀ (s : State) (ini : Initiator) (id : Fin 46) (word base size w : Nat) (e : EccEntry)
    (rest : List EccEntry) (t : Fin 10) (reqs : BitVec 12),
  s.inRun →
  let c := s.chip
  let pos := aread 0 c.ecc.scrub id.val
  let cls (i : Fin 12) := fabClass c i.val
  let arb := c.fab[t].arb
  (memOf id.val = some (base, size, w) →
    (word * w < size → eccErr c (base + word * w) = some false → Goes (.eccWriteback id word) s fun u =>
      eccErr u.chip (base + word * w) = none ∧ u.chip.mem = c.mem ∧ u.chip.regs = c.regs) ∧
    (c.bit (memR 0x40) 0 = true → c.run = none → pos + w < size → Goes (.scrubStep id) s fun u =>
      aread 0 u.chip.ecc.scrub id.val = pos + w ∧
      u.chip.mem = c.mem ∧ (eccErr c (base + pos) = none → u.chip.regs = c.regs) ∧
      (eccErr c (base + pos) = some false → u.chip.reg (memR 0x48) = BitVec.ofNat 32 (min ((c.reg (memR 0x48)).toNat + 1) 0xFFFFFFFF)) ∧
      (eccErr c (base + pos) = some true → u.chip.reg (memR 0x4C) = BitVec.ofNat 32 (min ((c.reg (memR 0x4C)).toNat + 1) 0xFFFFFFFF) ∧
        fltPending u.chip (96 + id.val) = true))) ∧
  (c.grants ini (memR 0x58) false →
    (c.ecc.log = e :: rest → Goes (.memLoga ini) s fun u => u.chip.got = some e.addr ∧ u.chip.ecc.log = rest ∧
      u.chip.reg (memR 0x5C) = e.info ∧ RegsBut s u [memR 0x5C]) ∧
    (c.ecc.log = [] → Goes (.memLoga ini) s fun u => u.chip.got = some 0 ∧ u.chip.ecc.log = [] ∧ u.chip.reg (memR 0x5C) = 0 ∧
      RegsBut s u [memR 0x5C])) ∧
  (Goes (.fabricGrant t reqs) s fun u => u.chip.regs = c.regs ∧
    (reqs.getLsbD 0 = true → u.chip.fab[t].granted = some 0 ∧ u.chip.fab[t].arb = arb) ∧
    (reqs = 0 → u.chip.fab[t].granted = none ∧
      u.chip.fab[t].arb = if arb.used = 0 then arb else ⟨(arb.ptr + 1) % 12, 0⟩) ∧
    (reqs.getLsbD 0 = false → reqs ≠ 0 → ∃ (i : Fin 12) (m : Nat), u.chip.fab[t].granted = some i ∧ reqs.getLsbD i.val = true ∧
      i.val = (arb.ptr + m) % 12 ∧ u.chip.fab[t].arb = (let run := if i.val = arb.ptr then arb.used + 1 else 1
        if max (c.fld (memR (4 * i.val)) 0 4) 1 ≤ run then ⟨(i.val + 1) % 12, 0⟩ else ⟨i.val, run⟩) ∧ (∀ j : Fin 12, reqs.getLsbD j.val = true → cls i ≤ cls j) ∧
      (∀ (j : Fin 12) (k : Nat), k < m → j.val = (arb.ptr + k) % 12 → reqs.getLsbD j.val = true → cls j ≠ cls i)))

/-- 15 R349, R355 to R357, R359, R360: DMA_CCFG enables a channel to IDLE, refuses quotas past 256 with QUOTAF and disables; RESET
and ABORT free the slots and clear triggers and RECHECK, and the channel ends in IDLE with ABORTF for an abort; a completion of the
same cycle comes before an abort; a doorbell fetches the first descriptor in IDLE, sets RECHECK while running or while the link word
is read, and re-reads the link word at the end; a trigger counts up to 15 and then sets TRIGOVF. -/
def Obligations.DmaChannels : Prop := ∀ (s : State) (ini : Initiator) (u : Fin 2) (ch : Fin 32) (v : Word) (isAbort : Bool) (f : DmaFly),
  s.inRun →
  let c := s.chip
  let x := dmaCh c u ch
  let cfg := dmaC u ch 0
  let st := dmaState c u ch
  let cnt := c.fld (cstatR u ch) 4 4
  let set := v &&& (if u = 0 then 0x00FFFFFD else 0x00FFFFFF)
  let stopped (t : State) (b : Bool) : Prop := (dmaCh t.chip u ch).slots = [] ∧ (dmaCh t.chip u ch).fly = [] ∧
    (dmaCh t.chip u ch).abort = some b ∧ t.chip.fld (cstatR u ch) 4 4 = 0 ∧ t.chip.bit (cstatR u ch) 3 = false ∧
    t.chip.mem = c.mem ∧ (c.now + 1, .abortComplete u ch) ∈ t.chip.agenda
  (c.grants ini cfg true → c.sealed = false →
    (c.bit cfg 0 = false → v.bit 0 = true → dmaQuotas (c.setReg cfg set) u ≤ 256 → Goes (.dmaCcfg ini u ch v) s fun t =>
      t.chip.reg cfg = set ∧ dmaState t.chip u ch = 1 ∧ RegsBut s t [cfg, cstatR u ch]) ∧
    (c.bit cfg 0 = false → v.bit 0 = true → 256 < dmaQuotas (c.setReg cfg set) u → Goes (.dmaCcfg ini u ch v) s fun t =>
      t.chip.reg (cstatR u ch) = c.reg (cstatR u ch) ||| 0x2000 ∧ RegsBut s t [cstatR u ch]) ∧
    (c.bit cfg 0 = true → v.bit 0 = true → dmaQuotas (c.setReg cfg set) u ≤ 256 → Goes (.dmaCcfg ini u ch v) s fun t =>
      t.chip.reg cfg = set ∧ t.chip.dmas = c.dmas ∧ RegsBut s t [cfg]) ∧
    (c.bit cfg 0 = true → v.bit 0 = false → Goes (.dmaCcfg ini u ch v) s fun t => t.chip.reg cfg = set ∧ stopped t false ∧
      RegsBut s t [cfg, cstatR u ch])) ∧
  (c.grants ini (dmaC u ch 4) true →
    (v.bit 0 = true → Goes (.dmaReset ini u ch v) s fun t => stopped t false ∧ RegsBut s t [cstatR u ch]) ∧
    (v.bit 0 = false → v.bit 1 = true → c.bit cfg 0 = true → c.bit cfg 23 = false → x.fly = [f] → f.allRead = true → f.rows ≤ f.rdone →
      f.link = some (true, false) → x.ending = true → x.abort = none → Goes (.dmaAbort ini u ch v) s fun t =>
        dmaState t.chip u ch = 5 ∧ t.chip.bit (cstatR u ch) 8 = true ∧ t.chip.bit (cstatR u ch) 9 = true ∧
        (dmaCh t.chip u ch).abort = none ∧ RegsBut s t [cstatR u ch]) ∧
    (v.bit 0 = false → v.bit 1 = true → x.abort = none → (∀ g rest, x.fly = g :: rest → g.link = none ∨ g.allRead = false ∨ g.rdone < g.rows) →
      (st = 2 ∨ st = 3 ∨ st = 4 → Goes (.dmaAbort ini u ch v) s fun t => stopped t true ∧ RegsBut s t [cstatR u ch]) ∧
      (st ≠ 2 ∧ st ≠ 3 ∧ st ≠ 4 → exec (.dmaAbort ini u ch v) s = .next (s.after Chip.ack)))) ∧
  (x.abort = some isAbort → Goes (.abortComplete u ch) s fun t => (dmaCh t.chip u ch).abort = none ∧
    dmaState t.chip u ch = (if c.bit cfg 0 then 1 else 0) ∧ (isAbort = true → t.chip.bit (cstatR u ch) 11 = true) ∧
    RegsBut s t [cstatR u ch]) ∧
  (c.grants ini (dmaC u ch 8) true → x.abort = none →
    (st = 1 → Goes (.dmaCdb ini u ch v) s fun t => dmaState t.chip u ch = 2 ∧ t.chip.reg (dmaC u ch 0x14) = c.reg (dmaC u ch 0x10) ∧
      RegsBut s t [cstatR u ch, dmaC u ch 0x14]) ∧
    (2 ≤ st → st ≤ 4 → x.ending = false → Goes (.dmaCdb ini u ch v) s fun t =>
      t.chip.reg (cstatR u ch) = c.reg (cstatR u ch) ||| 8 ∧ (dmaCh t.chip u ch).link = x.link ∧ RegsBut s t [cstatR u ch]) ∧
    (2 ≤ st → st ≤ 4 → x.ending = true → Goes (.dmaCdb ini u ch v) s fun t =>
      (dmaCh t.chip u ch).link = true ∧ (dmaCh t.chip u ch).ending = false ∧ t.chip.regs = c.regs) ∧
    (st = 5 → x.link = false → Goes (.dmaCdb ini u ch v) s fun t => (dmaCh t.chip u ch).link = true ∧ t.chip.regs = c.regs) ∧
    (st = 5 → x.link = true → Goes (.dmaCdb ini u ch v) s fun t =>
      t.chip.reg (cstatR u ch) = c.reg (cstatR u ch) ||| 8 ∧ (dmaCh t.chip u ch).link = true ∧ RegsBut s t [cstatR u ch]) ∧
    (st = 0 ∨ st = 6 → Goes (.dmaCdb ini u ch v) s fun t => dmaCh t.chip u ch = { x with bell := some c.now } ∧
      t.chip.regs = c.regs)) ∧
  (c.bit cfg 0 = true →
    (cnt < 15 → st ≠ 3 → Goes (.dmaTrigger u ch) s fun t => t.chip.fld (cstatR u ch) 4 4 = cnt + 1 ∧
      dmaState t.chip u ch = st ∧ RegsBut s t [cstatR u ch]) ∧
    (cnt = 15 → st ≠ 3 → Goes (.dmaTrigger u ch) s fun t =>
      t.chip.reg (cstatR u ch) = c.reg (cstatR u ch) ||| 0x1000 ∧ RegsBut s t [cstatR u ch]) ∧
    (cnt < 15 → st = 3 → x.abort = none → x.rowOn = false → (∃ d, x.cur = some d ∧ x.row < d.rows ∧ d.tmode = 2) →
      Goes (.dmaTrigger u ch) s fun t => dmaState t.chip u ch = 4 ∧ (dmaCh t.chip u ch).rowOn = true ∧
        t.chip.fld (cstatR u ch) 4 4 = cnt ∧ RegsBut s t [cstatR u ch]))

/-- 15 R350 to R354, R356, R359: a fetched descriptor starts with its words, an invalid one is error 4; a read burst takes the part
of the row within one 64-byte block into a free place; a write burst puts a slot's bytes, within one 64-byte block, and changes no
other byte; a link word without END goes on to the next descriptor and one with END ends the chain; a completed descriptor sets
DONEF for IRQ and leaves. -/
def Obligations.DmaEngines : Prop := ∀ (s : State) (u : Fin 2) (ch : Fin 32) (d : DmaDesc) (a : Arb) (sl : DmaSlot)
    (slots : List DmaSlot) (f : DmaFly) (fly : List DmaFly),
  s.inRun →
  let c := s.chip
  let x := dmaCh c u ch
  let st := dmaState c u ch
  let cur := (c.reg (dmaC u ch 0x14)).toNat
  let word (i : Nat) : Word := BitVec.ofNat 32 (memVal c (cur + 4 * i) 4)
  let inSram (b n : Nat) : Prop := 0x10000000 ≤ b ∧ b + n ≤ 0x11000000 ∧ domainsUp c b = true
  let valid := (word 2).fld 0 25 ≠ 0 ∧ (word 2).fld 25 7 = 0 ∧ (word 3).fld 16 2 ≠ 3 ∧ (word 3).fld 18 14 = 0
  let got : DmaDesc := ⟨cur, word 0, word 1, (word 2).fld 0 25, (word 3).fld 0 16 + 1, (word 3).fld 16 2, word 4, word 5⟩
  let src := (rowAddr d.src d.sstride x.row + x.pos) % 2 ^ 32
  let n := min (d.len - x.pos) (64 - src % 64)
  let put := min sl.data.length (64 - sl.dst % 64)
  (c.ecc.bad = [] → descOk cur = true → inSram cur 32 →
    (st = 2 → x.abort = none → valid → misplaced got = none → Goes (.descriptorFetch u ch) s fun t =>
      (dmaCh t.chip u ch).cur = some got ∧ (dmaCh t.chip u ch).row = 0 ∧ (dmaCh t.chip u ch).pos = 0 ∧
      (got.tmode = 0 → dmaState t.chip u ch = 4 ∧ (dmaCh t.chip u ch).rowOn = true) ∧
      (got.tmode ≠ 0 → c.fld (cstatR u ch) 4 4 = 0 → dmaState t.chip u ch = 3 ∧ (dmaCh t.chip u ch).rowOn = false) ∧
      t.chip.mem = c.mem ∧ RegsBut s t [cstatR u ch]) ∧
    (st = 2 → x.abort = none → ¬ valid → Goes (.descriptorFetch u ch) s fun t => dmaState t.chip u ch = 6 ∧
      t.chip.fld (cstatR u ch) 16 4 = 4 ∧ t.chip.bit (cstatR u ch) 10 = true ∧ t.chip.reg (dmaC u ch 0x20) = BitVec.ofNat 32 cur ∧
      fltPending t.chip (144 + u.val) = true) ∧
    (x.link = true → (word 6).fld 3 2 = 0 →
      ((word 6).bit 0 = false → Goes (.linkWordRead u ch) s fun t => (dmaCh t.chip u ch).link = false ∧ dmaState t.chip u ch = 2 ∧
        t.chip.reg (dmaC u ch 0x14) = word 6 &&& 0xFFFFFFE0 ∧ RegsBut s t [cstatR u ch, dmaC u ch 0x14]) ∧
      ((word 6).bit 0 = true → c.bit (cstatR u ch) 3 = true → Goes (.linkWordRead u ch) s fun t =>
        (dmaCh t.chip u ch).link = true ∧ t.chip.bit (cstatR u ch) 3 = decide (x.bell = some c.now) ∧ RegsBut s t [cstatR u ch]) ∧
      ((word 6).bit 0 = true → c.bit (cstatR u ch) 3 = false → x.fly = [] → Goes (.linkWordRead u ch) s fun t =>
        (dmaCh t.chip u ch).link = false ∧ dmaState t.chip u ch = 5 ∧ t.chip.bit (cstatR u ch) 9 = true ∧
        RegsBut s t [cstatR u ch]))) ∧
  (c.ecc.bad = [] → readBusy c u = false → arbGrant 32 c.dmas[u].rd (fun i => readReady c u (Fin.ofNat 32 i)) (dmaWt c u) = some (ch.val, a) →
    x.cur = some d → x.pos < d.len → inSram src n → Goes (.dmaReadBurst u) s fun t =>
      (dmaCh t.chip u ch).slots = x.slots ++ [⟨x.seq, slotFree c u, (rowAddr d.dst d.dstride x.row + x.pos) % 2 ^ 32,
        (List.range n).map (fun i => memByte c (src + i)), decide (d.len ≤ x.pos + n)⟩] ∧
      t.chip.dmas[u].rd = a ∧ t.chip.mem = c.mem ∧ RegsBut s t [cstatR u ch]) ∧
  (c.ecc.bad = [] → arbGrant 32 c.dmas[u].wr (fun i => writeReady c u (Fin.ofNat 32 i)) (dmaWt c u) = some (ch.val, a) →
    x.slots = sl :: slots → sl.data ≠ [] → inSram sl.dst put → Goes (.dmaWriteBurst u) s fun t =>
      (∀ i : Fin 64, (h : i.val < put) → memByte t.chip (sl.dst + i.val) = sl.data.getD i.val 0) ∧
      (∀ k, k < sl.dst ∨ sl.dst + put ≤ k → memByte t.chip k = memByte c k) ∧
      (put = sl.data.length → (dmaCh t.chip u ch).slots = slots) ∧
      (put < sl.data.length → (dmaCh t.chip u ch).slots =
        { sl with dst := (sl.dst + put) % 2 ^ 32, data := sl.data.drop put } :: slots) ∧ t.chip.regs = c.regs) ∧
  (x.fly = f :: fly → f.allRead = true → f.rows ≤ f.rdone → f.link = some (true, false) → c.bit (dmaC u ch 0) 23 = false →
    x.ending = false → Goes (.descriptorComplete u ch) s fun t => (dmaCh t.chip u ch).fly = fly ∧
      t.chip.reg (cstatR u ch) = c.reg (cstatR u ch) ||| 0x100 ∧ t.chip.mem = c.mem ∧ RegsBut s t [cstatR u ch])

/-! ### The Larrath link (16) -/

/-- 16 R366 to R370, R387, R388: a training frame of the present phase, received on a lane as a one-lane stream, tells DONE and its
content; a phase whose condition holds goes on, and phase 5 ends in UP with UPF; a timeout takes the silent interval and the next
narrower width, or FAILED with its fault; RETRY, RETRAIN, the loss of lock and EN start again from phase 1 at MAXW, with DOWNF from
UP, and so does high BER from UP alone. The conditions of the phases are those of R367 on the port's own lanes and on what the
partner told. -/
def Obligations.LinkTraining : Prop := ∀ (s : State) (ini : Initiator) (p : Port) (lane : Fin 4) (inverted : Bool) (skew : BitVec 16)
    (src : BitVec 6) (pay : List Byte) (v : Word),
  s.inRun →
  let c := s.chip
  let x := lport c p
  let st := lstate c p
  let ph := lphase c p
  let w := lwidth c p
  let b (i : Nat) : Byte := pay.getD i 0
  let h (i : Nat) : Nat := leNat [b i, b (i + 1)]
  let lanes := lanesOf w
  let slots := frameSlots 1 (frameBytes ⟨0, src, 3, 0, 0, pay, false, none, 0, 0⟩ 0)
  let active (v : BitVec 4) : Prop := ∀ l : Fin 4, l.val < lanes → v.getLsbD l.val = true
  let phase1 (t : State) (w : Nat) : Prop := lstate t.chip p = 1 ∧ lphase t.chip p = 1 ∧ lwidth t.chip p = w ∧
    (lport t.chip p).silent = false ∧ (lport t.chip p).since = c.now
  let again (t : State) : Prop := phase1 t (maxWidth c p) ∧ t.chip.bit (llP p 4) 25 = true ∧ (lport t.chip p).sending = [] ∧
    (lport t.chip p).queues[0] = []
  let late (i : Instr) : Prop :=
    (w < 2 → Goes i s fun t => (lport t.chip p).silent = true ∧ lstate t.chip p = 1 ∧ t.chip.fld (llP p 0x28) 0 3 = ph ∧
      t.chip.fld (llP p 0x28) 3 2 = w ∧ RegsBut s t [llP p 0x28]) ∧
    (2 ≤ w → bridged c p = false → fltPending c (146 + portIx p) = false → Goes i s fun t => lstate t.chip p = 3 ∧ t.chip.bit (llP p 4) 26 = true ∧
      (lport t.chip p).queues[1] = [] ∧ (lport t.chip p).queues[2] = [] ∧ fltPending t.chip (146 + portIx p) = true)
  (st = 1 → x.silent = false → 2 ≤ ph → ph ≤ 5 → lane.val < lanes → pay.length = 24 → (b 0).toNat / 4 % 8 = ph →
    (∀ l : Fin 4, x.rx.lockBad[l].2 < 16) → Goes (.train p ⟨lane, inverted, skew, slots⟩) s fun t =>
    (lport t.chip p).peer.done = (x.peer.done || (b 0).getLsbD 7) ∧ (lport t.chip p).peer.heard = true ∧
    t.chip.bit (llP p 4) (16 + lane.val) = inverted ∧
    (ph = 2 → (lport t.chip p).peer.rxReady.getLsbD lane.val = (b 2).getLsbD 7 ∧ (lport t.chip p).peer.req[lane] = b 1) ∧
    (ph = 3 → t.chip.fld (llP p 4) (8 + 2 * lane.val) 2 = (b 0).toNat % 4 ∧
      (lport t.chip p).peer.found.getLsbD ((b 0).toNat % 4) = true ∧ (lport t.chip p).rx.skew[lane] = skew) ∧
    (ph = 4 → (lport t.chip p).peer.widths = b 4 ∧ (lport t.chip p).peer.role = b 5) ∧
    (ph = 5 → (lport t.chip p).peer.credits = #v[h 8, h 10, h 12] ∧
      (lport t.chip p).peer.seqs = #v[BitVec.ofNat 16 (h 14), BitVec.ofNat 16 (h 16)]) ∧
    RegsBut s t [llP p 4, llP p (0x30 + 4 * lane.val)]) ∧
  (phaseMet c p = true ↔
    (ph = 1 ∨ x.peer.done = true) ∧
    (ph = 1 → ∀ l : Fin 4, l.val < lanes → ∃ t, x.rx.lock[l] = some t ∧ 50000 ≤ c.now - t) ∧
    (ph = 2 → active x.peer.rxReady ∧ active x.rx.ready) ∧
    (ph = 3 → active x.peer.found ∧ ∀ l k : Fin 4, l.val < lanes → k.val < lanes → x.rx.skew[l].toNat ≤ x.rx.skew[k].toNat + 192) ∧
    (ph = 4 → x.peer.widths.getLsbD w = true) ∧ (ph = 0 ∨ 5 ≤ ph → x.peer.heard = true)) ∧
  (st = 1 → x.silent = false →
    (phaseMet c p = true → 1 ≤ ph → ph < 5 → Goes (.trainingPhaseEnd p) s fun t => lstate t.chip p = 1 ∧ lphase t.chip p = ph + 1 ∧
      (lport t.chip p).peer.done = false ∧ (lport t.chip p).peer.heard = false ∧ (lport t.chip p).since = c.now ∧ RegsBut s t [llP p 4]) ∧
    (phaseMet c p = true → ph = 5 → Goes (.trainingPhaseEnd p) s fun t => lstate t.chip p = 2 ∧ t.chip.bit (llP p 4) 24 = true ∧
      (lport t.chip p).credits = x.peer.credits ∧ (p = .up → c.devState = 0 → t.chip.devState = 1)) ∧
    late (.phaseTimeout p) ∧ (2 ≤ ph → late (.lockLoss ⟨p, false⟩) ∧ exec (.lockLoss ⟨p, true⟩) s = .next s)) ∧
  (st = 1 → x.silent = true → w < 2 → Goes (.silentIntervalEnd p) s fun t => phase1 t (w + 1) ∧ RegsBut s t [llP p 4]) ∧
  (st = 3 → c.fld (llP p 0) 8 8 ≠ 0 → Goes (.retryTimeout p) s fun t => phase1 t (maxWidth c p) ∧ RegsBut s t [llP p 4]) ∧
  (st = 2 → ∀ ber, Goes (.lockLoss ⟨p, ber⟩) s again) ∧
  (c.grants ini (llP p 0xC) true → v.bit 0 = true →
    (st = 2 → Goes (.retrain ini p v) s again) ∧
    (st = 3 → Goes (.retrain ini p v) s fun t => phase1 t (maxWidth c p) ∧ RegsBut s t [llP p 4])) ∧
  (c.grants ini (llP p 0) true → c.sealed = false → bridged c p = false →
    (portEn c p = false → v.bit 0 = true → Goes (.llPctl ini p v) s fun t => t.chip.reg (llP p 0) = v &&& 0xFF07 ∧
      phase1 t (maxWidth t.chip p) ∧ RegsBut s t [llP p 0, llP p 4]) ∧
    (portEn c p = true → v.bit 0 = false → Goes (.llPctl ini p v) s fun t => t.chip.reg (llP p 0) = v &&& 0xFF07 ∧
      lstate t.chip p = 0 ∧ (lport t.chip p).queues[1] = [] ∧ (lport t.chip p).queues[2] = []))

/-- 16 R365, R366, R371 to R375, R379, R380, R383, R385, 17 R392: a frame in order at a port that is UP: a PEA frame for the device
is a write of its word by the link, which lands as the cycle ends; a COMMAND for it enters the queue of four, or is answered BUSY; a
REPLY from downstream goes on upstream; ENUM gives an address and goes on; a WRITE within the window writes its bytes and one
outside, or without bytes, only sets WINF; a STATUS gives credits and takes acknowledged frames from replay; the bridge takes a
frame in UP's place, where it has the bridge's EtherType and is addressed to the MAC. The frames arrive in data slots of the port's
width, on lanes without a run of bad sync headers. (Here no memory word is faulty, system SRAM is powered, and no frame of own
origin entered the same queue in the cycle.) -/
def Obligations.LinkFrames : Prop := ∀ (s : State) (p : Port) (src : BitVec 6) (hop : BitVec 5) (w : Fin 512) (v : Word)
    (data : List Byte) (e : BitVec 16 × LFrame) (cm cd : BitVec 16) (mac : Bool) (addr : BitVec 48) (etype : BitVec 16),
  s.inRun →
  let c := s.chip
  let x := lport c p
  let a := ownAddr c
  let fr (dst : Nat) (plane : BitVec 2) (typ : BitVec 4) (bs : List Byte) : LFrame :=
    ⟨BitVec.ofNat 6 dst, src, plane, typ, hop, bs, false, some p, c.now, 0⟩
  let placed (g : LFrame) : LFrame := { g with home := (takePlace (creditsOf g.size) c).1 }
  let noneOwn (q : List LFrame) : Prop := ∀ g ∈ q, g.from? = none → g.queued ≠ c.now
  let bytes (f : LFrame) : List Slot := frameSlots (lanesOf (lwidth c p)) (frameBytes f (x.rxSeq[credIx f.plane.toNat]))
  let taken (t : State) (pl : Fin 3) : Prop := (lport t.chip p).rxSeq[pl] = x.rxSeq[pl] + 1
  let freed (t : State) (pl : Fin 3) (f : LFrame) : Prop :=
    (lport t.chip p).freed[pl] = x.freed[pl] + BitVec.ofNat 16 (creditsOf f.size)
  let pea := fr a 0 0 (leBytes 4 w.val ++ leBytes 4 v.toNat)
  let cmd := fr a 1 0 data
  let reply := fr 0 1 1 data
  let enum := fr 63 1 2 data
  let write := fr a 2 0 (leBytes 4 v.toNat ++ List.replicate 4 0 ++ data)
  let lo := (c.reg (llR 0x10)).toNat
  let inside := lo ≤ v.toNat ∧ v.toNat + data.length ≤ (c.reg (llR 0x14)).toNat + 32 ∧ lo ≤ (c.reg (llR 0x14)).toNat ∧
    0x10000000 ≤ v.toNat ∧ v.toNat + data.length ≤ 0x11000000
  let h (i : BitVec 16) : List Byte := leBytes 2 i.toNat
  let status := fr 0 3 1 (h e.1 ++ h (x.txSeq[2] - 1 - BitVec.ofNat 16 x.replay[1].length) ++ h x.seen[0] ++ h (x.seen[1] + cm) ++
    h (x.seen[2] + cd) ++ List.replicate 6 0)
  let commanded (t : State) (bs : List Byte) : Prop :=
    (c.cmd.queue.length < 4 → t.chip.cmd.queue = c.cmd.queue ++ [bs] ∧ t.chip.cmd.reply = c.cmd.reply) ∧
    (c.cmd.queue.length = 4 → t.chip.cmd.queue = c.cmd.queue ∧ t.chip.cmd.reply[1]? = some 0x16 ∧
      t.chip.fld (cmdR 0x18) 0 16 = min (c.fld (cmdR 0x18) 0 16 + 1) 0xFFFF)
  lstate c p = 2 → (∀ l : Fin 4, x.rx.lockBad[l].2 < 16 ∧ x.rx.berBad[l].2 < 16) → data.length ≤ 1000 → c.ecc.bad = [] → (∀ g : Fin 8, pdOn c (10 + g.val) = true) →
  (a ≠ 0 →
    (Goes (.pea p (bytes pea)) s fun t => t.chip.pea = c.pea ∧ t.chip.mem = c.mem ∧ taken t 0 ∧ freed t 0 pea ∧
      t.chip.peaBus = { c.peaBus with lands := c.peaBus.lands ++ [(0x26, w.val, v)] }) ∧
    (Goes (.command p (bytes cmd)) s fun t => commanded t data ∧ taken t 1 ∧ t.chip.mem = c.mem) ∧
    (data ≠ [] → inside → Goes (.writeFrame p (bytes write)) s fun t => taken t 2 ∧ freed t 2 write ∧
      (∀ i : Fin 1000, (i.val < data.length → memByte t.chip (v.toNat + i.val) = data.getD i.val 0)) ∧
      (∀ k, k < v.toNat ∨ v.toNat + data.length ≤ k → memByte t.chip k = memByte c k) ∧ t.chip.regs = c.regs) ∧
    (data = [] ∨ ¬ inside → Goes (.writeFrame p (bytes write)) s fun t => t.chip.mem = c.mem ∧ t.chip.bit (llR 4) 2 = true ∧ taken t 2 ∧
      freed t 2 write ∧ RegsBut s t [llR 4, llP p 0x24])) ∧
  (p = .dn → lstate c .up = 2 → noneOwn c.link.up.queues[1] → Goes (.reply p (bytes reply)) s fun t => taken t 1 ∧
    t.chip.link.up.queues[1] = c.link.up.queues[1] ++ [placed reply] ∧ t.chip.regs = c.regs) ∧
  (p = .up → hop.toNat < 30 → c.bit (llR 0) 8 = false → lstate c .dn = 2 → c.cmd.queue.length < 4 →
    noneOwn c.link.dn.queues[1] → Goes (.enum p (bytes enum)) s fun t =>
    t.chip.link.dn.queues[1] = c.link.dn.queues[1] ++ [placed { enum with hop := hop + 1 }] ∧ taken t 1 ∧ commanded t data ∧
    ownAddr t.chip = hop.toNat + 1 ∧ (c.devState < 2 → t.chip.devState = 2)) ∧
  (x.replay[0] = [e] → x.resends = Vector.replicate 2 0 → Goes (.statusFrame p (bytes status)) s fun t =>
    (lport t.chip p).credits[0] = x.credits[0] ∧ (lport t.chip p).credits[1] = x.credits[1] + cm.toNat ∧
    (lport t.chip p).credits[2] = x.credits[2] + cd.toNat ∧ (lport t.chip p).replay[0] = [] ∧ (lport t.chip p).queues = x.queues ∧
    t.chip.regs = c.regs) ∧
  (bootMode c = 1 → c.bit (llR 0x30) 0 = mac → a ≠ 0 → bridgeHeld c 1 + 12 + data.length ≤ 8192 → Goes (.bridgeReceive ⟨mac, Config.macAddr mac,
      BitVec.ofNat 16 (c.fld (llR 0x30) 16 16), headBytes cmd 0 ++ data⟩) s fun t =>
    commanded t data ∧ t.chip.mem = c.mem) ∧
  (mac ≠ c.bit (llR 0x30) 0 ∨ addr ≠ Config.macAddr mac ∨ etype.toNat ≠ c.fld (llR 0x30) 16 16 →
    exec (.bridgeReceive ⟨mac, addr, etype, data⟩) s = .next s)

/-- 16 R374 to R376, R378 to R381, R384, 01 R15: at a frame boundary the egress sends a frame that has credit, control before
management while no data waits, with its SEQ and for its slots; a held control frame is dropped; a replay timeout sends the plane
again, and past its limit the port trains again with REPLF; the STATUS timer asks for a STATUS; a NAK ends; a complete frame in
LL_TXQ goes to its port, and one that has none is counted as dropped at UP, which is the model's choice (log 134); LL_WAKECTL drives
the wake signal. (Here the link buffers hold no faulty word and no forwarded frame is leaving.) -/
def Obligations.LinkTransmit : Prop := ∀ (s : State) (ini : Initiator) (p : Port) (pl : Fin 3) (f : LFrame) (rest : List LFrame)
    (dp : Bool) (h l : Word) (v : Word),
  s.inRun →
  let c := s.chip
  let x := lport c p
  let r : Fin 2 := if dp then 1 else 0
  let ready (q : Fin 3) : Bool := (nextFrame x q).isSome
  let sent (t : State) (bs : List Byte) : Prop := (lport t.chip p).sending = bs ∧
    (lport t.chip p).busy = slotNow c + slotsOf bs.length (lanesOf (lwidth c p)) ∧ t.chip.mem = c.mem
  let dst := h.fld 0 6
  let own : LFrame := ⟨BitVec.ofNat 6 dst, BitVec.ofNat 6 (ownAddr c), 2, 0, 0, (leBytes 4 v.toNat).take (h.fld 18 11), false, none, c.now, 0⟩
  (lstate c p = 2 → bridged c p = false → x.busy ≤ slotNow c → x.out = none → c.ecc.bad = [] →
    (x.queues[pl] = f :: rest → nextFrame x pl = some (f, none) → f.stomp = false → x.status = false →
      (pl = 2 → dataUsed x (slotNow c) < 32 ∧ x.guard = false) → (pl ≠ 2 → ready 2 = false) → (pl = 1 → ready 0 = false) →
      Goes (.frameTransmit p) s fun t => sent t (frameBytes f x.txSeq[pl]) ∧ (lport t.chip p).txSeq[pl] = x.txSeq[pl] + 1 ∧
        (lport t.chip p).credits[pl] = x.credits[pl] - creditsOf f.size ∧
        (c.link.txq = [] → c.link.txqWait = [] → (lport t.chip p).queues[pl] = rest)) ∧
    (x.status = true → ready 0 = false → ready 1 = false → Goes (.frameTransmit p) s fun t =>
      sent t (frameBytes ⟨0, BitVec.ofNat 6 (ownAddr c), 3, 1, 0, statusPayload x, false, none, c.now, 0⟩ 0) ∧ (lport t.chip p).status = false ∧
      (lport t.chip p).queues = x.queues) ∧
    (x.status = false → (∀ q : Fin 3, ready q = false) → exec (.frameTransmit p) s = .next s) ∧
    (x.waiting[r].isSome = true → x.resend[r] < x.replay[r].length →
      (x.resends[r] < 8 → Goes (.replayTimeout p dp) s fun t => (lport t.chip p).resend[r] = x.replay[r].length ∧
        (lport t.chip p).resends[r] = x.resends[r] + 1 ∧ (lport t.chip p).replay = x.replay ∧
        t.chip.fld (llP p 0x20) 0 16 = min (c.fld (llP p 0x20) 0 16 + 1) 0xFFFF ∧ RegsBut s t [llP p 0x20]) ∧
      (8 ≤ x.resends[r] → Goes (.replayTimeout p dp) s fun t => t.chip.bit (llP p 4) 27 = true ∧
        fltPending t.chip (146 + portIx p) = true)) ∧
    (Goes (.statusTimer p) s fun t => (lport t.chip p).status = true ∧ t.chip.regs = c.regs)) ∧
  (lstate c p ≠ 2 → bridged c p = false → x.queues[0] = f :: rest → Goes (.controlHoldTimeout p) s fun t =>
    (lport t.chip p).queues[0] = rest ∧ t.chip.fld (llP p 0x1C) 16 16 = min (c.fld (llP p 0x1C) 16 16 + 1) 0xFFFF ∧
    RegsBut s t [llP p 0x1C]) ∧
  (Goes (.nakTimeout p dp) s fun t => (lport t.chip p).nak[r] = none ∧ t.chip.regs = c.regs) ∧
  (c.grants ini (llR 0x1000) true → txqUsed c < 2048 → c.link.txqWait = [] →
    (c.link.txq = [h, l] → 1 ≤ h.fld 18 11 → h.fld 18 11 ≤ 4 →
      (h.fld 12 2 = 2 → h.fld 14 4 = 0 → routeOwn (ownAddr c) dst = some p → lstate c p = 2 → Goes (.llTxq ini v) s fun t =>
        t.chip.link.txq = [] ∧ (lport t.chip p).queues[2] = x.queues[2] ++
          [{ own with home := (takePlace (creditsOf own.size) c).1 }] ∧ t.chip.regs = c.regs) ∧
      (h.fld 12 2 ≠ 2 ∨ routeOwn (ownAddr c) dst = none → Goes (.llTxq ini v) s fun t => t.chip.link.txq = [] ∧
        t.chip.reg (llR 4) = c.reg (llR 4) ||| 8 ∧ RegsBut s t [llR 4, llP .up 0x24] ∧
        (h.fld 12 2 = 2 → h.fld 14 4 = 0 →
          t.chip.fld (llP .up 0x24) 0 16 = min (c.fld (llP .up 0x24) 0 16 + 1) 0xFFFF))) ∧
    (c.link.txq = [] → Goes (.llTxq ini v) s fun t => t.chip.link.txq = [v] ∧ t.chip.regs = c.regs)) ∧
  (c.grants ini (llR 0x24) true → lstate c p ≠ 2 → v.bit (portIx p) = true → Goes (.llWakectl ini v) s fun t =>
    (lport t.chip p).wakeEnd = c.now + 5000 * (if c.fld (llR 0x20) 8 8 = 0 then 10 else c.fld (llR 0x20) 8 8) ∧ t.chip.regs = c.regs)

/-! ### Commands of the host and security (17, 18) -/

/-- 17 R398, R404 to R406: what PING, ENUMERATE, IDENTIFY, READ, WRITE, READ_BLOCK, STATUS, FAULT_LOG, CLEAR_FAULT, HEARTBEAT and
RESET of the device or of a slice answer and do; a READ or READ_BLOCK with a word whose target has not answered is held, and
answered with its last word (model's choice, log 110). -/
def Obligations.CommandReplies : Prop := ∀ (s : State) (pkt ps : List Byte) (w : Word) (ws : List Word) (left : List Nat),
  let c := s.chip
  let k := cmdConsume .force pkt c
  let st := c.devState
  let a := fldAt ps 0 4
  let block := (List.range (fldAt ps 4 2)).map (fun i => a + 4 * i)
  let n := fldAt ps 0 1
  let adm (o len : Nat) : Prop := Admitted s o pkt ps ∧ ps.length = len
  let slices := (List.range 12).map (fun s => BitVec.ofNat 8 (sliceState c s))
  let entry (e : FltEntry) : List Byte := wordBytes e.w0 ++ wordBytes e.w1 ++ wordBytes e.w2 ++ wordBytes e.w3
  let v := BitVec.ofNat 32 (fldAt ps 4 4)
  let id := leBytes 8 c.fuses.devid.toNat
  (Admitted s 1 pkt ps → ps.length ≤ 972 → Goes (.ping pkt) s fun t => Answers t pkt 0 ps ∧ Leaves s t []) ∧
  (adm 2 0 → Goes (.enumerate pkt) s fun t => Answers t pkt (if c.bit (llR 4) 0 then 0x18 else 0)
    ([BitVec.ofNat 8 (ownAddr c), BitVec.ofNat 8 (bootMode c)] ++ id) ∧ Leaves s t []) ∧
  (adm 3 0 → Goes (.identify pkt) s fun t => Leaves s t [] ∧ Answers t pkt 0 (id ++ leBytes 2 Config.siliconRev.toNat ++
    leBytes 2 Config.romVersion.toNat ++ [BitVec.ofNat 8 (fuseCount c.fuses), BitVec.ofNat 8 (c.reg (secR 0xC)).toNat] ++ idPublic c)) ∧
  (3 ≤ st →
    (adm 0x20 4 → readWaits k .mge a = false →
      ((mgeRead a k).got = some w → Goes (.read pkt) s fun t => Answers t pkt 0 (wordBytes w) ∧ t.chip.cmd.held = none) ∧
      ((mgeRead a k).got = none → Goes (.read pkt) s fun t => Answers t pkt 0x12 [] ∧ t.chip.cmd.held = none)) ∧
    (adm 0x22 6 → 1 ≤ fldAt ps 4 2 → fldAt ps 4 2 ≤ 243 →
      ((readWords block [] k).1 = some ([], ws) → Goes (.readBlock pkt) s fun t => Answers t pkt 0 (ws.flatMap wordBytes)) ∧
      ((readWords block [] k).1 = none → Goes (.readBlock pkt) s fun t => Answers t pkt 0x12 [])) ∧
    (adm 0x20 4 → readWaits k .mge a = true → Goes (.read pkt) s fun t => t.chip.cmd.reply = c.cmd.reply ∧
      t.chip.cmd.held = some { auth := .force, pkt := pkt, addrs := [a], got := [] }) ∧
    (adm 0x22 6 → 1 ≤ fldAt ps 4 2 → fldAt ps 4 2 ≤ 243 → (readWords block [] k).1 = some (w.toNat :: left, ws) →
      Goes (.readBlock pkt) s fun t =>
        t.chip.cmd.held = some { auth := .force, pkt := pkt, addrs := w.toNat :: left, got := ws }) ∧
    (adm 0x30 0 → Goes (.status pkt) s fun t => Leaves s t [] ∧ Answers t pkt 0 ([BitVec.ofNat 8 st, BitVec.ofNat 8 (triMode c)] ++
      slices ++ [0, 0] ++ wordBytes c.capTime ++ leBytes 4 c.flt.log.length ++ leBytes 4 (hbCount c))) ∧
    (adm 0x31 1 → 1 ≤ n → n ≤ 60 → Goes (.faultLog pkt) s fun t => t.chip.flt.log = c.flt.log.drop n ∧ Leaves s t [] ∧
      Answers t pkt 0 ([BitVec.ofNat 8 (min n c.flt.log.length), 0, 0, 0] ++ (c.flt.log.take n).flatMap entry)) ∧
    (adm 0x32 2 → fldAt ps 0 2 < 256 → c.flt.live = [] → Goes (.clearFault pkt) s fun t => Answers t pkt 0 [] ∧
      ∀ i : Fin 256, fltPending t.chip i.val = (fltPending c i.val && decide (i.val ≠ fldAt ps 0 2))) ∧
    (adm 0x61 4 → Goes (.heartbeat pkt) s fun t => Answers t pkt 0 (ps ++ wordBytes c.capTime) ∧ t.chip.cmd.hbFrom = c.now ∧
      Leaves s t []) ∧
    (adm 0x7F 2 → n = 0 → Goes (.reset pkt) s fun t => Answers t pkt 0 [] ∧ t.chip.devState = 0 ∧ t.chip.mem = [] ∧
      t.chip.cmd.session = none ∧ (c.sec.fprog = none → t.chip.fuses = c.fuses)) ∧
    (adm 0x7F 2 → n = 2 → fldAt ps 1 1 < 12 → sliceState c (fldAt ps 1 1) = 0 ∨ sliceState c (fldAt ps 1 1) = 2 ∨
        sliceState c (fldAt ps 1 1) = 5 → Goes (.reset pkt) s fun t => Answers t pkt 0 [] ∧ sliceState t.chip (fldAt ps 1 1) = 0)) ∧
  (3 ≤ st → st ≤ 6 → adm 0x21 8 →
    ((mgeWrite a v k).resp.ok = true → Goes (.write pkt) s fun t => Answers t pkt 0 [] ∧
      Leaves (s.after (fun _ => mgeWrite a v k)) t []) ∧
    ((mgeWrite a v k).resp.ok = false → Goes (.write pkt) s fun t => Answers t pkt 0x12 []))

/-- 17 R395, R396, R400 to R403, R406, 18 R424, R427, R433: the life of a session and of an image: which state each command enters,
what it stages and answers, and what ends a long operation. A START after a STOP before the first START does what one from SEALED
does, which is the model's reading (log 54). -/
def Obligations.CommandLifecycle : Prop := ∀ (s : State) (pkt ps : List Byte) (l : LongCmd) (x : Session) (code : Nat) (segs : List Seg)
    (n : Fin 12),
  let c := s.chip
  let st := c.devState
  let adm (o len : Nat) : Prop := Admitted s o pkt ps ∧ ps.length = len
  let accepted (t : State) : Prop := Answers t pkt 1 [] ∧ 
    t.chip.cmd.long.map (fun y => (y.start, y.pkt.take 8)) = some (c.now, pkt.take 8)
  let ended (t : State) (status : Nat) (res : List Byte) : Prop := t.chip.cmd.long = none ∧ t.chip.bit (cmdR 4) 3 = true ∧
    Answers t l.pkt status res
  let area := fldAt ps 0 4
  let open_ := sessionOpenRun ((longParams l).take 96) ((longParams l).drop 96) c
  let ver := verifyCont none c.cmd.base c.cmd.length c
  let image := stageGet c.cmd.base c.cmd.length c
  let sum := (stageGet c.cmd.base c.cmd.length c).1.map (fun bs => sha384 (bs.take (bs.length - 96)))
  let k := cmdConsume .force pkt c
  let applied (w : TaskEnd × Chip) : Prop := w.2.cmd.long.map (·.pkt) = some l.pkt → Goes .applyConfigComplete s fun t =>
    match w.1.status with
    | some (status, ix) => ended t status (leBytes 4 ix) ∧ t.chip.mem = w.2.mem ∧ t.chip.devState = w.2.devState
    | none => t = { s with chip := w.2 }
  (adm 4 192 → Goes (.sessionOpen pkt) s fun t => accepted t ∧ Leaves s t []) ∧
  (s.inRun → longIs c 4 = some l → Goes .sessionOpenComplete s fun t => ended t open_.1.1 open_.1.2 ∧
    t.chip.cmd.pend = open_.2.cmd.pend ∧ t.chip.cmd.session.map (·.kc) = c.cmd.session.map (·.kc)) ∧
  (adm 5 0 → c.cmd.pend = some x → Goes (.sessionConfirm pkt) s fun t => Answers t pkt 0 [] ∧ t.chip.cmd.pend = none ∧
    t.chip.cmd.session.map (fun y => (y.kc, y.kr, y.ki)) = some (x.kc, x.kr, x.ki) ∧ t.chip.bit (secR 0) 4 = x.factory.isSome ∧
    t.chip.devState = (if st = 2 then 3 else st)) ∧
  (adm 0x10 8 → 3 ≤ st → st ≤ 5 → area % 32 = 0 → 0x10000000 ≤ area → area + fldAt ps 4 4 ≤ 0x11000000 → Goes (.loadBegin pkt) s fun t =>
    Answers t pkt 0 [] ∧ t.chip.devState = 4 ∧ t.chip.cmd.base = area ∧ t.chip.cmd.length = fldAt ps 4 4 ∧
    Leaves s t [cmdStatR, cmdR 4, llR 0x10, llR 0x14]) ∧
  (Admitted s 0x11 pkt ps → st = 4 → 5 ≤ ps.length → ps.length ≤ 976 → area + (ps.length - 4) ≤ c.cmd.length → c.ecc.bad = [] →
      0x10000000 ≤ c.cmd.base → c.cmd.base + c.cmd.length ≤ 0x11000000 → (∀ g : Fin 8, pdOn c (10 + g.val) = true) →
    Goes (.loadSegment pkt) s fun t => Answers t pkt 0 [] ∧
      (∀ i : Fin 972, (i.val < ps.length - 4 → memByte t.chip (c.cmd.base + area + i.val) = ps.getD (4 + i.val) 0)) ∧
      (∀ k, k < c.cmd.base + area ∨ c.cmd.base + area + (ps.length - 4) ≤ k → memByte t.chip k = memByte c k)) ∧
  (adm 0x12 0 → st = 4 → Goes (.loadEnd pkt) s fun t => accepted t ∧ Leaves s t []) ∧
  (s.inRun → st = 4 → longIs c 0x12 = some l → ver.1 = some (code, segs) → Goes .loadEndComplete s fun t =>
    if code ≠ 0 then t.chip.devState = 3 ∧ ended t 0x20 ([BitVec.ofNat 8 code, 0, 0, 0] ++ sum.getD (List.replicate 48 0))
    else t.chip.mem = (applyTcm segs ver.2).2.mem ∧ (if (applyTcm segs ver.2).1 then t.chip.devState = 5 ∧
        t.chip.cmd.digest = sum.getD [] ∧ ended t 0 ([0, 0, 0, 0] ++ sum.getD [])
      else t.chip.devState = 3 ∧ ended t 0x30 [0, 0, 0, 0])) ∧
  (adm 0x13 0 → st = 5 ∨ st = 6 → Goes (.applyConfig pkt) s fun t => accepted t ∧ t.chip.devState = 6 ∧ t.chip.mem = c.mem) ∧
  (s.inRun → longIs c 0x13 = some l →
    (l.todo = none → image.1.bind contSegs = some segs → applied (longTasks l ((if c.cmd.further then removeTasks c else []) ++ imageTasks segs) image.2)) ∧
    (l.todo.isSome = true → applied (longTasks l [] c))) ∧
  (adm 0x14 0 → st = 6 → lanesSame c = true → syncLane c = none →
    ((sealFuses k).1 = true → Goes (.seal pkt) s fun t => Answers t pkt 0 c.cmd.digest ∧ t.chip.devState = 7 ∧ t.chip.sealed = true ∧
      t.chip.bit (safecfgR n.val) 7 = false ∧ (∀ k ∈ allCores, t.chip.bit (lockR k) 0 = true) ∧ t.chip.fuses = (sealFuses k).2.fuses ∧
      t.chip.fuses.revoke = c.fuses.revoke ||| (c.reg (secR 0x14)).truncate 2 ∧
      (c.cmd.winSet = false → t.chip.reg 0x45000010 = 0 ∧ t.chip.reg 0x45000014 = 0)) ∧
    ((sealFuses k).1 = false → Goes (.seal pkt) s fun t => Answers t pkt 0x30 [] ∧ t.chip.devState = 6 ∧ t.chip.mem = c.mem)) ∧
  (adm 0x15 0 → devfltLive c = false →
    (st = 7 ∨ (st = 9 ∧ c.cmd.hbArmed = false) → Goes (.start pkt) s fun t => Answers t pkt 0 [] ∧ t.chip.devState = 8 ∧ t.chip.cmd.hbArmed = true ∧
      t.chip.cmd.hbFrom = c.now ∧ sliceState t.chip n.val = (if c.cmd.sliceUse.getLsbD n.val then 1 else 0) ∧
      (c.cmd.sliceUse.getLsbD n.val = true → causeOn t.chip n.val causeStop = false)) ∧
    (st = 9 → c.cmd.hbArmed = true → Goes (.start pkt) s fun t => Answers t pkt 0 [] ∧ t.chip.devState = 8 ∧
      (sliceState c n.val = 1 → causeOn t.chip n.val causeStop = false) ∧ sliceState t.chip n.val = sliceState c n.val)) ∧
  (adm 0x16 0 → 7 ≤ st → Goes (.stop pkt) s fun t => Answers t pkt 0 [] ∧ t.chip.devState = 9 ∧
    causeOn t.chip n.val causeStop = true ∧ t.chip.mem = c.mem) ∧
  (Admitted s 0x60 pkt ps → 3 ≤ st → 1 ≤ ps.length → ps.length ≤ 512 →
    Goes (.debugUnlock pkt) s fun t => if tokenCode c.fuses ps = 0 then Answers t pkt 0 [] ∧ Leaves s t [secR 0x1C] ∧
        t.chip.reg (secR 0x1C) = c.reg (secR 0x1C) ||| BitVec.ofNat 32 (1 + 2 * (fldAt ps 6 2 % 4))
      else Answers t pkt 0x20 [BitVec.ofNat 8 (tokenCode c.fuses ps)] ∧ Leaves s t []) ∧
  (s.inRun → c.cmd.hbArmed = true → c.fld (cmdR 0xC) 0 16 ≠ 0 →
    if c.fld (cmdR 0xC) 0 16 ≤ hbCount c then Goes .heartbeatExpiry s fun t => t.chip.bit (cmdR 4) 1 = true ∧
      fltPending t.chip 150 = true ∧ t.chip.cmd.hbFrom = c.now
    else exec .heartbeatExpiry s = .next s)

/-- 17 R410 to R416: from the slice states each command allows, what SLICE_DRAIN, SLICE_LOAD, SLICE_VERIFY, SLICE_RESUME,
SLICE_FENCE, SLICE_SUBSTITUTE and TRITON_REINTEGRATE do at once and which slice state their end leaves. A SLICE_VERIFY that fails
gives the detail code of R409 as a tenth byte, which is the model's choice (log 136). -/
def Obligations.SliceCommands : Prop := ∀ (s : State) (pkt ps : List Byte) (l : LongCmd) (n p : Fin 12) (m : Fin 96) (j : Fin 8)
    (code : Nat) (segs : List Seg),
  let c := s.chip
  let st := sliceState c n.val
  let q : Fin 12 := Fin.ofNat 12 (m.val / 8)
  let chan (x : Fin 12) : Fin 96 := ⟨8 * x.val + j.val, by omega⟩
  let adm (o len : Nat) : Prop := Admitted s o pkt ps ∧ ps.length = len ∧ (c.devState = 8 ∨ c.devState = 9) ∧ fldAt ps 0 1 = n.val
  let accepted (t : State) : Prop := Answers t pkt 1 [] ∧ 
    t.chip.cmd.long.map (fun y => (y.start, y.pkt.take 8)) = some (c.now, pkt.take 8)
  let mine := s.inRun ∧ fldAt (longParams l) 0 1 = n.val
  let ended (t : State) (status : Nat) (res : List Byte) : Prop := t.chip.cmd.long = none ∧ t.chip.bit (cmdR 4) 3 = true ∧
    Answers t l.pkt status res
  let quieted (t : State) : Prop := t.chip.bit (xlR n.val 0) 0 = false ∧ t.chip.bit (leR (leOf n 0) 0) 0 = false ∧
    t.chip.bit (leR (leOf n 1) 0) 0 = false
  let ver := verifyCont (some n) (fldAt (longParams l) 1 4) (fldAt (longParams l) 5 4) c
  let area := (fldAt (longParams l) 1 4, fldAt (longParams l) 5 4)
  let begun := updCmd (fun m => { m with reload := m.reload.set n area, heldLe := m.heldLe.filter (fun e => e.1 / 2 != n.val) }) ver.2
  let loaded (w : TaskEnd × Chip) : Prop := w.2.cmd.long.map (·.pkt) = some l.pkt → Goes .sliceLoadComplete s fun t =>
    match w.1.status with
    | some (status, _) => sliceState t.chip n.val = 3 ∧ t.chip.mem = w.2.mem ∧
      ended t status ([0, BitVec.ofNat 8 w.1.got.length, 0, 0] ++ w.1.got.flatMap wordBytes)
    | none => t = { s with chip := w.2 }
  let back := stageGet (c.cmd.reload[n]).1 (c.cmd.reload[n]).2 c
  let read := sliceReads segs back.2
  let diffs := sliceDiffs segs read.2
  let verified (status state : Nat) (x : Chip) (ds : List Nat) (detail : List Byte) : Prop := Goes .sliceVerifyComplete s fun t =>
    sliceState t.chip n.val = state ∧ ended t status (leBytes 4 ds.length ++ leBytes 4 (ds.headD 0) ++ [BitVec.ofNat 8 (sliceLocks n x)] ++ detail)
  (adm 0x40 6 → st = 1 →
    (fldAt ps 1 1 = 0 → Goes (.sliceDrain pkt) s fun t => accepted t ∧ causeOn t.chip n.val causeStop = true) ∧
    (fldAt ps 1 1 = 1 → Goes (.sliceDrain pkt) s fun t => accepted t ∧ causeOn t.chip n.val causeStop = true ∧
      t.chip.pwms[chan n].draining = true)) ∧
  (s.inRun → c.pwms[m].draining = true → c.slices[q].drainAt < c.now →
      (c.bit (pwmR m 0) 0 = true → c.slices[q].drainAt + 500000 ≤ c.now) → Goes (.drainLimit m) s fun t => t.chip.pwms[m].draining = false ∧
    t.chip.pwms[m].safe = true ∧ t.chip.slices[q].drainLast = c.now ∧ t.chip.regs = c.regs ∧
    t.chip.slices[q].pattern[2 * (m.val % 8)]? = c.slices[q].pattern[2 * (m.val % 8)]?.map (fun _ =>
      some (patLevel c m false (32 * c.now) (c.slices[q].patCode.fld (4 * (m.val % 8)) 2))) ∧
    t.chip.slices[q].pattern[2 * (m.val % 8) + 1]? = c.slices[q].pattern[2 * (m.val % 8) + 1]?.map (fun _ =>
      some (patLevel c m true (32 * c.now) (c.slices[q].patCode.fld (4 * (m.val % 8) + 2) 2)))) ∧
  (mine → longIs c 0x40 = some l → (∀ i : Fin 8, c.pwms[(⟨8 * n.val + i.val, by omega⟩ : Fin 96)].draining = false) → c.slices[n].drainLast ≤ c.now →
    Goes .sliceDrainComplete s fun t => sliceState t.chip n.val = 2 ∧ quieted t ∧
      ended t 0 (leBytes 4 (c.slices[n].drainLast - c.slices[n].drainAt))) ∧
  (adm 0x41 9 → 0x10000000 ≤ fldAt ps 1 4 → fldAt ps 1 4 + fldAt ps 5 4 ≤ 0x11000000 → st = 0 ∨ st = 2 ∨ st = 3 ∨ st = 4 →
    Goes (.sliceLoad pkt) s fun t => accepted t ∧ Leaves s t []) ∧
  (mine → longIs c 0x41 = some l →
    (l.todo = none → ver.1 = some (code, segs) →
      (code ≠ 0 → Goes .sliceLoadComplete s fun t => sliceState t.chip n.val = 3 ∧ ended t 0x20 [BitVec.ofNat 8 code, 0, 0, 0]) ∧
      (code = 0 → loaded (withLive n (reloadTasks l (sliceTasks segs)) begun))) ∧
    (l.todo.isSome = true → loaded (withLive n (reloadTasks l []) c))) ∧
  (adm 0x42 1 → st = 3 → Goes (.sliceVerify pkt) s fun t => accepted t ∧ Leaves s t []) ∧
  (mine → longIs c 0x42 = some l → l.todo = none → back.1.bind contSegs = some segs → Goes .sliceVerifyComplete s fun t =>
    t.chip.cmd.long.map (fun y => (y.pkt, y.todo, y.due)) = some (l.pkt, some [], c.now + reloadGap c * sliceAccesses segs) ∧
    sliceState t.chip n.val = st) ∧
  (mine → longIs c 0x42 = some l → l.todo.isSome = true → c.now < l.due → exec .sliceVerifyComplete s = .next s) ∧
  (mine → longIs c 0x42 = some l → l.todo.isSome = true → l.due ≤ c.now → l.out = none → back.1.bind contSegs = some segs →
      read.1 = true →
    (diffs ≠ [] → verified 0x20 3 read.2 diffs [10]) ∧
    (diffs = [] → c.cmd.heldLe.filter (fun e => e.1 / 2 == n.val) = [] → verified 0 4 read.2 [] [])) ∧
  (mine → longIs c 0x42 = some l → l.todo.isSome = true → l.due ≤ c.now → l.out.isSome = true →
    let locked := c.cmd.startedLe.all (fun n => c.bit (lockR (.le (Fin.ofNat 24 n))) 0)
    let late := l.start + 500 * c.fld (cmdR 0x14) 16 16 ≤ c.now
    (locked = true → verified 0 4 c [] []) ∧ (locked = false → late → verified 0x20 3 c [] [11]) ∧
    (locked = false → ¬ late → exec .sliceVerifyComplete s = .next s)) ∧
  (adm 0x43 1 → st = 2 ∨ st = 4 → Goes (.sliceResume pkt) s fun t => Answers t pkt 0 [] ∧ sliceState t.chip n.val = 1 ∧
    causeOn t.chip n.val causeStop = false) ∧
  (adm 0x44 1 → st ≠ 5 → Goes (.sliceFence pkt) s fun t => Answers t pkt 0 [] ∧ sliceState t.chip n.val = 5 ∧ quieted t ∧
    causeOn t.chip n.val causeStop = true ∧ t.chip.slices[n].pattern = []) ∧
  (adm 0x45 2 → fldAt ps 1 1 = p.val → p ≠ n → st = 5 → sliceState c p.val = 0 ∨ sliceState c p.val = 2 →
    Goes (.sliceSubstitute pkt) s fun t => Answers t pkt 0 [] ∧
      (∀ i : Fin 16, t.chip.reg (xbarR (16 * n.val + i.val)) = BitVec.ofNat 32 (16 * p.val + i.val) ∧
        t.chip.reg (xbarR (16 * p.val + i.val)) = 0xFF) ∧ t.chip.pins.copyDue = c.pins.copyDue ++ [c.now] ∧ t.chip.reg (slR p.val 4) = BitVec.ofNat 32 n.val ∧
      t.chip.bit (slR n.val 0) 3 = true ∧ t.chip.fld (slR n.val 0) 4 4 = p.val) ∧
  (Admitted s 0x50 pkt ps → ps.length = 1 → c.devState = 8 ∨ c.devState = 9 → reintOk c (fldAt ps 0 1) = true →
    Goes (.tritonReintegrate pkt) s fun t => accepted t ∧ triMode t.chip = 3 ∧
      t.chip.tri.map (·.lane.val) = some (fldAt ps 0 1))

/-- 18 R423, R424, R430, R432, R434: SEC_FPCMD programs a blank slot or sets FPROGF, and the end sets the slot's bits; a kept
revocation or FPROGF; random words while the DRBG is healthy; the instructions of the test access port; the debug module within its
unlocked scope, which reaches the state of every lane of Triton. The layout of the boundary register is the model's (log 46). -/
def Obligations.SecurityCommands : Prop := ∀ (s : State) (ini : Initiator) (v : Word) (k : Fin 2) (x : BitVec 384) (n : Fin 1024)
    (bits : List Bool) (core : CoreId) (b : Fin 8) (r : Fin 32) (i : Fin 4) (a : Word)
    (key : List Byte) (lane : Fin 3) (off : BitVec 17),
  let c := s.chip
  let other : Fin 2 := if k = 0 then 1 else 0
  let fp := secR 0x70
  let drives (t : State) (m : TapInstr) : Prop := t.chip.sec.tap = m ∧ t.chip.bit (secR 0) 11 = true ∧ fltPending t.chip 148 = true
  let reads (d : DebugAccess) (w : Word) : Prop := Goes (.debugModuleAccess d) s fun t => t.chip.got = some w ∧ t.chip.regs = c.regs ∧
    t.chip.mem = c.mem ∧ t.chip.cores = c.cores
  let shut (d : DebugAccess) : Prop := Goes (.debugModuleAccess d) s fun t => t.chip.regs = c.regs ∧ t.chip.mem = c.mem ∧ t.chip.got = some 0
  let dbg : Chip → Chip := fun c => { c with sec := { c.sec with tap := .debug } }
  (s.inRun → c.grants ini fp true → c.sealed = false → v.bit 8 = true → v.bit 0 = decide (k = 1) →
    (bootMode c = 3 → c.fuses.anchor[k] = 0 → c.sec.fprog = none → k = 1 → Goes (.fuseProgram ini v) s fun t =>
      t.chip.sec.fprog = some (1, BitVec.ofNat 384 (beNat (anchorStage c))) ∧ t.chip.bit fp 9 = true ∧ RegsBut s t [fp]) ∧
    (bootMode c = 3 → c.fuses.anchor[k] = 0 → c.sec.fprog = none → k = 0 → c.cmd.session.bind (·.factory) = some key →
      Goes (.fuseProgram ini v) s fun t => t.chip.sec.fprog = some (0, BitVec.ofNat 384 (beNat (sha384 key))) ∧ t.chip.bit fp 9 = true ∧
        RegsBut s t [fp]) ∧
    (bootMode c ≠ 3 ∨ c.fuses.anchor[k] ≠ 0 ∨ c.sec.fprog ≠ none ∨ (k = 0 ∧ c.cmd.session.bind (·.factory) = none) → Goes (.fuseProgram ini v) s fun t => t.chip.sec.fprog = c.sec.fprog ∧
      t.chip.fuses = c.fuses ∧ t.chip.reg (secR 0) = c.reg (secR 0) ||| 0x400 ∧ RegsBut s t [fp, secR 0])) ∧
  (s.inRun → c.sec.fprog = some (BitVec.ofNat 1 k.val, x) → Goes .fuseProgramComplete s fun t => t.chip.sec.fprog = none ∧
    t.chip.fuses = { c.fuses with anchor := c.fuses.anchor.set k (c.fuses.anchor[k] ||| x) } ∧ t.chip.bit fp 9 = false ∧ RegsBut s t [fp]) ∧
  (s.inRun → c.grants ini (secR 0x14) true → c.sealed = false → v.bit k.val = true → v.bit other.val = false →
    (c.fuses.revoke.getLsbD other.val = false → c.cmd.applied.map (·.1) = some other.val → Goes (.secRevoke ini v) s fun t =>
      t.chip.reg (secR 0x14) = c.reg (secR 0x14) ||| BitVec.ofNat 32 (2 ^ k.val) ∧ RegsBut s t [secR 0x14]) ∧
    (c.fuses.revoke.getLsbD other.val = true ∨ c.cmd.applied.map (·.1) ≠ some other.val → Goes (.secRevoke ini v) s fun t =>
      t.chip.reg (secR 0) = c.reg (secR 0) ||| 0x400 ∧ RegsBut s t [secR 0])) ∧
  (s.inRun → c.grants ini (secR 0x18) false → Goes (.secRng ini) s fun t => t.chip.regs = c.regs ∧
    t.chip.got = some (if c.bit (secR 0) 1 then Config.rngWord c.sec.draws else 0) ∧
    (c.bit (secR 0) 1 = true → t.chip.sec.draws = c.sec.draws + 1)) ∧
  (s.inRun → Goes .rngHealthFailure s fun t => t.chip.bit (secR 0) 1 = false ∧ t.chip.bit (secR 0) 9 = true ∧ fltPending t.chip 148 = true) ∧
  (Goes .bypass s fun t => t.chip.sec.tap = .bypass ∧ t.chip.sec.shift = [false] ∧ t.chip.regs = c.regs) ∧
  (Goes .idcode s fun t => t.chip.sec.tap = .idcode ∧ t.chip.sec.shift = (List.range 32).map (c.bit (secR 0x20)) ∧ t.chip.regs = c.regs) ∧
  (Goes (.samplePreload (some bits)) s fun t => t.chip.sec.tap = .samplePreload ∧ t.chip.sec.boundary = bits ∧
    t.chip.sec.shift.length = 1024 ∧ t.chip.regs = c.regs) ∧
  (Goes (.samplePreload none) s fun t => t.chip.sec.boundary = c.sec.boundary ∧ t.chip.regs = c.regs ∧
    (padLevel c n.val = .hi → t.chip.sec.shift[n.val]? = some true) ∧ (padLevel c n.val = .lo → t.chip.sec.shift[n.val]? = some false)) ∧
  (Goes .extest s fun t => drives t .extest ∧ (bankPg c (n.val / 64) = true → c.bit0 (gpioBank (n.val / 64) 0x28) 0 = true → padLevel t.chip n.val = lvlOf (c.sec.boundary[n.val]?.getD false))) ∧
  (Goes .clamp s fun t => drives t .clamp ∧ (bankPg c (n.val / 64) = true → c.bit0 (gpioBank (n.val / 64) 0x28) 0 = true → padLevel t.chip n.val = lvlOf (c.sec.boundary[n.val]?.getD false))) ∧
  (Goes .highz s fun t => drives t .highz ∧ padLevel t.chip n.val = .z) ∧
  (s.inRun →
    (c.bit (secR 0x1C) 1 = true → reads (.readReg core b r) (bankGet c core b).g[r] ∧
      reads (.readRestart core b i) ((bankGet c core b).restart[i.val]?.getD 0) ∧
      reads (.readLaneReg lane b r) (laneState c lane).core.banks[b].g[r]) ∧
    (c.bit (secR 0x1C) 1 = false → reads (.readReg core b r) 0 ∧ reads (.readRestart core b i) 0 ∧ reads (.readLaneReg lane b r) 0) ∧
    (c.bit (secR 0x1C) 2 = true → (∀ j, j < 4 → Goes (.debugModuleAccess (.readLaneMem lane off)) s fun t =>
        t.chip.got.map (fun (w : Word) => w.toNat / 256 ^ j % 256) =
          some (aread 0 (laneState c lane).tcm (2 ^ 32 + off.toNat / 4 * 4 + j)).toNat) ∧
      exec (.debugModuleAccess (.writeMem a v)) s = .next (s.after (fun c => mgeWrite a.toNat v (dbg c))) ∧
      exec (.debugModuleAccess (.readMem a)) s = .next (s.after (fun c => mgeRead a.toNat (dbg c)))) ∧
    (c.bit (secR 0x1C) 2 = false → shut (.writeMem a v) ∧ shut (.readMem a)))

/-! ### Pins, network, power and reset (19 to 21) -/

/-- 19 R438 to R441, R443 to R446, R448: before SEAL a write of GPIO_PIN changes the function through the park level, or refuses a
function that names no signal; a filtered level is kept, sets its interrupt and reaches a capture channel; in standby it stays at
the pad; a failed supply makes the bank's pins Hi-Z with its flags and fault, its return ends them; a wake pin in standby records
the wake. -/
def Obligations.PinCommands : Prop := ∀ (s : State) (ini : Initiator) (n : Fin 1024) (v : Word) (l : Bool) (j : Fin 8) (b : Fin 16)
    (k : Fin 64),
  let c := s.chip
  let a := gpioPinR n.val
  let x := pinGet c n.val
  let new := v &&& 0xFFFFF
  let mode := c.fld a 15 3
  let bank := gpioBank b.val 0x28
  let wp := 64 * (k.val / 4) + k.val % 4
  (s.inRun → c.grants ini a true → c.sealed = false →
    (fselLegal (new.fld 0 4) n.val = true → new.fld 0 4 = c.fld a 0 4 → Goes (.gpioPin ini n v) s fun t => t.chip.reg a = new ∧
      (pinGet t.chip n.val).stby = none ∧ RegsBut s t [a, gpioWord 0x18 n.val]) ∧
    (fselLegal (new.fld 0 4) n.val = true → new.fld 0 4 ≠ c.fld a 0 4 → Goes (.gpioPin ini n v) s fun t => t.chip.reg a = new ∧
      (pinGet t.chip n.val).parkTo = c.now + 4 ∧ (pinGet t.chip n.val).park = parkLvl (new.fld 4 2) (padBefore c n.val) ∧
      (pinGet t.chip n.val).inFrom = c.now + 6 ∧ n.val ∈ t.chip.pins.claims) ∧
    (fselLegal (new.fld 0 4) n.val = false → Goes (.gpioPin ini n v) s fun t =>
      t.chip.reg gpioStatR = c.reg gpioStatR ||| 2 ∧ RegsBut s t [gpioStatR])) ∧
  (s.inRun → x.level ≠ l → bankPg c (n.val / 64) = true → Goes (.pinLevelChange n l) s fun t => (pinGet t.chip n.val).level = l ∧
    (mode = 3 ∨ (mode = 1 ∧ l = true) ∨ (mode = 2 ∧ l = false) → t.chip.bit (gpioWord 0x18 n.val) (n.val % 32) = true) ∧
    (mode = 0 → fselOf c n.val = 0 → t.chip.regs = c.regs) ∧
    (fselOf c n.val = 3 → capSrc c (n.val % 64) = 1 → (c.now, .captureEdge (Fin.ofNat 64 n.val) (!l)) ∉ c.agenda → capin c (n.val % 64) ≠ capin t.chip (n.val % 64) →
      (c.now, .captureEdge (Fin.ofNat 64 n.val) l) ∈ t.chip.agenda)) ∧
  (inStandby c = true → Goes (.pinLevelChange n l) s fun t => padNow t.chip n.val = l ∧ pinGet t.chip n.val = x ∧ t.chip.regs = c.regs) ∧
  (s.inRun → Goes (.evoutEnd j) s fun t => t.chip.pins.evout[j] = (0, 0) ∧ t.chip.regs = c.regs) ∧
  (s.inRun → bankPg c b.val = true → Goes (.bankSupplyFail b) s fun t => bankPg t.chip b.val = false ∧ t.chip.bit gpioStatR 2 = true ∧
    t.chip.bit (sysR 4) 3 = true ∧ fltPending t.chip 175 = true ∧ (n.val / 64 = b.val → padLevel t.chip n.val = .z)) ∧
  (s.inRun → bankPg c b.val = false → c.bit bank 1 = l → (∀ o : Fin 16, o ≠ b → bankPg c o.val = true) →
    Goes (.bankSupplyReturn b l) s fun t => bankPg t.chip b.val = true ∧ t.chip.bit (sysR 4) 3 = false) ∧
  (inStandby c = true → c.bit (sysR 0x1C) 8 = false → wakeSees c k.val c.pins.wakes[k].filt l = true →
    Goes (.wakePin k l) s fun t => padNow t.chip wp = l ∧
      t.chip.pins.wakes[k].filt = l ∧ t.chip.reg (sysR 0x1C) = BitVec.ofNat 32 (4 * k.val + 256) ∧
      t.chip.bit (gpioWakeR k.val) 8 = true ∧ t.chip.power.wake = true ∧ t.chip.power.mode = c.power.mode ∧
      RegsBut s t [sysR 0x1C, gpioWakeR k.val]) ∧
  (inStandby c = true → wakeSees c k.val c.pins.wakes[k].filt l = false → Goes (.wakePin k l) s fun t =>
    t.chip.pins.wakes[k].filt = l ∧ t.chip.regs = c.regs ∧ t.chip.power = c.power)

/-- 20 R452, R455 to R461, 17 R395: the network clock steps by NET_ADJ and takes NET_SETS with NET_SETNS; NET_TIMEN copies the
seconds; a generator's write forms its due instant anew; each event fires the generators set to it, which capture, flag and pulse (a
write of the generator's configuration governs from the next cycle: R462); the ends of ETH_PPS, a link report of the bridge MAC and
a stuck bus. -/
def Obligations.NetworkCommands : Prop := ∀ (s : State) (ini : Initiator) (v : Word) (i : Fin 16) (reg : Fin 4) (m : Fin 2) (q : Fin 8)
    (e : Fin 8) (filt : Fin 128) (b : Fin 4),
  s.inRun →
  let c := s.chip
  let unit : Int := 10 ^ 9 * 2 ^ 24
  let sum := netTime c + v.toInt * 2 ^ 24
  let keep : Word := if reg = 0 then 0x7FFF else if reg = 1 then 0x3FFFFFFF else 0xFFFFFFFF
  let fired (t : State) : Prop := t.chip.bit (tevR i.val 0x18) 0 = true ∧ t.chip.reg (tevR i.val 0x14) = BitVec.ofNat 32 (netNs c) ∧
    (c.net.tevs[i].pulses = [] → (c.now + 2, .tevPulse i) ∈ t.chip.agenda ∨ (c.now + 3, .tevPulse i) ∈ t.chip.agenda)
  let only (t : State) : Prop := ∀ a, t.chip.reg a ≠ c.reg a → 0x41080100 ≤ a ∧ a < 0x41080300
  let stamped (t : State) (k : Nat) : Prop := aget t.chip.net.stamps k = some (c.capTime.toNat, netNow c)
  (c.grants ini (netR 0x10) true → 0 ≤ sum → sum < 2 ^ 48 * unit → Goes (.netAdj ini v) s fun t => netTime t.chip = sum ∧ only t ∧
    (v.toInt ≤ 0 → t.chip.regs = c.regs)) ∧
  (c.grants ini (netR 0x18) true → c.fld (netR 0x14) 0 30 < 10 ^ 9 → Goes (.netSets ini v) s fun t => t.chip.net.secs = v.toNat ∧
    t.chip.net.nanos = c.fld (netR 0x14) 0 30 * 2 ^ 24 ∧ only t) ∧
  (c.grants ini (netR 0) false → Goes (.netTimen ini) s fun t => t.chip.got = some (BitVec.ofNat 32 (netNs c)) ∧
    aread 0 t.chip.net.copies (iniIx ini) = c.net.secs ∧ t.chip.regs = c.regs) ∧
  (c.grants ini (tevR i.val (4 * reg.val)) true → c.sealed = false → Goes (.netTevcfg ini i reg v) s fun t =>
    t.chip.reg (tevR i.val (4 * reg.val)) = v &&& keep ∧ RegsBut s t [tevR i.val (4 * reg.val)] ∧
    (reg ≠ 0 ∨ v.fld 0 3 ≠ c.fld (tevR i.val 0) 0 3 → (c.now, i.val) ∈ t.chip.net.reform)) ∧
  (tevMode c i.val = 1 → Goes (.timeEventFire i) s fun t => fired t ∧ only t ∧
    t.chip.net.tevs[i].due = c.net.tevs[i].due + max (c.reg0 (tevR i.val 0xC)).toNat 100) ∧
  (ethOn c = true → tevUnit c i.val % 2 = m.val → tevSel c i.val % 8 = q.val →
    (tevMode c i.val = 2 → Goes (.ethReceive m q) s fun t => fired t ∧ only t ∧ stamped t m.val) ∧
    (tevMode c i.val = 3 → Goes (.ethTransmitEnd m q) s fun t => fired t ∧ only t ∧ stamped t (2 + m.val)) ∧
    (tevMode c i.val = 6 → Goes (.gateCycleStart m) s fun t => fired t ∧ only t)) ∧
  (pdOn c 50 = true →
    (tevMode c i.val = 4 → tevUnit c i.val % 8 = e.val → tevSel c i.val = filt.val → Goes (.canReceive e filt) s fun t =>
      fired t ∧ only t ∧ stamped t (4 + e.val)) ∧
    (tevMode c i.val = 5 → tevUnit c i.val = i.val → Goes (.sentReceive i) s fun t => fired t ∧ only t ∧ stamped t (12 + i.val)) ∧
    (Goes (.stuckBus b) s fun t => t.chip.net.stuck.getLsbD b.val = true ∧ t.chip.regs = c.regs)) ∧
  (Goes (.ppsEnd m) s fun t => t.chip.net.pps[m] = 0 ∧ t.chip.regs = c.regs) ∧
  (bootMode c = 1 → c.fld (llR 0x30) 0 1 = m.val → Goes (.macLink m) s fun t => t.chip.cmd.macUp = true ∧
    t.chip.devState = (if c.devState = 0 then 1 else c.devState))

/-- 21 R466 to R470, 16 R384, 07 R185: a domain is switched off at once, or after the accesses in progress to it, or on within 20
µs, a slice's only while IDLE or FENCED; standby is entered or refused with STBYREJF; its end, the wake sources, of which the first
is recorded, and the resumption of STANDBY-R. -/
def Obligations.PowerCommands : Prop := ∀ (s : State) (ini : Initiator) (hi : Bool) (d : Fin 56) (v : Word) (p : Port) (w : Fin 8)
    (l u : Bool),
  let c := s.chip
  let a := sysR (if hi then 0xC else 8)
  let flip := c.reg a ^^^ BitVec.ofNat 32 (2 ^ (d.val % 32))
  let sl := sliceDomain d.val
  let st := match sl with
    | some (s, _) => c.fld (slR s 0) 0 3
    | none => 0
  let woken (t : State) (code : Nat) : Prop := t.chip.reg (sysR 0x1C) = BitVec.ofNat 32 (code + 256) ∧ t.chip.power.wake = true
  let waits := inStandby c = true ∧ c.bit (sysR 0x1C) 8 = false
  let offs := pdctlBit c d.val = true ∧ (st = 0 ∨ st = 5)
  let refused (i : Instr) : Prop := c.devState = 7 ∨ c.devState = 8 ∨ c.cmd.long ≠ none → Goes i s fun t =>
    t.chip.reg (sysR 4) = c.reg (sysR 4) ||| 0x100 ∧ t.chip.power = c.power ∧ RegsBut s t [sysR 4]
  let entered (i : Instr) (m : PowerMode) : Prop := c.devState ≠ 7 → c.devState ≠ 8 → c.cmd.long = none → Goes i s fun t =>
    t.chip.power.mode = m ∧ t.chip.power.entering = true ∧ t.chip.cmd.session = none ∧ t.chip.power.entered = c.power.aon
  (s.inRun → c.grants ini a true → c.sealed = false → fixedDomain d.val = false → hi = decide (32 ≤ d.val) →
    (offs → domainBusy c d.val = false → Goes (.pmuPdctl ini hi flip) s fun t => pdctlBit t.chip d.val = false ∧ pdOn t.chip d.val = false ∧
      (∀ o : Fin 56, o ≠ d → pdOn t.chip o.val = pdOn c o.val)) ∧
    (offs → domainBusy c d.val = true → Goes (.pmuPdctl ini hi flip) s fun t => pdctlBit t.chip d.val = false ∧
      pdOn t.chip d.val = pdOn c d.val ∧ d.val ∈ t.chip.power.offDue ∧ RegsBut s t [a]) ∧
    (pdctlBit c d.val = true → st ≠ 0 → st ≠ 5 → Goes (.pmuPdctl ini hi flip) s fun t =>
      t.chip.reg (sysR 4) = c.reg (sysR 4) ||| 0x200 ∧ RegsBut s t [sysR 4]) ∧
    (pdctlBit c d.val = false → Goes (.pmuPdctl ini hi flip) s fun t => pdctlBit t.chip d.val = true ∧
      (∃ n ∈ List.range 10001, (c.now + n, .domainPowerUp d) ∈ t.chip.agenda) ∧ RegsBut s t [a])) ∧
  (s.inRun → pdOn c d.val = false → pdctlBit c d.val = true → d.val ∉ c.power.offDue → Goes (.domainPowerUp d) s fun t => pdOn t.chip d.val = true ∧
    (∀ o : Fin 56, o ≠ d → pdOn t.chip o.val = pdOn c o.val)) ∧
  (s.inRun → c.grants ini (sysR 0) true →
    (v.fld 0 2 = 1 → refused (.enterStandbyR ini v) ∧ entered (.enterStandbyR ini v) .standbyR) ∧
    (v.fld 0 2 = 2 → refused (.enterStandbyO ini v) ∧ entered (.enterStandbyO ini v) .standbyO)) ∧
  (inStandby c = true → c.power.entering = true → Goes .standbyEntryComplete s fun t =>
    t.chip.power = { c.power with entering := false } ∧ t.chip.regs = c.regs) ∧
  (c.power.mode = .standbyO → c.power.entering = false → c.power.wake = true →
    (resumeR c).power.mode = .run ∧ (resumeR c).devState = 0 ∧ (resumeR c).bit 0x43000200 5 = true) ∧
  (c.power.mode = .standbyR → c.power.entering = false → c.power.wake = true → Goes .standbyRResumed s fun t => t.chip.power.mode = .run ∧
    t.chip.power.wake = false ∧ t.chip.bit (sysR 4) 11 = true ∧ t.chip.mem = c.mem) ∧
  (waits →
    (c.fld (sysR 0x20) 0 24 ≠ 0 → Goes .aonTimer s fun t => woken t 3 ∧ RegsBut s t [sysR 0x1C]) ∧
    (c.bit (llR 0x20) (portIx p) = true → Goes (.linkWake p) s fun t => woken t (2 + 4 * portIx p) ∧
      t.chip.bit (llR 4) (4 + portIx p) = true ∧ t.chip.link.woke = some p ∧ RegsBut s t [sysR 0x1C, llR 4]) ∧
    (c.bit (winlpR w.val 0) 0 = true → c.bit (winlpR w.val 0) (9 + stateOf l u) = true → Goes (.lpWindowWake w l u) s fun t =>
      woken t (1 + 4 * w.val) ∧ t.chip.fld (winlpR w.val 8) 0 2 = stateOf l u ∧ RegsBut s t [sysR 0x1C, winlpR w.val 8])) ∧
  (s.inRun → c.link.woke = some (otherPort p) → c.bit (llR 0x20) 2 = true → lstate c p ≠ 2 → Goes (.serdesPllLock p) s fun t =>
    t.chip.link.woke = none ∧ t.chip.regs = c.regs ∧
    (lport t.chip p).wakeEnd = c.now + 5000 * (if c.fld (llR 0x20) 8 8 = 0 then 10 else c.fld (llR 0x20) 8 8))

/-- 21 R472 to R477, R481 to R483, 05 R136: the reset causes keep what their scope keeps and record their cause; the end of reset;
clock monitors, supply supervisors, the temperature thresholds, the fault log, watchdogs and the millisecond source. -/
def Obligations.ResetsAndFaults : Prop := ∀ (s : State) (ini : Initiator) (boot : BitVec 2) (sl : Fin 12) (i : Fin 12) (x : Fin 4) (on : Bool)
    (tj : BitVec 16) (e : FltEntry) (rest : List FltEntry) (k : Fin 8) (v : Word) (n : Fin 384),
  let c := s.chip
  let blank (t : State) : Prop := t.chip.mem = [] ∧ t.chip.power.mode = .run ∧ t.chip.devState = 0 ∧ bootMode t.chip = boot.toNat ∧
    t.chip.cmd.session = none ∧ (c.sec.fprog = none → t.chip.fuses = c.fuses)
  let kept (t : State) (cause : Nat) : Prop := blank t ∧ t.chip.bit 0x43000200 cause = true ∧ t.chip.reg (sysR 0x1C) = c.reg (sysR 0x1C) ∧
    t.chip.reg (sysR 0x20) = c.reg (sysR 0x20) ∧ ∀ w : Fin 8, t.chip.reg (winlpR w.val 0) = c.reg (winlpR w.val 0)
  let fields := [e.w1, e.w2, e.w3]
  let mine := iniCode ini = some (c.fld (wdgR k.val 0) 1 5) ∧ wdgEn c k.val = true ∧ c.grants ini (wdgR k.val 8) true
  let expired (t : State) : Prop := t.chip.bit (wdgR k.val 0xC) 17 = true ∧ fltPending t.chip (184 + k.val) = true ∧
    t.chip.power.wdgs[k] = c.power.aon
  let hot := signed 16 (c.fld (sysR 0x28) 0 16)
  (Goes (.powerOnReset boot) s fun t => blank t ∧ t.chip.reg (sysR 0x1C) = resetVal (sysR 0x1C)) ∧
  (Goes (.resetN boot) s fun t => kept t 1) ∧
  (Goes (.supplyBelowThreshold boot) s fun t => kept t 2) ∧
  (s.inRun → (c.now, .resetEnd) ∈ c.agenda → Goes .resetEnd s fun t => causeOn t.chip sl.val causeStop = true ∧
    t.chip.reg 0x50000004 = c.fuses.devid.truncate 32 ∧ (coreGet t.chip .mge).inReset = false ∧ (∀ g ∈ t.chip.agenda, g.2 ≠ .resetEnd)) ∧
  (s.inRun →
    (Goes (.sliceResetEnd sl) s fun t => t.chip.slices[sl].resetUntil = none ∧ t.chip.regs = c.regs) ∧
    (c.bit (sysR 0x100) i.val = false → Goes (.clockMonitor i) s fun t => t.chip.bit (sysR 0x100) i.val = true ∧
      t.chip.bit (sysR 0x100) (16 + i.val) = true ∧ fltPending t.chip (160 + i.val) = true ∧
      (∀ j ∈ monitorFeeds i.val, t.chip.bit (sysR 0x100) j = true) ∧
      (i = 2 ∨ i = 4 → causeOn t.chip sl.val causeClkloss = true)) ∧
    (c.bit (sysR 0x100) i.val = true → Goes (.clockMonitorEnd i) s fun t => t.chip.bit (sysR 0x100) i.val = false ∧
      160 + i.val ∉ t.chip.flt.live ∧ RegsBut s t [sysR 0x100]) ∧
    (Goes .clkloss s fun t => causeOn t.chip sl.val causeClkloss = true) ∧
    (Goes (.supplySupervisor x true) s fun t => t.chip.bit (sysR 4) x.val = true ∧ fltPending t.chip (172 + x.val) = true) ∧
    (Goes (.supplySupervisor x false) s fun t => t.chip.bit (sysR 4) x.val = false ∧ 172 + x.val ∉ t.chip.flt.live ∧ RegsBut s t [sysR 4]) ∧
    (Goes (.temperatureThreshold tj) s fun t => t.chip.reg (sysR 0x24) = tj.zeroExtend 32 ∧
      (176 ∉ c.flt.live → hot ≤ tj.toInt → t.chip.bit (sysR 4) 10 = true ∧ fltPending t.chip 176 = true) ∧
      (c.flt.live = [] → tj.toInt < hot → tj.toInt < signed 16 (c.fld (sysR 0x28) 16 16) → RegsBut s t [sysR 0x24])) ∧
    (c.grants ini (sysR 0x1440) false → c.flt.log = e :: rest → Goes (.fltLog0 ini) s fun t => t.chip.got = some e.w0 ∧
      t.chip.flt.log = rest ∧ (∀ j : Fin 3, t.chip.reg (sysR (0x1444 + 4 * j.val)) = fields.getD j.val 0) ∧
      RegsBut s t [sysR 0x1444, sysR 0x1448, sysR 0x144C]) ∧
    (c.grants ini (wdgR k.val 0) true → c.sealed = false → Goes (.wdgCfg ini k v) s fun t => t.chip.reg (wdgR k.val 0) = v &&& 0x3FFFFF ∧
      (v.bit 0 = true → wdgEn c k.val = false → t.chip.power.wdgs[k] = c.power.aon) ∧ RegsBut s t [wdgR k.val 0]) ∧
    (mine → v = 0x5AC3 → c.fld (wdgR k.val 4) 0 16 ≤ wdgCount c k → (c.power.aon + 1 - c.power.wdgs[k]) / 500 < wdgTimeout c k.val → Goes (.wdgKick ini k v) s fun t =>
      t.chip.power.wdgs[k] = c.power.aon ∧ t.chip.regs = c.regs) ∧
    (mine → v ≠ 0x5AC3 ∨ wdgCount c k < c.fld (wdgR k.val 4) 0 16 ∨ wdgTimeout c k.val ≤ (c.power.aon + 1 - c.power.wdgs[k]) / 500 →
      Goes (.wdgKick ini k v) s expired) ∧
    (iniCode ini ≠ some (c.fld (wdgR k.val 0) 1 5) ∨ wdgEn c k.val = false → c.grants ini (wdgR k.val 8) true →
      Goes (.wdgKick ini k v) s fun t => t.chip.power = c.power ∧ t.chip.regs = c.regs) ∧
    (wdgEn c k.val = true → Goes (.wdgWarn k) s fun t => t.chip.reg (wdgR k.val 0xC) = c.reg (wdgR k.val 0xC) ||| 0x10000 ∧
      RegsBut s t [wdgR k.val 0xC]) ∧
    (wdgEn c k.val = true → Goes (.wdgExpiry k) s expired) ∧
    (511 ∉ c.evm.pulsed → (evmReg c (evmRowR 511 (n.val / 32))).bit (n.val % 32) = true →
      (∀ q ∈ c.evm.pipe, ¬ (q.due = c.now + 2 ∧ q.ch = n.val)) → Goes .millisecondTick s fun t =>
        (c.now + 2, .consumerPulse n) ∈ t.chip.agenda ∧ (∃ q ∈ t.chip.evm.pipe, q.due = c.now + 2 ∧ q.ch = n.val) ∧ t.chip.regs = c.regs))

/-- 00 R4, R7, R8, 01 R12, R13, R24, 21 R466: a register write sets the writable bits of a plain register alone and a word of system
SRAM alone; an access that is misaligned, refused, outside the plane or to a domain without power ends with an error response and
changes no register but the flag or the fault that reports it. Reading a read-to-clear counter answers its value and leaves 0, and
nothing else changes. -/
def Obligations.RegisterAccess : Prop :=
  (∀ (s : State) (ini : Initiator) (a v : Word),
    s.inRun →
    let c := s.chip
    let n := a.toNat
    let staged := schR 0 ≤ n ∧ n < schR 0x18
    let plain : List (Nat × Word) := [(sysR 0x18, 0xFF), (sysR 0x28, 0xFFFFFFFF), (memR 0x50, 0xFFFFFFFF), (triR 0, 0xFF), (llR 0x20, 0xFF07),
      (0x4500800C, 0xFFFF), (0x4108000C, 0xFFFFFFFF), (pwmR 95 0x30, 0x03FF03FF)]
    (c.grants ini n true → n % 4 = 0 → registerRange n = true → ¬ staged →
      exec (.registerWrite ini a v) s = .next (s.after (fun c => regWrite ini n v c.ack))) ∧
    (c.sealed = false → c.grants ini n true → ∀ e ∈ plain, n = e.1 → Goes (.registerWrite ini a v) s fun t =>
      t.chip.resp.ok = true ∧ t.chip.reg n = (c.reg n &&& ~~~ e.2) ||| (v &&& e.2) ∧ t.chip.mem = c.mem ∧ RegsBut s t [n]) ∧
    (c.grants ini n true → n % 4 = 0 → 0x10000000 ≤ n → n < 0x11000000 → c.ecc.bad = [] → Goes (.registerWrite ini a v) s fun t =>
      t.chip.resp.ok = true ∧ (∀ i : Fin 4, memByte t.chip (n + i.val) = BitVec.ofNat 8 (v.toNat / 256 ^ i.val)) ∧
      (∀ k, k < n ∨ n + 4 ≤ k → memByte t.chip k = memByte c k) ∧ t.chip.regs = c.regs) ∧
    (n % 4 ≠ 0 → exec (.registerWrite ini a v) s = .next (s.after Chip.err)) ∧
    (n % 4 = 0 → registerRange n = true → ¬ staged →
      (verdict c ini n true = .refused → exec (.registerWrite ini a v) s = .next (s.after Chip.err)) ∧
      (verdict c ini n true = .off → Goes (.registerWrite ini a v) s fun t => t.chip.resp.ok = false ∧
        t.chip.reg (sysR 4) = c.reg (sysR 4) ||| 0x200 ∧ t.chip.mem = c.mem ∧ RegsBut s t [sysR 4]) ∧
      (verdict c ini n true = .violation → Goes (.registerWrite ini a v) s fun t => t.chip.resp.ok = false ∧
        fltPending t.chip 32 = true ∧ t.chip.mem = c.mem))) ∧
  (∀ (s : State) (ini : Initiator) (k : Fin 32) (x : Fin 12) (p : Fin 8) (n : Fin 96) (q : Port)
      (i : Fin 16),
    s.inRun →
    let c := s.chip
    let open_ (a : Nat) : Prop := c.grants ini a false
    let clears (a : Nat) (t : State) : Prop := t.chip.mem = c.mem ∧ RegsBut s t [a] ∧
      (aget c.counted a = none → t.chip.got = some (c.reg a) ∧ t.chip.reg a = 0) ∧
      (∀ b, aget c.counted a = some b → t.chip.got = some b.1 ∧ t.chip.reg a = b.2)
    (open_ (adcR k.val 0x20) → Goes (.adcCnt ini k) s (clears (adcR k.val 0x20))) ∧
    (open_ (xlR x.val 0x10) → Goes (.xlCnt ini x) s (clears (xlR x.val 0x10))) ∧
    (open_ (schP p.val 0x10) → Goes (.schLatecnt ini p) s (clears (schP p.val 0x10))) ∧
    (open_ (schP p.val 0x14) → Goes (.schSkipcnt ini p) s (clears (schP p.val 0x14))) ∧
    (open_ (pwmR n.val 0x50) → Goes (.pwmPulsecnt ini n) s (clears (pwmR n.val 0x50))) ∧
    (open_ (pwmR n.val 0x90) → Goes (.pwmCmtcnt ini n) s (clears (pwmR n.val 0x90))) ∧
    (open_ (triR 0x18) → Goes (.triSynccnt ini) s (clears (triR 0x18))) ∧
    (open_ (memR 0x48) → Goes (.memCecnt ini) s (clears (memR 0x48))) ∧
    (open_ (memR 0x4C) → Goes (.memUecnt ini) s (clears (memR 0x4C))) ∧
    (open_ (llP q 0x18) → Goes (.llCrccnt ini q) s (clears (llP q 0x18))) ∧
    (open_ (llP q 0x1C) → Goes (.llCtlcnt ini q) s (clears (llP q 0x1C))) ∧
    (open_ (llP q 0x20) → Goes (.llReplcnt ini q) s (clears (llP q 0x20))) ∧
    (open_ (llP q 0x24) → Goes (.llDropcnt ini q) s (clears (llP q 0x24))) ∧
    (open_ (llR 0x40) → Goes (.llBrcnt ini) s (clears (llR 0x40))) ∧
    (open_ (cmdR 0x18) → Goes (.cmdRejcnt ini) s (clears (cmdR 0x18))) ∧
    (open_ (tevR i.val 0x1C) → Goes (.netTevmiss ini i) s (clears (tevR i.val 0x1C))) ∧
    (open_ (sysR 0x1454) → Goes (.fltLost ini) s (clears (sysR 0x1454))))
end

