-- ==== Sys2Proof/Laws/Sparse.lean ====
section
/-! SUPPORT. Laws of the sparse maps: read after write, and the canonical form that every write keeps. -/

namespace Sys2Proof.Machine

variable {α : Type}

theorem aget_adel_self (xs : List (Nat × α)) (a : Nat) : aget (adel xs a) a = none := by
  induction xs with
  | nil => rfl
  | cons e xs ih =>
    obtain ⟨k, v⟩ := e
    by_cases h : k = a
    · simp [adel, h, ih]
    · simp [adel, aget, h, ih]

theorem aget_adel_ne (xs : List (Nat × α)) {a b : Nat} (h : b ≠ a) : aget (adel xs a) b = aget xs b := by
  induction xs with
  | nil => rfl
  | cons e xs ih =>
    obtain ⟨k, v⟩ := e
    by_cases hk : k = a
    · subst hk; simp [adel, aget, ih, Ne.symm h]
    · simp [adel, aget, hk, ih]

theorem aget_aput_self (xs : List (Nat × α)) (a : Nat) (v : α) : aget (aput xs a v) a = some v := by
  induction xs with
  | nil => simp [aput, aget]
  | cons e xs ih =>
    obtain ⟨k, w⟩ := e
    by_cases hk : k = a
    · simp [aput, aget, hk]
    · by_cases hl : a < k
      · simp [aput, aget, hk, hl]
      · simp [aput, aget, hk, hl, ih]

theorem aget_aput_ne (xs : List (Nat × α)) {a b : Nat} (v : α) (h : b ≠ a) : aget (aput xs a v) b = aget xs b := by
  induction xs with
  | nil => simp [aput, aget, Ne.symm h]
  | cons e xs ih =>
    obtain ⟨k, w⟩ := e
    by_cases hk : k = a
    · subst hk; simp [aput, aget, Ne.symm h]
    · by_cases hl : a < k
      · simp [aput, aget, hk, hl, Ne.symm h]
      · simp [aput, aget, hk, hl, ih]

variable [DecidableEq α]

/-- A read after a write to the same key gives the value written. -/
@[simp] theorem aread_aset_self (d : α) (xs : List (Nat × α)) (a : Nat) (v : α) : aread d (aset d xs a v) a = v := by
  by_cases h : v = d
  · simp [aread, aset, h, aget_adel_self]
  · simp [aread, aset, h, aget_aput_self]

/-- A write leaves what every other key reads as. -/
theorem aread_aset_ne (d d' : α) (xs : List (Nat × α)) {a b : Nat} (v : α) (h : b ≠ a) :
    aread d' (aset d xs a v) b = aread d' xs b := by
  by_cases hv : v = d
  · simp [aread, aset, hv, aget_adel_ne xs h]
  · simp [aread, aset, hv, aget_aput_ne xs v h]

/-! ### The canonical form -/

/-- The canonical form as a property of the whole list. -/
theorem awf_iff (dflt : Nat → α) (xs : List (Nat × α)) :
    awf dflt xs = true ↔ (∀ e ∈ xs, e.2 ≠ dflt e.1) ∧ xs.Pairwise (fun e f => e.1 < f.1) := by
  induction xs with
  | nil => simp [awf]
  | cons e xs ih =>
    obtain ⟨k, v⟩ := e
    cases xs with
    | nil => simp [awf]
    | cons f ys =>
      obtain ⟨k', v'⟩ := f
      simp only [awf, Bool.and_eq_true, Bool.not_eq_true', decide_eq_false_iff_not, decide_eq_true_eq, ih,
        List.forall_mem_cons, List.pairwise_cons]
      constructor
      · rintro ⟨⟨hv, hk⟩, ⟨hv', hys⟩, hk', hp⟩
        exact ⟨⟨hv, hv', hys⟩, ⟨hk, fun g hg => lt_trans hk (hk' g hg)⟩, hk', hp⟩
      · rintro ⟨⟨hv, hv', hys⟩, ⟨hk, -⟩, hk', hp⟩
        exact ⟨⟨hv, hk⟩, ⟨hv', hys⟩, hk', hp⟩

omit [DecidableEq α] in
theorem adel_eq_filter (xs : List (Nat × α)) (a : Nat) : adel xs a = xs.filter (fun e => decide (e.1 ≠ a)) := by
  induction xs with
  | nil => rfl
  | cons e xs ih =>
    obtain ⟨k, v⟩ := e
    by_cases h : k = a <;> simp [adel, h, ih]

theorem awf_filter (dflt : Nat → α) {xs : List (Nat × α)} (p : Nat × α → Bool) (h : awf dflt xs = true) :
    awf dflt (xs.filter p) = true := by
  rw [awf_iff] at h ⊢
  exact ⟨fun e he => h.1 e (List.mem_of_mem_filter he), h.2.filter p⟩

omit [DecidableEq α] in
theorem mem_aput {xs : List (Nat × α)} {a : Nat} {v : α} {e : Nat × α} (h : e ∈ aput xs a v) : e = (a, v) ∨ e ∈ xs := by
  induction xs with
  | nil => simpa [aput] using h
  | cons f xs ih =>
    obtain ⟨k, w⟩ := f
    by_cases hk : k = a
    · subst hk
      rcases List.mem_cons.1 (by simpa [aput] using h) with h | h
      · exact .inl h
      · exact .inr (List.mem_cons_of_mem _ h)
    · by_cases hl : a < k
      · have h : e = (a, v) ∨ e ∈ (k, w) :: xs := by simpa [aput, hk, hl] using h
        exact h
      · rcases List.mem_cons.1 (by simpa [aput, hk, hl] using h) with h | h
        · exact .inr (by simp [h])
        · rcases ih h with h | h
          · exact .inl h
          · exact .inr (List.mem_cons_of_mem _ h)

omit [DecidableEq α] in
theorem aput_sorted {xs : List (Nat × α)} (a : Nat) (v : α) (h : xs.Pairwise (fun e f => e.1 < f.1)) :
    (aput xs a v).Pairwise (fun e f => e.1 < f.1) := by
  induction xs with
  | nil => simp [aput]
  | cons f xs ih =>
    obtain ⟨k, w⟩ := f
    rw [List.pairwise_cons] at h
    by_cases hk : k = a
    · subst hk; simpa [aput] using h
    · by_cases hl : a < k
      · have e1 : aput ((k, w) :: xs) a v = (a, v) :: (k, w) :: xs := by simp [aput, hk, hl]
        rw [e1, List.pairwise_cons, List.pairwise_cons, List.forall_mem_cons]
        exact ⟨⟨hl, fun e he => lt_trans hl (h.1 e he)⟩, h.1, h.2⟩
      · simp only [aput, hk, hl, if_false, List.pairwise_cons]
        refine ⟨fun e he => ?_, ih h.2⟩
        rcases mem_aput he with rfl | he
        · simp only; omega
        · exact h.1 e he

/-- Every write keeps the canonical form. -/
theorem awf_aset (dflt : Nat → α) {xs : List (Nat × α)} (a : Nat) (v : α) (h : awf dflt xs = true) :
    awf dflt (aset (dflt a) xs a v) = true := by
  by_cases hv : v = dflt a
  · simp only [aset, hv, if_true, adel_eq_filter]
    exact awf_filter dflt _ h
  · simp only [aset, hv, if_false]
    rw [awf_iff] at h ⊢
    refine ⟨fun e he => ?_, aput_sorted a v h.2⟩
    rcases mem_aput he with rfl | he
    · exact hv
    · exact h.1 e he

theorem awf_adrop (dflt : Nat → α) {xs : List (Nat × α)} (lo n : Nat) (h : awf dflt xs = true) :
    awf dflt (adrop lo n xs) = true := awf_filter dflt _ h

/-! ### Updates of a vector -/

omit [DecidableEq α] in
@[simp] theorem vmod_get {n : Nat} (xs : Vector α n) (i : Fin n) (f : α → α) : (vmod xs i f)[i] = f xs[i] := by
  simp [vmod]

omit [DecidableEq α] in
theorem vmod_get_ne {n : Nat} (xs : Vector α n) {i j : Fin n} (f : α → α) (h : j ≠ i) : (vmod xs i f)[j] = xs[j] := by
  simp only [vmod, Fin.getElem_fin]
  exact Vector.getElem_set_ne _ _ (fun h' => h (Fin.ext h'.symm))

omit [DecidableEq α] in
theorem vmod_same {n : Nat} (xs : Vector α n) (i : Fin n) (f : α → α) (h : f xs[i] = xs[i]) : vmod xs i f = xs := by
  rw [vmod, h]; simp

omit [DecidableEq α] in
theorem vmod_vmod {n : Nat} (xs : Vector α n) (i : Fin n) (f g : α → α) :
    vmod (vmod xs i f) i g = vmod xs i (fun x => g (f x)) := by
  simp [vmod]

end Sys2Proof.Machine
end

