-- ==== Sys2Proof/Laws/Core.lean ====
section
/-! SUPPORT. What a ready core does with an instruction, said once for every instruction of the Nalruek cores. -/

namespace Sys2Proof.Machine

/-! ### Cores and banks -/

@[simp] theorem coreGet_updCore (c : Chip) (k : CoreId) (f : CoreS → CoreS) : coreGet (updCore k f c) k = f (coreGet c k) :=
  vmod_get c.cores (coreIx k) f

@[simp] theorem bankGet_updBank (c : Chip) (k : CoreId) (b : Fin 8) (f : BankS → BankS) :
    bankGet (updBank k b f c) k b = f (bankGet c k b) := by
  simp only [bankGet, updBank, coreGet_updCore]
  exact vmod_get (coreGet c k).banks b f

theorem updCore_same {c : Chip} {k : CoreId} {f : CoreS → CoreS} (h : f (coreGet c k) = coreGet c k) : updCore k f c = c := by
  simp [updCore, vmod_same _ _ _ h]

theorem updCore_updCore (c : Chip) (k : CoreId) (f g : CoreS → CoreS) :
    updCore k g (updCore k f c) = updCore k (fun s => g (f s)) c := by
  simp [updCore, vmod_vmod]

theorem updBank_updBank (c : Chip) (k : CoreId) (b : Fin 8) (f g : BankS → BankS) :
    updBank k b g (updBank k b f c) = updBank k b (fun x => g (f x)) c := by
  simp only [updBank, updCore_updCore]
  simp [vmod_vmod]

theorem updBank_congr {c : Chip} {k : CoreId} {b : Fin 8} {f g : BankS → BankS} (h : f (bankGet c k b) = g (bankGet c k b)) :
    updBank k b f c = updBank k b g c := by
  simp only [updBank, updCore, vmod]
  have : f ((c.cores[coreIx k]).banks[b]) = g ((c.cores[coreIx k]).banks[b]) := h
  rw [this]

/-! ### The ports of memories -/

/-- A use of a memory's port changes nothing but the note of it. -/
theorem portUse_eq (c : Chip) (k : Nat) : ∃ e, portUse k c = { c with ecc := e } := by
  unfold portUse
  split
  · split
    · exact ⟨c.ecc, rfl⟩
    · exact ⟨_, rfl⟩
  · exact ⟨c.ecc, rfl⟩

@[simp] theorem portUse_mem (c : Chip) (k : Nat) : (portUse k c).mem = c.mem := by obtain ⟨e, h⟩ := portUse_eq c k; rw [h]
@[simp] theorem portUse_cores (c : Chip) (k : Nat) : (portUse k c).cores = c.cores := by obtain ⟨e, h⟩ := portUse_eq c k; rw [h]
@[simp] theorem portUse_regs (c : Chip) (k : Nat) : (portUse k c).regs = c.regs := by obtain ⟨e, h⟩ := portUse_eq c k; rw [h]

/-! ### Waiting for outstanding instructions -/

theorem completeIf_none {c : Chip} {k : CoreId} (p : LongOp → Bool) (h : (coreGet c k).long = []) : completeIf k p c = c := by
  simp only [completeIf, h, List.filter_nil, List.foldl_nil]
  exact updCore_same (by
    generalize coreGet c k = s at h
    cases s; simp_all)

theorem waitFor_none {c : Chip} {k : CoreId} (sp : Spec) (cond : BitVec 4) (h : (coreGet c k).long = []) :
    waitFor k sp cond c = c := by
  simp only [waitFor, completeIf_none _ h, h]

/-! ### The instruction of a ready core -/

variable {h : Hdr} {sp : Spec} {body : Cx → Chip → Flow × Chip} {c : Chip} {b : Fin 8}

/-- Lanes that hold the same execute as one. -/
theorem eachLane_same {k : CoreId} (f : Chip → Chip) (h : k = .triton → lanesSame c = true ∧ syncLane c = none) :
    eachLane k f c = f c := by
  unfold eachLane
  split
  · next e => simp [h e.1] at e
  · rfl

/-- No bank of a core without waiting loads is stalled. -/
theorem stalled_none {k : CoreId} (h : (coreGet c k).stalls = []) : stalled c k b = false := by simp [stalled, h]

/-- A ready core executes the instruction at its bank's address. -/
theorem instr_at (r : Ready c h.core b h.len) : instr h sp body c = instrAt h sp b body c := by
  simp only [instr]
  rw [eachLane_same _ (fun e => (r.lanes e).2)]
  simp [r.running, r.live, stalled_none r.free, r.awake]

/-- Where the instruction of a ready core executes. -/
def cxOf (c : Chip) (h : Hdr) (b : Fin 8) : Cx :=
  { k := h.core, b := b, pc := (bankGet c h.core b).pc, nxt := (bankGet c h.core b).pc + BitVec.ofNat 32 h.len, cond := h.cond,
    due := recogDue c h.core }

/-- The chip once the instruction of bank `b` is fetched. -/
def fetched (c : Chip) (h : Hdr) (b : Fin 8) : Chip := fetchMark h.core (bankGet c h.core b).pc c

/-- A fetch changes nothing of a core. -/
@[simp] theorem fetched_cores : (fetched c h b).cores = c.cores := by
  unfold fetched fetchMark
  repeat' split
  all_goals simp

@[simp] theorem bankGet_fetched (k : CoreId) (b' : Fin 8) : bankGet (fetched c h b) k b' = bankGet c k b' := by
  simp [bankGet, coreGet]

/-- The fetch of a ready core, whatever the condition of the instruction. -/
theorem Ready.fetchOk (r : Ready c h.core b h.len) : fetchOk (cxOf c h b) h.len c = (true, fetched c h b) := r.fetch

/-- A ready core executes an instruction that decodes: its condition is judged and its body runs. -/
theorem instr_ready (r : Ready c h.core b h.len) (hd : decodeOk h.core sp = true) :
    instr h sp body c = execBody h sp (cxOf c h b) body (fetched c h b) := by
  have e : updCore h.core (fun s => { s with afterSt := false }) c = c := updCore_same (by rw [← r.plain])
  have hr : repOk (bankGet (fetched c h b) h.core b) sp = true := by simp [repOk, r.noRep]
  have hf := r.fetchOk
  simp only [cxOf] at hf
  simp only [instr_at r, instrAt, e, bankPc, r.noRestart, waitFor_none _ _ r.done, pendingError, r.noDev, r.noAsync,
    hf, hd, hr, Bool.not_true, Bool.false_eq_true, if_false, Bool.and_self, cxOf]

/-- The fall-through of a ready core: PC moves to the next instruction. -/
theorem instrDone_ready {c' : Chip} {cx : Cx} (hr : (bankGet c' cx.k cx.b).rep = none) (hs : (bankGet c' cx.k cx.b).restart = []) :
    instrDone cx c' = updBank cx.k cx.b (fun x => { x with pc := cx.nxt }) c' := by
  simp only [instrDone]
  exact updBank_congr (by simp [hr, hs])

/-- An instruction that does not decode raises the illegal-instruction exception (11 R256), unless recognition wins (13 R316). -/
theorem instr_illegal (r : Ready c h.core b h.len) (hd : decodeOk h.core sp = false) :
    instr h sp body c = stopAt (cxOf c h b) 2 none 0 c (fetched c h b) := by
  have e : updCore h.core (fun s => { s with afterSt := false }) c = c := updCore_same (by rw [← r.plain])
  have hf := r.fetchOk
  simp only [cxOf] at hf
  simp only [instr_at r, instrAt, e, bankPc, r.noRestart, waitFor_none _ _ r.done, pendingError, r.noDev, r.noAsync,
    hf, hd, Bool.not_true, Bool.false_eq_true, if_false, Bool.false_and, Bool.not_false, if_true, cxOf]

/-- An instruction whose condition fails only moves PC on (11 R256). -/
theorem instr_skipped (r : Ready c h.core b h.len) (hd : decodeOk h.core sp = true)
    (hc : condHolds (bankGet c h.core b).st h.cond = false) :
    instr h sp body c = updBank h.core b (fun x => { x with pc := x.pc + BitVec.ofNat 32 h.len }) (fetched c h b) := by
  rw [instr_ready r hd]
  simp only [execBody, cxOf, bankGet_fetched, hc, Bool.not_false, if_true]
  rw [instrDone_ready (by simpa using r.noRep) (by simpa using r.noRestart)]
  exact updBank_congr (by simp)

/-- An instruction of the bank alone: its effect, and PC at the next instruction. -/
theorem instr_onBank {f : BankS → BankS} (r : Ready c h.core b h.len) (hd : decodeOk h.core sp = true) (hf : sp.fp = false)
    (hc : condHolds (bankGet c h.core b).st h.cond = true) (hr : (f (bankGet c h.core b)).rep = none)
    (hs : (f (bankGet c h.core b)).restart = []) :
    instr h sp (onBank f) c = updBank h.core b (fun x => { f x with pc := x.pc + BitVec.ofNat 32 h.len }) (fetched c h b) := by
  rw [instr_ready r hd]
  simp only [execBody, cxOf, bankGet_fetched, hc, Bool.not_true, Bool.false_and, Bool.false_eq_true, if_false, hf, onBank, finish]
  rw [instrDone_ready (by simpa using hr) (by simpa using hs), updBank_updBank]
  exact updBank_congr (by simp)

/-- A command of the chip in RUN. -/
theorem onChip_run {s : State} {f : Chip → Chip} (hr : s.inRun) : s.onChip f = .next (s.after f) := by
  simp only [State.onChip, awake, State.after]
  rw [show s.chip.power.mode = .run from hr]

theorem Ready.inRun {s : State} {k : CoreId} {len : Nat} (r : Ready s.chip k b len) : s.inRun := by
  have := r.live
  simp only [coreLive, Bool.and_eq_true, beq_iff_eq] at this
  exact this.1.2

/-- What the instructions of both core kinds need to decode: their registers exist. -/
theorem decodeOk_g {k : CoreId} {ws rs : List (Fin 32)} {fl : List Nat} (hg : hasRegs k (ws ++ rs)) :
    decodeOk k (gSpec ws rs fl) = true := by
  simp only [decodeOk, gSpec, Bool.true_and]
  split
  · rename_i hk
    exact List.all_eq_true.2 (fun r hr => decide_eq_true (hg hk r hr))
  · rfl

theorem hasRegs.mono {k : CoreId} {xs ys : List (Fin 32)} (h : hasRegs k ys) (hs : ∀ r ∈ xs, r ∈ ys) : hasRegs k xs :=
  fun hk r hr => h hk r (hs r hr)

/-- The next state of an instruction of the bank alone. -/
theorem runs_onBank {s : State} {rs : List (Fin 32)} {f g : BankS → BankS} (r : Runs s h b rs) (hd : decodeOk h.core sp = true)
    (hf : sp.fp = false) (hr : (f (s.bank h b)).rep = (s.bank h b).rep) (hs : (f (s.bank h b)).restart = (s.bank h b).restart)
    (e : f (s.bank h b) = g (s.bank h b)) :
    s.onChip (instr h sp (onBank f)) = .next (s.bankStep h b g) := by
  rw [onChip_run r.ready.inRun]
  simp only [State.bankStep, State.fetched, State.after]
  rw [instr_onBank r.ready hd hf r.cond (hr.trans r.ready.noRep) (hs.trans r.ready.noRestart)]
  congr 2
  have e' : f (bankGet (fetched s.chip h b) h.core b) = g (bankGet (fetched s.chip h b) h.core b) := by
    simpa [State.bank] using e
  exact updBank_congr (by rw [e'])

theorem decodeOk_nkl {k : CoreId} {sp : Spec} (hk : k.isNKS = false) (ho : sp.ok = true) (hn : sp.nkl = true) :
    decodeOk k sp = true := by
  simp [decodeOk, hk, ho, hn]

theorem decodeOk_nks {k : CoreId} {sp : Spec} (hk : k.isNKS = true) (ho : sp.ok = true) (hn : sp.nks = true)
    (hg : hasRegs k sp.gs) : decodeOk k sp = true := by
  simp only [decodeOk, hk, ho, hn, if_true, Bool.true_and]
  exact List.all_eq_true.2 (fun r hr => decide_eq_true (hg hk r hr))

end Sys2Proof.Machine
end

