-- ==== Sys2Proof/Laws/State.lean ====
section
/-! SUPPORT. One lemma per field of the chip for each of its updates: what an update leaves as it was. -/

namespace Sys2Proof.Machine

variable (c : Chip)

@[simp] theorem Chip.setReg_now (a : Nat) (v : Word) : (c.setReg a v).now = c.now := rfl
@[simp] theorem Chip.setReg_fresh (a : Nat) (v : Word) : (c.setReg a v).fresh = c.fresh := rfl
@[simp] theorem Chip.setReg_regs0 (a : Nat) (v : Word) : (c.setReg a v).regs0 = c.regs0 := rfl
@[simp] theorem Chip.setReg_regs1 (a : Nat) (v : Word) : (c.setReg a v).regs1 = c.regs1 := rfl
@[simp] theorem Chip.setReg_hwset (a : Nat) (v : Word) : (c.setReg a v).hwset = c.hwset := rfl
@[simp] theorem Chip.setReg_counted (a : Nat) (v : Word) : (c.setReg a v).counted = c.counted := rfl
@[simp] theorem Chip.setReg_mem (a : Nat) (v : Word) : (c.setReg a v).mem = c.mem := rfl
@[simp] theorem Chip.setReg_agenda (a : Nat) (v : Word) : (c.setReg a v).agenda = c.agenda := rfl
@[simp] theorem Chip.setReg_resp (a : Nat) (v : Word) : (c.setReg a v).resp = c.resp := rfl
@[simp] theorem Chip.setReg_evm (a : Nat) (v : Word) : (c.setReg a v).evm = c.evm := rfl
@[simp] theorem Chip.setReg_pbs (a : Nat) (v : Word) : (c.setReg a v).pbs = c.pbs := rfl
@[simp] theorem Chip.setReg_caps (a : Nat) (v : Word) : (c.setReg a v).caps = c.caps := rfl
@[simp] theorem Chip.setReg_sched (a : Nat) (v : Word) : (c.setReg a v).sched = c.sched := rfl
@[simp] theorem Chip.setReg_pwms (a : Nat) (v : Word) : (c.setReg a v).pwms = c.pwms := rfl
@[simp] theorem Chip.setReg_outs (a : Nat) (v : Word) : (c.setReg a v).outs = c.outs := rfl
@[simp] theorem Chip.setReg_adcs (a : Nat) (v : Word) : (c.setReg a v).adcs = c.adcs := rfl
@[simp] theorem Chip.setReg_sdms (a : Nat) (v : Word) : (c.setReg a v).sdms = c.sdms := rfl
@[simp] theorem Chip.setReg_wins (a : Nat) (v : Word) : (c.setReg a v).wins = c.wins := rfl
@[simp] theorem Chip.setReg_slices (a : Nat) (v : Word) : (c.setReg a v).slices = c.slices := rfl
@[simp] theorem Chip.setReg_xls (a : Nat) (v : Word) : (c.setReg a v).xls = c.xls := rfl
@[simp] theorem Chip.setReg_pea (a : Nat) (v : Word) : (c.setReg a v).pea = c.pea := rfl
@[simp] theorem Chip.setReg_peaBus (a : Nat) (v : Word) : (c.setReg a v).peaBus = c.peaBus := rfl
@[simp] theorem Chip.setReg_clus (a : Nat) (v : Word) : (c.setReg a v).clus = c.clus := rfl
@[simp] theorem Chip.setReg_flt (a : Nat) (v : Word) : (c.setReg a v).flt = c.flt := rfl
@[simp] theorem Chip.setReg_cores (a : Nat) (v : Word) : (c.setReg a v).cores = c.cores := rfl
@[simp] theorem Chip.setReg_tri (a : Nat) (v : Word) : (c.setReg a v).tri = c.tri := rfl
@[simp] theorem Chip.setReg_lanes (a : Nat) (v : Word) : (c.setReg a v).lanes = c.lanes := rfl
@[simp] theorem Chip.setReg_split (a : Nat) (v : Word) : (c.setReg a v).split = c.split := rfl
@[simp] theorem Chip.setReg_run (a : Nat) (v : Word) : (c.setReg a v).run = c.run := rfl
@[simp] theorem Chip.setReg_vote (a : Nat) (v : Word) : (c.setReg a v).vote = c.vote := rfl
@[simp] theorem Chip.setReg_ecc (a : Nat) (v : Word) : (c.setReg a v).ecc = c.ecc := rfl
@[simp] theorem Chip.setReg_tcmWin (a : Nat) (v : Word) : (c.setReg a v).tcmWin = c.tcmWin := rfl
@[simp] theorem Chip.setReg_dmas (a : Nat) (v : Word) : (c.setReg a v).dmas = c.dmas := rfl
@[simp] theorem Chip.setReg_fab (a : Nat) (v : Word) : (c.setReg a v).fab = c.fab := rfl
@[simp] theorem Chip.setReg_link (a : Nat) (v : Word) : (c.setReg a v).link = c.link := rfl
@[simp] theorem Chip.setReg_cmd (a : Nat) (v : Word) : (c.setReg a v).cmd = c.cmd := rfl
@[simp] theorem Chip.setReg_sec (a : Nat) (v : Word) : (c.setReg a v).sec = c.sec := rfl
@[simp] theorem Chip.setReg_fuses (a : Nat) (v : Word) : (c.setReg a v).fuses = c.fuses := rfl
@[simp] theorem Chip.setReg_pins (a : Nat) (v : Word) : (c.setReg a v).pins = c.pins := rfl
@[simp] theorem Chip.setReg_net (a : Nat) (v : Word) : (c.setReg a v).net = c.net := rfl
@[simp] theorem Chip.setReg_power (a : Nat) (v : Word) : (c.setReg a v).power = c.power := rfl
@[simp] theorem Chip.setReg_swept (a : Nat) (v : Word) : (c.setReg a v).swept = c.swept := rfl

@[simp] theorem Chip.setFld_now (a lo w x : Nat) : (c.setFld a lo w x).now = c.now := rfl
@[simp] theorem Chip.setFld_fresh (a lo w x : Nat) : (c.setFld a lo w x).fresh = c.fresh := rfl
@[simp] theorem Chip.setFld_regs0 (a lo w x : Nat) : (c.setFld a lo w x).regs0 = c.regs0 := rfl
@[simp] theorem Chip.setFld_regs1 (a lo w x : Nat) : (c.setFld a lo w x).regs1 = c.regs1 := rfl
@[simp] theorem Chip.setFld_hwset (a lo w x : Nat) : (c.setFld a lo w x).hwset = c.hwset := rfl
@[simp] theorem Chip.setFld_counted (a lo w x : Nat) : (c.setFld a lo w x).counted = c.counted := rfl
@[simp] theorem Chip.setFld_mem (a lo w x : Nat) : (c.setFld a lo w x).mem = c.mem := rfl
@[simp] theorem Chip.setFld_agenda (a lo w x : Nat) : (c.setFld a lo w x).agenda = c.agenda := rfl
@[simp] theorem Chip.setFld_resp (a lo w x : Nat) : (c.setFld a lo w x).resp = c.resp := rfl
@[simp] theorem Chip.setFld_evm (a lo w x : Nat) : (c.setFld a lo w x).evm = c.evm := rfl
@[simp] theorem Chip.setFld_pbs (a lo w x : Nat) : (c.setFld a lo w x).pbs = c.pbs := rfl
@[simp] theorem Chip.setFld_caps (a lo w x : Nat) : (c.setFld a lo w x).caps = c.caps := rfl
@[simp] theorem Chip.setFld_sched (a lo w x : Nat) : (c.setFld a lo w x).sched = c.sched := rfl
@[simp] theorem Chip.setFld_pwms (a lo w x : Nat) : (c.setFld a lo w x).pwms = c.pwms := rfl
@[simp] theorem Chip.setFld_outs (a lo w x : Nat) : (c.setFld a lo w x).outs = c.outs := rfl
@[simp] theorem Chip.setFld_adcs (a lo w x : Nat) : (c.setFld a lo w x).adcs = c.adcs := rfl
@[simp] theorem Chip.setFld_sdms (a lo w x : Nat) : (c.setFld a lo w x).sdms = c.sdms := rfl
@[simp] theorem Chip.setFld_wins (a lo w x : Nat) : (c.setFld a lo w x).wins = c.wins := rfl
@[simp] theorem Chip.setFld_slices (a lo w x : Nat) : (c.setFld a lo w x).slices = c.slices := rfl
@[simp] theorem Chip.setFld_xls (a lo w x : Nat) : (c.setFld a lo w x).xls = c.xls := rfl
@[simp] theorem Chip.setFld_pea (a lo w x : Nat) : (c.setFld a lo w x).pea = c.pea := rfl
@[simp] theorem Chip.setFld_peaBus (a lo w x : Nat) : (c.setFld a lo w x).peaBus = c.peaBus := rfl
@[simp] theorem Chip.setFld_clus (a lo w x : Nat) : (c.setFld a lo w x).clus = c.clus := rfl
@[simp] theorem Chip.setFld_flt (a lo w x : Nat) : (c.setFld a lo w x).flt = c.flt := rfl
@[simp] theorem Chip.setFld_cores (a lo w x : Nat) : (c.setFld a lo w x).cores = c.cores := rfl
@[simp] theorem Chip.setFld_tri (a lo w x : Nat) : (c.setFld a lo w x).tri = c.tri := rfl
@[simp] theorem Chip.setFld_lanes (a lo w x : Nat) : (c.setFld a lo w x).lanes = c.lanes := rfl
@[simp] theorem Chip.setFld_split (a lo w x : Nat) : (c.setFld a lo w x).split = c.split := rfl
@[simp] theorem Chip.setFld_run (a lo w x : Nat) : (c.setFld a lo w x).run = c.run := rfl
@[simp] theorem Chip.setFld_vote (a lo w x : Nat) : (c.setFld a lo w x).vote = c.vote := rfl
@[simp] theorem Chip.setFld_ecc (a lo w x : Nat) : (c.setFld a lo w x).ecc = c.ecc := rfl
@[simp] theorem Chip.setFld_tcmWin (a lo w x : Nat) : (c.setFld a lo w x).tcmWin = c.tcmWin := rfl
@[simp] theorem Chip.setFld_dmas (a lo w x : Nat) : (c.setFld a lo w x).dmas = c.dmas := rfl
@[simp] theorem Chip.setFld_fab (a lo w x : Nat) : (c.setFld a lo w x).fab = c.fab := rfl
@[simp] theorem Chip.setFld_link (a lo w x : Nat) : (c.setFld a lo w x).link = c.link := rfl
@[simp] theorem Chip.setFld_cmd (a lo w x : Nat) : (c.setFld a lo w x).cmd = c.cmd := rfl
@[simp] theorem Chip.setFld_sec (a lo w x : Nat) : (c.setFld a lo w x).sec = c.sec := rfl
@[simp] theorem Chip.setFld_fuses (a lo w x : Nat) : (c.setFld a lo w x).fuses = c.fuses := rfl
@[simp] theorem Chip.setFld_pins (a lo w x : Nat) : (c.setFld a lo w x).pins = c.pins := rfl
@[simp] theorem Chip.setFld_net (a lo w x : Nat) : (c.setFld a lo w x).net = c.net := rfl
@[simp] theorem Chip.setFld_power (a lo w x : Nat) : (c.setFld a lo w x).power = c.power := rfl
@[simp] theorem Chip.setFld_swept (a lo w x : Nat) : (c.setFld a lo w x).swept = c.swept := rfl

@[simp] theorem Chip.setBits_now (a m : Nat) : (c.setBits a m).now = c.now := rfl
@[simp] theorem Chip.setBits_fresh (a m : Nat) : (c.setBits a m).fresh = c.fresh := rfl
@[simp] theorem Chip.setBits_regs0 (a m : Nat) : (c.setBits a m).regs0 = c.regs0 := rfl
@[simp] theorem Chip.setBits_regs1 (a m : Nat) : (c.setBits a m).regs1 = c.regs1 := rfl
@[simp] theorem Chip.setBits_counted (a m : Nat) : (c.setBits a m).counted = c.counted := rfl
@[simp] theorem Chip.setBits_mem (a m : Nat) : (c.setBits a m).mem = c.mem := rfl
@[simp] theorem Chip.setBits_agenda (a m : Nat) : (c.setBits a m).agenda = c.agenda := rfl
@[simp] theorem Chip.setBits_resp (a m : Nat) : (c.setBits a m).resp = c.resp := rfl
@[simp] theorem Chip.setBits_evm (a m : Nat) : (c.setBits a m).evm = c.evm := rfl
@[simp] theorem Chip.setBits_pbs (a m : Nat) : (c.setBits a m).pbs = c.pbs := rfl
@[simp] theorem Chip.setBits_caps (a m : Nat) : (c.setBits a m).caps = c.caps := rfl
@[simp] theorem Chip.setBits_sched (a m : Nat) : (c.setBits a m).sched = c.sched := rfl
@[simp] theorem Chip.setBits_pwms (a m : Nat) : (c.setBits a m).pwms = c.pwms := rfl
@[simp] theorem Chip.setBits_outs (a m : Nat) : (c.setBits a m).outs = c.outs := rfl
@[simp] theorem Chip.setBits_adcs (a m : Nat) : (c.setBits a m).adcs = c.adcs := rfl
@[simp] theorem Chip.setBits_sdms (a m : Nat) : (c.setBits a m).sdms = c.sdms := rfl
@[simp] theorem Chip.setBits_wins (a m : Nat) : (c.setBits a m).wins = c.wins := rfl
@[simp] theorem Chip.setBits_slices (a m : Nat) : (c.setBits a m).slices = c.slices := rfl
@[simp] theorem Chip.setBits_xls (a m : Nat) : (c.setBits a m).xls = c.xls := rfl
@[simp] theorem Chip.setBits_pea (a m : Nat) : (c.setBits a m).pea = c.pea := rfl
@[simp] theorem Chip.setBits_peaBus (a m : Nat) : (c.setBits a m).peaBus = c.peaBus := rfl
@[simp] theorem Chip.setBits_clus (a m : Nat) : (c.setBits a m).clus = c.clus := rfl
@[simp] theorem Chip.setBits_flt (a m : Nat) : (c.setBits a m).flt = c.flt := rfl
@[simp] theorem Chip.setBits_cores (a m : Nat) : (c.setBits a m).cores = c.cores := rfl
@[simp] theorem Chip.setBits_tri (a m : Nat) : (c.setBits a m).tri = c.tri := rfl
@[simp] theorem Chip.setBits_lanes (a m : Nat) : (c.setBits a m).lanes = c.lanes := rfl
@[simp] theorem Chip.setBits_split (a m : Nat) : (c.setBits a m).split = c.split := rfl
@[simp] theorem Chip.setBits_run (a m : Nat) : (c.setBits a m).run = c.run := rfl
@[simp] theorem Chip.setBits_vote (a m : Nat) : (c.setBits a m).vote = c.vote := rfl
@[simp] theorem Chip.setBits_ecc (a m : Nat) : (c.setBits a m).ecc = c.ecc := rfl
@[simp] theorem Chip.setBits_tcmWin (a m : Nat) : (c.setBits a m).tcmWin = c.tcmWin := rfl
@[simp] theorem Chip.setBits_dmas (a m : Nat) : (c.setBits a m).dmas = c.dmas := rfl
@[simp] theorem Chip.setBits_fab (a m : Nat) : (c.setBits a m).fab = c.fab := rfl
@[simp] theorem Chip.setBits_link (a m : Nat) : (c.setBits a m).link = c.link := rfl
@[simp] theorem Chip.setBits_cmd (a m : Nat) : (c.setBits a m).cmd = c.cmd := rfl
@[simp] theorem Chip.setBits_sec (a m : Nat) : (c.setBits a m).sec = c.sec := rfl
@[simp] theorem Chip.setBits_fuses (a m : Nat) : (c.setBits a m).fuses = c.fuses := rfl
@[simp] theorem Chip.setBits_pins (a m : Nat) : (c.setBits a m).pins = c.pins := rfl
@[simp] theorem Chip.setBits_net (a m : Nat) : (c.setBits a m).net = c.net := rfl
@[simp] theorem Chip.setBits_power (a m : Nat) : (c.setBits a m).power = c.power := rfl
@[simp] theorem Chip.setBits_swept (a m : Nat) : (c.setBits a m).swept = c.swept := rfl

@[simp] theorem Chip.clrBits_now (a m : Nat) : (c.clrBits a m).now = c.now := rfl
@[simp] theorem Chip.clrBits_fresh (a m : Nat) : (c.clrBits a m).fresh = c.fresh := rfl
@[simp] theorem Chip.clrBits_regs0 (a m : Nat) : (c.clrBits a m).regs0 = c.regs0 := rfl
@[simp] theorem Chip.clrBits_regs1 (a m : Nat) : (c.clrBits a m).regs1 = c.regs1 := rfl
@[simp] theorem Chip.clrBits_hwset (a m : Nat) : (c.clrBits a m).hwset = c.hwset := rfl
@[simp] theorem Chip.clrBits_counted (a m : Nat) : (c.clrBits a m).counted = c.counted := rfl
@[simp] theorem Chip.clrBits_mem (a m : Nat) : (c.clrBits a m).mem = c.mem := rfl
@[simp] theorem Chip.clrBits_agenda (a m : Nat) : (c.clrBits a m).agenda = c.agenda := rfl
@[simp] theorem Chip.clrBits_resp (a m : Nat) : (c.clrBits a m).resp = c.resp := rfl
@[simp] theorem Chip.clrBits_evm (a m : Nat) : (c.clrBits a m).evm = c.evm := rfl
@[simp] theorem Chip.clrBits_pbs (a m : Nat) : (c.clrBits a m).pbs = c.pbs := rfl
@[simp] theorem Chip.clrBits_caps (a m : Nat) : (c.clrBits a m).caps = c.caps := rfl
@[simp] theorem Chip.clrBits_sched (a m : Nat) : (c.clrBits a m).sched = c.sched := rfl
@[simp] theorem Chip.clrBits_pwms (a m : Nat) : (c.clrBits a m).pwms = c.pwms := rfl
@[simp] theorem Chip.clrBits_outs (a m : Nat) : (c.clrBits a m).outs = c.outs := rfl
@[simp] theorem Chip.clrBits_adcs (a m : Nat) : (c.clrBits a m).adcs = c.adcs := rfl
@[simp] theorem Chip.clrBits_sdms (a m : Nat) : (c.clrBits a m).sdms = c.sdms := rfl
@[simp] theorem Chip.clrBits_wins (a m : Nat) : (c.clrBits a m).wins = c.wins := rfl
@[simp] theorem Chip.clrBits_slices (a m : Nat) : (c.clrBits a m).slices = c.slices := rfl
@[simp] theorem Chip.clrBits_xls (a m : Nat) : (c.clrBits a m).xls = c.xls := rfl
@[simp] theorem Chip.clrBits_pea (a m : Nat) : (c.clrBits a m).pea = c.pea := rfl
@[simp] theorem Chip.clrBits_peaBus (a m : Nat) : (c.clrBits a m).peaBus = c.peaBus := rfl
@[simp] theorem Chip.clrBits_clus (a m : Nat) : (c.clrBits a m).clus = c.clus := rfl
@[simp] theorem Chip.clrBits_flt (a m : Nat) : (c.clrBits a m).flt = c.flt := rfl
@[simp] theorem Chip.clrBits_cores (a m : Nat) : (c.clrBits a m).cores = c.cores := rfl
@[simp] theorem Chip.clrBits_tri (a m : Nat) : (c.clrBits a m).tri = c.tri := rfl
@[simp] theorem Chip.clrBits_lanes (a m : Nat) : (c.clrBits a m).lanes = c.lanes := rfl
@[simp] theorem Chip.clrBits_split (a m : Nat) : (c.clrBits a m).split = c.split := rfl
@[simp] theorem Chip.clrBits_run (a m : Nat) : (c.clrBits a m).run = c.run := rfl
@[simp] theorem Chip.clrBits_vote (a m : Nat) : (c.clrBits a m).vote = c.vote := rfl
@[simp] theorem Chip.clrBits_ecc (a m : Nat) : (c.clrBits a m).ecc = c.ecc := rfl
@[simp] theorem Chip.clrBits_tcmWin (a m : Nat) : (c.clrBits a m).tcmWin = c.tcmWin := rfl
@[simp] theorem Chip.clrBits_dmas (a m : Nat) : (c.clrBits a m).dmas = c.dmas := rfl
@[simp] theorem Chip.clrBits_fab (a m : Nat) : (c.clrBits a m).fab = c.fab := rfl
@[simp] theorem Chip.clrBits_link (a m : Nat) : (c.clrBits a m).link = c.link := rfl
@[simp] theorem Chip.clrBits_cmd (a m : Nat) : (c.clrBits a m).cmd = c.cmd := rfl
@[simp] theorem Chip.clrBits_sec (a m : Nat) : (c.clrBits a m).sec = c.sec := rfl
@[simp] theorem Chip.clrBits_fuses (a m : Nat) : (c.clrBits a m).fuses = c.fuses := rfl
@[simp] theorem Chip.clrBits_pins (a m : Nat) : (c.clrBits a m).pins = c.pins := rfl
@[simp] theorem Chip.clrBits_net (a m : Nat) : (c.clrBits a m).net = c.net := rfl
@[simp] theorem Chip.clrBits_power (a m : Nat) : (c.clrBits a m).power = c.power := rfl
@[simp] theorem Chip.clrBits_swept (a m : Nat) : (c.clrBits a m).swept = c.swept := rfl

@[simp] theorem Chip.dropRegs_now (lo n : Nat) : (c.dropRegs lo n).now = c.now := rfl
@[simp] theorem Chip.dropRegs_fresh (lo n : Nat) : (c.dropRegs lo n).fresh = c.fresh := rfl
@[simp] theorem Chip.dropRegs_regs1 (lo n : Nat) : (c.dropRegs lo n).regs1 = c.regs1 := rfl
@[simp] theorem Chip.dropRegs_mem (lo n : Nat) : (c.dropRegs lo n).mem = c.mem := rfl
@[simp] theorem Chip.dropRegs_agenda (lo n : Nat) : (c.dropRegs lo n).agenda = c.agenda := rfl
@[simp] theorem Chip.dropRegs_resp (lo n : Nat) : (c.dropRegs lo n).resp = c.resp := rfl
@[simp] theorem Chip.dropRegs_evm (lo n : Nat) : (c.dropRegs lo n).evm = c.evm := rfl
@[simp] theorem Chip.dropRegs_pbs (lo n : Nat) : (c.dropRegs lo n).pbs = c.pbs := rfl
@[simp] theorem Chip.dropRegs_caps (lo n : Nat) : (c.dropRegs lo n).caps = c.caps := rfl
@[simp] theorem Chip.dropRegs_sched (lo n : Nat) : (c.dropRegs lo n).sched = c.sched := rfl
@[simp] theorem Chip.dropRegs_pwms (lo n : Nat) : (c.dropRegs lo n).pwms = c.pwms := rfl
@[simp] theorem Chip.dropRegs_outs (lo n : Nat) : (c.dropRegs lo n).outs = c.outs := rfl
@[simp] theorem Chip.dropRegs_adcs (lo n : Nat) : (c.dropRegs lo n).adcs = c.adcs := rfl
@[simp] theorem Chip.dropRegs_sdms (lo n : Nat) : (c.dropRegs lo n).sdms = c.sdms := rfl
@[simp] theorem Chip.dropRegs_wins (lo n : Nat) : (c.dropRegs lo n).wins = c.wins := rfl
@[simp] theorem Chip.dropRegs_slices (lo n : Nat) : (c.dropRegs lo n).slices = c.slices := rfl
@[simp] theorem Chip.dropRegs_xls (lo n : Nat) : (c.dropRegs lo n).xls = c.xls := rfl
@[simp] theorem Chip.dropRegs_pea (lo n : Nat) : (c.dropRegs lo n).pea = c.pea := rfl
@[simp] theorem Chip.dropRegs_peaBus (lo n : Nat) : (c.dropRegs lo n).peaBus = c.peaBus := rfl
@[simp] theorem Chip.dropRegs_clus (lo n : Nat) : (c.dropRegs lo n).clus = c.clus := rfl
@[simp] theorem Chip.dropRegs_flt (lo n : Nat) : (c.dropRegs lo n).flt = c.flt := rfl
@[simp] theorem Chip.dropRegs_cores (lo n : Nat) : (c.dropRegs lo n).cores = c.cores := rfl
@[simp] theorem Chip.dropRegs_tri (lo n : Nat) : (c.dropRegs lo n).tri = c.tri := rfl
@[simp] theorem Chip.dropRegs_lanes (lo n : Nat) : (c.dropRegs lo n).lanes = c.lanes := rfl
@[simp] theorem Chip.dropRegs_split (lo n : Nat) : (c.dropRegs lo n).split = c.split := rfl
@[simp] theorem Chip.dropRegs_run (lo n : Nat) : (c.dropRegs lo n).run = c.run := rfl
@[simp] theorem Chip.dropRegs_vote (lo n : Nat) : (c.dropRegs lo n).vote = c.vote := rfl
@[simp] theorem Chip.dropRegs_ecc (lo n : Nat) : (c.dropRegs lo n).ecc = c.ecc := rfl
@[simp] theorem Chip.dropRegs_tcmWin (lo n : Nat) : (c.dropRegs lo n).tcmWin = c.tcmWin := rfl
@[simp] theorem Chip.dropRegs_dmas (lo n : Nat) : (c.dropRegs lo n).dmas = c.dmas := rfl
@[simp] theorem Chip.dropRegs_fab (lo n : Nat) : (c.dropRegs lo n).fab = c.fab := rfl
@[simp] theorem Chip.dropRegs_link (lo n : Nat) : (c.dropRegs lo n).link = c.link := rfl
@[simp] theorem Chip.dropRegs_cmd (lo n : Nat) : (c.dropRegs lo n).cmd = c.cmd := rfl
@[simp] theorem Chip.dropRegs_sec (lo n : Nat) : (c.dropRegs lo n).sec = c.sec := rfl
@[simp] theorem Chip.dropRegs_fuses (lo n : Nat) : (c.dropRegs lo n).fuses = c.fuses := rfl
@[simp] theorem Chip.dropRegs_pins (lo n : Nat) : (c.dropRegs lo n).pins = c.pins := rfl
@[simp] theorem Chip.dropRegs_net (lo n : Nat) : (c.dropRegs lo n).net = c.net := rfl
@[simp] theorem Chip.dropRegs_power (lo n : Nat) : (c.dropRegs lo n).power = c.power := rfl
@[simp] theorem Chip.dropRegs_swept (lo n : Nat) : (c.dropRegs lo n).swept = c.swept := rfl

@[simp] theorem Chip.schedule_now (d : Nat) (i : Ev) : (c.schedule d i).now = c.now := rfl
@[simp] theorem Chip.schedule_fresh (d : Nat) (i : Ev) : (c.schedule d i).fresh = c.fresh := rfl
@[simp] theorem Chip.schedule_regs (d : Nat) (i : Ev) : (c.schedule d i).regs = c.regs := rfl
@[simp] theorem Chip.schedule_regs0 (d : Nat) (i : Ev) : (c.schedule d i).regs0 = c.regs0 := rfl
@[simp] theorem Chip.schedule_regs1 (d : Nat) (i : Ev) : (c.schedule d i).regs1 = c.regs1 := rfl
@[simp] theorem Chip.schedule_hwset (d : Nat) (i : Ev) : (c.schedule d i).hwset = c.hwset := rfl
@[simp] theorem Chip.schedule_counted (d : Nat) (i : Ev) : (c.schedule d i).counted = c.counted := rfl
@[simp] theorem Chip.schedule_mem (d : Nat) (i : Ev) : (c.schedule d i).mem = c.mem := rfl
@[simp] theorem Chip.schedule_resp (d : Nat) (i : Ev) : (c.schedule d i).resp = c.resp := rfl
@[simp] theorem Chip.schedule_evm (d : Nat) (i : Ev) : (c.schedule d i).evm = c.evm := rfl
@[simp] theorem Chip.schedule_pbs (d : Nat) (i : Ev) : (c.schedule d i).pbs = c.pbs := rfl
@[simp] theorem Chip.schedule_caps (d : Nat) (i : Ev) : (c.schedule d i).caps = c.caps := rfl
@[simp] theorem Chip.schedule_sched (d : Nat) (i : Ev) : (c.schedule d i).sched = c.sched := rfl
@[simp] theorem Chip.schedule_pwms (d : Nat) (i : Ev) : (c.schedule d i).pwms = c.pwms := rfl
@[simp] theorem Chip.schedule_outs (d : Nat) (i : Ev) : (c.schedule d i).outs = c.outs := rfl
@[simp] theorem Chip.schedule_adcs (d : Nat) (i : Ev) : (c.schedule d i).adcs = c.adcs := rfl
@[simp] theorem Chip.schedule_sdms (d : Nat) (i : Ev) : (c.schedule d i).sdms = c.sdms := rfl
@[simp] theorem Chip.schedule_wins (d : Nat) (i : Ev) : (c.schedule d i).wins = c.wins := rfl
@[simp] theorem Chip.schedule_slices (d : Nat) (i : Ev) : (c.schedule d i).slices = c.slices := rfl
@[simp] theorem Chip.schedule_xls (d : Nat) (i : Ev) : (c.schedule d i).xls = c.xls := rfl
@[simp] theorem Chip.schedule_pea (d : Nat) (i : Ev) : (c.schedule d i).pea = c.pea := rfl
@[simp] theorem Chip.schedule_peaBus (d : Nat) (i : Ev) : (c.schedule d i).peaBus = c.peaBus := rfl
@[simp] theorem Chip.schedule_clus (d : Nat) (i : Ev) : (c.schedule d i).clus = c.clus := rfl
@[simp] theorem Chip.schedule_flt (d : Nat) (i : Ev) : (c.schedule d i).flt = c.flt := rfl
@[simp] theorem Chip.schedule_cores (d : Nat) (i : Ev) : (c.schedule d i).cores = c.cores := rfl
@[simp] theorem Chip.schedule_tri (d : Nat) (i : Ev) : (c.schedule d i).tri = c.tri := rfl
@[simp] theorem Chip.schedule_lanes (d : Nat) (i : Ev) : (c.schedule d i).lanes = c.lanes := rfl
@[simp] theorem Chip.schedule_split (d : Nat) (i : Ev) : (c.schedule d i).split = c.split := rfl
@[simp] theorem Chip.schedule_run (d : Nat) (i : Ev) : (c.schedule d i).run = c.run := rfl
@[simp] theorem Chip.schedule_vote (d : Nat) (i : Ev) : (c.schedule d i).vote = c.vote := rfl
@[simp] theorem Chip.schedule_ecc (d : Nat) (i : Ev) : (c.schedule d i).ecc = c.ecc := rfl
@[simp] theorem Chip.schedule_tcmWin (d : Nat) (i : Ev) : (c.schedule d i).tcmWin = c.tcmWin := rfl
@[simp] theorem Chip.schedule_dmas (d : Nat) (i : Ev) : (c.schedule d i).dmas = c.dmas := rfl
@[simp] theorem Chip.schedule_fab (d : Nat) (i : Ev) : (c.schedule d i).fab = c.fab := rfl
@[simp] theorem Chip.schedule_link (d : Nat) (i : Ev) : (c.schedule d i).link = c.link := rfl
@[simp] theorem Chip.schedule_cmd (d : Nat) (i : Ev) : (c.schedule d i).cmd = c.cmd := rfl
@[simp] theorem Chip.schedule_sec (d : Nat) (i : Ev) : (c.schedule d i).sec = c.sec := rfl
@[simp] theorem Chip.schedule_fuses (d : Nat) (i : Ev) : (c.schedule d i).fuses = c.fuses := rfl
@[simp] theorem Chip.schedule_pins (d : Nat) (i : Ev) : (c.schedule d i).pins = c.pins := rfl
@[simp] theorem Chip.schedule_net (d : Nat) (i : Ev) : (c.schedule d i).net = c.net := rfl
@[simp] theorem Chip.schedule_power (d : Nat) (i : Ev) : (c.schedule d i).power = c.power := rfl
@[simp] theorem Chip.schedule_swept (d : Nat) (i : Ev) : (c.schedule d i).swept = c.swept := rfl

@[simp] theorem Chip.unschedule_now (p : Ev → Bool) : (c.unschedule p).now = c.now := rfl
@[simp] theorem Chip.unschedule_fresh (p : Ev → Bool) : (c.unschedule p).fresh = c.fresh := rfl
@[simp] theorem Chip.unschedule_regs (p : Ev → Bool) : (c.unschedule p).regs = c.regs := rfl
@[simp] theorem Chip.unschedule_regs0 (p : Ev → Bool) : (c.unschedule p).regs0 = c.regs0 := rfl
@[simp] theorem Chip.unschedule_regs1 (p : Ev → Bool) : (c.unschedule p).regs1 = c.regs1 := rfl
@[simp] theorem Chip.unschedule_hwset (p : Ev → Bool) : (c.unschedule p).hwset = c.hwset := rfl
@[simp] theorem Chip.unschedule_counted (p : Ev → Bool) : (c.unschedule p).counted = c.counted := rfl
@[simp] theorem Chip.unschedule_mem (p : Ev → Bool) : (c.unschedule p).mem = c.mem := rfl
@[simp] theorem Chip.unschedule_resp (p : Ev → Bool) : (c.unschedule p).resp = c.resp := rfl
@[simp] theorem Chip.unschedule_evm (p : Ev → Bool) : (c.unschedule p).evm = c.evm := rfl
@[simp] theorem Chip.unschedule_pbs (p : Ev → Bool) : (c.unschedule p).pbs = c.pbs := rfl
@[simp] theorem Chip.unschedule_caps (p : Ev → Bool) : (c.unschedule p).caps = c.caps := rfl
@[simp] theorem Chip.unschedule_sched (p : Ev → Bool) : (c.unschedule p).sched = c.sched := rfl
@[simp] theorem Chip.unschedule_pwms (p : Ev → Bool) : (c.unschedule p).pwms = c.pwms := rfl
@[simp] theorem Chip.unschedule_outs (p : Ev → Bool) : (c.unschedule p).outs = c.outs := rfl
@[simp] theorem Chip.unschedule_adcs (p : Ev → Bool) : (c.unschedule p).adcs = c.adcs := rfl
@[simp] theorem Chip.unschedule_sdms (p : Ev → Bool) : (c.unschedule p).sdms = c.sdms := rfl
@[simp] theorem Chip.unschedule_wins (p : Ev → Bool) : (c.unschedule p).wins = c.wins := rfl
@[simp] theorem Chip.unschedule_slices (p : Ev → Bool) : (c.unschedule p).slices = c.slices := rfl
@[simp] theorem Chip.unschedule_xls (p : Ev → Bool) : (c.unschedule p).xls = c.xls := rfl
@[simp] theorem Chip.unschedule_pea (p : Ev → Bool) : (c.unschedule p).pea = c.pea := rfl
@[simp] theorem Chip.unschedule_peaBus (p : Ev → Bool) : (c.unschedule p).peaBus = c.peaBus := rfl
@[simp] theorem Chip.unschedule_clus (p : Ev → Bool) : (c.unschedule p).clus = c.clus := rfl
@[simp] theorem Chip.unschedule_flt (p : Ev → Bool) : (c.unschedule p).flt = c.flt := rfl
@[simp] theorem Chip.unschedule_cores (p : Ev → Bool) : (c.unschedule p).cores = c.cores := rfl
@[simp] theorem Chip.unschedule_tri (p : Ev → Bool) : (c.unschedule p).tri = c.tri := rfl
@[simp] theorem Chip.unschedule_lanes (p : Ev → Bool) : (c.unschedule p).lanes = c.lanes := rfl
@[simp] theorem Chip.unschedule_split (p : Ev → Bool) : (c.unschedule p).split = c.split := rfl
@[simp] theorem Chip.unschedule_run (p : Ev → Bool) : (c.unschedule p).run = c.run := rfl
@[simp] theorem Chip.unschedule_vote (p : Ev → Bool) : (c.unschedule p).vote = c.vote := rfl
@[simp] theorem Chip.unschedule_ecc (p : Ev → Bool) : (c.unschedule p).ecc = c.ecc := rfl
@[simp] theorem Chip.unschedule_tcmWin (p : Ev → Bool) : (c.unschedule p).tcmWin = c.tcmWin := rfl
@[simp] theorem Chip.unschedule_dmas (p : Ev → Bool) : (c.unschedule p).dmas = c.dmas := rfl
@[simp] theorem Chip.unschedule_fab (p : Ev → Bool) : (c.unschedule p).fab = c.fab := rfl
@[simp] theorem Chip.unschedule_link (p : Ev → Bool) : (c.unschedule p).link = c.link := rfl
@[simp] theorem Chip.unschedule_cmd (p : Ev → Bool) : (c.unschedule p).cmd = c.cmd := rfl
@[simp] theorem Chip.unschedule_sec (p : Ev → Bool) : (c.unschedule p).sec = c.sec := rfl
@[simp] theorem Chip.unschedule_fuses (p : Ev → Bool) : (c.unschedule p).fuses = c.fuses := rfl
@[simp] theorem Chip.unschedule_pins (p : Ev → Bool) : (c.unschedule p).pins = c.pins := rfl
@[simp] theorem Chip.unschedule_net (p : Ev → Bool) : (c.unschedule p).net = c.net := rfl
@[simp] theorem Chip.unschedule_power (p : Ev → Bool) : (c.unschedule p).power = c.power := rfl
@[simp] theorem Chip.unschedule_swept (p : Ev → Bool) : (c.unschedule p).swept = c.swept := rfl

@[simp] theorem Chip.answer_now (v : Word) : (c.answer v).now = c.now := rfl
@[simp] theorem Chip.answer_fresh (v : Word) : (c.answer v).fresh = c.fresh := rfl
@[simp] theorem Chip.answer_regs (v : Word) : (c.answer v).regs = c.regs := rfl
@[simp] theorem Chip.answer_regs0 (v : Word) : (c.answer v).regs0 = c.regs0 := rfl
@[simp] theorem Chip.answer_regs1 (v : Word) : (c.answer v).regs1 = c.regs1 := rfl
@[simp] theorem Chip.answer_hwset (v : Word) : (c.answer v).hwset = c.hwset := rfl
@[simp] theorem Chip.answer_counted (v : Word) : (c.answer v).counted = c.counted := rfl
@[simp] theorem Chip.answer_mem (v : Word) : (c.answer v).mem = c.mem := rfl
@[simp] theorem Chip.answer_agenda (v : Word) : (c.answer v).agenda = c.agenda := rfl
@[simp] theorem Chip.answer_evm (v : Word) : (c.answer v).evm = c.evm := rfl
@[simp] theorem Chip.answer_pbs (v : Word) : (c.answer v).pbs = c.pbs := rfl
@[simp] theorem Chip.answer_caps (v : Word) : (c.answer v).caps = c.caps := rfl
@[simp] theorem Chip.answer_sched (v : Word) : (c.answer v).sched = c.sched := rfl
@[simp] theorem Chip.answer_pwms (v : Word) : (c.answer v).pwms = c.pwms := rfl
@[simp] theorem Chip.answer_outs (v : Word) : (c.answer v).outs = c.outs := rfl
@[simp] theorem Chip.answer_adcs (v : Word) : (c.answer v).adcs = c.adcs := rfl
@[simp] theorem Chip.answer_sdms (v : Word) : (c.answer v).sdms = c.sdms := rfl
@[simp] theorem Chip.answer_wins (v : Word) : (c.answer v).wins = c.wins := rfl
@[simp] theorem Chip.answer_slices (v : Word) : (c.answer v).slices = c.slices := rfl
@[simp] theorem Chip.answer_xls (v : Word) : (c.answer v).xls = c.xls := rfl
@[simp] theorem Chip.answer_pea (v : Word) : (c.answer v).pea = c.pea := rfl
@[simp] theorem Chip.answer_peaBus (v : Word) : (c.answer v).peaBus = c.peaBus := rfl
@[simp] theorem Chip.answer_clus (v : Word) : (c.answer v).clus = c.clus := rfl
@[simp] theorem Chip.answer_flt (v : Word) : (c.answer v).flt = c.flt := rfl
@[simp] theorem Chip.answer_cores (v : Word) : (c.answer v).cores = c.cores := rfl
@[simp] theorem Chip.answer_tri (v : Word) : (c.answer v).tri = c.tri := rfl
@[simp] theorem Chip.answer_lanes (v : Word) : (c.answer v).lanes = c.lanes := rfl
@[simp] theorem Chip.answer_split (v : Word) : (c.answer v).split = c.split := rfl
@[simp] theorem Chip.answer_run (v : Word) : (c.answer v).run = c.run := rfl
@[simp] theorem Chip.answer_vote (v : Word) : (c.answer v).vote = c.vote := rfl
@[simp] theorem Chip.answer_ecc (v : Word) : (c.answer v).ecc = c.ecc := rfl
@[simp] theorem Chip.answer_tcmWin (v : Word) : (c.answer v).tcmWin = c.tcmWin := rfl
@[simp] theorem Chip.answer_dmas (v : Word) : (c.answer v).dmas = c.dmas := rfl
@[simp] theorem Chip.answer_fab (v : Word) : (c.answer v).fab = c.fab := rfl
@[simp] theorem Chip.answer_link (v : Word) : (c.answer v).link = c.link := rfl
@[simp] theorem Chip.answer_cmd (v : Word) : (c.answer v).cmd = c.cmd := rfl
@[simp] theorem Chip.answer_sec (v : Word) : (c.answer v).sec = c.sec := rfl
@[simp] theorem Chip.answer_fuses (v : Word) : (c.answer v).fuses = c.fuses := rfl
@[simp] theorem Chip.answer_pins (v : Word) : (c.answer v).pins = c.pins := rfl
@[simp] theorem Chip.answer_net (v : Word) : (c.answer v).net = c.net := rfl
@[simp] theorem Chip.answer_power (v : Word) : (c.answer v).power = c.power := rfl
@[simp] theorem Chip.answer_swept (v : Word) : (c.answer v).swept = c.swept := rfl

@[simp] theorem Chip.updCore_now (k : CoreId) (f : CoreS → CoreS) : (updCore k f c).now = c.now := rfl
@[simp] theorem Chip.updCore_fresh (k : CoreId) (f : CoreS → CoreS) : (updCore k f c).fresh = c.fresh := rfl
@[simp] theorem Chip.updCore_regs (k : CoreId) (f : CoreS → CoreS) : (updCore k f c).regs = c.regs := rfl
@[simp] theorem Chip.updCore_regs0 (k : CoreId) (f : CoreS → CoreS) : (updCore k f c).regs0 = c.regs0 := rfl
@[simp] theorem Chip.updCore_regs1 (k : CoreId) (f : CoreS → CoreS) : (updCore k f c).regs1 = c.regs1 := rfl
@[simp] theorem Chip.updCore_hwset (k : CoreId) (f : CoreS → CoreS) : (updCore k f c).hwset = c.hwset := rfl
@[simp] theorem Chip.updCore_counted (k : CoreId) (f : CoreS → CoreS) : (updCore k f c).counted = c.counted := rfl
@[simp] theorem Chip.updCore_mem (k : CoreId) (f : CoreS → CoreS) : (updCore k f c).mem = c.mem := rfl
@[simp] theorem Chip.updCore_agenda (k : CoreId) (f : CoreS → CoreS) : (updCore k f c).agenda = c.agenda := rfl
@[simp] theorem Chip.updCore_resp (k : CoreId) (f : CoreS → CoreS) : (updCore k f c).resp = c.resp := rfl
@[simp] theorem Chip.updCore_evm (k : CoreId) (f : CoreS → CoreS) : (updCore k f c).evm = c.evm := rfl
@[simp] theorem Chip.updCore_pbs (k : CoreId) (f : CoreS → CoreS) : (updCore k f c).pbs = c.pbs := rfl
@[simp] theorem Chip.updCore_caps (k : CoreId) (f : CoreS → CoreS) : (updCore k f c).caps = c.caps := rfl
@[simp] theorem Chip.updCore_sched (k : CoreId) (f : CoreS → CoreS) : (updCore k f c).sched = c.sched := rfl
@[simp] theorem Chip.updCore_pwms (k : CoreId) (f : CoreS → CoreS) : (updCore k f c).pwms = c.pwms := rfl
@[simp] theorem Chip.updCore_outs (k : CoreId) (f : CoreS → CoreS) : (updCore k f c).outs = c.outs := rfl
@[simp] theorem Chip.updCore_adcs (k : CoreId) (f : CoreS → CoreS) : (updCore k f c).adcs = c.adcs := rfl
@[simp] theorem Chip.updCore_sdms (k : CoreId) (f : CoreS → CoreS) : (updCore k f c).sdms = c.sdms := rfl
@[simp] theorem Chip.updCore_wins (k : CoreId) (f : CoreS → CoreS) : (updCore k f c).wins = c.wins := rfl
@[simp] theorem Chip.updCore_slices (k : CoreId) (f : CoreS → CoreS) : (updCore k f c).slices = c.slices := rfl
@[simp] theorem Chip.updCore_xls (k : CoreId) (f : CoreS → CoreS) : (updCore k f c).xls = c.xls := rfl
@[simp] theorem Chip.updCore_pea (k : CoreId) (f : CoreS → CoreS) : (updCore k f c).pea = c.pea := rfl
@[simp] theorem Chip.updCore_peaBus (k : CoreId) (f : CoreS → CoreS) : (updCore k f c).peaBus = c.peaBus := rfl
@[simp] theorem Chip.updCore_clus (k : CoreId) (f : CoreS → CoreS) : (updCore k f c).clus = c.clus := rfl
@[simp] theorem Chip.updCore_flt (k : CoreId) (f : CoreS → CoreS) : (updCore k f c).flt = c.flt := rfl
@[simp] theorem Chip.updCore_tri (k : CoreId) (f : CoreS → CoreS) : (updCore k f c).tri = c.tri := rfl
@[simp] theorem Chip.updCore_lanes (k : CoreId) (f : CoreS → CoreS) : (updCore k f c).lanes = c.lanes := rfl
@[simp] theorem Chip.updCore_split (k : CoreId) (f : CoreS → CoreS) : (updCore k f c).split = c.split := rfl
@[simp] theorem Chip.updCore_run (k : CoreId) (f : CoreS → CoreS) : (updCore k f c).run = c.run := rfl
@[simp] theorem Chip.updCore_vote (k : CoreId) (f : CoreS → CoreS) : (updCore k f c).vote = c.vote := rfl
@[simp] theorem Chip.updCore_ecc (k : CoreId) (f : CoreS → CoreS) : (updCore k f c).ecc = c.ecc := rfl
@[simp] theorem Chip.updCore_tcmWin (k : CoreId) (f : CoreS → CoreS) : (updCore k f c).tcmWin = c.tcmWin := rfl
@[simp] theorem Chip.updCore_dmas (k : CoreId) (f : CoreS → CoreS) : (updCore k f c).dmas = c.dmas := rfl
@[simp] theorem Chip.updCore_fab (k : CoreId) (f : CoreS → CoreS) : (updCore k f c).fab = c.fab := rfl
@[simp] theorem Chip.updCore_link (k : CoreId) (f : CoreS → CoreS) : (updCore k f c).link = c.link := rfl
@[simp] theorem Chip.updCore_cmd (k : CoreId) (f : CoreS → CoreS) : (updCore k f c).cmd = c.cmd := rfl
@[simp] theorem Chip.updCore_sec (k : CoreId) (f : CoreS → CoreS) : (updCore k f c).sec = c.sec := rfl
@[simp] theorem Chip.updCore_fuses (k : CoreId) (f : CoreS → CoreS) : (updCore k f c).fuses = c.fuses := rfl
@[simp] theorem Chip.updCore_pins (k : CoreId) (f : CoreS → CoreS) : (updCore k f c).pins = c.pins := rfl
@[simp] theorem Chip.updCore_net (k : CoreId) (f : CoreS → CoreS) : (updCore k f c).net = c.net := rfl
@[simp] theorem Chip.updCore_power (k : CoreId) (f : CoreS → CoreS) : (updCore k f c).power = c.power := rfl
@[simp] theorem Chip.updCore_swept (k : CoreId) (f : CoreS → CoreS) : (updCore k f c).swept = c.swept := rfl

@[simp] theorem Chip.updBank_now (k : CoreId) (b : Fin 8) (f : BankS → BankS) : (updBank k b f c).now = c.now := rfl
@[simp] theorem Chip.updBank_fresh (k : CoreId) (b : Fin 8) (f : BankS → BankS) : (updBank k b f c).fresh = c.fresh := rfl
@[simp] theorem Chip.updBank_regs (k : CoreId) (b : Fin 8) (f : BankS → BankS) : (updBank k b f c).regs = c.regs := rfl
@[simp] theorem Chip.updBank_regs0 (k : CoreId) (b : Fin 8) (f : BankS → BankS) : (updBank k b f c).regs0 = c.regs0 := rfl
@[simp] theorem Chip.updBank_regs1 (k : CoreId) (b : Fin 8) (f : BankS → BankS) : (updBank k b f c).regs1 = c.regs1 := rfl
@[simp] theorem Chip.updBank_hwset (k : CoreId) (b : Fin 8) (f : BankS → BankS) : (updBank k b f c).hwset = c.hwset := rfl
@[simp] theorem Chip.updBank_counted (k : CoreId) (b : Fin 8) (f : BankS → BankS) : (updBank k b f c).counted = c.counted := rfl
@[simp] theorem Chip.updBank_mem (k : CoreId) (b : Fin 8) (f : BankS → BankS) : (updBank k b f c).mem = c.mem := rfl
@[simp] theorem Chip.updBank_agenda (k : CoreId) (b : Fin 8) (f : BankS → BankS) : (updBank k b f c).agenda = c.agenda := rfl
@[simp] theorem Chip.updBank_resp (k : CoreId) (b : Fin 8) (f : BankS → BankS) : (updBank k b f c).resp = c.resp := rfl
@[simp] theorem Chip.updBank_evm (k : CoreId) (b : Fin 8) (f : BankS → BankS) : (updBank k b f c).evm = c.evm := rfl
@[simp] theorem Chip.updBank_pbs (k : CoreId) (b : Fin 8) (f : BankS → BankS) : (updBank k b f c).pbs = c.pbs := rfl
@[simp] theorem Chip.updBank_caps (k : CoreId) (b : Fin 8) (f : BankS → BankS) : (updBank k b f c).caps = c.caps := rfl
@[simp] theorem Chip.updBank_sched (k : CoreId) (b : Fin 8) (f : BankS → BankS) : (updBank k b f c).sched = c.sched := rfl
@[simp] theorem Chip.updBank_pwms (k : CoreId) (b : Fin 8) (f : BankS → BankS) : (updBank k b f c).pwms = c.pwms := rfl
@[simp] theorem Chip.updBank_outs (k : CoreId) (b : Fin 8) (f : BankS → BankS) : (updBank k b f c).outs = c.outs := rfl
@[simp] theorem Chip.updBank_adcs (k : CoreId) (b : Fin 8) (f : BankS → BankS) : (updBank k b f c).adcs = c.adcs := rfl
@[simp] theorem Chip.updBank_sdms (k : CoreId) (b : Fin 8) (f : BankS → BankS) : (updBank k b f c).sdms = c.sdms := rfl
@[simp] theorem Chip.updBank_wins (k : CoreId) (b : Fin 8) (f : BankS → BankS) : (updBank k b f c).wins = c.wins := rfl
@[simp] theorem Chip.updBank_slices (k : CoreId) (b : Fin 8) (f : BankS → BankS) : (updBank k b f c).slices = c.slices := rfl
@[simp] theorem Chip.updBank_xls (k : CoreId) (b : Fin 8) (f : BankS → BankS) : (updBank k b f c).xls = c.xls := rfl
@[simp] theorem Chip.updBank_pea (k : CoreId) (b : Fin 8) (f : BankS → BankS) : (updBank k b f c).pea = c.pea := rfl
@[simp] theorem Chip.updBank_peaBus (k : CoreId) (b : Fin 8) (f : BankS → BankS) : (updBank k b f c).peaBus = c.peaBus := rfl
@[simp] theorem Chip.updBank_clus (k : CoreId) (b : Fin 8) (f : BankS → BankS) : (updBank k b f c).clus = c.clus := rfl
@[simp] theorem Chip.updBank_flt (k : CoreId) (b : Fin 8) (f : BankS → BankS) : (updBank k b f c).flt = c.flt := rfl
@[simp] theorem Chip.updBank_tri (k : CoreId) (b : Fin 8) (f : BankS → BankS) : (updBank k b f c).tri = c.tri := rfl
@[simp] theorem Chip.updBank_lanes (k : CoreId) (b : Fin 8) (f : BankS → BankS) : (updBank k b f c).lanes = c.lanes := rfl
@[simp] theorem Chip.updBank_split (k : CoreId) (b : Fin 8) (f : BankS → BankS) : (updBank k b f c).split = c.split := rfl
@[simp] theorem Chip.updBank_run (k : CoreId) (b : Fin 8) (f : BankS → BankS) : (updBank k b f c).run = c.run := rfl
@[simp] theorem Chip.updBank_vote (k : CoreId) (b : Fin 8) (f : BankS → BankS) : (updBank k b f c).vote = c.vote := rfl
@[simp] theorem Chip.updBank_ecc (k : CoreId) (b : Fin 8) (f : BankS → BankS) : (updBank k b f c).ecc = c.ecc := rfl
@[simp] theorem Chip.updBank_tcmWin (k : CoreId) (b : Fin 8) (f : BankS → BankS) : (updBank k b f c).tcmWin = c.tcmWin := rfl
@[simp] theorem Chip.updBank_dmas (k : CoreId) (b : Fin 8) (f : BankS → BankS) : (updBank k b f c).dmas = c.dmas := rfl
@[simp] theorem Chip.updBank_fab (k : CoreId) (b : Fin 8) (f : BankS → BankS) : (updBank k b f c).fab = c.fab := rfl
@[simp] theorem Chip.updBank_link (k : CoreId) (b : Fin 8) (f : BankS → BankS) : (updBank k b f c).link = c.link := rfl
@[simp] theorem Chip.updBank_cmd (k : CoreId) (b : Fin 8) (f : BankS → BankS) : (updBank k b f c).cmd = c.cmd := rfl
@[simp] theorem Chip.updBank_sec (k : CoreId) (b : Fin 8) (f : BankS → BankS) : (updBank k b f c).sec = c.sec := rfl
@[simp] theorem Chip.updBank_fuses (k : CoreId) (b : Fin 8) (f : BankS → BankS) : (updBank k b f c).fuses = c.fuses := rfl
@[simp] theorem Chip.updBank_pins (k : CoreId) (b : Fin 8) (f : BankS → BankS) : (updBank k b f c).pins = c.pins := rfl
@[simp] theorem Chip.updBank_net (k : CoreId) (b : Fin 8) (f : BankS → BankS) : (updBank k b f c).net = c.net := rfl
@[simp] theorem Chip.updBank_power (k : CoreId) (b : Fin 8) (f : BankS → BankS) : (updBank k b f c).power = c.power := rfl
@[simp] theorem Chip.updBank_swept (k : CoreId) (b : Fin 8) (f : BankS → BankS) : (updBank k b f c).swept = c.swept := rfl

@[simp] theorem Chip.updPb_now (p : Fin 8) (f : PhaseBase → PhaseBase) : (updPb p f c).now = c.now := rfl
@[simp] theorem Chip.updPb_fresh (p : Fin 8) (f : PhaseBase → PhaseBase) : (updPb p f c).fresh = c.fresh := rfl
@[simp] theorem Chip.updPb_regs (p : Fin 8) (f : PhaseBase → PhaseBase) : (updPb p f c).regs = c.regs := rfl
@[simp] theorem Chip.updPb_regs0 (p : Fin 8) (f : PhaseBase → PhaseBase) : (updPb p f c).regs0 = c.regs0 := rfl
@[simp] theorem Chip.updPb_regs1 (p : Fin 8) (f : PhaseBase → PhaseBase) : (updPb p f c).regs1 = c.regs1 := rfl
@[simp] theorem Chip.updPb_hwset (p : Fin 8) (f : PhaseBase → PhaseBase) : (updPb p f c).hwset = c.hwset := rfl
@[simp] theorem Chip.updPb_counted (p : Fin 8) (f : PhaseBase → PhaseBase) : (updPb p f c).counted = c.counted := rfl
@[simp] theorem Chip.updPb_mem (p : Fin 8) (f : PhaseBase → PhaseBase) : (updPb p f c).mem = c.mem := rfl
@[simp] theorem Chip.updPb_agenda (p : Fin 8) (f : PhaseBase → PhaseBase) : (updPb p f c).agenda = c.agenda := rfl
@[simp] theorem Chip.updPb_resp (p : Fin 8) (f : PhaseBase → PhaseBase) : (updPb p f c).resp = c.resp := rfl
@[simp] theorem Chip.updPb_evm (p : Fin 8) (f : PhaseBase → PhaseBase) : (updPb p f c).evm = c.evm := rfl
@[simp] theorem Chip.updPb_caps (p : Fin 8) (f : PhaseBase → PhaseBase) : (updPb p f c).caps = c.caps := rfl
@[simp] theorem Chip.updPb_sched (p : Fin 8) (f : PhaseBase → PhaseBase) : (updPb p f c).sched = c.sched := rfl
@[simp] theorem Chip.updPb_pwms (p : Fin 8) (f : PhaseBase → PhaseBase) : (updPb p f c).pwms = c.pwms := rfl
@[simp] theorem Chip.updPb_outs (p : Fin 8) (f : PhaseBase → PhaseBase) : (updPb p f c).outs = c.outs := rfl
@[simp] theorem Chip.updPb_adcs (p : Fin 8) (f : PhaseBase → PhaseBase) : (updPb p f c).adcs = c.adcs := rfl
@[simp] theorem Chip.updPb_sdms (p : Fin 8) (f : PhaseBase → PhaseBase) : (updPb p f c).sdms = c.sdms := rfl
@[simp] theorem Chip.updPb_wins (p : Fin 8) (f : PhaseBase → PhaseBase) : (updPb p f c).wins = c.wins := rfl
@[simp] theorem Chip.updPb_slices (p : Fin 8) (f : PhaseBase → PhaseBase) : (updPb p f c).slices = c.slices := rfl
@[simp] theorem Chip.updPb_xls (p : Fin 8) (f : PhaseBase → PhaseBase) : (updPb p f c).xls = c.xls := rfl
@[simp] theorem Chip.updPb_pea (p : Fin 8) (f : PhaseBase → PhaseBase) : (updPb p f c).pea = c.pea := rfl
@[simp] theorem Chip.updPb_peaBus (p : Fin 8) (f : PhaseBase → PhaseBase) : (updPb p f c).peaBus = c.peaBus := rfl
@[simp] theorem Chip.updPb_clus (p : Fin 8) (f : PhaseBase → PhaseBase) : (updPb p f c).clus = c.clus := rfl
@[simp] theorem Chip.updPb_flt (p : Fin 8) (f : PhaseBase → PhaseBase) : (updPb p f c).flt = c.flt := rfl
@[simp] theorem Chip.updPb_cores (p : Fin 8) (f : PhaseBase → PhaseBase) : (updPb p f c).cores = c.cores := rfl
@[simp] theorem Chip.updPb_tri (p : Fin 8) (f : PhaseBase → PhaseBase) : (updPb p f c).tri = c.tri := rfl
@[simp] theorem Chip.updPb_lanes (p : Fin 8) (f : PhaseBase → PhaseBase) : (updPb p f c).lanes = c.lanes := rfl
@[simp] theorem Chip.updPb_split (p : Fin 8) (f : PhaseBase → PhaseBase) : (updPb p f c).split = c.split := rfl
@[simp] theorem Chip.updPb_run (p : Fin 8) (f : PhaseBase → PhaseBase) : (updPb p f c).run = c.run := rfl
@[simp] theorem Chip.updPb_vote (p : Fin 8) (f : PhaseBase → PhaseBase) : (updPb p f c).vote = c.vote := rfl
@[simp] theorem Chip.updPb_ecc (p : Fin 8) (f : PhaseBase → PhaseBase) : (updPb p f c).ecc = c.ecc := rfl
@[simp] theorem Chip.updPb_tcmWin (p : Fin 8) (f : PhaseBase → PhaseBase) : (updPb p f c).tcmWin = c.tcmWin := rfl
@[simp] theorem Chip.updPb_dmas (p : Fin 8) (f : PhaseBase → PhaseBase) : (updPb p f c).dmas = c.dmas := rfl
@[simp] theorem Chip.updPb_fab (p : Fin 8) (f : PhaseBase → PhaseBase) : (updPb p f c).fab = c.fab := rfl
@[simp] theorem Chip.updPb_link (p : Fin 8) (f : PhaseBase → PhaseBase) : (updPb p f c).link = c.link := rfl
@[simp] theorem Chip.updPb_cmd (p : Fin 8) (f : PhaseBase → PhaseBase) : (updPb p f c).cmd = c.cmd := rfl
@[simp] theorem Chip.updPb_sec (p : Fin 8) (f : PhaseBase → PhaseBase) : (updPb p f c).sec = c.sec := rfl
@[simp] theorem Chip.updPb_fuses (p : Fin 8) (f : PhaseBase → PhaseBase) : (updPb p f c).fuses = c.fuses := rfl
@[simp] theorem Chip.updPb_pins (p : Fin 8) (f : PhaseBase → PhaseBase) : (updPb p f c).pins = c.pins := rfl
@[simp] theorem Chip.updPb_net (p : Fin 8) (f : PhaseBase → PhaseBase) : (updPb p f c).net = c.net := rfl
@[simp] theorem Chip.updPb_power (p : Fin 8) (f : PhaseBase → PhaseBase) : (updPb p f c).power = c.power := rfl
@[simp] theorem Chip.updPb_swept (p : Fin 8) (f : PhaseBase → PhaseBase) : (updPb p f c).swept = c.swept := rfl

@[simp] theorem Chip.updCap_now (k : Fin 64) (f : Capture → Capture) : (updCap k f c).now = c.now := rfl
@[simp] theorem Chip.updCap_fresh (k : Fin 64) (f : Capture → Capture) : (updCap k f c).fresh = c.fresh := rfl
@[simp] theorem Chip.updCap_regs (k : Fin 64) (f : Capture → Capture) : (updCap k f c).regs = c.regs := rfl
@[simp] theorem Chip.updCap_regs0 (k : Fin 64) (f : Capture → Capture) : (updCap k f c).regs0 = c.regs0 := rfl
@[simp] theorem Chip.updCap_regs1 (k : Fin 64) (f : Capture → Capture) : (updCap k f c).regs1 = c.regs1 := rfl
@[simp] theorem Chip.updCap_hwset (k : Fin 64) (f : Capture → Capture) : (updCap k f c).hwset = c.hwset := rfl
@[simp] theorem Chip.updCap_counted (k : Fin 64) (f : Capture → Capture) : (updCap k f c).counted = c.counted := rfl
@[simp] theorem Chip.updCap_mem (k : Fin 64) (f : Capture → Capture) : (updCap k f c).mem = c.mem := rfl
@[simp] theorem Chip.updCap_agenda (k : Fin 64) (f : Capture → Capture) : (updCap k f c).agenda = c.agenda := rfl
@[simp] theorem Chip.updCap_resp (k : Fin 64) (f : Capture → Capture) : (updCap k f c).resp = c.resp := rfl
@[simp] theorem Chip.updCap_evm (k : Fin 64) (f : Capture → Capture) : (updCap k f c).evm = c.evm := rfl
@[simp] theorem Chip.updCap_pbs (k : Fin 64) (f : Capture → Capture) : (updCap k f c).pbs = c.pbs := rfl
@[simp] theorem Chip.updCap_sched (k : Fin 64) (f : Capture → Capture) : (updCap k f c).sched = c.sched := rfl
@[simp] theorem Chip.updCap_pwms (k : Fin 64) (f : Capture → Capture) : (updCap k f c).pwms = c.pwms := rfl
@[simp] theorem Chip.updCap_outs (k : Fin 64) (f : Capture → Capture) : (updCap k f c).outs = c.outs := rfl
@[simp] theorem Chip.updCap_adcs (k : Fin 64) (f : Capture → Capture) : (updCap k f c).adcs = c.adcs := rfl
@[simp] theorem Chip.updCap_sdms (k : Fin 64) (f : Capture → Capture) : (updCap k f c).sdms = c.sdms := rfl
@[simp] theorem Chip.updCap_wins (k : Fin 64) (f : Capture → Capture) : (updCap k f c).wins = c.wins := rfl
@[simp] theorem Chip.updCap_slices (k : Fin 64) (f : Capture → Capture) : (updCap k f c).slices = c.slices := rfl
@[simp] theorem Chip.updCap_xls (k : Fin 64) (f : Capture → Capture) : (updCap k f c).xls = c.xls := rfl
@[simp] theorem Chip.updCap_pea (k : Fin 64) (f : Capture → Capture) : (updCap k f c).pea = c.pea := rfl
@[simp] theorem Chip.updCap_peaBus (k : Fin 64) (f : Capture → Capture) : (updCap k f c).peaBus = c.peaBus := rfl
@[simp] theorem Chip.updCap_clus (k : Fin 64) (f : Capture → Capture) : (updCap k f c).clus = c.clus := rfl
@[simp] theorem Chip.updCap_flt (k : Fin 64) (f : Capture → Capture) : (updCap k f c).flt = c.flt := rfl
@[simp] theorem Chip.updCap_cores (k : Fin 64) (f : Capture → Capture) : (updCap k f c).cores = c.cores := rfl
@[simp] theorem Chip.updCap_tri (k : Fin 64) (f : Capture → Capture) : (updCap k f c).tri = c.tri := rfl
@[simp] theorem Chip.updCap_lanes (k : Fin 64) (f : Capture → Capture) : (updCap k f c).lanes = c.lanes := rfl
@[simp] theorem Chip.updCap_split (k : Fin 64) (f : Capture → Capture) : (updCap k f c).split = c.split := rfl
@[simp] theorem Chip.updCap_run (k : Fin 64) (f : Capture → Capture) : (updCap k f c).run = c.run := rfl
@[simp] theorem Chip.updCap_vote (k : Fin 64) (f : Capture → Capture) : (updCap k f c).vote = c.vote := rfl
@[simp] theorem Chip.updCap_ecc (k : Fin 64) (f : Capture → Capture) : (updCap k f c).ecc = c.ecc := rfl
@[simp] theorem Chip.updCap_tcmWin (k : Fin 64) (f : Capture → Capture) : (updCap k f c).tcmWin = c.tcmWin := rfl
@[simp] theorem Chip.updCap_dmas (k : Fin 64) (f : Capture → Capture) : (updCap k f c).dmas = c.dmas := rfl
@[simp] theorem Chip.updCap_fab (k : Fin 64) (f : Capture → Capture) : (updCap k f c).fab = c.fab := rfl
@[simp] theorem Chip.updCap_link (k : Fin 64) (f : Capture → Capture) : (updCap k f c).link = c.link := rfl
@[simp] theorem Chip.updCap_cmd (k : Fin 64) (f : Capture → Capture) : (updCap k f c).cmd = c.cmd := rfl
@[simp] theorem Chip.updCap_sec (k : Fin 64) (f : Capture → Capture) : (updCap k f c).sec = c.sec := rfl
@[simp] theorem Chip.updCap_fuses (k : Fin 64) (f : Capture → Capture) : (updCap k f c).fuses = c.fuses := rfl
@[simp] theorem Chip.updCap_pins (k : Fin 64) (f : Capture → Capture) : (updCap k f c).pins = c.pins := rfl
@[simp] theorem Chip.updCap_net (k : Fin 64) (f : Capture → Capture) : (updCap k f c).net = c.net := rfl
@[simp] theorem Chip.updCap_power (k : Fin 64) (f : Capture → Capture) : (updCap k f c).power = c.power := rfl
@[simp] theorem Chip.updCap_swept (k : Fin 64) (f : Capture → Capture) : (updCap k f c).swept = c.swept := rfl

@[simp] theorem Chip.updSch_now (f : Sched → Sched) : (updSch f c).now = c.now := rfl
@[simp] theorem Chip.updSch_fresh (f : Sched → Sched) : (updSch f c).fresh = c.fresh := rfl
@[simp] theorem Chip.updSch_regs (f : Sched → Sched) : (updSch f c).regs = c.regs := rfl
@[simp] theorem Chip.updSch_regs0 (f : Sched → Sched) : (updSch f c).regs0 = c.regs0 := rfl
@[simp] theorem Chip.updSch_regs1 (f : Sched → Sched) : (updSch f c).regs1 = c.regs1 := rfl
@[simp] theorem Chip.updSch_hwset (f : Sched → Sched) : (updSch f c).hwset = c.hwset := rfl
@[simp] theorem Chip.updSch_counted (f : Sched → Sched) : (updSch f c).counted = c.counted := rfl
@[simp] theorem Chip.updSch_mem (f : Sched → Sched) : (updSch f c).mem = c.mem := rfl
@[simp] theorem Chip.updSch_agenda (f : Sched → Sched) : (updSch f c).agenda = c.agenda := rfl
@[simp] theorem Chip.updSch_resp (f : Sched → Sched) : (updSch f c).resp = c.resp := rfl
@[simp] theorem Chip.updSch_evm (f : Sched → Sched) : (updSch f c).evm = c.evm := rfl
@[simp] theorem Chip.updSch_pbs (f : Sched → Sched) : (updSch f c).pbs = c.pbs := rfl
@[simp] theorem Chip.updSch_caps (f : Sched → Sched) : (updSch f c).caps = c.caps := rfl
@[simp] theorem Chip.updSch_pwms (f : Sched → Sched) : (updSch f c).pwms = c.pwms := rfl
@[simp] theorem Chip.updSch_outs (f : Sched → Sched) : (updSch f c).outs = c.outs := rfl
@[simp] theorem Chip.updSch_adcs (f : Sched → Sched) : (updSch f c).adcs = c.adcs := rfl
@[simp] theorem Chip.updSch_sdms (f : Sched → Sched) : (updSch f c).sdms = c.sdms := rfl
@[simp] theorem Chip.updSch_wins (f : Sched → Sched) : (updSch f c).wins = c.wins := rfl
@[simp] theorem Chip.updSch_slices (f : Sched → Sched) : (updSch f c).slices = c.slices := rfl
@[simp] theorem Chip.updSch_xls (f : Sched → Sched) : (updSch f c).xls = c.xls := rfl
@[simp] theorem Chip.updSch_pea (f : Sched → Sched) : (updSch f c).pea = c.pea := rfl
@[simp] theorem Chip.updSch_peaBus (f : Sched → Sched) : (updSch f c).peaBus = c.peaBus := rfl
@[simp] theorem Chip.updSch_clus (f : Sched → Sched) : (updSch f c).clus = c.clus := rfl
@[simp] theorem Chip.updSch_flt (f : Sched → Sched) : (updSch f c).flt = c.flt := rfl
@[simp] theorem Chip.updSch_cores (f : Sched → Sched) : (updSch f c).cores = c.cores := rfl
@[simp] theorem Chip.updSch_tri (f : Sched → Sched) : (updSch f c).tri = c.tri := rfl
@[simp] theorem Chip.updSch_lanes (f : Sched → Sched) : (updSch f c).lanes = c.lanes := rfl
@[simp] theorem Chip.updSch_split (f : Sched → Sched) : (updSch f c).split = c.split := rfl
@[simp] theorem Chip.updSch_run (f : Sched → Sched) : (updSch f c).run = c.run := rfl
@[simp] theorem Chip.updSch_vote (f : Sched → Sched) : (updSch f c).vote = c.vote := rfl
@[simp] theorem Chip.updSch_ecc (f : Sched → Sched) : (updSch f c).ecc = c.ecc := rfl
@[simp] theorem Chip.updSch_tcmWin (f : Sched → Sched) : (updSch f c).tcmWin = c.tcmWin := rfl
@[simp] theorem Chip.updSch_dmas (f : Sched → Sched) : (updSch f c).dmas = c.dmas := rfl
@[simp] theorem Chip.updSch_fab (f : Sched → Sched) : (updSch f c).fab = c.fab := rfl
@[simp] theorem Chip.updSch_link (f : Sched → Sched) : (updSch f c).link = c.link := rfl
@[simp] theorem Chip.updSch_cmd (f : Sched → Sched) : (updSch f c).cmd = c.cmd := rfl
@[simp] theorem Chip.updSch_sec (f : Sched → Sched) : (updSch f c).sec = c.sec := rfl
@[simp] theorem Chip.updSch_fuses (f : Sched → Sched) : (updSch f c).fuses = c.fuses := rfl
@[simp] theorem Chip.updSch_pins (f : Sched → Sched) : (updSch f c).pins = c.pins := rfl
@[simp] theorem Chip.updSch_net (f : Sched → Sched) : (updSch f c).net = c.net := rfl
@[simp] theorem Chip.updSch_power (f : Sched → Sched) : (updSch f c).power = c.power := rfl
@[simp] theorem Chip.updSch_swept (f : Sched → Sched) : (updSch f c).swept = c.swept := rfl

@[simp] theorem Chip.updPwm_now (n : Fin 96) (f : Pwm → Pwm) : (updPwm n f c).now = c.now := rfl
@[simp] theorem Chip.updPwm_fresh (n : Fin 96) (f : Pwm → Pwm) : (updPwm n f c).fresh = c.fresh := rfl
@[simp] theorem Chip.updPwm_regs (n : Fin 96) (f : Pwm → Pwm) : (updPwm n f c).regs = c.regs := rfl
@[simp] theorem Chip.updPwm_regs0 (n : Fin 96) (f : Pwm → Pwm) : (updPwm n f c).regs0 = c.regs0 := rfl
@[simp] theorem Chip.updPwm_regs1 (n : Fin 96) (f : Pwm → Pwm) : (updPwm n f c).regs1 = c.regs1 := rfl
@[simp] theorem Chip.updPwm_hwset (n : Fin 96) (f : Pwm → Pwm) : (updPwm n f c).hwset = c.hwset := rfl
@[simp] theorem Chip.updPwm_counted (n : Fin 96) (f : Pwm → Pwm) : (updPwm n f c).counted = c.counted := rfl
@[simp] theorem Chip.updPwm_mem (n : Fin 96) (f : Pwm → Pwm) : (updPwm n f c).mem = c.mem := rfl
@[simp] theorem Chip.updPwm_agenda (n : Fin 96) (f : Pwm → Pwm) : (updPwm n f c).agenda = c.agenda := rfl
@[simp] theorem Chip.updPwm_resp (n : Fin 96) (f : Pwm → Pwm) : (updPwm n f c).resp = c.resp := rfl
@[simp] theorem Chip.updPwm_evm (n : Fin 96) (f : Pwm → Pwm) : (updPwm n f c).evm = c.evm := rfl
@[simp] theorem Chip.updPwm_pbs (n : Fin 96) (f : Pwm → Pwm) : (updPwm n f c).pbs = c.pbs := rfl
@[simp] theorem Chip.updPwm_caps (n : Fin 96) (f : Pwm → Pwm) : (updPwm n f c).caps = c.caps := rfl
@[simp] theorem Chip.updPwm_sched (n : Fin 96) (f : Pwm → Pwm) : (updPwm n f c).sched = c.sched := rfl
@[simp] theorem Chip.updPwm_outs (n : Fin 96) (f : Pwm → Pwm) : (updPwm n f c).outs = c.outs := rfl
@[simp] theorem Chip.updPwm_adcs (n : Fin 96) (f : Pwm → Pwm) : (updPwm n f c).adcs = c.adcs := rfl
@[simp] theorem Chip.updPwm_sdms (n : Fin 96) (f : Pwm → Pwm) : (updPwm n f c).sdms = c.sdms := rfl
@[simp] theorem Chip.updPwm_wins (n : Fin 96) (f : Pwm → Pwm) : (updPwm n f c).wins = c.wins := rfl
@[simp] theorem Chip.updPwm_slices (n : Fin 96) (f : Pwm → Pwm) : (updPwm n f c).slices = c.slices := rfl
@[simp] theorem Chip.updPwm_xls (n : Fin 96) (f : Pwm → Pwm) : (updPwm n f c).xls = c.xls := rfl
@[simp] theorem Chip.updPwm_pea (n : Fin 96) (f : Pwm → Pwm) : (updPwm n f c).pea = c.pea := rfl
@[simp] theorem Chip.updPwm_peaBus (n : Fin 96) (f : Pwm → Pwm) : (updPwm n f c).peaBus = c.peaBus := rfl
@[simp] theorem Chip.updPwm_clus (n : Fin 96) (f : Pwm → Pwm) : (updPwm n f c).clus = c.clus := rfl
@[simp] theorem Chip.updPwm_flt (n : Fin 96) (f : Pwm → Pwm) : (updPwm n f c).flt = c.flt := rfl
@[simp] theorem Chip.updPwm_cores (n : Fin 96) (f : Pwm → Pwm) : (updPwm n f c).cores = c.cores := rfl
@[simp] theorem Chip.updPwm_tri (n : Fin 96) (f : Pwm → Pwm) : (updPwm n f c).tri = c.tri := rfl
@[simp] theorem Chip.updPwm_lanes (n : Fin 96) (f : Pwm → Pwm) : (updPwm n f c).lanes = c.lanes := rfl
@[simp] theorem Chip.updPwm_split (n : Fin 96) (f : Pwm → Pwm) : (updPwm n f c).split = c.split := rfl
@[simp] theorem Chip.updPwm_run (n : Fin 96) (f : Pwm → Pwm) : (updPwm n f c).run = c.run := rfl
@[simp] theorem Chip.updPwm_vote (n : Fin 96) (f : Pwm → Pwm) : (updPwm n f c).vote = c.vote := rfl
@[simp] theorem Chip.updPwm_ecc (n : Fin 96) (f : Pwm → Pwm) : (updPwm n f c).ecc = c.ecc := rfl
@[simp] theorem Chip.updPwm_tcmWin (n : Fin 96) (f : Pwm → Pwm) : (updPwm n f c).tcmWin = c.tcmWin := rfl
@[simp] theorem Chip.updPwm_dmas (n : Fin 96) (f : Pwm → Pwm) : (updPwm n f c).dmas = c.dmas := rfl
@[simp] theorem Chip.updPwm_fab (n : Fin 96) (f : Pwm → Pwm) : (updPwm n f c).fab = c.fab := rfl
@[simp] theorem Chip.updPwm_link (n : Fin 96) (f : Pwm → Pwm) : (updPwm n f c).link = c.link := rfl
@[simp] theorem Chip.updPwm_cmd (n : Fin 96) (f : Pwm → Pwm) : (updPwm n f c).cmd = c.cmd := rfl
@[simp] theorem Chip.updPwm_sec (n : Fin 96) (f : Pwm → Pwm) : (updPwm n f c).sec = c.sec := rfl
@[simp] theorem Chip.updPwm_fuses (n : Fin 96) (f : Pwm → Pwm) : (updPwm n f c).fuses = c.fuses := rfl
@[simp] theorem Chip.updPwm_pins (n : Fin 96) (f : Pwm → Pwm) : (updPwm n f c).pins = c.pins := rfl
@[simp] theorem Chip.updPwm_net (n : Fin 96) (f : Pwm → Pwm) : (updPwm n f c).net = c.net := rfl
@[simp] theorem Chip.updPwm_power (n : Fin 96) (f : Pwm → Pwm) : (updPwm n f c).power = c.power := rfl
@[simp] theorem Chip.updPwm_swept (n : Fin 96) (f : Pwm → Pwm) : (updPwm n f c).swept = c.swept := rfl

@[simp] theorem Chip.updAdc_now (k : Fin 32) (f : Adc → Adc) : (updAdc k f c).now = c.now := rfl
@[simp] theorem Chip.updAdc_fresh (k : Fin 32) (f : Adc → Adc) : (updAdc k f c).fresh = c.fresh := rfl
@[simp] theorem Chip.updAdc_regs (k : Fin 32) (f : Adc → Adc) : (updAdc k f c).regs = c.regs := rfl
@[simp] theorem Chip.updAdc_regs0 (k : Fin 32) (f : Adc → Adc) : (updAdc k f c).regs0 = c.regs0 := rfl
@[simp] theorem Chip.updAdc_regs1 (k : Fin 32) (f : Adc → Adc) : (updAdc k f c).regs1 = c.regs1 := rfl
@[simp] theorem Chip.updAdc_hwset (k : Fin 32) (f : Adc → Adc) : (updAdc k f c).hwset = c.hwset := rfl
@[simp] theorem Chip.updAdc_counted (k : Fin 32) (f : Adc → Adc) : (updAdc k f c).counted = c.counted := rfl
@[simp] theorem Chip.updAdc_mem (k : Fin 32) (f : Adc → Adc) : (updAdc k f c).mem = c.mem := rfl
@[simp] theorem Chip.updAdc_agenda (k : Fin 32) (f : Adc → Adc) : (updAdc k f c).agenda = c.agenda := rfl
@[simp] theorem Chip.updAdc_resp (k : Fin 32) (f : Adc → Adc) : (updAdc k f c).resp = c.resp := rfl
@[simp] theorem Chip.updAdc_evm (k : Fin 32) (f : Adc → Adc) : (updAdc k f c).evm = c.evm := rfl
@[simp] theorem Chip.updAdc_pbs (k : Fin 32) (f : Adc → Adc) : (updAdc k f c).pbs = c.pbs := rfl
@[simp] theorem Chip.updAdc_caps (k : Fin 32) (f : Adc → Adc) : (updAdc k f c).caps = c.caps := rfl
@[simp] theorem Chip.updAdc_sched (k : Fin 32) (f : Adc → Adc) : (updAdc k f c).sched = c.sched := rfl
@[simp] theorem Chip.updAdc_pwms (k : Fin 32) (f : Adc → Adc) : (updAdc k f c).pwms = c.pwms := rfl
@[simp] theorem Chip.updAdc_outs (k : Fin 32) (f : Adc → Adc) : (updAdc k f c).outs = c.outs := rfl
@[simp] theorem Chip.updAdc_sdms (k : Fin 32) (f : Adc → Adc) : (updAdc k f c).sdms = c.sdms := rfl
@[simp] theorem Chip.updAdc_wins (k : Fin 32) (f : Adc → Adc) : (updAdc k f c).wins = c.wins := rfl
@[simp] theorem Chip.updAdc_slices (k : Fin 32) (f : Adc → Adc) : (updAdc k f c).slices = c.slices := rfl
@[simp] theorem Chip.updAdc_xls (k : Fin 32) (f : Adc → Adc) : (updAdc k f c).xls = c.xls := rfl
@[simp] theorem Chip.updAdc_pea (k : Fin 32) (f : Adc → Adc) : (updAdc k f c).pea = c.pea := rfl
@[simp] theorem Chip.updAdc_peaBus (k : Fin 32) (f : Adc → Adc) : (updAdc k f c).peaBus = c.peaBus := rfl
@[simp] theorem Chip.updAdc_clus (k : Fin 32) (f : Adc → Adc) : (updAdc k f c).clus = c.clus := rfl
@[simp] theorem Chip.updAdc_flt (k : Fin 32) (f : Adc → Adc) : (updAdc k f c).flt = c.flt := rfl
@[simp] theorem Chip.updAdc_cores (k : Fin 32) (f : Adc → Adc) : (updAdc k f c).cores = c.cores := rfl
@[simp] theorem Chip.updAdc_tri (k : Fin 32) (f : Adc → Adc) : (updAdc k f c).tri = c.tri := rfl
@[simp] theorem Chip.updAdc_lanes (k : Fin 32) (f : Adc → Adc) : (updAdc k f c).lanes = c.lanes := rfl
@[simp] theorem Chip.updAdc_split (k : Fin 32) (f : Adc → Adc) : (updAdc k f c).split = c.split := rfl
@[simp] theorem Chip.updAdc_run (k : Fin 32) (f : Adc → Adc) : (updAdc k f c).run = c.run := rfl
@[simp] theorem Chip.updAdc_vote (k : Fin 32) (f : Adc → Adc) : (updAdc k f c).vote = c.vote := rfl
@[simp] theorem Chip.updAdc_ecc (k : Fin 32) (f : Adc → Adc) : (updAdc k f c).ecc = c.ecc := rfl
@[simp] theorem Chip.updAdc_tcmWin (k : Fin 32) (f : Adc → Adc) : (updAdc k f c).tcmWin = c.tcmWin := rfl
@[simp] theorem Chip.updAdc_dmas (k : Fin 32) (f : Adc → Adc) : (updAdc k f c).dmas = c.dmas := rfl
@[simp] theorem Chip.updAdc_fab (k : Fin 32) (f : Adc → Adc) : (updAdc k f c).fab = c.fab := rfl
@[simp] theorem Chip.updAdc_link (k : Fin 32) (f : Adc → Adc) : (updAdc k f c).link = c.link := rfl
@[simp] theorem Chip.updAdc_cmd (k : Fin 32) (f : Adc → Adc) : (updAdc k f c).cmd = c.cmd := rfl
@[simp] theorem Chip.updAdc_sec (k : Fin 32) (f : Adc → Adc) : (updAdc k f c).sec = c.sec := rfl
@[simp] theorem Chip.updAdc_fuses (k : Fin 32) (f : Adc → Adc) : (updAdc k f c).fuses = c.fuses := rfl
@[simp] theorem Chip.updAdc_pins (k : Fin 32) (f : Adc → Adc) : (updAdc k f c).pins = c.pins := rfl
@[simp] theorem Chip.updAdc_net (k : Fin 32) (f : Adc → Adc) : (updAdc k f c).net = c.net := rfl
@[simp] theorem Chip.updAdc_power (k : Fin 32) (f : Adc → Adc) : (updAdc k f c).power = c.power := rfl
@[simp] theorem Chip.updAdc_swept (k : Fin 32) (f : Adc → Adc) : (updAdc k f c).swept = c.swept := rfl

@[simp] theorem Chip.updSdm_now (k : Fin 32) (f : Sdm → Sdm) : (updSdm k f c).now = c.now := rfl
@[simp] theorem Chip.updSdm_fresh (k : Fin 32) (f : Sdm → Sdm) : (updSdm k f c).fresh = c.fresh := rfl
@[simp] theorem Chip.updSdm_regs (k : Fin 32) (f : Sdm → Sdm) : (updSdm k f c).regs = c.regs := rfl
@[simp] theorem Chip.updSdm_regs0 (k : Fin 32) (f : Sdm → Sdm) : (updSdm k f c).regs0 = c.regs0 := rfl
@[simp] theorem Chip.updSdm_regs1 (k : Fin 32) (f : Sdm → Sdm) : (updSdm k f c).regs1 = c.regs1 := rfl
@[simp] theorem Chip.updSdm_hwset (k : Fin 32) (f : Sdm → Sdm) : (updSdm k f c).hwset = c.hwset := rfl
@[simp] theorem Chip.updSdm_counted (k : Fin 32) (f : Sdm → Sdm) : (updSdm k f c).counted = c.counted := rfl
@[simp] theorem Chip.updSdm_mem (k : Fin 32) (f : Sdm → Sdm) : (updSdm k f c).mem = c.mem := rfl
@[simp] theorem Chip.updSdm_agenda (k : Fin 32) (f : Sdm → Sdm) : (updSdm k f c).agenda = c.agenda := rfl
@[simp] theorem Chip.updSdm_resp (k : Fin 32) (f : Sdm → Sdm) : (updSdm k f c).resp = c.resp := rfl
@[simp] theorem Chip.updSdm_evm (k : Fin 32) (f : Sdm → Sdm) : (updSdm k f c).evm = c.evm := rfl
@[simp] theorem Chip.updSdm_pbs (k : Fin 32) (f : Sdm → Sdm) : (updSdm k f c).pbs = c.pbs := rfl
@[simp] theorem Chip.updSdm_caps (k : Fin 32) (f : Sdm → Sdm) : (updSdm k f c).caps = c.caps := rfl
@[simp] theorem Chip.updSdm_sched (k : Fin 32) (f : Sdm → Sdm) : (updSdm k f c).sched = c.sched := rfl
@[simp] theorem Chip.updSdm_pwms (k : Fin 32) (f : Sdm → Sdm) : (updSdm k f c).pwms = c.pwms := rfl
@[simp] theorem Chip.updSdm_outs (k : Fin 32) (f : Sdm → Sdm) : (updSdm k f c).outs = c.outs := rfl
@[simp] theorem Chip.updSdm_adcs (k : Fin 32) (f : Sdm → Sdm) : (updSdm k f c).adcs = c.adcs := rfl
@[simp] theorem Chip.updSdm_wins (k : Fin 32) (f : Sdm → Sdm) : (updSdm k f c).wins = c.wins := rfl
@[simp] theorem Chip.updSdm_slices (k : Fin 32) (f : Sdm → Sdm) : (updSdm k f c).slices = c.slices := rfl
@[simp] theorem Chip.updSdm_xls (k : Fin 32) (f : Sdm → Sdm) : (updSdm k f c).xls = c.xls := rfl
@[simp] theorem Chip.updSdm_pea (k : Fin 32) (f : Sdm → Sdm) : (updSdm k f c).pea = c.pea := rfl
@[simp] theorem Chip.updSdm_peaBus (k : Fin 32) (f : Sdm → Sdm) : (updSdm k f c).peaBus = c.peaBus := rfl
@[simp] theorem Chip.updSdm_clus (k : Fin 32) (f : Sdm → Sdm) : (updSdm k f c).clus = c.clus := rfl
@[simp] theorem Chip.updSdm_flt (k : Fin 32) (f : Sdm → Sdm) : (updSdm k f c).flt = c.flt := rfl
@[simp] theorem Chip.updSdm_cores (k : Fin 32) (f : Sdm → Sdm) : (updSdm k f c).cores = c.cores := rfl
@[simp] theorem Chip.updSdm_tri (k : Fin 32) (f : Sdm → Sdm) : (updSdm k f c).tri = c.tri := rfl
@[simp] theorem Chip.updSdm_lanes (k : Fin 32) (f : Sdm → Sdm) : (updSdm k f c).lanes = c.lanes := rfl
@[simp] theorem Chip.updSdm_split (k : Fin 32) (f : Sdm → Sdm) : (updSdm k f c).split = c.split := rfl
@[simp] theorem Chip.updSdm_run (k : Fin 32) (f : Sdm → Sdm) : (updSdm k f c).run = c.run := rfl
@[simp] theorem Chip.updSdm_vote (k : Fin 32) (f : Sdm → Sdm) : (updSdm k f c).vote = c.vote := rfl
@[simp] theorem Chip.updSdm_ecc (k : Fin 32) (f : Sdm → Sdm) : (updSdm k f c).ecc = c.ecc := rfl
@[simp] theorem Chip.updSdm_tcmWin (k : Fin 32) (f : Sdm → Sdm) : (updSdm k f c).tcmWin = c.tcmWin := rfl
@[simp] theorem Chip.updSdm_dmas (k : Fin 32) (f : Sdm → Sdm) : (updSdm k f c).dmas = c.dmas := rfl
@[simp] theorem Chip.updSdm_fab (k : Fin 32) (f : Sdm → Sdm) : (updSdm k f c).fab = c.fab := rfl
@[simp] theorem Chip.updSdm_link (k : Fin 32) (f : Sdm → Sdm) : (updSdm k f c).link = c.link := rfl
@[simp] theorem Chip.updSdm_cmd (k : Fin 32) (f : Sdm → Sdm) : (updSdm k f c).cmd = c.cmd := rfl
@[simp] theorem Chip.updSdm_sec (k : Fin 32) (f : Sdm → Sdm) : (updSdm k f c).sec = c.sec := rfl
@[simp] theorem Chip.updSdm_fuses (k : Fin 32) (f : Sdm → Sdm) : (updSdm k f c).fuses = c.fuses := rfl
@[simp] theorem Chip.updSdm_pins (k : Fin 32) (f : Sdm → Sdm) : (updSdm k f c).pins = c.pins := rfl
@[simp] theorem Chip.updSdm_net (k : Fin 32) (f : Sdm → Sdm) : (updSdm k f c).net = c.net := rfl
@[simp] theorem Chip.updSdm_power (k : Fin 32) (f : Sdm → Sdm) : (updSdm k f c).power = c.power := rfl
@[simp] theorem Chip.updSdm_swept (k : Fin 32) (f : Sdm → Sdm) : (updSdm k f c).swept = c.swept := rfl

@[simp] theorem Chip.updWin_now (w : Fin 96) (f : Win → Win) : (updWin w f c).now = c.now := rfl
@[simp] theorem Chip.updWin_fresh (w : Fin 96) (f : Win → Win) : (updWin w f c).fresh = c.fresh := rfl
@[simp] theorem Chip.updWin_regs (w : Fin 96) (f : Win → Win) : (updWin w f c).regs = c.regs := rfl
@[simp] theorem Chip.updWin_regs0 (w : Fin 96) (f : Win → Win) : (updWin w f c).regs0 = c.regs0 := rfl
@[simp] theorem Chip.updWin_regs1 (w : Fin 96) (f : Win → Win) : (updWin w f c).regs1 = c.regs1 := rfl
@[simp] theorem Chip.updWin_hwset (w : Fin 96) (f : Win → Win) : (updWin w f c).hwset = c.hwset := rfl
@[simp] theorem Chip.updWin_counted (w : Fin 96) (f : Win → Win) : (updWin w f c).counted = c.counted := rfl
@[simp] theorem Chip.updWin_mem (w : Fin 96) (f : Win → Win) : (updWin w f c).mem = c.mem := rfl
@[simp] theorem Chip.updWin_agenda (w : Fin 96) (f : Win → Win) : (updWin w f c).agenda = c.agenda := rfl
@[simp] theorem Chip.updWin_resp (w : Fin 96) (f : Win → Win) : (updWin w f c).resp = c.resp := rfl
@[simp] theorem Chip.updWin_evm (w : Fin 96) (f : Win → Win) : (updWin w f c).evm = c.evm := rfl
@[simp] theorem Chip.updWin_pbs (w : Fin 96) (f : Win → Win) : (updWin w f c).pbs = c.pbs := rfl
@[simp] theorem Chip.updWin_caps (w : Fin 96) (f : Win → Win) : (updWin w f c).caps = c.caps := rfl
@[simp] theorem Chip.updWin_sched (w : Fin 96) (f : Win → Win) : (updWin w f c).sched = c.sched := rfl
@[simp] theorem Chip.updWin_pwms (w : Fin 96) (f : Win → Win) : (updWin w f c).pwms = c.pwms := rfl
@[simp] theorem Chip.updWin_outs (w : Fin 96) (f : Win → Win) : (updWin w f c).outs = c.outs := rfl
@[simp] theorem Chip.updWin_adcs (w : Fin 96) (f : Win → Win) : (updWin w f c).adcs = c.adcs := rfl
@[simp] theorem Chip.updWin_sdms (w : Fin 96) (f : Win → Win) : (updWin w f c).sdms = c.sdms := rfl
@[simp] theorem Chip.updWin_slices (w : Fin 96) (f : Win → Win) : (updWin w f c).slices = c.slices := rfl
@[simp] theorem Chip.updWin_xls (w : Fin 96) (f : Win → Win) : (updWin w f c).xls = c.xls := rfl
@[simp] theorem Chip.updWin_pea (w : Fin 96) (f : Win → Win) : (updWin w f c).pea = c.pea := rfl
@[simp] theorem Chip.updWin_peaBus (w : Fin 96) (f : Win → Win) : (updWin w f c).peaBus = c.peaBus := rfl
@[simp] theorem Chip.updWin_clus (w : Fin 96) (f : Win → Win) : (updWin w f c).clus = c.clus := rfl
@[simp] theorem Chip.updWin_flt (w : Fin 96) (f : Win → Win) : (updWin w f c).flt = c.flt := rfl
@[simp] theorem Chip.updWin_cores (w : Fin 96) (f : Win → Win) : (updWin w f c).cores = c.cores := rfl
@[simp] theorem Chip.updWin_tri (w : Fin 96) (f : Win → Win) : (updWin w f c).tri = c.tri := rfl
@[simp] theorem Chip.updWin_lanes (w : Fin 96) (f : Win → Win) : (updWin w f c).lanes = c.lanes := rfl
@[simp] theorem Chip.updWin_split (w : Fin 96) (f : Win → Win) : (updWin w f c).split = c.split := rfl
@[simp] theorem Chip.updWin_run (w : Fin 96) (f : Win → Win) : (updWin w f c).run = c.run := rfl
@[simp] theorem Chip.updWin_vote (w : Fin 96) (f : Win → Win) : (updWin w f c).vote = c.vote := rfl
@[simp] theorem Chip.updWin_ecc (w : Fin 96) (f : Win → Win) : (updWin w f c).ecc = c.ecc := rfl
@[simp] theorem Chip.updWin_tcmWin (w : Fin 96) (f : Win → Win) : (updWin w f c).tcmWin = c.tcmWin := rfl
@[simp] theorem Chip.updWin_dmas (w : Fin 96) (f : Win → Win) : (updWin w f c).dmas = c.dmas := rfl
@[simp] theorem Chip.updWin_fab (w : Fin 96) (f : Win → Win) : (updWin w f c).fab = c.fab := rfl
@[simp] theorem Chip.updWin_link (w : Fin 96) (f : Win → Win) : (updWin w f c).link = c.link := rfl
@[simp] theorem Chip.updWin_cmd (w : Fin 96) (f : Win → Win) : (updWin w f c).cmd = c.cmd := rfl
@[simp] theorem Chip.updWin_sec (w : Fin 96) (f : Win → Win) : (updWin w f c).sec = c.sec := rfl
@[simp] theorem Chip.updWin_fuses (w : Fin 96) (f : Win → Win) : (updWin w f c).fuses = c.fuses := rfl
@[simp] theorem Chip.updWin_pins (w : Fin 96) (f : Win → Win) : (updWin w f c).pins = c.pins := rfl
@[simp] theorem Chip.updWin_net (w : Fin 96) (f : Win → Win) : (updWin w f c).net = c.net := rfl
@[simp] theorem Chip.updWin_power (w : Fin 96) (f : Win → Win) : (updWin w f c).power = c.power := rfl
@[simp] theorem Chip.updWin_swept (w : Fin 96) (f : Win → Win) : (updWin w f c).swept = c.swept := rfl

@[simp] theorem Chip.updXl_now (s : Fin 12) (f : Xl → Xl) : (updXl s f c).now = c.now := rfl
@[simp] theorem Chip.updXl_fresh (s : Fin 12) (f : Xl → Xl) : (updXl s f c).fresh = c.fresh := rfl
@[simp] theorem Chip.updXl_regs (s : Fin 12) (f : Xl → Xl) : (updXl s f c).regs = c.regs := rfl
@[simp] theorem Chip.updXl_regs0 (s : Fin 12) (f : Xl → Xl) : (updXl s f c).regs0 = c.regs0 := rfl
@[simp] theorem Chip.updXl_regs1 (s : Fin 12) (f : Xl → Xl) : (updXl s f c).regs1 = c.regs1 := rfl
@[simp] theorem Chip.updXl_hwset (s : Fin 12) (f : Xl → Xl) : (updXl s f c).hwset = c.hwset := rfl
@[simp] theorem Chip.updXl_counted (s : Fin 12) (f : Xl → Xl) : (updXl s f c).counted = c.counted := rfl
@[simp] theorem Chip.updXl_mem (s : Fin 12) (f : Xl → Xl) : (updXl s f c).mem = c.mem := rfl
@[simp] theorem Chip.updXl_agenda (s : Fin 12) (f : Xl → Xl) : (updXl s f c).agenda = c.agenda := rfl
@[simp] theorem Chip.updXl_resp (s : Fin 12) (f : Xl → Xl) : (updXl s f c).resp = c.resp := rfl
@[simp] theorem Chip.updXl_evm (s : Fin 12) (f : Xl → Xl) : (updXl s f c).evm = c.evm := rfl
@[simp] theorem Chip.updXl_pbs (s : Fin 12) (f : Xl → Xl) : (updXl s f c).pbs = c.pbs := rfl
@[simp] theorem Chip.updXl_caps (s : Fin 12) (f : Xl → Xl) : (updXl s f c).caps = c.caps := rfl
@[simp] theorem Chip.updXl_sched (s : Fin 12) (f : Xl → Xl) : (updXl s f c).sched = c.sched := rfl
@[simp] theorem Chip.updXl_pwms (s : Fin 12) (f : Xl → Xl) : (updXl s f c).pwms = c.pwms := rfl
@[simp] theorem Chip.updXl_outs (s : Fin 12) (f : Xl → Xl) : (updXl s f c).outs = c.outs := rfl
@[simp] theorem Chip.updXl_adcs (s : Fin 12) (f : Xl → Xl) : (updXl s f c).adcs = c.adcs := rfl
@[simp] theorem Chip.updXl_sdms (s : Fin 12) (f : Xl → Xl) : (updXl s f c).sdms = c.sdms := rfl
@[simp] theorem Chip.updXl_wins (s : Fin 12) (f : Xl → Xl) : (updXl s f c).wins = c.wins := rfl
@[simp] theorem Chip.updXl_slices (s : Fin 12) (f : Xl → Xl) : (updXl s f c).slices = c.slices := rfl
@[simp] theorem Chip.updXl_pea (s : Fin 12) (f : Xl → Xl) : (updXl s f c).pea = c.pea := rfl
@[simp] theorem Chip.updXl_peaBus (s : Fin 12) (f : Xl → Xl) : (updXl s f c).peaBus = c.peaBus := rfl
@[simp] theorem Chip.updXl_clus (s : Fin 12) (f : Xl → Xl) : (updXl s f c).clus = c.clus := rfl
@[simp] theorem Chip.updXl_flt (s : Fin 12) (f : Xl → Xl) : (updXl s f c).flt = c.flt := rfl
@[simp] theorem Chip.updXl_cores (s : Fin 12) (f : Xl → Xl) : (updXl s f c).cores = c.cores := rfl
@[simp] theorem Chip.updXl_tri (s : Fin 12) (f : Xl → Xl) : (updXl s f c).tri = c.tri := rfl
@[simp] theorem Chip.updXl_lanes (s : Fin 12) (f : Xl → Xl) : (updXl s f c).lanes = c.lanes := rfl
@[simp] theorem Chip.updXl_split (s : Fin 12) (f : Xl → Xl) : (updXl s f c).split = c.split := rfl
@[simp] theorem Chip.updXl_run (s : Fin 12) (f : Xl → Xl) : (updXl s f c).run = c.run := rfl
@[simp] theorem Chip.updXl_vote (s : Fin 12) (f : Xl → Xl) : (updXl s f c).vote = c.vote := rfl
@[simp] theorem Chip.updXl_ecc (s : Fin 12) (f : Xl → Xl) : (updXl s f c).ecc = c.ecc := rfl
@[simp] theorem Chip.updXl_tcmWin (s : Fin 12) (f : Xl → Xl) : (updXl s f c).tcmWin = c.tcmWin := rfl
@[simp] theorem Chip.updXl_dmas (s : Fin 12) (f : Xl → Xl) : (updXl s f c).dmas = c.dmas := rfl
@[simp] theorem Chip.updXl_fab (s : Fin 12) (f : Xl → Xl) : (updXl s f c).fab = c.fab := rfl
@[simp] theorem Chip.updXl_link (s : Fin 12) (f : Xl → Xl) : (updXl s f c).link = c.link := rfl
@[simp] theorem Chip.updXl_cmd (s : Fin 12) (f : Xl → Xl) : (updXl s f c).cmd = c.cmd := rfl
@[simp] theorem Chip.updXl_sec (s : Fin 12) (f : Xl → Xl) : (updXl s f c).sec = c.sec := rfl
@[simp] theorem Chip.updXl_fuses (s : Fin 12) (f : Xl → Xl) : (updXl s f c).fuses = c.fuses := rfl
@[simp] theorem Chip.updXl_pins (s : Fin 12) (f : Xl → Xl) : (updXl s f c).pins = c.pins := rfl
@[simp] theorem Chip.updXl_net (s : Fin 12) (f : Xl → Xl) : (updXl s f c).net = c.net := rfl
@[simp] theorem Chip.updXl_power (s : Fin 12) (f : Xl → Xl) : (updXl s f c).power = c.power := rfl
@[simp] theorem Chip.updXl_swept (s : Fin 12) (f : Xl → Xl) : (updXl s f c).swept = c.swept := rfl

@[simp] theorem Chip.updSlice_now (s : Fin 12) (f : Slice → Slice) : (updSlice s f c).now = c.now := rfl
@[simp] theorem Chip.updSlice_fresh (s : Fin 12) (f : Slice → Slice) : (updSlice s f c).fresh = c.fresh := rfl
@[simp] theorem Chip.updSlice_regs (s : Fin 12) (f : Slice → Slice) : (updSlice s f c).regs = c.regs := rfl
@[simp] theorem Chip.updSlice_regs0 (s : Fin 12) (f : Slice → Slice) : (updSlice s f c).regs0 = c.regs0 := rfl
@[simp] theorem Chip.updSlice_regs1 (s : Fin 12) (f : Slice → Slice) : (updSlice s f c).regs1 = c.regs1 := rfl
@[simp] theorem Chip.updSlice_hwset (s : Fin 12) (f : Slice → Slice) : (updSlice s f c).hwset = c.hwset := rfl
@[simp] theorem Chip.updSlice_counted (s : Fin 12) (f : Slice → Slice) : (updSlice s f c).counted = c.counted := rfl
@[simp] theorem Chip.updSlice_mem (s : Fin 12) (f : Slice → Slice) : (updSlice s f c).mem = c.mem := rfl
@[simp] theorem Chip.updSlice_agenda (s : Fin 12) (f : Slice → Slice) : (updSlice s f c).agenda = c.agenda := rfl
@[simp] theorem Chip.updSlice_resp (s : Fin 12) (f : Slice → Slice) : (updSlice s f c).resp = c.resp := rfl
@[simp] theorem Chip.updSlice_evm (s : Fin 12) (f : Slice → Slice) : (updSlice s f c).evm = c.evm := rfl
@[simp] theorem Chip.updSlice_pbs (s : Fin 12) (f : Slice → Slice) : (updSlice s f c).pbs = c.pbs := rfl
@[simp] theorem Chip.updSlice_caps (s : Fin 12) (f : Slice → Slice) : (updSlice s f c).caps = c.caps := rfl
@[simp] theorem Chip.updSlice_sched (s : Fin 12) (f : Slice → Slice) : (updSlice s f c).sched = c.sched := rfl
@[simp] theorem Chip.updSlice_pwms (s : Fin 12) (f : Slice → Slice) : (updSlice s f c).pwms = c.pwms := rfl
@[simp] theorem Chip.updSlice_outs (s : Fin 12) (f : Slice → Slice) : (updSlice s f c).outs = c.outs := rfl
@[simp] theorem Chip.updSlice_adcs (s : Fin 12) (f : Slice → Slice) : (updSlice s f c).adcs = c.adcs := rfl
@[simp] theorem Chip.updSlice_sdms (s : Fin 12) (f : Slice → Slice) : (updSlice s f c).sdms = c.sdms := rfl
@[simp] theorem Chip.updSlice_wins (s : Fin 12) (f : Slice → Slice) : (updSlice s f c).wins = c.wins := rfl
@[simp] theorem Chip.updSlice_xls (s : Fin 12) (f : Slice → Slice) : (updSlice s f c).xls = c.xls := rfl
@[simp] theorem Chip.updSlice_pea (s : Fin 12) (f : Slice → Slice) : (updSlice s f c).pea = c.pea := rfl
@[simp] theorem Chip.updSlice_peaBus (s : Fin 12) (f : Slice → Slice) : (updSlice s f c).peaBus = c.peaBus := rfl
@[simp] theorem Chip.updSlice_clus (s : Fin 12) (f : Slice → Slice) : (updSlice s f c).clus = c.clus := rfl
@[simp] theorem Chip.updSlice_flt (s : Fin 12) (f : Slice → Slice) : (updSlice s f c).flt = c.flt := rfl
@[simp] theorem Chip.updSlice_cores (s : Fin 12) (f : Slice → Slice) : (updSlice s f c).cores = c.cores := rfl
@[simp] theorem Chip.updSlice_tri (s : Fin 12) (f : Slice → Slice) : (updSlice s f c).tri = c.tri := rfl
@[simp] theorem Chip.updSlice_lanes (s : Fin 12) (f : Slice → Slice) : (updSlice s f c).lanes = c.lanes := rfl
@[simp] theorem Chip.updSlice_split (s : Fin 12) (f : Slice → Slice) : (updSlice s f c).split = c.split := rfl
@[simp] theorem Chip.updSlice_run (s : Fin 12) (f : Slice → Slice) : (updSlice s f c).run = c.run := rfl
@[simp] theorem Chip.updSlice_vote (s : Fin 12) (f : Slice → Slice) : (updSlice s f c).vote = c.vote := rfl
@[simp] theorem Chip.updSlice_ecc (s : Fin 12) (f : Slice → Slice) : (updSlice s f c).ecc = c.ecc := rfl
@[simp] theorem Chip.updSlice_tcmWin (s : Fin 12) (f : Slice → Slice) : (updSlice s f c).tcmWin = c.tcmWin := rfl
@[simp] theorem Chip.updSlice_dmas (s : Fin 12) (f : Slice → Slice) : (updSlice s f c).dmas = c.dmas := rfl
@[simp] theorem Chip.updSlice_fab (s : Fin 12) (f : Slice → Slice) : (updSlice s f c).fab = c.fab := rfl
@[simp] theorem Chip.updSlice_link (s : Fin 12) (f : Slice → Slice) : (updSlice s f c).link = c.link := rfl
@[simp] theorem Chip.updSlice_cmd (s : Fin 12) (f : Slice → Slice) : (updSlice s f c).cmd = c.cmd := rfl
@[simp] theorem Chip.updSlice_sec (s : Fin 12) (f : Slice → Slice) : (updSlice s f c).sec = c.sec := rfl
@[simp] theorem Chip.updSlice_fuses (s : Fin 12) (f : Slice → Slice) : (updSlice s f c).fuses = c.fuses := rfl
@[simp] theorem Chip.updSlice_pins (s : Fin 12) (f : Slice → Slice) : (updSlice s f c).pins = c.pins := rfl
@[simp] theorem Chip.updSlice_net (s : Fin 12) (f : Slice → Slice) : (updSlice s f c).net = c.net := rfl
@[simp] theorem Chip.updSlice_power (s : Fin 12) (f : Slice → Slice) : (updSlice s f c).power = c.power := rfl
@[simp] theorem Chip.updSlice_swept (s : Fin 12) (f : Slice → Slice) : (updSlice s f c).swept = c.swept := rfl

@[simp] theorem Chip.updDma_now (u : Fin 2) (f : DmaUnit → DmaUnit) : (updDma u f c).now = c.now := rfl
@[simp] theorem Chip.updDma_fresh (u : Fin 2) (f : DmaUnit → DmaUnit) : (updDma u f c).fresh = c.fresh := rfl
@[simp] theorem Chip.updDma_regs (u : Fin 2) (f : DmaUnit → DmaUnit) : (updDma u f c).regs = c.regs := rfl
@[simp] theorem Chip.updDma_regs0 (u : Fin 2) (f : DmaUnit → DmaUnit) : (updDma u f c).regs0 = c.regs0 := rfl
@[simp] theorem Chip.updDma_regs1 (u : Fin 2) (f : DmaUnit → DmaUnit) : (updDma u f c).regs1 = c.regs1 := rfl
@[simp] theorem Chip.updDma_hwset (u : Fin 2) (f : DmaUnit → DmaUnit) : (updDma u f c).hwset = c.hwset := rfl
@[simp] theorem Chip.updDma_counted (u : Fin 2) (f : DmaUnit → DmaUnit) : (updDma u f c).counted = c.counted := rfl
@[simp] theorem Chip.updDma_mem (u : Fin 2) (f : DmaUnit → DmaUnit) : (updDma u f c).mem = c.mem := rfl
@[simp] theorem Chip.updDma_agenda (u : Fin 2) (f : DmaUnit → DmaUnit) : (updDma u f c).agenda = c.agenda := rfl
@[simp] theorem Chip.updDma_resp (u : Fin 2) (f : DmaUnit → DmaUnit) : (updDma u f c).resp = c.resp := rfl
@[simp] theorem Chip.updDma_evm (u : Fin 2) (f : DmaUnit → DmaUnit) : (updDma u f c).evm = c.evm := rfl
@[simp] theorem Chip.updDma_pbs (u : Fin 2) (f : DmaUnit → DmaUnit) : (updDma u f c).pbs = c.pbs := rfl
@[simp] theorem Chip.updDma_caps (u : Fin 2) (f : DmaUnit → DmaUnit) : (updDma u f c).caps = c.caps := rfl
@[simp] theorem Chip.updDma_sched (u : Fin 2) (f : DmaUnit → DmaUnit) : (updDma u f c).sched = c.sched := rfl
@[simp] theorem Chip.updDma_pwms (u : Fin 2) (f : DmaUnit → DmaUnit) : (updDma u f c).pwms = c.pwms := rfl
@[simp] theorem Chip.updDma_outs (u : Fin 2) (f : DmaUnit → DmaUnit) : (updDma u f c).outs = c.outs := rfl
@[simp] theorem Chip.updDma_adcs (u : Fin 2) (f : DmaUnit → DmaUnit) : (updDma u f c).adcs = c.adcs := rfl
@[simp] theorem Chip.updDma_sdms (u : Fin 2) (f : DmaUnit → DmaUnit) : (updDma u f c).sdms = c.sdms := rfl
@[simp] theorem Chip.updDma_wins (u : Fin 2) (f : DmaUnit → DmaUnit) : (updDma u f c).wins = c.wins := rfl
@[simp] theorem Chip.updDma_slices (u : Fin 2) (f : DmaUnit → DmaUnit) : (updDma u f c).slices = c.slices := rfl
@[simp] theorem Chip.updDma_xls (u : Fin 2) (f : DmaUnit → DmaUnit) : (updDma u f c).xls = c.xls := rfl
@[simp] theorem Chip.updDma_pea (u : Fin 2) (f : DmaUnit → DmaUnit) : (updDma u f c).pea = c.pea := rfl
@[simp] theorem Chip.updDma_peaBus (u : Fin 2) (f : DmaUnit → DmaUnit) : (updDma u f c).peaBus = c.peaBus := rfl
@[simp] theorem Chip.updDma_clus (u : Fin 2) (f : DmaUnit → DmaUnit) : (updDma u f c).clus = c.clus := rfl
@[simp] theorem Chip.updDma_flt (u : Fin 2) (f : DmaUnit → DmaUnit) : (updDma u f c).flt = c.flt := rfl
@[simp] theorem Chip.updDma_cores (u : Fin 2) (f : DmaUnit → DmaUnit) : (updDma u f c).cores = c.cores := rfl
@[simp] theorem Chip.updDma_tri (u : Fin 2) (f : DmaUnit → DmaUnit) : (updDma u f c).tri = c.tri := rfl
@[simp] theorem Chip.updDma_lanes (u : Fin 2) (f : DmaUnit → DmaUnit) : (updDma u f c).lanes = c.lanes := rfl
@[simp] theorem Chip.updDma_split (u : Fin 2) (f : DmaUnit → DmaUnit) : (updDma u f c).split = c.split := rfl
@[simp] theorem Chip.updDma_run (u : Fin 2) (f : DmaUnit → DmaUnit) : (updDma u f c).run = c.run := rfl
@[simp] theorem Chip.updDma_vote (u : Fin 2) (f : DmaUnit → DmaUnit) : (updDma u f c).vote = c.vote := rfl
@[simp] theorem Chip.updDma_ecc (u : Fin 2) (f : DmaUnit → DmaUnit) : (updDma u f c).ecc = c.ecc := rfl
@[simp] theorem Chip.updDma_tcmWin (u : Fin 2) (f : DmaUnit → DmaUnit) : (updDma u f c).tcmWin = c.tcmWin := rfl
@[simp] theorem Chip.updDma_fab (u : Fin 2) (f : DmaUnit → DmaUnit) : (updDma u f c).fab = c.fab := rfl
@[simp] theorem Chip.updDma_link (u : Fin 2) (f : DmaUnit → DmaUnit) : (updDma u f c).link = c.link := rfl
@[simp] theorem Chip.updDma_cmd (u : Fin 2) (f : DmaUnit → DmaUnit) : (updDma u f c).cmd = c.cmd := rfl
@[simp] theorem Chip.updDma_sec (u : Fin 2) (f : DmaUnit → DmaUnit) : (updDma u f c).sec = c.sec := rfl
@[simp] theorem Chip.updDma_fuses (u : Fin 2) (f : DmaUnit → DmaUnit) : (updDma u f c).fuses = c.fuses := rfl
@[simp] theorem Chip.updDma_pins (u : Fin 2) (f : DmaUnit → DmaUnit) : (updDma u f c).pins = c.pins := rfl
@[simp] theorem Chip.updDma_net (u : Fin 2) (f : DmaUnit → DmaUnit) : (updDma u f c).net = c.net := rfl
@[simp] theorem Chip.updDma_power (u : Fin 2) (f : DmaUnit → DmaUnit) : (updDma u f c).power = c.power := rfl
@[simp] theorem Chip.updDma_swept (u : Fin 2) (f : DmaUnit → DmaUnit) : (updDma u f c).swept = c.swept := rfl

@[simp] theorem Chip.updTev_now (i : Fin 16) (f : Tev → Tev) : (updTev i f c).now = c.now := rfl
@[simp] theorem Chip.updTev_fresh (i : Fin 16) (f : Tev → Tev) : (updTev i f c).fresh = c.fresh := rfl
@[simp] theorem Chip.updTev_regs (i : Fin 16) (f : Tev → Tev) : (updTev i f c).regs = c.regs := rfl
@[simp] theorem Chip.updTev_regs0 (i : Fin 16) (f : Tev → Tev) : (updTev i f c).regs0 = c.regs0 := rfl
@[simp] theorem Chip.updTev_regs1 (i : Fin 16) (f : Tev → Tev) : (updTev i f c).regs1 = c.regs1 := rfl
@[simp] theorem Chip.updTev_hwset (i : Fin 16) (f : Tev → Tev) : (updTev i f c).hwset = c.hwset := rfl
@[simp] theorem Chip.updTev_counted (i : Fin 16) (f : Tev → Tev) : (updTev i f c).counted = c.counted := rfl
@[simp] theorem Chip.updTev_mem (i : Fin 16) (f : Tev → Tev) : (updTev i f c).mem = c.mem := rfl
@[simp] theorem Chip.updTev_agenda (i : Fin 16) (f : Tev → Tev) : (updTev i f c).agenda = c.agenda := rfl
@[simp] theorem Chip.updTev_resp (i : Fin 16) (f : Tev → Tev) : (updTev i f c).resp = c.resp := rfl
@[simp] theorem Chip.updTev_evm (i : Fin 16) (f : Tev → Tev) : (updTev i f c).evm = c.evm := rfl
@[simp] theorem Chip.updTev_pbs (i : Fin 16) (f : Tev → Tev) : (updTev i f c).pbs = c.pbs := rfl
@[simp] theorem Chip.updTev_caps (i : Fin 16) (f : Tev → Tev) : (updTev i f c).caps = c.caps := rfl
@[simp] theorem Chip.updTev_sched (i : Fin 16) (f : Tev → Tev) : (updTev i f c).sched = c.sched := rfl
@[simp] theorem Chip.updTev_pwms (i : Fin 16) (f : Tev → Tev) : (updTev i f c).pwms = c.pwms := rfl
@[simp] theorem Chip.updTev_outs (i : Fin 16) (f : Tev → Tev) : (updTev i f c).outs = c.outs := rfl
@[simp] theorem Chip.updTev_adcs (i : Fin 16) (f : Tev → Tev) : (updTev i f c).adcs = c.adcs := rfl
@[simp] theorem Chip.updTev_sdms (i : Fin 16) (f : Tev → Tev) : (updTev i f c).sdms = c.sdms := rfl
@[simp] theorem Chip.updTev_wins (i : Fin 16) (f : Tev → Tev) : (updTev i f c).wins = c.wins := rfl
@[simp] theorem Chip.updTev_slices (i : Fin 16) (f : Tev → Tev) : (updTev i f c).slices = c.slices := rfl
@[simp] theorem Chip.updTev_xls (i : Fin 16) (f : Tev → Tev) : (updTev i f c).xls = c.xls := rfl
@[simp] theorem Chip.updTev_pea (i : Fin 16) (f : Tev → Tev) : (updTev i f c).pea = c.pea := rfl
@[simp] theorem Chip.updTev_peaBus (i : Fin 16) (f : Tev → Tev) : (updTev i f c).peaBus = c.peaBus := rfl
@[simp] theorem Chip.updTev_clus (i : Fin 16) (f : Tev → Tev) : (updTev i f c).clus = c.clus := rfl
@[simp] theorem Chip.updTev_flt (i : Fin 16) (f : Tev → Tev) : (updTev i f c).flt = c.flt := rfl
@[simp] theorem Chip.updTev_cores (i : Fin 16) (f : Tev → Tev) : (updTev i f c).cores = c.cores := rfl
@[simp] theorem Chip.updTev_tri (i : Fin 16) (f : Tev → Tev) : (updTev i f c).tri = c.tri := rfl
@[simp] theorem Chip.updTev_lanes (i : Fin 16) (f : Tev → Tev) : (updTev i f c).lanes = c.lanes := rfl
@[simp] theorem Chip.updTev_split (i : Fin 16) (f : Tev → Tev) : (updTev i f c).split = c.split := rfl
@[simp] theorem Chip.updTev_run (i : Fin 16) (f : Tev → Tev) : (updTev i f c).run = c.run := rfl
@[simp] theorem Chip.updTev_vote (i : Fin 16) (f : Tev → Tev) : (updTev i f c).vote = c.vote := rfl
@[simp] theorem Chip.updTev_ecc (i : Fin 16) (f : Tev → Tev) : (updTev i f c).ecc = c.ecc := rfl
@[simp] theorem Chip.updTev_tcmWin (i : Fin 16) (f : Tev → Tev) : (updTev i f c).tcmWin = c.tcmWin := rfl
@[simp] theorem Chip.updTev_dmas (i : Fin 16) (f : Tev → Tev) : (updTev i f c).dmas = c.dmas := rfl
@[simp] theorem Chip.updTev_fab (i : Fin 16) (f : Tev → Tev) : (updTev i f c).fab = c.fab := rfl
@[simp] theorem Chip.updTev_link (i : Fin 16) (f : Tev → Tev) : (updTev i f c).link = c.link := rfl
@[simp] theorem Chip.updTev_cmd (i : Fin 16) (f : Tev → Tev) : (updTev i f c).cmd = c.cmd := rfl
@[simp] theorem Chip.updTev_sec (i : Fin 16) (f : Tev → Tev) : (updTev i f c).sec = c.sec := rfl
@[simp] theorem Chip.updTev_fuses (i : Fin 16) (f : Tev → Tev) : (updTev i f c).fuses = c.fuses := rfl
@[simp] theorem Chip.updTev_pins (i : Fin 16) (f : Tev → Tev) : (updTev i f c).pins = c.pins := rfl
@[simp] theorem Chip.updTev_power (i : Fin 16) (f : Tev → Tev) : (updTev i f c).power = c.power := rfl
@[simp] theorem Chip.updTev_swept (i : Fin 16) (f : Tev → Tev) : (updTev i f c).swept = c.swept := rfl

@[simp] theorem Chip.updCmd_now (f : Cmd → Cmd) : (updCmd f c).now = c.now := rfl
@[simp] theorem Chip.updCmd_fresh (f : Cmd → Cmd) : (updCmd f c).fresh = c.fresh := rfl
@[simp] theorem Chip.updCmd_regs (f : Cmd → Cmd) : (updCmd f c).regs = c.regs := rfl
@[simp] theorem Chip.updCmd_regs0 (f : Cmd → Cmd) : (updCmd f c).regs0 = c.regs0 := rfl
@[simp] theorem Chip.updCmd_regs1 (f : Cmd → Cmd) : (updCmd f c).regs1 = c.regs1 := rfl
@[simp] theorem Chip.updCmd_hwset (f : Cmd → Cmd) : (updCmd f c).hwset = c.hwset := rfl
@[simp] theorem Chip.updCmd_counted (f : Cmd → Cmd) : (updCmd f c).counted = c.counted := rfl
@[simp] theorem Chip.updCmd_mem (f : Cmd → Cmd) : (updCmd f c).mem = c.mem := rfl
@[simp] theorem Chip.updCmd_agenda (f : Cmd → Cmd) : (updCmd f c).agenda = c.agenda := rfl
@[simp] theorem Chip.updCmd_resp (f : Cmd → Cmd) : (updCmd f c).resp = c.resp := rfl
@[simp] theorem Chip.updCmd_evm (f : Cmd → Cmd) : (updCmd f c).evm = c.evm := rfl
@[simp] theorem Chip.updCmd_pbs (f : Cmd → Cmd) : (updCmd f c).pbs = c.pbs := rfl
@[simp] theorem Chip.updCmd_caps (f : Cmd → Cmd) : (updCmd f c).caps = c.caps := rfl
@[simp] theorem Chip.updCmd_sched (f : Cmd → Cmd) : (updCmd f c).sched = c.sched := rfl
@[simp] theorem Chip.updCmd_pwms (f : Cmd → Cmd) : (updCmd f c).pwms = c.pwms := rfl
@[simp] theorem Chip.updCmd_outs (f : Cmd → Cmd) : (updCmd f c).outs = c.outs := rfl
@[simp] theorem Chip.updCmd_adcs (f : Cmd → Cmd) : (updCmd f c).adcs = c.adcs := rfl
@[simp] theorem Chip.updCmd_sdms (f : Cmd → Cmd) : (updCmd f c).sdms = c.sdms := rfl
@[simp] theorem Chip.updCmd_wins (f : Cmd → Cmd) : (updCmd f c).wins = c.wins := rfl
@[simp] theorem Chip.updCmd_slices (f : Cmd → Cmd) : (updCmd f c).slices = c.slices := rfl
@[simp] theorem Chip.updCmd_xls (f : Cmd → Cmd) : (updCmd f c).xls = c.xls := rfl
@[simp] theorem Chip.updCmd_pea (f : Cmd → Cmd) : (updCmd f c).pea = c.pea := rfl
@[simp] theorem Chip.updCmd_peaBus (f : Cmd → Cmd) : (updCmd f c).peaBus = c.peaBus := rfl
@[simp] theorem Chip.updCmd_clus (f : Cmd → Cmd) : (updCmd f c).clus = c.clus := rfl
@[simp] theorem Chip.updCmd_flt (f : Cmd → Cmd) : (updCmd f c).flt = c.flt := rfl
@[simp] theorem Chip.updCmd_cores (f : Cmd → Cmd) : (updCmd f c).cores = c.cores := rfl
@[simp] theorem Chip.updCmd_tri (f : Cmd → Cmd) : (updCmd f c).tri = c.tri := rfl
@[simp] theorem Chip.updCmd_lanes (f : Cmd → Cmd) : (updCmd f c).lanes = c.lanes := rfl
@[simp] theorem Chip.updCmd_split (f : Cmd → Cmd) : (updCmd f c).split = c.split := rfl
@[simp] theorem Chip.updCmd_run (f : Cmd → Cmd) : (updCmd f c).run = c.run := rfl
@[simp] theorem Chip.updCmd_vote (f : Cmd → Cmd) : (updCmd f c).vote = c.vote := rfl
@[simp] theorem Chip.updCmd_ecc (f : Cmd → Cmd) : (updCmd f c).ecc = c.ecc := rfl
@[simp] theorem Chip.updCmd_tcmWin (f : Cmd → Cmd) : (updCmd f c).tcmWin = c.tcmWin := rfl
@[simp] theorem Chip.updCmd_dmas (f : Cmd → Cmd) : (updCmd f c).dmas = c.dmas := rfl
@[simp] theorem Chip.updCmd_fab (f : Cmd → Cmd) : (updCmd f c).fab = c.fab := rfl
@[simp] theorem Chip.updCmd_link (f : Cmd → Cmd) : (updCmd f c).link = c.link := rfl
@[simp] theorem Chip.updCmd_sec (f : Cmd → Cmd) : (updCmd f c).sec = c.sec := rfl
@[simp] theorem Chip.updCmd_fuses (f : Cmd → Cmd) : (updCmd f c).fuses = c.fuses := rfl
@[simp] theorem Chip.updCmd_pins (f : Cmd → Cmd) : (updCmd f c).pins = c.pins := rfl
@[simp] theorem Chip.updCmd_net (f : Cmd → Cmd) : (updCmd f c).net = c.net := rfl
@[simp] theorem Chip.updCmd_power (f : Cmd → Cmd) : (updCmd f c).power = c.power := rfl
@[simp] theorem Chip.updCmd_swept (f : Cmd → Cmd) : (updCmd f c).swept = c.swept := rfl

@[simp] theorem Chip.putBit_now (a i : Nat) (b : Bool) : (c.putBit a i b).now = c.now := by cases b <;> rfl
@[simp] theorem Chip.putBit_fresh (a i : Nat) (b : Bool) : (c.putBit a i b).fresh = c.fresh := by cases b <;> rfl
@[simp] theorem Chip.putBit_regs0 (a i : Nat) (b : Bool) : (c.putBit a i b).regs0 = c.regs0 := by cases b <;> rfl
@[simp] theorem Chip.putBit_regs1 (a i : Nat) (b : Bool) : (c.putBit a i b).regs1 = c.regs1 := by cases b <;> rfl
@[simp] theorem Chip.putBit_counted (a i : Nat) (b : Bool) : (c.putBit a i b).counted = c.counted := by cases b <;> rfl
@[simp] theorem Chip.putBit_mem (a i : Nat) (b : Bool) : (c.putBit a i b).mem = c.mem := by cases b <;> rfl
@[simp] theorem Chip.putBit_agenda (a i : Nat) (b : Bool) : (c.putBit a i b).agenda = c.agenda := by cases b <;> rfl
@[simp] theorem Chip.putBit_resp (a i : Nat) (b : Bool) : (c.putBit a i b).resp = c.resp := by cases b <;> rfl
@[simp] theorem Chip.putBit_evm (a i : Nat) (b : Bool) : (c.putBit a i b).evm = c.evm := by cases b <;> rfl
@[simp] theorem Chip.putBit_pbs (a i : Nat) (b : Bool) : (c.putBit a i b).pbs = c.pbs := by cases b <;> rfl
@[simp] theorem Chip.putBit_caps (a i : Nat) (b : Bool) : (c.putBit a i b).caps = c.caps := by cases b <;> rfl
@[simp] theorem Chip.putBit_sched (a i : Nat) (b : Bool) : (c.putBit a i b).sched = c.sched := by cases b <;> rfl
@[simp] theorem Chip.putBit_pwms (a i : Nat) (b : Bool) : (c.putBit a i b).pwms = c.pwms := by cases b <;> rfl
@[simp] theorem Chip.putBit_outs (a i : Nat) (b : Bool) : (c.putBit a i b).outs = c.outs := by cases b <;> rfl
@[simp] theorem Chip.putBit_adcs (a i : Nat) (b : Bool) : (c.putBit a i b).adcs = c.adcs := by cases b <;> rfl
@[simp] theorem Chip.putBit_sdms (a i : Nat) (b : Bool) : (c.putBit a i b).sdms = c.sdms := by cases b <;> rfl
@[simp] theorem Chip.putBit_wins (a i : Nat) (b : Bool) : (c.putBit a i b).wins = c.wins := by cases b <;> rfl
@[simp] theorem Chip.putBit_slices (a i : Nat) (b : Bool) : (c.putBit a i b).slices = c.slices := by cases b <;> rfl
@[simp] theorem Chip.putBit_xls (a i : Nat) (b : Bool) : (c.putBit a i b).xls = c.xls := by cases b <;> rfl
@[simp] theorem Chip.putBit_pea (a i : Nat) (b : Bool) : (c.putBit a i b).pea = c.pea := by cases b <;> rfl
@[simp] theorem Chip.putBit_peaBus (a i : Nat) (b : Bool) : (c.putBit a i b).peaBus = c.peaBus := by cases b <;> rfl
@[simp] theorem Chip.putBit_clus (a i : Nat) (b : Bool) : (c.putBit a i b).clus = c.clus := by cases b <;> rfl
@[simp] theorem Chip.putBit_flt (a i : Nat) (b : Bool) : (c.putBit a i b).flt = c.flt := by cases b <;> rfl
@[simp] theorem Chip.putBit_cores (a i : Nat) (b : Bool) : (c.putBit a i b).cores = c.cores := by cases b <;> rfl
@[simp] theorem Chip.putBit_tri (a i : Nat) (b : Bool) : (c.putBit a i b).tri = c.tri := by cases b <;> rfl
@[simp] theorem Chip.putBit_lanes (a i : Nat) (b : Bool) : (c.putBit a i b).lanes = c.lanes := by cases b <;> rfl
@[simp] theorem Chip.putBit_split (a i : Nat) (b : Bool) : (c.putBit a i b).split = c.split := by cases b <;> rfl
@[simp] theorem Chip.putBit_run (a i : Nat) (b : Bool) : (c.putBit a i b).run = c.run := by cases b <;> rfl
@[simp] theorem Chip.putBit_vote (a i : Nat) (b : Bool) : (c.putBit a i b).vote = c.vote := by cases b <;> rfl
@[simp] theorem Chip.putBit_ecc (a i : Nat) (b : Bool) : (c.putBit a i b).ecc = c.ecc := by cases b <;> rfl
@[simp] theorem Chip.putBit_tcmWin (a i : Nat) (b : Bool) : (c.putBit a i b).tcmWin = c.tcmWin := by cases b <;> rfl
@[simp] theorem Chip.putBit_dmas (a i : Nat) (b : Bool) : (c.putBit a i b).dmas = c.dmas := by cases b <;> rfl
@[simp] theorem Chip.putBit_fab (a i : Nat) (b : Bool) : (c.putBit a i b).fab = c.fab := by cases b <;> rfl
@[simp] theorem Chip.putBit_link (a i : Nat) (b : Bool) : (c.putBit a i b).link = c.link := by cases b <;> rfl
@[simp] theorem Chip.putBit_cmd (a i : Nat) (b : Bool) : (c.putBit a i b).cmd = c.cmd := by cases b <;> rfl
@[simp] theorem Chip.putBit_sec (a i : Nat) (b : Bool) : (c.putBit a i b).sec = c.sec := by cases b <;> rfl
@[simp] theorem Chip.putBit_fuses (a i : Nat) (b : Bool) : (c.putBit a i b).fuses = c.fuses := by cases b <;> rfl
@[simp] theorem Chip.putBit_pins (a i : Nat) (b : Bool) : (c.putBit a i b).pins = c.pins := by cases b <;> rfl
@[simp] theorem Chip.putBit_net (a i : Nat) (b : Bool) : (c.putBit a i b).net = c.net := by cases b <;> rfl
@[simp] theorem Chip.putBit_power (a i : Nat) (b : Bool) : (c.putBit a i b).power = c.power := by cases b <;> rfl
@[simp] theorem Chip.putBit_swept (a i : Nat) (b : Bool) : (c.putBit a i b).swept = c.swept := by cases b <;> rfl

@[simp] theorem Chip.satInc_now (a lo w : Nat) : (c.satInc a lo w).now = c.now := rfl
@[simp] theorem Chip.satInc_fresh (a lo w : Nat) : (c.satInc a lo w).fresh = c.fresh := rfl
@[simp] theorem Chip.satInc_regs0 (a lo w : Nat) : (c.satInc a lo w).regs0 = c.regs0 := rfl
@[simp] theorem Chip.satInc_regs1 (a lo w : Nat) : (c.satInc a lo w).regs1 = c.regs1 := rfl
@[simp] theorem Chip.satInc_hwset (a lo w : Nat) : (c.satInc a lo w).hwset = c.hwset := rfl
@[simp] theorem Chip.satInc_mem (a lo w : Nat) : (c.satInc a lo w).mem = c.mem := rfl
@[simp] theorem Chip.satInc_agenda (a lo w : Nat) : (c.satInc a lo w).agenda = c.agenda := rfl
@[simp] theorem Chip.satInc_resp (a lo w : Nat) : (c.satInc a lo w).resp = c.resp := rfl
@[simp] theorem Chip.satInc_evm (a lo w : Nat) : (c.satInc a lo w).evm = c.evm := rfl
@[simp] theorem Chip.satInc_pbs (a lo w : Nat) : (c.satInc a lo w).pbs = c.pbs := rfl
@[simp] theorem Chip.satInc_caps (a lo w : Nat) : (c.satInc a lo w).caps = c.caps := rfl
@[simp] theorem Chip.satInc_sched (a lo w : Nat) : (c.satInc a lo w).sched = c.sched := rfl
@[simp] theorem Chip.satInc_pwms (a lo w : Nat) : (c.satInc a lo w).pwms = c.pwms := rfl
@[simp] theorem Chip.satInc_outs (a lo w : Nat) : (c.satInc a lo w).outs = c.outs := rfl
@[simp] theorem Chip.satInc_adcs (a lo w : Nat) : (c.satInc a lo w).adcs = c.adcs := rfl
@[simp] theorem Chip.satInc_sdms (a lo w : Nat) : (c.satInc a lo w).sdms = c.sdms := rfl
@[simp] theorem Chip.satInc_wins (a lo w : Nat) : (c.satInc a lo w).wins = c.wins := rfl
@[simp] theorem Chip.satInc_slices (a lo w : Nat) : (c.satInc a lo w).slices = c.slices := rfl
@[simp] theorem Chip.satInc_xls (a lo w : Nat) : (c.satInc a lo w).xls = c.xls := rfl
@[simp] theorem Chip.satInc_pea (a lo w : Nat) : (c.satInc a lo w).pea = c.pea := rfl
@[simp] theorem Chip.satInc_peaBus (a lo w : Nat) : (c.satInc a lo w).peaBus = c.peaBus := rfl
@[simp] theorem Chip.satInc_clus (a lo w : Nat) : (c.satInc a lo w).clus = c.clus := rfl
@[simp] theorem Chip.satInc_flt (a lo w : Nat) : (c.satInc a lo w).flt = c.flt := rfl
@[simp] theorem Chip.satInc_cores (a lo w : Nat) : (c.satInc a lo w).cores = c.cores := rfl
@[simp] theorem Chip.satInc_tri (a lo w : Nat) : (c.satInc a lo w).tri = c.tri := rfl
@[simp] theorem Chip.satInc_lanes (a lo w : Nat) : (c.satInc a lo w).lanes = c.lanes := rfl
@[simp] theorem Chip.satInc_split (a lo w : Nat) : (c.satInc a lo w).split = c.split := rfl
@[simp] theorem Chip.satInc_run (a lo w : Nat) : (c.satInc a lo w).run = c.run := rfl
@[simp] theorem Chip.satInc_vote (a lo w : Nat) : (c.satInc a lo w).vote = c.vote := rfl
@[simp] theorem Chip.satInc_ecc (a lo w : Nat) : (c.satInc a lo w).ecc = c.ecc := rfl
@[simp] theorem Chip.satInc_tcmWin (a lo w : Nat) : (c.satInc a lo w).tcmWin = c.tcmWin := rfl
@[simp] theorem Chip.satInc_dmas (a lo w : Nat) : (c.satInc a lo w).dmas = c.dmas := rfl
@[simp] theorem Chip.satInc_fab (a lo w : Nat) : (c.satInc a lo w).fab = c.fab := rfl
@[simp] theorem Chip.satInc_link (a lo w : Nat) : (c.satInc a lo w).link = c.link := rfl
@[simp] theorem Chip.satInc_cmd (a lo w : Nat) : (c.satInc a lo w).cmd = c.cmd := rfl
@[simp] theorem Chip.satInc_sec (a lo w : Nat) : (c.satInc a lo w).sec = c.sec := rfl
@[simp] theorem Chip.satInc_fuses (a lo w : Nat) : (c.satInc a lo w).fuses = c.fuses := rfl
@[simp] theorem Chip.satInc_pins (a lo w : Nat) : (c.satInc a lo w).pins = c.pins := rfl
@[simp] theorem Chip.satInc_net (a lo w : Nat) : (c.satInc a lo w).net = c.net := rfl
@[simp] theorem Chip.satInc_power (a lo w : Nat) : (c.satInc a lo w).power = c.power := rfl
@[simp] theorem Chip.satInc_swept (a lo w : Nat) : (c.satInc a lo w).swept = c.swept := rfl

@[simp] theorem Chip.ack_now : (c.ack).now = c.now := rfl
@[simp] theorem Chip.ack_fresh : (c.ack).fresh = c.fresh := rfl
@[simp] theorem Chip.ack_regs : (c.ack).regs = c.regs := rfl
@[simp] theorem Chip.ack_regs0 : (c.ack).regs0 = c.regs0 := rfl
@[simp] theorem Chip.ack_regs1 : (c.ack).regs1 = c.regs1 := rfl
@[simp] theorem Chip.ack_hwset : (c.ack).hwset = c.hwset := rfl
@[simp] theorem Chip.ack_counted : (c.ack).counted = c.counted := rfl
@[simp] theorem Chip.ack_mem : (c.ack).mem = c.mem := rfl
@[simp] theorem Chip.ack_agenda : (c.ack).agenda = c.agenda := rfl
@[simp] theorem Chip.ack_evm : (c.ack).evm = c.evm := rfl
@[simp] theorem Chip.ack_pbs : (c.ack).pbs = c.pbs := rfl
@[simp] theorem Chip.ack_caps : (c.ack).caps = c.caps := rfl
@[simp] theorem Chip.ack_sched : (c.ack).sched = c.sched := rfl
@[simp] theorem Chip.ack_pwms : (c.ack).pwms = c.pwms := rfl
@[simp] theorem Chip.ack_outs : (c.ack).outs = c.outs := rfl
@[simp] theorem Chip.ack_adcs : (c.ack).adcs = c.adcs := rfl
@[simp] theorem Chip.ack_sdms : (c.ack).sdms = c.sdms := rfl
@[simp] theorem Chip.ack_wins : (c.ack).wins = c.wins := rfl
@[simp] theorem Chip.ack_slices : (c.ack).slices = c.slices := rfl
@[simp] theorem Chip.ack_xls : (c.ack).xls = c.xls := rfl
@[simp] theorem Chip.ack_pea : (c.ack).pea = c.pea := rfl
@[simp] theorem Chip.ack_peaBus : (c.ack).peaBus = c.peaBus := rfl
@[simp] theorem Chip.ack_clus : (c.ack).clus = c.clus := rfl
@[simp] theorem Chip.ack_flt : (c.ack).flt = c.flt := rfl
@[simp] theorem Chip.ack_cores : (c.ack).cores = c.cores := rfl
@[simp] theorem Chip.ack_tri : (c.ack).tri = c.tri := rfl
@[simp] theorem Chip.ack_lanes : (c.ack).lanes = c.lanes := rfl
@[simp] theorem Chip.ack_split : (c.ack).split = c.split := rfl
@[simp] theorem Chip.ack_run : (c.ack).run = c.run := rfl
@[simp] theorem Chip.ack_vote : (c.ack).vote = c.vote := rfl
@[simp] theorem Chip.ack_ecc : (c.ack).ecc = c.ecc := rfl
@[simp] theorem Chip.ack_tcmWin : (c.ack).tcmWin = c.tcmWin := rfl
@[simp] theorem Chip.ack_dmas : (c.ack).dmas = c.dmas := rfl
@[simp] theorem Chip.ack_fab : (c.ack).fab = c.fab := rfl
@[simp] theorem Chip.ack_link : (c.ack).link = c.link := rfl
@[simp] theorem Chip.ack_cmd : (c.ack).cmd = c.cmd := rfl
@[simp] theorem Chip.ack_sec : (c.ack).sec = c.sec := rfl
@[simp] theorem Chip.ack_fuses : (c.ack).fuses = c.fuses := rfl
@[simp] theorem Chip.ack_pins : (c.ack).pins = c.pins := rfl
@[simp] theorem Chip.ack_net : (c.ack).net = c.net := rfl
@[simp] theorem Chip.ack_power : (c.ack).power = c.power := rfl
@[simp] theorem Chip.ack_swept : (c.ack).swept = c.swept := rfl

@[simp] theorem Chip.err_now : (c.err).now = c.now := rfl
@[simp] theorem Chip.err_fresh : (c.err).fresh = c.fresh := rfl
@[simp] theorem Chip.err_regs : (c.err).regs = c.regs := rfl
@[simp] theorem Chip.err_regs0 : (c.err).regs0 = c.regs0 := rfl
@[simp] theorem Chip.err_regs1 : (c.err).regs1 = c.regs1 := rfl
@[simp] theorem Chip.err_hwset : (c.err).hwset = c.hwset := rfl
@[simp] theorem Chip.err_counted : (c.err).counted = c.counted := rfl
@[simp] theorem Chip.err_mem : (c.err).mem = c.mem := rfl
@[simp] theorem Chip.err_agenda : (c.err).agenda = c.agenda := rfl
@[simp] theorem Chip.err_evm : (c.err).evm = c.evm := rfl
@[simp] theorem Chip.err_pbs : (c.err).pbs = c.pbs := rfl
@[simp] theorem Chip.err_caps : (c.err).caps = c.caps := rfl
@[simp] theorem Chip.err_sched : (c.err).sched = c.sched := rfl
@[simp] theorem Chip.err_pwms : (c.err).pwms = c.pwms := rfl
@[simp] theorem Chip.err_outs : (c.err).outs = c.outs := rfl
@[simp] theorem Chip.err_adcs : (c.err).adcs = c.adcs := rfl
@[simp] theorem Chip.err_sdms : (c.err).sdms = c.sdms := rfl
@[simp] theorem Chip.err_wins : (c.err).wins = c.wins := rfl
@[simp] theorem Chip.err_slices : (c.err).slices = c.slices := rfl
@[simp] theorem Chip.err_xls : (c.err).xls = c.xls := rfl
@[simp] theorem Chip.err_pea : (c.err).pea = c.pea := rfl
@[simp] theorem Chip.err_peaBus : (c.err).peaBus = c.peaBus := rfl
@[simp] theorem Chip.err_clus : (c.err).clus = c.clus := rfl
@[simp] theorem Chip.err_flt : (c.err).flt = c.flt := rfl
@[simp] theorem Chip.err_cores : (c.err).cores = c.cores := rfl
@[simp] theorem Chip.err_tri : (c.err).tri = c.tri := rfl
@[simp] theorem Chip.err_lanes : (c.err).lanes = c.lanes := rfl
@[simp] theorem Chip.err_split : (c.err).split = c.split := rfl
@[simp] theorem Chip.err_run : (c.err).run = c.run := rfl
@[simp] theorem Chip.err_vote : (c.err).vote = c.vote := rfl
@[simp] theorem Chip.err_ecc : (c.err).ecc = c.ecc := rfl
@[simp] theorem Chip.err_tcmWin : (c.err).tcmWin = c.tcmWin := rfl
@[simp] theorem Chip.err_dmas : (c.err).dmas = c.dmas := rfl
@[simp] theorem Chip.err_fab : (c.err).fab = c.fab := rfl
@[simp] theorem Chip.err_link : (c.err).link = c.link := rfl
@[simp] theorem Chip.err_cmd : (c.err).cmd = c.cmd := rfl
@[simp] theorem Chip.err_sec : (c.err).sec = c.sec := rfl
@[simp] theorem Chip.err_fuses : (c.err).fuses = c.fuses := rfl
@[simp] theorem Chip.err_pins : (c.err).pins = c.pins := rfl
@[simp] theorem Chip.err_net : (c.err).net = c.net := rfl
@[simp] theorem Chip.err_power : (c.err).power = c.power := rfl
@[simp] theorem Chip.err_swept : (c.err).swept = c.swept := rfl

end Sys2Proof.Machine
end

