-- ==== Sys2Proof/Laws/Word.lean ====
section
/-! SUPPORT. Laws of bit fields of a word: what a field reads after it or another is written. -/

namespace Sys2Proof

theorem Word.fld_testBit (v : Word) (lo w i : Nat) : (v.fld lo w).testBit i = (decide (i < w) && v.getLsbD (lo + i)) := by
  simp [Word.fld, Nat.testBit_mod_two_pow, Nat.testBit_shiftRight, BitVec.getLsbD]

theorem Word.mask_getLsbD (lo w i : Nat) : (Word.mask lo w).getLsbD i = (decide (i < 32) && decide (lo ≤ i) && decide (i < lo + w)) := by
  simp only [Word.mask, BitVec.getLsbD_ofNat, Nat.testBit_shiftLeft, Nat.testBit_two_pow_sub_one]
  by_cases h1 : lo ≤ i
  · by_cases h2 : i < lo + w
    · simp [h1, h2, show i - lo < w by omega]
    · simp [h1, h2, show ¬ (i - lo < w) by omega]
  · simp [h1]

/-- A bit of a word after a field of it is written. -/
theorem Word.withFld_getLsbD (v : Word) (lo w x i : Nat) :
    (v.withFld lo w x).getLsbD i =
      if i < 32 ∧ lo ≤ i ∧ i < lo + w then x.testBit (i - lo) else v.getLsbD i := by
  simp only [Word.withFld, BitVec.getLsbD_or, BitVec.getLsbD_and, BitVec.getLsbD_not, Word.mask_getLsbD,
    BitVec.getLsbD_ofNat, Nat.testBit_shiftLeft, Nat.testBit_mod_two_pow]
  by_cases h0 : i < 32
  · by_cases h1 : lo ≤ i
    · by_cases h2 : i < lo + w
      · have h3 : i - lo < w := by omega
        simp [h0, h1, h2, h3]
      · have h3 : ¬ (i - lo < w) := by omega
        simp [h0, h1, h2, h3]
    · simp [h0, h1]
  · have h3 : v.getLsbD i = false := BitVec.getLsbD_of_ge v i (by omega)
    simp [h0, h3]

/-- A field reads what was written to it. -/
theorem Word.fld_withFld (v : Word) {lo w : Nat} (x : Nat) (h : lo + w ≤ 32) : (v.withFld lo w x).fld lo w = x % 2 ^ w := by
  apply Nat.eq_of_testBit_eq
  intro i
  rw [Word.fld_testBit, Word.withFld_getLsbD, Nat.testBit_mod_two_pow]
  by_cases hi : i < w
  · simp [hi, show lo + i < 32 by omega]
  · simp [hi]

/-- A field keeps its value when another field is written. -/
theorem Word.fld_withFld_ne (v : Word) {lo w lo' w' : Nat} (x : Nat) (h : lo' + w' ≤ lo ∨ lo + w ≤ lo') :
    (v.withFld lo w x).fld lo' w' = v.fld lo' w' := by
  apply Nat.eq_of_testBit_eq
  intro i
  rw [Word.fld_testBit, Word.fld_testBit, Word.withFld_getLsbD]
  by_cases hi : i < w'
  · rw [if_neg (by omega)]
  · simp [hi]

/-- A bit reads what was written to it. -/
@[simp] theorem Word.bit_withBit (v : Word) {i : Nat} (b : Bool) (h : i < 32) : (v.withBit i b).bit i = b := by
  rw [Word.bit, Word.withBit, Word.withFld_getLsbD, if_pos ⟨h, by omega, by omega⟩]
  cases b <;> simp

/-- A bit keeps its value when another bit is written. -/
theorem Word.bit_withBit_ne (v : Word) {i j : Nat} (b : Bool) (h : j ≠ i) : (v.withBit i b).bit j = v.bit j := by
  rw [Word.bit, Word.bit, Word.withBit, Word.withFld_getLsbD, if_neg (by omega)]

/-- A bit outside a field keeps its value when the field is written. -/
theorem Word.bit_withFld_ne (v : Word) {lo w j : Nat} (x : Nat) (h : j < lo ∨ lo + w ≤ j) : (v.withFld lo w x).bit j = v.bit j := by
  rw [Word.bit, Word.bit, Word.withFld_getLsbD, if_neg (by omega)]

theorem Word.fld_lt (v : Word) (lo w : Nat) : v.fld lo w < 2 ^ w := Nat.mod_lt _ (Nat.two_pow_pos w)

end Sys2Proof
end

