-- ==== Sys2Proof/Laws/Registers.lean ====
section
/-! SUPPORT. Laws of the register file: what a register and its fields read after a write, what every access of software does,
and the canonical form that every write keeps. -/

namespace Sys2Proof.Machine

variable (c : Chip)

/-- A register reads as it was written. -/
@[simp] theorem Chip.reg_setReg_self (a : Nat) (v : Word) : (c.setReg a v).reg a = v := aread_aset_self _ _ _ _

/-- A write leaves every other register alone. -/
theorem Chip.reg_setReg_ne {a b : Nat} (v : Word) (h : b ≠ a) : (c.setReg a v).reg b = c.reg b := aread_aset_ne _ _ _ v h

theorem Chip.reg_setReg (a b : Nat) (v : Word) : (c.setReg a v).reg b = if b = a then v else c.reg b := by
  by_cases h : b = a
  · subst h; simp
  · simp [h, c.reg_setReg_ne v h]

@[simp] theorem Chip.reg_setFld_self (a lo w x : Nat) : (c.setFld a lo w x).reg a = (c.reg a).withFld lo w x := by simp [Chip.setFld]
theorem Chip.reg_setFld_ne {a b : Nat} (lo w x : Nat) (h : b ≠ a) : (c.setFld a lo w x).reg b = c.reg b := c.reg_setReg_ne _ h
@[simp] theorem Chip.reg_setBits_self (a m : Nat) : (c.setBits a m).reg a = c.reg a ||| BitVec.ofNat 32 m :=
  c.reg_setReg_self a _
theorem Chip.reg_setBits_ne {a b : Nat} (m : Nat) (h : b ≠ a) : (c.setBits a m).reg b = c.reg b := c.reg_setReg_ne _ h
@[simp] theorem Chip.reg_clrBits_self (a m : Nat) : (c.clrBits a m).reg a = c.reg a &&& ~~~ BitVec.ofNat 32 m := by
  simp [Chip.clrBits]
theorem Chip.reg_clrBits_ne {a b : Nat} (m : Nat) (h : b ≠ a) : (c.clrBits a m).reg b = c.reg b := c.reg_setReg_ne _ h
theorem Chip.reg_putBit_ne {a b : Nat} (i : Nat) (x : Bool) (h : b ≠ a) : (c.putBit a i x).reg b = c.reg b := by
  cases x
  · exact c.reg_clrBits_ne _ h
  · exact c.reg_setBits_ne _ h
theorem Chip.reg_satInc_ne {a b : Nat} (lo w : Nat) (h : b ≠ a) : (c.satInc a lo w).reg b = c.reg b := c.reg_setReg_ne _ h

/-- The registers depend on the register file alone. -/
theorem Chip.reg_congr {c d : Chip} (h : c.regs = d.regs) (a : Nat) : c.reg a = d.reg a := by simp [Chip.reg, h]

/-- The write of a register leaves memory bytes alone. -/
@[simp] theorem memByte_setReg (a k : Nat) (v : Word) : memByte (c.setReg a v) k = memByte c k := rfl

/-! ### Access of software -/

/-- A write that is let through has the register's effect after its acknowledgement. -/
theorem gatedWrite_ok {c : Chip} {ini : Initiator} {a : Nat} {f : Chip → Chip} (h : c.grants ini a true) :
    gatedWrite ini a f c = f c.ack := by simp [gatedWrite, show verdict c ini a true = .ok from h]

/-- A read that is let through answers its word. -/
theorem gatedRead_ok {c : Chip} {ini : Initiator} {a : Nat} {f : Chip → Word × Chip} (h : c.grants ini a false) :
    gatedRead ini a f c = (f c).2.answer (f c).1 := by simp [gatedRead, show verdict c ini a false = .ok from h]

/-- Everything an access check can do with a write: the register's effect, or one of the three refusals. -/
theorem gatedWrite_cases (ini : Initiator) (a : Nat) (f : Chip → Chip) (c : Chip) :
    (c.grants ini a true ∧ gatedWrite ini a f c = f c.ack) ∨
    (verdict c ini a true ≠ .ok ∧ gatedWrite ini a f c = refuse (verdict c ini a true) a c) := by
  cases h : verdict c ini a true
  · exact .inl ⟨h, gatedWrite_ok h⟩
  all_goals exact .inr ⟨by simp, by simp [gatedWrite, h]⟩

/-! ### The canonical form -/

theorem setReg_wf {c : Chip} (a : Nat) (v : Word) (h : Registers.wf c.regs = true) : Registers.wf (c.setReg a v).regs = true :=
  awf_aset resetVal a v h

theorem dropRegs_wf {c : Chip} (lo n : Nat) (h : Registers.wf c.regs = true) : Registers.wf (c.dropRegs lo n).regs = true :=
  awf_adrop resetVal lo n h

theorem privReset_wf {c : Chip} (k : CoreId) (keep : Bool) (h : Registers.wf c.regs = true) :
    Registers.wf (privReset k keep c).regs = true := awf_filter resetVal _ h

end Sys2Proof.Machine
end

