-- ==== Sys2Proof/Laws/Memory.lean ====
section
/-! SUPPORT. Laws of the memories: a byte read after a write, a value read after a write of its bytes, and the canonical form that
every operation on memory keeps. -/

namespace Sys2Proof.Machine

variable (c : Chip)

/-- A byte reads as it was written. -/
@[simp] theorem memByte_memPutByte_self (k : Nat) (v : Byte) : memByte (memPutByte k v c) k = v := aread_aset_self _ _ _ _

/-- A write of a byte leaves every other byte alone. -/
theorem memByte_memPutByte_ne {k j : Nat} (v : Byte) (h : j ≠ k) : memByte (memPutByte k v c) j = memByte c j :=
  aread_aset_ne _ _ _ v h

@[simp] theorem memPutByte_regs (k : Nat) (v : Byte) : (memPutByte k v c).regs = c.regs := rfl

/-- The first bytes of a value, then the next one. -/
theorem memPut_succ (k n x : Nat) : memPut k (n + 1) x c = memPutByte (k + n) (BitVec.ofNat 8 (x / 256 ^ n)) (memPut k n x c) := by
  simp [memPut, List.range_succ, List.foldl_append]

@[simp] theorem memPut_zero (k x : Nat) : memPut k 0 x c = c := rfl

/-- A write of `n` bytes gives each its part of the value and leaves every other byte alone. -/
theorem memByte_memPut (k n x j : Nat) :
    memByte (memPut k n x c) j = if k ≤ j ∧ j < k + n then BitVec.ofNat 8 (x / 256 ^ (j - k)) else memByte c j := by
  induction n with
  | zero => simp
  | succ n ih =>
    rw [memPut_succ]
    by_cases h : j = k + n
    · subst h; simp
    · rw [memByte_memPutByte_ne _ _ h, ih]
      by_cases h1 : k ≤ j ∧ j < k + n
      · simp [h1, show j < k + (n + 1) by omega]
      · simp [h1, show ¬ (k ≤ j ∧ j < k + (n + 1)) by omega]

/-- A write changes no register. -/
@[simp] theorem memPut_regs (k n x : Nat) : (memPut k n x c).regs = c.regs := by
  induction n with
  | zero => rfl
  | succ n ih => rw [memPut_succ, memPutByte_regs, ih]

/-! ### The canonical form -/

theorem reset_memory_wf : Memory.wf State.reset.chip.mem = true := rfl

theorem memPutByte_wf {c : Chip} (k : Nat) (v : Byte) (h : Memory.wf c.mem = true) : Memory.wf (memPutByte k v c).mem = true :=
  awf_aset (fun _ => 0) k v h

theorem memPut_wf {c : Chip} (k n x : Nat) (h : Memory.wf c.mem = true) : Memory.wf (memPut k n x c).mem = true := by
  induction n with
  | zero => exact h
  | succ n ih => rw [memPut_succ]; exact memPutByte_wf _ _ ih

theorem memLose_wf {c : Chip} (lo n : Nat) (h : Memory.wf c.mem = true) : Memory.wf (memLose lo n c).mem = true :=
  awf_adrop (fun _ => 0) lo n h

/-- What only finds or repairs errors changes no byte. -/
@[simp] theorem eccClear_mem (k : Nat) : (eccClear k c).mem = c.mem := rfl

@[simp] theorem eccLog_mem (id addr : Nat) (ue scrub : Bool) : (eccLog id addr ue scrub c).mem = c.mem := rfl

/-- Everything a write can do: it puts its bytes, an error in its word cleared, after a single-bit error that it had to read was
counted and logged, or not; or it finds an uncorrectable word that it covers in part, and then only counts, logs and raises it (15
R341 to R343). -/
theorem memWrite_cases (k n x : Nat) :
    ((memWrite k n x c).1 = true ∧ ((memWrite k n x c).2 = memPut k n x (portUse k c) ∨
      (memWrite k n x c).2 = memPut k n x (eccClear k (portUse k c)) ∨
      ∃ id b w, (memWrite k n x c).2 = memPut k n x (eccClear k (eccCorrected id b w false (portUse k c))))) ∨
    ((memWrite k n x c).1 = false ∧ ∃ id b, (memWrite k n x c).2 = eccFatal id b false (portUse k c)) := by
  simp only [memWrite]
  split
  · split
    · exact .inl ⟨rfl, .inr (.inl rfl)⟩
    · exact .inr ⟨rfl, _, _, rfl⟩
  · refine .inl ⟨rfl, .inr ?_⟩
    split
    · exact .inl rfl
    · exact .inr ⟨_, _, _, rfl⟩
  · exact .inl ⟨rfl, .inl rfl⟩

end Sys2Proof.Machine
end

