-- ==== Sys2Proof/Laws/Fault.lean ====
section
/-! SUPPORT. Laws of raising faults and of errors found in memory: they change no byte of memory, so a refused write changes
none, and every write keeps memory canonical. -/

namespace Sys2Proof.Machine

variable (c : Chip)

/-- What each step of a fold keeps, the fold keeps. -/
theorem foldl_keeps {α β : Type} (p : Chip → β) (f : Chip → α → Chip) (h : ∀ c x, p (f c x) = p c) (xs : List α) (c : Chip) :
    p (xs.foldl f c) = p c := by
  induction xs generalizing c with
  | nil => rfl
  | cons x xs ih => rw [List.foldl_cons, ih, h]

@[simp] theorem setCause_mem (b s : Nat) : (setCause b s c).mem = c.mem := by
  simp only [setCause, updCauses]; split <;> rfl

@[simp] theorem setCauseAll_mem (b : Nat) : (setCauseAll b c).mem = c.mem :=
  foldl_keeps (·.mem) _ (fun c s => setCause_mem c b s) _ _

@[simp] theorem consumerDue_mem (due e : Nat) : (consumerDue due c e).mem = c.mem := by
  simp only [consumerDue]
  repeat' split
  all_goals rfl

@[simp] theorem evPulse_mem (n : Nat) : (evPulse n c).mem = c.mem := by
  simp only [evPulse]
  split
  · rfl
  · dsimp only
    rw [foldl_keeps (·.mem) _ (fun c e => consumerDue_mem c _ e)]
    split <;> rfl

@[simp] theorem evPulseIn_mem (d n : Nat) : (evPulseIn d n c).mem = c.mem := by
  simp only [evPulseIn]
  split
  · exact evPulse_mem c n
  · rfl

@[simp] theorem reactDevice_mem : (reactDevice c).mem = c.mem := by
  have h := setCauseAll_mem c causeDevflt
  unfold reactDevice
  generalize setCauseAll causeDevflt c = d at h ⊢
  dsimp only
  split
  · rw [Chip.setBits_mem, Chip.setFld_mem, h]
  · exact h

@[simp] theorem standReact_mem (i : Nat) : (standReact i c).mem = c.mem := by
  have h (xs : List Nat) (c : Chip) : (xs.foldl (fun c s => setCause causeSliceflt s c) c).mem = c.mem :=
    foldl_keeps (·.mem) _ (fun c s => setCause_mem c _ s) _ _
  simp only [standReact]
  split <;> split <;> simp [h]

@[simp] theorem applyReact_mem (i : Nat) : (applyReact i c).mem = c.mem := by
  simp only [applyReact]
  split <;> split <;> simp

/-- Raising a fault, its log entry and its reactions change no byte of memory. -/
@[simp] theorem raiseFault_mem (i : Nat) (detail : Word) : (raiseFault i detail c).mem = c.mem := by
  simp only [raiseFault]
  split
  · rfl
  · split
    · simp
    · simp [fltStore]

@[simp] theorem eccFatal_mem (id addr : Nat) (scrub : Bool) : (eccFatal id addr scrub c).mem = c.mem := by
  simp only [eccFatal]
  split <;> simp [laneErr]

@[simp] theorem eccCorrected_mem (id addr key : Nat) (scrub : Bool) : (eccCorrected id addr key scrub c).mem = c.mem := by
  simp only [eccCorrected]
  split
  · rfl
  · simp [apply_ite Chip.mem]

/-- A read changes no byte, whatever errors it finds. -/
@[simp] theorem eccRead_mem (k n : Nat) : (eccRead k n c).2.mem = c.mem := by
  have h (ws : List Nat) : ∀ r : Bool × Chip, (ws.foldl (fun (r : Bool × Chip) w =>
      match memAt w, eccErr r.2 w with
      | some (id, b, _), some true => (false, eccFatal id (w - b) false r.2)
      | some (id, b, _), some false => (r.1, eccCorrected id (w - b) w false r.2)
      | _, _ => r) r).2.mem = r.2.mem := by
    induction ws with
    | nil => intro r; rfl
    | cons w ws ih => intro r; rw [List.foldl_cons, ih]; split <;> simp
  exact (h _ _).trans (portUse_mem c k)

@[simp] theorem memRead_mem (k n : Nat) : (memRead k n c).2.mem = c.mem := by simp [memRead]

/-- What a write leaves of memory: its bytes put, or, where it fails, all as it was. -/
theorem memWrite_mem (k n x : Nat) :
    ((memWrite k n x c).1 = true ∧ (memWrite k n x c).2.mem = (memPut k n x c).mem) ∨
    ((memWrite k n x c).1 = false ∧ (memWrite k n x c).2.mem = c.mem) := by
  have h {d : Chip} (e : d.mem = c.mem) : (memPut k n x d).mem = (memPut k n x c).mem := by
    induction n with
    | zero => exact e
    | succ n ih => rw [memPut_succ, memPut_succ]; simp only [memPutByte]; rw [ih]
  rcases memWrite_cases c k n x with ⟨t, e | e | ⟨_, _, _, e⟩⟩ | ⟨t, id, b, e⟩
  · exact .inl ⟨t, by rw [e]; exact h (by simp)⟩
  · exact .inl ⟨t, by rw [e]; exact h (by simp)⟩
  · exact .inl ⟨t, by rw [e]; exact h (by simp)⟩
  · exact .inr ⟨t, by rw [e]; simp⟩

/-- A write that succeeds gives each byte its part of the value and leaves every other byte alone. -/
theorem memByte_memWrite {c : Chip} {k n x : Nat} (j : Nat) (h : (memWrite k n x c).1 = true) :
    memByte (memWrite k n x c).2 j = if k ≤ j ∧ j < k + n then BitVec.ofNat 8 (x / 256 ^ (j - k)) else memByte c j := by
  rcases memWrite_mem c k n x with ⟨-, e⟩ | ⟨h', -⟩
  · rw [← memByte_memPut]; simp only [memByte, e]
  · simp [h] at h'

/-- A write that fails changes no byte. -/
theorem memWrite_failed_mem {c : Chip} {k n x : Nat} (h : (memWrite k n x c).1 = false) : (memWrite k n x c).2.mem = c.mem := by
  rcases memWrite_mem c k n x with ⟨h', -⟩ | ⟨-, e⟩
  · simp [h] at h'
  · exact e

/-- Every write keeps memory canonical. -/
theorem memWrite_wf {c : Chip} (k n x : Nat) (h : Memory.wf c.mem = true) : Memory.wf (memWrite k n x c).2.mem = true := by
  rcases memWrite_mem c k n x with ⟨-, e⟩ | ⟨-, e⟩
  · rw [e]; exact memPut_wf k n x h
  · rw [e]; exact h

end Sys2Proof.Machine
end

