-- ==== Sys2Proof/Laws/Packet.lean ====
section
/-! SUPPORT. Laws of the packets (17 R389, R391; 18 R429): a tag has 16 bytes, and a packet that carries the tag of its header and
body under a session's key verifies under that session. -/

namespace Sys2Proof.Machine

/-! ### Lengths of AES-256 and GCM values -/

/-- A property of a state and a count, kept by each step of a fold, holds of its end. -/
theorem foldl_counts {α β : Type} (f : β → α → β) (p : Nat → β → Prop) (h : ∀ n s x, p n s → p (n + 1) (f s x)) :
    ∀ (xs : List α) (n : Nat) (s : β), p n s → p (n + xs.length) (xs.foldl f s) := by
  intro xs
  induction xs with
  | nil => intro n s hs; exact hs
  | cons x xs ih =>
    intro n s hs
    have := ih (n + 1) (f s x) (h n s x hs)
    rwa [show n + 1 + xs.length = n + (x :: xs).length by simp; omega] at this

/-- The key schedule has 60 words, each of four bytes. -/
theorem aesKeys_words (t key : List Byte) (hk : key.length = 32) :
    (aesKeys t key).length = 60 ∧ ∀ w ∈ aesKeys t key, w.length = 4 := by
  unfold aesKeys
  extract_lets w0 out
  suffices h : (fun n (s : List (List Byte) × Byte) => s.1.length = n ∧ 8 ≤ n ∧ ∀ w ∈ s.1, w.length = 4)
      (8 + (List.range 52).length) out by
    obtain ⟨h1, -, h2⟩ := h
    exact ⟨by rw [List.length_reverse, h1]; rfl, fun w hw => h2 w (List.mem_reverse.1 hw)⟩
  refine foldl_counts _ (fun n (s : List (List Byte) × Byte) => s.1.length = n ∧ 8 ≤ n ∧ ∀ w ∈ s.1, w.length = 4) ?_ _ _ _ ?_
  · rintro n ⟨ws, r⟩ j ⟨h1, h8, h4⟩
    simp only at h1 h4
    have hp : (ws.headD []).length = 4 := by
      cases ws with
      | nil => simp at h1; omega
      | cons a _ => exact h4 a (by simp)
    have hf : (ws[7]?.getD []).length = 4 := by
      rw [List.getElem?_eq_getElem (by omega)]
      exact h4 _ (List.getElem_mem _)
    have hr (u : List Byte) (hu : u.length = 4) : (u.drop 1 ++ u.take 1).length = 4 := by
      simp only [List.length_append, List.length_drop, List.length_take]; omega
    refine ⟨by simp [h1], by omega, fun w hw => ?_⟩
    rcases List.mem_cons.1 hw with rfl | hw
    · rw [List.length_zipWith, hf]
      suffices h : ∀ u : List Byte, u.length = 4 → min 4 u.length = 4 by
        apply h
        split
        · have := hr _ hp
          generalize ws.headD [] = q at this ⊢
          rw [← List.length_map (aesSbox t)] at this
          split
          · rename_i e; rw [e] at this; simpa using this
          · rename_i e; rw [e] at this; simp at this
        · split
          · rw [List.length_map, hp]
          · exact hp
      intro u hu; rw [hu]; rfl
    · exact h4 w hw
  · refine ⟨by simp [w0], le_refl _, fun w hw => ?_⟩
    simp only [w0, List.mem_reverse, List.mem_map, List.mem_range] at hw
    obtain ⟨i, hi, rfl⟩ := hw
    rw [List.length_take, List.length_drop]; omega

/-- Lists of four bytes, joined. -/
theorem flatten_length_four : ∀ ws : List (List Byte), (∀ w ∈ ws, w.length = 4) → ws.flatten.length = 4 * ws.length
  | [], _ => rfl
  | w :: ws, h => by
    have h1 := h w (by simp)
    have h2 := flatten_length_four ws (fun v hv => h v (by simp [hv]))
    rw [List.flatten_cons, List.length_append, h1, h2, List.length_cons]; omega

/-- A block has 16 bytes. -/
theorem aesBlock_length (t key block : List Byte) (hk : key.length = 32) : (aesBlock t (aesKeys t key) block).length = 16 := by
  obtain ⟨hl, hw⟩ := aesKeys_words t key hk
  have h := flatten_length_four (((aesKeys t key).drop 56).take 4) (fun w h => hw w (List.mem_of_mem_drop (List.mem_of_mem_take h)))
  rw [List.length_take, List.length_drop, hl] at h
  simp only [aesBlock, addKey, List.length_zipWith, List.length_map, List.length_range]
  rw [h]; rfl

theorem leBytes_length : ∀ n x : Nat, (leBytes n x).length = n
  | 0, _ => rfl
  | n + 1, x => by rw [leBytes, List.length_cons, leBytes_length]

/-- A tag has 16 bytes. -/
theorem gcmTag_length (key iv aad ct : List Byte) (hk : key.length = 32) : (gcmTag key iv aad ct).length = 16 := by
  rw [gcmTag, List.length_zipWith, aesBlock_length _ _ _ hk, beBytes, List.length_reverse, leBytes_length]; rfl

theorem packetTag_length (key : List Byte) (seq : Nat) (enc : Bool) (head body : List Byte) (hk : key.length = 32) :
    (packetTag key seq enc head body).length = 16 := by
  cases enc <;> simp only [packetTag, Bool.false_eq_true, if_true, if_false] <;> exact gcmTag_length _ _ _ _ hk

/-! ### Packets -/

/-- A header of eight bytes with AUTH alone, a body and the tag of both under a session's key: it verifies, and its body stands
between the header and the tag. -/
theorem tagged_verifies (s : Session) (head body : List Byte) (hk : s.kc.length = 32) (hh : head.length = 8)
    (hf : fldAt head 1 1 = 1) :
    let pkt := head ++ body ++ packetTag s.kc (fldAt head 4 4) false head body
    pkVerifies s pkt = true ∧ pkParams (some s) pkt = body ∧ pkFlags pkt = 1 ∧ pkOpc pkt = fldAt head 0 1 ∧
      pkSeq pkt = fldAt head 4 4 ∧ pkt.length = body.length + 24 := by
  intro pkt
  have ht := packetTag_length s.kc (fldAt head 4 4) false head body hk
  generalize hT : packetTag s.kc (fldAt head 4 4) false head body = tag at ht
  have hp : pkt = head ++ (body ++ tag) := by simp only [pkt, hT, List.append_assoc]
  have hfld (i n : Nat) (h : i + n ≤ 8) : fldAt pkt i n = fldAt head i n := by
    rw [fldAt, fldAt, hp, List.drop_append_of_le_length (by omega), List.take_append_of_le_length (by rw [List.length_drop]; omega)]
  have hfl : pkFlags pkt = 1 := by rw [pkFlags, hfld _ _ (by omega), hf]
  have hs : pkSeq pkt = fldAt head 4 4 := by rw [pkSeq, hfld _ _ (by omega)]
  have he : pkEnc pkt = false := by rw [pkEnc, hfl]; rfl
  have hlen : pkt.length = body.length + 24 := by rw [hp]; simp only [List.length_append]; omega
  have hraw : pkRaw pkt = body := by
    rw [pkRaw, pkAuth, hfl]
    simp only [hp, ← hh, List.drop_left']
    simp [ht]
  have htag : pkTag pkt = tag := by
    rw [pkTag, hlen, show body.length + 24 - 16 = (head ++ body).length by rw [List.length_append]; omega, hp, ← List.append_assoc,
      List.drop_left]
  have hhead : pkt.take 8 = head := by rw [hp, ← hh, List.take_left]
  refine ⟨?_, ?_, hfl, by rw [pkOpc, hfld _ _ (by omega)], hs, hlen⟩
  · rw [pkVerifies, he, hs, hhead, hraw, htag, hT, hlen]; simp
  · rw [pkParams, he, hraw]; rfl

end Sys2Proof.Machine
end

