-- ==== Sys2Proof/Tests/Slice0.lean ====
section
/-! SUPPORT. The model's own tests: encodings written out from the tables of chapters 11 and 12, an ill-formed term for each check
of WellFormed, and for every statement concrete states and operands that meet its hypotheses. -/

set_option maxRecDepth 20000
set_option Elab.async false

namespace Sys2Proof.Machine.Test

/-! ### Cores that are ready to execute -/

/-- Core `k` runs bank `b` at PC 0x100 with the status `st`, the registers of `g`, and `f` for the rest of the bank. -/
def cpu (k : CoreId) (b : Fin 8) (st : Word) (g : List (Fin 32 × Word)) (f : BankS → BankS) : State :=
  let gs : Vector Word 32 := g.foldl (fun v p => v.set p.1 p.2) (Vector.replicate 32 0)
  let c := updCore k (fun s => { s with inReset := false, running := some b }) State.reset.chip
  { State.reset with chip := updBank k b (fun x => f { x with mode := .running, pc := 0x100, st := st, g := gs }) c }

def hS : Hdr := { core := .le 3, cond := 0, len := 3 }
def hL : Hdr := { core := .app 1, cond := 0, len := 4 }
/-- NK-S and NK-L with the registers of `g`, at PRIV 1; on NK-L the bank owns the floating-point file. -/
def nkS (g : List (Fin 32 × Word)) : State := cpu (.le 3) 0 0x1000 g id
def nkL (g : List (Fin 32 × Word)) : State := cpu (.app 1) 0 0x201000 g id
/-- The same with the f registers of `f`. -/
def nkF (g f : List (Fin 32 × Word)) : State :=
  (nkL g).after (updCore (.app 1) (fun q => { q with f := f.foldl (fun (v : Vector Word 32) p => v.set p.1 p.2) q.f }))

theorem readyS : Ready (nkS []).chip hS.core 0 3 := ⟨rfl, rfl, rfl, rfl, nofun, rfl, rfl, rfl, rfl, rfl, rfl, rfl⟩
theorem readyL : Ready (nkL []).chip hL.core 0 4 := ⟨rfl, rfl, rfl, rfl, nofun, rfl, rfl, rfl, rfl, rfl, rfl, rfl⟩

theorem witness_ArithmeticResults : Runs (nkS []) hS 0 [1, 2, 15] ∧ Runs (nkL []) hL 0 [1, 2, 31] :=
  ⟨⟨readyS, fun _ => by decide, rfl⟩,
   ⟨readyL, (nomatch ·), rfl⟩⟩

theorem witness_MoveResults : Runs (nkS []) hS 0 [2, pairReg 2, 14, pairReg 14] ∧ (14 : Fin 32).val % 2 = 0 ∧ Runs (nkL []) hL 0 [1, 2, 31] ∧ hL.core.isNKS = false :=
  ⟨⟨readyS, fun _ => by decide, rfl⟩, rfl,
   ⟨readyL, (nomatch ·), rfl⟩, rfl⟩

/-- The rows of 11 R278 where its cases meet. -/
theorem witness_ShiftResults : Runs (nkS []) hS 0 [1, 2, 15] ∧
    ShiftRow .lsl 3 0 true 3 true ∧ ShiftRow .lsl 3 31 false 0x80000000 true ∧ ShiftRow .lsl 3 32 false 0 true ∧
    ShiftRow .lsl 3 33 true 0 false ∧ ShiftRow .lsr 0xC0000000 31 false 1 true ∧ ShiftRow .lsr 0x80000000 32 false 0 true ∧
    ShiftRow .lsr 0x80000000 255 true 0 false ∧ ShiftRow .asr 0x80000000 31 true 0xFFFFFFFF false ∧
    ShiftRow .asr 0x80000000 32 false 0xFFFFFFFF true ∧ ShiftRow .ror 0x80000000 32 false 0x80000000 true :=
  ⟨⟨readyS, fun _ => by decide, rfl⟩, .zero _ _ _, .lsl _ _ _ (by decide) (by decide), .lsl32 _ _, .lslMore _ _ _ (by decide),
   .lsr _ _ _ (by decide) (by decide), .lsr32 _ _, .lsrMore _ _ _ (by decide), .asr _ _ _ (by decide) (by decide),
   .asrMore _ _ _ (by decide), .ror _ _ _ (by decide)⟩

theorem witness_MultiplyDivideResults :
    Runs (nkS [(15, 1)]) hS 0 [1, 2, 15] ∧ ((nkS [(15, 1)]).bank hS 0).g[(15 : Fin 32)] ≠ 0 ∧ Runs (nkL []) hL 0 [1, 2, 31] ∧
    ((nkL []).bank hL 0).g[(31 : Fin 32)] = 0 ∧ ((nkL []).bank hL 0).st.bit stDZT = false ∧
    Runs (cpu (.le 3) 7 0x1040 [] id) hS 7 [1, 2, 3] ∧ ((cpu (.le 3) 7 0x1040 [] id).bank hS 7).st.bit stDZT = true :=
  ⟨⟨⟨rfl, rfl, rfl, rfl, nofun, rfl, rfl, rfl, rfl, rfl, rfl, rfl⟩, fun _ => by decide, rfl⟩, by decide, ⟨readyL, (nomatch ·), rfl⟩, rfl, rfl,
   ⟨⟨rfl, rfl, rfl, rfl, nofun, rfl, rfl, rfl, rfl, rfl, rfl, rfl⟩, fun _ => by decide, rfl⟩, rfl⟩

/-- A loop engine whose accumulator 1 holds `a`, with `u` and `v` in g1 and g2. -/
def nkA (a : BitVec 48) (u v : Word) : State := cpu (.le 3) 0 0x1000 [(1, u), (2, v)] (fun x => { x with ac := x.ac.set 1 a })

/-- The sum of the accumulator and the product, and the difference. -/
def accSum (a : BitVec 48) (u v : Word) : Int :=
  let x := (nkA a u v).bank hS 0
  x.ac[(1 : Fin 2)].toInt + x.g[(1 : Fin 32)].toInt * x.g[(2 : Fin 32)].toInt
def accDiff (a : BitVec 48) (u v : Word) : Int :=
  let x := (nkA a u v).bank hS 0
  x.ac[(1 : Fin 2)].toInt - x.g[(1 : Fin 32)].toInt * x.g[(2 : Fin 32)].toInt

theorem witness_SaturatingResults : Runs (nkL []) hL 0 [1, 2, 31] ∧ hL.core.isNKS = false ∧
    Runs (nkA 0x7FFFFFFFFFFE 1 1) hS 0 [3, 1, 2] ∧ hS.core.isNKS = true ∧ accSum 0x7FFFFFFFFFFE 1 1 = 140737488355327 ∧
    accDiff 0x800000000001 1 1 = -140737488355328 :=
  ⟨⟨readyL, (nomatch ·), rfl⟩, rfl, ⟨⟨rfl, rfl, rfl, rfl, nofun, rfl, rfl, rfl, rfl, rfl, rfl, rfl⟩, fun _ => by decide, rfl⟩, rfl, rfl, rfl⟩

theorem witness_AccumulatorLimits : Runs (nkA 0x7FFFFFFFFFFF 1 1) hS 0 [1, 2] ∧ accSum 0x7FFFFFFFFFFF 1 1 = 140737488355328 ∧
    accSum 0x800000000000 1 (-1) = -140737488355329 ∧ accDiff 0x7FFFFFFFFFFF 1 (-1) = 140737488355328 ∧
    accDiff 0x800000000000 1 1 = -140737488355329 :=
  ⟨⟨⟨rfl, rfl, rfl, rfl, nofun, rfl, rfl, rfl, rfl, rfl, rfl, rfl⟩, fun _ => by decide, rfl⟩, rfl, rfl, rfl, rfl⟩

/-- The last places of a TCM; the address is that of g2 plus 0. -/
theorem ownS {t : AccKind} {a n : Nat} (h1 : a + n ≤ 0x2000) (h2 : a % n = 0) (h3 : mpuOk (nkS []).chip (.le 3) 1 t a = true)
    (h4 : domainsUp (nkS []).chip (tcmKey (.le 3) a) = true) : OwnAccess (nkS []) hS 0 t a n := ⟨h1, h2, h3, h4, rfl⟩

theorem ownL {t : AccKind} {a n : Nat} (h1 : a + n ≤ 0x20000) (h2 : a % n = 0) (h3 : mpuOk (nkL []).chip (.app 1) 1 t a = true)
    (h4 : domainsUp (nkL []).chip (tcmKey (.app 1) a) = true) : OwnAccess (nkL []) hL 0 t a n := ⟨h1, h2, h3, h4, rfl⟩

theorem witness_LoadResults : Runs (nkS []) hS 0 [2, pairReg 2, 1] ∧
    ((((nkS []).bank hS 0).g[(1 : Fin 32)] + 0x1FFF).toNat = 0x1FFF ∧ OwnAccess (nkS []) hS 0 .read 0x1FFF 1) ∧
    OwnAccess (nkS []) hS 0 .read 0x1FFE 2 ∧ OwnAccess (nkS []) hS 0 .read 0x1FFC 4 ∧ OwnAccess (nkS []) hS 0 .read 0x1FF8 8 ∧
    Runs (nkL []) hL 0 [1] ∧ ((nkL []).bank hL 0).st.bit stFPA = true ∧ OwnAccess (nkL []) hL 0 .read 0x1FFFC 4 :=
  ⟨⟨readyS, fun _ => by decide, rfl⟩, ⟨rfl, ownS (by decide) (by decide) (by decide +kernel) (by decide +kernel)⟩, ownS (by decide) (by decide) (by decide +kernel) (by decide +kernel),
   ownS (by decide) (by decide) (by decide +kernel) (by decide +kernel), ownS (by decide) (by decide) (by decide +kernel) (by decide +kernel), ⟨readyL, (nomatch ·), rfl⟩, rfl,
   ownL (by decide) (by decide) (by decide +kernel) (by decide +kernel)⟩

theorem witness_StoreResults : Runs (nkS []) hS 0 [2, pairReg 2, 1] ∧ OwnAccess (nkS []) hS 0 .write 0x1FFF 1 ∧
    OwnAccess (nkS []) hS 0 .write 0 2 ∧ OwnAccess (nkS []) hS 0 .write 0x1FFC 4 ∧ OwnAccess (nkS []) hS 0 .write 0x1FF8 8 ∧
    Runs (nkL []) hL 0 [2, pairReg 2, 1] ∧ OwnAccess (nkL []) hL 0 .write 0x1FFFC 4 :=
  ⟨⟨readyS, fun _ => by decide, rfl⟩, ownS (by decide) (by decide) (by decide +kernel) (by decide +kernel), ownS (by decide) (by decide) (by decide +kernel) (by decide +kernel), ownS (by decide) (by decide) (by decide +kernel) (by decide +kernel),
   ownS (by decide) (by decide) (by decide +kernel) (by decide +kernel), ⟨readyL, (nomatch ·), rfl⟩, ownL (by decide) (by decide) (by decide +kernel) (by decide +kernel)⟩

theorem witness_AtomicInstructions : Runs (nkL []) hL 0 [1, 2, 31] ∧ OwnAccess (nkL []) hL 0 .read 0x1FFFC 4 ∧
    OwnAccess (nkL []) hL 0 .write 0 4 ∧ (let a := ((nkL [(2, 3)]).bank hL 0).g[(2 : Fin 32)].toNat; a % 4 ≠ 0) ∧
    (let a := ((nkL [(2, 0x20000)]).bank hL 0).g[(2 : Fin 32)].toNat
     a % 4 = 0 ∧ ¬ a < tcmSize hL.core ∧ ¬ (0x10000000 ≤ a ∧ a < 0x11000000)) :=
  ⟨⟨readyL, (nomatch ·), rfl⟩, ownL (by decide) (by decide) (by decide +kernel) (by decide +kernel), ownL (by decide) (by decide) (by decide +kernel) (by decide +kernel), by decide, by decide⟩

theorem witness_BranchResults : Runs (nkL [(5, 1)]) hL 0 [5] ∧ ((nkL [(5, 1)]).bank hL 0).g[(5 : Fin 32)].getLsbD 0 = true ∧
    Runs (nkL []) hL 0 [5] ∧ ((nkL []).bank hL 0).g[(5 : Fin 32)].getLsbD 0 = false ∧ Runs (nkS []) hS 0 [15] :=
  ⟨⟨⟨rfl, rfl, rfl, rfl, nofun, rfl, rfl, rfl, rfl, rfl, rfl, rfl⟩, (nomatch ·), rfl⟩, rfl, ⟨readyL, (nomatch ·), rfl⟩, rfl, ⟨readyS, fun _ => by decide, rfl⟩⟩

/-- The stack of a loop engine at the end of its TCM takes the six registers of mask 0x7F and lr. -/
theorem witness_CallmRetmResults : Runs (nkS [(15, 0x2000)]) hS 0 [] ∧ (0x7F : BitVec 16).toNat < 128 ∧
    (let rs := maskRegs hS.core 0x7F ++ [14]
     let sp := ((nkS [(15, 0x2000)]).bank hS 0).g[(15 : Fin 32)]
     4 * rs.length ≤ sp.toNat ∧ sp.toNat % 4 = 0 ∧ sp.toNat - 4 * rs.length = 0x1FE4 ∧ rs.length = 7) ∧
    (∀ i : Fin 7, OwnAccess (nkS []) hS 0 .write (0x1FE4 + 4 * i.val) 4) ∧
    (∀ i : Fin 7, OwnAccess (nkS []) hS 0 .read (0x1FE4 + 4 * i.val) 4) ∧
    Runs (nkL [(31, 0x1FFFC)]) hL 0 [] ∧ OwnAccess (nkL []) hL 0 .read 0x1FFFC 4 ∧
    Ready (nkS []).chip hS.core 0 3 ∧ (0x80 : BitVec 16).getLsbD 7 = true :=
  ⟨⟨⟨rfl, rfl, rfl, rfl, nofun, rfl, rfl, rfl, rfl, rfl, rfl, rfl⟩, fun _ => by decide, rfl⟩, by decide, by decide,
   fun i => ownS (by omega) (by omega) (by revert i; decide) (by revert i; decide),
   fun i => ownS (by omega) (by omega) (by revert i; decide) (by revert i; decide),
   ⟨⟨rfl, rfl, rfl, rfl, nofun, rfl, rfl, rfl, rfl, rfl, rfl, rfl⟩, (nomatch ·), rfl⟩, ownL (by decide) (by decide) (by decide +kernel) (by decide +kernel), readyS, rfl⟩

/-- A store of the loop engine is on its way. -/
def storing : State := (nkS []).after (updCore (.le 3) (fun q => { q with stores := [⟨0, 0x21000000, 4, 5, 0⟩] }))

theorem witness_SystemResults : Runs (cpu (.le 3) 0 0x1000 [] (fun x => { x with latch := true })) hS 0 [] ∧
    Runs (nkS []) hS 0 [] ∧ ((nkS []).bank hS 0).latch = false ∧ (∀ o : Fin 8, (bankGet (nkS []).chip (.le 3) o).mode ≠ .ready) ∧
    Runs (cpu (.le 3) 7 0x1000 [] (fun x => { x with count := 1 })) hS 7 [] ∧ (coreGet (nkS []).chip (.le 3)).irq = 0 ∧
    (coreGet (nkS []).chip (.le 3)).stores = [] ∧ Runs storing hS 0 [] ∧ (coreGet storing.chip hS.core).stores ≠ [] ∧
    Runs (nkL []) hL 0 [] ∧ hL.core.isNKS = false ∧ (nkS []).chip.tri = none ∧ recogDue (nkS []).chip (.le 3) = false :=
  ⟨⟨⟨rfl, rfl, rfl, rfl, nofun, rfl, rfl, rfl, rfl, rfl, rfl, rfl⟩, fun _ => by decide, rfl⟩, ⟨readyS, fun _ => by decide, rfl⟩, rfl, by decide,
   ⟨⟨rfl, rfl, rfl, rfl, nofun, rfl, rfl, rfl, rfl, rfl, rfl, rfl⟩, fun _ => by decide, rfl⟩, rfl, rfl,
   ⟨⟨rfl, rfl, rfl, rfl, nofun, rfl, rfl, rfl, rfl, rfl, rfl, rfl⟩, fun _ => by decide, rfl⟩, nofun, ⟨readyL, (nomatch ·), rfl⟩, rfl, rfl, rfl⟩

/-- The state in which one iteration of the repeated instruction remains. -/
def lastIteration : State := cpu (.le 3) 0 0x1000 [] (fun x => { x with lc := 1 })

theorem witness_RepeatPairs : Runs lastIteration hS 0 [] ∧ (lastIteration.bank hS 0).lc = 1 ∧ hasRegs hS.core [1, 2, 15] ∧
    Runs (nkS []) hS 0 [] ∧ ((nkS []).bank hS 0).lc = 0 ∧
    ∃ s1, exec (.rep hS ⟨3, true⟩) lastIteration = .next s1 ∧
      fetchOk { k := .le 3, b := 0, pc := (s1.bank hS 0).pc, nxt := (s1.bank hS 0).pc + 3 } 3 s1.chip =
        (true, fetchMark (.le 3) (s1.bank hS 0).pc s1.chip) :=
  ⟨⟨⟨rfl, rfl, rfl, rfl, nofun, rfl, rfl, rfl, rfl, rfl, rfl, rfl⟩, fun _ => by decide, rfl⟩, rfl, fun _ => by decide, ⟨readyS, fun _ => by decide, rfl⟩, rfl, _, rfl, by decide +kernel⟩

theorem witness_TrapAndReturn : Runs (nkS []) hS 0 [] ∧ ((nkS []).bank hS 0).st.bit stEXC = false ∧
    (vectorWord (.le 3) 0 11 ((nkS []).fetched hS 0).chip).1 = some 0 ∧ (vectorWord (.le 3) 0 31 ((nkS []).fetched hS 0).chip).1 = some 0 ∧
    ((nkS []).bank hS 0).saved = [] ∧ (((0x2E, [1], 2) :: []) : List (Word × List Word × Word)) =
      ((cpu (.le 3) 0 0x1000 [] (fun x => { x with epc := 0x2E, saved := [(0x2E, [1], 2)] })).bank hS 0).saved ∧
    privOf ((nkS []).bank hS 0).est ≤ bankPriv (nkS []).chip (.le 3) 0 :=
  ⟨⟨readyS, fun _ => by decide, rfl⟩, rfl, by decide +kernel, by decide +kernel, rfl, rfl, by decide⟩

/-- PRIV 0, PRIV 1 with a value of PRIV 1, and a value of PRIV 2 or 3. -/
theorem witness_SystemRegisters : Runs (cpu (.le 3) 0 0 [] id) hS 0 [15] ∧ privOf ((cpu (.le 3) 0 0 [] id).bank hS 0).st = 0 ∧
    Runs (nkL [(31, 0x1000)]) hL 0 [31] ∧ privOf ((nkL [(31, 0x1000)]).bank hL 0).st = 1 ∧ privOf 0x1000 = 1 ∧ privOf 0x2000 = 2 ∧
    privOf 0x3000 = 3 ∧ ((nkL []).bank hL 0).st.bit stFPA = true :=
  ⟨⟨⟨rfl, rfl, rfl, rfl, nofun, rfl, rfl, rfl, rfl, rfl, rfl, rfl⟩, fun _ => by decide, rfl⟩, rfl, ⟨⟨rfl, rfl, rfl, rfl, nofun, rfl, rfl, rfl, rfl, rfl, rfl, rfl⟩, (nomatch ·), rfl⟩, rfl, rfl, rfl, rfl, rfl⟩

theorem witness_DecodeChecks : Ready (nkS []).chip hS.core 0 3 ∧ Ready (nkL []).chip hL.core 0 4 ∧ hS.core.isNKS = true ∧
    hL.core.isNKS = false ∧ (16 : Fin 32).val = 16 ∧ (8 : BitVec 8).toNat = 8 ∧ (5 : BitVec 8).toNat = 5 ∧
    condHolds ((nkS []).bank hS 0).st 1 = false ∧ hasRegs hS.core [0, 14, 15] ∧
    (32 : Word).toNat = 32 ∧ (15 : Word).toNat < 16 ∧ (31 : Word).toNat < 32 ∧ recogDue (nkL []).chip (.app 1) = false :=
  ⟨readyS, readyL, rfl, rfl, rfl, rfl, rfl, rfl, fun _ => by decide, rfl, by decide, by decide, rfl⟩

/-- A bank of a loop engine that waits for an angle. -/
def waiting (t : Option Nat) : State :=
  cpu (.le 3) 1 0x1000 [] (fun x => { x with mode := .waiting, wait := some (.angle 3 0 100 t) })

theorem witness_DoorbellsAndWaits : Runs (nkS [(1, 0xFFFFFFFF)]) hS 0 [1] ∧ Runs (nkS [(1, 0x04000000)]) hS 0 [3, 1, 2] ∧
    ¬ (0xFFFFFFFF &&& 0xF8800000 = (0 : Word)) ∧
    (let d := ((nkS [(1, 0x04000000)]).bank hS 0).g[(1 : Fin 32)]; d &&& 0xF8800000 = 0 ∧ d.getLsbD 26 = true) ∧
    0 ≤ ((nkS []).chip.capTime - ((nkS []).bank hS 0).g[(2 : Fin 32)]).toInt ∧
    Runs (nkL []) hL 0 [3, 1, 2] ∧ ((0 : Word) &&& 0xF8800000 = 0 ∧ (0 : Word).getLsbD 26 = false) ∧ corePlane hL.core ≠ .control ∧
    corePlane hS.core = .control ∧ pbState (nkS []).chip (Fin.ofNat 8 ((0 : Word).fld 20 3)) < 2 ∧
    (waiting none).inRun ∧ (bankGet (waiting none).chip (.le 3) 1).mode = .waiting ∧
    (bankGet (waiting none).chip (.le 3) 1).wait = some (.angle 3 0 100 none) ∧
    (bankGet (waiting (some 5)).chip (.le 3) 1).wait = some (.angle 3 0 100 (some 5)) :=
  ⟨⟨⟨rfl, rfl, rfl, rfl, nofun, rfl, rfl, rfl, rfl, rfl, rfl, rfl⟩, fun _ => by decide, rfl⟩, ⟨⟨rfl, rfl, rfl, rfl, nofun, rfl, rfl, rfl, rfl, rfl, rfl, rfl⟩, fun _ => by decide, rfl⟩, by decide, by decide, by decide,
   ⟨readyL, (nomatch ·), rfl⟩, by decide, by decide, by decide, by decide, rfl, rfl, rfl, rfl⟩

/-- Bank 0 of the MGE runs with the status `st` and bank 7 is READY. -/
def preempt (st : Word) : State := (cpu .mge 0 st [] id).after (updBank .mge 7 (fun x => { x with mode := .ready }))

theorem witness_BanksAndPrivateWrites : coreLive (preempt 0x6000).chip .mge = true ∧ (coreGet (preempt 0x6000).chip .mge).running = some 0 ∧
    (coreGet (preempt 0x6000).chip .mge).long = [] ∧ (bankGet (preempt 0x6000).chip .mge 0).mode = .running ∧
    (bankGet (preempt 0x6000).chip .mge 0).rep = none ∧ (bankGet (preempt 0x6000).chip .mge 7).mode = .ready ∧
    (∀ o : Fin 8, (bankGet (preempt 0x6000).chip .mge o).mode = .ready → o ≤ 7) ∧
    ((bankGet (preempt 0x6000).chip .mge 0).st.bit stIE = true ∧ (coreGet (preempt 0x6000).chip .mge).afterSt = false) ∧
    (bankGet (preempt 0x2000).chip .mge 0).st.bit stIE = false ∧ privOf (bankGet (preempt 0x2000).chip .mge 0).st = 2 ∧
    privOf (bankGet (preempt 0).chip .mge 0).st = 0 ∧ (coreGet (preempt 0x6000).chip .mge).stalls = [] ∧
    mpuOk (preempt 0x2000).chip .mge 2 .write 0xE000000C = true ∧ recogDue (preempt 0).chip .mge = false :=
  ⟨by decide +kernel, by decide +kernel, by decide +kernel, by decide +kernel, by decide +kernel, by decide +kernel, fun o _ => by omega, ⟨by decide +kernel, rfl⟩, by decide +kernel, by decide +kernel, by decide +kernel, rfl, by decide +kernel, by decide +kernel⟩

/-- Floating-point values: f1 and f2 hold `u` and `v`, f3 holds `w`, g1 holds `x`. -/
def fpu (u v w x : Word) : State := nkF [(1, x)] [(1, u), (2, v), (3, w)]



theorem witness_FloatResults : RunsFp (fpu 0x3FC00000 0x3F000000 0x40000000 3) hL 0 ∧
    (let q := (coreGet (fpu 0x3FC00000 0x3F000000 0x40000000 3).chip hL.core).f
     q[(1 : Fin 32)] = 0x3FC00000 ∧ q[(2 : Fin 32)] = 0x3F000000 ∧ q[(3 : Fin 32)] = 0x40000000) :=
  ⟨⟨⟨⟨rfl, rfl, rfl, rfl, nofun, rfl, rfl, rfl, rfl, rfl, rfl, rfl⟩, (nomatch ·), rfl⟩, rfl, by decide +kernel, by decide +kernel⟩,
   by decide +kernel, by decide +kernel, by decide +kernel⟩

/-- No bank owns the floating-point file, and bank 0 names the area at 0. -/
theorem witness_LazyTransfer : Runs (cpu (.app 1) 0 0x1000 [] id) hL 0 [] ∧
    (let s := cpu (.app 1) 0 0x1000 [] id
     (s.bank hL 0).st.bit stFPA = false ∧ recogDue s.chip (.app 1) = false ∧ (coreGet s.chip (.app 1)).fpOwner = none ∧
     (coreGet s.chip (.app 1)).stores = [] ∧ areaOf s.chip (.app 1) 0 + 132 ≤ tcmSize (.app 1) ∧
     ∀ i : Fin 33, mpuOk s.chip (.app 1) 1 .read (areaOf s.chip (.app 1) 0 + 4 * i.val) = true ∧
       eccErr s.chip (tcmKey (.app 1) (areaOf s.chip (.app 1) 0 + 4 * i.val)) = none) :=
  ⟨⟨⟨rfl, rfl, rfl, rfl, nofun, rfl, rfl, rfl, rfl, rfl, rfl, rfl⟩, (nomatch ·), rfl⟩, by decide +kernel⟩

/-- Normal operands with exact results: 1.5 + 0.5 = 2, 1.5 − 0.5 = 1, 1.5 × 0.5 = 0.75, 3 × 0.5 = 1.5, 1.5 × 1.5 = 2.25,
2 + 1.5 × 0.5 = 2.75. -/
theorem witness_FloatExact :
    (fNormal 8 23 0x3FC00000 ∧ fNormal 8 23 0x00800000 ∧ fNormal 8 23 0xFF7FFFFF) ∧
    fValue 8 23 0x40000000 = fValue 8 23 0x3FC00000 + fValue 8 23 0x3F000000 ∧
    fValue 8 23 0x3F800000 = fValue 8 23 0x3FC00000 - fValue 8 23 0x3F000000 ∧
    fValue 8 23 0x3F400000 = fValue 8 23 0x3FC00000 * fValue 8 23 0x3F000000 ∧
    fValue 8 23 0x40400000 * fValue 8 23 0x3F000000 = fValue 8 23 0x3FC00000 ∧
    fValue 8 23 0x3FC00000 * fValue 8 23 0x3FC00000 = fValue 8 23 0x40100000 ∧
    fValue 8 23 0x40300000 = fValue 8 23 0x40000000 + fValue 8 23 0x3FC00000 * fValue 8 23 0x3F000000 ∧
    fValue 8 23 0x3F000000 ≤ fValue 8 23 0x3FC00000 := by
  refine ⟨⟨by unfold fNormal; decide, by unfold fNormal; decide, by unfold fNormal; decide⟩, ?_, ?_, ?_, ?_, ?_, ?_, ?_⟩ <;>
    norm_num [fValue]

/-- Comparisons and exact conversions: −2 < 0.5, −2 and 2 as integers, 1.5 in both formats. -/
theorem witness_FloatCompare :
    fValue 8 23 0xC0000000 < fValue 8 23 0x3F000000 ∧ (((0xFFFFFFFE : Word).toInt : Int) : Rat) = fValue 8 23 0xC0000000 ∧
    (((2 : Word).toNat : Nat) : Rat) = fValue 8 23 0x40000000 ∧ fNormal 5 10 0x3E00 ∧
    fValue 5 10 0x3E00 = fValue 8 23 0x3FC00000 := by
  refine ⟨?_, ?_, ?_, by unfold fNormal; decide, ?_⟩
  · norm_num [fValue]
  · rw [show ((0xFFFFFFFE : Word).toInt : Int) = -2 by decide]; norm_num [fValue]
  · rw [show (2 : Word).toNat = 2 by decide]; norm_num [fValue]
  · norm_num [fValue]

/-! ### The blocks: for each statement, states and operands for the hypotheses of its clauses -/

/-- The chip after reset, changed by `f`. -/
def W (f : Chip → Chip) : Chip := f State.reset.chip
/-- An access that is let through. -/
abbrev lets (c : Chip) (a : Nat) (wr : Bool) : Prop := verdict c .mge a wr = .ok

/-- Phase base 7 with the control word `v` and state `st`. -/
def pb7 (v : Word) (st : Nat) (f : PhaseBase → PhaseBase) : Chip := W fun c => updPb 7 f ((c.setReg (pbR 7 0) v).setFld (pbR 7 8) 0 2 st)

/-- An update that phase base 7 has applied in cycle 0. -/
def taken : PbTaken := ⟨0, plainUpdate 0 0 5 0, 0, none, none, 0, none, none, none, 0, 0, 0, 7, false⟩

theorem witness_PhaseBaseCommands : (W id).power.mode = .run ∧ (W id).sealed = false ∧ lets (W id) (pbR 7 0) true ∧
    (Word.bit 13 0 = true ∧ Word.fld 13 1 3 = 6 ∧ pbEn (W id) 7 = false) ∧ (Word.bit 0 0 = false ∧ pbEn (pb7 1 1 id) 7 = true) ∧
    (lets (pb7 1 1 id) (pbR 7 4) true ∧ pbState (pb7 1 1 id) 7 = 1) ∧ lets (W id) (pbR 7 0x10) true ∧
    (∀ m ∈ [(0, 0), (1, 1), (2, 2), (3, 3)], let c := pb7 (BitVec.ofNat 32 (13 + 64 * m.1)) 1 (fun b => { b with evcPulse := some 5 })
      lets c (pbR 7 0x74) true ∧ pbEn c 7 = true ∧ pbSrc c 7 = 6 ∧ c.fld (pbR 7 0) 6 2 = m.2 ∧ c.pbs[(7 : Fin 8)].evcPulse = some 5 ∧ 5 ≠ c.now) ∧
    lets (pb7 13 1 id) (pbR 7 0x78) true ∧ pbFwd (pb7 13 1 id) 7 = false ∧
    pbFwd ((pb7 13 1 id).setReg (pbR 7 0) 0x100D) 7 = false ∧ 0 ≤ (0x7FFFFFFF : Word).toInt ∧ (0x80000000 : Word).toInt < 0 ∧
    takenNow (pb7 1 1 id) 7 = [] ∧
    (let c := pb7 1 2 (fun b => { b with taken := [taken] })
     takenNow c 7 = [taken] ∧ pbState c 7 ≠ 0 ∧ pbEn c 7 = true ∧ pbFwd c 7 = false ∧ 0 ≤ stampAge c taken.u.t ∧ stampAge c taken.u.t ≤ 65535) := by
  decide +kernel

/-- Source 1 with the index enabled, source 2 with the six sectors of its table. -/
def enc7 (f : PhaseBase → PhaseBase) : Chip := (pb7 3 2 f).setReg (pbR 7 0x40) 0x40
def hall7 (st : BitVec 3) : Chip := (pb7 5 2 (fun b => { b with hall := st })).setReg (pbR 7 0x4C) 0o645132

theorem witness_PhaseSources_encoderAndHall :
    (let x := (enc7 id).pbs[(7 : Fin 8)]
     pbEn (enc7 id) 7 = true ∧ pbSrc (enc7 id) 7 = 1 ∧ x.takeAt ≠ some (enc7 id).now ∧ (x.encA, x.encB, x.pend) = (false, false, []) ∧
     (enc7 id).bit (pbR 7 0x40) 6 = true) ∧
    (enc7 (fun b => { b with takeAt := some 0 })).pbs[(7 : Fin 8)].takeAt = some (enc7 id).now ∧
    (pbSrc (hall7 4) 7 = 2 ∧ (hall7 4).pbs[(7 : Fin 8)].takeAt ≠ some (hall7 4).now ∧ (hall7 4).pbs[(7 : Fin 8)].hall = 4 ∧ pbEn (hall7 4) 7 = true) ∧
    (hallIx (hall7 4) 7 2 = some 0 ∧ hallIx (hall7 4) 7 3 = some 1 ∧ hallIx (hall7 4) 7 4 = some 4 ∧ hallIx (hall7 4) 7 6 = some 5 ∧
      hallIx (hall7 4) 7 5 = some 3 ∧ hallIx (hall7 4) 7 7 = none) := by decide +kernel

/-- The tracker of phase base 7 awaits the samples of a strobe in cycle 5; the time is `n`, the amplitude limits are `l`. -/
def track7 (v : Word) (n : Nat) (l : Word) : Chip := { (pb7 v 1 (fun b => { b with strobeAt := some 5 })).setReg (pbR 7 0x5C) l with now := n }

theorem witness_PhaseSources_trackers : (pbEn (track7 7 5 0) 7 = true ∧ pbSrc (track7 7 5 0) 7 = 3 ∧ pbSrc (track7 9 5 0) 7 = 4 ∧ pbSrc (track7 11 5 0) 7 = 5) ∧
    ((track7 7 262 0).pbs[(7 : Fin 8)].strobeAt = some 5 ∧ (track7 7 5 0).now ≤ 5 ∧ 5 < (track7 7 6 0).now ∧ 5 + 256 < (track7 7 262 0).now ∧ (track7 7 261 0).now ≤ 5 + 256) ∧
    (ampOk (track7 7 5 0x00010001) 7 1 = true ∧ ampOk (track7 7 5 0) 7 1 = false ∧ ampOk (track7 7 5 0x00020002) 7 1 = false) ∧
    (let c := (pb7 1 2 id).setReg (pbR 7 0x64) 0x110; pbSrc c 7 = 0 ∧ pbEn c 7 = true ∧ discOn c 7 = true) := by decide +kernel

def someUpdate (t : Word) : PbUpdate := plainUpdate 100 2 5 t
/-- An update waits in ACQUIRE, due now; its stamp is `t` and the time is 65,600. -/
def waits (t : Word) : Chip := { pb7 1 1 (fun b => { b with pend := [{ someUpdate t with due := 65600 }] }) with now := 65600 }
/-- The timeout of phase base 7 runs since cycle 5; the source is that of `v`. -/
def tmo7 (v : Word) (st : Nat) : Chip := { (pb7 v st (fun b => { b with tmoFrom := some 5 })).setReg (pbR 7 0x34) 1 with now := 6 }

theorem witness_UpdatesAndTimeouts : ((waits 65).pbs[(7 : Fin 8)].pend.map (·.due) = [(waits 65).now] ∧ pbState (waits 65) 7 = 1 ∧
    pbFwd (waits 65) 7 = false ∧ stampAge (waits 65) 65 = 65535 ∧ stampAge (waits 64) 64 = 65536 ∧ stampAge (waits 65601) 65601 = -1) ∧
    (pb7 1 1 (fun b => { b with slew := some ⟨0, 0, 1, false, 0⟩ })).pbs[(7 : Fin 8)].slew = some ⟨0, 0, 1, false, 0⟩ ∧
    slewDone ⟨0, 0, 1, false, 0⟩ = true ∧
    (∀ e ∈ [(3, 1, 2), (5, 2, 2), (7, 3, 2), (7, 3, 1)], let c := tmo7 e.1 e.2.2
      pbSrc c 7 = e.2.1 ∧ pbState c 7 = e.2.2 ∧ tmoRuns c 7 = true ∧ c.pbs[(7 : Fin 8)].tmoFrom = some 5 ∧ 5 ≠ c.now) ∧
    ((∀ e ∈ [1, 2], (tmo7 3 e).pbs[(7 : Fin 8)].pend = []) ∧ (waits 65).pbs[(7 : Fin 8)].pend = [{ someUpdate 65 with due := 65600 }]) ∧
    (let u := { someUpdate 65 with due := 65600, m := 0x400000000 }
     let c := (updPb 7 (fun b => { b with pend := [u] }) ((waits 65).setReg (pbR 7 0x2C) 1)).setFld (pbR 7 8) 0 2 2
     pbState c 7 = 2 ∧ c.fld (pbR 7 0x2C) 0 20 = 1 ∧
     (1 * 2 ^ 16 : Nat) < absI (updErr (updMarks 7 u (updPb 7 (fun x => { x with pend := [] }) c)) 7 u)) ∧
    (tmoRuns ((pb7 3 2 id).setReg (pbR 7 0x34) 0) 7 = false ∧ (pb7 3 2 id).pbs[(7 : Fin 8)].tmoFrom = none) := by decide +kernel

def record : CapRec := ⟨1, 2, true, false⟩
/-- Capture channel 63 takes both edges with both stamps; its queue holds `n` records, and the cycle brought one rising edge. -/
def cap63 (n : Nat) : Chip := W fun c =>
  let c := updCap 63 (fun x => { x with q := List.replicate n record, edges := [true] }) (c.setReg (capR 63 0) 0x3803)
  { c with regs0 := c.regs }

theorem witness_CaptureRecords :
    (let v := (cap63 4).reg0 (capR 63 0); v.bit 0 = true ∧ v.fld 1 2 ≠ 0 ∧ v.fld 10 2 = 2 ∧ v.fld 12 2 ≠ 0) ∧
    (cap63 4).caps[(63 : Fin 64)].takeAt ≠ some (cap63 4).now ∧ (cap63 4).caps[(63 : Fin 64)].edges = [true] ∧
    (cap63 4).caps[(63 : Fin 64)].q.length = 4 ∧ (cap63 3).caps[(63 : Fin 64)].q.length = 3 ∧
    (updCap 63 (fun x => { x with clearAt := some 0 }) (cap63 4)).caps[(63 : Fin 64)].clearAt = some (cap63 4).now ∧
    (cap63 4).caps[(63 : Fin 64)].clearAt ≠ some (cap63 4).now ∧ lets (cap63 4) (capR 63 8) false ∧ (cap63 1).caps[(63 : Fin 64)].q = record :: [] ∧ (cap63 0).caps[(63 : Fin 64)].q = [] := by
  decide +kernel

/-- A request is served: an insertion at angle 0 of phase base 7, or the removal of handle 131,071. -/
def insReq : SchReq := { land := some 0, ini := 95, removal := false, w0 := 0x00700000, w1 := 0, w2 := 0, w3 := 0 }
def remReq : SchReq := { insReq with removal := true, w3 := 0x1FFFF }
def sched (r : SchReq) (used : Bool) : Chip := W fun c =>
  updSch (fun s => { s with reqs := [r], bins := [(4096 * 7, [131071])] })
    (setEntry 131071 { ActEntry.reset with inuse := used, pb := 7 } (setSchState 7 2 { c with now := 100 }))

theorem witness_InsertionPort : lets (W id) (schR 0xC) true ∧ lets (W id) (schR 0x14) true ∧ (W id).sealed = false ∧
    portReq (sched insReq false) = some insReq ∧ insReq.ini < 96 ∧ (sched insReq false).sched.reqs = [insReq] ∧ insReq.land ≠ none ∧
    (sched insReq false).sched.moves = [] ∧ insStatus (sched insReq false) insReq.w0 insReq.w1 insReq.w2 insReq.w3 = 0 ∧
    (takeFree (sched insReq false)).isSome = true ∧
    insStatus (sched insReq false) 0xF0000000 insReq.w1 insReq.w2 insReq.w3 ≠ 0 ∧ portReq (sched remReq true) = some remReq ∧
    linked (sched remReq true) 131071 = true ∧ (entryAt (sched remReq true) 131071).gen.toNat = (remReq.w3).fld 17 3 ∧
    remReq.w3.fld 0 17 = 131071 ∧ (sched remReq true).sched.fired = [] ∧ linked (sched remReq false) 131071 = false := by
  decide +kernel

/-- The scheduler of phase base 7 in state `st` with the items `l` first in its walk; the base is in TRACK. -/
def walk (st : Nat) (l : List SchItem) : Chip := W fun c =>
  let c := setSchState 7 st ((c.setReg (schP 7 0) 17).setFld (pbR 7 8) 0 2 2)
  let c := setEntry 9 { ActEntry.reset with inuse := true, pb := 7 } { c with now := 100 }
  let c := updSch (fun s => { s with bins := [(4096 * 7, [9])] }) c
  updSp 7 (fun s => { s with armedAt := 50, items := l, recs := [⟨9, 0, false, none⟩] }) c

theorem witness_SchedulerWalk :
    (lets (W id) (schP 7 0) true ∧ (W id).bit (schP 7 0) 0 = false ∧ schState (W id) 7 = 0 ∧ (walk 2 []).bit (schP 7 0) 0 = true ∧
      (W id).sealed = false ∧ lets (walk 2 []) (schP 7 0) true) ∧
    (lets (walk 3 []) (schP 7 4) true ∧ schState (walk 3 []) 7 = 3) ∧
    (schState (walk 1 []) 7 = 1 ∧ (walk 1 []).bit (schP 7 0) 0 = true ∧ (walk 1 []).bit (schP 7 0) 4 = true ∧ pbState (walk 1 []) 7 = 2 ∧
      (walk 1 []).sched.pbs[(7 : Fin 8)].leave = none) ∧
    (let c := walk 2 [.cross (some 0)]; schState c 7 = 2 ∧ c.sched.pbs[(7 : Fin 8)].armedAt < c.now ∧
      c.sched.pbs[(7 : Fin 8)].items = .cross (some 0) :: [] ∧ c.sched.pbs[(7 : Fin 8)].jumped = false ∧
      binOf (uangNow c 7) = c.sched.pbs[(7 : Fin 8)].centre ∧
      (c.sched.pbs[(7 : Fin 8)].centre - c.sched.pbs[(7 : Fin 8)].last).natAbs ≤ 64) ∧
    (let c := updSp 7 (fun x => { x with armedAt := 100 }) (walk 2 []); schState c 7 = 2 ∧ c.sched.pbs[(7 : Fin 8)].armedAt = c.now) ∧
    ((walk 2 [.load 9]).sched.pbs[(7 : Fin 8)].owed = [] ∧ (entryAt (walk 2 [.load 9]) 9).catchSkip = false ∧
      (updSp 7 (fun x => { x with owed := [(9, true)] }) (walk 2 [.load 9])).sched.pbs[(7 : Fin 8)].owed = [(9, true)]) ∧
    (let c := walk 2 [.load 9]; recOf c 7 9 = some ⟨9, 0, false, none⟩ ∧ nearCount c 7 < 64 ∧ c.ecc.bad = [] ∧ removing c 9 = false) ∧
    (let c := updSch (fun s => { s with moves := [(9, some true)] }) (walk 1 []); c.sched.moves = [(9, some true)] ∧
      linked c 9 = true ∧ (entryAt c 9).pb = 7 ∧ schState c 7 ≠ 2 ∧ c.sched.pbs[(7 : Fin 8)].items = []) ∧
    (walk 2 [.sweepBin 0]).sched.pbs[(7 : Fin 8)].items = .sweepBin 0 :: [] ∧
    (let c := walk 2 [.evict 9 (some true)]; c.sched.pbs[(7 : Fin 8)].items = .evict 9 (some true) :: [] ∧ linked c 9 = true ∧
      (entryAt c 9).catchSkip = false ∧ removing c 9 = false) := by decide +kernel

/-- An action of type `ty` that is resident at an ARMED scheduler and fires at each crossing. -/
def resident (ty target : Nat) : Chip := W fun c =>
  setEntry 9 { ActEntry.reset with inuse := true, near := true, dir := 2, type := ty, target := target, pb := 7 }
    (setSchState 7 2 ((c.setReg (dmaC 1 31 0) 2)))

theorem witness_ScheduledActions :
    (∀ ty ∈ List.range 11, let c := resident ty 31; let e := entryAt c 9; e.inuse = true ∧ e.near = true ∧ schState c e.pb = 2 ∧ e.type = ty ∧
      qualifies e true ((c.sched.pbs[e.pb].uang + 0) / 2 ^ 36) = true ∧
      qualifies e false ((c.sched.pbs[e.pb].uang + max (travel c e.pb) 0) / 2 ^ 36) = true ∧
      c.bit (dmaC 1 (e.target % 32) 0) 1 = true ∧ e.target = (31 : Fin 96).val) ∧
    (entryAt (resident 2 95) 9).target = (95 : Fin 96).val := by decide +kernel

/-- The registers stand since the cycle before. -/
def settled (c : Chip) : Chip := { c with regs0 := c.regs }

/-- Channel 95 with the control word `v`, changed by `f`. -/
def pwm95 (v : Word) (f : Pwm → Pwm) : Chip := W fun c => settled (updPwm 95 f (c.setReg (pwmR 95 0) v))
/-- The channel runs with PWM_CMTCFG `m`; one write of its commit stages stands, and `n` sets wait. -/
def commits (m : Word) (w : SetWrite) (n : Nat) : Chip :=
  settled ((pwm95 1 (fun p => { p with writes := [w], cur := { p.cur with setq := List.replicate n (Vector.replicate 8 0) } })).setReg (pwmR 95 0x80) m)

/-- Trip input 7 of slice 11 is active and channel 95 selects it. -/
def trip95 (f : Pwm → Pwm) : Chip := W fun c =>
  updPwm 95 f { c.setReg (pwmR 95 0x94) 0x80 with slices := vmod c.slices 11 (fun x => { x with tripLive := 0x80 }) }

theorem witness_PwmCommands :
    (lets (W id) (pwmR 95 0) true ∧ (W id).sealed = false ∧ Word.fld 17 1 2 = 0 ∧ Word.bit 17 0 = true ∧ (W id).bit (pwmR 95 0) 0 = false ∧
      pwmRun (W id) 95 = false) ∧
    (pwmRun (pwm95 9 id) 95 = true ∧ (pwm95 9 id).pwms[(95 : Fin 96)].ran = false ∧ (pwm95 9 id).bit (pwmR 95 0) 3 = true ∧
      (pwm95 0 (fun p => { p with ran := true })).pwms[(95 : Fin 96)].ran = true) ∧
    (lets (W id) (pwmR 95 0x38) true ∧ (W id).pwms[(95 : Fin 96)].ipsNow[(5 : Fin 6)] = 0 ∧ Word.fld 0x0FFFFF 20 4 = 0 ∧ Word.fld 0xFFFFFF 20 4 ≠ 0 ∧
      (pwm95 1 (fun p => { p with ipsNow := p.ipsNow.set 5 1 })).pwms[(95 : Fin 96)].ipsNow[(5 : Fin 6)] = 1) ∧
    (lets (W id) (xbarR 191) true ∧ lets (W id) (pwmR 95 0x9C) true) ∧
    (let c := W fun c => { c with now := 5, pins := { c.pins with copyDue := [4] } }; (∀ t ∈ c.pins.copyDue, t < c.now) ∧ copyHeld c 191 = false) ∧
    (let c := W fun c => { c with now := 5, pins := { c.pins with copyDue := [5] } }; ∀ t ∈ c.pins.copyDue, c.now ≤ t) ∧
    (let c := settled ((pwm95 1 (fun p => { p with ran := true })).setReg (pwmR 95 0x2C) 1)
     pwmRun c 95 = true ∧ c.pwms[(95 : Fin 96)].ran = true ∧ pwmComp c 95 ≠ c.pwms[(95 : Fin 96)].comp) ∧
    (lets (W id) (pwmR 95 0x80) true ∧ Word.fld 5 0 3 = 5 ∧ Word.bit 5 8 = false ∧ Word.fld 0x104 0 3 = 4 ∧ Word.bit 0x104 8 = true) ∧
    (lets (W id) (pwmR 95 0x120) true ∧ pwmRun (pwm95 1 id) 95 = true ∧ cmtCloser (commits 0x88 .close 0) 95 = (7 : Fin 8).val + 1 ∧
      cmtCoh (commits 0x88 .close 0) 95 = true ∧ cmtSqen (commits 0x88 .close 0) 95 = false) ∧
    (lets (commits 8 .close 0) (pwmR 95 0x84) true ∧ cmtCoh (commits 8 .close 0) 95 = true ∧ cmtSqen (commits 8 .close 0) 95 = false) ∧
    lets (W id) (pwmR 95 0xC0) true ∧
    (∀ w ∈ [SetWrite.close, .flush, .shadow 7 5, .push 95 (Vector.replicate 8 0)], let c := commits 8 w 8
      c.pwms[(95 : Fin 96)].writes = [w] ∧ cmtPoint c 95 ≠ 3 ∧ cmtCoh c 95 = c.bit (pwmR 95 0x80) 3) ∧
    ((commits 8 .flush 7).pwms[(95 : Fin 96)].cur.setq.length = 7 ∧ (commits 8 .flush 8).pwms[(95 : Fin 96)].cur.setq.length = 8) ∧
    (committedNow (updPwm 95 (fun p => { p with commitAt := some 31 }) (commits 8 .close 0)) 95 = true) ∧
    (lets (W id) (pwmR 95 0x98) true ∧ tripHits (W id) 95 = false ∧ tripHits (trip95 id) 95 = true ∧
      (trip95 (fun p => { p with clrDue := true })).pwms[(95 : Fin 96)].clrDue = true) := by decide +kernel

/-- The driver rose at fine tick 0. -/
def rise : Rise := ⟨0, 31, 31, false, none⟩
/-- Output A of channel 95 is driven, with a rise and the end of its minimum pulse due at fine tick 31 of cycle 0. -/
def edge95 (l : Bool) : Chip :=
  pwm95 1 (fun p => { p with levA := true, outA := { p.outA with drv := true, lvl := l, rises := [rise], hold := some 31 } })

theorem witness_PwmEvents : (∀ m ∈ [0, 1, 2], pwmRun (pwm95 (BitVec.ofNat 32 (1 + 2 * m)) id) 95 = true ∧
      pwmMode (pwm95 (BitVec.ofNat 32 (1 + 2 * m)) id) 95 = m) ∧
    (let c := edge95 false; let o := getOut c 95 false; let p := c.pwms[(95 : Fin 96)]
     o.rises.filter (fun x => x.due == 31) = [rise] ∧ rise.fall = none ∧ o.drv = true ∧ o.lvl = false ∧ pwmComp c 95 = false ∧ o.hold = some 31 ∧
     fallFrom c 95 false (pwmComp c 95) (cfgNow c 95).2.1 (cfgNow c 95).2.2.1 (comingFrom c 95 4) p.levA p.levB = none) ∧
    (let c := settled ((edge95 false).setReg (pwmR 95 0x2C) 1)
     pwmComp c 95 = true ∧ (getOut c 95 true).lvl = false ∧ bandEnd (getOut c 95 true) (deadBand c 95 false) ≤ 31) ∧
    ((getOut (pwm95 1 id) 95 true).rises = [] ∧ (getOut (edge95 true) 95 false).hold = some 31) ∧
    (let c := (pwm95 1 id).setReg (pwmR 95 0x44) 7
     pwmRun c 95 = true ∧ c.bit (pwmR 95 0x44) 0 = true ∧ c.bit (pwmR 95 0x44) 1 = true ∧ c.bit (pwmR 95 0x44) 2 = true) ∧
    ((pwm95 1 id).setReg (pwmR 95 0x44) 5).bit (pwmR 95 0x44) 1 = false ∧
    (0x7F : Nat) % pwmPer (pwm95 1 id) 95 ≠ 0 ∧ (pwm95 1 id).fld (xbarR 191) 0 8 < 192 := by decide +kernel

theorem witness_TripsAndHalt : (trip95 id).bit (pwmR (8 * 11 + 7) 0x94) 7 = true ∧
    (let c := trip95 (fun p => { p with tripDue := true })
     c.pwms[(95 : Fin 96)].tripDue = true ∧ c.pwms[(95 : Fin 96)].tripOver = false ∧ c.bit (pwmR 95 0x94) 12 = false) ∧
    (let c := (W id).setReg (secR 0x1C) 2
     dbgRun c = true ∧ CoreId.app 3 ∈ slowners c 11 ∧ c.bit (safecfgR 11) 7 = false ∧
     ∀ o ∈ slowners c 11, (coreGet c o).halted = false) ∧ dbgRun (W id) = false := by decide +kernel

/-- SAR core 31 is on and ready, changed by `f`. -/
def adc31 (f : Adc → Adc) : Chip := W fun c => updAdc 31 f (((c.setReg (adcR 31 0) 1).setReg (adcR 31 4) 2).setReg (adcR 31 0xC) 0x30000)
def conv : AdcConv :=
  { entry := 0, seq := 0x01800000, chk := 0, src := 3, left := 1, sum := 0, stamp := 0, tsel := true, code := 1000, sampleAt := 0, endAt := 0,
    held := false }

theorem witness_AdcResults :
    (let c := adc31 (fun a => { a with pending := List.replicate 3 ⟨0, 3, 5⟩ })
     adcRdy c 31 = true ∧ c.adcs[(31 : Fin 32)].pending.length = 3 ∧ (∀ p ∈ c.adcs[(31 : Fin 32)].pending, p.at_ ≠ c.now) ∧
     c.bit (adcR 31 0xC) 17 = true ∧ lets c (adcR 31 0x10) true ∧ Word.bit 0x100 8 = true) ∧ adcRdy (W id) 31 = false ∧
    ((adc31 (fun a => { a with cur := some conv })).adcs[(31 : Fin 32)].cur = some conv ∧ conv.held = false ∧ (adc31 id).ecc.bad = [] ∧
      conv.left = 2 ^ min (conv.seq.fld 20 3) 4) ∧
    (let a := (adc31 (fun a => { a with done := some conv, q := List.replicate 63 0 })).adcs[(31 : Fin 32)]
     a.done = some conv ∧ a.q.length = 63 ∧ a.lost = false) ∧
    (lets (W id) (adcR 31 0) true ∧ (W id).sealed = false ∧ adcEn (W id) 31 = false ∧ adcEn (adc31 id) 31 = true) ∧
    (let c := (adc31 id).setReg (adcR 31 0) 0; adcEn c 31 = false ∧ adcRdy c 31 = true ∧ c.adcs[(31 : Fin 32)].stores = []) ∧
    (let c := adc31 (fun a => { a with readyAt := some 0 })
     adcEn c 31 = true ∧ c.adcs[(31 : Fin 32)].readyAt = some c.now) ∧
    (let c := adc31 (fun a => { a with q := [5] })
     lets c (adcR 31 0x18) false ∧ adcQcon c 31 = 0 ∧ c.adcs[(31 : Fin 32)].q = 5 :: [] ∧ lets c (adcR 31 0x9C) false) ∧
    (W id).adcs[(31 : Fin 32)].q = [] := by decide +kernel

/-- Demodulator 31 with both paths on, changed by `f`. -/
def sdm31 (f : Sdm → Sdm) : Chip := W fun c => settled (updSdm 31 f ((c.setReg (sdmR 31 0) 0x39).setReg (sdmR 31 4) 0x20))

theorem witness_SdmResults :
    (let c := sdm31 (fun x => { x with n := 7, disc := 0, q := List.replicate 15 0, fcnt := 7 }); let x := c.sdms[(31 : Fin 32)]
     sdmEn c 31 = true ∧ sdmLost c 31 = false ∧ x.sync = false ∧ c.fld (sdmR 31 4) 8 8 = 0 ∧ sdmOsr c 31 ≤ x.n + 1 ∧ x.disc = 0 ∧
     x.q.length = 15 ∧ sdmFen c 31 = true ∧ 2 * sdmFosr c 31 ≤ x.fcnt + 1 ∧ x.lossClk = false ∧ x.lossStuck = false) ∧
    (let c := sdm31 (fun x => { x with stores := [(5, false)], q := List.replicate 15 0 })
     c.sdms[(31 : Fin 32)].stores = [(5, false)] ∧ c.sdms[(31 : Fin 32)].q.length < 16) ∧
    (let c := sdm31 id; sdmEn c 31 = true ∧ c.sdms[(31 : Fin 32)].fcnt + 1 < 2 * sdmFosr c 31) ∧
    (sdm31 (fun x => { x with sync := true })).sdms[(31 : Fin 32)].sync = true ∧
    (let c := settled ((sdm31 (fun x => { x with th1 := true })).setReg (sdmR 31 4) 0)
     sdmFen c 31 = false ∧ c.sdms[(31 : Fin 32)].th1 = true) ∧
    (sdm31 (fun x => { x with lossClk := true })).sdms[(31 : Fin 32)].lossClk = true ∧
    ((sdm31 id).setReg (sdmR 31 4) 0x60).bit (sdmR 31 4) 6 = true ∧ lets (sdm31 id) (sdmR 31 0x18) false ∧
    (sdm31 (fun x => { x with q := [5] })).sdms[(31 : Fin 32)].q = 5 :: [] ∧ (sdm31 id).sdms[(31 : Fin 32)].q = [] := by decide +kernel

/-- Window 95 on input 0 with the control word `v`; it settles or is settled. -/
def win95 (v st : Word) (f : Win → Win) : Chip := W fun c =>
  updWin 95 (fun x => f { x with settleFrom := some 0 }) ((c.setReg (winR 95 0) v).setReg (winR 95 0x10) st)

theorem witness_WindowResults : lets (W id) (winR 95 0) true ∧ (W id).sealed = false ∧
    (winEn (win95 1 1 (fun x => { x with restart := true })) 95 = true ∧
      (win95 1 1 (fun x => { x with restart := true })).wins[(95 : Fin 96)].restart = true) ∧
    (winEn (win95 0 1 (fun x => { x with on := true })) 95 = false ∧
      (win95 0 1 (fun x => { x with on := true })).wins[(95 : Fin 96)].on = true) ∧
    (winEn (win95 1 1 id) 95 = true ∧ (win95 1 1 id).wins[(95 : Fin 96)].settleFrom ≠ none) ∧
    (winSettledB (win95 1 5 id) 95 = true ∧ winState (win95 1 5 id) 95 ≠ stateOf false false) ∧
    lets (W id) (winR 95 4) true ∧ lets (W id) (winR 95 8) true ∧ lets (W id) (winR 95 0xC) true ∧ peakBound (W id) 95 = false := by
  decide +kernel

/-- A computation in flight at lane 11. -/
def flight (mode loop : Nat) (cfg : Word) (bad : Bool) : XlFlight :=
  { due := 5, ints := none, mode := mode, loop := loop, cfg := cfg, ra := 0, rb := 0,
    snap := { slots := Vector.replicate 16 0, vb := 0, theta := 0 }, thE := 0, bad := bad }
/-- Lane 11 with XL_CFG `v`, in FOC3. -/
def lane11 (v : Word) (fs : List XlFlight) : Chip := W fun c =>
  updXl 11 (fun x => { x with flight := fs, heldB := some ⟨3, none, 0⟩, irstAt := some 0 }) ((c.setReg (xlR 11 0) v).setReg (xlR 11 4) 2)

theorem witness_LaneResults : (lets (W id) (xlR 11 0) true ∧ (W id).sealed = false ∧ (W id).bit (xlR 11 0) 0 = false ∧ Word.bit 3 0 = true ∧
      (lane11 1 []).bit (xlR 11 0) 0 = true) ∧
    ((lane11 0 []).xls[(11 : Fin 12)].taps = [] ∧ xlMode (lane11 0 []) 11 ≠ 0 ∧ (lane11 0 []).bit (xlR 11 0) 0 = false ∧
      (lane11 0 []).xls[(11 : Fin 12)].irstAt = some (lane11 0 []).now) ∧
    (let c := { updXl 11 (fun x => { x with pairAt := some 9 }) (lane11 1 []) with now := 9 }; let x := c.xls[(11 : Fin 12)]
     x.taps = [] ∧ x.heldA = none ∧ x.heldB = some ⟨3, none, 0⟩ ∧ x.pairAt = some c.now ∧ 0 < c.now ∧ 0 + c.fld (xlR 11 0x18) 16 8 ≤ c.now) ∧
    (let c := updXl 11 (fun x => { x with taps := [(0, 0x50000), (1, 0x60000)] }) ((lane11 1 []).setReg (xlR 11 0x18) 0x605)
     c.xls[(11 : Fin 12)].taps.any (xlIsIn c 11 true) = true ∧ c.xls[(11 : Fin 12)].taps.any (xlIsIn c 11 false) = true ∧
     c.xls[(11 : Fin 12)].heldB ≠ none) ∧
    ((lane11 1 [flight 1 0 0 false]).xls[(11 : Fin 12)].flight = [flight 1 0 0 false] ∧ (flight 1 0 0 false).due = (lane11 1 []).now + 5 ∧
      (flight 1 0 0 false).bad = false ∧ (flight 1 0 0 true).bad = true) ∧
    ((flight 2 3 0 false).loop = (3 : Fin 4).val ∧ (flight 2 3 0 false).cfg.bit 20 = false) ∧
    (flight 3 1 0 false).loop = (1 : Fin 2).val ∧ lets (W id) (xlR 11 0xC) true := by decide +kernel

/-- Word 511 of the Pea belongs to loop engine 23, in domain 15 of kind 3, which it commits. -/
def pea511 (f : PeaWord → PeaWord) : Chip := W fun c =>
  let c := (c.setReg (peaAllocR 511) (BitVec.ofNat 32 (0x17 + 64 * 15 + 1024 * 11))).setReg (peaDomR 15) (BitVec.ofNat 32 (3 + 4096 * 0x17))
  settled { c with pea := aset PeaWord.reset c.pea 511 (f PeaWord.reset) }
/-- The same in frame cycle 2 with a read of the loop engine that was asked in the cycle before, and an error of either kind in V. -/
def asked : PeaReq := ⟨iniIx (.le 23), 23, 5, some 511, none, true, false⟩
def peaBad (b : Option Bool) : Chip :=
  let c := pea511 id
  let c := { c with now := 6, peaBus := { c.peaBus with reqs := [asked], doms := 0x8000 } }
  match b with
  | some e => { c with ecc := { c.ecc with bad := [((eccWord (peaVKey 511)).1, e)] } }
  | none => c
/-- Loop engine 23 is in core reset or not, and its stop is due or not; LE_CTL is `v`. -/
def le23 (v : Word) (r : Bool) (d : Option Bool) : Chip := W fun c =>
  updCore (.le 23) (fun x => { x with inReset := r, stopDue := d }) (c.setReg (leR 23 0) v)

theorem witness_PeaResults : (lets (W id) (leR 23 0) true ∧ (le23 1 false none).bit (leR 23 0) 0 = true) ∧
    ((coreGet (le23 1 true none) (.le 23)).stopDue = none ∧ (coreGet (le23 1 true none) (.le 23)).inReset = true) ∧
    ((coreGet (le23 0 false (some false)) (.le 23)).stopDue ≠ none ∧ (le23 0 false (some false)).bit (leR 23 0) 0 = false) ∧
    ((511 : Fin 512).val / 64 = (23 : Fin 24).val / 3 ∧ (63 : Fin 512).val / 64 ≠ (23 : Fin 24).val / 3) ∧
    (lets (W id) (0x21000000 + 4 * 511) false ∧ lets (W id) (0x21000000 + 4 * 511) true ∧ (∀ m : Fin 24, Initiator.mge ≠ .le m) ∧
      (peaFetch (iniIx .mge) 511 (W id)).isNone = true) ∧
    ((peaBad none).capTime.toNat % 4 = (23 : Fin 24).val % 3 ∧ (peaBad none).peaBus.reqs = [asked] ∧ asked.code = (23 : Fin 24).val ∧
      asked.asked < (peaBad none).now) ∧
    (eccErr (peaBad none) (peaVKey 511) = none ∧ eccErr (peaBad (some true)) (peaVKey 511) = some true) ∧
    (peaOwner (pea511 id) 511 = 23 ∧ 23 < 0x28 ∧ peaOwner (W id) 511 = 0x3F ∧ (W id).sealed = false) ∧
    (let c := peaBad none
     lets c peaCmtR true ∧ verdict c (.le 23) peaCmtR true = .ok ∧ Word.bit 0x8000 15 = true ∧ domKind c 15 = 3 ∧
     domCmtr (settled (c.setReg (peaDomR 15) 0x24003)) 15 = peaCodeOf c .triton ∧ peaCodeOf c .triton < 0x28 ∧
     verdict c .triton peaCmtR true = .ok ∧ domCmtr c 15 ≠ peaCodeOf c .mge) ∧
    (let c := { peaBad none with pea := (pea511 (fun x => { x with pend := true, sh := 5 })).pea }
     c.peaBus.doms.getLsbD 15 = true ∧ peaDom c 511 = 15 ∧ (peaGet c 511).pend = true ∧ awf (fun _ => PeaWord.reset) c.pea = true ∧
     c.ecc.bad = []) := by decide +kernel

/-- Word 511 with the owners LE[23] and XL[11] of slice 11, LE[20] outside its home bank, and owners of another slice; after SEAL
in a live reconfiguration of slice 11. -/
theorem witness_AllocationRule : lets (W id) (peaAllocR 511) true ∧ (W id).sealed = false ∧ (511 : Nat) / 64 = 23 / 3 ∧ (511 : Nat) / 64 ≠ 20 / 3 ∧
    Word.fld (BitVec.ofNat 32 (23 + 1024 * 11)) 0 6 = 23 ∧ Word.fld (BitVec.ofNat 32 (23 + 1024 * 11)) 10 4 = 23 / 2 ∧
    Word.fld (BitVec.ofNat 32 (35 + 1024 * 11)) 10 4 = 35 - 24 ∧ Word.fld (BitVec.ofNat 32 (35 + 1024 * 10)) 10 4 ≠ 35 - 24 ∧
    (let c := settled (updSlice 11 (fun x => { x with live := true }) ((W id).setReg cmdStatR 8 |>.setReg (peaAllocR 511) 0x2C17))
     c.sealed = true ∧ lets c (peaAllocR 511) true ∧ liveOn c (peaPart c 511) = true ∧ Word.fld 0x2C3F 10 4 = peaPart c 511) := by decide +kernel


/-- Group 31 takes consumer channel 383, with the guard `l` where it has one; its gate is as `g` says; the device is CONFIGURED. -/
def matrix (g : Bool) (l : Option Nat) : Chip := W fun c =>
  let c := (((c.setReg (evmCgrpR 95) 0x1F000000).setReg (evmGcfgR 31) 1).setReg (evmGcfgR 0) 0).setReg cmdStatR 6
  settled { c with evm := { c.evm with gates := c.evm.gates.set 31 g, pipe := [⟨0, 383, 31, l⟩] } }

theorem witness_EventMatrix :
    (∀ g ∈ [true, false], let c := matrix g none
      (pulseDue c 383).grp = 31 ∧ gateOpen (gatesNow c) 31 = g ∧ (pulseDue c 383).guard = none ∧
      ∀ q ∈ c.evm.pipe, q.due = c.now → q.guard = none) ∧
    (let c := matrix true (some 0)
     (pulseDue c 383).guard = some 0 ∧ 0 < pulseCount c 383 + 1 ∧ (pulseDue c 383).grp < 32 ∧ gateOpen (gatesNow c) (pulseDue c 383).grp = true ∧
     ∀ q ∈ c.evm.pipe, q.due = c.now → q.ch = 383 ∧ q = pulseDue c 383) ∧
    (lets (matrix true none) (evmGcfgR 31) true ∧ (matrix true none).devState = 6) ∧ lets (W id) evmLgstatR true := by decide +kernel

/-- TRI_STAT holds `v`, and a reintegration is under way where `r` says. -/
def triton (v : Word) (r : Option Reint) : Chip := W fun c => { c.setReg (triR 4) v with tri := r }
/-- A lane that has put out `n` in class 5. -/
def puts (i : Fin 3) (n : Nat) : Fin 3 × Chip := (i, W fun c => { c with run := some ⟨i, [(5, [n])], []⟩ })

theorem witness_TritonVoter :
    (∀ i : Fin 3, ∀ n ∈ [1, 2, 3], metFatal (puts i n).2 = false ∧ outsOf (puts i n).2 5 = [[n]] ∧ outsOf (puts i n).2 4 = []) ∧
    (triMode (triton 0x70 none) = 0 ∧ (∀ l : Fin 3, triIn (triton 0x70 none) l.val = true) ∧ lanesSame (triton 0x70 none) = true) ∧
    (triMode (triton 0x51 none) = 1 ∧ triIn (triton 0x51 none) 2 = true) ∧
    (triMode (triton 0x33 (some ⟨2, 0, false, 0, [], none⟩)) = 3 ∧ triIn (triton 0x33 (some ⟨2, 0, false, 0, [], none⟩)) 1 = true) ∧
    (lets (triton 0x31 none) (triR 8) true ∧ Word.bit 6 2 = true ∧ Word.bit 6 3 = false ∧ triMode (triton 0x31 none) = 1 ∧
      triIn (triton 0x31 none) 2 = false ∧ (triton 0x31 none).tri = none ∧ Word.fld 6 0 2 = (2 : Fin 3).val) ∧ Word.fld 7 0 2 = 3 ∧
    (let c := triton 0x33 (some ⟨2, 0, true, 8192, [], none⟩)
     c.tri = some ⟨2, 0, true, 8192, [], none⟩ ∧ lanesSame c = true ∧ triIn c 2 = false ∧ Word.bit 8 3 = true ∧ Word.bit 8 2 = false) := by
  decide +kernel

theorem witness_TritonVoter_reintegration :
    (let c := W fun c => { c with vote := { c.vote with runs := [((2, 287), 7, 0)], flips := [(2, 287)] } }
     lostRun c 2 287 + 0 < max (c.fld (triR 0) 0 8) 1 ∧ max (c.fld (triR 0) 0 8) 1 ≤ lostRun c 2 287 + 1 ∧
     ∀ l k : Fin 3, (l, 287) ∈ c.vote.flips → (k, 287) ∈ c.vote.flips → l = k) ∧
    (let c := { triton 0x31 none with cmd := { (W id).cmd with long := some { pkt := [0x50], start := 0, due := 0, out := none, todo := none, got := [] } } }
     reintegrates c = true ∧ reintegrates (triton 0x31 none) = false) ∧
    (let c := triton 0x33 (some ⟨2, 0, false, 8191, [(0x1FFFC, 4, 5)], none⟩)
     c.tri = some ⟨2, 0, false, 8191, [(0x1FFFC, 4, 5)], none⟩ ∧ 0x1FFFC + 4 ≤ 0x20000 ∧ c.ecc.bad = []) ∧
    (let d := 500 * max ((triton 0x33 none).fld (triR 0xC) 0 16) 1; 0 + d ≤ ({ triton 0x33 none with now := d } : Chip).now ∧
      (triton 0x33 none).now < 0 + d) ∧
    (let p (d : Option Nat) (f : Option Nat) : TriPause := ⟨100, d, f, []⟩
     let c (t : Nat) (x : TriPause) : Chip := { triton 0x33 (some ⟨2, 0, true, 8192, [], some x⟩) with now := t }
     (3700 < 2 * ((c 1951 (p none none)).now - 100) ∧ 2 * ((c 1950 (p none none)).now - 100) ≤ 3700) ∧
     (200 + 6 ≤ (c 206 (p (some 200) (some 3))).now ∧ 200 + 134 ≤ (c 334 (p (some 200) none)).now) ∧
     lanesSame (c 334 (p (some 200) none)) = true ∧ syncLane (c 334 (p (some 200) none)) = none ∧ triIn (c 334 (p (some 200) none)) 2 = false ∧
     (laneState (c 334 (p (some 200) none)) 2).tcm = (laneOf (c 334 (p (some 200) none))).tcm ∧ laneBad (c 334 (p (some 200) none)) 2 = []) := by
  refine ⟨?_, ?_, ?_, ?_, ?_⟩ <;> decide +kernel

/-- The word at 8 of memory 0 and the last word of memory 19 are in error; their scrubbing has come to them. -/
def ecc (e : Bool) : Chip := W fun c =>
  { c with ecc := { c.ecc with bad := [(0x10000008, e), (0x22007FF8, e)], scrub := [(0, 8), (19, 0x1FF8)], log := [⟨1, 2⟩] } }

theorem witness_MemoryAndFabric : (memOf 0 = some (0x10000000, 0x200000, 8) ∧ 1 * 8 < 0x200000 ∧ eccErr (ecc false) 0x10000008 = some false) ∧
    (memOf 19 = some (0x22006000, 0x2000, 4) ∧ (0x7FE : Nat) * 4 < 0x2000 ∧ eccErr (ecc false) (0x22006000 + 0x7FE * 4) = some false) ∧
    ((ecc true).bit (memR 0x40) 0 = true ∧ (ecc true).run = none ∧ aread 0 (ecc true).ecc.scrub 0 + 8 < 0x200000 ∧
      aread 0 (ecc true).ecc.scrub 19 + 4 < 0x2000 ∧
      eccErr (ecc true) (0x10000000 + 8) = some true ∧ eccErr (W id) (0x10000000 + 0) = none) ∧
    lets (ecc true) (memR 0x58) false ∧ (ecc true).ecc.log = ⟨1, 2⟩ :: [] ∧ (W id).ecc.log = [] ∧
    ((0xFFF : BitVec 12).getLsbD 0 = true ∧ (0xFFE : BitVec 12).getLsbD 0 = false ∧ (0xFFE : BitVec 12) ≠ 0) := by decide +kernel

/-- Channel 31 of DMA[1] with its configuration, status and `f` for the rest; a descriptor of two words of 64 bytes at 0x10004000. -/
def dma31 (cfg st : Word) (f : DmaCh → DmaCh) : Chip := W fun c =>
  let c := ((c.setReg (dmaC 1 31 0) cfg).setReg (cstatR 1 31) st).setReg (dmaC 1 31 0x14) 0x10004000
  let put (o v : Nat) (c : Chip) : Chip := memPut (0x10004000 + o) 4 v c
  updCh 1 31 f (put 0 0x10010000 (put 4 0x10020000 (put 8 64 (put 24 0x10004021 c))))
def desc : DmaDesc := ⟨0x10004000, 0x10010000, 0x10020000, 64, 1, 0, 0, 0⟩

theorem witness_DmaChannels :
    (lets (W id) (dmaC 1 31 0) true ∧ (W id).sealed = false ∧ (W id).bit (dmaC 1 31 0) 0 = false ∧
      dmaQuotas ((W id).setReg (dmaC 1 31 0) 0x7F81) 1 ≤ 256 ∧
      256 < dmaQuotas (((dma31 1 0 id).setReg (dmaC 1 30 0) 0x7F81).setReg (dmaC 1 31 0) 0x7F81) 1) ∧
    ((dma31 1 0 id).bit (dmaC 1 31 0) 0 = true ∧ lets (W id) (dmaC 1 31 4) true ∧ (∀ st ∈ [0, 1, 2, 3, 4, 5, 6],
      dmaState (dma31 1 (BitVec.ofNat 32 st) id) 1 31 = st ∧ (dmaCh (dma31 1 (BitVec.ofNat 32 st) id) 1 31).abort = none)) ∧
    (dmaCh (dma31 1 2 (fun x => { x with abort := some true })) 1 31).abort = some true ∧ lets (W id) (dmaC 1 31 8) true ∧
    (dmaCh (dma31 1 4 id) 1 31).ending = false ∧ (dmaCh (dma31 1 4 (fun x => { x with ending := true })) 1 31).ending = true ∧
    (dmaCh (dma31 1 5 id) 1 31).link = false ∧ (dmaCh (dma31 1 5 (fun x => { x with link := true })) 1 31).link = true ∧
    ((dma31 1 0xE4 id).fld (cstatR 1 31) 4 4 = 14 ∧ (dma31 1 0xF4 id).fld (cstatR 1 31) 4 4 = 15) ∧
    (let f : DmaFly := ⟨0, 0x10004000, 1, true, 1, some (true, false)⟩
     let c := dma31 1 4 (fun x => { x with fly := [f], ending := true }); let x := dmaCh c 1 31
     x.fly = [f] ∧ f.allRead = true ∧ f.rows ≤ f.rdone ∧ f.link = some (true, false) ∧ x.ending = true ∧ x.abort = none ∧ c.bit (dmaC 1 31 0) 23 = false ∧
     (dmaCh (dma31 1 4 id) 1 31).fly = []) ∧
    (let x := dmaCh (dma31 1 3 (fun x => { x with cur := some { desc with tmode := 2 } })) 1 31
     x.abort = none ∧ x.rowOn = false ∧ x.cur = some { desc with tmode := 2 } ∧ x.row < ({ desc with tmode := 2 } : DmaDesc).rows) := by
  decide +kernel

theorem witness_DmaEngines :
    (let c := dma31 1 2 id; let w (i : Nat) : Word := BitVec.ofNat 32 (memVal c (0x10004000 + 4 * i) 4)
     c.ecc.bad = [] ∧ (c.reg (dmaC 1 31 0x14)).toNat = 0x10004000 ∧ descOk 0x10004000 = true ∧ domainsUp c 0x10004000 = true ∧
     dmaState c 1 31 = 2 ∧ (dmaCh c 1 31).abort = none ∧
     (w 2).fld 0 25 ≠ 0 ∧ (w 2).fld 25 7 = 0 ∧ (w 3).fld 16 2 ≠ 3 ∧ (w 3).fld 18 14 = 0 ∧ misplaced desc = none ∧
     [w 0, w 1, w 2, w 3, w 4, w 5, w 6] = [0x10010000, 0x10020000, 64, 0, 0, 0, 0x10004021]) ∧
    memVal ((dma31 1 2 id).setReg (dmaC 1 31 0x14) 0x10004020) 0x10004028 4 = 0 ∧
    ((dmaCh (dma31 1 5 (fun x => { x with link := true })) 1 31).link = true ∧ Word.fld 0x10004021 3 2 = 0 ∧ Word.bit 0x10004021 0 = true ∧
      Word.bit 0x10004020 0 = false ∧ (dma31 1 13 id).bit (cstatR 1 31) 3 = true ∧ (dma31 1 5 id).bit (cstatR 1 31) 3 = false ∧
      (dmaCh (dma31 1 5 id) 1 31).fly = []) ∧
    (let c := dma31 0x81 4 (fun x => { x with cur := some desc, rowOn := true, pos := 63 })
     readBusy c 1 = false ∧
     (arbGrant 32 c.dmas[(1 : Fin 2)].rd (fun i => readReady c 1 (Fin.ofNat 32 i)) (dmaWt c 1)).map (·.1) = some 31 ∧
     (dmaCh c 1 31).cur = some desc ∧ (dmaCh c 1 31).pos < desc.len ∧ (rowAddr desc.src desc.sstride 0 + 63) % 2 ^ 32 = 0x1001003F) ∧
    (let c := dma31 1 4 (fun x => { x with slots := [⟨0, 255, 0x1002003F, [1, 2], true⟩] })
     (arbGrant 32 c.dmas[(1 : Fin 2)].wr (fun i => writeReady c 1 (Fin.ofNat 32 i)) (dmaWt c 1)).map (·.1) = some 31 ∧
     (dmaCh c 1 31).slots = ⟨0, 255, 0x1002003F, [1, 2], true⟩ :: [] ∧ min 2 (64 - 0x1002003F % 64) = 1 ∧ domainsUp c 0x1002003F = true) ∧
    (let c := dma31 1 4 (fun x => { x with fly := [⟨0, 0x10004000, 1, true, 1, some (true, false)⟩] })
     (dmaCh c 1 31).fly = ⟨0, 0x10004000, 1, true, 1, some (true, false)⟩ :: [] ∧ c.bit (dmaC 1 31 0) 23 = false ∧
     (dmaCh c 1 31).ending = false) := by decide +kernel

/-- Both ports with the control word `ctl`, the status word `st` and `f` for the rest; the device's address is 5. -/
def link (ctl st : Word) (f : LPort → LPort) : Chip := W fun c =>
  let c := c.setReg (llR 0) 0x105
  [Port.up, .dn].foldl (fun c p => updLink p f ((c.setReg (llP p 0) ctl).setReg (llP p 4) st)) { c with now := 1000 }
/-- The status word of a port in training phase `ph` at width `w`. -/
def inPhase (ph w : Nat) : Word := BitVec.ofNat 32 (1 + 8 * ph + 64 * w)

theorem witness_LinkTraining :
    (∀ ph ∈ [2, 3, 4, 5], let c := link 1 (inPhase ph 0) id; lstate c .up = 1 ∧ (lport c .up).silent = false ∧ lphase c .up = ph ∧
      bridged c .up = false) ∧
    (let c := { link 1 (inPhase 1 0) (fun x => { x with rx := { x.rx with lock := Vector.replicate 4 (some 0) } }) with now := 50000 }
     phaseMet c .up = true ∧ lphase c .up = 1) ∧
    (let pay : List Byte := 0x88 :: List.replicate 23 0
     pay.length = 24 ∧ ((pay.getD 0 0).toNat / 4) % 8 = 2 ∧ (3 : Fin 4).val < lanesOf (lwidth (link 1 (inPhase 2 0) id) .up) ∧
     ∀ l : Fin 4, (lport (link 1 (inPhase 2 0) id) .up).rx.lockBad[l].2 < 16 ∧ (lport (link 1 (inPhase 2 0) id) .up).rx.berBad[l].2 < 16) ∧
    (let c := link 1 (inPhase 5 0) (fun x => { x with peer := { x.peer with done := true, heard := true } }); phaseMet c .up = true ∧ lphase c .up = 5) ∧
    (lwidth (link 1 (inPhase 2 1) id) .up = 1 ∧ lwidth (link 1 (inPhase 2 2) id) .up = 2 ∧ fltPending (W id) (146 + portIx .dn) = false) ∧
    (lport (link 1 (inPhase 2 1) (fun x => { x with silent := true })) .up).silent = true ∧
    (lstate (link 0x101 3 id) .up = 3 ∧ (link 0x101 3 id).fld (llP .up 0) 8 8 ≠ 0) ∧ lstate (link 1 2 id) .dn = 2 ∧
    lets (W id) (llP .dn 0xC) true ∧ (lets (W id) (llP .dn 0) true ∧ (W id).sealed = false ∧ bridged (W id) .dn = false ∧
      portEn (link 0 0 id) .dn = false ∧ portEn (link 1 2 id) .dn = true) := by decide +kernel

/-- A frame of the plane `pl` with 8 bytes. -/
def frame (pl : Nat) : LFrame := ⟨9, 3, BitVec.ofNat 2 pl, 0, 1, List.replicate 8 7, false, none, 5, 0⟩

theorem witness_LinkFrames :
    (let c := ((link 1 2 id).setReg (peaAllocR 511) 0x26).setReg (llR 0x10) 0x10000000 |>.setReg (llR 0x14) 0x10FFFFE0
     lstate c .up = 2 ∧ c.ecc.bad = [] ∧ (∀ g : Fin 8, pdOn c (10 + g.val) = true) ∧ ownAddr c = 5 ∧
     c.cmd.queue.length = 0 ∧ (c.reg (llR 0x10)).toNat = 0x10000000 ∧ (c.reg (llR 0x14)).toNat + 32 = 0x11000000 ∧ lstate c .dn = 2 ∧
     c.link.up.queues[(1 : Fin 3)] = [] ∧ c.link.dn.queues[(1 : Fin 3)] = []) ∧
    (29 : BitVec 5).toNat < 30 ∧ ((link 1 2 id).setReg (llR 0) 0).bit (llR 0) 8 = false ∧
    (let x := lport (link 1 2 (fun x => { x with replay := x.replay.set 0 [(3, frame 1)] })) .up
     x.replay[(0 : Fin 2)] = [(3, frame 1)] ∧ x.resends = Vector.replicate 2 0) ∧
    (let c := (link 1 2 id).setReg (llR 0) 0x305; bootMode c = 1 ∧ ownAddr c = 5 ∧ bridgeHeld c 1 + 12 + 1000 ≤ 8192 ∧ c.bit (llR 0x30) 0 = false) := by decide +kernel

/-- Each plane of a port that is UP holds one frame that has credit. -/
def egress (pl : Nat) : Chip := link 1 2 (fun x => { x with
  queues := if h : pl < 3 then x.queues.set pl [frame pl] else x.queues, credits := Vector.replicate 3 1, waiting := Vector.replicate 2 (some 3) })

theorem witness_LinkTransmit :
    (∀ pl : Fin 3, let x := lport (egress pl) .up
      lstate (egress pl) .up = 2 ∧ bridged (egress pl) .up = false ∧ x.busy ≤ slotNow (egress pl) ∧ x.out = none ∧ (egress pl).ecc.bad = [] ∧
      x.queues[pl] = frame pl :: [] ∧ nextFrame x pl = some (frame pl, none) ∧ (frame pl).stomp = false ∧ x.status = false ∧
      dataUsed x (slotNow (egress pl)) < 32 ∧ x.guard = false ∧ (∀ q : Fin 3, q ≠ pl → nextFrame x q = none)) ∧
    (lport (link 1 2 (fun x => { x with status := true })) .up).status = true ∧
    (∀ q : Fin 3, (nextFrame (lport (link 1 2 id) .up) q).isSome = false) ∧
    (∀ n ∈ [7, 8], let x := lport (link 1 2 (fun x => { x with
        replay := x.replay.set 1 [(3, frame 2)], waiting := x.waiting.set 1 (some 3), resends := x.resends.set 1 n })) .up
     x.waiting[(1 : Fin 2)].isSome = true ∧ x.resend[(1 : Fin 2)] < x.replay[(1 : Fin 2)].length ∧ x.resends[(1 : Fin 2)] = n) ∧
    (let c := link 1 3 (fun x => { x with queues := x.queues.set 0 [frame 0] })
     lstate c .up ≠ 2 ∧ bridged c .up = false ∧ (lport c .up).queues[(0 : Fin 3)] = frame 0 :: []) ∧
    (let h : Word := BitVec.ofNat 32 (6 + 2 ^ 12 * 2 + 2 ^ 18 * 4)
     lets (link 1 2 id) (llR 0x1000) true ∧ txqUsed (link 1 2 id) < 2048 ∧ (link 1 2 id).link.txqWait = [] ∧ (link 1 2 id).link.txq = [] ∧
     h.fld 18 11 = 4 ∧ h.fld 12 2 = 2 ∧ h.fld 14 4 = 0 ∧ routeOwn 5 (h.fld 0 6) = some .dn ∧ routeOwn 5 5 = none) ∧
    (lets (link 1 0 id) (llR 0x24) true ∧ lstate (link 1 0 id) .dn ≠ 2 ∧ Word.bit 2 (portIx .dn) = true) := by decide +kernel

/-! ### Commands of the host -/

/-- A session whose keys are all 0, before its first command. -/
def session : Session := ⟨List.replicate 32 0, List.replicate 32 0, List.replicate 32 0, 0, 0, none⟩
/-- A header with TAG 7, and SEQ 1 where it carries AUTH. -/
def head (o fl : Nat) : List Byte := [BitVec.ofNat 8 o, BitVec.ofNat 8 fl, 7, 0] ++ leBytes 4 fl
/-- A packet of the command `o`: opcodes 1 to 4 carry no tag, the others that of the session. -/
def packet (o : Nat) (ps : List Byte) : List Byte :=
  if o ≤ 4 then head o 0 ++ ps else head o 1 ++ ps ++ packetTag session.kc (fldAt (head o 1) 4 4) false (head o 1) ps
/-- The device in state `st` with both sessions and an image of 32 bytes at the end of system SRAM, changed by `f`. -/
def host (st : Nat) (f : Chip → Chip) : State :=
  let own (m : Cmd) : Cmd := { m with session := some session, pend := some session, base := 0x10FFFFE0, length := 32 }
  { State.reset with chip := W (fun c => f (updCmd own (c.setReg cmdStatR (BitVec.ofNat 32 st)))) }

/-- What an admitted command asks of the state and its parameters. -/
def admits (e : State × Nat × List Byte) : Bool :=
  let m := e.1.chip.cmd
  e.1.chip.power.mode == .run && decide (2 ≤ e.1.chip.devState) && m.long.isNone && m.held.isNone && m.session == some session && m.pend == some session &&
    decide (e.2.2.length ≤ 976) && decide (1 ≤ e.2.1) && decide (e.2.1 < 256)
/-- The entry's command is admitted. -/
abbrev Takes (e : State × Nat × List Byte) : Prop := Admitted e.1 e.2.1 (packet e.2.1 e.2.2) e.2.2

theorem takes_of (e : State × Nat × List Byte) (h : admits e = true) : Takes e := by
  obtain ⟨s, o, ps⟩ := e
  simp only [admits, Bool.and_eq_true, decide_eq_true_eq, beq_iff_eq, Option.isNone_iff_eq_none] at h
  obtain ⟨⟨⟨⟨⟨⟨⟨⟨h1, h2⟩, h3⟩, h9⟩, h4⟩, h5⟩, h6⟩, h7⟩, h8⟩ := h
  have hsess : s.chip.cmd.session.bind (·.factory) = none := by rw [h4]; rfl
  rw [Takes, packet]
  simp only
  by_cases ho : o ≤ 4
  · rw [if_pos ho]
    have h : ∀ o : Fin 5, 1 ≤ o.val → (head o.val 0).length = 8 ∧ fldAt (head o.val 0) 0 1 = o.val ∧ fldAt (head o.val 0) 1 1 = 0 := by
      decide +kernel
    obtain ⟨hh, e0, e1⟩ := h ⟨o, by omega⟩ h7
    simp only at hh e0 e1
    have hf (i n : Nat) (hi : i + n ≤ 8) : fldAt (head o 0 ++ ps) i n = fldAt (head o 0) i n := by
      rw [fldAt, fldAt, List.drop_append_of_le_length (by omega), List.take_append_of_le_length (by rw [List.length_drop]; omega)]
    have ef : pkFlags (head o 0 ++ ps) = 0 := by rw [pkFlags, hf _ _ (by omega), e1]
    have eo : pkOpc (head o 0 ++ ps) = o := by rw [pkOpc, hf _ _ (by omega), e0]
    refine ⟨h1, h2, ?_, eo, .inl ef, ⟨.no, ?_, rfl, ?_⟩, .inl hsess, fun _ => h3, h9⟩
    · rw [List.length_append, hh]; omega
    · rw [cmdAuth, eo, pkAuth, ef, if_pos ho]; rfl
    · rw [authSession, pkParams, pkRaw, pkAuth, ef, List.drop_left' hh]; rfl
  · rw [if_neg ho]
    have h : ∀ o : BitVec 8, (head o.toNat 1).length = 8 ∧ fldAt (head o.toNat 1) 0 1 = o.toNat ∧ fldAt (head o.toNat 1) 1 1 = 1 ∧
        fldAt (head o.toNat 1) 4 4 = 1 := by decide +kernel
    obtain ⟨hh, e0, e1, e4⟩ := h (BitVec.ofNat 8 o)
    rw [BitVec.toNat_ofNat, Nat.mod_eq_of_lt h8] at hh e0 e1 e4
    obtain ⟨v1, v2, v3, v4, v5, v6⟩ := tagged_verifies session (head o 1) ps (by decide) hh e1
    rw [e0] at v4
    rw [e4] at v5
    have ha : authSession s.chip (if o = 5 then .pend else .force) = some session := by
      split
      · exact h5
      · exact h4
    refine ⟨h1, h2, by omega, v4, .inr (.inl v3), ⟨if o = 5 then .pend else .force, ?_, ?_, ?_⟩, .inl hsess, fun _ => h3, h9⟩
    · simp only [cmdAuth, v4, if_neg ho, pkAuth, v3, ha, v1]; rfl
    · split
      · rename_i h; rw [if_pos h] at ha; simp only [cmdSeqOk, ha]; rfl
      · rename_i h; rw [if_neg h] at ha; simp only [cmdSeqOk, ha]; rfl
    · rw [ha]; exact v2

/-- Every entry of a list is admitted. -/
theorem takes_all (l : List (State × Nat × List Byte)) (h : ∀ e ∈ l, admits e = true) : ∀ e ∈ l, Takes e :=
  fun e he => takes_of e (h e he)

/-- Slice 11 in state `st`. -/
def slice11 (st : Nat) (f : Chip → Chip) : State := host 8 (fun c => f (setSliceState 11 st c))

def replies : List (State × Nat × List Byte) :=
  [(host 2 id, 1, List.replicate 972 5), (host 2 id, 2, []), (host 9 id, 3, []), (host 3 id, 0x20, leBytes 4 0x43000010),
   (host 3 id, 0x20, leBytes 4 0x43000011), (host 3 id, 0x22, leBytes 4 0x10FFFC34 ++ [243, 0]), (host 3 id, 0x30, []), (host 3 id, 0x31, [60]),
   (host 3 id, 0x32, [255, 0]), (host 3 id, 0x61, [1, 2, 3, 4]), (host 3 id, 0x7F, [0, 0]), (slice11 5 id, 0x7F, [2, 11]),
   (host 6 id, 0x21, leBytes 4 0x43000018 ++ [1, 2, 3, 4])]
theorem witness_CommandReplies : (∀ e ∈ replies, Takes e) ∧ (host 3 id).chip.devState = 3 ∧ (host 6 id).chip.devState = 6 ∧
    (readWaits (host 3 id).chip .mge 0x43000010 = false ∧ (mgeRead 0x43000010 (host 3 id).chip).got.isSome = true ∧
      readWaits (host 3 id).chip .mge 0x43000011 = false ∧ (mgeRead 0x43000011 (host 3 id).chip).got = none) ∧
    fldAt (leBytes 4 0x10FFFC34 ++ [243, 0]) 4 2 = 243 ∧ (readWords [0x10FFFC34] [] (host 3 id).chip).1.map (·.1) = some [] ∧
    (readWords [0x10FFFC35] [] (host 3 id).chip).1 = none ∧ readWaits (host 3 id).chip .mge 0x21000000 = true ∧
    (readWords [0x10FFFFFC, 0x21000000] [] (host 3 id).chip).1.map (·.1) = some [0x21000000] ∧
    fldAt [255, 0] 0 2 = 255 ∧ (host 3 id).chip.flt.live = [] ∧ (fldAt [2, 11] 1 1 = 11 ∧ sliceState (slice11 5 id).chip 11 = 5) ∧
    (mgeWrite 0x43000018 0x04030201 (host 6 id).chip).resp.ok = true ∧ (mgeWrite 0x43000019 5 (host 6 id).chip).resp.ok = false :=
  ⟨takes_all _ (by decide +kernel), by decide +kernel⟩

/-- The long operation `o` with its parameters. -/
def longOp (o : Nat) (ps : List Byte) : LongCmd := ⟨BitVec.ofNat 8 o :: List.replicate 7 0 ++ ps, 3, 3, none, none, []⟩
/-- The device in state `st` with that operation under way. -/
def busy (st o : Nat) (ps : List Byte) (f : Chip → Chip) : State :=
  host st (fun c => f (updCmd (fun m => { m with long := some (longOp o ps) }) c))
/-- A container of 272 bytes at 0x10FFF000 with one segment of type 6, which has no content (17 R399, R400). -/
def image (c : Chip) : Chip :=
  memPut 0x10FFF000 4 0x4B444553 (memPut 0x10FFF004 2 1 (memPut 0x10FFF008 4 272 (memPut 0x10FFF00C 4 1 (memPut 0x10FFF040 1 6
    (updCmd (fun m => { m with base := 0x10FFF000, length := 272, reload := m.reload.set 11 (0x10FFF000, 272) }) c)))))

/-- The device in state `st` after the first START. -/
def armed (st : Nat) : State := host st (updCmd (fun m => { m with hbArmed := true, further := true }))

def lives : List (State × Nat × List Byte) :=
  [(host 2 id, 4, List.replicate 192 5), (host 2 id, 5, []), (host 3 id, 0x10, leBytes 4 0x10FFFFE0 ++ leBytes 4 32),
   (host 5 id, 0x10, leBytes 4 0x10000000 ++ leBytes 4 0x1000000), (host 4 id, 0x11, leBytes 4 31 ++ [9]), (host 4 id, 0x12, []), (host 5 id, 0x13, []), (host 6 id, 0x13, []),
   (host 6 id, 0x14, []), (host 7 id, 0x15, []), (host 9 id, 0x15, []), (armed 9, 0x15, []), (host 7 id, 0x16, []), (host 3 id, 0x60, List.replicate 512 0)]
theorem witness_CommandLifecycle : (∀ e ∈ lives, Takes e) ∧
    ((busy 2 4 (List.replicate 192 5) id).chip.power.mode = .run ∧ longIs (busy 2 4 (List.replicate 192 5) id).chip 4 = some (longOp 4 (List.replicate 192 5))) ∧
    (host 2 id).chip.cmd.pend = some session ∧
    (let c := (host 4 id).chip
     c.devState = 4 ∧ fldAt (leBytes 4 31 ++ [9]) 0 4 + 1 = c.cmd.length ∧ c.ecc.bad = [] ∧ c.cmd.base + c.cmd.length = 0x11000000 ∧
     (∀ g : Fin 8, pdOn c (10 + g.val) = true)) ∧
    (longIs (busy 4 0x12 [] id).chip 0x12 = some (longOp 0x12 []) ∧
      (verifyCont none 0x10FFFFE0 32 (busy 4 0x12 [] id).chip).1.map (·.1) = some 1) ∧
    (let c := (busy 6 0x13 [] image).chip
     longIs c 0x13 = some (longOp 0x13 []) ∧ (longOp 0x13 []).todo = none ∧ ((stageGet 0x10FFF000 272 c).1.bind contSegs).isSome = true ∧
     (longTasks (longOp 0x13 []) [] c).2.cmd.long.map (·.pkt) = some (longOp 0x13 []).pkt) ∧
    (let l := { longOp 0x13 [] with todo := some [] }
     let c := updCmd (fun m => { m with long := some l }) (host 6 id).chip
     longIs c 0x13 = some l ∧ l.todo.isSome = true ∧ (longTasks l [] c).2.cmd.long.map (·.pkt) = some l.pkt) ∧
    ((sealFuses (host 6 id).chip).1 = true ∧ lanesSame (host 6 id).chip = true ∧ syncLane (host 6 id).chip = none) ∧
    ((host 9 id).chip.cmd.hbArmed = false ∧ (armed 9).chip.cmd.hbArmed = true ∧ (armed 9).chip.cmd.further = true ∧ devfltLive (armed 9).chip = false) ∧
    (devfltLive (host 7 id).chip = false ∧ devfltLive (host 9 id).chip = false) ∧
    tokenCode (host 3 id).chip.fuses (List.replicate 512 0) ≠ 0 ∧
    (let c := (host 8 (fun c => updCmd (fun m => { m with hbArmed := true }) (c.setReg (cmdR 0xC) 1))).chip
     c.cmd.hbArmed = true ∧ c.fld (cmdR 0xC) 0 16 ≠ 0 ∧ hbCount c < c.fld (cmdR 0xC) 0 16 ∧
     c.fld (cmdR 0xC) 0 16 ≤ hbCount { c with now := 500000 }) := ⟨takes_all _ (by decide +kernel), by decide +kernel⟩

/-- Slice 11 in state `st` while a long operation of it is under way. -/
def busy11 (st o : Nat) (f : Chip → Chip) : State :=
  busy 8 o (11 :: leBytes 4 0x10FFFFE0 ++ leBytes 4 32) (fun c => f (setSliceState 11 st c))
/-- DMR with lane 2 out. -/
def dmr : State := host 9 (fun c => c.setReg (triR 4) 0x31)
/-- Every channel of slice 11 drains with patterns. -/
def draining : Chip → Chip :=
  fun c => updSlice 11 (fun x => { x with pattern := List.replicate 16 none }) (updPwm 95 (fun p => { p with draining := true }) c)
/-- Its last segment as stored; the register that the segment gives differs from it. -/
def differs (c : Chip) : Chip := memPut 0x10FFF008 4 280 (memPut 0x10FFF040 1 3 (memPut 0x10FFF042 2 5 (memPut 0x10FFF044 4 8 (memPut 0x10FFF050 4 (pwmR 95 0x30) (memPut 0x10FFF054 4 5
  (updCmd (fun m => { m with reload := m.reload.set 11 (0x10FFF000, 280) }) (image c)))))))

def slices : List (State × Nat × List Byte) :=
  [(slice11 1 id, 0x40, [11, 0, 0, 0, 0, 0]), (slice11 1 id, 0x40, [11, 1, 0, 0, 0, 0]), (slice11 0 id, 0x41, 11 :: leBytes 4 0x10FFFFE0 ++ leBytes 4 32),
   (slice11 4 id, 0x41, 11 :: leBytes 4 0x10000000 ++ leBytes 4 32), (slice11 3 id, 0x42, [11]), (slice11 2 id, 0x43, [11]), (slice11 4 id, 0x43, [11]),
   (slice11 0 id, 0x44, [11]), (slice11 5 id, 0x45, [11, 0]), (dmr, 0x50, [2])]
theorem witness_SliceCommands : (∀ e ∈ slices, Takes e) ∧ (∀ st ∈ List.range 6, sliceState (slice11 st id).chip 11 = st) ∧
    sliceState (slice11 5 id).chip 0 = 0 ∧ (slice11 1 draining).chip.pwms[(95 : Fin 96)].draining = true ∧
    (let c := { (slice11 1 draining).chip with now := 500000 }
     let d := c.slices[(Fin.ofNat 12 ((95 : Fin 96).val / 8))].drainAt
     d < c.now ∧ c.bit (pwmR 95 0) 0 = false ∧ d + 500000 ≤ c.now) ∧
    (let s := busy11 2 0x40 id
     s.chip.power.mode = .run ∧ (longIs s.chip 0x40).map (fun l => fldAt (longParams l) 0 1) = some 11 ∧
     (∀ i : Fin 8, s.chip.pwms[(⟨8 * 11 + i.val, by omega⟩ : Fin 96)].draining = false) ∧ s.chip.slices[(11 : Fin 12)].drainLast ≤ s.chip.now) ∧
    ((longIs (busy11 3 0x41 id).chip 0x41).map (·.todo) = some none ∧
      (verifyCont (some 11) 0x10FFFFE0 32 (busy11 3 0x41 id).chip).1.map (·.1) = some 1) ∧
    ((longIs (busy11 3 0x42 id).chip 0x42).map (·.todo) = some none ∧
      (let l := { longOp 0x42 [11] with todo := some [], due := 5 }; l.todo.isSome = true ∧ (busy11 3 0x42 id).chip.now < l.due ∧
        l.due ≤ ({ (busy11 3 0x42 id).chip with now := 5 } : Chip).now)) ∧
    (let c := (busy11 3 0x42 image).chip
     let r := stageGet c.cmd.reload[(11 : Fin 12)].1 c.cmd.reload[(11 : Fin 12)].2 c
     (longIs c 0x42).map (·.out) = some none ∧ c.cmd.heldLe = [] ∧
     (r.1.bind contSegs).map (fun segs => ((sliceReads segs r.2).1, sliceDiffs segs (sliceReads segs r.2).2)) = some (true, [])) ∧
    (let l := { longOp 0x42 [11] with out := some (0, []), todo := some [], due := 0 }
     let c := updCmd (fun m => { m with long := some l }) (busy11 3 0x42 id).chip
     longIs c 0x42 = some l ∧ l.out.isSome = true ∧ l.todo.isSome = true ∧ l.due ≤ c.now ∧ c.cmd.startedLe = [] ∧ l.start + 500 * c.fld (cmdR 0x14) 16 16 > c.now ∧
     l.start + 500 * c.fld (cmdR 0x14) 16 16 ≤ ({ c with now := 10 ^ 8 } : Chip).now ∧ c.bit (lockR (.le 23)) 0 = false) ∧
    (let c := (busy11 3 0x42 differs).chip
     let r := stageGet c.cmd.reload[(11 : Fin 12)].1 c.cmd.reload[(11 : Fin 12)].2 c
     (r.1.bind contSegs).map (fun segs => ((sliceReads segs r.2).1, (sliceDiffs segs (sliceReads segs r.2).2).length)) = some (true, 1)) ∧
    reintOk dmr.chip 2 = true := ⟨takes_all _ (by decide +kernel), by decide +kernel⟩

/-! ### Security, pins, networks, power, resets, registers -/

/-- Every domain has power. -/
def powered (c : Chip) : Chip := (c.setReg (sysR 0x10) 0xFFFFFFFF).setReg (sysR 0x14) 0xFFFFFFFF

/-- The boot mode `m`; blank anchors; an image of the anchor `a` applied. -/
def secure (m a : Nat) : Chip := W fun c =>
  { updCmd (fun x => { x with applied := some (a, 3) }) (c.setReg (llR 0) (BitVec.ofNat 32 (0x105 + 512 * m))) with fuses := { c.fuses with anchor := Vector.replicate 2 0 } }
/-- Every bank has its supply. -/
def supplied (c : Chip) : Chip := (List.range 16).foldl (fun c b => c.setReg (gpioBank b 0x28) 3) c
/-- A factory session of the provisioning key `k`. -/
def factory (k : List Byte) (c : Chip) : Chip := updCmd (fun m => { m with session := some { session with factory := some k } }) c
/-- The level that the pad 1023 drives as an output. -/
def drives (l : Bool) : Chip := W fun c =>
  settled (((supplied c).setReg (gpioWord 8 1023) 0x80000000).setReg (gpioWord 0 1023) (if l then 0x80000000 else 0))
theorem witness_SecurityCommands :
    (lets (secure 3 0) (secR 0x70) true ∧ (secure 3 0).power.mode = .run ∧ (secure 3 0).sealed = false ∧ Word.bit 0x101 8 = true ∧ Word.bit 0x101 0 = true ∧
      bootMode (secure 3 0) = 3 ∧ (secure 3 0).fuses.anchor[(1 : Fin 2)] = 0 ∧ (secure 3 0).sec.fprog = none ∧ bootMode (secure 1 0) = 1) ∧
    (let c := factory [1] (secure 3 0); Word.bit 0x100 8 = true ∧ Word.bit 0x100 0 = false ∧ c.fuses.anchor[(0 : Fin 2)] = 0 ∧
      c.cmd.session.bind (·.factory) = some [1]) ∧ (secure 3 0).cmd.session.bind (·.factory) = none ∧
    (W fun c => { c with sec := { c.sec with fprog := some (1, 5) } }).sec.fprog = some (BitVec.ofNat 1 (1 : Fin 2).val, 5) ∧
    (lets (secure 3 0) (secR 0x14) true ∧ Word.bit 2 1 = true ∧ Word.bit 2 0 = false ∧ (secure 3 0).fuses.revoke.getLsbD 0 = false ∧
      (secure 3 0).cmd.applied.map (·.1) = some 0 ∧ (secure 3 1).cmd.applied.map (·.1) ≠ some 0) ∧
    (lets (W id) (secR 0x18) false ∧ ((W id).setReg (secR 0) 2).bit (secR 0) 1 = true) ∧
    (padLevel (drives true) 1023 = .hi ∧ padLevel (drives false) 1023 = .lo ∧ bankPg (drives true) 15 = true ∧
      (drives true).bit0 (gpioBank 15 0x28) 0 = true) ∧
    (∀ b ∈ [1, 2], ((W id).setReg (secR 0x1C) 6).bit (secR 0x1C) b = true ∧ (W id).bit (secR 0x1C) b = false) := by decide +kernel

/-- Pin 1023 has the configuration `v`, and capture channel 63 takes its pin. -/
def pin1023 (v : Word) (l : Bool) : State :=
  let pad : PinS := { PinS.reset with level := l }
  { State.reset with chip := W (fun c => settled (pinPut 1023 pad (((supplied c).setReg (gpioPinR 1023) v).setReg (capR 63 0) 3))) }
def noSupply : Chip := W fun c => (supplied c).setReg (gpioBank 15 0x28) 2
/-- A power state with wake pin 63 on a rising edge. -/
def sleeps (m : PowerMode) (e : Bool) : Chip := W fun c => { c.setReg (gpioWakeR 63) 1 with power := { c.power with mode := m, entering := e } }
theorem witness_PinCommands :
    (let c := (pin1023 3 false).chip
     lets c (gpioPinR 1023) true ∧ c.sealed = false ∧ fselLegal 3 1023 = true ∧ fselLegal 0 1023 = true ∧ fselLegal 5 1023 = false ∧
     fselLegal 5 9 = true ∧ fselLegal 5 10 = false ∧ c.fld (gpioPinR 1023) 0 4 = 3 ∧ (pinGet c 1023).level = false ∧ bankPg c 15 = true) ∧
    (fselOf (pin1023 3 false).chip 1023 = 3 ∧ capSrc (pin1023 3 false).chip 63 = 1 ∧ (0, Ev.captureEdge 63 false) ∉ (pin1023 3 false).chip.agenda ∧ (pin1023 3 false).chip.now = 0 ∧
      capin (pin1023 3 false).chip 63 = false ∧
      (match exec (.pinLevelChange 1023 true) (pin1023 3 false) with
       | .next t => capin t.chip 63
       | _ => false) = true) ∧
    ((pin1023 0x18000 false).chip.fld (gpioPinR 1023) 15 3 = 3 ∧ (pin1023 0x8000 false).chip.fld (gpioPinR 1023) 15 3 = 1 ∧
      (pin1023 0x10000 true).chip.fld (gpioPinR 1023) 15 3 = 2 ∧ fselOf (pin1023 0 false).chip 1023 = 0) ∧
    (bankPg noSupply 15 = false ∧ noSupply.bit (gpioBank 15 0x28) 1 = true ∧ ∀ o : Fin 16, o ≠ 15 → bankPg noSupply o.val = true) ∧
    (∀ e ∈ [(PowerMode.standbyR, false), (.standbyO, true), (.standbyO, false)], let c := sleeps e.1 e.2
      inStandby c = true ∧ c.bit (sysR 0x1C) 8 = false ∧ wakeSees c 63 c.pins.wakes[(63 : Fin 64)].filt true = true ∧
      wakeSees c 63 c.pins.wakes[(63 : Fin 64)].filt false = false ∧ c.power.mode = e.1 ∧ c.power.entering = e.2) := by decide +kernel

/-- Generator 15 has the configuration `v`; the clock stands at 5 s, and NET_SETNS at its last value. -/
def gen15 (v : Word) : Chip := W fun c =>
  settled { ((powered c).setReg (tevR 15 0) v).setReg (netR 0x14) 0x3B9AC9FF with net := { c.net with secs := 5 } }
theorem witness_NetworkCommands :
    (lets (gen15 1) (netR 0x10) true ∧ netTime (W id) + (0 : Word).toInt * 2 ^ 24 = 0 ∧ netTime (gen15 1) + (0xFFFFFFFF : Word).toInt * 2 ^ 24 = 4999999999 * 2 ^ 24) ∧
    (lets (gen15 1) (netR 0x18) true ∧ (gen15 1).fld (netR 0x14) 0 30 = 10 ^ 9 - 1) ∧ lets (gen15 1) (netR 0) false ∧
    (lets (gen15 1) (tevR 15 0) true ∧ (gen15 1).sealed = false ∧ tevMode (gen15 1) 15 = 1 ∧ Word.fld 2 0 3 ≠ (gen15 1).fld (tevR 15 0) 0 3 ∧
      (gen15 1).net.tevs[(15 : Fin 16)].pulses = []) ∧
    (ethOn (gen15 (2 + 8 + 128 * 7)) = true ∧ tevMode (gen15 (2 + 8 + 128 * 7)) 15 = 2 ∧ tevUnit (gen15 (2 + 8 + 128 * 7)) 15 % 2 = 1 ∧
      tevSel (gen15 (2 + 8 + 128 * 7)) 15 % 8 = 7 ∧ tevMode (gen15 3) 15 = 3 ∧ tevMode (gen15 6) 15 = 6) ∧
    (pdOn (gen15 1) 50 = true ∧ tevMode (gen15 (4 + 8 * 7 + 128 * 127)) 15 = 4 ∧ tevUnit (gen15 (4 + 8 * 7 + 128 * 127)) 15 % 8 = 7 ∧
      tevSel (gen15 (4 + 8 * 7 + 128 * 127)) 15 = 127 ∧ tevMode (gen15 (5 + 8 * 15)) 15 = 5 ∧ tevUnit (gen15 (5 + 8 * 15)) 15 = 15) ∧
    (bootMode (secure 1 0) = 1 ∧ ((secure 1 0).setReg (llR 0x30) 1).fld (llR 0x30) 0 1 = 1) := by decide +kernel

/-- Domain 43 belongs to slice 11, which is in state `st`; the domains whose bits `m` has are off. -/
def domains (m : Word) (st : Nat) : Chip := W fun c =>
  let on : Word := 0xFFFFFF &&& ~~~ m
  setSliceState 11 st (((c.setReg (sysR 0xC) on).setReg (sysR 0x14) on))
/-- A power state with the wake sources enabled. -/
def standby (m : PowerMode) (e w : Bool) : Chip := W fun c =>
  { ((c.setReg (sysR 0x20) 1).setReg (llR 0x20) 7).setReg (winlpR 7 0) 0x801 with power := { c.power with mode := m, entering := e, wake := w } }
theorem witness_PowerCommands :
    (∀ st ∈ [0, 5], lets (domains 0 st) (sysR 0xC) true ∧ fixedDomain 43 = false ∧ pdctlBit (domains 0 st) 43 = true ∧
      sliceDomain 43 = some (11, true) ∧ (domains 0 st).fld (slR 11 0) 0 3 = st) ∧
    domainBusy (domains 0 0) 43 = false ∧
    domainBusy (updCmd (fun m => { m with held := some { auth := .force, pkt := [], addrs := [0x400B4000], got := [] } }) (domains 0 0)) 43 = true ∧
    (pdctlBit (domains 0 1) 43 = true ∧ (domains 0 1).fld (slR 11 0) 0 3 = 1) ∧
    (pdctlBit (domains 0x800 0) 43 = false ∧ pdOn ((domains 0x800 0).setReg (sysR 0xC) 0x800) 43 = false ∧
      pdctlBit ((domains 0x800 0).setReg (sysR 0xC) 0x800) 43 = true ∧ (domains 0x800 0).power.offDue = []) ∧
    (lets (host 8 id).chip (sysR 0) true ∧ Word.fld 1 0 2 = 1 ∧ Word.fld 2 0 2 = 2 ∧ (host 8 id).chip.devState = 8 ∧ (host 9 id).chip.devState ≠ 7 ∧
      (host 9 id).chip.devState ≠ 8 ∧ (host 9 id).chip.cmd.long = none) ∧
    (∀ m ∈ [PowerMode.standbyR, .standbyO], let c := standby m true true; inStandby c = true ∧ c.power.entering = true) ∧
    (∀ m ∈ [PowerMode.standbyR, .standbyO], let c := standby m false true
      c.power.mode = m ∧ c.power.entering = false ∧ c.power.wake = true) ∧
    (let c := standby .standbyR false false
     inStandby c = true ∧ c.bit (sysR 0x1C) 8 = false ∧ c.fld (sysR 0x20) 0 24 = 1 ∧ c.bit (llR 0x20) (portIx .dn) = true ∧
     c.bit (winlpR 7 0) 0 = true ∧ c.bit (winlpR 7 0) (9 + stateOf true true) = true) ∧
    (let c := W fun c => { c.setReg (llR 0x20) 7 with link := { c.link with woke := some .dn } }
     c.power.mode = .run ∧ c.link.woke = some (otherPort .up) ∧ c.bit (llR 0x20) 2 = true ∧ lstate c .up ≠ 2) := by decide +kernel

/-- Watchdog 7 belongs to the MGE with MIN 2 and TIMEOUT 100 µs, and has counted `n` cycles. -/
def watchdog (n : Nat) : Chip := W fun c =>
  { (c.setReg (wdgR 7 0) (1 + 2 * 5 + 64 * 100)).setReg (wdgR 7 4) 2 with power := { c.power with aon := n } }
theorem witness_ResetsAndFaults :
    (W id).sec.fprog = none ∧ (let c := W fun c => { c with agenda := [(0, .resetEnd)] }; c.power.mode = .run ∧ (c.now, .resetEnd) ∈ c.agenda) ∧
    ((W id).bit (sysR 0x100) 11 = false ∧ ((W id).setReg (sysR 0x100) 0x800).bit (sysR 0x100) 11 = true) ∧
    (176 ∉ (W id).flt.live ∧ signed 16 ((W id).fld (sysR 0x28) 0 16) = 560 ∧ signed 16 ((W id).fld (sysR 0x28) 16 16) = 600 ∧ (W id).flt.live = []) ∧
    (lets (W id) (sysR 0x1440) false ∧ (W fun c => { c with flt := { c.flt with log := [⟨1, 2, 3, 4⟩] } }).flt.log = ⟨1, 2, 3, 4⟩ :: []) ∧
    (lets (W id) (wdgR 7 0) true ∧ (W id).sealed = false ∧ wdgEn (W id) 7 = false) ∧
    (∀ n ∈ [1000, 49998], let c := watchdog n
      iniCode .mge = some (c.fld (wdgR 7 0) 1 5) ∧ wdgEn c 7 = true ∧ lets c (wdgR 7 8) true ∧ c.fld (wdgR 7 4) 0 16 ≤ wdgCount c 7 ∧
      (c.power.aon + 1 - c.power.wdgs[(7 : Fin 8)]) / 500 < wdgTimeout c 7) ∧
    wdgCount (watchdog 999) 7 < (watchdog 999).fld (wdgR 7 4) 0 16 ∧
    wdgTimeout (watchdog 49999) 7 ≤ ((watchdog 49999).power.aon + 1 - (watchdog 49999).power.wdgs[(7 : Fin 8)]) / 500 ∧
    (let c := settled ((W id).setReg (evmRowR 511 11) 0x80000000)
     (evmReg c (evmRowR 511 ((383 : Fin 384).val / 32))).bit ((383 : Fin 384).val % 32) = true ∧ 511 ∉ c.evm.pulsed ∧ c.evm.pipe = []) := by
  decide +kernel

theorem witness_RegisterAccess_writes :
    ((W id).power.mode = .run ∧ (W id).sealed = false ∧ (∀ a ∈ [sysR 0x18, sysR 0x28, memR 0x50, triR 0, llR 0x20, 0x4500800C, 0x4108000C, pwmR 95 0x30],
      lets (powered (W id)) a true) ∧ registerRange (sysR 0x18) = true ∧ sysR 0x18 % 4 = 0 ∧ schR 0x18 ≤ sysR 0x18) ∧
    (lets (W id) 0x10FFFFFC true ∧ (0x10FFFFFC : Word).toNat % 4 = 0 ∧ (W id).ecc.bad = []) ∧ (0x10FFFFFD : Word).toNat % 4 ≠ 0 ∧
    verdict (W id) (.app 1) (sysR 0x18) true = .refused ∧ verdict ((W id).setReg (sysR 0x10) 0) .mge (pwmR 88 0x30) true = .off ∧
    verdict (host 7 id).chip (.app 1) (pwmR 95 0x30) true = .violation := by decide +kernel

theorem witness_RegisterAccess_readClear :
    (∀ a ∈ [adcR 31 0x20, xlR 11 0x10, schP 7 0x10, schP 7 0x14, pwmR 95 0x50, pwmR 95 0x90, triR 0x18, memR 0x48, memR 0x4C, llP .dn 0x18,
      llP .dn 0x1C, llP .dn 0x20, llP .dn 0x24, llR 0x40, cmdR 0x18, tevR 15 0x1C, sysR 0x1454], lets (powered (W id)) a false ∧
      aget (W id).counted a = none) ∧
    (let c := W fun c => { c with counted := [(memR 0x48, 5, 1)] }; aget c.counted (memR 0x48) = some (5, 1)) := by decide +kernel

/-! ### The block as a whole -/

theorem witness_CommandsAnswer : (standby .standbyO false false).power.mode ≠ .run ∧ alwaysOn (.millisecondTick) = false := by decide +kernel
/-- The state after reset meets the invariant, and so does one in which lane 2 of Triton is noted apart. -/
theorem witness_StepKeepsCanonical : State.reset.canonical ∧
    ({ State.reset with chip := W fun c => { c with lanes := c.lanes.set 2 (some (laneOf c)) } } : State).canonical ∧
    ∃ t, step State.reset = .next t :=
  ⟨⟨by decide +kernel, by decide +kernel, by decide +kernel⟩, ⟨by decide +kernel, by decide +kernel, by decide +kernel⟩, _, rfl⟩

/-! ### Encodings

The words are written out from the tables of 11 R259 to R266 and the opcode tables of 12. -/

/-- Application core 0 and loop engine 0: condition `c`, length `n`. -/
def appH (c n : Nat) : Hdr := { core := .app 0, cond := BitVec.ofNat 4 c, len := n }
def leH (c n : Nat) : Hdr := { core := .le 0, cond := BitVec.ofNat 4 c, len := n }

theorem witness_NklRoundTrip : (Instr.addi (appH 9 4) 31 30 0xFFFFFC00).nkl32 2 true = true ∧
    (encodeNkl32 (.addi (appH 9 4) 31 30 0xFFFFFC00)).isSome = true := by decide +kernel
theorem witness_NksRoundTrip : (Instr.addi (leH 1 8) 4 4 0x12345678).nks = true ∧
    encodeNks (.addi (leH 1 8) 4 4 0x12345678) = some [0xC1, 0xD3, 0x10, 0x44, 0x78, 0x56, 0x34, 0x12] := by decide +kernel

/-- The example after 11 R262. -/
theorem test_decode_add : decodeNkl (.app 0) [0x9005, 0x31C0] = some (.add (appH 2 4) 5 6 7) := by decide +kernel
theorem test_decode_short_add : decodeNkl (.app 0) [0x0239] = some (.add (appH 0 2) 3 3 9) := by decide +kernel
theorem test_decode_load : decodeNkl (.app 0) [0x8384, 0x1003] = some (.ldw (appH 0 4) false 4 2 12) := by decide +kernel
theorem test_decode_compare : decodeNkl (.app 0) [0x8000, 0x2150] = some (.cmp (appH 0 4) 4 5) := by decide +kernel
theorem test_decode_callm : decodeNkl (.app 0) [0x8A66, 0x000F] = some (.callm (appH 1 4) 0x000F 6 0) := by decide +kernel
theorem test_decode_reserved : decodeNkl (.app 0) [0xFFFF, 0xFFFF] = none := by decide +kernel
/-- The example after 12 R294. -/
theorem test_decode_nks_load : decodeNks (.le 0) [0x54, 0x42, 0x0C] = some (none, .ldw (leH 0 3) false 4 2 12) := by decide +kernel
theorem test_decode_nks_pair : decodeNks (.le 0) [0xD2, 0x54, 0x21, 0x18] = some (none, .ldw (leH 0 4) true 2 1 0x18) := by decide +kernel
theorem test_decode_nks_compare : decodeNks (.le 0) [0x85, 0x45] = some (none, .cmp (leH 0 2) 4 5) := by decide +kernel
theorem test_decode_nks_callm : decodeNks (.le 0) [0xC1, 0x76, 0x0F, 0x20, 0x01] = some (none, .callm (leH 1 5) 0x000F 0 0x120) := by
  decide +kernel
theorem test_decode_nks_reserved : decodeNks (.le 0) [0x00] = none := by decide +kernel

/-! ### WellFormed: each check refuses an ill-formed term -/

/-- NK-S code has 1 to 11 bytes; NK-L code 2 or 4, and 2 with the conditions 0, 1, 2 and 15 only. -/
theorem test_wf_lengths : (Instr.nop (leH 0 0)).wf = false ∧ (Instr.nop (leH 0 12)).wf = false ∧ (Instr.nop (leH 0 11)).wf = true ∧
    (Instr.nop (appH 0 3)).wf = false ∧ (Instr.nop (appH 3 2)).wf = false ∧ (Instr.nop (appH 15 2)).wf = true := by decide +kernel
/-- The operands of one core kind. -/
theorem test_wf_forms : (Instr.mov (appH 0 4) true 2 4).wf = false ∧ (Instr.ldw (appH 0 4) true 2 4 0).wf = false ∧
    (Instr.stw (appH 0 4) true 2 4 0).wf = false ∧ (Instr.subi (leH 0 2) 2 1).wf = false ∧ (Instr.movfh (appH 0 4) 2 16).wf = false ∧
    (Instr.movth (leH 0 2) 16 2).wf = false ∧ (Instr.addsp (appH 0 4) 4).wf = false ∧ (Instr.callm (leH 0 5) 1 3 0).wf = false ∧
    (Instr.callm (appH 0 4) 1 3 4).wf = false ∧ (Instr.rep (appH 0 4) ⟨3, true⟩).wf = false ∧ (Instr.repu (leH 0 2) ⟨10, true⟩).wf = false ∧
    (Instr.rep (leH 0 2) ⟨0, true⟩).wf = false := by decide +kernel
/-- The bit that makes a register write the command of its row. -/
theorem test_wf_commands : ([.pbEnable .mge 7 0, .pbDisable .mge 7 1, .acq .mge 7 2, .resume .mge 7 0, .pwmEnable .mge 95 0, .pwmDisable .mge 95 1,
    .close .mge 95 0, .flush .mge 95 1, .tripclr .mge 11 0, .adcSwstart .mge 31 1, .adcEnable .mge 31 0, .adcDisable .mge 31 1,
    .winEnable .mge 95 0, .winRestart .mge 95 0, .winDisable .mge 95 1, .xlEnable .mge 11 0, .xlDisable .mge 11 1, .irst .mge 11 0,
    .reint .mge 8, .reintAbort .mge 4, .dmaReset .mge 1 31 2, .dmaAbort .mge 1 31 1, .retrain .mge .dn 0, .fuseProgram .mge 1,
    .enterStandbyR .mge 2, .enterStandbyO .mge 1] : List Instr).all (fun i => !i.wf) = true := by decide +kernel
/-- Immediates, parcels, registers and masks that an encoding cannot hold. -/
theorem test_wf_fields : (Instr.addi (appH 0 4) 1 2 0x400).nkl32 2 true = false ∧ (Instr.ldh (appH 0 4) 1 2 1).nkl32 2 true = false ∧
    (Instr.br (appH 0 4) 0x100000).nkl32 2 true = false ∧ (Instr.rep (appH 0 4) ⟨4, true⟩).nkl32 2 true = false ∧ (Instr.rdsr (appH 0 4) 1 32).nkl32 2 true = false ∧
    (Instr.add (leH 0 2) 1 2 16).nks = false ∧ (Instr.callm (leH 0 5) 0x100 0 0).nks = false := by decide +kernel

end Sys2Proof.Machine.Test
end

/-! PROOFS. Register accesses by address (00 R4 to R8; 01 R12, R13, R24; 21 R466): what a write that is let through does to a
plain register and to system SRAM, what a refused one leaves, and what the read of a read-to-clear counter does. -/

namespace Sys2Proof.Machine

/-! ### The registers that raising a fault writes -/

@[simp] theorem setCause_regs (b s : Nat) (c : Chip) : (setCause b s c).regs = c.regs := by
  simp only [setCause, updCauses]; split <;> rfl

/-- Safe state of a set of slices writes no register. -/
theorem setCause_foldl_regs (b : Nat) (xs : List Nat) (c : Chip) : (xs.foldl (fun c s => setCause b s c) c).regs = c.regs :=
  foldl_keeps (·.regs) _ (fun c s => setCause_regs b s c) xs c

/-- The DEVICE reaction writes CMD_STAT and CMD_FLAGS alone (21 R478, 17 R395). -/
theorem reactDevice_reg {a : Nat} (c : Chip) (hs : a ≠ cmdStatR) (hf : a ≠ cmdR 4) : (reactDevice c).reg a = c.reg a := by
  have h : (setCauseAll causeDevflt c).reg a = c.reg a := Chip.reg_congr (setCause_foldl_regs _ _ c) a
  unfold reactDevice
  dsimp only
  split
  · exact (Chip.reg_setBits_ne _ _ hf).trans ((Chip.reg_setFld_ne _ _ _ _ hs).trans h)
  · exact h

theorem standReact_reg {a : Nat} (i : Nat) (c : Chip) (hs : a ≠ cmdStatR) (hf : a ≠ cmdR 4) :
    (standReact i c).reg a = c.reg a := by
  have h (xs : List Nat) : (xs.foldl (fun c s => setCause causeSliceflt s c) c).reg a = c.reg a :=
    Chip.reg_congr (setCause_foldl_regs _ xs c) a
  simp only [standReact]
  split <;> split <;> simp [reactDevice_reg _ hs hf, h]

/-- The event of a reaction and its reset are only scheduled, so a reaction writes no register but those of DEVICE. -/
theorem applyReact_reg {a : Nat} (i : Nat) (c : Chip) (hs : a ≠ cmdStatR) (hf : a ≠ cmdR 4) :
    (applyReact i c).reg a = c.reg a := by
  have h (d : Nat) (e : Ev) (c : Chip) : (c.schedule d e).reg a = c.reg a := Chip.reg_congr rfl a
  simp only [applyReact, evPulseIn]
  split <;> split <;> simp [h, standReact_reg i c hs hf]

/-- Raising a fault sets its pending bit and writes no other register but those of the DEVICE reaction. -/
theorem raiseFault_reg {a : Nat} (i : Nat) (detail : Word) (c : Chip) (hl : fltListed i = true) (hs : a ≠ cmdStatR)
    (hf : a ≠ cmdR 4) : (raiseFault i detail c).reg a = (c.setBits (fltPendR (i / 32)) (2 ^ (i % 32))).reg a := by
  simp only [raiseFault, hl, Bool.not_true, Bool.false_eq_true, if_false]
  split
  · exact standReact_reg i _ hs hf
  · exact (Chip.reg_congr rfl a).trans (applyReact_reg i _ hs hf)

/-- A listed source is pending once it is raised (21 R479). -/
theorem fltPending_raiseFault (i : Nat) (detail : Word) (c : Chip) (hl : fltListed i = true) :
    fltPending (raiseFault i detail c) i = true := by
  have hi : i < 192 := by simp [fltListed] at hl; omega
  have hs : fltPendR (i / 32) ≠ cmdStatR := by simp only [fltPendR, sysR, cmdStatR]; omega
  have hf : fltPendR (i / 32) ≠ cmdR 4 := by simp only [fltPendR, sysR, cmdR]; omega
  have hb : (BitVec.ofNat 32 (2 ^ (i % 32))).getLsbD (i % 32) = true := by
    simp only [BitVec.getLsbD_ofNat, Nat.testBit_two_pow_self, Bool.and_true, decide_eq_true_eq]; omega
  simp only [fltPending, Chip.bit, Word.bit]
  rw [raiseFault_reg i detail c hl hs hf, Chip.reg_setBits_self, BitVec.getLsbD_or, hb, Bool.or_true]

/-! ### Refused accesses (01 R13, R24; 21 R466) -/

/-- A refused access changes no byte of memory and ends with an error response. -/
theorem refuse_error (w : Verdict) (a : Nat) (c : Chip) : (refuse w a c).resp.ok = false ∧ (refuse w a c).mem = c.mem := by
  cases w
  case violation => exact ⟨rfl, raiseFault_mem c 32 _⟩
  all_goals exact ⟨rfl, rfl⟩

/-! ### Writes by address -/

/-- The word-aligned registers of peripheral blocks whose writes no port of the scheduler stages (00 R4, 03 R73). -/
def DirectReg (n : Nat) : Prop := n % 4 = 0 ∧ registerRange n = true ∧ ¬ (schR 0 ≤ n ∧ n < schR 0x18)

theorem registerRange_iff (n : Nat) : registerRange n = true ↔ 0x40000000 ≤ n ∧ n < 0x60000000 := by simp [registerRange]

theorem memWindow_iff (n : Nat) : memWindow n = true ↔
    (0x10000000 ≤ n ∧ n < 0x11000000) ∨ (0x22000000 ≤ n ∧ n < 0x22030000) := by simp [memWindow]

/-- REGISTER_WRITE in RUN is the bus access. -/
theorem exec_registerWrite {s : State} (hr : s.inRun) (ini : Initiator) (a v : Word) :
    exec (.registerWrite ini a v) s = .next (s.after (busWrite ini a.toNat v)) := onChip_run hr

theorem busWrite_misaligned (ini : Initiator) {n : Nat} (v : Word) (c : Chip) (h : n % 4 ≠ 0) : busWrite ini n v c = c.err := by
  simp [busWrite, h]

/-- A write of a register is judged, and then has the register's effect. -/
theorem busWrite_direct (ini : Initiator) {n : Nat} (v : Word) (c : Chip) (h : DirectReg n) :
    busWrite ini n v c = gatedWrite ini n (regWrite ini n v) c := by
  obtain ⟨ha, hr, hs⟩ := h
  have hb := (registerRange_iff n).1 hr
  have hm : memWindow n = false := by rw [← Bool.not_eq_true, memWindow_iff]; omega
  simp only [schR] at hs
  simp only [busWrite, schR, hm, hr, if_true, Bool.false_eq_true, if_false]
  rw [if_neg (by omega), if_neg (by omega), if_neg (by omega), if_neg (by omega), if_neg (by omega)]

/-- A refused write of a register does nothing but what its refusal leaves. -/
theorem busWrite_refused {ini : Initiator} {n : Nat} {w : Verdict} (v : Word) {c : Chip} (h : DirectReg n)
    (hw : verdict c ini n true = w) (hk : w ≠ .ok) : busWrite ini n v c = refuse w n c := by
  rw [busWrite_direct ini v c h]
  rcases gatedWrite_cases ini n (regWrite ini n v) c with ⟨hg, -⟩ | ⟨-, e⟩
  · exact absurd (hw.symm.trans hg) hk
  · rw [e, hw]

/-! ### System SRAM -/

/-- A write to a memory without errors puts its bytes. -/
theorem memWrite_clean (k n x : Nat) {c : Chip} (h : c.ecc.bad = []) : memWrite k n x c = (true, memPut k n x (portUse k c)) := by
  have hb : (portUse k c).ecc.bad = [] := by
    unfold portUse
    repeat' split
    all_goals exact h
  simp [memWrite, eccErr, hb, aget]

/-- An aligned word of system SRAM without errors takes the bytes of the value (00 R3, R4). -/
theorem busWrite_sram {ini : Initiator} {n : Nat} (v : Word) {c : Chip} (hg : c.grants ini n true) (ha : n % 4 = 0)
    (hlo : 0x10000000 ≤ n) (hhi : n < 0x11000000) (he : c.ecc.bad = []) :
    busWrite ini n v c = (memPut n 4 v.toNat (portUse n c)).ack := by
  have hm : memWindow n = true := (memWindow_iff n).2 (.inl ⟨hlo, hhi⟩)
  have ht : inTcmWin n = false := by simp [inTcmWin]; omega
  simp only [busWrite, hm, if_true]
  rw [if_neg (by omega)]
  simp [windowPut, show verdict c ini n true = .ok from hg, ht, memWrite_clean n 4 v.toNat he]

/-! ### Plain registers (00 R6 to R8) -/

/-- A register whose write before SEAL sets the bits `m` and does nothing else. -/
structure PlainReg (a : Nat) (m : Word) : Prop where
  direct : DirectReg a
  plain : ∀ ini v c, regWrite ini a v c = plainWrite ini a v c
  row : ∃ r i j, rowOf a = some (r, i, j) ∧ BitVec.ofNat 32 r.rw = m ∧ r.w1c = 0

/-- A register without W1C bits keeps its value up to the writable ones. -/
theorem w1c_zero (c : Chip) (a : Nat) (v : Word) : c.w1c a 0#32 v = c.reg a := by
  simp only [Chip.w1c, BitVec.and_zero, BitVec.zero_and, BitVec.not_zero, BitVec.and_allOnes]

/-- Before SEAL a plain write sets the writable bits of its register alone. -/
theorem PlainReg.regWrite_eq {a : Nat} {m : Word} (p : PlainReg a m) (ini : Initiator) (v : Word) {c : Chip}
    (hs : c.sealed = false) : regWrite ini a v c = c.setReg a ((c.reg a &&& ~~~ m) ||| (v &&& m)) := by
  obtain ⟨r, i, j, hrow, hm, hw⟩ := p.row
  rw [p.plain]
  simp [plainWrite, hrow, hm, hw, unsealed, hs, w1c_zero]

/-- The plain registers of the statement, with their writable bits. -/
theorem plainReg_of_mem {e : Nat × Word} (h : e ∈ ([(sysR 0x18, 0xFF), (sysR 0x28, 0xFFFFFFFF), (memR 0x50, 0xFFFFFFFF),
    (triR 0, 0xFF), (llR 0x20, 0xFF07), (0x4500800C, 0xFFFF), (0x4108000C, 0xFFFFFFFF), (pwmR 95 0x30, 0x03FF03FF)] :
    List (Nat × Word))) : PlainReg e.1 e.2 := by
  simp only [List.mem_cons, List.not_mem_nil, or_false] at h
  rcases h with rfl | rfl | rfl | rfl | rfl | rfl | rfl | rfl
  all_goals exact ⟨⟨rfl, rfl, by decide⟩, fun _ _ _ => rfl, _, _, _, rfl, rfl, rfl⟩

/-! ### Read-to-clear counters (00 R8) -/

/-- The read of a counter at `a` takes what was counted before the cycle, leaves what the cycle counted, and changes nothing
else. -/
theorem goes_readClear {s : State} {i : Instr} {ini : Initiator} {a : Nat} (hr : s.inRun)
    (he : exec i s = s.onChip (gatedRead ini a (fun c => c.readClear a))) (hg : s.chip.grants ini a false) :
    Goes i s fun t => t.chip.mem = s.chip.mem ∧ RegsBut s t [a] ∧
      (aget s.chip.counted a = none → t.chip.got = some (s.chip.reg a) ∧ t.chip.reg a = 0) ∧
      (∀ b, aget s.chip.counted a = some b → t.chip.got = some b.1 ∧ t.chip.reg a = b.2) := by
  refine ⟨_, he.trans (onChip_run hr), ?_⟩
  simp only [State.after, gatedRead_ok hg, Chip.readClear]
  have hself (v : Word) {d : Chip} (h : d.regs = (s.chip.setReg a v).regs) : d.reg a = v :=
    (Chip.reg_congr h a).trans (s.chip.reg_setReg_self a v)
  have hbut (v : Word) {t : State} (h : t.chip.regs = (s.chip.setReg a v).regs) : RegsBut s t [a] := fun b hb =>
    (Chip.reg_congr h b).trans (s.chip.reg_setReg_ne v (by simpa using hb))
  cases aget s.chip.counted a with
  | none => exact ⟨rfl, hbut 0 rfl, fun _ => ⟨rfl, hself 0 rfl⟩, nofun⟩
  | some b =>
    refine ⟨rfl, hbut b.2 rfl, nofun, ?_⟩
    rintro _ ⟨rfl⟩
    exact ⟨rfl, hself b.2 rfl⟩

/-- The read of TRI_SYNCCNT by its address is the read of a counter. -/
theorem busRead_triSynccnt (ini : Initiator) :
    busRead ini (triR 0x18) = gatedRead ini (triR 0x18) (fun c => c.readClear (triR 0x18)) := rfl

/-- The read of CMD_REJCNT by its address is the read of a counter. -/
theorem busRead_cmdRejcnt (ini : Initiator) :
    busRead ini (cmdR 0x18) = gatedRead ini (cmdR 0x18) (fun c => c.readClear (cmdR 0x18)) := rfl

/-! ### REGISTER_WRITE -/

/-- A write of a plain register that is let through before SEAL sets its writable bits alone. -/
theorem goes_plainWrite {s : State} {ini : Initiator} {a : Word} {m : Word} (v : Word) (hr : s.inRun)
    (hs : s.chip.sealed = false) (hg : s.chip.grants ini a.toNat true) (p : PlainReg a.toNat m) :
    Goes (.registerWrite ini a v) s fun t => t.chip.resp.ok = true ∧
      t.chip.reg a.toNat = (s.chip.reg a.toNat &&& ~~~ m) ||| (v &&& m) ∧ t.chip.mem = s.chip.mem ∧ RegsBut s t [a.toNat] := by
  refine ⟨_, exec_registerWrite hr ini a v, ?_⟩
  have hs' : s.chip.ack.sealed = false := hs
  simp only [State.after, busWrite_direct ini v _ p.direct, gatedWrite_ok hg, p.regWrite_eq ini v hs']
  exact ⟨rfl, Chip.reg_setReg_self _ _ _, rfl, fun b hb => Chip.reg_setReg_ne _ _ (by simpa using hb)⟩

/-- A write of a word of system SRAM without errors puts its four bytes alone. -/
theorem goes_sramWrite {s : State} {ini : Initiator} {a : Word} (v : Word) (hr : s.inRun)
    (hg : s.chip.grants ini a.toNat true) (ha : a.toNat % 4 = 0) (hlo : 0x10000000 ≤ a.toNat) (hhi : a.toNat < 0x11000000)
    (he : s.chip.ecc.bad = []) :
    Goes (.registerWrite ini a v) s fun t => t.chip.resp.ok = true ∧
      (∀ i : Fin 4, memByte t.chip (a.toNat + i.val) = BitVec.ofNat 8 (v.toNat / 256 ^ i.val)) ∧
      (∀ k, k < a.toNat ∨ a.toNat + 4 ≤ k → memByte t.chip k = memByte s.chip k) ∧ t.chip.regs = s.chip.regs := by
  refine ⟨_, exec_registerWrite hr ini a v, ?_⟩
  simp only [State.after, busWrite_sram v hg ha hlo hhi he]
  have hb (k : Nat) : memByte (memPut a.toNat 4 v.toNat (portUse a.toNat s.chip)).ack k =
      if a.toNat ≤ k ∧ k < a.toNat + 4 then BitVec.ofNat 8 (v.toNat / 256 ^ (k - a.toNat)) else memByte s.chip k := by
    have hp : memByte (portUse a.toNat s.chip) k = memByte s.chip k := by simp only [memByte, portUse_mem]
    rw [← hp]
    exact memByte_memPut _ _ _ _ _
  refine ⟨rfl, fun i => ?_, fun k hk => ?_, by simp⟩
  · rw [hb, if_pos (by omega), Nat.add_sub_cancel_left]
  · rw [hb, if_neg (by omega)]

/-- A write refused for want of power sets PMU_STAT.PDACCF alone (21 R466). -/
theorem goes_write_off {s : State} {ini : Initiator} {a : Word} (v : Word) (hr : s.inRun) (hd : DirectReg a.toNat)
    (hv : verdict s.chip ini a.toNat true = .off) :
    Goes (.registerWrite ini a v) s fun t => t.chip.resp.ok = false ∧
      t.chip.reg (sysR 4) = s.chip.reg (sysR 4) ||| 0x200 ∧ t.chip.mem = s.chip.mem ∧ RegsBut s t [sysR 4] := by
  refine ⟨_, exec_registerWrite hr ini a v, ?_⟩
  simp only [State.after, busWrite_refused v hd hv nofun]
  obtain ⟨hok, hmem⟩ := refuse_error .off a.toNat s.chip
  exact ⟨hok, s.chip.reg_setBits_self _ _, hmem, fun b hb => s.chip.reg_setBits_ne _ (by simpa using hb)⟩

/-- A write refused for its plane raises PLANE_VIOLATION (01 R13). -/
theorem goes_write_violation {s : State} {ini : Initiator} {a : Word} (v : Word) (hr : s.inRun) (hd : DirectReg a.toNat)
    (hv : verdict s.chip ini a.toNat true = .violation) :
    Goes (.registerWrite ini a v) s fun t => t.chip.resp.ok = false ∧ fltPending t.chip 32 = true ∧
      t.chip.mem = s.chip.mem := by
  refine ⟨_, exec_registerWrite hr ini a v, ?_⟩
  simp only [State.after, busWrite_refused v hd hv nofun]
  obtain ⟨hok, hmem⟩ := refuse_error .violation a.toNat s.chip
  exact ⟨hok, fltPending_raiseFault 32 _ _ rfl, hmem⟩

/-! ### The statement -/

/-- Settles O60: writes by the way their address is judged, reads as one law of counters that are cleared by reading. -/
theorem registerAccess : Obligations.RegisterAccess := by
  unfold Obligations.RegisterAccess
  constructor
  · intro s ini a v hr
    have hx := exec_registerWrite hr ini a v
    refine ⟨fun hg ha hn hs => ?_, fun hs hg e he hn => ?_, fun hg ha hlo hhi hc => goes_sramWrite v hr hg ha hlo hhi hc,
      fun ha => ?_, fun ha hn hs => ⟨fun hv => ?_, goes_write_off v hr ⟨ha, hn, hs⟩, goes_write_violation v hr ⟨ha, hn, hs⟩⟩⟩
    · simp only [hx, State.after, busWrite_direct ini v _ ⟨ha, hn, hs⟩, gatedWrite_ok hg]
    · have p : PlainReg a.toNat e.2 := hn ▸ plainReg_of_mem he
      exact goes_plainWrite v hr hs hg p
    · simp only [hx, State.after, busWrite_misaligned ini v _ ha]
    · simp only [hx, State.after, busWrite_refused v ⟨ha, hn, hs⟩ hv nofun, refuse]
  · intro s ini k x p n q i hr
    exact ⟨goes_readClear hr rfl, goes_readClear hr rfl, goes_readClear hr rfl, goes_readClear hr rfl, goes_readClear hr rfl,
      goes_readClear hr rfl, goes_readClear hr (congrArg s.onChip (busRead_triSynccnt ini)), goes_readClear hr rfl,
      goes_readClear hr rfl, goes_readClear hr rfl, goes_readClear hr rfl, goes_readClear hr rfl, goes_readClear hr rfl,
      goes_readClear hr rfl, goes_readClear hr (congrArg s.onChip (busRead_cmdRejcnt ini)), goes_readClear hr rfl,
      goes_readClear hr rfl⟩

end Sys2Proof.Machine

/-! PROOFS. What one step of the block is: an equation of `step` for a queue with a command at its front and one for the empty
queue (log 1). -/

namespace Sys2Proof.Machine

/-- A waiting command is taken off the queue before it is executed, so its meaning finds only the commands behind it. -/
theorem step_of_pending_cons {s : State} {i : Instr} {rest : List Instr} (h : s.pending = i :: rest) :
    step s = exec i { s with pending := rest } := by
  simp only [step, h]

/-- With nothing waiting the block runs a cycle of its own, which is the model's choice (log 1). -/
theorem step_of_pending_nil {s : State} (h : s.pending = []) : step s = .next { s with chip := tick s.chip } := by
  simp only [step, h]

/-- Settles O1: the two equations of `step`, at the state with the queue in question. -/
theorem stepRunsFront : Obligations.StepRunsFront := by
  unfold Obligations.StepRunsFront
  intro s i rest
  exact ⟨step_of_pending_cons (s := { s with pending := i :: rest }) rfl,
    step_of_pending_nil (s := { s with pending := [] }) rfl⟩

end Sys2Proof.Machine

/-! PROOFS. Phase bases: the reasoning rules (02 R36 to R56). What a command of the block leaves of registers, bits and phase-base
records, one rule per operation; the statements on phase bases and capture channels are put together from them. -/

namespace Sys2Proof.Machine

/-! ### Commands in RUN -/

@[simp] theorem State.after_chip (s : State) (f : Chip → Chip) : (s.after f).chip = f s.chip := rfl

theorem goes_onChip {s : State} {i : Instr} {f : Chip → Chip} {P : State → Prop} (hr : s.inRun)
    (he : exec i s = s.onChip f) (h : P (s.after f)) : Goes i s P := ⟨_, he.trans (onChip_run hr), h⟩

theorem onChip_congr {s : State} {f g : Chip → Chip} (h : f s.chip = g s.chip) : s.onChip f = s.onChip g := by
  simp only [State.onChip, awake, h]

theorem onChip_same {s : State} {f : Chip → Chip} (hr : s.inRun) (h : f s.chip = s.chip) : s.onChip f = .next s := by
  rw [onChip_run hr, State.after, h]

/-- A write that is let through has the register's effect after its acknowledgement. -/
theorem goes_gatedWrite {s : State} {i : Instr} {ini : Initiator} {a : Nat} {f : Chip → Chip} {P : State → Prop} (hr : s.inRun)
    (he : exec i s = s.onChip (gatedWrite ini a f)) (hg : s.chip.grants ini a true) (h : P (s.after fun c => f c.ack)) :
    Goes i s P := by
  refine goes_onChip hr he ?_
  rwa [State.after, gatedWrite_ok hg]

/-- A read that is let through answers its word. -/
theorem goes_gatedRead {s : State} {i : Instr} {ini : Initiator} {a : Nat} {f : Chip → Word × Chip} {P : State → Prop}
    (hr : s.inRun) (he : exec i s = s.onChip (gatedRead ini a f)) (hg : s.chip.grants ini a false)
    (h : P (s.after fun c => (f c).2.answer (f c).1)) : Goes i s P := by
  refine goes_onChip hr he ?_
  rwa [State.after, gatedRead_ok hg]

/-! ### Registers, their bits and fields -/

theorem Chip.reg_setFld (c : Chip) (a lo w x b : Nat) :
    (c.setFld a lo w x).reg b = if b = a then (c.reg a).withFld lo w x else c.reg b := c.reg_setReg a b _

theorem Chip.reg_setBits (c : Chip) (a m b : Nat) :
    (c.setBits a m).reg b = if b = a then c.reg a ||| BitVec.ofNat 32 m else c.reg b := c.reg_setReg a b _

theorem Chip.reg_clrBits (c : Chip) (a m b : Nat) :
    (c.clrBits a m).reg b = if b = a then c.reg a &&& ~~~ BitVec.ofNat 32 m else c.reg b := c.reg_setReg a b _

@[simp] theorem Chip.reg_updPb (c : Chip) (p : Fin 8) (f : PhaseBase → PhaseBase) (a : Nat) : (updPb p f c).reg a = c.reg a := rfl
@[simp] theorem Chip.reg_updSp (c : Chip) (p : Fin 8) (f : SchedPb → SchedPb) (a : Nat) : (updSp p f c).reg a = c.reg a := rfl
@[simp] theorem Chip.reg_updCap (c : Chip) (k : Fin 64) (f : Capture → Capture) (a : Nat) : (updCap k f c).reg a = c.reg a := rfl

theorem Word.bit_or (v : Word) (m : Nat) {i : Nat} (h : i < 32) : (v ||| BitVec.ofNat 32 m).bit i = (v.bit i || m.testBit i) := by
  simp only [Word.bit, BitVec.getLsbD_or, BitVec.getLsbD_ofNat, h, decide_true, Bool.true_and]

theorem Word.bit_andNot (v : Word) (m : Nat) {i : Nat} (h : i < 32) :
    (v &&& ~~~ BitVec.ofNat 32 m).bit i = (v.bit i && !m.testBit i) := by
  simp only [Word.bit, BitVec.getLsbD_and, BitVec.getLsbD_not, BitVec.getLsbD_ofNat, h, decide_true, Bool.true_and]

/-- A mask that is clear of STATE has neither of the lowest two bits. -/
theorem testBit_of_clear {m i : Nat} (h : m % 4 = 0) (hi : i < 2) : m.testBit i = false := by
  have e := Nat.testBit_mod_two_pow m 2 i
  rw [show m % 2 ^ 2 = 0 from h, Nat.zero_testBit] at e
  simpa [hi] using e.symm

theorem Word.state_or (v : Word) {m : Nat} (h : m % 4 = 0) : (v ||| BitVec.ofNat 32 m).fld 0 2 = v.fld 0 2 := by
  refine Nat.eq_of_testBit_eq fun i => ?_
  by_cases hi : i < 2
  · simp only [Word.fld_testBit, BitVec.getLsbD_or, BitVec.getLsbD_ofNat, Nat.zero_add, testBit_of_clear h hi, Bool.and_false,
      Bool.or_false]
  · simp [Word.fld_testBit, hi]

theorem Word.state_andNot (v : Word) {m : Nat} (h : m % 4 = 0) : (v &&& ~~~ BitVec.ofNat 32 m).fld 0 2 = v.fld 0 2 := by
  refine Nat.eq_of_testBit_eq fun i => ?_
  by_cases hi : i < 2
  · simp only [Word.fld_testBit, BitVec.getLsbD_and, BitVec.getLsbD_not, BitVec.getLsbD_ofNat, Nat.zero_add,
      testBit_of_clear h hi, Bool.and_false, Bool.not_false, show i < 32 by omega, decide_true, Bool.and_true]
  · simp [Word.fld_testBit, hi]

/-! ### Addresses -/

@[simp] theorem pbR_inj {p a b : Nat} : pbR p a = pbR p b ↔ a = b := by simp [pbR]
@[simp] theorem capR_inj {k a b : Nat} : capR k a = capR k b ↔ a = b := by simp [capR]

/-! ### Event sources -/

/-- `d` is `c` with happenings put at the end of the agenda and the event matrix changed. -/
def EventsOnly (c d : Chip) : Prop := ∃ xs v, d = { c with agenda := c.agenda ++ xs, evm := v }

theorem EventsOnly.refl (c : Chip) : EventsOnly c c := ⟨[], c.evm, by simp⟩

theorem EventsOnly.trans {c d e : Chip} (h : EventsOnly c d) (h' : EventsOnly d e) : EventsOnly c e := by
  obtain ⟨xs, v, rfl⟩ := h
  obtain ⟨ys, w, rfl⟩ := h'
  exact ⟨xs ++ ys, w, by simp⟩

theorem EventsOnly.now {c d : Chip} (h : EventsOnly c d) : d.now = c.now := by obtain ⟨xs, v, rfl⟩ := h; rfl
theorem EventsOnly.regs {c d : Chip} (h : EventsOnly c d) : d.regs = c.regs := by obtain ⟨xs, v, rfl⟩ := h; rfl
theorem EventsOnly.pbs {c d : Chip} (h : EventsOnly c d) : d.pbs = c.pbs := by obtain ⟨xs, v, rfl⟩ := h; rfl
theorem EventsOnly.agenda {c d : Chip} (h : EventsOnly c d) {e : Nat × Ev} (he : e ∈ c.agenda) : e ∈ d.agenda := by
  obtain ⟨xs, v, rfl⟩ := h
  exact List.mem_append_left _ he

theorem EventsOnly.evm (c : Chip) (v : Evm) : EventsOnly c { c with evm := v } := ⟨[], v, by simp⟩

theorem consumerDue_eventsOnly (due e : Nat) (c : Chip) : EventsOnly c (consumerDue due c e) := by
  unfold consumerDue
  split
  · split
    · exact .refl c
    · exact .evm c _
  · split
    · exact ⟨_, _, rfl⟩
    · exact .refl c

theorem consumerDue_foldl_eventsOnly (due : Nat) (es : List Nat) (c : Chip) : EventsOnly c (es.foldl (consumerDue due) c) := by
  induction es generalizing c with
  | nil => exact .refl c
  | cons e es ih => exact (consumerDue_eventsOnly due e c).trans (ih _)

theorem schedule_eventsOnly (d : Nat) (e : Ev) (c : Chip) : EventsOnly c (c.schedule d e) := ⟨_, _, rfl⟩

/-- A pulse of an event source changes nothing but the agenda and the event matrix. -/
theorem evPulse_eventsOnly (n : Nat) (c : Chip) : EventsOnly c (evPulse n c) := by
  unfold evPulse
  split
  · exact .refl c
  · dsimp only
    split
    · exact ((schedule_eventsOnly _ _ c).trans (consumerDue_foldl_eventsOnly _ _ _)).trans (.evm _ _)
    · exact (consumerDue_foldl_eventsOnly _ _ c).trans (.evm _ _)

@[simp] theorem pbEvent_now (p : Fin 8) (k : Nat) (c : Chip) : (pbEvent p k c).now = c.now := (evPulse_eventsOnly _ c).now
@[simp] theorem pbEvent_pbs (p : Fin 8) (k : Nat) (c : Chip) : (pbEvent p k c).pbs = c.pbs := (evPulse_eventsOnly _ c).pbs
@[simp] theorem pbEvent_reg (p : Fin 8) (k : Nat) (c : Chip) (a : Nat) : (pbEvent p k c).reg a = c.reg a :=
  Chip.reg_congr (evPulse_eventsOnly _ c).regs a

@[simp] theorem evCancel_now (n : Nat) (c : Chip) : (evCancel n c).now = c.now := by unfold evCancel; split <;> rfl
@[simp] theorem evCancel_pbs (n : Nat) (c : Chip) : (evCancel n c).pbs = c.pbs := by unfold evCancel; split <;> rfl
@[simp] theorem evCancel_regs (n : Nat) (c : Chip) : (evCancel n c).regs = c.regs := by unfold evCancel; split <;> rfl

/-! ### Faults of a phase base (R55) -/

theorem setCause_pbs (b s : Nat) (c : Chip) : (setCause b s c).pbs = c.pbs := by
  simp only [setCause, updCauses]; split <;> rfl

theorem reactDevice_pbs (c : Chip) : (reactDevice c).pbs = c.pbs := by
  have h : (setCauseAll causeDevflt c).pbs = c.pbs := foldl_keeps (·.pbs) _ (fun c s => setCause_pbs _ s c) _ c
  unfold reactDevice
  dsimp only
  split
  · exact h
  · exact h

theorem standReact_pbs (i : Nat) (c : Chip) : (standReact i c).pbs = c.pbs := by
  have h (xs : List Nat) : (xs.foldl (fun c s => setCause causeSliceflt s c) c).pbs = c.pbs :=
    foldl_keeps (·.pbs) _ (fun c s => setCause_pbs _ s c) xs c
  simp only [standReact]
  split <;> split <;> simp [reactDevice_pbs, h]

theorem applyReact_pbs (i : Nat) (c : Chip) : (applyReact i c).pbs = c.pbs := by
  simp only [applyReact, evPulseIn]
  split <;> split <;> simp [standReact_pbs]

/-- Raising a fault leaves the phase bases' records as they were. -/
theorem raiseFault_pbs (i : Nat) (detail : Word) (c : Chip) : (raiseFault i detail c).pbs = c.pbs := by
  simp only [raiseFault]
  split
  · rfl
  · split
    · exact standReact_pbs i _
    · exact applyReact_pbs i _

@[simp] theorem pbFault_pbs (p : Fin 8) (k : Nat) (c : Chip) : (pbFault p k c).pbs = c.pbs := by
  have h (d : Chip) : (schPbFault p k d).pbs = d.pbs := by
    unfold schPbFault
    split
    · dsimp only
      split <;> rfl
    · rfl
  simp [pbFault, h, raiseFault_pbs]

/-- A fault of a phase base sets its bit of PB_STAT and writes no other register of a phase base. -/
theorem pbFault_pbR (p : Fin 8) (k off : Nat) (c : Chip) (ho : off < 0x100) :
    (pbFault p k c).reg (pbR p off) = (c.setBits (pbR p 8) (2 ^ (8 + k))).reg (pbR p off) := by
  have hs (d : Chip) : (schPbFault p k d).reg (pbR p off) = d.reg (pbR p off) := by
    have hne : pbR p off ≠ schP p 8 := by simp only [pbR, schP]; omega
    unfold schPbFault
    split
    · dsimp only
      split <;> simp [Chip.reg_setBits, hne]
    · rfl
  have hl : fltListed (12 + p.val) = true := by simp [fltListed]; omega
  have hp : pbR p off ≠ fltPendR ((12 + p.val) / 32) := by simp only [pbR, fltPendR, sysR]; omega
  have h1 : pbR p off ≠ cmdStatR := by simp only [pbR, cmdStatR]; omega
  have h2 : pbR p off ≠ cmdR 4 := by simp only [pbR, cmdR]; omega
  simp only [pbFault, hs, raiseFault_reg _ _ _ hl h1 h2, Chip.reg_setBits_ne _ _ hp, pbEvent_reg]

end Sys2Proof.Machine

/-! PROOFS. Phase bases: updates (02 R38 to R45). What the entry of ACQUIRE and TRACK, the cancel of a slew, a jump and the judgement
of an update do to the registers and the record of one phase base. -/

namespace Sys2Proof.Machine

/-! ### The registers and the record of one phase base -/

theorem Chip.bit_setBits_pow (c : Chip) (a : Nat) {k : Nat} (h : k < 32) : (c.setBits a (2 ^ k)).bit a k = true := by
  rw [Chip.bit, Chip.reg_setBits_self, Word.bit_or _ _ h, Nat.testBit_two_pow_self, Bool.or_true]

theorem Chip.bit_clrBits_pow (c : Chip) (a : Nat) {k : Nat} (h : k < 32) : (c.clrBits a (2 ^ k)).bit a k = false := by
  rw [Chip.bit, Chip.reg_clrBits_self, Word.bit_andNot _ _ h, Nat.testBit_two_pow_self, Bool.not_true, Bool.and_false]

@[simp] theorem reg_setReg_pbR (c : Chip) (p a b : Nat) (v : Word) :
    (c.setReg (pbR p a) v).reg (pbR p b) = if b = a then v else c.reg (pbR p b) := by simp [Chip.reg_setReg]
@[simp] theorem reg_setBits_pbR (c : Chip) (p a m b : Nat) :
    (c.setBits (pbR p a) m).reg (pbR p b) = if b = a then c.reg (pbR p a) ||| BitVec.ofNat 32 m else c.reg (pbR p b) := by
  simp [Chip.reg_setBits]
@[simp] theorem reg_clrBits_pbR (c : Chip) (p a m b : Nat) :
    (c.clrBits (pbR p a) m).reg (pbR p b) = if b = a then c.reg (pbR p a) &&& ~~~ BitVec.ofNat 32 m else c.reg (pbR p b) := by
  simp [Chip.reg_clrBits]

@[simp] theorem updPb_get (p : Fin 8) (f : PhaseBase → PhaseBase) (c : Chip) : (updPb p f c).pbs[p.val] = f c.pbs[p.val] :=
  vmod_get c.pbs p f

@[simp] theorem pbEn_updPb (p q : Fin 8) (f : PhaseBase → PhaseBase) (c : Chip) : pbEn (updPb p f c) q = pbEn c q := rfl
@[simp] theorem pbSrc_updPb (p q : Fin 8) (f : PhaseBase → PhaseBase) (c : Chip) : pbSrc (updPb p f c) q = pbSrc c q := rfl

@[simp] theorem updSp_now (p : Fin 8) (f : SchedPb → SchedPb) (c : Chip) : (updSp p f c).now = c.now := rfl
@[simp] theorem updSp_pbs (p : Fin 8) (f : SchedPb → SchedPb) (c : Chip) : (updSp p f c).pbs = c.pbs := rfl

theorem updPb_congr {p : Fin 8} {f g : PhaseBase → PhaseBase} {c : Chip} (h : f c.pbs[p] = g c.pbs[p]) :
    updPb p f c = updPb p g c := by
  simp only [updPb, vmod, h]

/-- Bits of PB_STAT outside STATE leave the state alone. -/
theorem pbState_setBits (c : Chip) (p : Fin 8) {m : Nat} (h : m % 4 = 0) : pbState (c.setBits (pbR p 8) m) p = pbState c p := by
  simp [pbState, Chip.fld, Word.state_or _ h]

theorem pbState_clrBits (c : Chip) (p : Fin 8) {m : Nat} (h : m % 4 = 0) : pbState (c.clrBits (pbR p 8) m) p = pbState c p := by
  simp [pbState, Chip.fld, Word.state_andNot _ h]

theorem pbState_congr {c d : Chip} {p : Fin 8} (h : d.reg (pbR p 8) = c.reg (pbR p 8)) : pbState d p = pbState c p := by
  simp only [pbState, Chip.fld, h]

theorem pbCfg_congr {c d : Chip} {p : Fin 8} (h : d.reg (pbR p 0) = c.reg (pbR p 0)) :
    pbEn d p = pbEn c p ∧ pbSrc d p = pbSrc c p ∧ pbFwd d p = pbFwd c p := by
  simp only [pbEn, pbSrc, pbFwd, Chip.bit, Chip.fld, h, and_self]

@[simp] theorem setPbState_now (p : Fin 8) (x : Nat) (c : Chip) : (setPbState p x c).now = c.now := rfl
@[simp] theorem setPbState_pbs (p : Fin 8) (x : Nat) (c : Chip) : (setPbState p x c).pbs = c.pbs := rfl
theorem setPbState_reg (p : Fin 8) (x : Nat) (c : Chip) {a : Nat} (h : a ≠ pbR p 8) : (setPbState p x c).reg a = c.reg a :=
  c.reg_setFld_ne _ _ _ h
theorem pbState_setPbState (p : Fin 8) (x : Nat) (c : Chip) : pbState (setPbState p x c) p = x % 4 := by
  simp [pbState, setPbState, Chip.fld, Word.fld_withFld]

@[simp] theorem slewCancel_now (p : Fin 8) (c : Chip) : (slewCancel p c).now = c.now := rfl
@[simp] theorem slewCancel_pb (p : Fin 8) (c : Chip) : (slewCancel p c).pbs[p.val] = { c.pbs[p.val] with slew := none } := by
  simp [slewCancel]
theorem slewCancel_reg (p : Fin 8) (c : Chip) {a : Nat} (h : a ≠ pbR p 8) : (slewCancel p c).reg a = c.reg a :=
  Chip.reg_clrBits_ne _ _ h
@[simp] theorem slewCancel_state (p : Fin 8) (c : Chip) : pbState (slewCancel p c) p = pbState c p :=
  pbState_clrBits _ p rfl
/-- PB_STAT.SLEWING is clear once the slew is cancelled. -/
theorem slewCancel_slewing (p : Fin 8) (c : Chip) : (slewCancel p c).bit (pbR p 8) 3 = false :=
  Chip.bit_clrBits_pow _ _ (by decide)

@[simp] theorem tmoRestart_pb (p : Fin 8) (c : Chip) : (tmoRestart p c).pbs[p.val] = { c.pbs[p.val] with tmoFrom := some c.now } := by
  simp [tmoRestart]

/-! ### Velocity (R43) -/

/-- VB takes a value that forward-only lets through. -/
theorem setVB_allowed {p : Fin 8} {v : Int} {c : Chip} (h : pbFwd c p = true → 0 ≤ v) :
    setVB p v c = c.setReg (pbR p 0x14) (wordI v) := by
  unfold setVB
  rw [if_neg]
  simpa using h

/-- A negative value under forward-only is held at 0, with the REVERSE fault. -/
theorem setVB_reverse {p : Fin 8} {v : Int} {c : Chip} (hf : pbFwd c p = true) (hv : v < 0) :
    setVB p v c = pbFault p 3 (c.setReg (pbR p 0x14) 0) := by
  unfold setVB
  rw [if_pos]
  simpa [hv] using hf

/-- VB takes the velocity measured on the entry into TRACK, or stays (R38). -/
theorem velTake_cases {p : Fin 8} (vm : Option Int) {c : Chip} (hf : pbFwd c p = false) :
    velTake p vm c = c ∨
    ∃ v, velTake p vm c = (updPb p (fun b => { b with filtAt := some c.now }) c).setReg (pbR p 0x14) (wordI v) := by
  cases vm with
  | none => exact .inl rfl
  | some v =>
    simp only [velTake]
    split
    · exact .inr ⟨v, setVB_allowed (fun h => absurd (hf.symm.trans h) nofun)⟩
    · exact .inl rfl

/-! ### Updates (R38 to R41) -/

theorem jumpBy_free {p : Fin 8} {c : Chip} (e : Int) (hf : pbFwd c p = false) :
    jumpBy p e c = updSp p (fun s => { s with jumped := true })
      (updPb p (fun b => { b with jump := b.jump + BitVec.ofInt 48 e }) (slewCancel p c)) := by
  have h : pbFwd (slewCancel p c) p = false := by
    rwa [(pbCfg_congr (slewCancel_reg p c (by simp))).2.2]
  simp [jumpBy, h]

/-- The entry into TRACK that the second update of ACQUIRE brings, or the first Z of an encoder with ZEN (R38). -/
def entersTrack (c : Chip) (p : Fin 8) (u : PbUpdate) : Bool :=
  if pbSrc c p = 1 ∧ c.bit (pbR p 0x40) 6 = true then u.isZ else decide (1 ≤ c.pbs[p].nAcc)

/-- In ACQUIRE the correction of an update is the entry into TRACK, where it is due, and then a jump. -/
theorem correct_eq_jumpBy {p : Fin 8} {c : Chip} (u : PbUpdate) (e : Int) (vm : Option Int) (hs : pbState c p = 1) :
    correct p u e vm c = jumpBy p e (if entersTrack c p u then setPbState p stTrack (velTake p vm c) else c) := by
  have hn : ¬ pbState c p = stTrack := by rw [hs]; decide
  have he : (if pbSrc c p == srcEnc && c.bit (pbR p 0x40) 6 then u.isZ else decide (1 ≤ c.pbs[p].nAcc)) = entersTrack c p u := by
    simp only [entersTrack, Bool.and_eq_true, beq_iff_eq, srcEnc]
  simp only [correct, if_neg hn, he]

/-- What the entry into TRACK leaves: all of the phase base but the state and VB. -/
theorem enterTrack_spec {p : Fin 8} {c : Chip} (b : Bool) (vm : Option Int) (hs : pbState c p = 1) (hf : pbFwd c p = false) :
    let x := if b then setPbState p stTrack (velTake p vm c) else c
    x.now = c.now ∧ (∃ f, x.pbs[p] = { c.pbs[p] with filtAt := f }) ∧
    (∀ off, off ≠ 8 → off ≠ 0x14 → x.reg (pbR p off) = c.reg (pbR p off)) ∧ pbState x p = if b then 2 else 1 := by
  cases b with
  | false => exact ⟨rfl, ⟨_, rfl⟩, fun _ _ _ => rfl, hs⟩
  | true =>
    have hst (x : Chip) : pbState (setPbState p stTrack x) p = 2 := pbState_setPbState _ _ _
    rcases velTake_cases vm hf with h | ⟨v, h⟩
    · exact ⟨by simp [h], ⟨c.pbs[p].filtAt, by simp [h]⟩, fun _ h8 _ => by simp [h, setPbState_reg, h8], hst _⟩
    · exact ⟨by simp [h], ⟨some c.now, by simp [h]⟩, fun _ h8 h14 => by simp [h, setPbState_reg, h8, h14], hst _⟩

/-- An update accepted in ACQUIRE jumps by its error, counts, and enters TRACK where it is due (R38, R41). -/
theorem acceptUpd_acquire {p : Fin 8} {c : Chip} (u : PbUpdate) (e : Int) (hs : pbState c p = 1) (hf : pbFwd c p = false) :
    let d := acceptUpd p u e c
    d.pbs[p].pend = c.pbs[p].pend ∧ d.pbs[p].acc = c.pbs[p].acc ∧ d.pbs[p].slew = none ∧
    d.pbs[p].jump = c.pbs[p].jump + BitVec.ofInt 48 e ∧ d.pbs[p].nAcc = c.pbs[p].nAcc + 1 ∧ d.pbs[p].tmoFrom = some c.now ∧
    pbState d p = (if entersTrack c p u then 2 else 1) ∧ d.reg (pbR p 0x3C) = c.reg (pbR p 0x3C) + 1 ∧
    d.bit (pbR p 8) 18 = true := by
  have hn : ¬ pbState c p = stCoast := by rw [hs]; decide
  have hc := correct_eq_jumpBy u e (velMeas c p u) hs
  have hx := enterTrack_spec (entersTrack c p u) (velMeas c p u) hs hf
  revert hc hx
  generalize (if entersTrack c p u then setPbState p stTrack (velTake p (velMeas c p u) c) else c) = x
  rintro hc ⟨hnow, ⟨f, hpb⟩, hreg, hst⟩
  have hfx : pbFwd x p = false := by rwa [(pbCfg_congr (hreg 0 (by decide) (by decide))).2.2]
  have hpb' : x.pbs[p.val] = { c.pbs[p] with filtAt := f } := hpb
  have hstat : (acceptUpd p u e c).reg (pbR p 8) = ((slewCancel p x).setBits (pbR p 8) (2 ^ 18)).reg (pbR p 8) := by
    simp [acceptUpd, hn, hc, jumpBy_free e hfx]
  have hstate : pbState (acceptUpd p u e c) p = if entersTrack c p u then 2 else 1 := by
    rw [pbState_congr hstat, pbState_setBits _ _ rfl, slewCancel_state, hst]
  have hcnt : (acceptUpd p u e c).reg (pbR p 0x3C) = c.reg (pbR p 0x3C) + 1 := by
    simp [acceptUpd, hn, hc, jumpBy_free e hfx, slewCancel_reg, hreg]
  have hbit : (acceptUpd p u e c).bit (pbR p 8) 18 = true := by
    rw [Chip.bit, hstat]; exact Chip.bit_setBits_pow _ _ (by decide)
  refine ⟨?_, ?_, ?_, ?_, ?_, ?_, hstate, hcnt, hbit⟩
  all_goals simp [acceptUpd, hn, hc, jumpBy_free e hfx, hpb', hnow]

/-- An accepted update restarts the timeout. -/
theorem acceptUpd_tmoFrom (p : Fin 8) (u : PbUpdate) (e : Int) (c : Chip) :
    (acceptUpd p u e c).pbs[p].tmoFrom = some (acceptUpd p u e c).now := by
  simp [acceptUpd]

/-- The chip once an update of the present cycle is noted and its marks are shown, before it is judged. -/
def noted (p : Fin 8) (u : PbUpdate) (c : Chip) : Chip :=
  updMarks p u (updPb p (fun b => { b with taken := b.taken.filter (fun y => y.cyc == c.now) ++ [pbTaken c p u] }) c)

@[simp] theorem updMarks_now (p : Fin 8) (u : PbUpdate) (c : Chip) : (updMarks p u c).now = c.now := by
  unfold updMarks; split <;> split <;> simp

@[simp] theorem updMarks_pb (p : Fin 8) (u : PbUpdate) (c : Chip) :
    (updMarks p u c).pbs[p.val] = { c.pbs[p.val] with bound := u.bound.or c.pbs[p.val].bound } := by
  unfold updMarks; split <;> split <;> simp [*]

theorem updMarks_reg (p : Fin 8) (u : PbUpdate) (c : Chip) (a : Nat) :
    (updMarks p u c).reg a = if u.idx then (c.setBits (pbR p 8) (2 ^ 17)).reg a else c.reg a := by
  unfold updMarks; split <;> split <;> simp [*]

theorem updMarks_reg_ne (p : Fin 8) (u : PbUpdate) (c : Chip) {a : Nat} (h : a ≠ pbR p 8) : (updMarks p u c).reg a = c.reg a := by
  rw [updMarks_reg, Chip.reg_setBits_ne _ _ h, ite_self]

@[simp] theorem pbState_updMarks (p : Fin 8) (u : PbUpdate) (c : Chip) : pbState (updMarks p u c) p = pbState c p := by
  cases h : u.idx
  · exact pbState_congr (by simp [updMarks_reg, h])
  · rw [← pbState_setBits c p (m := 2 ^ 17) rfl]
    exact pbState_congr (by simp [updMarks_reg, h])

@[simp] theorem noted_now (p : Fin 8) (u : PbUpdate) (c : Chip) : (noted p u c).now = c.now := updMarks_now _ _ _

theorem noted_pb (p : Fin 8) (u : PbUpdate) (c : Chip) :
    ∃ ts, (noted p u c).pbs[p] = { c.pbs[p] with bound := u.bound.or c.pbs[p].bound, taken := ts } := ⟨_, by simp [noted]; rfl⟩

theorem noted_reg_ne (p : Fin 8) (u : PbUpdate) (c : Chip) {a : Nat} (h : a ≠ pbR p 8) : (noted p u c).reg a = c.reg a :=
  updMarks_reg_ne _ _ _ h

@[simp] theorem pbState_noted (p : Fin 8) (u : PbUpdate) (c : Chip) : pbState (noted p u c) p = pbState c p :=
  pbState_updMarks _ _ _

theorem stampAge_congr {c d : Chip} (h : d.now = c.now) (t : Word) : stampAge d t = stampAge c t := by
  simp only [stampAge, Chip.capTime, h]

/-- The error of an update depends on the time, the registers and the phase base, but not on its note of earlier updates. -/
theorem updErr_congr {c d : Chip} {p : Fin 8} {ts : List PbTaken} (u : PbUpdate) (hn : d.now = c.now)
    (hr : ∀ a, d.reg a = c.reg a) (hp : d.pbs[p] = { c.pbs[p] with taken := ts }) : updErr d p u = updErr c p u := by
  have hslew : d.pbs[p].slew = c.pbs[p].slew := by rw [hp]
  have hmax : slewMax d p = slewMax c p := by simp only [slewMax, Chip.fld, hr]
  have hterm : slewTerm d p = slewTerm c p := by rw [slewTerm, slewTerm, hslew, hmax]
  obtain ⟨hen, hsrc, hfwd⟩ := pbCfg_congr (hr (pbR p 0))
  have hv : vaNow d p = vaNow c p := by rw [vaNow, vaNow, hfwd, hterm, hr]
  have hadv : advance d p = advance c p := by
    rw [advance, advance, hen, hsrc, pbState_congr (hr (pbR p 8)), hv, hp]
  have ha : accEnd d p = accEnd c p := by rw [accEnd, accEnd, hadv, hp]
  simp only [updErr, thetaAge, stampAge_congr hn, ha, hp]

theorem updErr_noted (p : Fin 8) (u : PbUpdate) (c : Chip) : updErr (noted p u c) p u = updErr (updMarks p u c) p u := by
  refine updErr_congr u (by simp) (fun a => ?_) (by simp [noted]; rfl)
  simp only [noted, updMarks_reg]
  rfl

/-- An update whose stamp is in the future or too old is refused with STALE (R39). -/
theorem applyUpd_stale {p : Fin 8} {u : PbUpdate} {c : Chip} (h0 : pbState c p ≠ 0)
    (ha : stampAge c u.t < 0 ∨ 65535 < stampAge c u.t) : applyUpd p u c = (noted p u c).setBits (pbR p 8) (2 ^ 13) := by
  have h : applyUpd p u c = if stampAge (noted p u c) u.t < 0 ∨ 65535 < stampAge (noted p u c) u.t then
      (noted p u c).setBits (pbR p 8) (2 ^ 13) else _ := if_neg h0
  rw [h, stampAge_congr (noted_now p u c), if_pos ha]

/-- The chip in which an update in time is judged: its error is told in PB_ERR (R39). -/
def judged (p : Fin 8) (u : PbUpdate) (c : Chip) : Chip :=
  (noted p u c).setReg (pbR p 0x38) (wordI (tdiv (updErr (updMarks p u c) p u) (2 ^ 16)))

theorem judged_reg (p : Fin 8) (u : PbUpdate) (c : Chip) {a : Nat} (h : a ≠ pbR p 8) (h' : a ≠ pbR p 0x38) :
    (judged p u c).reg a = c.reg a := by
  rw [judged, Chip.reg_setReg_ne _ _ h', noted_reg_ne _ _ _ h]

theorem pbState_judged (p : Fin 8) (u : PbUpdate) (c : Chip) : pbState (judged p u c) p = pbState c p :=
  (pbState_congr (by simp [judged])).trans (pbState_noted p u c)

/-- An update in time is accepted, unless its error is beyond PB_CATCH in TRACK (R39, R40). -/
theorem applyUpd_inTime {p : Fin 8} {u : PbUpdate} {c : Chip} (h0 : pbState c p ≠ 0) (hlo : 0 ≤ stampAge c u.t)
    (hhi : stampAge c u.t ≤ 65535) :
    applyUpd p u c =
      if pbState c p = 2 ∧ c.fld (pbR p 0x2C) 0 20 ≠ 0 ∧
          (c.fld (pbR p 0x2C) 0 20 * 2 ^ 16 : Nat) < absI (updErr (updMarks p u c) p u) then
        updPb p (fun b => { b with jlims := b.jlims + 1 }) (judged p u c)
      else acceptUpd p u (updErr (updMarks p u c) p u) (judged p u c) := by
  have hl : (judged p u c).fld (pbR p 0x2C) 0 20 = c.fld (pbR p 0x2C) 0 20 := by
    rw [Chip.fld, Chip.fld, judged_reg _ _ _ (by simp) (by simp)]
  have ha : ¬ (stampAge (noted p u c) u.t < 0 ∨ 65535 < stampAge (noted p u c) u.t) := by
    rw [stampAge_congr (noted_now p u c)]; omega
  rw [← pbState_judged p u c, ← hl, judged, ← updErr_noted]
  exact (if_neg h0).trans (if_neg ha)

/-- An update in time that ACQUIRE takes: an acceptance with the error found (R38, R41). -/
theorem applyUpd_acquire {p : Fin 8} {u : PbUpdate} {c : Chip} (hs : pbState c p = 1) (hf : pbFwd c p = false)
    (hlo : 0 ≤ stampAge c u.t) (hhi : stampAge c u.t ≤ 65535) :
    let d := applyUpd p u c
    d.pbs[p].pend = c.pbs[p].pend ∧ d.pbs[p].acc = c.pbs[p].acc ∧ d.pbs[p].slew = none ∧
    d.pbs[p].jump = c.pbs[p].jump + BitVec.ofInt 48 (updErr (updMarks p u c) p u) ∧ d.pbs[p].nAcc = c.pbs[p].nAcc + 1 ∧
    d.pbs[p].tmoFrom = some c.now ∧ pbState d p = (if entersTrack c p u then 2 else 1) ∧
    d.reg (pbR p 0x3C) = c.reg (pbR p 0x3C) + 1 ∧ d.bit (pbR p 8) 18 = true := by
  have hreg {off : Nat} (h : off ≠ 8) (h' : off ≠ 0x38) : (judged p u c).reg (pbR p off) = c.reg (pbR p off) :=
    judged_reg p u c (by simpa) (by simpa)
  obtain ⟨-, hsrc, hfwd⟩ := pbCfg_congr (hreg (off := 0) (by decide) (by decide))
  obtain ⟨ts, hn⟩ := noted_pb p u c
  have hpb : (judged p u c).pbs[p] = { c.pbs[p] with bound := u.bound.or c.pbs[p].bound, taken := ts } := hn
  have hnow : (judged p u c).now = c.now := noted_now p u c
  have hent : entersTrack (judged p u c) p u = entersTrack c p u := by
    rw [entersTrack, entersTrack, hsrc, hpb, Chip.bit, Chip.bit, hreg (by decide) (by decide)]
  have h := acceptUpd_acquire u (updErr (updMarks p u c) p u) ((pbState_judged p u c).trans hs) (hfwd.trans hf)
  rw [applyUpd_inTime (by omega) hlo hhi, if_neg (by omega)]
  simp only [hpb, hnow, hent, hreg (off := 0x3C) (by decide) (by decide)] at h
  exact h

end Sys2Proof.Machine

/-! PROOFS. Phase bases: the application of updates, the end of a slew, timeouts and revolutions (02 R36 to R44, R56). -/

namespace Sys2Proof.Machine

/-! ### Updates, the end of a slew, timeouts and revolutions (R36 to R44) -/

/-- The oldest update is applied in the cycle for which it is due. -/
theorem updateApply_due {p : Fin 8} {u : PbUpdate} {rest : List PbUpdate} {c : Chip} (hp : c.pbs[p].pend = u :: rest)
    (hd : u.due = c.now) : updateApply p c = applyUpd p u (updPb p (fun b => { b with pend := rest }) c) := by
  have hf : c.pbs[p].pend.find? (fun u => u.due == c.now) = some u := by
    rw [hp]; exact List.find?_cons_of_pos (by simp [hd])
  have he : updPb p (fun b => { b with pend := b.pend.erase u }) c = updPb p (fun b => { b with pend := rest }) c :=
    updPb_congr (by rw [hp, List.erase_cons_head])
  rw [updateApply, hf, ← he]

/-- Nothing is applied in a cycle for which nothing is due. -/
theorem applyDue_none {p : Fin 8} {c : Chip} (h : ∀ w ∈ c.pbs[p].pend, w.due ≠ c.now) : applyDue p c = c := by
  have hf (us : List PbUpdate) (h : ∀ w ∈ us, w.due ≠ c.now) :
      us.foldl (fun c u => if u.due = c.now then updateApply p c else c) c = c := by
    induction us with
    | nil => rfl
    | cons u us ih =>
      rw [List.foldl_cons, if_neg (h u List.mem_cons_self)]
      exact ih fun w hw => h w (List.mem_cons_of_mem _ hw)
  exact hf _ h

/-- The timeout of a phase base that is on expires in the present cycle, and no update falls due in it. -/
structure Expiring (c : Chip) (p : Fin 8) : Prop where
  on : pbState c p ≠ 0
  runs : tmoRuns c p = true
  started : c.pbs[p].tmoFrom ≠ none
  earlier : c.pbs[p].tmoFrom ≠ some c.now
  idle : ∀ w ∈ c.pbs[p].pend, w.due ≠ c.now

/-- The timeout stands still. -/
def tmoStop (p : Fin 8) (c : Chip) : Chip := updPb p (fun b => { b with tmoFrom := none }) c

@[simp] theorem tmoStop_pb (p : Fin 8) (c : Chip) : (tmoStop p c).pbs[p.val] = { c.pbs[p.val] with tmoFrom := none } :=
  updPb_get _ _ _
@[simp] theorem tmoStop_reg (p : Fin 8) (c : Chip) (a : Nat) : (tmoStop p c).reg a = c.reg a := rfl

/-- What an expiry does, by the source and the state (R44). -/
theorem timeout_expires {p : Fin 8} {c : Chip} (h : Expiring c p) :
    timeout p c =
      if pbSrc c p = 1 ∨ pbSrc c p = 2 then (slewCancel p (setVBHard p 0 (tmoStop p c))).setBits (pbR p 8) (2 ^ 4)
      else if pbState c p = 2 then pbFault p 0 (setPbState p 3 (slewCancel p (tmoStop p c)))
      else if pbState c p = 1 then pbFault p 0 (tmoStop p c) else tmoStop p c := by
  have hn : ¬ (pbState c p = stOff ∨ (!tmoRuns c p) = true ∨ c.pbs[p].tmoFrom = none ∨ c.pbs[p].tmoFrom = some c.now) := by
    simp only [h.runs, h.started, h.earlier, Bool.not_true, Bool.false_eq_true, or_false]
    exact h.on
  rw [timeout, applyDue_none h.idle]
  exact if_neg hn

/-- A timeout that does not run, or restarts in the cycle, brings nothing. -/
theorem timeout_idle {p : Fin 8} {c : Chip} (hd : ∀ w ∈ c.pbs[p].pend, w.due ≠ c.now)
    (h : tmoRuns c p = false ∨ c.pbs[p].tmoFrom = none ∨ c.pbs[p].tmoFrom = some c.now) : timeout p c = c := by
  have h' : pbState c p = stOff ∨ (!tmoRuns c p) = true ∨ c.pbs[p].tmoFrom = none ∨ c.pbs[p].tmoFrom = some c.now :=
    .inr (by simpa using h)
  rw [timeout, applyDue_none hd]
  exact if_pos h'

theorem applyUpd_tmoFrom {p : Fin 8} {u : PbUpdate} {c : Chip} (hs : pbState c p = 1) (hlo : 0 ≤ stampAge c u.t)
    (hhi : stampAge c u.t ≤ 65535) : (applyUpd p u c).pbs[p].tmoFrom = some (applyUpd p u c).now := by
  rw [applyUpd_inTime (by omega) hlo hhi, if_neg (by omega)]
  exact acceptUpd_tmoFrom _ _ _ _

/-- An update that ACQUIRE accepts in the cycle of an expiry restarts the timeout, which then does not expire (R56). -/
theorem timeout_of_accepted {p : Fin 8} {u : PbUpdate} {c : Chip} (hp : c.pbs[p].pend = [u]) (hd : u.due = c.now)
    (hs : pbState c p = 1) (hlo : 0 ≤ stampAge c u.t) (hhi : stampAge c u.t ≤ 65535) : timeout p c = updateApply p c := by
  have ha : applyDue p c = updateApply p c := by simp only [applyDue, hp, List.foldl_cons, List.foldl_nil, if_pos hd]
  have ht : (updateApply p c).pbs[p].tmoFrom = some (updateApply p c).now := by
    rw [updateApply_due hp hd]
    exact applyUpd_tmoFrom (c := updPb p (fun b => { b with pend := [] }) c) hs hlo hhi
  rw [timeout, ha]
  exact if_pos (.inr (.inr (.inr ht)))

/-- A timeout stops the motion that an encoder or a Hall sensor measures (R44). -/
theorem timeout_stops {p : Fin 8} {c : Chip} (h : Expiring c p) (hsrc : pbSrc c p = 1 ∨ pbSrc c p = 2) :
    let d := timeout p c
    d.reg (pbR p 0x14) = 0 ∧ d.bit (pbR p 8) 4 = true ∧ d.pbs[p].slew = none ∧ d.pbs[p].acc = c.pbs[p].acc ∧
    d.pbs[p].tmoFrom = none ∧ ∀ a, a ∉ [pbR p 8, pbR p 0x14] → d.reg a = c.reg a := by
  have hv (x : Chip) : setVBHard p 0 x = (updPb p (fun b => { b with filtAt := some x.now }) x).setReg (pbR p 0x14) (wordI 0) :=
    setVB_allowed fun _ => le_refl _
  simp only [timeout_expires h, if_pos hsrc, hv]
  refine ⟨by simp [slewCancel]; rfl, Chip.bit_setBits_pow _ _ (by decide), by simp, by simp, by simp, fun a ha => ?_⟩
  obtain ⟨h8, h14⟩ : a ≠ pbR p 8 ∧ a ≠ pbR p 0x14 := by simpa using ha
  simp [Chip.reg_setBits_ne, slewCancel_reg, Chip.reg_setReg_ne, h8, h14]

/-- Any other phase base goes on without updates: from TRACK into COAST, with the LOSS fault (R44). -/
theorem timeout_coasts {p : Fin 8} {c : Chip} (h : Expiring c p) (h1 : pbSrc c p ≠ 1) (h2 : pbSrc c p ≠ 2)
    (hs : pbState c p = 2) :
    let d := timeout p c
    pbState d p = 3 ∧ d.bit (pbR p 8) 8 = true ∧ d.pbs[p].slew = none ∧ d.pbs[p].acc = c.pbs[p].acc := by
  have hstat (x : Chip) := pbFault_pbR p 0 8 x (by decide)
  simp only [timeout_expires h, h1, h2, hs, or_self, if_false, if_true]
  refine ⟨?_, ?_, by simp, by simp⟩
  · rw [pbState_congr (hstat _), pbState_setBits _ _ rfl, pbState_setPbState]
  · rw [Chip.bit, hstat]
    exact Chip.bit_setBits_pow _ _ (by decide)

/-- In ACQUIRE a timeout gives the LOSS fault alone (R44). -/
theorem timeout_inAcquire {p : Fin 8} {c : Chip} (h : Expiring c p) (h1 : pbSrc c p ≠ 1) (h2 : pbSrc c p ≠ 2)
    (hs : pbState c p = 1) :
    let d := timeout p c
    pbState d p = 1 ∧ d.bit (pbR p 8) 8 = true ∧ d.pbs[p] = { c.pbs[p] with tmoFrom := none } := by
  have hstat (x : Chip) := pbFault_pbR p 0 8 x (by decide)
  have ht : timeout p c = pbFault p 0 (tmoStop p c) := by simp [timeout_expires h, h1, h2, hs]
  simp only [ht]
  refine ⟨?_, ?_, by simp⟩
  · rw [pbState_congr (hstat _), pbState_setBits _ _ rfl]
    exact hs
  · rw [Chip.bit, hstat]
    exact Chip.bit_setBits_pow _ _ (by decide)

/-- A stale update leaves its mark and STALE, and nothing else of the phase base moves (R39). -/
theorem applyUpd_stale_spec {p : Fin 8} {u : PbUpdate} {c : Chip} (h0 : pbState c p ≠ 0)
    (ha : stampAge c u.t < 0 ∨ 65535 < stampAge c u.t) :
    let d := applyUpd p u c
    d.pbs[p].pend = c.pbs[p].pend ∧ d.pbs[p].acc = c.pbs[p].acc ∧ d.pbs[p].jump = c.pbs[p].jump ∧
    d.pbs[p].nAcc = c.pbs[p].nAcc ∧ d.bit (pbR p 8) 13 = true ∧ ∀ a, a ∉ [pbR p 8] → d.reg a = c.reg a := by
  obtain ⟨ts, hn⟩ := noted_pb p u c
  simp only [applyUpd_stale h0 ha, Chip.setBits_pbs, hn, true_and]
  refine ⟨Chip.bit_setBits_pow _ _ (by decide), fun a h => ?_⟩
  have h8 : a ≠ pbR p 8 := by simpa using h
  rw [Chip.reg_setBits_ne _ _ h8, noted_reg_ne _ _ _ h8]

/-- An error beyond PB_CATCH in TRACK is counted for the JLIM fault, and the update is not taken (R40). -/
theorem applyUpd_jlim_spec {p : Fin 8} {u : PbUpdate} {c : Chip} (hs : pbState c p = 2) (hlo : 0 ≤ stampAge c u.t)
    (hhi : stampAge c u.t ≤ 65535) (hl : c.fld (pbR p 0x2C) 0 20 ≠ 0)
    (he : (c.fld (pbR p 0x2C) 0 20 * 2 ^ 16 : Nat) < absI (updErr (updMarks p u c) p u)) :
    let d := applyUpd p u c
    d.pbs[p].jump = c.pbs[p].jump ∧ d.pbs[p].nAcc = c.pbs[p].nAcc ∧ d.pbs[p].jlims = c.pbs[p].jlims + 1 ∧
    d.reg (pbR p 0x3C) = c.reg (pbR p 0x3C) := by
  obtain ⟨ts, hn⟩ := noted_pb p u c
  have hj : (judged p u c).pbs[p.val] = { c.pbs[p] with bound := u.bound.or c.pbs[p].bound, taken := ts } := hn
  rw [applyUpd_inTime (by omega) hlo hhi, if_pos ⟨hs, hl, he⟩]
  refine ⟨by simp [hj], by simp [hj], by simp [hj], ?_⟩
  exact judged_reg p u c (by simp) (by simp)

/-- A slew whose steps have all been applied ends (R41). -/
theorem slewEndNow_done {p : Fin 8} {c : Chip} {sl : Slew} (hs : c.pbs[p].slew = some sl) (hd : slewDone sl = true) :
    let d := slewEndNow p c
    d.pbs[p].slew = none ∧ d.bit (pbR p 8) 3 = false ∧ d.pbs[p].acc = c.pbs[p].acc ∧ ∀ a, a ∉ [pbR p 8] → d.reg a = c.reg a := by
  have h : slewEndNow p c = slewCancel p c := by rw [slewEndNow, hs]; exact if_pos hd
  rw [h]
  exact ⟨by simp, slewCancel_slewing p c, by simp, fun a ha => slewCancel_reg p c (by simpa using ha)⟩

/-- A revolution is told in REVF, and REV is taken (R36). -/
theorem revNow_spec (p : Fin 8) (c : Chip) :
    let d := revNow p c
    d.bit (pbR p 8) 16 = true ∧ d.pbs[p].prevRev = revOf c p ∧ ∀ a, a ∉ [pbR p 8] → d.reg a = c.reg a := by
  refine ⟨?_, by simp [revNow], fun a h => ?_⟩
  · rw [Chip.bit, revNow, pbEvent_reg]
    exact Chip.bit_setBits_pow _ _ (by decide)
  · rw [revNow, pbEvent_reg, Chip.reg_setBits_ne _ _ (by simpa using h), Chip.reg_updPb]

/-- A phase base's record after its own update. -/
theorem updPb_at (p : Fin 8) (f : PhaseBase → PhaseBase) (c : Chip) : (updPb p f c).pbs[p] = f c.pbs[p] := vmod_get c.pbs p f

/-- Settles O30: the application of an update by the phase base's state and the update's age, then the end of a slew, the
timeout and the revolution. -/
theorem updatesAndTimeouts : Obligations.UpdatesAndTimeouts := by
  unfold Obligations.UpdatesAndTimeouts
  intro s p u rest sl back hr c b c1 age
  refine ⟨fun hp hd hs => ?_, fun hsl hd => goes_onChip hr rfl (slewEndNow_done hsl hd), fun hs hrun hn hc hd => ?_, fun hd hi => ?_,
    goes_onChip hr rfl (revNow_spec p c)⟩
  · have hap : updateApply p c = applyUpd p u (updPb p (fun x => { x with pend := rest }) c) := updateApply_due hp hd
    refine ⟨fun h1 hf hlo hhi => goes_onChip hr rfl ?_, fun ha => goes_onChip hr rfl ?_,
      fun h2 hlo hhi hl he => goes_onChip hr rfl ?_, ?_⟩
    · have h := applyUpd_acquire (c := updPb p (fun x => { x with pend := rest }) c) h1 hf hlo hhi
      simp only [← hap, updPb_at, entersTrack] at h
      obtain ⟨hpend, hacc, -, hjump, hcount, htmo, hst, hcnt, hbit⟩ := h
      exact ⟨hpend, hacc, hjump, hcount, htmo, hst, hcnt, hbit⟩
    · have h := applyUpd_stale_spec (c := updPb p (fun x => { x with pend := rest }) c) hs ha
      simp only [← hap, updPb_at] at h
      exact h
    · have h := applyUpd_jlim_spec (c := updPb p (fun x => { x with pend := rest }) c) h2 hlo hhi hl he
      simp only [← hap, updPb_at] at h
      exact h
    · rintro rfl h1 hlo hhi
      exact onChip_congr (timeout_of_accepted hp hd h1 hlo hhi)
  · have h : Expiring c p := ⟨hs, hrun, hn, hc, hd⟩
    exact ⟨fun hsrc => goes_onChip hr rfl (timeout_stops h hsrc), fun h1 h2 h3 => goes_onChip hr rfl (timeout_coasts h h1 h2 h3),
      fun h1 h2 h3 => goes_onChip hr rfl (timeout_inAcquire h h1 h2 h3)⟩
  · exact onChip_same hr (timeout_idle hd hi)

end Sys2Proof.Machine

/-! PROOFS. Phase bases: the writes of their registers (02 R38, R53, R56, R64). -/

namespace Sys2Proof.Machine

/-! ### Writes of a phase base's registers (R38, R53, R56, R64) -/

theorem discOn_congr {c d : Chip} {p : Fin 8} (h : d.reg (pbR p 0x64) = c.reg (pbR p 0x64)) : discOn d p = discOn c p := by
  rw [discOn, discOn, Chip.bit, Chip.bit, Chip.fld, Chip.fld, h]

/-- PB_CFG keeps the source that a write gives it. -/
theorem Word.src_and (v : Word) : (v &&& 0xFFF).fld 1 3 = v.fld 1 3 := by
  have h : (v &&& 0xFFF).toNat = v.toNat % 2 ^ 12 := by
    rw [BitVec.toNat_and]; exact Nat.and_two_pow_sub_one_eq_mod _ 12
  simp only [Word.fld, h, Nat.shiftRight_eq_div_pow]
  omega

theorem pbUndo_nothing {p : Fin 8} {c : Chip} (h : takenNow c p = []) : pbUndo p c = c := by rw [pbUndo, h]

/-- Updates taken back leave the phase base as the first of them found it (R56). -/
theorem pbUndo_taken {p : Fin 8} {c : Chip} {x : PbTaken} {xs : List PbTaken} (h : takenNow c p = x :: xs) :
    let d := pbUndo p c
    d.now = c.now ∧
    d.pbs[p] = { c.pbs[p] with jump := x.jump, slew := x.slew, prevUpd := x.prevUpd, nAcc := x.nAcc, tmoFrom := x.tmoFrom,
                               bound := x.bound, filtAt := x.filtAt, taken := [], jlims := 0 } ∧
    d.reg (pbR p 0x3C) = x.cnt ∧
    ∀ a, a ∉ [pbR p 8, pbR p 0x14, pbR p 0x38, pbR p 0x3C] → d.reg a = c.reg a := by
  have hreg (n : Nat) (d : Chip) (a : Nat) : (evCancel n d).reg a = d.reg a := Chip.reg_congr (evCancel_regs n d) a
  rw [pbUndo, h]
  dsimp only
  refine ⟨?_, ?_, by simp, fun a ha => ?_⟩
  · split <;> split <;> simp
  · split <;> split <;> simp
  · obtain ⟨h8, h14, h38, h3C⟩ : a ≠ pbR p 8 ∧ a ≠ pbR p 0x14 ∧ a ≠ pbR p 0x38 ∧ a ≠ pbR p 0x3C := by simpa using ha
    split <;> split <;> simp [Chip.reg_setReg_ne, hreg, h8, h14, h38, h3C]

theorem enterAcquire_pb (p : Fin 8) (c : Chip) :
    (enterAcquire p c).pbs[p.val] = { c.pbs[p.val] with nAcc := 0, prevUpd := none, tmoFrom := some c.now } := by
  simp [enterAcquire]
theorem enterAcquire_reg (p : Fin 8) (c : Chip) {a : Nat} (h : a ≠ pbR p 8) : (enterAcquire p c).reg a = c.reg a :=
  setPbState_reg p stAcquire c h
theorem pbState_enterAcquire (p : Fin 8) (c : Chip) : pbState (enterAcquire p c) p = 1 := pbState_setPbState p stAcquire c

@[simp] theorem schResidues_regs (p : Fin 8) (c : Chip) : (schResidues p c).regs = c.regs := rfl
@[simp] theorem schResidues_pbs (p : Fin 8) (c : Chip) : (schResidues p c).pbs = c.pbs := rfl

/-- ACQUIRE, entered with the levels of the decoders taken as they stand. -/
def acquiring (p : Fin 8) (c : Chip) : Chip := enterAcquire p (sensLevels p (updPb p (fun x => { x with takeAt := some c.now }) c))

/-- The state with which a phase base starts: TRACK for a TIME source without discipline. -/
def started (p : Fin 8) (c : Chip) : Chip :=
  if pbSrc (acquiring p c) p = srcTime ∧ !discOn (acquiring p c) p then setPbState p stTrack (acquiring p c) else acquiring p c

theorem acquiring_reg (p : Fin 8) (c : Chip) {a : Nat} (h : a ≠ pbR p 8) : (acquiring p c).reg a = c.reg a := enterAcquire_reg p _ h

theorem started_reg (p : Fin 8) (c : Chip) {a : Nat} (h : a ≠ pbR p 8) : (started p c).reg a = c.reg a := by
  rw [started]
  split
  · rw [setPbState_reg _ _ _ h, acquiring_reg p c h]
  · exact acquiring_reg p c h

theorem started_pbs (p : Fin 8) (c : Chip) : (started p c).pbs = (acquiring p c).pbs := by rw [started]; split <;> rfl

theorem pbState_started (p : Fin 8) (c : Chip) : pbState (started p c) p = if pbSrc c p = 0 ∧ discOn c p = false then 2 else 1 := by
  have hsrc : pbSrc (acquiring p c) p = pbSrc c p := (pbCfg_congr (acquiring_reg p c (by simp))).2.1
  have hdisc : discOn (acquiring p c) p = discOn c p := discOn_congr (acquiring_reg p c (by simp))
  rw [started, hsrc, hdisc]
  simp only [srcTime, Bool.not_eq_true']
  split
  · exact pbState_setPbState _ _ _
  · exact pbState_enterAcquire _ _

/-- Enabling a phase base enters ACQUIRE, or TRACK where there is nothing to acquire, and keeps the angle (R38). -/
theorem pbStart_spec (p : Fin 8) (c : Chip) :
    let d := pbStart p c
    pbState d p = (if pbSrc c p = 0 ∧ discOn c p = false then 2 else 1) ∧ d.pbs[p].acc = c.pbs[p].acc ∧ d.pbs[p].nAcc = 0 ∧
    d.pbs[p].pend = [] ∧ d.pbs[p].tmoFrom = some c.now ∧ ∀ a, a ≠ pbR p 8 → d.reg a = c.reg a := by
  obtain ⟨P, b, h⟩ : ∃ P b, pbStart p c = schResidues p (updPb p (fun x =>
      { x with encP := P, bound := b, pend := [], excFrom := (started p c).now, excPhi := 0, excLast := 0, excGrid := (started p c).now })
      (started p c)) := ⟨_, _, rfl⟩
  have hreg (a : Nat) : (pbStart p c).reg a = (started p c).reg a := by rw [h]; rfl
  refine ⟨(pbState_congr (hreg _)).trans (pbState_started p c), ?_, ?_, ?_, ?_, fun a ha => (hreg a).trans (started_reg p c ha)⟩
  all_goals simp [h, started_pbs, acquiring, enterAcquire_pb, sensLevels]

/-- Disabling a phase base (R38) that no update has met in the cycle, or once such updates are taken back. -/
theorem pbStop_spec (p : Fin 8) (c : Chip) :
    let u := pbUndo p c
    let d := pbStop p c
    pbState d p = 0 ∧ d.bit (pbR p 8) 3 = false ∧ d.pbs[p].acc = u.pbs[p].acc ∧ d.pbs[p].jump = u.pbs[p].jump ∧
    d.pbs[p].slew = none ∧ d.pbs[p].pend = [] ∧ ∀ a, a ≠ pbR p 8 → d.reg a = u.reg a := by
  have hreg (a : Nat) : (pbStop p c).reg a = (slewCancel p (setPbState p stOff (pbUndo p c))).reg a := rfl
  refine ⟨?_, ?_, ?_, ?_, ?_, ?_, fun a ha => ?_⟩
  · rw [pbState_congr (hreg _), slewCancel_state, pbState_setPbState]
    rfl
  · rw [Chip.bit, hreg]
    exact slewCancel_slewing _ _
  · simp [pbStop]
  · simp [pbStop]
  · simp [pbStop]
  · simp [pbStop]
  · rw [hreg, slewCancel_reg _ _ ha, setPbState_reg _ _ _ ha]

/-- A write of PB_CFG that sets EN stores the word and starts the phase base. -/
theorem pbCfgWrite_enable {p : Fin 8} {v : Word} {c : Chip} (hs : c.sealed = false) (hv : v.fld 1 3 ≠ 7) (h1 : v.bit 0 = true)
    (hen : pbEn c p = false) : pbCfgWrite p v c = pbStart p (c.setReg (pbR p 0) (v &&& 0xFFF)) := by
  simp [pbCfgWrite, hs, hv, h1, hen]

/-- A write of PB_CFG that clears EN stores the word and stops the phase base. -/
theorem pbCfgWrite_disable {p : Fin 8} {v : Word} {c : Chip} (hs : c.sealed = false) (hv : v.fld 1 3 ≠ 7) (h0 : v.bit 0 = false)
    (hen : pbEn c p = true) : pbCfgWrite p v c = pbStop p (c.setReg (pbR p 0) (v &&& 0xFFF)) := by
  simp [pbCfgWrite, hs, hv, h0, hen]

/-- PB_ENABLE (R38). -/
theorem pbEnable_spec {p : Fin 8} {v : Word} {c : Chip} (hs : c.sealed = false) (hv : v.fld 1 3 ≠ 7) (h1 : v.bit 0 = true)
    (hen : pbEn c p = false) :
    let d := pbCfgWrite p v c
    d.reg (pbR p 0) = v &&& 0xFFF ∧ pbState d p = (if v.fld 1 3 = 0 ∧ discOn c p = false then 2 else 1) ∧
    d.pbs[p].acc = c.pbs[p].acc ∧ d.pbs[p].nAcc = 0 ∧ d.pbs[p].pend = [] ∧ d.pbs[p].tmoFrom = some c.now ∧
    ∀ a, a ∉ [pbR p 0, pbR p 8] → d.reg a = c.reg a := by
  obtain ⟨hst, hacc, hn, hpend, htmo, hreg⟩ := pbStart_spec p (c.setReg (pbR p 0) (v &&& 0xFFF))
  have hsrc : pbSrc (c.setReg (pbR p 0) (v &&& 0xFFF)) p = v.fld 1 3 := by
    rw [pbSrc, Chip.fld, Chip.reg_setReg_self, Word.src_and]
  rw [hsrc, discOn_congr (c.reg_setReg_ne _ (by simp))] at hst
  rw [pbCfgWrite_enable hs hv h1 hen]
  refine ⟨?_, hst, hacc, hn, hpend, htmo, fun a ha => ?_⟩
  · rw [hreg _ (by simp), Chip.reg_setReg_self]
  · obtain ⟨h0, h8⟩ : a ≠ pbR p 0 ∧ a ≠ pbR p 8 := by simpa using ha
    rw [hreg a h8, Chip.reg_setReg_ne _ _ h0]

/-- What stopping a phase base leaves of a cycle without updates, and of one whose updates it discards (R38, R56). -/
theorem pbStop_jump (p : Fin 8) (c : Chip) :
    let d := pbStop p c
    d.pbs[p].acc = c.pbs[p].acc ∧
    (takenNow c p = [] → d.pbs[p].jump = c.pbs[p].jump ∧ ∀ a, a ∉ [pbR p 8] → d.reg a = c.reg a) ∧
    (∀ x xs, takenNow c p = x :: xs → d.pbs[p].jump = x.jump ∧ d.reg (pbR p 0x3C) = x.cnt ∧
      ∀ a, a ∉ [pbR p 8, pbR p 0x14, pbR p 0x38, pbR p 0x3C] → d.reg a = c.reg a) := by
  obtain ⟨-, -, hacc, hjump, -, -, hreg⟩ := pbStop_spec p c
  refine ⟨?_, fun ht => ?_, fun x xs ht => ?_⟩
  · cases ht : takenNow c p with
    | nil => rw [hacc, pbUndo_nothing ht]
    | cons x xs => rw [hacc, (pbUndo_taken ht).2.1]
  · rw [pbUndo_nothing ht] at hjump hreg
    exact ⟨hjump, fun a ha => hreg a (by simpa using ha)⟩
  · obtain ⟨-, hpb, hcnt, hun⟩ := pbUndo_taken ht
    rw [hpb] at hjump
    exact ⟨hjump, (hreg _ (by simp)).trans hcnt, fun a ha => (hreg a (by simp_all)).trans (hun a ha)⟩

/-- PB_DISABLE (R38): the angle holds; the updates of the cycle are discarded (R56). -/
theorem pbDisable_spec {p : Fin 8} {v : Word} {c : Chip} (hs : c.sealed = false) (hv : v.fld 1 3 ≠ 7) (h0 : v.bit 0 = false)
    (hen : pbEn c p = true) :
    let d := pbCfgWrite p v c
    d.reg (pbR p 0) = v &&& 0xFFF ∧ pbState d p = 0 ∧ d.bit (pbR p 8) 3 = false ∧ d.pbs[p].acc = c.pbs[p].acc ∧
    d.pbs[p].slew = none ∧ d.pbs[p].pend = [] ∧
    (takenNow c p = [] → d.pbs[p].jump = c.pbs[p].jump ∧ ∀ a, a ∉ [pbR p 0, pbR p 8] → d.reg a = c.reg a) ∧
    (∀ x xs, takenNow c p = x :: xs → d.pbs[p].jump = x.jump ∧ d.reg (pbR p 0x3C) = x.cnt ∧
      ∀ a, a ∉ [pbR p 0, pbR p 8, pbR p 0x14, pbR p 0x38, pbR p 0x3C] → d.reg a = c.reg a) := by
  obtain ⟨hst, hslw, -, -, hslew, hpend, -⟩ := pbStop_spec p (c.setReg (pbR p 0) (v &&& 0xFFF))
  obtain ⟨hacc, hquiet, htaken⟩ := pbStop_jump p (c.setReg (pbR p 0) (v &&& 0xFFF))
  have hne {a : Nat} (h : a ≠ pbR p 0) : (c.setReg (pbR p 0) (v &&& 0xFFF)).reg a = c.reg a := c.reg_setReg_ne _ h
  rw [pbCfgWrite_disable hs hv h0 hen]
  refine ⟨?_, hst, hslw, hacc, hslew, hpend, fun ht => ?_, fun x xs ht => ?_⟩
  · cases ht : takenNow c p with
    | nil => rw [(hquiet ht).2 _ (by simp), Chip.reg_setReg_self]
    | cons x xs => rw [(htaken x xs ht).2.2 _ (by simp), Chip.reg_setReg_self]
  · obtain ⟨hj, hreg⟩ := hquiet ht
    exact ⟨hj, fun a ha => (hreg a (by simp_all)).trans (hne (by simp_all))⟩
  · obtain ⟨hj, hcnt, hreg⟩ := htaken x xs ht
    exact ⟨hj, hcnt, fun a ha => (hreg a (by simp_all)).trans (hne (by simp_all))⟩

/-- ACQUIRE is entered again: no update counts as accepted, and a slew ends (R38). -/
def reacquired (p : Fin 8) (c : Chip) : Chip := enterAcquire p (slewCancel p (pbUndo p c))

theorem pbCtlWrite_acq {p : Fin 8} {v : Word} {c : Chip} (h1 : v.bit 0 = true) (hs : pbState c p ≠ 0) :
    pbCtlWrite p v c = (takenNow c p).foldl (fun c x => applyUpd p x.u c) (reacquired p c) := by
  simp [pbCtlWrite, h1, stOff, hs, reacquired]

theorem reacquired_reg (p : Fin 8) (c : Chip) {a : Nat} (h : a ≠ pbR p 8) : (reacquired p c).reg a = (pbUndo p c).reg a := by
  rw [reacquired, enterAcquire_reg _ _ h, slewCancel_reg _ _ h]

theorem reacquired_pb (p : Fin 8) (c : Chip) : (reacquired p c).pbs[p.val] =
    { (pbUndo p c).pbs[p.val] with slew := none, nAcc := 0, prevUpd := none, tmoFrom := some (pbUndo p c).now } := by
  simp [reacquired, enterAcquire_pb]

theorem pbState_reacquired (p : Fin 8) (c : Chip) : pbState (reacquired p c) p = 1 := pbState_enterAcquire p _

/-- ACQ in a cycle without updates (R38). -/
theorem acq_quiet {p : Fin 8} {v : Word} {c : Chip} (h1 : v.bit 0 = true) (hs : pbState c p ≠ 0) (ht : takenNow c p = []) :
    let d := pbCtlWrite p v c
    pbState d p = 1 ∧ d.pbs[p].nAcc = 0 ∧ d.pbs[p].prevUpd = none ∧ d.pbs[p].slew = none ∧ d.pbs[p].acc = c.pbs[p].acc ∧
    ∀ a, a ∉ [pbR p 8] → d.reg a = c.reg a := by
  have hw : pbCtlWrite p v c = reacquired p c := by rw [pbCtlWrite_acq h1 hs, ht, List.foldl_nil]
  rw [hw]
  have hreg (a : Nat) (ha : a ∉ [pbR p 8]) : (reacquired p c).reg a = c.reg a := by
    rw [reacquired_reg p c (by simpa using ha), pbUndo_nothing ht]
  refine ⟨pbState_reacquired p c, ?_, ?_, ?_, ?_, hreg⟩
  all_goals simp [reacquired_pb, pbUndo_nothing ht]

/-- ACQ in the cycle of an update, which is then the first one accepted in ACQUIRE (R56). -/
theorem acq_taken {p : Fin 8} {v : Word} {c : Chip} {x : PbTaken} (h1 : v.bit 0 = true) (hs : pbState c p ≠ 0)
    (ht : takenNow c p = [x]) (hf : pbFwd c p = false) (hlo : 0 ≤ stampAge c x.u.t) (hhi : stampAge c x.u.t ≤ 65535) :
    let d := pbCtlWrite p v c
    pbState d p = (if pbSrc c p = 1 ∧ c.bit (pbR p 0x40) 6 = true ∧ x.u.isZ = true then 2 else 1) ∧ d.pbs[p].nAcc = 1 ∧
    d.reg (pbR p 0x3C) = x.cnt + 1 ∧ d.pbs[p].slew = none ∧ d.pbs[p].acc = c.pbs[p].acc := by
  have hw : pbCtlWrite p v c = applyUpd p x.u (reacquired p c) := by
    rw [pbCtlWrite_acq h1 hs, ht, List.foldl_cons, List.foldl_nil]
  obtain ⟨hnow, hpb, hcnt, hreg⟩ := pbUndo_taken ht
  have hreg' {off : Nat} (h : off ∉ [8, 0x14, 0x38, 0x3C]) : (reacquired p c).reg (pbR p off) = c.reg (pbR p off) := by
    rw [reacquired_reg p c (by simp_all), hreg _ (by simp_all)]
  obtain ⟨-, hsrc, hfwd⟩ := pbCfg_congr (hreg' (off := 0) (by decide))
  have hage : stampAge (reacquired p c) x.u.t = stampAge c x.u.t := stampAge_congr hnow _
  have hpb' : (reacquired p c).pbs[p] = _ := reacquired_pb p c
  obtain ⟨-, hacc, hslew, -, hn, -, hst, hcnt', -⟩ := applyUpd_acquire (u := x.u) (pbState_reacquired p c) (hfwd.trans hf)
    (hage ▸ hlo) (hage ▸ hhi)
  rw [hw]
  refine ⟨?_, ?_, ?_, hslew, ?_⟩
  · have hent : entersTrack (reacquired p c) p x.u = true ↔ pbSrc c p = 1 ∧ c.bit (pbR p 0x40) 6 = true ∧ x.u.isZ = true := by
      have hn0 : (reacquired p c).pbs[p].nAcc = 0 := by rw [hpb']
      have hzen : (reacquired p c).bit (pbR p 0x40) 6 = c.bit (pbR p 0x40) 6 := by rw [Chip.bit, Chip.bit, hreg' (by decide)]
      rw [entersTrack, hsrc, hzen, hn0]
      split
      · next h => simp [h]
      · next h => simpa using fun h1 h2 => absurd ⟨h1, h2⟩ h
    rw [hst]
    exact if_congr hent rfl rfl
  · rw [hn, hpb']
  · rw [hcnt', reacquired_reg p c (by simp), hcnt]
  · have hu : (pbUndo p c).pbs[p].acc = c.pbs[p].acc := by rw [hpb]
    rw [hacc, hpb']
    exact hu

/-- PB_ANG of a phase base that is off (R64). -/
theorem pbAngWrite_off {p : Fin 8} {v : Word} {c : Chip} (hs : c.sealed = false) (hen : pbEn c p = false) :
    let d := pbAngWrite p v c
    d.pbs[p].acc = v.setWidth 48 <<< 16 ∧ d.regs = c.regs := by
  simp [pbAngWrite, hs, hen]

/-- An update handed over waits at the end of the line, and its application is scheduled (R45). -/
@[simp] theorem pushUpd_pb (p : Fin 8) (m : BitVec 36) (t : Word) (d : Nat) (z i : Bool) (b : Option (BitVec 36 × BitVec 36))
    (c : Chip) : (pushUpd p m t d z i b c).pbs[p.val] = { c.pbs[p.val] with
      pend := c.pbs[p.val].pend ++ [{ m := m, t := t, due := c.now + d, isZ := z, idx := i, bound := b, seen := c.now }] } :=
  updPb_get _ _ _

@[simp] theorem pushUpd_agenda (p : Fin 8) (m : BitVec 36) (t : Word) (d : Nat) (z i : Bool) (b : Option (BitVec 36 × BitVec 36))
    (c : Chip) : (pushUpd p m t d z i b c).agenda = c.agenda ++ [(c.now + d, .updateApply p)] := rfl

@[simp] theorem pushUpd_regs (p : Fin 8) (m : BitVec 36) (t : Word) (d : Nat) (z i : Bool) (b : Option (BitVec 36 × BitVec 36))
    (c : Chip) : (pushUpd p m t d z i b c).regs = c.regs := rfl

/-- The stamp that SWSTAMP gives an update of PB_SWANG: the time, PB_SWSTAMP, or the last pulse before the cycle (R53). -/
theorem swangWrite_stamped {p : Fin 8} {v : Word} {c : Chip} (n : Nat) (stamp : Word) (hen : pbEn c p = true) (hsrc : pbSrc c p = 6)
    (h03 : c.fld (pbR p 0) 6 2 = 0 ∨ c.fld (pbR p 0) 6 2 = 3 → stamp = c.capTime)
    (h1 : c.fld (pbR p 0) 6 2 = 1 → stamp = c.reg (pbR p 0x70))
    (h2 : c.fld (pbR p 0) 6 2 = 2 → c.pbs[p].evcPulse = some n ∧ n ≠ c.now ∧ stamp = BitVec.ofNat 32 n) :
    swangWrite p v c = pushUpd p (BitVec.ofNat 36 (v.fld 0 20 * 2 ^ 16)) stamp 2 false false none c := by
  have hlt : c.fld (pbR p 0) 6 2 < 4 := Word.fld_lt _ _ _
  have hon : (!(pbEn c p && pbSrc c p == srcSoft)) = false := by simp [hen, hsrc, srcSoft]
  unfold swangWrite
  rw [hon]
  interval_cases hm : c.fld (pbR p 0) 6 2
  · rw [h03 (.inl rfl)]; rfl
  · rw [h1 rfl]; rfl
  · obtain ⟨hp, hne, rfl⟩ := h2 rfl
    have hb : pulseBefore c p = some n := by simp only [pulseBefore, hp, Option.some.injEq, hne, if_false]
    simp only [hb]; rfl
  · rw [h03 (.inr rfl)]; rfl

/-- PB_SWANG hands an update over with its stamp (R53). -/
theorem swangWrite_spec {p : Fin 8} {v : Word} {c : Chip} (n : Nat) (stamp : Word) (hen : pbEn c p = true) (hsrc : pbSrc c p = 6)
    (h03 : c.fld (pbR p 0) 6 2 = 0 ∨ c.fld (pbR p 0) 6 2 = 3 → stamp = c.capTime)
    (h1 : c.fld (pbR p 0) 6 2 = 1 → stamp = c.reg (pbR p 0x70))
    (h2 : c.fld (pbR p 0) 6 2 = 2 → c.pbs[p].evcPulse = some n ∧ n ≠ c.now ∧ stamp = BitVec.ofNat 32 n) :
    let d := swangWrite p v c
    d.pbs[p].pend = c.pbs[p].pend ++ [plainUpdate c.now 2 (BitVec.ofNat 36 (v.fld 0 20 * 2 ^ 16)) stamp] ∧
    d.agenda = c.agenda ++ [(c.now + 2, .updateApply p)] ∧ d.regs = c.regs := by
  rw [swangWrite_stamped n stamp hen hsrc h03 h1 h2]
  simp [plainUpdate]

/-- VB takes the value of PB_SWVEL, which forward-only lets through where it is not negative (R53, R43). -/
theorem swvelWrite_allowed {p : Fin 8} {v : Word} {c : Chip} (hsrc : pbSrc c p = 6) (hf : pbFwd c p = true → 0 ≤ v.toInt) :
    let d := swvelWrite p v c
    d.reg (pbR p 0x14) = v ∧ d.pbs[p].acc = c.pbs[p].acc ∧ ∀ a, a ∉ [pbR p 0x14] → d.reg a = c.reg a := by
  have h : swvelWrite p v c = (updPb p (fun b => { b with swvelAt := some c.now }) c).setReg (pbR p 0x14) v := by
    rw [swvelWrite, if_pos (show pbSrc c p = srcSoft from hsrc)]
    exact (setVB_allowed (by exact hf)).trans (by rw [wordI, BitVec.ofInt_toInt])
  rw [h]
  exact ⟨Chip.reg_setReg_self _ _ _, by simp, fun a ha => Chip.reg_setReg_ne _ _ (by simpa using ha)⟩

/-- Under forward-only a negative velocity is held at 0, with the REVERSE fault (R43). -/
theorem swvelWrite_reverse {p : Fin 8} {v : Word} {c : Chip} (hsrc : pbSrc c p = 6) (hf : pbFwd c p = true) (hv : v.toInt < 0) :
    let d := swvelWrite p v c
    d.reg (pbR p 0x14) = 0 ∧ d.bit (pbR p 8) 11 = true ∧ d.pbs[p].acc = c.pbs[p].acc := by
  have h : swvelWrite p v c = pbFault p 3 ((updPb p (fun b => { b with swvelAt := some c.now }) c).setReg (pbR p 0x14) 0) := by
    rw [swvelWrite, if_pos (show pbSrc c p = srcSoft from hsrc)]
    exact setVB_reverse (by exact hf) hv
  rw [h]
  refine ⟨by simp [pbFault_pbR], ?_, by simp⟩
  rw [Chip.bit, pbFault_pbR _ _ _ _ (by decide)]
  exact Chip.bit_setBits_pow _ _ (by decide)

/-- Settles O28: what each write does to the chip that has acknowledged it. -/
theorem phaseBaseCommands : Obligations.PhaseBaseCommands := by
  unfold Obligations.PhaseBaseCommands
  intro s ini p v hr c
  refine ⟨fun hg hs hv => ⟨fun h1 hen => ?_, fun h0 hen => ?_⟩, fun hg h1 hst => ⟨fun ht => ?_, fun x ht hf hlo hhi => ?_⟩,
    fun hg hs hen => ?_, fun hg hen hsrc n stamp h03 h1 h2 => ?_, fun hg hsrc hf => ?_, fun hg hsrc hf hv => ?_⟩
  all_goals refine goes_gatedWrite hr rfl hg ?_
  · exact pbEnable_spec (c := c.ack) hs hv h1 hen
  · exact pbDisable_spec (c := c.ack) hs hv h0 hen
  · exact acq_quiet (c := c.ack) h1 hst ht
  · exact acq_taken (c := c.ack) h1 hst ht hf hlo hhi
  · exact pbAngWrite_off (c := c.ack) hs hen
  · exact swangWrite_spec (c := c.ack) n stamp hen hsrc h03 h1 h2
  · exact swvelWrite_allowed (c := c.ack) hsrc hf
  · exact swvelWrite_reverse (c := c.ack) hsrc hf hv

end Sys2Proof.Machine

/-! PROOFS. Capture channels (02 R57 to R59): edges noted, records stored as the cycle ends, the reads of the queue. -/

namespace Sys2Proof.Machine

@[simp] theorem updCap_get (k : Fin 64) (f : Capture → Capture) (c : Chip) : (updCap k f c).caps[k.val] = f c.caps[k.val] :=
  vmod_get c.caps k f

/-- The decoders' look at their levels writes no register and leaves the capture channels alone. -/
theorem sense_keeps (p : Fin 8) (c : Chip) : (sense p c).regs = c.regs ∧ (sense p c).caps = c.caps := by
  unfold sense
  dsimp only
  split
  · exact ⟨rfl, rfl⟩
  · split
    · split <;> exact ⟨rfl, rfl⟩
    · split <;> exact ⟨rfl, rfl⟩

@[simp] theorem capSeen_regs (k : Nat) (c : Chip) : (capSeen k c).regs = c.regs :=
  foldl_keeps (·.regs) _ (fun c p => by split; exacts [(sense_keeps p c).1, rfl]) _ c

@[simp] theorem capSeen_caps (k : Nat) (c : Chip) : (capSeen k c).caps = c.caps :=
  foldl_keeps (·.caps) _ (fun c p => by split; exacts [(sense_keeps p c).2, rfl]) _ c

/-- Whether EDGE takes an edge, by its code. -/
theorem capTakes_eq (c : Chip) (k : Nat) (e : Bool) : capTakes c k e =
    ((capCfg c k).fld 10 2 == 2 || ((capCfg c k).fld 10 2 == 0 && e) || ((capCfg c k).fld 10 2 == 1 && !e)) := by
  have h : (capCfg c k).fld 10 2 < 4 := Word.fld_lt _ _ _
  unfold capTakes
  interval_cases (capCfg c k).fld 10 2 <;> simp

/-- An edge on an enabled channel that stamps its records toggles the level of source 0 and is noted where EDGE takes it (R57). -/
theorem captureNow_noted {k : Fin 64} (rise : Bool) {c : Chip} (hen : capEn c k = true) (ht : c.caps[k].takeAt ≠ some c.now)
    (hst : (capCfg c k).fld 12 2 ≠ 0) :
    let up := rise || capSrc c k == 0
    (captureNow k rise c).regs = c.regs ∧
    (captureNow k rise c).caps[k] = { c.caps[k] with
      level := if capSrc c k = 0 then !c.caps[k].level else c.caps[k].level,
      edges := if capTakes c k up then c.caps[k].edges ++ [up] else c.caps[k].edges } := by
  have ht' : ¬ c.caps[k.val].takeAt = some c.now := ht
  have hcfg (f : Capture → Capture) : capCfg (updCap k f c) k = capCfg c k := rfl
  have htakes (f : Capture → Capture) (e : Bool) : capTakes (updCap k f c) k e = capTakes c k e := rfl
  by_cases h0 : capSrc c k = 0
  · cases hu : capTakes c k true <;> simp [captureNow, hen, ht', h0, hcfg, htakes, hu, hst]
  · have h0' : (capSrc c k == 0) = false := by simpa using h0
    cases hu : capTakes c k rise <;> simp [captureNow, hen, ht', h0, h0', hu, hst]

/-- The level of source 0 starts anew in the cycle that takes a new input (R57). -/
theorem capTakeNow_level (k : Fin 64) (c : Chip) :
    (capTakeNow k c).caps[k].level = if c.caps[k].clearAt = some c.now then false else c.caps[k].level := by
  unfold capTakeNow
  split <;> simp

/-- A record that finds room enters the queue and tells of a loss before it (R59). -/
theorem capStore_room {k : Fin 64} (r : CapRec) {c : Chip} (h : c.caps[k].q.length < 4) :
    capStore k r c = updCap k (fun x => { x with q := x.q ++ [{ r with ovf := x.lost }], lost := false }) c := if_pos h

/-- A full queue sets the overflow bit and drops the newest record, or the oldest (R59). -/
theorem capStore_full {k : Fin 64} (r : CapRec) {c : Chip} (h : ¬ c.caps[k].q.length < 4) :
    capStore k r c = if (capCfg c k).bit 17 then updCap k (fun x => { x with lost := true }) (c.setBits (capR k 4) (2 ^ 3))
      else updCap k (fun x => { x with q := x.q.drop 1 ++ [{ r with ovf := true }], lost := false }) (c.setBits (capR k 4) (2 ^ 3)) :=
  if_neg h

/-- The one edge of a cycle is stored as the cycle ends. -/
theorem capLand_one {k : Fin 64} {rise : Bool} {c : Chip} (h : c.caps[k].edges = [rise]) :
    capLand k c = updCap k (fun x => { x with edges := [] }) (capStore k (capRecord c k rise) c) := by
  rw [capLand, h, List.foldl_cons, List.foldl_nil]

/-- What the one edge of a cycle leaves where its record finds room. -/
theorem capLand_room {k : Fin 64} {rise : Bool} {c : Chip} (h : c.caps[k].edges = [rise]) (hq : c.caps[k].q.length < 4) :
    let d := capLand k c
    d.caps[k].edges = [] ∧ d.caps[k].q = c.caps[k].q ++ [{ capRecord c k rise with ovf := c.caps[k].lost }] ∧
    d.caps[k].lost = false ∧ d.regs = c.regs := by
  rw [capLand_one h, capStore_room _ hq]
  simp

/-- What it leaves of a full queue: the overflow bit, and the oldest or the newest record dropped. -/
theorem capLand_full {k : Fin 64} {rise : Bool} {c : Chip} (h : c.caps[k].edges = [rise]) (hq : ¬ c.caps[k].q.length < 4) :
    let d := capLand k c
    d.caps[k].edges = [] ∧ d.bit (capR k 4) 3 = true ∧ (∀ a, a ≠ capR k 4 → d.reg a = c.reg a) ∧
    if (capCfg c k).bit 17 then d.caps[k].q = c.caps[k].q ∧ d.caps[k].lost = true
    else d.caps[k].q = c.caps[k].q.drop 1 ++ [{ capRecord c k rise with ovf := true }] := by
  have hreg (a : Nat) : (capLand k c).reg a = (c.setBits (capR k 4) (2 ^ 3)).reg a := by
    rw [capLand_one h, capStore_full _ hq]
    split <;> rfl
  refine ⟨by simp [capLand], ?_, fun a ha => (hreg a).trans (c.reg_setBits_ne _ ha), ?_⟩
  · rw [Chip.bit, hreg]
    exact c.bit_setBits_pow _ (by decide)
  · rw [capLand_one h, capStore_full _ hq]
    split <;> simp

/-- A read of CAP_RDT returns the oldest record and removes it; its angle and flags then stand in the registers beside (R59). -/
theorem capRead_oldest {k : Fin 64} {c : Chip} {r : CapRec} {rest : List CapRec} (h : c.caps[k].q = r :: rest) :
    (capRead k c).1 = r.time ∧ (capRead k c).2.caps[k].q = rest ∧ (capRead k c).2.reg (capR k 0xC) = r.ang ∧
    (capRead k c).2.reg (capR k 0x10) = BitVec.ofNat 32 (1 + 2 * r.rise.toNat + 4 * r.ovf.toNat) ∧
    ∀ a, a ∉ [capR k 0xC, capR k 0x10] → (capRead k c).2.reg a = c.reg a := by
  rw [capRead, h]
  refine ⟨rfl, by simp, ?_, Chip.reg_setReg_self _ _ _, fun a ha => ?_⟩
  · simp [Chip.reg_setReg]
  · obtain ⟨hC, h10⟩ : a ≠ capR k 0xC ∧ a ≠ capR k 0x10 := by simpa using ha
    simp [Chip.reg_setReg, hC, h10]

/-- A read of an empty queue returns 0. -/
theorem capRead_empty {k : Fin 64} {c : Chip} (h : c.caps[k].q = []) :
    (capRead k c).1 = 0 ∧ (capRead k c).2.reg (capR k 0xC) = 0 ∧ (capRead k c).2.reg (capR k 0x10) = 0 ∧
    ∀ a, a ∉ [capR k 0xC, capR k 0x10] → (capRead k c).2.reg a = c.reg a := by
  rw [capRead, h]
  refine ⟨rfl, ?_, Chip.reg_setReg_self _ _ _, fun a ha => ?_⟩
  · simp [Chip.reg_setReg]
  · obtain ⟨hC, h10⟩ : a ≠ capR k 0xC ∧ a ≠ capR k 0x10 := by simpa using ha
    simp [Chip.reg_setReg, hC, h10]

/-- Settles O31: an edge in its cycle, the level of a new input, the records at the cycle's end, and the reads. -/
theorem captureRecords : Obligations.CaptureRecords := by
  unfold Obligations.CaptureRecords
  intro s ini k rise r rest hr c v x up sel time ang record
  refine ⟨fun hen ht hst => goes_onChip hr rfl ?_, fun h => ?_, fun h => ?_, fun h => ?_,
    fun hg => ⟨fun hq => goes_gatedRead hr rfl hg ?_, fun hq => goes_gatedRead hr rfl hg ?_⟩⟩
  · have htakes : capTakes c k up = sel := capTakes_eq c k up
    rw [← htakes]
    exact captureNow_noted rise hen ht hst
  · rw [capTakeNow_level, if_pos h]
  · rw [capTakeNow_level, if_neg h]
  · by_cases hq : x.q.length < 4
    · obtain ⟨he, hroom⟩ := capLand_room h hq
      simp only [if_pos hq]
      exact ⟨he, hroom⟩
    · obtain ⟨he, hfull⟩ := capLand_full h hq
      simp only [if_neg hq]
      exact ⟨he, hfull⟩
  · obtain ⟨ht, hrest, hang, hflags, hreg⟩ := capRead_oldest (c := c) hq
    exact ⟨congrArg (fun w => Resp.mk true [w]) ht, hrest, hang, hflags, hreg⟩
  · obtain ⟨ht, hang, hflags, hreg⟩ := capRead_empty (c := c) hq
    exact ⟨congrArg (fun w => Resp.mk true [w]) ht, hang, hflags, hreg⟩

end Sys2Proof.Machine

/-! PROOFS. The sources of a phase base (02 R44 to R52): encoder, Hall sensor, tracker, grid observer and discipline pulse. -/

namespace Sys2Proof.Machine

/-! ### Updates handed over by the decoders (R44, R45) -/

/-- A decoder hands over an update with the angle `m`, to be applied two cycles later, and restarts the timeout. -/
def HandsOver (c d : Chip) (p : Fin 8) (m : BitVec 36) : Prop :=
  d.pbs[p].pend.getLast?.map (·.m) = some m ∧ d.pbs[p].tmoFrom = some c.now ∧
  d.agenda = c.agenda ++ [(c.now + 2, .updateApply p)] ∧ ∀ a, a ∉ [pbR p 8] → d.reg a = c.reg a

/-- The timeout restarts and STOPPED ends. -/
def restarted (p : Fin 8) (c : Chip) : Chip := (tmoRestart p c).clrBits (pbR p 8) (2 ^ 4)

@[simp] theorem restarted_now (p : Fin 8) (c : Chip) : (restarted p c).now = c.now := rfl
@[simp] theorem restarted_pb (p : Fin 8) (c : Chip) : (restarted p c).pbs[p.val] = { c.pbs[p.val] with tmoFrom := some c.now } :=
  tmoRestart_pb p c
theorem restarted_reg (p : Fin 8) (c : Chip) {a : Nat} (h : a ≠ pbR p 8) : (restarted p c).reg a = c.reg a :=
  Chip.reg_clrBits_ne _ _ h

theorem handsOver_pushUpd {p : Fin 8} {c x : Chip} (m : BitVec 36) (t : Word) (z i : Bool) (b : Option (BitVec 36 × BitVec 36))
    (hn : x.now = c.now) (ht : x.pbs[p].tmoFrom = some c.now) (ha : x.agenda = c.agenda)
    (hr : ∀ a, a ≠ pbR p 8 → x.reg a = c.reg a) : HandsOver c (pushUpd p m t 2 z i b x) p m := by
  have ht' : x.pbs[p.val].tmoFrom = some c.now := ht
  refine ⟨by simp, by simp [ht'], by simp [ha, hn], fun a h => ?_⟩
  rw [Chip.reg_congr (pushUpd_regs _ _ _ _ _ _ _ _), hr a (by simpa using h)]

/-- PB_SENS as it governs the decoders depends on the register, on its value as the cycle began, and on the cycle that takes the
levels. -/
theorem pbSens_congr {c d : Chip} {p : Fin 8} (hn : d.now = c.now) (ht : d.pbs[p].takeAt = c.pbs[p].takeAt)
    (hr : d.reg (pbR p 0x40) = c.reg (pbR p 0x40)) (h0 : d.regs0 = c.regs0) : pbSens d p = pbSens c p := by
  rw [pbSens, pbSens, hn, ht, hr, Chip.reg0, Chip.reg0, h0]

/-! ### Encoder (R47) -/

/-- The decoder's levels of A and B. -/
def encTaken (p : Fin 8) (a b : Bool) (c : Chip) : Chip := updPb p (fun x => { x with encA := a, encB := b }) c

/-- In the cycle that takes new levels nothing counts. -/
theorem encLevels_take {p : Fin 8} {c : Chip} (a b : Bool) (h : c.pbs[p].takeAt = some c.now) :
    encLevels p a b c = encTaken p a b c := by
  have h' : c.pbs[p.val].takeAt = some c.now := h
  exact if_pos (by simp [h'])

/-- The decoder of an encoder that is on, by the change of its two levels (R47). -/
theorem encLevels_on {p : Fin 8} {c : Chip} (a b : Bool) (hen : pbEn c p = true) (hs : pbSrc c p = 1)
    (h : c.pbs[p].takeAt ≠ some c.now) :
    encLevels p a b c =
      if c.pbs[p].encA != a && c.pbs[p].encB != b then (encTaken p a b c).setBits (pbR p 8) (2 ^ 14)
      else if c.pbs[p].encA == a && c.pbs[p].encB == b then encTaken p a b c
      else
        let y := restarted p (encTaken p a b c)
        if c.pbs[p].pend.any (fun u => u.isZ && u.seen == y.now) then y
        else
          let fwd := (quadIx a b == (quadIx c.pbs[p].encA c.pbs[p].encB + 1) % 4) != (pbSens y p).bit 7
          let lo := if fwd then c.pbs[p].encP + encStep y p else c.pbs[p].encP - encStep y p
          pushUpd p (if fwd then c.pbs[p].encP + encStep y p else c.pbs[p].encP)
            (edgeStamp y (sensCap y p + (if c.pbs[p].encA != a then 0 else 1))) 2 false false (some (lo, lo + encStep y p))
            (updPb p (fun x => { x with encP := lo }) y) := by
  have h' : ¬ c.pbs[p.val].takeAt = some c.now := h
  exact if_neg (by simp [hen, hs, srcEnc, h'])

/-- A change of both levels is rejected (R47). -/
theorem encLevels_both {p : Fin 8} {c : Chip} {a b : Bool} (hen : pbEn c p = true) (hs : pbSrc c p = 1)
    (h : c.pbs[p].takeAt ≠ some c.now) (ha : c.pbs[p].encA ≠ a) (hb : c.pbs[p].encB ≠ b) :
    let d := encLevels p a b c
    d.bit (pbR p 8) 14 = true ∧ d.pbs[p].encP = c.pbs[p].encP ∧ d.pbs[p].pend = c.pbs[p].pend ∧
    ∀ a, a ∉ [pbR p 8] → d.reg a = c.reg a := by
  rw [encLevels_on a b hen hs h, if_pos (by rw [bne_iff_ne.2 ha, bne_iff_ne.2 hb]; rfl)]
  exact ⟨Chip.bit_setBits_pow _ _ (by decide), by simp [encTaken], by simp [encTaken],
    fun a ha => Chip.reg_setBits_ne _ _ (by simpa using ha)⟩

/-- A change of one level counts a step in its direction (R47). -/
theorem encLevels_one {p : Fin 8} {c : Chip} {a b : Bool} (hen : pbEn c p = true) (hs : pbSrc c p = 1)
    (h : c.pbs[p].takeAt ≠ some c.now) (hab : (c.pbs[p].encA == a) ≠ (c.pbs[p].encB == b))
    (hz : ∀ u ∈ c.pbs[p].pend, u.isZ = true → u.seen ≠ c.now) :
    let fwd := (quadIx a b == (quadIx c.pbs[p].encA c.pbs[p].encB + 1) % 4) != (pbSens c p).bit 7
    let d := encLevels p a b c
    d.pbs[p].encP = (if fwd then c.pbs[p].encP + encStep c p else c.pbs[p].encP - encStep c p) ∧
    HandsOver c d p (if fwd then c.pbs[p].encP + encStep c p else c.pbs[p].encP) := by
  have hboth : ¬ (c.pbs[p].encA != a && c.pbs[p].encB != b) = true := by
    intro e; obtain ⟨h1, h2⟩ : _ ∧ _ := by simpa [bne] using e
    simp [h1, h2] at hab
  have hnone : ¬ (c.pbs[p].encA == a && c.pbs[p].encB == b) = true := by
    intro e; obtain ⟨h1, h2⟩ : _ ∧ _ := by simpa using e
    simp [h1, h2] at hab
  have hany : ¬ c.pbs[p].pend.any (fun u => u.isZ && u.seen == (restarted p (encTaken p a b c)).now) = true := by
    simpa [encTaken] using hz
  have hsens : pbSens (restarted p (encTaken p a b c)) p = pbSens c p :=
    pbSens_congr rfl (by simp [encTaken]) (restarted_reg _ _ (by simp)) rfl
  have hstep : encStep (restarted p (encTaken p a b c)) p = encStep c p :=
    congrArg (BitVec.setWidth 36) (restarted_reg p (encTaken p a b c) (a := pbR p 0x44) (by simp))
  rw [encLevels_on a b hen hs h, if_neg hboth, if_neg hnone]
  dsimp only
  rw [if_neg hany, hsens, hstep]
  refine ⟨?_, handsOver_pushUpd _ _ _ _ _ rfl (by simp [encTaken]) rfl fun a ha => restarted_reg p _ ha⟩
  simp

/-- The counts of the present cycle are dropped, and P is the index angle. -/
def encIndexed (p : Fin 8) (z : BitVec 36) (c : Chip) : Chip :=
  updPb p (fun x => { x with encP := z }) (restarted p (updPb p (fun x => { x with pend := x.pend.filter (fun u => u.seen != c.now) }) c))

/-- A rising edge of Z hands over the index angle in place of the counts of its cycle (R47, R56). -/
theorem encIndex_spec {p : Fin 8} {c : Chip} (hen : pbEn c p = true) (hs : pbSrc c p = 1) (h : c.pbs[p].takeAt ≠ some c.now)
    (hz : c.bit (pbR p 0x40) 6 = true) :
    let z := BitVec.ofNat 36 (c.fld (pbR p 0x48) 0 20 * 2 ^ 16)
    let d := encIndex p c
    d.pbs[p].encP = z ∧ (∀ u ∈ d.pbs[p].pend, u.seen = c.now → u.isZ = true) ∧ HandsOver c d p z := by
  have h' : ¬ c.pbs[p.val].takeAt = some c.now := h
  obtain ⟨t, b, hd⟩ : ∃ t b, encIndex p c = pushUpd p (BitVec.ofNat 36 (c.fld (pbR p 0x48) 0 20 * 2 ^ 16)) t 2 true true b
      (encIndexed p (BitVec.ofNat 36 (c.fld (pbR p 0x48) 0 20 * 2 ^ 16)) c) := ⟨_, _, if_pos (by simp [hen, hs, srcEnc, h', hz])⟩
  rw [hd]
  refine ⟨?_, ?_, handsOver_pushUpd _ _ _ _ _ rfl (by simp [encIndexed]) rfl fun a ha => restarted_reg p _ ha⟩
  · simp [encIndexed]
  · simp only [Fin.getElem_fin, pushUpd_pb, encIndexed, updPb_get, restarted_pb, List.mem_append, List.mem_filter,
      List.mem_singleton, bne_iff_ne]
    rintro u (⟨-, hne⟩ | rfl) hseen
    · exact absurd hseen hne
    · rfl

/-! ### Hall sensor (R49) -/

/-- The decoder's Hall state. -/
def hallSeen (p : Fin 8) (st : BitVec 3) (c : Chip) : Chip := updPb p (fun x => { x with hall := st }) c

@[simp] theorem hallIx_updPb (p : Fin 8) (f : PhaseBase → PhaseBase) (c : Chip) (q : Nat) (st : BitVec 3) :
    hallIx (updPb p f c) q st = hallIx c q st := rfl

theorem hallIx_lt {c : Chip} {p : Nat} {st : BitVec 3} {i : Nat} (h : hallIx c p st = some i) : i < 6 := by
  unfold hallIx at h
  split at h
  · cases h
  · exact List.mem_range.1 (List.mem_of_find?_eq_some h)

/-- A Hall decoder that is on looks at a new state, but for the cycle that takes new levels. -/
theorem hall_looks {p : Fin 8} {st : BitVec 3} {c : Chip} (hen : pbEn c p = true) (hs : pbSrc c p = 2)
    (h : c.pbs[p].takeAt ≠ some c.now) (hst : st ≠ c.pbs[p].hall) :
    ¬ (!(pbEn (hallSeen p st c) p && pbSrc (hallSeen p st c) p == srcHall) || st == c.pbs[p].hall ||
      (hallSeen p st c).pbs[p].takeAt == some (hallSeen p st c).now) = true := by
  have h' : ¬ c.pbs[p.val].takeAt = some c.now := h
  have hst' : ¬ st = c.pbs[p.val].hall := hst
  simp [hallSeen, hen, hs, srcHall, h', hst']

/-- A change to a neighbouring sector hands over the boundary passed (R49). -/
theorem hallTake_neighbour {p : Fin 8} {st : BitVec 3} {c : Chip} {i j : Nat} (hen : pbEn c p = true) (hs : pbSrc c p = 2)
    (h : c.pbs[p].takeAt ≠ some c.now) (hst : st ≠ c.pbs[p].hall) (hi : hallIx c p st = some i)
    (hj : hallIx c p c.pbs[p].hall = some j) (hn : i = (j + 1) % 6 ∨ j = (i + 1) % 6) :
    HandsOver c (hallTake p st c) p (if i = (j + 1) % 6 then hallB c p i else hallB c p (i + 1)) := by
  obtain ⟨t, z, b, hd⟩ : ∃ t z b, hallTake p st c =
      pushUpd p (if i = (j + 1) % 6 then hallB c p i else hallB c p (i + 1)) t 2 false z b (restarted p (hallSeen p st c)) := by
    have ht : hallTake p st c = _ := if_neg (hall_looks hen hs h hst)
    rw [hallIx_updPb, hi, hallIx_updPb, hj] at ht
    exact ⟨_, _, _, ht.trans (if_pos hn)⟩
  rw [hd]
  exact handsOver_pushUpd _ _ _ _ _ rfl (by simp [hallSeen]) rfl fun a ha => restarted_reg p _ ha

/-- A change to no neighbouring sector is an error (R49). -/
theorem hallTake_error {p : Fin 8} {st : BitVec 3} {c : Chip} (hen : pbEn c p = true) (hs : pbSrc c p = 2)
    (h : c.pbs[p].takeAt ≠ some c.now) (hst : st ≠ c.pbs[p].hall)
    (hn : ¬ ∃ i j, hallIx c p st = some i ∧ hallIx c p c.pbs[p].hall = some j ∧ (i = (j + 1) % 6 ∨ j = (i + 1) % 6)) :
    let d := hallTake p st c
    d.bit (pbR p 8) 15 = true ∧ d.pbs[p] = { c.pbs[p] with hall := st } ∧ ∀ a, a ∉ [pbR p 8] → d.reg a = c.reg a := by
  have hx : hallTake p st c = (hallSeen p st c).setBits (pbR p 8) (2 ^ 15) := by
    refine (if_neg (hall_looks hen hs h hst)).trans ?_
    rw [hallIx_updPb, hallIx_updPb]
    cases hi : hallIx c p st with
    | none => rfl
    | some i =>
      cases hj : hallIx c p c.pbs[p].hall with
      | none => rfl
      | some j => exact if_neg fun h => hn ⟨i, j, hi, hj, h⟩
  rw [hx]
  exact ⟨Chip.bit_setBits_pow _ _ (by decide), updPb_at _ _ _, fun a ha => Chip.reg_setBits_ne _ _ (by simpa using ha)⟩

/-! ### Tracker and grid observer (R50, R51), discipline pulse (R52) -/

/-- A source hands over an update with stamp `t`, to be applied `n` cycles later, and writes no register. -/
def Measured (c d : Chip) (p : Fin 8) (n : Nat) (m : BitVec 36) (t : Word) : Prop :=
  d.pbs[p].pend = c.pbs[p].pend ++ [plainUpdate c.now n m t] ∧ (c.now + n, Ev.updateApply p) ∈ d.agenda ∧ d.regs = c.regs

/-- A source gives no update but SIGERR. -/
def SignalError (c d : Chip) (p : Fin 8) : Prop :=
  d.bit (pbR p 8) 12 = true ∧ d.pbs[p].pend = c.pbs[p].pend ∧ ∀ a, a ∉ [pbR p 8] → d.reg a = c.reg a

theorem measured_pushUpd {p : Fin 8} {c x : Chip} (n : Nat) (m : BitVec 36) (t : Word) (hn : x.now = c.now)
    (hp : x.pbs[p].pend = c.pbs[p].pend) (hr : x.regs = c.regs) : Measured c (pushUpd p m t n false false none x) p n m t := by
  have hp' : x.pbs[p.val].pend = c.pbs[p.val].pend := hp
  exact ⟨by simp [plainUpdate, hn, hp'], by simp [hn], hr⟩

theorem signalError_setBits {p : Fin 8} {c x : Chip} (hp : x.pbs[p].pend = c.pbs[p].pend) (hr : x.regs = c.regs) :
    SignalError c (x.setBits (pbR p 8) (2 ^ 12)) p :=
  ⟨x.bit_setBits_pow _ (by decide), hp, fun a ha => (x.reg_setBits_ne _ (by simpa using ha)).trans (Chip.reg_congr hr a)⟩

/-- The phase base awaits no sample. -/
def unstrobed (p : Fin 8) (c : Chip) : Chip := updPb p (fun b => { b with strobeAt := none, sinS := none, cosS := none }) c

theorem tracker_on {p : Fin 8} {c : Chip} (hen : pbEn c p = true) (h : pbSrc c p = 3 ∨ pbSrc c p = 4) :
    (pbEn c p && (pbSrc c p == srcResolver || pbSrc c p == srcSdm)) = true := by
  simpa [hen, srcResolver, srcSdm] using h

/-- The strobe awaits its samples for 256 cycles (R50). -/
theorem strobeNow_spec {p : Fin 8} {c : Chip} (hen : pbEn c p = true) (h : pbSrc c p = 3 ∨ pbSrc c p = 4) :
    let d := strobeNow p c
    d.pbs[p].strobeAt = some c.now ∧ d.bit (pbR p 8) 17 = true ∧ (c.now + 257, Ev.trackerTimeout p) ∈ d.agenda ∧
    ∀ a, a ∉ [pbR p 8] → d.reg a = c.reg a := by
  obtain ⟨x, hx, hd⟩ : ∃ x : Chip, x = ((updPb p (fun b => { b with strobeAt := some c.now, sinS := none, cosS := none }) c).unschedule
      (fun e => decide (e = .trackerTimeout p))).schedule 257 (.trackerTimeout p) ∧
      strobeNow p c = pbEvent p 1 (x.setBits (pbR p 8) (2 ^ 17)) := ⟨_, rfl, if_pos (tracker_on hen h)⟩
  have hreg (a : Nat) : x.reg a = c.reg a := by rw [hx]; rfl
  rw [hd]
  refine ⟨by simp [hx], ?_, (evPulse_eventsOnly _ _).agenda (by simp [hx, Chip.schedule]), fun a ha => ?_⟩
  · rw [Chip.bit, pbEvent_reg]
    exact x.bit_setBits_pow _ (by decide)
  · rw [pbEvent_reg, x.reg_setBits_ne _ (by simpa using ha), hreg]

/-- A sample in the strobe's cycle, or later than 256 cycles after it, is not awaited (R50). -/
theorem trkPair_untimely {p : Fin 8} {c : Chip} {t0 : Nat} (sn cs : BitVec 16) (hs : c.pbs[p].strobeAt = some t0)
    (ht : c.now ≤ t0 ∨ t0 + 256 < c.now) : trkPair p sn cs c = c := by
  unfold trkPair
  split
  · rfl
  · rw [hs]
    exact if_pos ht

/-- A pair in time is an update where its amplitude is in range, and an error where it is not (R50). -/
theorem trkPair_timely {p : Fin 8} {c : Chip} {t0 : Nat} (sn cs : BitVec 16) (hen : pbEn c p = true)
    (h : pbSrc c p = 3 ∨ pbSrc c p = 4) (hs : c.pbs[p].strobeAt = some t0) (hlo : t0 < c.now) (hhi : c.now ≤ t0 + 256) :
    let d := trkPair p sn cs c
    d.pbs[p].strobeAt = none ∧
    if ampOk c p (sn.toInt * sn.toInt + cs.toInt * cs.toInt).toNat then
      Measured c d p 14 (BitVec.ofNat 36 (trkAngle (c.fld (pbR p 0) 8 4 + 1) sn.toInt cs.toInt * 2 ^ 16))
        (BitVec.ofNat 32 (t0 + trkTlat c p))
    else SignalError c d p := by
  have hx : trkPair p sn cs c =
      if ampOk c p (sn.toInt * sn.toInt + cs.toInt * cs.toInt).toNat then
        pushUpd p (BitVec.ofNat 36 (trkAngle (c.fld (pbR p 0) 8 4 + 1) sn.toInt cs.toInt * 2 ^ 16)) (BitVec.ofNat 32 (t0 + trkTlat c p))
          14 false false none ((unstrobed p c).unschedule (fun e => decide (e = .trackerTimeout p)))
      else ((unstrobed p c).unschedule (fun e => decide (e = .trackerTimeout p))).setBits (pbR p 8) (2 ^ 12) := by
    unfold trkPair
    rw [tracker_on hen h, hs]
    exact (if_neg Bool.false_ne_true).trans (if_neg (by omega))
  dsimp only
  rw [hx]
  split
  · exact ⟨by simp [unstrobed], measured_pushUpd _ _ _ rfl (by simp [unstrobed]) rfl⟩
  · exact ⟨by simp [unstrobed], signalError_setBits (by simp [unstrobed]) rfl⟩

/-- No pair in time: SIGERR (R50). -/
theorem trkTimeout_spec {p : Fin 8} {c : Chip} {t0 : Nat} (hs : c.pbs[p].strobeAt = some t0) :
    (trkTimeout p c).pbs[p].strobeAt = none ∧ SignalError c (trkTimeout p c) p := by
  have hx : trkTimeout p c = (unstrobed p c).setBits (pbR p 8) (2 ^ 12) := if_pos (by rw [hs]; rfl)
  rw [hx]
  exact ⟨by simp [unstrobed], signalError_setBits (by simp [unstrobed]) rfl⟩

/-- The integrator's parts after a sample of the grid input. -/
def gridMoved (p : Fin 8) (o : Int × Int) (c : Chip) : Chip := updPb p (fun b => { b with gridI := o.1, gridQ := o.2, gridAt := c.now }) c

/-- A sample of the grid input moves the integrator, whose angle is an update where its amplitude is in range (R51). -/
theorem gridTake_spec {p : Fin 8} {c : Chip} (x : BitVec 16) (hen : pbEn c p = true) (hs : pbSrc c p = 5) :
    let b := c.pbs[p]
    let o := Config.gridStep (c.reg (pbR p 0x14)) (c.now - b.gridAt) b.gridI b.gridQ x.toInt
    let d := gridTake p x c
    d.pbs[p].gridI = o.1 ∧ d.pbs[p].gridQ = o.2 ∧ d.pbs[p].gridAt = c.now ∧
    if ampOk c p (o.1 * o.1 + o.2 * o.2).toNat then
      Measured c d p 14 (BitVec.ofNat 36 (trkAngle 1 o.1 (-o.2) * 2 ^ 16)) (c.capTime - BitVec.ofNat 32 (trkTlat c p))
    else SignalError c d p := by
  let b := c.pbs[p]
  let o := Config.gridStep (c.reg (pbR p 0x14)) (c.now - b.gridAt) b.gridI b.gridQ x.toInt
  have hx : gridTake p x c =
      if ampOk c p (o.1 * o.1 + o.2 * o.2).toNat then
        pushUpd p (BitVec.ofNat 36 (trkAngle 1 o.1 (-o.2) * 2 ^ 16)) (c.capTime - BitVec.ofNat 32 (trkTlat c p)) 14 false false none
          (gridMoved p o c)
      else (gridMoved p o c).setBits (pbR p 8) (2 ^ 12) := if_pos (by simp [hen, hs, srcGrid])
  dsimp only
  rw [hx]
  split
  · exact ⟨by simp [gridMoved, o, b], by simp [gridMoved, o, b], by simp [gridMoved], measured_pushUpd _ _ _ rfl (by simp [gridMoved]) rfl⟩
  · exact ⟨by simp [gridMoved, o, b], by simp [gridMoved, o, b], by simp [gridMoved], signalError_setBits (by simp [gridMoved]) rfl⟩

/-- A discipline pulse gives an update (R52). -/
theorem disciplineNow_spec {p : Fin 8} {c : Chip} (hen : pbEn c p = true) (hs : pbSrc c p = 0) (hd : discOn c p = true) :
    Measured c (disciplineNow p c) p 2 (BitVec.ofNat 36 (c.fld (pbR p 0x68) 0 20 * 2 ^ 16))
      (c.capTime - BitVec.ofNat 32 (trkTlat c p)) := by
  have hx : disciplineNow p c = pushUpd p (BitVec.ofNat 36 (c.fld (pbR p 0x68) 0 20 * 2 ^ 16))
      (c.capTime - BitVec.ofNat 32 (trkTlat c p)) 2 false false none c := if_pos (by simp [hen, hs, srcTime, hd])
  rw [hx]
  exact measured_pushUpd _ _ _ rfl rfl rfl

/-- Settles O29: the decoders by the change of their levels, the observers by their samples. -/
theorem phaseSources : Obligations.PhaseSources := by
  unfold Obligations.PhaseSources
  constructor
  · intro s p a b st i j hr hen c x step fwd update neighbour
    refine ⟨fun hs ht => goes_onChip hr rfl ?_, fun hs ht => ⟨fun hab hz => goes_onChip hr rfl ?_, fun ha hb => goes_onChip hr rfl ?_,
      fun hz => goes_onChip hr rfl ?_⟩, fun hs ht hst => ⟨fun hi hj h => goes_onChip hr rfl ?_, fun hi hj h => goes_onChip hr rfl ?_,
      fun hn => goes_onChip hr rfl ?_⟩⟩
    · rw [State.after_chip, encLevels_take a b ht]
      exact ⟨updPb_at _ _ _, rfl⟩
    · exact encLevels_one hen hs ht hab hz
    · exact encLevels_both hen hs ht ha hb
    · exact encIndex_spec hen hs ht hz
    · have hu := hallTake_neighbour hen hs ht hst hi hj (.inl h)
      rw [if_pos h] at hu
      exact hu
    · have hi6 := hallIx_lt hi
      have hj6 := hallIx_lt hj
      have hu := hallTake_neighbour hen hs ht hst hi hj (.inr h)
      rw [if_neg (by omega)] at hu
      exact hu
    · exact hallTake_error hen hs ht hst hn
  · intro s p sn cs x t0 hr hen c b tracker update bad
    exact ⟨fun ht => goes_onChip hr rfl (strobeNow_spec hen ht), fun _ hs hu => onChip_same hr (trkPair_untimely sn cs hs hu),
      fun ht hs hlo hhi => goes_onChip hr rfl (trkPair_timely sn cs hen ht hs hlo hhi), fun hs => goes_onChip hr rfl (trkTimeout_spec hs),
      fun hs => goes_onChip hr rfl (gridTake_spec x hen hs), fun hs hd => goes_onChip hr rfl (disciplineNow_spec hen hs hd)⟩

end Sys2Proof.Machine

/-! PROOFS. The angle calendar scheduler: the reasoning rules (03 R66 to R78). What its operations leave of registers, entries, bin
lists and the record of one phase base; the statements on the scheduler are put together from them. -/

namespace Sys2Proof.Machine

/-! ### Entries, bin lists and the record of one phase base -/

@[simp] theorem updSch_sched (f : Sched → Sched) (c : Chip) : (updSch f c).sched = f c.sched := rfl

theorem updSch_congr {f g : Sched → Sched} {c : Chip} (h : f c.sched = g c.sched) : updSch f c = updSch g c := by
  simp only [updSch, h]

@[simp] theorem updSp_get (p : Fin 8) (f : SchedPb → SchedPb) (c : Chip) : (updSp p f c).sched.pbs[p.val] = f c.sched.pbs[p.val] :=
  vmod_get c.sched.pbs p f

/-- An update that finds the record as it makes it changes nothing. -/
theorem updSp_same {p : Fin 8} {f : SchedPb → SchedPb} {c : Chip} (h : f c.sched.pbs[p] = c.sched.pbs[p]) : updSp p f c = c := by
  simp only [updSp, updSch, vmod_same c.sched.pbs p f h]

@[simp] theorem entryAt_updSp (p : Fin 8) (f : SchedPb → SchedPb) (c : Chip) (h : Nat) : entryAt (updSp p f c) h = entryAt c h := rfl

@[simp] theorem entryAt_setEntry_self (h : Nat) (e : ActEntry) (c : Chip) : entryAt (setEntry h e c) h = e := aread_aset_self _ _ _ _

@[simp] theorem setEntry_pbs (h : Nat) (e : ActEntry) (c : Chip) : (setEntry h e c).sched.pbs = c.sched.pbs := rfl

/-! ### What an operation on the calendar leaves alone -/

/-- `d` is `c` with other entries, bin lists, records of the phase bases, and marks of the memories' ports. -/
def CalendarOnly (c d : Chip) : Prop :=
  ∃ en bi ps ec, d = { c with ecc := ec, sched := { c.sched with entries := en, bins := bi, pbs := ps } }

theorem CalendarOnly.refl (c : Chip) : CalendarOnly c c := ⟨_, _, _, _, rfl⟩

theorem CalendarOnly.trans {c d e : Chip} (h : CalendarOnly c d) (h' : CalendarOnly d e) : CalendarOnly c e := by
  obtain ⟨_, _, _, _, rfl⟩ := h
  obtain ⟨_, _, _, _, rfl⟩ := h'
  exact ⟨_, _, _, _, rfl⟩

theorem CalendarOnly.regs {c d : Chip} (h : CalendarOnly c d) : d.regs = c.regs := by obtain ⟨_, _, _, _, rfl⟩ := h; rfl
theorem CalendarOnly.now {c d : Chip} (h : CalendarOnly c d) : d.now = c.now := by obtain ⟨_, _, _, _, rfl⟩ := h; rfl
theorem CalendarOnly.agenda {c d : Chip} (h : CalendarOnly c d) : d.agenda = c.agenda := by obtain ⟨_, _, _, _, rfl⟩ := h; rfl
theorem CalendarOnly.pbs {c d : Chip} (h : CalendarOnly c d) : d.pbs = c.pbs := by obtain ⟨_, _, _, _, rfl⟩ := h; rfl
theorem CalendarOnly.reqs {c d : Chip} (h : CalendarOnly c d) : d.sched.reqs = c.sched.reqs := by
  obtain ⟨_, _, _, _, rfl⟩ := h; rfl
theorem CalendarOnly.due {c d : Chip} (h : CalendarOnly c d) : d.sched.due = c.sched.due := by
  obtain ⟨_, _, _, _, rfl⟩ := h; rfl
theorem CalendarOnly.ports {c d : Chip} (h : CalendarOnly c d) : d.sched.ports = c.sched.ports := by
  obtain ⟨_, _, _, _, rfl⟩ := h; rfl
theorem CalendarOnly.freed {c d : Chip} (h : CalendarOnly c d) : d.sched.freed = c.sched.freed := by
  obtain ⟨_, _, _, _, rfl⟩ := h; rfl
theorem CalendarOnly.moves {c d : Chip} (h : CalendarOnly c d) : d.sched.moves = c.sched.moves := by
  obtain ⟨_, _, _, _, rfl⟩ := h; rfl

theorem updSp_calendarOnly (p : Fin 8) (f : SchedPb → SchedPb) (c : Chip) : CalendarOnly c (updSp p f c) := ⟨_, _, _, _, rfl⟩
theorem setEntry_calendarOnly (h : Nat) (e : ActEntry) (c : Chip) : CalendarOnly c (setEntry h e c) := ⟨_, _, _, _, rfl⟩
theorem setBin_calendarOnly (p : Fin 8) (b : Nat) (l : List Nat) (c : Chip) : CalendarOnly c (setBin p b l c) := ⟨_, _, _, _, rfl⟩
theorem eccClear_calendarOnly (k : Nat) (c : Chip) : CalendarOnly c (eccClear k c) := ⟨_, _, _, _, rfl⟩
theorem linkAt_calendarOnly (h : Nat) (c : Chip) : CalendarOnly c (linkAt h c) := setBin_calendarOnly _ _ _ c
theorem unlink_calendarOnly (h : Nat) (c : Chip) : CalendarOnly c (unlink h c) := setBin_calendarOnly _ _ _ c
theorem dropRec_calendarOnly (p : Fin 8) (h : Nat) (c : Chip) : CalendarOnly c (dropRec p h c) :=
  (updSp_calendarOnly _ _ c).trans (setEntry_calendarOnly _ _ _)

theorem loadable_calendarOnly (h : Nat) (c : Chip) : CalendarOnly c (loadable h c) := by
  unfold loadable
  dsimp only
  split
  · exact (updSp_calendarOnly _ _ c).trans (updSp_calendarOnly _ _ _)
  · exact .refl c

theorem schState_congr {c d : Chip} {p : Nat} (h : d.reg (schP p 8) = c.reg (schP p 8)) : schState d p = schState c p := by
  simp only [schState, Chip.fld, h]

@[simp] theorem schState_setSchState (p x : Nat) (c : Chip) : schState (setSchState p x c) p = x % 4 := by
  simp [schState, setSchState, Chip.fld, Word.fld_withFld]

end Sys2Proof.Machine

/-! PROOFS. Scheduled actions (03 R68 to R71): the effect of a WAKE that fires. -/

namespace Sys2Proof.Machine

/-- A crossing that qualifies fires a resident action of its type, on time (R69). -/
theorem crossFire_fires {ty : Nat} {hd : Fin 131072} {back : Bool} {c : Chip} (phi : Fin 32) (hu : (entryAt c hd).inuse = true)
    (hn : (entryAt c hd).near = true) (hs : schState c (entryAt c hd).pb = 2) (hty : (entryAt c hd).type = ty)
    (hq : qualifies (entryAt c hd) back ((c.sched.pbs[(entryAt c hd).pb].uang +
      (if back then 0 else max (travel c (entryAt c hd).pb) 0)) / 2 ^ 36) = true) :
    crossFire ty hd phi back c = fireAct hd phi back false c := by
  refine if_pos ?_
  rw [hu, hn, hty, hs, hq]
  simp [schArmed]

/-- A WAKE that fires on time puts one activation in the agenda: 1 cycle ahead for a loop engine, 3 cycles for Triton, whose line
passes the input vote (14 R331). -/
theorem fireAct_wake_agenda {h phi : Nat} {back : Bool} {c : Chip} (hu : (entryAt c h).inuse = true) (hty : (entryAt c h).type = 9) :
    (fireAct h phi back false c).agenda = c.agenda ++ [(c.now + (if (entryAt c h).target % 32 = 0 then 3 else 1),
      .schWake (Fin.ofNat 32 (entryAt c h).target) (Fin.ofNat 8 ((entryAt c h).target / 256)))] := by
  simp [fireAct, hu, actEffect, hty, moveLater, setEntry, Chip.schedule]

/-- A resident WAKE of bank 1 of Triton that fires at each crossing. -/
def tritonWake : ActEntry := { ActEntry.reset with inuse := true, near := true, dir := 2, type := 9, target := 0x100 }

/-- The block after reset with that action at handle 0 and the scheduler of phase base 0 ARMED. -/
def tritonWakeState : State := { State.reset with chip := setEntry 0 tritonWake (setSchState 0 2 State.reset.chip) }

theorem entryAt_tritonWakeState : entryAt tritonWakeState.chip 0 = tritonWake := by simp [tritonWakeState]

theorem schState_tritonWakeState : schState tritonWakeState.chip 0 = 2 :=
  (schState_congr rfl).trans (schState_setSchState 0 2 State.reset.chip)

theorem qualifies_tritonWake (back : Bool) (rev : Int) : qualifies tritonWake back rev = true := by
  simp [qualifies, tritonWake, ActEntry.reset]

/-- Refutes O34: a WAKE of Triton takes effect after 3 cycles and not after 1, as its line passes the input vote; R68 puts it behind
the crossing of R18. -/
theorem not_scheduledActions : ¬ Obligations.ScheduledActions := by
  unfold Obligations.ScheduledActions
  intro h
  have hr : tritonWakeState.inRun := rfl
  have he : entryAt tritonWakeState.chip (0 : Fin 131072) = tritonWake := entryAt_tritonWakeState
  have hu : (entryAt tritonWakeState.chip (0 : Fin 131072)).inuse = true := by rw [he]; rfl
  have hn : (entryAt tritonWakeState.chip (0 : Fin 131072)).near = true := by rw [he]; rfl
  have hs : schState tritonWakeState.chip (entryAt tritonWakeState.chip (0 : Fin 131072)).pb = 2 := by
    rw [he]; exact schState_tritonWakeState
  have hty : (entryAt tritonWakeState.chip (0 : Fin 131072)).type = 9 := by rw [he]; rfl
  have hq (rev : Int) : qualifies (entryAt tritonWakeState.chip (0 : Fin 131072)) false rev = true := by
    rw [he]; exact qualifies_tritonWake _ _
  obtain ⟨-, -, -, -, -, -, -, -, -, hwake, -⟩ := h tritonWakeState 0 0 false hr hu hn hs (hq _)
  obtain ⟨t, ht, -, -, -, ⟨hag, -⟩⟩ := hwake hty
  have hx : exec (.wake 0 0 false) tritonWakeState = .next (tritonWakeState.after (crossFire 9 0 0 false)) := onChip_run hr
  obtain rfl : tritonWakeState.after (crossFire 9 0 0 false) = t := Host.Outcome.next.inj (hx.symm.trans ht)
  rw [State.after_chip, crossFire_fires 0 hu hn hs hty (hq _), fireAct_wake_agenda hu hty, he] at hag
  have ha := List.append_cancel_left hag
  simp [tritonWake] at ha

end Sys2Proof.Machine

/-! PROOFS. The insertion port (03 R72 to R74): what putting a request in line, serving it and moving the actions of the cycle do. -/

namespace Sys2Proof.Machine

/-! ### What serving leaves alone -/

/-- `d` has the registers of `c`, its line of requests and the one that is due. -/
structure LineKept (c d : Chip) : Prop where
  regs : d.regs = c.regs
  reqs : d.sched.reqs = c.sched.reqs
  due : d.sched.due = c.sched.due

theorem LineKept.trans {c d e : Chip} (h : LineKept c d) (h' : LineKept d e) : LineKept c e :=
  ⟨h'.regs.trans h.regs, h'.reqs.trans h.reqs, h'.due.trans h.due⟩

theorem CalendarOnly.lineKept {c d : Chip} (h : CalendarOnly c d) : LineKept c d := ⟨h.regs, h.reqs, h.due⟩

theorem updPort_lineKept (ix : Nat) (f : SchPort → SchPort) (c : Chip) : LineKept c (updPort ix f c) := by
  unfold updPort
  split <;> exact ⟨rfl, rfl, rfl⟩

/-! ### The port's results -/

theorem portOf_updPort {ix : Nat} (f : SchPort → SchPort) (c : Chip) (h : ix < 96) :
    portOf (updPort ix f c) ix = f (portOf c ix) := by
  simp only [portOf, updPort, h, dite_true, updSch_sched]
  exact vmod_get c.sched.ports ⟨ix, h⟩ f

/-- The calendar, the free list and the actions to be moved are those of `c`. -/
structure ListsKept (c d : Chip) : Prop where
  entries : d.sched.entries = c.sched.entries
  bins : d.sched.bins = c.sched.bins
  moves : d.sched.moves = c.sched.moves
  freed : d.sched.freed = c.sched.freed

theorem updPort_listsKept (ix : Nat) (f : SchPort → SchPort) (c : Chip) : ListsKept c (updPort ix f c) := by
  unfold updPort
  split <;> exact ⟨rfl, rfl, rfl, rfl⟩

/-- SCH_INSRES and SCH_REMRES of an initiator take an outcome (R72, R74). -/
def insAnswer (ix : Nat) (w : Word) (c : Chip) : Chip := updPort ix (fun q => { q with insRes := w }) c
def remAnswer (ix : Nat) (w : Word) (c : Chip) : Chip := updPort ix (fun q => { q with remRes := w }) c

theorem insAnswer_spec {ix : Nat} (w : Word) (c : Chip) (h : ix < 96) : (portOf (insAnswer ix w c) ix).insRes = w ∧
    LineKept c (insAnswer ix w c) ∧ ListsKept c (insAnswer ix w c) :=
  ⟨congrArg SchPort.insRes (portOf_updPort _ c h), updPort_lineKept _ _ c, updPort_listsKept _ _ c⟩

theorem remAnswer_spec {ix : Nat} (w : Word) (c : Chip) (h : ix < 96) : (portOf (remAnswer ix w c) ix).remRes = w ∧
    LineKept c (remAnswer ix w c) ∧ ListsKept c (remAnswer ix w c) :=
  ⟨congrArg SchPort.remRes (portOf_updPort _ c h), updPort_lineKept _ _ c, updPort_listsKept _ _ c⟩

theorem portOf_congr {c d : Chip} (h : d.sched.ports = c.sched.ports) (ix : Nat) : portOf d ix = portOf c ix := by
  simp only [portOf, h]

/-! ### Links -/

theorem loadable_lists (h : Nat) (c : Chip) :
    (loadable h c).sched.entries = c.sched.entries ∧ (loadable h c).sched.bins = c.sched.bins := by
  unfold loadable
  dsimp only
  split <;> exact ⟨rfl, rfl⟩

theorem entryAt_loadable (h : Nat) (c : Chip) (a : Nat) : entryAt (loadable h c) a = entryAt c a := by
  simp only [entryAt, (loadable_lists h c).1]

theorem binList_loadable (h : Nat) (c : Chip) (p : Fin 8) (b : Nat) : binList (loadable h c) p b = binList c p b := by
  simp only [binList, (loadable_lists h c).2]

theorem binList_linkAt {h : Nat} {e : ActEntry} {c : Chip} (he : entryAt c h = e) :
    binList (linkAt h c) e.pb (e.pos / 256) = h :: binList c e.pb (e.pos / 256) := by
  subst he
  simp only [binList, linkAt, setBin, updSch_sched]
  exact aread_aset_self _ _ _ _

@[simp] theorem entryAt_linkAt (h : Nat) (c : Chip) (a : Nat) : entryAt (linkAt h c) a = entryAt c a := rfl

theorem linked_congr {c d : Chip} {h : Nat} (he : d.sched.entries = c.sched.entries) (hb : d.sched.bins = c.sched.bins) :
    linked d h = linked c h := by
  simp only [linked, entryAt, binList, he, hb]

/-- What freeing an entry does (R66, R67): it reads as after reset, with the next GEN, and joins the end of the free list. -/
theorem freeEntry_spec (h : Nat) (c : Chip) :
    entryAt (freeEntry h c) h = { ActEntry.reset with gen := (entryAt c h).gen + 1 } ∧
    (freeEntry h c).sched.freed = c.sched.freed ++ [h] ∧ (freeEntry h c).sched.ports = c.sched.ports ∧
    (freeEntry h c).sched.moves = c.sched.moves ∧ LineKept c (freeEntry h c) := by
  obtain ⟨y, hy, he, hf⟩ : ∃ y, CalendarOnly c y ∧ entryAt y h = { ActEntry.reset with gen := (entryAt c h).gen + 1 } ∧
      freeEntry h c = updSch (fun s => { s with freed := s.freed ++ [h] }) y := by
    refine ⟨_, ?_, ?_, rfl⟩
    · exact (((unlink_calendarOnly h c).trans (dropRec_calendarOnly _ _ _)).trans (setEntry_calendarOnly _ _ _)).trans
        (updSp_calendarOnly _ _ _)
    · rw [entryAt_updSp, entryAt_setEntry_self]
  rw [hf]
  exact ⟨he, by rw [updSch_sched, hy.freed], hy.ports, hy.moves, hy.regs, hy.reqs, hy.due⟩

/-! ### Insertion (R72, R73) -/

/-- The entry that a submission makes, with the generation of its handle. -/
def insEntry (r : SchReq) (gen : BitVec 3) : ActEntry :=
  { pos := r.w0.fld 0 20, pb := Fin.ofNat 8 (r.w0.fld 20 3), inuse := true, dir := r.w0.fld 24 2, catchSkip := r.w0.bit 26,
    late := false, type := r.w0.fld 28 4, param := r.w1, step := r.w2.fld 0 21, rn := r.w2.fld 21 5, k := r.w2.fld 26 5,
    near := false, target := r.w3.fld 0 12, next := 0, gen := gen }

theorem insEntry_pb (r : SchReq) (gen : BitVec 3) : (insEntry r gen).pb.val = r.w0.fld 20 3 :=
  Nat.mod_eq_of_lt (Word.fld_lt r.w0 20 3)

/-- Taking a free handle changes the free list alone. -/
theorem takeFree_spec {c c1 : Chip} {h : Nat} (ht : takeFree c = some (h, c1)) :
    ∃ n fs, c1 = updSch (fun s => { s with freshNext := n, freed := fs }) c := by
  unfold takeFree at ht
  split at ht
  · obtain ⟨-, rfl⟩ := Prod.mk.inj (Option.some.inj ht)
    exact ⟨c.sched.freshNext + 1, c.sched.freed, rfl⟩
  · split at ht
    next hs _ =>
      obtain ⟨-, rfl⟩ := Prod.mk.inj (Option.some.inj ht)
      exact ⟨c.sched.freshNext, hs, rfl⟩
    · exact absurd ht nofun

/-- The handle taken depends on the free list alone. -/
theorem takeFree_handle {c d : Chip} (hn : d.sched.freshNext = c.sched.freshNext) (hf : d.sched.freed = c.sched.freed) :
    (takeFree d).map Prod.fst = (takeFree c).map Prod.fst := by
  unfold takeFree
  rw [hn, hf]
  split
  · rfl
  · split <;> rfl

theorem serveIns_refused {r : SchReq} {c : Chip} (h : insStatus c r.w0 r.w1 r.w2 r.w3 ≠ 0) :
    serveIns r c = insAnswer r.ini (BitVec.ofNat 32 (2 ^ 27 + 2 ^ 28 * insStatus c r.w0 r.w1 r.w2 r.w3)) c := if_pos h

/-- An accepted submission: the new entry stands at the handle taken and is linked at the head of its bin's list. -/
theorem serveIns_accepted {r : SchReq} {c c1 : Chip} {h : Nat} (hi : r.ini < 96) (h0 : insStatus c r.w0 r.w1 r.w2 r.w3 = 0)
    (ht : takeFree c = some (h, c1)) :
    let d := serveIns r c
    let e := insEntry r (entryAt c h).gen
    LineKept c d ∧ entryAt d h = e ∧ h ∈ binList d e.pb (e.pos / 256) ∧
    (portOf d r.ini).insRes = BitVec.ofNat 32 (h + 2 ^ 17 * (entryAt c h).gen.toNat + 2 ^ 27) := by
  obtain ⟨n, fs, rfl⟩ := takeFree_spec ht
  obtain ⟨x, hx, hs⟩ : ∃ x, x = insAnswer r.ini (BitVec.ofNat 32 (h + 2 ^ 17 * (entryAt c h).gen.toNat + 2 ^ 27))
        (updSch (fun s => { s with freshNext := n, freed := fs }) c) ∧
      serveIns r c = loadable h (linkAt h (setEntry h (insEntry r (entryAt c h).gen)
        (eccClear (entryKey h 2) (eccClear (entryKey h 0) x)))) := by
    refine ⟨_, rfl, ?_⟩
    simp only [serveIns, h0, ht]
    rfl
  obtain ⟨hport, hkept, -⟩ := insAnswer_spec (BitVec.ofNat 32 (h + 2 ^ 17 * (entryAt c h).gen.toNat + 2 ^ 27))
    (updSch (fun s => { s with freshNext := n, freed := fs }) c) hi
  rw [← hx] at hport hkept
  dsimp only
  rw [hs]
  generalize insEntry r (entryAt c h).gen = e
  obtain ⟨y, hy⟩ : ∃ y, y = setEntry h e (eccClear (entryKey h 2) (eccClear (entryKey h 0) x)) := ⟨_, rfl⟩
  have hye : entryAt y h = e := by rw [hy, entryAt_setEntry_self]
  have hxy : CalendarOnly x (loadable h (linkAt h y)) := by
    rw [hy]
    exact ((((eccClear_calendarOnly _ x).trans (eccClear_calendarOnly _ _)).trans (setEntry_calendarOnly _ _ _)).trans
      (linkAt_calendarOnly _ _)).trans (loadable_calendarOnly _ _)
  rw [← hy]
  refine ⟨LineKept.trans ⟨hkept.regs, hkept.reqs, hkept.due⟩ hxy.lineKept, ?_, ?_, ?_⟩
  · rw [entryAt_loadable]; exact hye
  · rw [binList_loadable, binList_linkAt hye]; exact List.mem_cons_self
  · rw [portOf_congr hxy.ports]; exact hport

/-! ### Removal (R74) -/

theorem serveRem_notFound {r : SchReq} {c : Chip}
    (h : linked c (r.w3.fld 0 17) = false ∨ (entryAt c (r.w3.fld 0 17)).gen.toNat ≠ r.w3.fld 17 3) :
    serveRem r c = remAnswer r.ini 6 c := by
  refine if_pos ?_
  rcases h with h | h <;> simp [h]

/-- A removal of a linked entry with its GEN: one that fired in the cycle is only to be freed at its move, another is freed. -/
theorem serveRem_found {r : SchReq} {c : Chip} (hl : linked c (r.w3.fld 0 17) = true)
    (hg : (entryAt c (r.w3.fld 0 17)).gen.toNat = r.w3.fld 17 3) (hm : ∀ x ∈ c.sched.moves, x.1 = r.w3.fld 0 17) :
    serveRem r c = if c.sched.fired.contains (r.w3.fld 0 17) then
        remAnswer r.ini 5 (updSch (fun s => { s with moves := [(r.w3.fld 0 17, none)] }) c)
      else remAnswer r.ini 4 (freeEntry (r.w3.fld 0 17) (updSch (fun s => { s with moves := [] }) c)) := by
  have hf : c.sched.moves.filter (fun m => m.1 != r.w3.fld 0 17) = [] := by
    simpa [List.filter_eq_nil_iff] using hm
  have hn : ¬ ((!linked c (r.w3.fld 0 17) || (entryAt c (r.w3.fld 0 17)).gen.toNat != r.w3.fld 17 3) = true) := by simp [hl, hg]
  refine (if_neg hn).trans ?_
  split <;> simp only [updSch, hf, List.nil_append] <;> rfl

/-! ### The service cycle's end (R73) -/

theorem mem_of_mem_dropReq {r x : SchReq} {l : List SchReq} (h : x ∈ dropReq r l) : x ∈ l := by
  induction l with
  | nil => exact h
  | cons y ys ih =>
    rw [dropReq] at h
    split at h
    · exact List.mem_cons_of_mem _ h
    · rcases List.mem_cons.1 h with rfl | h
      · exact List.mem_cons_self
      · exact List.mem_cons_of_mem _ (ih h)

/-- With no held write of the kind nothing lands. -/
theorem landHeld_none {ini : Nat} {removal : Bool} {c : Chip}
    (h : ∀ x ∈ c.sched.reqs, x.land = none → x.ini = ini → x.removal ≠ removal) : landHeld ini removal c = c := by
  have hf : c.sched.reqs.find? (fun r => r.land.isNone && r.ini == ini && r.removal == removal) = none := by
    rw [List.find?_eq_none]
    intro x hx
    simpa using h x hx
  rw [landHeld, hf]

/-- No write of the kind and initiator of `r` is held. -/
def NothingHeld (r : SchReq) (c : Chip) : Prop := ∀ x ∈ c.sched.reqs, x.land = none → x.ini = r.ini → x.removal ≠ r.removal

/-- The line without a request that is being served. -/
def takenUp (r : SchReq) (c : Chip) : Chip := updSch (fun s => { s with due := none, reqs := dropReq r s.reqs }) c

theorem serveReq_eq {r : SchReq} {c d : Chip} (hd : (if r.removal then serveRem r (takenUp r c) else serveIns r (takenUp r c)) = d)
    (hk : LineKept (takenUp r c) d) (hheld : NothingHeld r c) :
    serveReq r c = d := by
  have h : serveReq r c = landHeld r.ini r.removal d := by rw [← hd]; rfl
  rw [h, landHeld_none]
  intro x hx
  rw [hk.reqs] at hx
  exact hheld x (mem_of_mem_dropReq hx)

/-- The notes of the cycle are dropped at its end. -/
def cycleClosed (c : Chip) : Chip := updSch (fun s => { s with moves := [], fired := [] }) c

/-- A cycle in which the third port serves the request `r`. -/
def serving (r : SchReq) (c : Chip) : Chip := updSch (fun s => { s with due := some r }) c

/-- The end of a cycle that serves an insertion and moves no action, with nothing held behind it. -/
theorem schServe_insertion {r : SchReq} {c d : Chip} (hr : r.removal = false) (hd : serveIns r (takenUp r c) = d)
    (hk : LineKept (takenUp r c) d) (hheld : NothingHeld r c)
    (hm : c.sched.moves = []) : schServe (serving r c) = cycleClosed d := by
  have hs : serveReq r (serving r c) = d := serveReq_eq (by rw [hr]; exact hd) hk hheld
  have hp : portReq (serving r c) = some r := rfl
  have hm' : (serving r c).sched.moves = [] := hm
  simp [schServe, hp, hr, hm', hs, cycleClosed]

/-- The end of a cycle that serves a removal, after which only entries to be freed are left to move, with nothing held behind it. -/
theorem schServe_removal {r : SchReq} {c d : Chip} (hr : r.removal = true) (hd : serveRem r (takenUp r c) = d)
    (hk : LineKept (takenUp r c) d) (hheld : NothingHeld r c)
    (hm : ∀ x ∈ d.sched.moves, x.2 = none) :
    schServe (serving r c) = cycleClosed (d.sched.moves.foldl (fun c m => doMove m c) d) := by
  have hs : serveReq r (serving r c) = d := serveReq_eq (by rw [hr]; exact hd) hk hheld
  have hp : portReq (serving r c) = some r := rfl
  have hnone : d.sched.moves.filter (·.2.isNone) = d.sched.moves := by
    rw [List.filter_eq_self]; intro x hx; simp [hm x hx]
  have hsome : d.sched.moves.filter (·.2.isSome) = [] := by
    rw [List.filter_eq_nil_iff]; intro x hx; simp [hm x hx]
  simp [schServe, hp, hr, hs, hnone, hsome, cycleClosed]

/-- The move of a linked action that is to be freed. -/
theorem doMove_none {h : Nat} {c : Chip} (hl : linked c h = true) : doMove (h, none) c = freeEntry h c := by
  simp [doMove, hl]

/-! ### The outcome of a service, as its cycle ends (R72 to R74) -/

/-- What follows of the port from what a service leaves. -/
theorem LineKept.closed {r : SchReq} {c d : Chip} (hk : LineKept (takenUp r c) d) :
    (cycleClosed d).sched.due = none ∧ (cycleClosed d).regs = c.regs := ⟨hk.due, hk.regs⟩

/-- A refused submission answers its status and leaves the calendar as it was (R72). -/
theorem insertionRefused_spec {r : SchReq} {c : Chip} (hr : r.removal = false) (hi : r.ini < 96) (hheld : NothingHeld r c)
    (hm : c.sched.moves = []) (hst : insStatus c r.w0 r.w1 r.w2 r.w3 ≠ 0) :
    let d := schServe (serving r c)
    ((portOf d r.ini).insRes = BitVec.ofNat 32 (2 ^ 27 + 2 ^ 28 * insStatus c r.w0 r.w1 r.w2 r.w3) ∧
      d.sched.entries = c.sched.entries ∧ d.sched.bins = c.sched.bins) ∧ d.sched.due = none ∧ d.regs = c.regs := by
  obtain ⟨hp, hk, hl⟩ := insAnswer_spec (BitVec.ofNat 32 (2 ^ 27 + 2 ^ 28 * insStatus c r.w0 r.w1 r.w2 r.w3)) (takenUp r c) hi
  dsimp only
  rw [schServe_insertion hr (serveIns_refused (c := takenUp r c) hst) hk hheld hm]
  exact ⟨⟨hp, hl.entries, hl.bins⟩, hk.closed⟩

/-- An accepted submission is linked at a free handle, which it answers (R72, R73). -/
theorem insertionAccepted_spec {r : SchReq} {c c1 : Chip} {h : Nat} (hr : r.removal = false) (hi : r.ini < 96)
    (hheld : NothingHeld r c) (hm : c.sched.moves = []) (hst : insStatus c r.w0 r.w1 r.w2 r.w3 = 0)
    (ht : takeFree c = some (h, c1)) :
    let d := schServe (serving r c)
    let e := insEntry r (entryAt c h).gen
    (portOf d r.ini).insRes = BitVec.ofNat 32 (h + 2 ^ 17 * (entryAt c h).gen.toNat + 2 ^ 27) ∧
    entryAt d h = e ∧ h ∈ binList d e.pb (e.pos / 256) ∧ d.sched.due = none ∧ d.regs = c.regs := by
  obtain ⟨c2, ht2⟩ : ∃ c2, takeFree (takenUp r c) = some (h, c2) := by
    have hf : (takeFree (takenUp r c)).map Prod.fst = some h :=
      (takeFree_handle (c := c) (d := takenUp r c) rfl rfl).trans (by rw [ht]; rfl)
    obtain ⟨⟨h', c2⟩, ht2, rfl⟩ := Option.map_eq_some_iff.1 hf
    exact ⟨c2, ht2⟩
  obtain ⟨hk, he, hb, hp⟩ := serveIns_accepted (c := takenUp r c) hi hst ht2
  generalize hd : serveIns r (takenUp r c) = d at hk he hb hp
  dsimp only
  rw [schServe_insertion hr hd hk hheld hm]
  exact ⟨hp, he, hb, hk.closed⟩

/-- A removal of an entry that is free or has another GEN answers the mismatch (R74). -/
theorem removalNotFound_spec {r : SchReq} {c : Chip} (hr : r.removal = true) (hi : r.ini < 96) (hheld : NothingHeld r c)
    (hm : c.sched.moves = [])
    (hno : linked c (r.w3.fld 0 17) = false ∨ (entryAt c (r.w3.fld 0 17)).gen.toNat ≠ r.w3.fld 17 3) :
    let d := schServe (serving r c)
    ((portOf d r.ini).remRes = 6 ∧ d.sched.entries = c.sched.entries) ∧ d.sched.due = none ∧ d.regs = c.regs := by
  obtain ⟨hp, hk, hl⟩ := remAnswer_spec 6 (takenUp r c) hi
  have hm' : (remAnswer r.ini 6 (takenUp r c)).sched.moves = [] := hl.moves.trans hm
  dsimp only
  rw [schServe_removal hr (serveRem_notFound (c := takenUp r c) hno) hk hheld (by rw [hm']; nofun), hm', List.foldl_nil]
  exact ⟨⟨hp, hl.entries⟩, hk.closed⟩

/-- The entry `h` of `c` is freed in `d`, once, and the port has served its request. -/
structure EntryRemoved (h : Nat) (c d : Chip) : Prop where
  entry : entryAt d h = { ActEntry.reset with gen := (entryAt c h).gen + 1 }
  freed : d.sched.freed = c.sched.freed ++ [h]
  due : d.sched.due = none
  regs : d.regs = c.regs

/-- The removal of an entry that fired in the cycle: its move, which ends the cycle, frees it (R74). -/
theorem removalFired_spec {r : SchReq} {c x : Chip} (hr : r.removal = true) (hi : r.ini < 96) (hheld : NothingHeld r c)
    (hl : linked c (r.w3.fld 0 17) = true) (hx : x = updSch (fun s => { s with moves := [(r.w3.fld 0 17, none)] }) (takenUp r c))
    (hd : serveRem r (takenUp r c) = remAnswer r.ini 5 x) :
    let d := schServe (serving r c)
    (portOf d r.ini).remRes = 5 ∧ EntryRemoved (r.w3.fld 0 17) c d := by
  have hkx : LineKept (takenUp r c) x := by rw [hx]; exact ⟨rfl, rfl, rfl⟩
  obtain ⟨hp, hk, hk'⟩ := remAnswer_spec 5 x hi
  have hmv : (remAnswer r.ini 5 x).sched.moves = [(r.w3.fld 0 17, none)] := by rw [hk'.moves, hx]; rfl
  have hent : (remAnswer r.ini 5 x).sched.entries = c.sched.entries := by rw [hk'.entries, hx]; rfl
  have hlx : linked (remAnswer r.ini 5 x) (r.w3.fld 0 17) = true := by
    rw [linked_congr hent (hk'.bins.trans (by rw [hx]; rfl)), hl]
  obtain ⟨he, hfr, hpo, -, hkf⟩ := freeEntry_spec (r.w3.fld 0 17) (remAnswer r.ini 5 x)
  have hend := schServe_removal hr hd (hkx.trans hk) hheld (by rw [hmv]; simp)
  rw [hmv, List.foldl_cons, List.foldl_nil, doMove_none hlx] at hend
  generalize freeEntry (r.w3.fld 0 17) (remAnswer r.ini 5 x) = z at he hfr hpo hkf hend
  obtain ⟨hdue, hregs⟩ := ((hkx.trans hk).trans hkf).closed
  dsimp only
  rw [hend]
  refine ⟨(congrArg SchPort.remRes (portOf_congr hpo _)).trans hp, he.trans ?_, hfr.trans ?_, hdue, hregs⟩
  · simp only [entryAt, hent]
  · rw [hk'.freed, hx]; rfl

/-- The removal of an entry that did not fire in the cycle frees it (R74). -/
theorem removalUnfired_spec {r : SchReq} {c x : Chip} (hr : r.removal = true) (hi : r.ini < 96) (hheld : NothingHeld r c)
    (hx : x = updSch (fun s => { s with moves := [] }) (takenUp r c))
    (hd : serveRem r (takenUp r c) = remAnswer r.ini 4 (freeEntry (r.w3.fld 0 17) x)) :
    let d := schServe (serving r c)
    (portOf d r.ini).remRes = 4 ∧ EntryRemoved (r.w3.fld 0 17) c d := by
  have hkx : LineKept (takenUp r c) x := by rw [hx]; exact ⟨rfl, rfl, rfl⟩
  obtain ⟨he, hfr, -, hmf, hkf⟩ := freeEntry_spec (r.w3.fld 0 17) x
  generalize freeEntry (r.w3.fld 0 17) x = z at hd he hfr hmf hkf
  obtain ⟨hp, hk, hk'⟩ := remAnswer_spec 4 z hi
  have hmv : (remAnswer r.ini 4 z).sched.moves = [] := by rw [hk'.moves, hmf, hx]; rfl
  have hend := schServe_removal hr hd ((hkx.trans hkf).trans hk) hheld (by rw [hmv]; nofun)
  rw [hmv, List.foldl_nil] at hend
  obtain ⟨hdue, hregs⟩ := ((hkx.trans hkf).trans hk).closed
  dsimp only
  rw [hend]
  refine ⟨hp, Eq.trans ?_ (he.trans (by rw [hx]; rfl)), hk'.freed.trans (hfr.trans (by rw [hx]; rfl)), hdue, hregs⟩
  simp only [entryAt, cycleClosed, updSch, hk'.entries]

/-- A removal that finds its entry frees it once, and tells of one that fired in the cycle (R74). -/
theorem removalFound_spec {r : SchReq} {c : Chip} (hr : r.removal = true) (hi : r.ini < 96) (hheld : NothingHeld r c)
    (hm : ∀ x ∈ c.sched.moves, x.1 = r.w3.fld 0 17) (hl : linked c (r.w3.fld 0 17) = true)
    (hg : (entryAt c (r.w3.fld 0 17)).gen.toNat = r.w3.fld 17 3) :
    let d := schServe (serving r c)
    (portOf d r.ini).remRes = (if c.sched.fired.contains (r.w3.fld 0 17) then 5 else 4) ∧
    EntryRemoved (r.w3.fld 0 17) c d := by
  have hfound := serveRem_found (c := takenUp r c) hl hg hm
  have hfired : (takenUp r c).sched.fired.contains (r.w3.fld 0 17) = c.sched.fired.contains (r.w3.fld 0 17) := rfl
  rw [hfired] at hfound
  cases hf : c.sched.fired.contains (r.w3.fld 0 17) with
  | true => exact removalFired_spec hr hi hheld hl rfl (hfound.trans (if_pos hf))
  | false => exact removalUnfired_spec hr hi hheld rfl (hfound.trans (if_neg (by rw [hf]; nofun)))

/-! ### The statement -/

/-- A service command names the request next in line as the one of this cycle, where it is of the command's kind (R73). -/
theorem serveKind_serving {removal : Bool} {r : SchReq} {c : Chip} (hp : portReq c = some r) (hr : r.removal = removal) :
    serveKind removal c = serving r c := by
  simp [serveKind, hp, hr, serving]

/-- A write that is let through puts its request in line: by R13, which for the MGE from SEALED onward is R89. -/
theorem portWrite_granted {ini : Initiator} {off : Nat} (v : Word) (f : Chip → Chip) {c : Chip} (hg : c.grants ini (schR off) true)
    (hm : c.sealed = false ∨ ini ≠ .mge) : portWrite ini off v f c = f c.ack := by
  have h : (c.sealed && decide (ini = .mge)) = false := by rcases hm with h | h <;> simp [h]
  rw [portWrite, if_neg (by simp [h]), gatedWrite_ok hg]

/-- Settles O32: a write joins the line; the end of a service's cycle by the request's kind and what the calendar holds. That the
service names its request is a premise of the statement's clauses; `serveKind_serving` says it outright. -/
theorem insertionPort : Obligations.InsertionPort := by
  unfold Obligations.InsertionPort
  intro s ini v r h c1 hrun c ix q busy land request e
  refine ⟨fun hg hm => ?_, fun hg hm => ?_, fun hp hi hheld => ?_⟩
  · refine (onChip_run hrun).trans ?_
    rw [State.after, portWrite_granted _ _ hg hm]
    rfl
  · refine (onChip_run hrun).trans ?_
    rw [State.after, portWrite_granted _ _ hg hm]
    rfl
  have hmv (hr : r.removal = false) (hm : ∀ x ∈ c.sched.moves, r.removal = true ∧ x.1 = r.w3.fld 0 17) : c.sched.moves = [] :=
    List.eq_nil_iff_forall_not_mem.2 fun x hx => absurd ((hm x hx).1.symm.trans hr) nofun
  refine ⟨fun hr => ⟨fun hst => ?_, fun hst ht => ?_⟩, fun hr => ⟨fun hno hm => ?_, fun hl hg => ?_⟩⟩
  all_goals refine goes_onChip hrun rfl ?_
  all_goals rw [State.after, serveKind_serving hp hr]
  all_goals refine fun ⟨_, hmoves⟩ => ?_
  · exact insertionRefused_spec hr hi hheld (hmv hr hmoves) hst
  · obtain ⟨hres, he, hb, hdue, hregs⟩ := insertionAccepted_spec hr hi hheld (hmv hr hmoves) hst ht
    refine ⟨⟨hres, ?_⟩, hdue, hregs⟩
    dsimp only
    rw [he]
    exact ⟨rfl, rfl, insEntry_pb r _, rfl, rfl, rfl, rfl, rfl, rfl, rfl, hb⟩
  · exact removalNotFound_spec hr hi hheld hm hno
  · obtain ⟨hres, hrm⟩ := removalFound_spec hr hi hheld (fun x hx => (hmoves x hx).2) hl hg
    exact ⟨⟨hres, congrArg ActEntry.inuse hrm.entry, congrArg ActEntry.gen hrm.entry, hrm.freed⟩, hrm.due, hrm.regs⟩

end Sys2Proof.Machine

/-! PROOFS. The scheduler's states (03 R76, R77). -/

namespace Sys2Proof.Machine

@[simp] theorem schP_inj {p a b : Nat} : schP p a = schP p b ↔ a = b := by simp [schP]

/-- A phase base and a scheduler have no register in common. -/
theorem pbR_ne_schP (p q : Fin 8) {a b : Nat} (h : a < 0x100) : pbR p a ≠ schP q b := by
  simp only [pbR, schP]
  omega

theorem setSchState_reg (p x : Nat) (c : Chip) {a : Nat} (h : a ≠ schP p 8) : (setSchState p x c).reg a = c.reg a :=
  c.reg_setFld_ne _ _ _ h

/-! ### The writes of SCH_PBCFG and SCH_PBCTL -/

/-- A write that sets EN in OFF leads to WAIT. -/
theorem schCfgWrite_enable {p : Fin 8} {v : Word} {c : Chip} (hs : c.sealed = false) (h1 : v.bit 0 = true)
    (h0 : c.bit (schP p 0) 0 = false) (hst : schState c p = 0) :
    let d := schCfgWrite p v c
    schState d p = 1 ∧ d.reg (schP p 0) = v &&& 0x1FF ∧ ∀ a, a ∉ [schP p 0, schP p 8] → d.reg a = c.reg a := by
  obtain ⟨x, hx, hd⟩ : ∃ x, (∀ a, x.reg a = (c.setReg (schP p 0) (v &&& 0x1FF)).reg a) ∧
      schCfgWrite p v c = if schState x p = schOff then setSchState p schWait x else x := by
    refine ⟨updSp p (fun s => { s with leave := if s.leave = some schOff then none else s.leave })
      (c.setReg (schP p 0) (v &&& 0x1FF)), fun _ => rfl, ?_⟩
    have h0' : (c.reg (schP p 0)).bit 0 = false := h0
    simp [schCfgWrite, hs, h1, h0']
  have hxs : schState x p = schOff := by
    rw [schState_congr ((hx _).trans (c.reg_setReg_ne _ (by simp)))]
    exact hst
  rw [hd, if_pos hxs]
  refine ⟨schState_setSchState _ _ _, ?_, fun a ha => ?_⟩
  · rw [setSchState_reg _ _ _ (by simp), hx, Chip.reg_setReg_self]
  · obtain ⟨ha0, ha8⟩ : a ≠ schP p 0 ∧ a ≠ schP p 8 := by simpa using ha
    rw [setSchState_reg _ _ _ ha8, hx, Chip.reg_setReg_ne _ _ ha0]

/-- A write that clears EN leads to OFF as the cycle ends. -/
theorem schCfgWrite_disable {p : Fin 8} {v : Word} {c : Chip} (hs : c.sealed = false) (h0 : v.bit 0 = false)
    (h1 : c.bit (schP p 0) 0 = true) :
    let d := schCfgWrite p v c
    d.sched.pbs[p].leave = some 0 ∧ d.reg (schP p 0) = v &&& 0x1FF ∧ ∀ a, a ∉ [schP p 0] → d.reg a = c.reg a := by
  have hd : schCfgWrite p v c = updSp p (fun s => { s with leave := some schOff }) (c.setReg (schP p 0) (v &&& 0x1FF)) := by
    have h1' : (c.reg (schP p 0)).bit 0 = true := h1
    simp [schCfgWrite, hs, h0, h1']
  rw [hd]
  refine ⟨by simp [schOff], ?_, fun a ha => ?_⟩
  · rw [Chip.reg_updSp, Chip.reg_setReg_self]
  · rw [Chip.reg_updSp, Chip.reg_setReg_ne _ _ (by simpa using ha)]

/-- RESUME leads from SUSPENDED to WAIT. -/
theorem schCtlWrite_resume {p : Fin 8} {v : Word} {c : Chip} (h1 : v.bit 0 = true) (hst : schState c p = 3) :
    let d := schCtlWrite p v c
    schState d p = 1 ∧ d.sched = c.sched ∧ ∀ a, a ∉ [schP p 8] → d.reg a = c.reg a := by
  have hd : schCtlWrite p v c = setSchState p schWait c := by simp [schCtlWrite, h1, hst, schSusp]
  rw [hd]
  exact ⟨schState_setSchState _ _ _, rfl, fun a ha => setSchState_reg _ _ _ (by simpa using ha)⟩

/-! ### Arming -/

/-- The travel of the cycle depends on the phase base's record and registers alone. -/
theorem travel_congr {c d : Chip} {p : Fin 8} (hp : d.pbs = c.pbs)
    (hr : ∀ off, off < 0x100 → d.reg (pbR p off) = c.reg (pbR p off)) : travel d p = travel c p := by
  have hmax : slewMax d p = slewMax c p := by simp only [slewMax, Chip.fld, hr 0x28 (by decide)]
  have hterm : slewTerm d p = slewTerm c p := by rw [slewTerm, slewTerm, hp, hmax]
  obtain ⟨hen, hsrc, hfwd⟩ := pbCfg_congr (hr 0 (by decide))
  have hv : vaNow d p = vaNow c p := by rw [vaNow, vaNow, hfwd, hterm, hr 0x14 (by decide)]
  have hadv : advance d p = advance c p := by
    rw [advance, advance, hen, hsrc, pbState_congr (hr 8 (by decide)), hv, hp]
  have ha : accEnd d p = accEnd c p := by rw [accEnd, accEnd, hadv, hp]
  rw [travel, travel, ha, accPrev, accPrev, hp]

theorem foldl_calendarOnly {α : Type} (f : Chip → α → Chip) (h : ∀ c x, CalendarOnly c (f c x)) (xs : List α) (c : Chip) :
    CalendarOnly c (xs.foldl f c) := by
  induction xs generalizing c with
  | nil => exact .refl c
  | cons x xs ih => exact (h c x).trans (ih _)

theorem enterBin_calendarOnly (p : Fin 8) (u : Int) (mark : Option Int) (load : Bool) (c : Chip) :
    CalendarOnly c (enterBin p u mark load c) := by
  have hitems (d : Chip) : CalendarOnly d (if load then
      addItems p (.cross mark :: (binList c p (bin4096 u)).map .load) d else d) := by
    split
    · exact updSp_calendarOnly _ _ d
    · exact .refl d
  refine (hitems c).trans (foldl_calendarOnly _ (fun d h => ?_) _ _)
  split
  · exact .refl d
  · exact updSp_calendarOnly _ _ d

/-- A bin that enters the window adds items and records to the phase base's record. -/
theorem enterBin_keeps {β : Type} (k : SchedPb → β) (hk : ∀ s is rs, k { s with items := is, recs := rs } = k s) (p : Fin 8) (u : Int)
    (mark : Option Int) (load : Bool) (c : Chip) : k (enterBin p u mark load c).sched.pbs[p] = k c.sched.pbs[p] := by
  have hitems (xs : List SchItem) : k (if load then addItems p xs c else c).sched.pbs[p] = k c.sched.pbs[p] := by
    split
    · simpa [addItems] using hk c.sched.pbs[p] (c.sched.pbs[p].items ++ xs) c.sched.pbs[p].recs
    · rfl
  refine (foldl_keeps (fun d => k d.sched.pbs[p]) _ (fun d h => ?_) _ _).trans (hitems _)
  split
  · rfl
  · simpa using hk d.sched.pbs[p] d.sched.pbs[p].items _

theorem disarm_calendarOnly (p : Fin 8) (c : Chip) : CalendarOnly c (disarm p c) :=
  (foldl_calendarOnly _ (fun d _ => setEntry_calendarOnly _ _ d) _ c).trans (updSp_calendarOnly _ _ _)

theorem disarm_pb (p : Fin 8) (c : Chip) :
    (disarm p c).sched.pbs[p] = { c.sched.pbs[p] with recs := [], items := [], owed := [] } := by
  have h := foldl_keeps (·.sched.pbs) (fun c (r : SchRec) => setEntry r.h { entryAt c r.h with near := false } c)
    (fun _ _ => rfl) c.sched.pbs[p].recs c
  simp only [Fin.getElem_fin] at h
  simp [disarm, h]

/-- The window placed around the angle that the cycle leaves, before its bins enter. -/
def windowPlaced (p : Fin 8) (lead : Nat) (c : Chip) : Chip :=
  updSp p (fun s => { s with armedAt := c.now, centre := binOf (uangNow c p), lead := lead, last := binOf (uangNow c p),
                             leave := none }) c

theorem armNow_eq (p : Fin 8) (c : Chip) : ∃ lead us, armNow p c =
    List.foldl (fun c u => enterBin p u none true c) (windowPlaced p lead (disarm p (setSchState p schArmed c))) us := ⟨_, _, rfl⟩

/-- The angle stands when the scheduler is ARMED with its near set emptied. -/
theorem uangNow_disarm (p : Fin 8) (c : Chip) : uangNow (disarm p (setSchState p schArmed c)) p = uangNow c p := by
  have hk := disarm_calendarOnly p (setSchState p schArmed c)
  have ht : travel (disarm p (setSchState p schArmed c)) p = travel c p := travel_congr hk.pbs fun off ho =>
    (Chip.reg_congr hk.regs _).trans (setSchState_reg _ _ _ (pbR_ne_schP p p ho))
  rw [uangNow, uangNow, ht, disarm_pb]
  rfl

/-- Arming forms the window around the angle that the cycle leaves (R76, R77). -/
theorem armNow_spec (p : Fin 8) (c : Chip) :
    let d := armNow p c
    schState d p = 2 ∧ d.sched.pbs[p].armedAt = c.now ∧ d.sched.pbs[p].centre = binOf (uangNow c p) ∧
    ∀ a, a ∉ [schP p 8] → d.reg a = c.reg a := by
  obtain ⟨lead, us, hd⟩ := armNow_eq p c
  have hu := uangNow_disarm p c
  have hx := disarm_calendarOnly p (setSchState p schArmed c)
  generalize disarm p (setSchState p schArmed c) = x at hd hu hx
  have hpb : (windowPlaced p lead x).sched.pbs[p].armedAt = c.now ∧
      (windowPlaced p lead x).sched.pbs[p].centre = binOf (uangNow c p) := by
    simp [windowPlaced, hu, hx.now, setSchState]
  have hk : CalendarOnly x (armNow p c) := by
    rw [hd]
    exact (updSp_calendarOnly _ _ x).trans (foldl_calendarOnly _ (fun d u => enterBin_calendarOnly _ _ _ _ d) _ _)
  have hreg (a : Nat) : (armNow p c).reg a = (setSchState p schArmed c).reg a := Chip.reg_congr (hk.regs.trans hx.regs) a
  refine ⟨(schState_congr (hreg _)).trans (schState_setSchState _ _ _), ?_, ?_, fun a ha => ?_⟩
  · rw [hd]
    exact (foldl_keeps (fun d => d.sched.pbs[p].armedAt) _
      (fun d u => enterBin_keeps SchedPb.armedAt (fun _ _ _ => rfl) p u none true d) us _).trans hpb.1
  · rw [hd]
    exact (foldl_keeps (fun d => d.sched.pbs[p].centre) _
      (fun d u => enterBin_keeps SchedPb.centre (fun _ _ _ => rfl) p u none true d) us _).trans hpb.2
  · rw [hreg, setSchState_reg _ _ _ (by simpa using ha)]

/-- The arm pulse arms a waiting scheduler whose phase base tracks (R76). -/
theorem armPulse_arms {p : Fin 8} {c : Chip} (hst : schState c p = 1) (hen : c.bit (schP p 0) 0 = true)
    (hev : c.bit (schP p 0) 4 = true) (ht : 2 ≤ pbState c p) (hl : c.sched.pbs[p].leave = none) :
    armPulse p c = armNow p (updSp p (fun s => { s with armPulse := some c.now }) c) := by
  have hdue : armDue (updSp p (fun s => { s with armPulse := some c.now }) c) p = true := by
    have hen' : (updSp p (fun s => { s with armPulse := some c.now }) c).bit (schP p 0) 0 = true := hen
    have hst' : schState (updSp p (fun s => { s with armPulse := some c.now }) c) p = 1 := hst
    have ht' : pbTracks (updSp p (fun s => { s with armPulse := some c.now }) c) p = true := decide_eq_true ht
    simp only [Fin.getElem_fin] at hl
    simp [armDue, hen', hst', ht', schWait, hl]
  rw [armPulse, if_pos hev, armTry, if_pos hdue]

theorem uangNow_updSp {p : Fin 8} {f : SchedPb → SchedPb} {c : Chip} (hf : (f c.sched.pbs[p]).uang = c.sched.pbs[p].uang) :
    uangNow (updSp p f c) p = uangNow c p := by
  have ht : travel (updSp p f c) p = travel c p := travel_congr rfl fun _ _ => rfl
  simp only [Fin.getElem_fin] at hf
  simp [uangNow, ht, hf]

/-- The arming cycle's own crossing forms the window anew (R76). -/
theorem schCross_arming {p : Fin 8} {c : Chip} (hst : schState c p = 2) (ha : c.sched.pbs[p].armedAt = c.now) :
    schCross p c = armNow p c := by
  have hn : ¬ (schState c p = schArmed ∧ c.sched.pbs[p].armedAt < c.now) := fun h => absurd h.2 (by omega)
  exact (if_neg hn).trans (if_pos hst)

end Sys2Proof.Machine

/-! PROOFS. The walkers of the scheduler (03 R71, R76 to R78, R81 to R83): what the item at the front of an armed sequence does. -/

namespace Sys2Proof.Machine

/-! ### The item at the front -/

/-- The scheduler of PB[p] is ARMED since a cycle before, so that its walker works. -/
def Walks (c : Chip) (p : Fin 8) : Prop := schState c p = 2 ∧ c.sched.pbs[p].armedAt < c.now

/-- An item that is not stale stays at the front. -/
theorem purgeItems_fresh {p : Fin 8} {c : Chip} {it : SchItem} {rest : List SchItem} (hi : c.sched.pbs[p].items = it :: rest)
    (hs : itemStale c p it = false) : purgeItems p c = c := by
  refine updSp_same ?_
  have h : (it :: rest).dropWhile (itemStale c p) = it :: rest := by simp [hs]
  rw [hi, h, ← hi]

/-- A walker processes the item at the front, where it is of the command's kind, is not stale and a load finds a free slot (R78). -/
theorem walkKind_front {p : Fin 8} {k : SchItem → Bool} {c : Chip} {it : SchItem} {rest : List SchItem} (hw : Walks c p)
    (hi : c.sched.pbs[p].items = it :: rest) (hs : itemStale c p it = false) (hk : k it = true)
    (hroom : isLoad it = true → nearCount c p < 64) :
    walkKind p k c = doItem p it (updSp p (fun s => { s with items := rest }) c) := by
  obtain ⟨hst, ha⟩ := hw
  have hp := purgeItems_fresh hi hs
  have hready : walkReady c p = true := by
    simp only [Fin.getElem_fin] at hi ha
    cases it <;> simp [walkReady, hst, schArmed, ha, hi, hs]
    exact hroom rfl
  simp only [Fin.getElem_fin] at hi
  simp [walkKind, walkOne, hp, hi, hk, hready]

/-! ### Reads of entries -/

/-- With no error in the memories a walker's read finds its entry and only marks the memory's port. -/
theorem walkEntry_clean (p : Fin 8) (h : Nat) (f : Chip → Chip) {c : Chip} (hb : c.ecc.bad = []) :
    ∃ e, walkEntry p h f c = f { c with ecc := e } := by
  have hbad : (portUse (entryKey h 0) c).ecc.bad = [] := by
    unfold portUse
    repeat' split
    all_goals exact hb
  have hr : eccRead (entryKey h 0) 16 c = (true, portUse (entryKey h 0) c) := by
    refine List.foldl_fixed' (fun w => ?_) _
    have he : eccErr (portUse (entryKey h 0) c) w = none := by rw [eccErr, hbad]; rfl
    simp [he]
  obtain ⟨e, he⟩ := portUse_eq c (entryKey h 0)
  exact ⟨e, by simp [walkEntry, walkRead, hr, he]⟩

/-! ### Loads (R77, R81) -/

theorem itemStale_load {p : Fin 8} {h : Nat} {c : Chip} {r : SchRec} (hr : recOf c p h = some r) :
    itemStale c p (.load h) = r.resident := by
  simp [itemStale, hr]

/-- The action at its slot: resident in the window's records and marked in its entry. -/
def slotFilled (p : Fin 8) (h : Nat) (c : Chip) : Chip :=
  let c := updRec p h (fun r => { r with resident := true, swept := none }) c
  setEntry h { entryAt c h with near := true } c

/-- The action at its slot, with no sweep owed to it. -/
def slotTaken (p : Fin 8) (h : Nat) (c : Chip) : Chip :=
  updSp p (fun s => { s with owed := s.owed.filter (fun y => y.1 != h) }) (slotFilled p h c)

theorem slotTaken_calendarOnly (p : Fin 8) (h : Nat) (c : Chip) : CalendarOnly c (slotTaken p h c) :=
  ((updSp_calendarOnly _ _ c).trans (setEntry_calendarOnly _ _ _)).trans (updSp_calendarOnly _ _ _)

theorem slotTaken_entry (p : Fin 8) (h : Nat) (c : Chip) : entryAt (slotTaken p h c) h = { entryAt c h with near := true } := by
  simp only [slotTaken, slotFilled, entryAt_updSp, entryAt_setEntry_self, updRec]

theorem slotFilled_pb (p : Fin 8) (h : Nat) (c : Chip) : (slotFilled p h c).sched.pbs[p] = { c.sched.pbs[p] with
    recs := c.sched.pbs[p].recs.map (fun r => if r.h = h then { r with resident := true, swept := none } else r) } := by
  simp [slotFilled, updRec]

theorem slotTaken_pb (p : Fin 8) (h : Nat) (c : Chip) : (slotTaken p h c).sched.pbs[p] = { c.sched.pbs[p] with
    recs := c.sched.pbs[p].recs.map (fun r => if r.h = h then { r with resident := true, swept := none } else r),
    owed := c.sched.pbs[p].owed.filter (fun y => y.1 != h) } := by
  simp [slotTaken, slotFilled, updRec]

theorem slotTaken_resident {p : Fin 8} {h : Nat} {c : Chip} {r : SchRec} (hr : recOf c p h = some r) :
    (recOf (slotTaken p h c) p h).map (·.resident) = some true := by
  have hh : r.h = h := by simpa using List.find?_some hr
  have hf : (fun r : SchRec => r.h == h) ∘ (fun r => if r.h = h then { r with resident := true, swept := none } else r) =
      fun r => r.h == h := by
    funext r
    by_cases e : r.h = h <;> simp [e]
  rw [recOf] at hr
  rw [recOf, slotTaken_pb, List.find?_map, hf, hr]
  simp [hh]

/-- A load that finds a free slot takes it, and handles an action that was swept over before (R81). -/
theorem loadAct_slot {p : Fin 8} {h : Nat} {c : Chip} {r : SchRec} (hr : recOf c p h = some r) (hres : r.resident = false)
    (hsw : r.swept = none) (hroom : nearCount c p < 64) :
    loadAct p h c = match (c.sched.pbs[p].owed.find? (fun x => x.1 == h)).map (·.2) with
      | some back => catchAct h back (slotTaken p h c)
      | none => slotTaken p h c := by
  have howed : (slotFilled p h c).sched.pbs[p].owed = c.sched.pbs[p].owed := by rw [slotFilled_pb]
  rw [← howed]
  simp only [loadAct, hr, hres, hsw, Nat.not_le.2 hroom, if_false, Bool.false_eq_true, Option.none_or]
  rfl

/-- An action of CATCH EXECUTE that was swept over fires late in the cycle (R81). -/
theorem catchAct_execute {h : Nat} (back : Bool) {c : Chip} (he : (entryAt c h).catchSkip = false) :
    catchAct h back c = { c with agenda := c.agenda ++ [(c.now, .fire (Fin.ofNat 131072 h) 0 back true)] } := by
  rw [catchAct, if_neg (by rw [he]; nofun)]
  rfl

/-- The load item at the front finds its action waiting: it is loaded, behind the read of its entry. -/
theorem walkKind_load {p : Fin 8} {h : Nat} {c : Chip} {r : SchRec} {rest : List SchItem} (hw : Walks c p)
    (hi : c.sched.pbs[p].items = .load h :: rest) (hr : recOf c p h = some r) (hres : r.resident = false)
    (hroom : nearCount c p < 64) (hb : c.ecc.bad = []) (hrem : removing c h = false) :
    ∃ d, CalendarOnly c d ∧ (∀ a, entryAt d a = entryAt c a) ∧ d.sched.pbs[p] = { c.sched.pbs[p] with items := rest } ∧
      walkKind p isLoad c = loadAct p h d := by
  have hfront := walkKind_front (k := isLoad) hw hi (by rw [itemStale_load hr, hres]) rfl (fun _ => hroom)
  obtain ⟨e, he⟩ := walkEntry_clean p h (fun c => if removing c h then c else loadAct p h c)
    (c := updSp p (fun s => { s with items := rest }) c) hb
  refine ⟨{ updSp p (fun s => { s with items := rest }) c with ecc := e }, ⟨_, _, _, _, rfl⟩, fun _ => rfl,
    updSp_get p _ c, hfront.trans (he.trans (if_neg ?_))⟩
  rw [show removing { updSp p (fun s => { s with items := rest }) c with ecc := e } h = removing c h from rfl, hrem]
  nofun

theorem recOf_congr {c d : Chip} {p : Fin 8} (hr : d.sched.pbs[p].recs = c.sched.pbs[p].recs) (h : Nat) :
    recOf d p h = recOf c p h := by
  rw [recOf, recOf, hr]

theorem nearCount_congr {c d : Chip} {p : Fin 8} (hr : d.sched.pbs[p].recs = c.sched.pbs[p].recs) :
    nearCount d p = nearCount c p := by
  rw [nearCount, nearCount, hr]

/-- A load: the action becomes resident; one that a sweep has swept over before fires late instead of waiting for its sweep item. -/
theorem actionLoad_spec {p : Fin 8} {h : Nat} {c : Chip} {r : SchRec} {rest : List SchItem} (back : Bool) (hw : Walks c p)
    (hi : c.sched.pbs[p].items = .load h :: rest) (hr : recOf c p h = some r) (hres : r.resident = false) (hsw : r.swept = none)
    (hroom : nearCount c p < 64) (hb : c.ecc.bad = []) (hrem : removing c h = false) :
    let d := walkKind p isLoad c
    ((∀ o ∈ c.sched.pbs[p].owed, o.1 ≠ h) → (entryAt d h).near = true ∧ (recOf d p h).map (·.resident) = some true ∧
      d.sched.pbs[p].items = rest ∧ d.agenda = c.agenda ∧ d.regs = c.regs) ∧
    (c.sched.pbs[p].owed = [(h, back)] → (entryAt c h).catchSkip = false → d.sched.pbs[p].owed = [] ∧
      d.agenda = c.agenda ++ [(c.now, .fire (Fin.ofNat 131072 h) 0 back true)] ∧ d.regs = c.regs) := by
  obtain ⟨x, hx, hent, hpb, hd⟩ := walkKind_load hw hi hr hres hroom hb hrem
  have hrecs : x.sched.pbs[p].recs = c.sched.pbs[p].recs := by rw [hpb]
  have howed : x.sched.pbs[p].owed = c.sched.pbs[p].owed := by rw [hpb]
  have hrx : recOf x p h = some r := (recOf_congr hrecs h).trans hr
  have hslot := loadAct_slot hrx hres hsw ((nearCount_congr hrecs).trans_lt hroom)
  have hk := hx.trans (slotTaken_calendarOnly p h x)
  rw [howed] at hslot
  refine ⟨fun ho => ?_, fun ho hc => ?_⟩
  · have hf : c.sched.pbs[p].owed.find? (fun x => x.1 == h) = none := by
      rw [List.find?_eq_none]; simpa using ho
    have hend : walkKind p isLoad c = slotTaken p h x := by rw [hd, hslot, hf]; rfl
    rw [hend]
    refine ⟨congrArg ActEntry.near (slotTaken_entry p h x), slotTaken_resident hrx, ?_, hk.agenda, hk.regs⟩
    exact (congrArg SchedPb.items (slotTaken_pb p h x)).trans (congrArg SchedPb.items hpb)
  · have hcatch : (entryAt (slotTaken p h x) h).catchSkip = false := by
      rw [slotTaken_entry]; exact (congrArg ActEntry.catchSkip (hent h)).trans hc
    have hpo := slotTaken_pb p h x
    generalize slotTaken p h x = y at hk hcatch hpo hslot
    have hend : walkKind p isLoad c = catchAct h back y := by rw [hd, hslot, ho]; simp
    rw [hend, catchAct_execute back hcatch]
    refine ⟨?_, by rw [hk.agenda, hk.now], hk.regs⟩
    refine (congrArg SchedPb.owed hpo).trans ?_
    rw [howed, ho]
    simp

/-! ### Crossings, sweeps and evictions (R77, R82, R83) -/

/-- A window that stands around the angle's bin does not move. -/
theorem followBins_still {p : Fin 8} {c : Chip} (k : Nat) {nu : Int} (h : c.sched.pbs[p].centre = nu) : followBins p k nu c = c := by
  cases k with
  | zero => rfl
  | succ k => exact if_pos h

/-- A bin crossing with the window in place moves the walker's last processed bin (R78, R85). -/
theorem binCrossing_spec {p : Fin 8} {m : Int} {c : Chip} {rest : List SchItem} (hw : Walks c p)
    (hi : c.sched.pbs[p].items = .cross (some m) :: rest) :
    let d := walkKind p isCross c
    d.sched.pbs[p].last = m ∧ d.sched.pbs[p].items = rest ∧ d.regs = c.regs := by
  dsimp only
  rw [walkKind_front hw hi rfl rfl nofun]
  exact ⟨by simp [doItem], by simp [doItem], rfl⟩

/-- BIN_CROSSING with no jump and the window in place is the walker's work alone. -/
theorem exec_binCrossing_still {s : State} {p : Fin 8} (hw : Walks s.chip p) (hj : s.chip.sched.pbs[p].jumped = false)
    (hc : binOf (uangNow s.chip p) = s.chip.sched.pbs[p].centre)
    (hlast : (s.chip.sched.pbs[p].centre - s.chip.sched.pbs[p].last).natAbs ≤ 64) :
    exec (.binCrossing p) s = s.onChip (walkKind p isCross) := by
  obtain ⟨hst, ha⟩ := hw
  refine onChip_congr (congrArg (walkKind p isCross) ((if_pos ⟨hst, ha, by rw [hj]; rfl⟩).trans ?_))
  rw [hc, if_neg (Nat.not_lt.2 hlast), followBins_still 130 rfl]

/-- The sweep of a bin puts its actions at the front of the sequence (R83). -/
theorem sweepBin_spec {p : Fin 8} {m : Int} {c : Chip} {rest : List SchItem} (hw : Walks c p)
    (hi : c.sched.pbs[p].items = .sweepBin m :: rest) :
    let d := walkKind p isSweep c
    d.sched.pbs[p].last = m ∧ d.sched.entries = c.sched.entries ∧ d.regs = c.regs ∧
    d.sched.pbs[p].items = (binList c p (bin4096 m)).map .sweepAct ++ rest := by
  dsimp only
  rw [walkKind_front hw hi rfl rfl nofun, doItem]
  refine ⟨by simp, rfl, rfl, ?_⟩
  have hb : binList (updSp p (fun s => { s with items := rest }) c) p (bin4096 m) = binList c p (bin4096 m) := rfl
  simp [hb]

/-- An eviction of an action that was swept over and is to execute fires it late (R81, R82). -/
theorem eviction_spec {p : Fin 8} {h : Nat} {back : Bool} {c : Chip} {rest : List SchItem} (hw : Walks c p)
    (hi : c.sched.pbs[p].items = .evict h (some back) :: rest) (hb : c.ecc.bad = []) (hl : linked c h = true)
    (hrem : removing c h = false) (hc : (entryAt c h).catchSkip = false) :
    let d := walkKind p isEvict c
    d.sched.pbs[p].items = rest ∧ d.agenda = c.agenda ++ [(c.now, .fire (Fin.ofNat 131072 h) 0 back true)] ∧ d.regs = c.regs := by
  have hfront := walkKind_front (k := isEvict) hw hi rfl rfl nofun
  obtain ⟨e, he⟩ := walkEntry_clean p h (fun c => if linked c h && !removing c h then catchAct h back c else c)
    (c := updSp p (fun s => { s with items := rest }) c) hb
  obtain ⟨x, hx⟩ : ∃ x, x = { updSp p (fun s => { s with items := rest }) c with ecc := e } := ⟨_, rfl⟩
  have hgo : (linked x h && !removing x h) = true := by
    rw [show linked x h = linked c h by rw [hx]; rfl, show removing x h = removing c h by rw [hx]; rfl, hl, hrem]
    rfl
  have hcx : (entryAt x h).catchSkip = false := by rw [hx]; exact hc
  have hd : walkKind p isEvict c = catchAct h back x := by
    rw [hfront, doItem, he, ← hx]
    exact if_pos hgo
  have hk : CalendarOnly c x := by rw [hx]; exact ⟨_, _, _, _, rfl⟩
  have hpb : x.sched.pbs[p].items = rest := by rw [hx]; simp [updSp_get]
  dsimp only
  rw [hd, catchAct_execute back hcx]
  exact ⟨hpb, by rw [hk.agenda, hk.now], hk.regs⟩

/-! ### Re-insertion (R71) -/

/-- An action of a scheduler that is not ARMED is in no window. -/
theorem loadable_unarmed {h : Nat} {c : Chip} (hst : schState c (entryAt c h).pb ≠ 2) : loadable h c = c := by
  refine if_neg ?_
  simp [inWindow, schArmed, hst]

/-- The position of a re-inserted action (R71). -/
def movedPos (e : ActEntry) (back : Bool) : Nat :=
  (if back then e.pos + 2 ^ 20 - e.step % 2 ^ 20 else e.pos + e.step) % 2 ^ 20

/-- The action out of the window and of its bin's list, at its new position. -/
def moved (h : Nat) (back : Bool) (c : Chip) : Chip :=
  let x := dropRec (entryAt c h).pb h (unlink h c)
  setEntry h { entryAt x h with pos := movedPos (entryAt c h) back } x

theorem moved_calendarOnly (h : Nat) (back : Bool) (c : Chip) : CalendarOnly c (moved h back c) :=
  ((unlink_calendarOnly h c).trans (dropRec_calendarOnly _ _ _)).trans (setEntry_calendarOnly _ _ _)

theorem moved_entry (h : Nat) (back : Bool) (c : Chip) :
    entryAt (moved h back c) h = { entryAt c h with near := false, pos := movedPos (entryAt c h) back } := by
  simp only [moved, dropRec, entryAt_setEntry_self, entryAt_updSp]
  rfl

theorem moved_items {p : Fin 8} {h : Nat} (back : Bool) {c : Chip} (hp : (entryAt c h).pb = p) :
    (moved h back c).sched.pbs[p].items = c.sched.pbs[p].items := by
  simp only [moved, dropRec, setEntry_pbs, hp, Fin.getElem_fin, updSp_get]
  rfl

/-- The re-insertion of a linked action of a scheduler that is not ARMED: it is linked at the head of the bin of its new position. -/
theorem doMove_reinserted {h : Nat} {back : Bool} {c : Chip} (hl : linked c h = true) (hst : schState c (entryAt c h).pb ≠ 2) :
    doMove (h, some back) c = linkAt h (moved h back c) := by
  have hk : CalendarOnly c (linkAt h (moved h back c)) := (moved_calendarOnly h back c).trans (linkAt_calendarOnly _ _)
  have hpb : (entryAt (linkAt h (moved h back c)) h).pb = (entryAt c h).pb := by rw [entryAt_linkAt, moved_entry]
  have hd : doMove (h, some back) c = loadable h (if schState (linkAt h (moved h back c)) (entryAt c h).pb = schArmed then
      addItems (entryAt c h).pb [.reins] (linkAt h (moved h back c)) else linkAt h (moved h back c)) := by
    simp only [doMove, hl, Bool.not_true, Bool.false_eq_true, if_false]
    rfl
  generalize linkAt h (moved h back c) = y at hk hpb hd ⊢
  have hsy : schState y (entryAt c h).pb ≠ 2 := by rwa [schState_congr (Chip.reg_congr hk.regs _)]
  rw [hd, if_neg (show ¬ schState y (entryAt c h).pb = schArmed from hsy), loadable_unarmed (by rwa [hpb])]

theorem walkKind_empty {p : Fin 8} {k : SchItem → Bool} {c : Chip} (hi : c.sched.pbs[p].items = []) : walkKind p k c = c := by
  have hp : purgeItems p c = c := updSp_same (by rw [hi, List.dropWhile_nil, ← hi])
  simp only [Fin.getElem_fin] at hi
  simp [walkKind, hp, hi]

/-- What REINSERTION does: the actions of its phase base that fired move, and a walker pays for one (R71, R78). -/
def reinsert (p : Fin 8) (c : Chip) : Chip :=
  let mine := c.sched.moves.filter (fun m => m.2.isSome && (entryAt c m.1).pb == p)
  let c := updSch (fun s => { s with moves := s.moves.filter (fun m => !mine.contains m) }) c
  walkKind p isReins (mine.foldl (fun c m => doMove m c) c)

/-- The chip with no action to be moved. -/
def movesTaken (c : Chip) : Chip := updSch (fun s => { s with moves := [] }) c

theorem reinsert_one {p : Fin 8} {h : Nat} {back : Bool} {c : Chip} (hm : c.sched.moves = [(h, some back)])
    (hp : (entryAt c h).pb = p) : reinsert p c = walkKind p isReins (doMove (h, some back) (movesTaken c)) := by
  have hmine : c.sched.moves.filter (fun m => m.2.isSome && (entryAt c m.1).pb == p) = [(h, some back)] := by simp [hm, hp]
  have hleft : updSch (fun s => { s with moves := s.moves.filter (fun m => !List.contains [(h, some back)] m) }) c = movesTaken c :=
    updSch_congr (by simp [hm])
  rw [reinsert, hmine, hleft, List.foldl_cons, List.foldl_nil]

theorem reinsert_spec {p : Fin 8} {h : Nat} {back : Bool} {c : Chip} (hm : c.sched.moves = [(h, some back)])
    (hl : linked c h = true) (hp : (entryAt c h).pb = p) (hst : schState c p ≠ 2) (hi : c.sched.pbs[p].items = []) :
    let d := reinsert p c
    let pos := movedPos (entryAt c h) back
    (entryAt d h).pos = pos ∧ (entryAt d h).inuse = true ∧ h ∈ binList d p (pos / 256) ∧ d.sched.moves = [] ∧ d.regs = c.regs := by
  have hinuse : (entryAt c h).inuse = true := (Bool.and_eq_true_iff.1 hl).1
  have hone := reinsert_one hm hp
  have hxe : entryAt (movesTaken c) h = entryAt c h := rfl
  have hxl : linked (movesTaken c) h = true := (linked_congr rfl rfl).trans hl
  have hxs : schState (movesTaken c) p ≠ 2 := hst
  have hxi : (movesTaken c).sched.pbs[p].items = [] := hi
  have hxm : (movesTaken c).sched.moves = [] := rfl
  have hxr : (movesTaken c).regs = c.regs := rfl
  generalize movesTaken c = x at hone hxe hxl hxs hxi hxm hxr
  have hxp : (entryAt x h).pb = p := by rw [hxe, hp]
  have hd : reinsert p c = linkAt h (moved h back x) := by
    rw [hone, doMove_reinserted hxl (by rwa [hxp])]
    exact walkKind_empty ((moved_items back hxp).trans hxi)
  have hk := (moved_calendarOnly h back x).trans (linkAt_calendarOnly h _)
  have he := moved_entry h back x
  have hb := binList_linkAt he
  rw [hxe] at he
  simp only [hxe, hp] at hb
  dsimp only
  rw [hd, entryAt_linkAt, he, hb]
  exact ⟨rfl, hinuse, List.mem_cons_self, hk.moves.trans hxm, hk.regs.trans hxr⟩

/-! ### The statement -/

/-- Settles O33: the writes, the arming, and what the walkers do with the item at the front of their sequence. -/
theorem schedulerWalk : Obligations.SchedulerWalk := by
  unfold Obligations.SchedulerWalk
  intro s ini p v m rest h r back hrun c x e walks
  refine ⟨fun hg hs h1 h0 hst => goes_gatedWrite hrun rfl hg ?_, fun hg hs h0 h1 => goes_gatedWrite hrun rfl hg ?_,
    fun hg h1 hst => goes_gatedWrite hrun rfl hg ?_, fun hst hen hev ht hl => goes_onChip hrun rfl ?_, fun hst ha => ?_,
    fun hw hi hj hc hlast => goes_onChip hrun (exec_binCrossing_still hw hj hc hlast) ?_, fun hw hi hr hres hsw hroom hb hrem => ?_,
    fun hm hl hp hst hi => goes_onChip hrun rfl ?_, fun hw hi => goes_onChip hrun rfl ?_,
    fun hw hi hb hl hrem hc => goes_onChip hrun rfl ?_⟩
  · exact schCfgWrite_enable (c := c.ack) hs h1 h0 hst
  · exact schCfgWrite_disable (c := c.ack) hs h0 h1
  · exact schCtlWrite_resume (c := c.ack) h1 hst
  · rw [State.after, armPulse_arms hst hen hev ht hl]
    obtain ⟨hs2, hat, hc, hreg⟩ := armNow_spec p (updSp p (fun y => { y with armPulse := some c.now }) c)
    rw [uangNow_updSp rfl] at hc
    exact ⟨hs2, hat, hc, hreg⟩
  · rw [schCross_arming hst ha]
    obtain ⟨hs2, -, hc, -⟩ := armNow_spec p c
    exact ⟨hs2, hc⟩
  · exact binCrossing_spec hw hi
  · obtain ⟨hquiet, howed⟩ := actionLoad_spec back hw hi hr hres hsw hroom hb hrem
    exact ⟨fun ho => goes_onChip hrun rfl (hquiet ho), fun ho hc => goes_onChip hrun rfl (howed ho hc)⟩
  · exact reinsert_spec hm hl hp hst hi
  · exact sweepBin_spec hw hi
  · exact eviction_spec hw hi hb hl hrem hc

end Sys2Proof.Machine

/-! PROOFS. PWM channels: the reasoning rules (04 R92 to R113; 05 R119 to R131). What an operation on one channel leaves of registers
and of the channel's record; the statements on the channels are put together from them. -/

namespace Sys2Proof.Machine

/-! ### Addresses and registers -/

@[simp] theorem pwmR_inj {n a b : Nat} : pwmR n a = pwmR n b ↔ a = b := by simp [pwmR, slR]

/-- The active registers of the commit set stand at +0x4 to +0x20. -/
theorem pwmR_ne_activeR {n off : Nat} (k : Fin 8) (h : off < 4 ∨ 0x20 < off) : pwmR n off ≠ activeR n k := by
  rw [activeR, Ne, pwmR_inj]
  omega

@[simp] theorem Chip.reg_updPwm (c : Chip) (n : Fin 96) (f : Pwm → Pwm) (a : Nat) : (updPwm n f c).reg a = c.reg a := rfl

@[simp] theorem Chip.bit_updPwm (c : Chip) (n : Fin 96) (f : Pwm → Pwm) (a i : Nat) : (updPwm n f c).bit a i = c.bit a i := rfl

theorem cfgOpen_of_unsealed {c : Chip} (ini : Initiator) (sl : Nat) (h : c.sealed = false) : cfgOpen c ini sl = true := by
  simp [cfgOpen, h]

/-- A write that is let through goes on with what its effect makes of the acknowledged chip. -/
theorem goes_write {s : State} {i : Instr} {ini : Initiator} {a : Nat} {f : Chip → Chip} {P : State → Prop} {d : Chip} (hr : s.inRun)
    (he : exec i s = s.onChip (gatedWrite ini a f)) (hg : s.chip.grants ini a true) (hf : f s.chip.ack = d)
    (h : P { s with chip := d }) : Goes i s P :=
  goes_gatedWrite hr he hg (by rwa [State.after, hf])

/-- One that sets the register `a` to `v` changes no other register and, here, no channel. -/
theorem goes_sets {s : State} {i : Instr} {ini : Initiator} {a : Nat} {f : Chip → Chip} {v : Word} {d : Chip} (hr : s.inRun)
    (he : exec i s = s.onChip (gatedWrite ini a f)) (hg : s.chip.grants ini a true) (hf : f s.chip.ack = d)
    (hd : d.regs = (s.chip.ack.setReg a v).regs) (hp : d.pwms = s.chip.ack.pwms) :
    Goes i s fun t => t.chip.reg a = v ∧ RegsBut s t [a] ∧ t.chip.pwms = s.chip.pwms :=
  goes_write hr he hg hf ⟨(Chip.reg_congr hd a).trans (Chip.reg_setReg_self _ a v),
    fun b hb => (Chip.reg_congr hd b).trans (Chip.reg_setReg_ne _ v (by simpa using hb)), hp⟩

/-! ### The record of one channel -/

@[simp] theorem updPwm_get (n : Fin 96) (f : Pwm → Pwm) (c : Chip) : (updPwm n f c).pwms[n.val] = f c.pwms[n.val] :=
  vmod_get c.pwms n f

theorem updPwm_same {n : Fin 96} {f : Pwm → Pwm} {c : Chip} (h : f c.pwms[n] = c.pwms[n]) : updPwm n f c = c := by
  rw [updPwm, vmod_same _ _ _ h]

theorem updPwm_congr {n : Fin 96} {f g : Pwm → Pwm} {c : Chip} (h : f c.pwms[n] = g c.pwms[n]) : updPwm n f c = updPwm n g c := by
  simp only [updPwm, vmod, h]

theorem updPwm_updPwm (n : Fin 96) (f g : Pwm → Pwm) (c : Chip) : updPwm n g (updPwm n f c) = updPwm n (fun p => g (f p)) c := by
  simp only [updPwm, vmod_vmod]

/-! ### Happenings that fall due -/

/-- Happenings put at the end of the agenda. -/
def later (xs : List (Nat × Ev)) (c : Chip) : Chip := { c with agenda := c.agenda ++ xs }

@[simp] theorem later_regs (xs : List (Nat × Ev)) (c : Chip) : (later xs c).regs = c.regs := rfl
@[simp] theorem later_pwms (xs : List (Nat × Ev)) (c : Chip) : (later xs c).pwms = c.pwms := rfl

/-- The levels of the action tables are noted, and the output stage follows them later in the instant. -/
theorem levels_eq (n : Fin 96) (T : Nat) (la lb : Bool) (c : Chip) : ∃ st xs,
    levels n T la lb c = later xs (updPwm n (fun p => { p with levA := la, levB := lb, stageAt := st }) c) := by
  unfold levels
  dsimp only
  split
  · exact ⟨c.pwms[n].stageAt, [], by rw [later, List.append_nil]; exact updPwm_congr rfl⟩
  · exact ⟨some T, _, by rw [updPwm_updPwm]; rfl⟩

/-! ### Interrupt prescalers (04 R113) -/

/-- What the prescalers of a channel go by: PWM_IPS, their counts, and the flags of PWM_STAT. -/
structure Prescalers where
  limits : Word
  counts : Vector Nat 6
  flags : Word

def prescalersOf (n : Fin 96) (c : Chip) : Prescalers := ⟨c.reg (pwmR n 0x38), c.pwms[n].ips, c.reg (pwmR n 0x3C)⟩

/-- An occurrence through prescaler `k`. -/
def Prescalers.step (k : Fin 6) (x : Prescalers) : Prescalers :=
  if x.limits.fld (4 * k.val) 4 ≤ x.counts[k] then
    { x with counts := x.counts.set k 0, flags := x.flags ||| BitVec.ofNat 32 (2 ^ k.val) }
  else { x with counts := x.counts.set k (x.counts[k] + 1) }

theorem prescalersOf_ipsStep (n : Fin 96) (k : Fin 6) (c : Chip) : prescalersOf n (ipsStep n k c) = (prescalersOf n c).step k := by
  have hl : c.fld (pwmR n 0x38) (4 * k.val) 4 = (c.reg (pwmR n 0x38)).fld (4 * k.val) 4 := rfl
  unfold ipsStep Prescalers.step prescalersOf
  dsimp only
  rw [hl]
  split
  · simp [Chip.reg_setBits]
  · simp

/-- The occurrence resets the count and sets the flag where the count has reached its limit, and counts otherwise. -/
theorem Prescalers.step_self (k : Fin 6) (x : Prescalers) :
    if x.limits.fld (4 * k.val) 4 ≤ x.counts[k] then (x.step k).counts[k] = 0 ∧ (x.step k).flags.bit k.val = true
    else (x.step k).counts[k] = x.counts[k] + 1 := by
  unfold Prescalers.step
  split
  · refine ⟨by simp, ?_⟩
    rw [Word.bit_or _ _ (by omega), Nat.testBit_two_pow_self, Bool.or_true]
  · simp

/-- The same limits, and the same count and flag of prescaler `j`. -/
structure Prescalers.SameAt (j : Fin 6) (x y : Prescalers) : Prop where
  limits : y.limits = x.limits
  count : y.counts[j] = x.counts[j]
  flag : y.flags.bit j.val = x.flags.bit j.val

theorem Prescalers.SameAt.refl (j : Fin 6) (x : Prescalers) : x.SameAt j x := ⟨rfl, rfl, rfl⟩

theorem Prescalers.SameAt.trans {j : Fin 6} {x y z : Prescalers} (h : x.SameAt j y) (h' : y.SameAt j z) : x.SameAt j z :=
  ⟨h'.limits.trans h.limits, h'.count.trans h.count, h'.flag.trans h.flag⟩

/-- A prescaler leaves the others alone. -/
theorem Prescalers.step_ne {j k : Fin 6} (h : k ≠ j) (x : Prescalers) : x.SameAt j (x.step k) := by
  have hv : k.val ≠ j.val := fun e => h (Fin.ext e)
  unfold Prescalers.step
  split
  · refine ⟨rfl, by simp [hv], ?_⟩
    rw [Word.bit_or _ _ (by omega), Nat.testBit_two_pow_of_ne hv, Bool.or_false]
  · exact ⟨rfl, by simp [hv], rfl⟩

theorem Prescalers.iterate_ne {j k : Fin 6} (h : k ≠ j) (i : Nat) (x : Prescalers) : x.SameAt j ((Prescalers.step k)^[i] x) := by
  induction i generalizing x with
  | zero => exact .refl j x
  | succ i ih => exact (Prescalers.step_ne h x).trans (ih _)

/-- `m k` occurrences through each prescaler `k` of a list, one after the other. -/
def Prescalers.steps (m : Fin 6 → Nat) (ks : List (Fin 6)) (x : Prescalers) : Prescalers :=
  ks.foldl (fun x k => (Prescalers.step k)^[m k] x) x

theorem Prescalers.steps_ne {j : Fin 6} (m : Fin 6 → Nat) {ks : List (Fin 6)} (h : j ∉ ks) (x : Prescalers) :
    x.SameAt j (x.steps m ks) := by
  induction ks generalizing x with
  | nil => exact .refl j x
  | cons k ks ih =>
    obtain ⟨hk, hks⟩ := not_or.1 (mt List.mem_cons.2 h)
    exact (Prescalers.iterate_ne (Ne.symm hk) (m k) x).trans (ih hks _)

/-- Prescaler `j` after all of them have had their occurrences: as its own have left it. -/
theorem Prescalers.steps_all (j : Fin 6) (m : Fin 6 → Nat) (x : Prescalers) :
    ∃ y, x.SameAt j y ∧ ((Prescalers.step j)^[m j] y).SameAt j (x.steps m (List.finRange 6)) := by
  obtain ⟨ks, ls, hs⟩ := List.append_of_mem (List.mem_finRange j)
  have hn := List.nodup_finRange 6
  rw [hs, List.nodup_middle, List.nodup_cons] at hn
  obtain ⟨hj, -⟩ := hn
  rw [List.mem_append, not_or] at hj
  refine ⟨x.steps m ks, Prescalers.steps_ne m hj.1 x, ?_⟩
  have happ : x.steps m (ks ++ j :: ls) = ((Prescalers.step j)^[m j] (x.steps m ks)).steps m ls := List.foldl_append
  rw [hs, happ]
  exact Prescalers.steps_ne m hj.2 _

end Sys2Proof.Machine

/-! PROOFS. The writes of a PWM channel's registers and what they do as their cycle ends (04 R100, R113, R114; 05 R119 to R128, R135 to
R137). -/

namespace Sys2Proof.Machine

variable {n : Fin 96} {c : Chip}

/-! ### PWM_CFG (04 R99, R100) -/

theorem pwmCfgWrite_enable {v : Word} (ini : Initiator) (hs : c.sealed = false) (hm : v.fld 1 2 ≠ 3) (h1 : v.bit 0 = true)
    (h0 : c.bit (pwmR n 0) 0 = false) (hr : pwmRun c n = false) :
    pwmCfgWrite ini n v c = c.setReg (pwmR n 0) ((v &&& 0xFFF7).withBit 3 (v.bit 4)) := by
  have h0' : (c.reg (pwmR n 0)).bit 0 = false := h0
  simp [pwmCfgWrite, cfgOpen_of_unsealed ini _ hs, hm, h1, h0', hr]

theorem pwmCfgWrite_disable {v : Word} (ini : Initiator) (hs : c.sealed = false) (hm : v.fld 1 2 ≠ 3) (h1 : v.bit 0 = false) :
    pwmCfgWrite ini n v c = c.setReg (pwmR n 0) (((c.reg (pwmR n 0)).withBit 0 false).withBit 4 (v.bit 4)) := by
  simp [pwmCfgWrite, cfgOpen_of_unsealed ini _ hs, hm, h1]

/-- The watchdog's count as a channel that starts takes it up. -/
def wdResumed (n : Fin 96) (c : Chip) : Chip := if c.pwms[n].wdNew && c.pwms[n].wd.isSome then wdStart n c else c

theorem wdResumed_eq (n : Fin 96) (c : Chip) : ∃ w x, wdResumed n c = updPwm n (fun p => { p with wd := w, wdNew := x }) c := by
  unfold wdResumed
  split
  · exact ⟨_, _, rfl⟩
  · exact ⟨c.pwms[n].wd, c.pwms[n].wdNew, (updPwm_same rfl).symm⟩

/-- The counter of a channel that starts, before PWM_AORG latches. -/
def counterBegun (n : Fin 96) (c : Chip) : Chip :=
  wdResumed n (atZero n (updPwm n (fun p => { p with angle := c.bit (pwmR n 0) 3, commitAt := none }) c))

theorem pwmBegin_eq (n : Fin 96) (c : Chip) : pwmBegin n c =
    if c.bit (pwmR n 0) 3 then
      (counterBegun n c).setReg (pwmR n 0x4C) (angWord (accPrev (counterBegun n c) (pwmPb (counterBegun n c) n)))
    else counterBegun n c := rfl

theorem counterBegun_spec (n : Fin 96) (c : Chip) :
    (counterBegun n c).pwms[n.val].ran = c.pwms[n.val].ran ∧ (counterBegun n c).pwms[n.val].t0 = 32 * c.now ∧
      (counterBegun n c).pwms[n.val].angle = c.bit (pwmR n 0) 3 ∧
      accPrev (counterBegun n c) (pwmPb (counterBegun n c) n) = accPrev c (pwmPb c n) := by
  obtain ⟨w, x, h⟩ := wdResumed_eq n (atZero n (updPwm n (fun p => { p with angle := c.bit (pwmR n 0) 3, commitAt := none }) c))
  rw [counterBegun, h]
  exact ⟨by simp [atZero], by simp [atZero], by simp [atZero], rfl⟩

/-- A channel that EN has started begins at its zero boundary, with the angle of the cycle before in PWM_AORG where its carrier is
the angle. -/
theorem pwmTurn_begin (hr : pwmRun c n = true) (hw : c.pwms[n].ran = false) :
    (pwmTurn n c).pwms[n].ran = true ∧ (pwmTurn n c).pwms[n].t0 = 32 * c.now ∧
      (pwmTurn n c).pwms[n].angle = c.bit (pwmR n 0) 3 ∧
      (c.bit (pwmR n 0) 3 = true → (pwmTurn n c).reg (pwmR n 0x4C) = angWord (accPrev c (pwmPb c n))) := by
  have h : pwmTurn n c = pwmBegin n (updPwm n (fun p => { p with ran := true, comp := pwmComp c n }) c) := by
    simp [pwmTurn, hr, show c.pwms[n.val].ran = false from hw]
  obtain ⟨hran, ht, hang, hacc⟩ := counterBegun_spec n (updPwm n (fun p => { p with ran := true, comp := pwmComp c n }) c)
  rw [updPwm_get] at hran
  rw [h, pwmBegin_eq]
  generalize counterBegun n _ = d at hran ht hang hacc
  split
  · simp only [Fin.getElem_fin, Chip.setReg_pwms, Chip.reg_setReg_self, hacc]
    exact ⟨hran, ht, hang, fun _ => rfl⟩
  · exact ⟨hran, ht, hang, fun hc => absurd hc ‹_›⟩

/-- A channel that EN has stopped holds its counter where it stood, and both outputs fall. -/
theorem pwmTurn_stop (hr : pwmRun c n = false) (hw : c.pwms[n].ran = true) :
    (pwmTurn n c).pwms[n].ran = false ∧ (pwmTurn n c).pwms[n].outA.lvl = false ∧ (pwmTurn n c).pwms[n].outB.lvl = false ∧
      pwmPos (pwmTurn n c) n = (if c.pwms[n].angle then c.pwms[n].v0 * 2 ^ 11 + c.pwms[n].sub else timePos c n) ∧
      (pwmTurn n c).regs = c.regs := by
  have h : pwmTurn n c = pwmStop n (updPwm n (fun p => { p with ran := false, comp := pwmComp c n }) c) := by
    simp [pwmTurn, hr, show c.pwms[n.val].ran = true from hw]
  have ht (f : Pwm → Pwm) (hf : (f c.pwms[n]).v0 = c.pwms[n].v0 ∧ (f c.pwms[n]).sub = c.pwms[n].sub ∧
      (f c.pwms[n]).t0 = c.pwms[n].t0 ∧ (f c.pwms[n]).down = c.pwms[n].down) : timePos (updPwm n f c) n = timePos c n := by
    obtain ⟨h1, h2, h3, h4⟩ := hf
    simp only [Fin.getElem_fin] at h1 h2 h3 h4
    simp only [timePos, Fin.getElem_fin, updPwm_get, h1, h2, h3, h4]
    rfl
  rw [h, pwmStop, ht _ ⟨rfl, rfl, rfl, rfl⟩]
  simp [OutStage.reset, pwmPos, Nat.div_add_mod']

/-- A change of COMP waits for the levels that the events of the instant leave. -/
theorem pwmTurn_comp (hr : pwmRun c n = true) (hw : c.pwms[n].ran = true) (hc : pwmComp c n ≠ c.pwms[n].comp) :
    (pwmTurn n c).pwms[n].compDue = true ∧ (pwmTurn n c).pwms[n].outA = c.pwms[n].outA ∧
      (pwmTurn n c).pwms[n].outB = c.pwms[n].outB ∧ (pwmTurn n c).regs = c.regs := by
  have hc' : pwmComp c n ≠ c.pwms[n.val].comp := hc
  have h : ∃ d, d = updPwm n (fun p => { p with ran := true, comp := pwmComp c n, compDue := true }) c ∧
      pwmTurn n c = levels n (32 * c.now) d.pwms[n].levA d.pwms[n].levB d := by
    refine ⟨_, rfl, ?_⟩
    simp [pwmTurn, hr, show c.pwms[n.val].ran = true from hw, hc', updPwm_updPwm]
  obtain ⟨d, rfl, h⟩ := h
  obtain ⟨st, xs, hl⟩ := levels_eq n (32 * c.now) _ _ _
  rw [h, hl]
  simp

/-! ### PWM_IPS (04 R113) -/

theorem ipsStep_ipsNow (n : Fin 96) (k : Fin 6) (c : Chip) : (ipsStep n k c).pwms[n].ipsNow = c.pwms[n].ipsNow := by
  unfold ipsStep
  dsimp only
  split <;> simp

theorem ipsStep_iterate (n : Fin 96) (k : Fin 6) (i : Nat) (c : Chip) :
    ((fun c => ipsStep n k c)^[i] c).pwms[n].ipsNow = c.pwms[n].ipsNow ∧
      prescalersOf n ((fun c => ipsStep n k c)^[i] c) = (Prescalers.step k)^[i] (prescalersOf n c) := by
  induction i generalizing c with
  | zero => exact ⟨rfl, rfl⟩
  | succ i ih =>
    obtain ⟨hnow, hview⟩ := ih (ipsStep n k c)
    exact ⟨hnow.trans (ipsStep_ipsNow n k c), hview.trans (by rw [prescalersOf_ipsStep, Function.iterate_succ_apply])⟩

theorem ipsStep_reg {a : Nat} (n : Fin 96) (k : Fin 6) (c : Chip) (h : a ≠ pwmR n 0x3C) : (ipsStep n k c).reg a = c.reg a := by
  unfold ipsStep
  dsimp only
  split
  · exact Chip.reg_setBits_ne _ _ h
  · rfl

/-- The occurrences of the present cycle through each prescaler of a list. -/
def ipsAgain (n : Fin 96) (ks : List (Fin 6)) (c : Chip) : Chip :=
  ks.foldl (fun (c : Chip) (k : Fin 6) => (List.range c.pwms[n].ipsNow[k]).foldl (fun c _ => ipsStep n k c) c) c

theorem ipsWrite_eq (n : Fin 96) (v : Word) (c : Chip) : ipsWrite n v c = ipsAgain n (List.finRange 6)
    (updPwm n (fun p => { p with ips := Vector.replicate 6 0 }) (c.setReg (pwmR n 0x38) (v &&& 0xFFFFFF))) := rfl

theorem ipsAgain_reg {a : Nat} (n : Fin 96) (ks : List (Fin 6)) (c : Chip) (h : a ≠ pwmR n 0x3C) : (ipsAgain n ks c).reg a = c.reg a :=
  foldl_keeps (·.reg a) _ (fun c k => foldl_keeps (·.reg a) _ (fun c _ => ipsStep_reg n k c h) _ c) ks c

theorem ipsWrite_reg {a : Nat} (v : Word) (c : Chip) (h : a ≠ pwmR n 0x3C) :
    (ipsWrite n v c).reg a = (c.setReg (pwmR n 0x38) (v &&& 0xFFFFFF)).reg a := by
  rw [ipsWrite_eq, ipsAgain_reg n _ _ h, Chip.reg_updPwm]

theorem prescalersOf_ipsAgain (n : Fin 96) (ks : List (Fin 6)) (c : Chip) :
    prescalersOf n (ipsAgain n ks c) = (prescalersOf n c).steps (fun k => c.pwms[n].ipsNow[k]) ks := by
  induction ks generalizing c with
  | nil => rfl
  | cons k ks ih =>
    obtain ⟨hnow, hview⟩ := ipsStep_iterate n k c.pwms[n].ipsNow[k] c
    rw [ipsAgain, List.foldl_cons, List.foldl_const, List.length_range]
    refine (ih _).trans ?_
    rw [hnow, hview]
    rfl

/-- A field of PWM_IPS takes the bits written. -/
theorem ipsField (v : Word) (j : Fin 6) : (v &&& 0xFFFFFF).fld (4 * j.val) 4 = v.fld (4 * j.val) 4 := by
  refine Nat.eq_of_testBit_eq fun i => ?_
  rw [Word.fld_testBit, Word.fld_testBit, BitVec.getLsbD_and, show (0xFFFFFF : Word) = BitVec.ofNat 32 (2 ^ 24 - 1) from rfl,
    BitVec.getLsbD_ofNat, Nat.testBit_two_pow_sub_one]
  by_cases hi : i < 4
  · simp [hi, show 4 * j.val + i < 32 by omega, show 4 * j.val + i < 24 by omega]
  · simp [hi]

theorem prescalersOf_ipsWrite (n : Fin 96) (v : Word) (c : Chip) : prescalersOf n (ipsWrite n v c) =
    (⟨v &&& 0xFFFFFF, Vector.replicate 6 0, c.reg (pwmR n 0x3C)⟩ : Prescalers).steps (fun k => c.pwms[n].ipsNow[k])
      (List.finRange 6) := by
  rw [ipsWrite_eq, prescalersOf_ipsAgain]
  simp [prescalersOf, Chip.reg_setReg]

/-- A write of PWM_IPS restarts every count; the occurrences of its cycle count as the first under the new value. -/
theorem ipsWrite_spec (n : Fin 96) (v : Word) (c : Chip) (j : Fin 6) :
    (c.pwms[n].ipsNow[j] = 0 → (ipsWrite n v c).pwms[n].ips[j] = 0) ∧
    (c.pwms[n].ipsNow[j] = 1 → v.fld (4 * j.val) 4 = 0 → (ipsWrite n v c).pwms[n].ips[j] = 0 ∧
      (ipsWrite n v c).bit (pwmR n 0x3C) j.val = true) ∧
    (c.pwms[n].ipsNow[j] = 1 → v.fld (4 * j.val) 4 ≠ 0 → (ipsWrite n v c).pwms[n].ips[j] = 1) := by
  obtain ⟨y, hy, hz⟩ := Prescalers.steps_all j (fun k => c.pwms[n].ipsNow[k])
    ⟨v &&& 0xFFFFFF, Vector.replicate 6 0, c.reg (pwmR n 0x3C)⟩
  rw [← prescalersOf_ipsWrite] at hz
  have hlim : y.limits.fld (4 * j.val) 4 = v.fld (4 * j.val) 4 := by rw [hy.limits]; exact ipsField v j
  have hcnt : y.counts[j] = 0 := hy.count.trans (by simp)
  have hstep := y.step_self j
  rw [hlim, hcnt] at hstep
  generalize ipsWrite n v c = d at hz
  generalize c.pwms[n].ipsNow[j] = m at hz
  refine ⟨fun h0 => ?_, fun h1 hl => ?_, fun h1 hl => ?_⟩
  · subst h0
    exact hz.count.trans hcnt
  · subst h1
    rw [if_pos (Nat.le_of_eq hl)] at hstep
    exact ⟨hz.count.trans hstep.1, hz.flag.trans hstep.2⟩
  · subst h1
    rw [if_neg (by omega)] at hstep
    exact hz.count.trans hstep

/-! ### The safe-level copies (05 R137) -/

/-- The copies are taken at the end of a cycle after a write, but where they hold. -/
theorem copyCycle_copies {pos : Fin 192} {t : Nat} (ht : t ∈ c.pins.copyDue) (hn : t < c.now) (hh : copyHeld c pos = false) :
    (copyCycle c).outs[pos].copy = copyOf c pos := by
  have ha : c.pins.copyDue.any (fun t => decide (t < c.now)) = true := List.any_eq_true.2 ⟨t, ht, by simpa using hn⟩
  simp [copyCycle, ha, hh]

theorem copyCycle_waits (h : ∀ t ∈ c.pins.copyDue, c.now ≤ t) : copyCycle c = c := by
  have ha : c.pins.copyDue.any (fun t => decide (t < c.now)) = false := List.any_eq_false.2 fun t ht => by simpa using h t ht
  simp [copyCycle, ha]

/-! ### The writes into the commit stages (05 R119 to R128) -/

theorem cmtcfgWrite_taken {v : Word} (ini : Initiator) (hs : c.sealed = false) (hp : v.fld 0 3 < 6)
    (hq : v.bit 8 = true → v.fld 0 3 ≠ 3 ∧ v.fld 0 3 ≠ 5) : cmtcfgWrite ini n v c = c.setReg (pwmR n 0x80) (v &&& 0x1FF) := by
  have hp' : ¬ 6 ≤ v.fld 0 3 := by omega
  cases h8 : v.bit 8
  · simp [cmtcfgWrite, cfgOpen_of_unsealed ini _ hs, hp', h8]
  · simp [cmtcfgWrite, cfgOpen_of_unsealed ini _ hs, hp', h8, hq h8]

theorem closeSet_coherent (hc : cmtCoh c n = true) (hq : cmtSqen c n = false) : closeSet n c = putSet n .close c := by
  simp [closeSet, hc, hq]

theorem closeSet_eq (n : Fin 96) (c : Chip) : closeSet n c = updPwm n (fun p => { p with
    writes := p.writes ++ if cmtCoh c n = true ∧ cmtSqen c n = false then [.close] else [] }) c := by
  unfold closeSet
  split
  · rename_i h; rw [if_pos (by simpa using h)]; rfl
  · rename_i h
    rw [if_neg (by simpa using h)]
    exact (updPwm_same (by simp)).symm

/-- A shadow written while the channel stands becomes active too. -/
theorem shadowWr_standing (k : Fin 8) (v : Word) (hr : pwmRun c n = false) :
    shadowWr n k v c = (putSet n (.shadow k (cmtVal k v)) c).setReg (activeR n k) (cmtVal k v) := by
  have hr' : pwmRun (putSet n (.shadow k (cmtVal k v)) c) n = false := hr
  simp [shadowWr, hr']

/-- A shadow written while the channel runs, with the CLOSE that the closer brings. -/
theorem shadowWr_running (k : Fin 8) (v : Word) (hr : pwmRun c n = true) :
    shadowWr n k v c = updPwm n (fun p => { p with writes := p.writes ++ SetWrite.shadow k (cmtVal k v) ::
      (if cmtCloser c n = k.val + 1 ∧ cmtCoh c n = true ∧ cmtSqen c n = false then [.close] else []) }) c := by
  have hr' : pwmRun (putSet n (.shadow k (cmtVal k v)) c) n = true := hr
  have hk : cmtCloser (putSet n (.shadow k (cmtVal k v)) c) n = cmtCloser c n := rfl
  have hc : cmtCoh (putSet n (.shadow k (cmtVal k v)) c) n = cmtCoh c n := rfl
  have hq : cmtSqen (putSet n (.shadow k (cmtVal k v)) c) n = cmtSqen c n := rfl
  simp only [shadowWr, hr', hk, closeSet_eq, hc, hq]
  by_cases h : cmtCloser c n = k.val + 1
  · simp [h, putSet, updPwm_updPwm]
  · simp [h, putSet]

/-- Each element of a vector changed once, in the order of a list of indices. -/
theorem foldl_set_get {α : Type} {m : Nat} (f : Fin m → α → α) {ks : List (Fin m)} (hn : ks.Nodup) (x : Vector α m) (j : Fin m) :
    (ks.foldl (fun s k => s.set k (f k s[k])) x)[j] = if j ∈ ks then f j x[j] else x[j] := by
  induction ks generalizing x with
  | nil => simp
  | cons k ks ih =>
    obtain ⟨hk, hks⟩ := List.nodup_cons.1 hn
    rw [List.foldl_cons, ih hks]
    by_cases hj : k = j
    · subst hj
      simp [hk]
    · have hv : k.val ≠ j.val := fun e => hj (Fin.ext e)
      simp [Ne.symm hj, hv]

/-- A push puts the writer's staging words in line, each as it is stored. -/
theorem sqPush_puts {v : Word} (ix : Nat) (h : v.bit 0 = true) :
    sqPush n ix v c = putSet n (.push ix (Vector.ofFn fun j : Fin 8 => cmtVal j (stagingOf c n ix)[j])) c := by
  have hf (x : Vector Word 8) : (List.finRange 8).foldl (fun (s : Vector Word 8) (k : Fin 8) => s.set k (cmtVal k s[k])) x =
      Vector.ofFn fun j : Fin 8 => cmtVal j x[j] := by
    refine Vector.ext fun i hi => ?_
    have h := foldl_set_get cmtVal (List.nodup_finRange 8) x ⟨i, hi⟩
    simpa using h
  rw [sqPush, if_pos h, hf]

theorem cmtWrite_close {v : Word} (h0 : v.bit 0 = true) (h1 : v.bit 1 = false) (hc : cmtCoh c n = true) (hq : cmtSqen c n = false) :
    cmtWrite n v c = putSet n .close c := by
  simp [cmtWrite, h0, h1, closeSet_coherent hc hq]

theorem cmtWrite_flush {v : Word} (h0 : v.bit 0 = false) (h1 : v.bit 1 = true) : cmtWrite n v c = putSet n .flush c := by
  simp [cmtWrite, h0, h1, sqFlush]

/-! ### The end of a cycle (05 R121 to R128) -/

/-- The cycle holds one write into the commit stages, with no IMMEDIATE commit and no change of COH. -/
structure OneWrite (n : Fin 96) (w : SetWrite) (c : Chip) : Prop where
  writes : c.pwms[n.val].writes = [w]
  point : cmtPoint c n ≠ 3
  coh : cmtCoh c n = c.bit (pwmR n 0x80) 3

theorem updSet_get (n : Fin 96) (f : PwmSet → PwmSet) (c : Chip) :
    (updSet n f c).pwms[n.val] = { c.pwms[n.val] with cur := f c.pwms[n.val].cur } := updPwm_get n _ c

@[simp] theorem updSet_id (n : Fin 96) (c : Chip) : updSet n (fun s => s) c = c := updPwm_same rfl

/-- Whether a write is one that a commit point of its own cycle misses (R121). -/
def SetWrite.missable (w : SetWrite) : Bool := match w with | .shadow _ _ => true | .close => true | _ => false

/-- A CLOSE takes all eight shadows to the hold stage. -/
def PwmSet.closed (s : PwmSet) : PwmSet := { s with hold := s.shadow, held := true, isOpen := false, written := 0 }

/-- The stages once the writes of a cycle have entered them. -/
def entered (n : Fin 96) (ws : List SetWrite) (c : Chip) : Chip :=
  let d := updSet n (fun s => ws.foldl (setTake (pwmRun c n) (cmtCoh c n && !cmtSqen c n)) s) c
  if ws.contains .close then updSet n PwmSet.closed d else d

/-- Writes that missed a commit point of their cycle are noted. -/
def missNoted (n : Fin 96) (run miss : Bool) (c : Chip) : Chip :=
  if run && committedNow c n && miss then c.setBits (pwmR n 0x88) (2 ^ 9) else c

theorem shadowEnd_eq {ws : List SetWrite} (h : c.pwms[n].writes = ws) :
    shadowEnd n c = missNoted n (pwmRun c n) (ws.any SetWrite.missable) (entered n ws c) := by
  subst h
  rfl

theorem missNoted_hit (n : Fin 96) (run : Bool) (c : Chip) : missNoted n run false c = c := by simp [missNoted]

theorem missNoted_cases (n : Fin 96) (run miss : Bool) (c : Chip) :
    missNoted n run miss c = c ∨ missNoted n run miss c = c.setBits (pwmR n 0x88) (2 ^ 9) := by
  unfold missNoted
  split
  · exact .inr rfl
  · exact .inl rfl

@[simp] theorem missNoted_regs0 (n : Fin 96) (run miss : Bool) (c : Chip) : (missNoted n run miss c).regs0 = c.regs0 := by
  rcases missNoted_cases n run miss c with h | h <;> rw [h]; rfl

@[simp] theorem missNoted_pwms (n : Fin 96) (run miss : Bool) (c : Chip) : (missNoted n run miss c).pwms = c.pwms := by
  rcases missNoted_cases n run miss c with h | h <;> rw [h]; rfl

theorem missNoted_reg {off : Nat} (run miss : Bool) (c : Chip) (h : off ≠ 0x88) :
    (missNoted n run miss c).reg (pwmR n off) = c.reg (pwmR n off) := by
  rcases missNoted_cases n run miss c with e | e <;> rw [e]
  exact Chip.reg_setBits_ne _ _ (by rwa [Ne, pwmR_inj])

/-- The stages play no part in whether the cycle had a commit point. -/
theorem committedNow_updSet (n : Fin 96) (f : PwmSet → PwmSet) (c : Chip) : committedNow (updSet n f c) n = committedNow c n := by
  have h : (updSet n f c).pwms[n].commitAt = c.pwms[n].commitAt := by simp [updSet_get]
  rw [committedNow, h]
  rfl

theorem entered_shadow (k : Fin 8) (x : Word) : entered n [.shadow k x] c =
    updSet n (fun s => setTake (pwmRun c n) (cmtCoh c n && !cmtSqen c n) s (.shadow k x)) c := rfl

theorem entered_close : entered n [.close] c = updSet n PwmSet.closed c :=
  (show _ = updSet n PwmSet.closed (updSet n (fun s => s) c) from rfl).trans (by rw [updSet_id])

theorem entered_flush : entered n [.flush] c = c := (show _ = updSet n (fun s => s) c from rfl).trans (updSet_id n c)

theorem entered_push (ix : Nat) (x : Vector Word 8) : entered n [.push ix x] c = c :=
  (show _ = updSet n (fun s => s) c from rfl).trans (updSet_id n c)

/-- The cycle's writes are all done. -/
def writesDone (n : Fin 96) (c : Chip) : Chip := updPwm n (fun p => { p with writes := [] }) c

/-- After the shadows only a FLUSH and a push are left to do. -/
theorem OneWrite.setEnd_of_shadowEnd {w : SetWrite} {d : Chip} (h : OneWrite n w c) (hd : shadowEnd n c = d) (h0 : d.regs0 = c.regs0)
    (h80 : d.reg (pwmR n 0x80) = c.reg (pwmR n 0x80)) : setEnd n c =
      writesDone n (pushTake n w (if w = .flush then updSet n (fun s => { s with setq := [] }) d else d)) := by
  have hp : cmtPoint d n = cmtPoint c n := by simp only [cmtPoint, Chip.fld0, Chip.reg0, h0]
  have hc : cmtCoh d n = c.bit (pwmR n 0x80) 3 := by
    rw [← h.coh]
    simp only [cmtCoh, Chip.bit0, Chip.reg0, h0]
  have hi : immediateEnd n d = d := by simp [immediateEnd, hp, h.point]
  have hb : d.bit (pwmR n 0x80) 3 = c.bit (pwmR n 0x80) 3 := by simp only [Chip.bit, h80]
  have hco : cohEnd n d = d := by simp [cohEnd, hc, hb]
  have hw : c.pwms[n].writes = [w] := h.writes
  have hf : [w].contains .flush = decide (w = .flush) := by
    rw [List.contains_cons, List.contains_nil, Bool.or_false]
    exact decide_eq_decide.2 eq_comm
  unfold setEnd
  dsimp only
  rw [hw]
  simp only [List.isEmpty_cons, Bool.false_eq_true, if_false, hd, hi, hco, List.foldl_cons, List.foldl_nil, hf, decide_eq_true_eq,
    writesDone]

/-- The same, from the stages that the write has entered. -/
theorem OneWrite.setEnd_eq {w : SetWrite} {d : Chip} (h : OneWrite n w c) (hd : entered n [w] c = d) (h0 : d.regs0 = c.regs0)
    (h80 : d.regs = c.regs) : setEnd n c =
      let e := missNoted n (pwmRun c n) w.missable d
      writesDone n (pushTake n w (if w = .flush then updSet n (fun s => { s with setq := [] }) e else e)) := by
  have hs : shadowEnd n c = missNoted n (pwmRun c n) w.missable d := by
    rw [shadowEnd_eq h.writes, hd, List.any_cons, List.any_nil, Bool.or_false]
  have he0 : (shadowEnd n c).regs0 = c.regs0 := by rw [hs, missNoted_regs0, h0]
  have he80 : (shadowEnd n c).reg (pwmR n 0x80) = c.reg (pwmR n 0x80) := by
    rw [hs, missNoted_reg _ _ _ (by decide), Chip.reg_congr h80]
  rw [← hs]
  exact h.setEnd_of_shadowEnd rfl he0 he80

theorem OneWrite.setEnd_shadow {k : Fin 8} {x : Word} (h : OneWrite n (.shadow k x) c) : setEnd n c =
    writesDone n (missNoted n (pwmRun c n) true
      (updSet n (fun s => setTake (pwmRun c n) (cmtCoh c n && !cmtSqen c n) s (.shadow k x)) c)) :=
  (h.setEnd_eq (entered_shadow k x) rfl rfl).trans rfl

theorem OneWrite.setEnd_close (h : OneWrite n .close c) : setEnd n c =
    writesDone n (missNoted n (pwmRun c n) true (updSet n PwmSet.closed c)) :=
  (h.setEnd_eq entered_close rfl rfl).trans rfl

theorem OneWrite.setEnd_flush (h : OneWrite n .flush c) :
    setEnd n c = writesDone n (updSet n (fun s => { s with setq := [] }) c) := by
  have he := h.setEnd_eq entered_flush rfl rfl
  rwa [show SetWrite.missable .flush = false from rfl, missNoted_hit] at he

theorem OneWrite.setEnd_push {ix : Nat} {x : Vector Word 8} (h : OneWrite n (.push ix x) c) :
    setEnd n c = writesDone n (pushTake n (.push ix x) c) := by
  have he := h.setEnd_eq (entered_push ix x) rfl rfl
  rwa [show SetWrite.missable (.push ix x) = false from rfl, missNoted_hit] at he

/-- The record and the note of a cycle whose one write entered the stages. -/
theorem missNoted_updSet_spec (n : Fin 96) (run : Bool) (f : PwmSet → PwmSet) (c : Chip) :
    let d := writesDone n (missNoted n run true (updSet n f c))
    d.pwms[n].writes = [] ∧ d.pwms[n].cur = f c.pwms[n].cur ∧
      (run = true → committedNow c n = true → d.bit (pwmR n 0x88) 9 = true) := by
  refine ⟨by simp [writesDone], by simp [writesDone, updSet_get], fun hr hc => ?_⟩
  have h : missNoted n run true (updSet n f c) = (updSet n f c).setBits (pwmR n 0x88) (2 ^ 9) := by
    simp [missNoted, hr, committedNow_updSet, hc]
  rw [h, writesDone, Chip.bit_updPwm, Chip.bit_setBits_pow _ _ (by omega)]

/-- A shadow is kept, counted as written while the channel runs, and opens a set in coherent mode without the set queue (R100, R123,
R124). -/
theorem OneWrite.setEnd_shadow_spec {k : Fin 8} {x : Word} (h : OneWrite n (.shadow k x) c) :
    let q := (setEnd n c).pwms[n].cur
    (setEnd n c).pwms[n].writes = [] ∧ q.shadow = c.pwms[n].cur.shadow.set k x ∧ q.hold = c.pwms[n].cur.hold ∧
      q.setq = c.pwms[n].cur.setq ∧
      (pwmRun c n = true → q.written.getLsbD k.val = true ∧ (cmtCoh c n = true → cmtSqen c n = false → q.isOpen = true) ∧
        (committedNow c n = true → (setEnd n c).bit (pwmR n 0x88) 9 = true)) := by
  obtain ⟨hw, hq, hb⟩ := missNoted_updSet_spec n (pwmRun c n)
    (fun s => setTake (pwmRun c n) (cmtCoh c n && !cmtSqen c n) s (.shadow k x)) c
  rw [← h.setEnd_shadow] at hw hq hb
  dsimp only
  rw [hw, hq]
  cases hr : pwmRun c n
  · exact ⟨rfl, rfl, rfl, rfl, nofun⟩
  · refine ⟨rfl, rfl, rfl, rfl, fun _ => ⟨?_, fun h1 h2 => ?_, hb hr⟩⟩
    · rw [setTake, if_pos rfl, BitVec.getLsbD_or, BitVec.getLsbD_ofNat, Nat.testBit_two_pow_self]
      simp
    · simp [setTake, h1, h2]

/-- A CLOSE takes all shadows to the hold stage (R123). -/
theorem OneWrite.setEnd_close_spec (h : OneWrite n .close c) :
    let q := (setEnd n c).pwms[n].cur
    (setEnd n c).pwms[n].writes = [] ∧ q.hold = c.pwms[n].cur.shadow ∧ q.held = true ∧ q.isOpen = false ∧
      q.shadow = c.pwms[n].cur.shadow ∧
      (pwmRun c n = true → committedNow c n = true → (setEnd n c).bit (pwmR n 0x88) 9 = true) := by
  obtain ⟨hw, hq, hb⟩ := missNoted_updSet_spec n (pwmRun c n) PwmSet.closed c
  rw [← h.setEnd_close] at hw hq hb
  dsimp only
  rw [hw, hq]
  exact ⟨rfl, rfl, rfl, rfl, rfl, hb⟩

/-- A FLUSH empties the queue (R128). -/
theorem OneWrite.setEnd_flush_spec (h : OneWrite n .flush c) : (setEnd n c).pwms[n].writes = [] ∧
    (setEnd n c).pwms[n].cur = { c.pwms[n].cur with setq := [] } ∧ (setEnd n c).regs = c.regs := by
  rw [h.setEnd_flush, writesDone]
  exact ⟨by simp, by simp [updSet_get], rfl⟩

/-- A push enters the queue, or a ninth set is discarded (R127, R128). -/
theorem OneWrite.setEnd_push_spec {ix : Nat} {x : Vector Word 8} (h : OneWrite n (.push ix x) c) :
    (setEnd n c).pwms[n].writes = [] ∧
    if c.pwms[n].cur.setq.length < 8 then (setEnd n c).pwms[n].cur = { c.pwms[n].cur with setq := c.pwms[n].cur.setq ++ [x] } ∧
      (setEnd n c).regs = c.regs ∧
      aread 0 (setEnd n c).pwms[n].sqres ix = BitVec.ofNat 32 (4 + 16 * (c.pwms[n].cur.setq.length + 1))
    else (setEnd n c).pwms[n].cur = c.pwms[n].cur ∧ (setEnd n c).bit (pwmR n 0x88) 11 = true := by
  rw [h.setEnd_push, writesDone, pushTake]
  dsimp only
  split
  · simp
  · refine ⟨by simp, by simp, ?_⟩
    rw [Chip.bit_updPwm, Chip.bit_setBits_pow _ _ (by omega)]

/-! ### Trips (05 R135) -/

theorem tripClear_due {v : Word} (h : v.bit 0 = true) : tripClear n v c = updPwm n (fun p => { p with clrDue := true }) c := by
  simp [tripClear, h]

theorem tripFree_regs (n : Fin 96) (c : Chip) : (tripFree n c).regs = c.regs := by
  unfold tripFree
  split <;> rfl

/-- The end of a cycle in which TRIPCLR was written: the latch clears unless a selected input is active. -/
theorem tripEnd_cleared (hd : c.pwms[n].clrDue = true) :
    (tripEnd n c).regs = (if tripHits c n = true then c else c.clrBits (pwmR n 0x88) (2 ^ 14)).regs := by
  have hd' : c.pwms[n.val].clrDue = true := hd
  simp only [tripEnd, apply_ite Chip.regs, tripFree_regs, Fin.getElem_fin, hd']
  cases tripHits c n <;> simp [hd']

/-! ### The statement -/

/-- Settles O35: each write of a channel's registers, and what the end of its cycle does with it. -/
theorem pwmCommands : Obligations.PwmCommands := by
  unfold Obligations.PwmCommands
  intro s ini n pos k v hrun c p cfg open_ sets puts staged ends
  have puts_of {i : Instr} {off : Nat} {f : Chip → Chip} {ws : List SetWrite} (he : exec i s = s.onChip (gatedWrite ini (pwmR n off) f))
      (hg : open_ off) (hf : f c.ack = updPwm n (fun p => { p with writes := p.writes ++ ws }) c.ack) : puts i ws :=
    goes_write hrun he hg hf ⟨rfl, updPwm_get n _ c⟩
  refine ⟨fun hg hs hm => ⟨fun h1 h0 hr => ?_, fun h1 => ?_⟩, ⟨fun hr hw => pwmTurn_begin hr hw, fun hr hw => pwmTurn_stop hr hw⟩,
    fun hg => ?_, fun hg hs => ?_, fun hg hs => ?_, fun t ht hn hh => copyCycle_copies ht hn hh, copyCycle_waits,
    fun hr hw hc => pwmTurn_comp hr hw hc, fun hg hs hp hq => ?_, fun hg => ⟨fun hr => ?_, fun hr => ?_⟩,
    fun hg h0 h1 hc hq => ?_, fun hg h0 h1 => ?_, fun hg h0 => ?_, fun x hw hp hc => OneWrite.setEnd_shadow_spec ⟨hw, hp, hc⟩,
    fun hw hp hc => OneWrite.setEnd_close_spec ⟨hw, hp, hc⟩, fun hw hp hc => OneWrite.setEnd_flush_spec ⟨hw, hp, hc⟩,
    fun ix x hw hp hc => OneWrite.setEnd_push_spec ⟨hw, hp, hc⟩, fun hg h0 => ?_, fun hd => ⟨fun hh => ?_, fun hh => ?_⟩⟩
  · exact goes_sets hrun rfl hg (pwmCfgWrite_enable (c := c.ack) ini hs hm h1 h0 hr) rfl rfl
  · exact goes_sets hrun rfl hg (pwmCfgWrite_disable (c := c.ack) ini hs hm h1) rfl rfl
  · refine goes_gatedWrite hrun rfl hg ⟨?_, fun a ha => ?_, fun j => ?_⟩
    · rw [State.after_chip, ipsWrite_reg v _ (by rw [Ne, pwmR_inj]; decide)]
      exact Chip.reg_setReg_self _ _ _
    · rw [List.mem_cons, List.mem_singleton, not_or] at ha
      rw [State.after_chip, ipsWrite_reg v _ ha.2]
      exact Chip.reg_setReg_ne _ _ ha.1
    · rw [State.after_chip]
      exact ipsWrite_spec n v c.ack j
  · have he : xbarWrite pos v c.ack = copySoon (c.ack.setReg (xbarR pos) (v &&& 0xFF)) := by
      simp [xbarWrite, show c.ack.sealed = false from hs]
    exact ⟨goes_sets hrun rfl hg he rfl rfl, goes_write hrun rfl hg he rfl⟩
  · have he : safeWrite ini n v c.ack = copySoon (c.ack.setReg (pwmR n 0x9C) (v &&& 0xF)) := by
      simp [safeWrite, cfgOpen_of_unsealed (c := c.ack) ini _ hs]
    exact ⟨goes_sets hrun rfl hg he rfl rfl, goes_write hrun rfl hg he rfl⟩
  · exact goes_sets hrun rfl hg (cmtcfgWrite_taken (c := c.ack) ini hs hp hq) rfl rfl
  · exact goes_write hrun rfl hg (shadowWr_standing k v (c := c.ack) hr)
      ⟨Chip.reg_setReg_self _ _ _, fun a ha => Chip.reg_setReg_ne _ _ (by simpa using ha), updPwm_get n _ c⟩
  · exact puts_of rfl hg (shadowWr_running k v (c := c.ack) hr)
  · exact puts_of rfl hg (cmtWrite_close (c := c.ack) h0 h1 hc hq)
  · exact puts_of rfl hg (cmtWrite_flush (c := c.ack) h0 h1)
  · exact puts_of rfl hg (sqPush_puts (c := c.ack) (iniIx ini) h0)
  · exact goes_write hrun rfl hg (tripClear_due h0) ⟨rfl, updPwm_get n _ c⟩
  · rw [Chip.bit, Chip.reg_congr (tripEnd_cleared hd), hh]
    exact Chip.bit_clrBits_pow c _ (by omega)
  · rw [tripEnd_cleared hd, if_pos hh]

end Sys2Proof.Machine

/-! PROOFS. The output stage of a PWM channel (04 R104, R105): what a rise that falls due and the end of a minimum pulse do. -/

namespace Sys2Proof.Machine

variable {n : Fin 96} {c : Chip}

/-! ### The two outputs of a channel -/

@[simp] theorem getOut_updOut_self (n : Fin 96) (outB : Bool) (f : OutStage → OutStage) (c : Chip) :
    getOut (updOut n outB f c) n outB = f (getOut c n outB) := by
  cases outB <;> simp [getOut, updOut]

@[simp] theorem getOut_updOut_other (n : Fin 96) (outB : Bool) (f : OutStage → OutStage) (c : Chip) :
    getOut (updOut n outB f c) n (!outB) = getOut c n (!outB) := by
  cases outB <;> simp [getOut, updOut]

/-- A change of one output changes the outputs of the channel's record alone. -/
theorem updOut_eq (n : Fin 96) (outB : Bool) (f : OutStage → OutStage) (c : Chip) :
    ∃ a b, updOut n outB f c = updPwm n (fun p => { p with outA := a, outB := b }) c := by
  cases outB
  · exact ⟨f c.pwms[n].outA, c.pwms[n].outB, updPwm_congr rfl⟩
  · exact ⟨c.pwms[n].outA, f c.pwms[n].outB, updPwm_congr rfl⟩

/-! ### The coming fall of an output (R105) -/

/-- The instants of the coming events do not depend on the outputs. -/
theorem arrival_updOut (outB : Bool) (f : OutStage → OutStage) (dist : Nat) : arrival (updOut n outB f c) n dist = arrival c n dist := by
  obtain ⟨a, b, h⟩ := updOut_eq n outB f c
  rw [h]
  simp only [arrival, pwmAngle, angAdvance, angPath, Fin.getElem_fin, updPwm_get]
  rfl

theorem comingFrom_updOut (outB : Bool) (f : OutStage → OutStage) (k : Nat) : comingFrom (updOut n outB f c) n k = comingFrom c n k := by
  obtain ⟨a, b, h⟩ := updOut_eq n outB f c
  rw [h]
  simp only [comingFrom, Fin.getElem_fin, updPwm_get]
  rfl

theorem fallFrom_congr {d : Chip} (h : ∀ dist, arrival d n dist = arrival c n dist) (outB comp : Bool) (acta actb : Word)
    (es : List (Nat × PwmEv)) (la lb : Bool) : fallFrom d n outB comp acta actb es la lb = fallFrom c n outB comp acta actb es la lb := by
  induction es generalizing la lb with
  | nil => rfl
  | cons e es ih => simp only [fallFrom, h, ih]

/-- The fall that the coming events bring to an output (R105). -/
def fallComing (c : Chip) (n : Fin 96) (outB : Bool) : Option Nat :=
  fallFrom c n outB (pwmComp c n) (cfgNow c n).2.1 (cfgNow c n).2.2.1 (comingFrom c n 4) c.pwms[n].levA c.pwms[n].levB

theorem fallComing_updOut (b outB : Bool) (f : OutStage → OutStage) : fallComing (updOut n b f c) n outB = fallComing c n outB := by
  obtain ⟨x, y, h⟩ := updOut_eq n b f c
  have hl : (updOut n b f c).pwms[n].levA = c.pwms[n].levA ∧ (updOut n b f c).pwms[n].levB = c.pwms[n].levB := by
    rw [h]
    simp
  rw [fallComing, fallComing, comingFrom_updOut, hl.1, hl.2]
  exact fallFrom_congr (arrival_updOut b f) _ _ _ _ _ _ _

/-! ### A rise that falls due (R104) -/

/-- A rise of output `outB` that nothing holds back or makes narrow: the output is low and driven, in complementary mode the other
output is low with its dead band over, and no fall comes within the minimum pulse. -/
structure RisesClean (n : Fin 96) (outB : Bool) (r : Rise) (c : Chip) : Prop where
  low : (getOut c n outB).lvl = false
  driven : (getOut c n outB).drv = true
  open_ : r.fall = none
  clear : pwmComp c n = true → (getOut c n (!outB)).lvl = false ∧ bandEnd (getOut c n (!outB)) (deadBand c n outB) ≤ r.due
  wide : ∀ f, fallComing c n outB = some f → r.due < f ∧ r.due + pwmMinp c n ≤ f

theorem RisesClean.riseAt_eq {outB : Bool} {r : Rise} (h : RisesClean n outB r c) : riseAt n outB r c =
    updOut n outB (fun o => { o with lvl := true, start := r.due, minp := pwmMinp c n }) (pushEdge n outB r.due true c) := by
  obtain ⟨hlow, hdrv, hfall, hclear, hwide⟩ := h
  have hcomp : (cfgNow c n).2.2.2.1.bit 0 = pwmComp c n := rfl
  have h1 : ¬ (pwmComp c n && (getOut c n (!outB)).lvl && !(getOut c n outB).lvl) = true := by
    intro e
    simp only [Bool.and_eq_true] at e
    simp [(hclear e.1.1).1] at e
  have h2 : ¬ (pwmComp c n && !(getOut c n outB).lvl && decide (r.due < bandEnd (getOut c n (!outB)) (deadBand c n outB))) = true := by
    intro e
    simp only [Bool.and_eq_true, decide_eq_true_eq] at e
    exact absurd (hclear e.1.1).2 (by omega)
  have h3 : (if r.fall.isSome then r.fall else if (getOut c n outB).drv then
      fallFrom c n outB (pwmComp c n) (cfgNow c n).2.1 (cfgNow c n).2.2.1 (comingFrom c n 4) c.pwms[n].levA c.pwms[n].levB
      else some r.due) = fallComing c n outB := by
    rw [hfall, hdrv]
    rfl
  unfold riseAt
  dsimp only
  rw [hcomp, if_neg h1, if_neg h2, h3, hlow]
  cases hf : fallComing c n outB with
  | none => simp
  | some f =>
    obtain ⟨hs, hm⟩ := hwide f hf
    rw [if_neg (by simp; omega), if_neg (by simpa using hm), if_neg Bool.false_ne_true]

/-- The only rise of an instant: it leaves its place, and is judged. -/
theorem deadBandAt_one {outB : Bool} {phi : Nat} {r : Rise}
    (h : (getOut c n outB).rises.filter (fun x => x.due == c.instant phi) = [r]) : deadBandAt n outB phi c =
      riseAt n outB r (updOut n outB (fun o => { o with rises := o.rises.filter (fun x => x.due != c.instant phi) }) c) := by
  unfold deadBandAt
  dsimp only
  rw [h]
  rfl

theorem deadBandAt_none {outB : Bool} {phi : Nat} (h : ∀ r ∈ (getOut c n outB).rises, r.due ≠ c.instant phi) :
    deadBandAt n outB phi c = c := by
  have hf : (getOut c n outB).rises.filter (fun x => x.due == c.instant phi) = [] :=
    List.filter_eq_nil_iff.2 fun r hr => by simpa using h r hr
  simp [deadBandAt, hf]

theorem rise_due {rs : List Rise} {r : Rise} {T : Nat} (h : rs.filter (fun x => x.due == T) = [r]) : r.due = T := by
  have hm : r ∈ rs.filter (fun x => x.due == T) := by rw [h]; exact List.mem_singleton.2 rfl
  simpa using (List.mem_filter.1 hm).2

/-- A rise that falls due with nothing in its way raises its output. -/
theorem deadBandAt_rises {outB : Bool} {phi : Nat} {r : Rise}
    (h : (getOut c n outB).rises.filter (fun x => x.due == c.instant phi) = [r]) (hr : RisesClean n outB r c) :
    let o := getOut (deadBandAt n outB phi c) n outB
    o.lvl = true ∧ o.start = c.instant phi ∧ ∀ x ∈ o.rises, x.due ≠ c.instant phi := by
  have hdue := rise_due h
  obtain ⟨hlow, hdrv, hfall, hclear, hwide⟩ := hr
  have hrest : RisesClean n outB r (updOut n outB (fun o => { o with rises := o.rises.filter (fun x => x.due != c.instant phi) }) c) := by
    refine ⟨by simpa using hlow, by simpa using hdrv, hfall, fun hc => ?_, fun f hf => hwide f ?_⟩
    · rw [getOut_updOut_other]
      exact hclear hc
    · rwa [fallComing_updOut] at hf
  rw [deadBandAt_one h, hrest.riseAt_eq, pushEdge]
  refine ⟨by simp, by simp [hdue], fun x hx => ?_⟩
  simp only [getOut_updOut_self, List.mem_filter] at hx
  simpa using hx.2

/-! ### The end of a minimum pulse (R105) -/

/-- An output that falls is low, held no longer, and has its fall noted; what waited on it concerns the other output. -/
theorem getOut_fallAt (outB : Bool) (T : Nat) : let o := getOut (fallAt n outB T c) n outB
    o.lvl = false ∧ o.hold = none ∧ o.lastFall = some T := by
  have hrise (r : Rise) (d : Chip) : getOut (riseDue n (!outB) r d) n outB = getOut d n outB := by
    have h := getOut_updOut_other n (!outB) (fun o => { o with rises := o.rises ++ [r] }) d
    rwa [Bool.not_not] at h
  have hother (f : OutStage → OutStage) (d : Chip) : getOut (updOut n (!outB) f d) n outB = getOut d n outB := by
    have h := getOut_updOut_other n (!outB) f d
    rwa [Bool.not_not] at h
  unfold fallAt
  dsimp only
  rw [foldl_keeps (fun d => getOut d n outB) _ (fun d r => hrise _ d), hother, getOut_updOut_self]
  exact ⟨rfl, rfl, rfl⟩

/-- Whether the next pulse of an output has started at `T`: its driver is 1 with no rise still to come. -/
def nextStarted (o : OutStage) (T : Nat) : Bool := o.drv && o.waiting.isEmpty && o.rises.all (fun r => decide (r.due ≤ T))

/-- A held output falls at the end of its minimum pulse unless its next pulse has started. -/
theorem minPulseAt_held {outB : Bool} {phi : Nat} (h : (getOut c n outB).hold = some (c.instant phi)) :
    let d := minPulseAt n outB phi c
    (getOut d n outB).hold = none ∧
    if nextStarted (getOut c n outB) (c.instant phi) then (getOut d n outB).lvl = (getOut c n outB).lvl ∧ d.regs = c.regs
    else (getOut d n outB).lvl = false ∧ (getOut d n outB).lastFall = some (c.instant phi) := by
  have hd : minPulseAt n outB phi c =
      if nextStarted (getOut c n outB) (c.instant phi) then updOut n outB (fun o => { o with hold := none }) c
      else fallAt n outB (c.instant phi) c := by
    unfold minPulseAt
    dsimp only
    rw [if_pos h]
    rfl
  rw [hd]
  split
  · simp only [getOut_updOut_self]
    exact ⟨trivial, trivial, rfl⟩
  · obtain ⟨hl, hh, hf⟩ := getOut_fallAt (n := n) (c := c) outB (c.instant phi)
    exact ⟨hh, hl, hf⟩

end Sys2Proof.Machine

/-! PROOFS. The counter's events, sync, watchdog and delay lines of the PWM channels (04 R95 to R99, R108 to R113). -/

namespace Sys2Proof.Machine

variable {n : Fin 96} {c : Chip}

/-! ### The counter of a channel -/

/-- What the counter of a channel goes by: time, the registers of the cycle's start, PER, the segment, and the interrupt
prescalers. -/
structure Counter where
  now : Nat
  regs0 : List (Nat × Word)
  per : Word
  t0 : Nat
  v0 : Nat
  down : Bool
  occ : List Nat
  ints : Prescalers

def counterOf (n : Fin 96) (c : Chip) : Counter :=
  { now := c.now, regs0 := c.regs0, per := c.reg (pwmR n 4), t0 := c.pwms[n].t0, v0 := c.pwms[n].v0, down := c.pwms[n].down,
    occ := c.pwms[n].occ, ints := prescalersOf n c }

/-- A register of the channel that is none of the counter's may change. -/
theorem counterOf_setReg {off : Nat} (v : Word) (h : off ∉ [4, 0x38, 0x3C]) : counterOf n (c.setReg (pwmR n off) v) = counterOf n c := by
  have hne {a : Nat} (ha : a ∈ [4, 0x38, 0x3C]) : pwmR n a ≠ pwmR n off := by
    rw [Ne, pwmR_inj]
    rintro rfl
    exact h ha
  simp only [counterOf, prescalersOf, Chip.reg_setReg_ne _ _ (hne (a := 4) (by decide)),
    Chip.reg_setReg_ne _ _ (hne (a := 0x38) (by decide)), Chip.reg_setReg_ne _ _ (hne (a := 0x3C) (by decide))]
  rfl

theorem counterOf_setBits {off : Nat} (m : Nat) (h : off ∉ [4, 0x38, 0x3C]) : counterOf n (c.setBits (pwmR n off) m) = counterOf n c :=
  (show _ = counterOf n (c.setReg (pwmR n off) (c.reg (pwmR n off) ||| BitVec.ofNat 32 m)) from rfl).trans (counterOf_setReg _ h)

theorem counterOf_satInc {off : Nat} (lo w : Nat) (h : off ∉ [4, 0x38, 0x3C]) :
    counterOf n (c.satInc (pwmR n off) lo w) = counterOf n c :=
  (show _ = counterOf n (c.setReg (pwmR n off) (satField (c.reg (pwmR n off)) lo w)) from rfl).trans (counterOf_setReg _ h)

/-- A change of the channel's record that leaves the segment and the counts alone. -/
theorem counterOf_updPwm {f : Pwm → Pwm} (h : let p := f c.pwms[n]; p.t0 = c.pwms[n].t0 ∧ p.v0 = c.pwms[n].v0 ∧
    p.down = c.pwms[n].down ∧ p.occ = c.pwms[n].occ ∧ p.ips = c.pwms[n].ips) : counterOf n (updPwm n f c) = counterOf n c := by
  obtain ⟨h1, h2, h3, h4, h5⟩ := h
  simp only [Fin.getElem_fin] at h1 h2 h3 h4 h5
  simp [counterOf, prescalersOf, h1, h2, h3, h4, h5]

@[simp] theorem counterOf_later (xs : List (Nat × Ev)) (c : Chip) : counterOf n (later xs c) = counterOf n c := rfl

@[simp] theorem counterOf_dueAt (T : Nat) (f : Fin 32 → Ev) : counterOf n (dueAt c T f) = counterOf n c := rfl

@[simp] theorem counterOf_updOut (outB : Bool) (f : OutStage → OutStage) : counterOf n (updOut n outB f c) = counterOf n c := by
  obtain ⟨a, b, h⟩ := updOut_eq n outB f c
  rw [h]
  exact counterOf_updPwm ⟨rfl, rfl, rfl, rfl, rfl⟩

/-! ### What a boundary does before the new segment -/

/-- PER alone may differ. -/
def Counter.withPer (x : Counter) (v : Word) : Counter := { x with per := v }

theorem counterOf_bandsAt (A : Nat) : counterOf n (bandsAt n A c) = counterOf n c := by
  have hrise (outB : Bool) (r : Rise) (d : Chip) : counterOf n (riseDue n outB r d) = counterOf n d :=
    (counterOf_dueAt _ _).trans (counterOf_updOut _ _)
  unfold bandsAt
  dsimp only
  rw [foldl_keeps (counterOf n) _ (fun d r => hrise true _ d), counterOf_updOut,
    foldl_keeps (counterOf n) _ (fun d r => hrise false _ d), counterOf_updOut]

/-- The active registers, PER among them, are none of the prescalers'. -/
theorem counterOf_setActive (k : Fin 8) (v : Word) :
    counterOf n (c.setReg (activeR n k) v) = (counterOf n c).withPer ((c.setReg (activeR n k) v).reg (pwmR n 4)) := by
  simp only [counterOf, prescalersOf, Counter.withPer, Chip.reg_setReg_ne _ _ (pwmR_ne_activeR k (show 0x38 < 4 ∨ 0x20 < 0x38 by decide)),
    Chip.reg_setReg_ne _ _ (pwmR_ne_activeR k (show 0x3C < 4 ∨ 0x20 < 0x3C by decide))]
  rfl

theorem counterOf_setActives (vals : List (Fin 8 × Word)) (c : Chip) :
    ∃ v, counterOf n (vals.foldl (fun c e => c.setReg (activeR n e.1) e.2) c) = (counterOf n c).withPer v := by
  induction vals generalizing c with
  | nil => exact ⟨c.reg (pwmR n 4), rfl⟩
  | cons e vals ih =>
    obtain ⟨v, h⟩ := ih (c.setReg (activeR n e.1) e.2)
    exact ⟨v, h.trans (by rw [counterOf_setActive]; rfl)⟩

/-- Values that become active change no more of the counter than PER. -/
theorem counterOf_takeVals (A : Nat) (vals : List (Fin 8 × Word)) :
    ∃ v, counterOf n (takeVals n A vals c) = (counterOf n c).withPer v := by
  obtain ⟨v, h⟩ := counterOf_setActives (n := n) vals c
  refine ⟨v, Eq.trans ?_ h⟩
  unfold takeVals
  dsimp only
  split
  · exact counterOf_bandsAt A
  · rfl

theorem counterOf_commitFlags : counterOf n (commitFlags n c) = counterOf n c := by
  unfold commitFlags
  dsimp only
  split
  · split
    · rw [counterOf_setBits _ (by decide), counterOf_satInc _ _ (by decide)]
    · rfl
  · split
    · exact counterOf_setBits _ (by decide)
    · rfl

theorem counterOf_commitStages : counterOf n (commitStages n c) = counterOf n c := by
  unfold commitStages
  dsimp only
  split <;> exact counterOf_updPwm ⟨rfl, rfl, rfl, rfl, rfl⟩

/-- A commit point at a boundary. -/
theorem counterOf_commitPoint (T : Nat) (only : List (Fin 8 × Word) → List (Fin 8 × Word)) :
    ∃ v, counterOf n (commitPoint n T true only c) = (counterOf n c).withPer v := by
  unfold commitPoint
  split
  · exact ⟨c.reg (pwmR n 4), rfl⟩
  · obtain ⟨v, h⟩ := counterOf_takeVals (n := n) (c := peaPwmCommit n
      (updPwm n (fun p => { p with commitAt := some T }) (commitStages n (commitFlags n c)))) T (only (commitVals c n))
    refine ⟨v, h.trans (congrArg (Counter.withPer · v) ?_)⟩
    have hu : counterOf n (updPwm n (fun p => { p with commitAt := some T }) (commitStages n (commitFlags n c))) = counterOf n c := by
      rw [counterOf_updPwm ⟨rfl, rfl, rfl, rfl, rfl⟩, counterOf_commitStages, counterOf_commitFlags]
    exact hu

theorem counterOf_boundaryCommit (zro : Bool) (T : Nat) :
    ∃ v, counterOf n (boundaryCommit n zro T c) = (counterOf n c).withPer v := by
  have hnone : ∃ v, counterOf n c = (counterOf n c).withPer v := ⟨c.reg (pwmR n 4), rfl⟩
  unfold boundaryCommit
  split
  · cases zro
    · exact hnone
    · exact counterOf_commitPoint T id
  · cases zro
    · exact counterOf_commitPoint T id
    · exact hnone
  · exact counterOf_commitPoint T id
  · cases zro
    · exact hnone
    · exact counterOf_commitPoint T zroOnly
  · exact hnone

/-! ### What it does after -/

/-- Event sources that pulse leave the counter alone. -/
theorem EventsOnly.counterOf {d : Chip} (h : EventsOnly c d) : counterOf n d = counterOf n c := by
  obtain ⟨xs, v, rfl⟩ := h
  rfl

theorem counterOf_levels (T : Nat) (la lb : Bool) : counterOf n (levels n T la lb c) = counterOf n c := by
  obtain ⟨st, xs, h⟩ := levels_eq n T la lb c
  rw [h, counterOf_later]
  exact counterOf_updPwm ⟨rfl, rfl, rfl, rfl, rfl⟩

theorem counterOf_evOutputs (ix : Nat) : counterOf n (evOutputs n ix c) = counterOf n c := by
  have hpulse (k : Nat) (f : Pwm → Pwm) (d : Chip) (hf : counterOf n (updPwm n f d) = counterOf n d) :
      counterOf n (evPulse k (updPwm n f d)) = counterOf n d := ((evPulse_eventsOnly k _).counterOf).trans hf
  unfold evOutputs
  dsimp only
  rw [apply_ite (counterOf n), hpulse _ _ _ (counterOf_updPwm ⟨rfl, rfl, rfl, rfl, rfl⟩), ite_self, apply_ite (counterOf n),
    hpulse _ _ _ (counterOf_updPwm ⟨rfl, rfl, rfl, rfl, rfl⟩), ite_self]

/-- An occurrence through interrupt prescaler `k`. -/
def Counter.counted (x : Counter) (k : Fin 6) : Counter := { x with ints := x.ints.step k }

/-- A step of a prescaler touches the prescalers alone. -/
theorem counterOf_ipsStep (k : Fin 6) : counterOf n (ipsStep n k c) = (counterOf n c).counted k := by
  have hints : (counterOf n (ipsStep n k c)).ints = (counterOf n c).ints.step k := prescalersOf_ipsStep n k c
  have hper : (ipsStep n k c).reg (pwmR n 4) = c.reg (pwmR n 4) := ipsStep_reg n k c (by rw [Ne, pwmR_inj]; decide)
  rw [Counter.counted, ← hints]
  simp only [counterOf, hper]
  unfold ipsStep
  dsimp only
  split <;> simp

theorem counterOf_ipsCount (k : Fin 6) : counterOf n (ipsCount n k c) = (counterOf n c).counted k := by
  have hnoted : counterOf n (updPwm n (fun p => { p with ipsNow := p.ipsNow.set k (p.ipsNow[k] + 1) }) c) = counterOf n c :=
    counterOf_updPwm ⟨rfl, rfl, rfl, rfl, rfl⟩
  rw [ipsCount, counterOf_ipsStep, hnoted]

/-- The interrupt that an event counts in (R113). -/
def PwmEv.int : PwmEv → Fin 6
  | .zro => 0
  | .prd => 1
  | .cmp x _ => Fin.ofNat 6 (2 + x.val)

/-- An event counts its interrupt. -/
theorem counterOf_pwmEvent (e : PwmEv) (T : Nat) : counterOf n (pwmEvent n e T c) = (counterOf n c).counted e.int := by
  cases e <;> (refine (counterOf_ipsCount _).trans ?_; rw [counterOf_evOutputs, counterOf_levels]; rfl)

theorem counterOf_rampRestart (zro : Bool) : counterOf n (rampRestart n zro c) = counterOf n c := by
  have hwin (b : Bool) (w : Fin 96) (f : Win → Win) (d : Chip) : counterOf n (if b then updWin w f d else d) = counterOf n d := by
    cases b <;> rfl
  exact foldl_keeps (counterOf n) _ (fun d k => (hwin _ _ _ _).trans (hwin _ _ _ d)) _ c

theorem counterOf_chainEvent (zro : Bool) : counterOf n (chainEvent n zro c) = counterOf n c := by
  unfold chainEvent chainOut
  dsimp only
  split
  · split <;> rfl
  · rfl

theorem counterOf_tripRelease (zro : Bool) : counterOf n (tripRelease n zro c) = counterOf n c := by
  unfold tripRelease tripFree
  dsimp only
  split
  · rfl
  · split
    · exact counterOf_updPwm ⟨rfl, rfl, rfl, rfl, rfl⟩
    · rfl

theorem counterOf_carrierSwitch {phi : Nat} (h : (counterOf n c).t0 = c.instant phi) :
    counterOf n (carrierSwitch n phi c) = counterOf n c := by
  have hset (b : Bool) : counterOf n (setCarrier n b c) = counterOf n c := by
    have hput : counterOf n (c.putBit (pwmR n 0) 3 b) = counterOf n c := by
      cases b
      · exact counterOf_setReg (off := 0) _ (by decide)
      · exact counterOf_setBits (off := 0) _ (by decide)
    exact (counterOf_updPwm ⟨rfl, rfl, rfl, rfl, rfl⟩).trans hput
  have hwd (ang : Int) (b : Bool) (d : Chip) : counterOf n (wdSwitch n phi ang b d) = counterOf n d :=
    counterOf_updPwm ⟨rfl, rfl, rfl, rfl, rfl⟩
  unfold carrierSwitch
  dsimp only
  split
  · rfl
  · split
    · rw [counterOf_updPwm ⟨rfl, rfl, rfl, rfl, rfl⟩, hwd, counterOf_setReg _ (by decide), hset]
    · have hd := (hwd (setCarrier n (c.bit0 (pwmR n 0) 4) c).pwms[n].angUsed false _).trans (hset (c.bit0 (pwmR n 0) 4))
      generalize wdSwitch n phi _ false _ = d at hd
      have ht : d.pwms[n].t0 = d.instant phi := by
        have hnow : d.now = c.now := congrArg Counter.now hd
        rw [Chip.instant, hnow]
        exact (congrArg Counter.t0 hd).trans h
      exact (counterOf_updPwm ⟨ht.symm, rfl, rfl, rfl, rfl⟩).trans hd

theorem counterOf_safeExitAt : counterOf n (safeExitAt n c) = counterOf n c := by
  have hleave : counterOf n (chanLeave n c) = counterOf n (updPwm n (fun p => { p with safe := false }) c) := rfl
  unfold safeExitAt
  split
  · rw [hleave, counterOf_updPwm ⟨rfl, rfl, rfl, rfl, rfl⟩]
  · rfl

theorem counterOf_drainTake (T : Nat) : counterOf n (drainTake n T c) = counterOf n c := by
  unfold drainTake
  dsimp only
  split
  · rfl
  · have hdone (xs : Vector Slice 12) :
        counterOf n (updPwm n (fun p => { p with draining := false, safe := true }) { c with slices := xs }) = counterOf n c :=
      (counterOf_updPwm ⟨rfl, rfl, rfl, rfl, rfl⟩).trans rfl
    split
    · exact hdone _
    · exact ((schedule_eventsOnly _ _ _).counterOf).trans (hdone _)

theorem counterOf_ovNote (T : Nat) : counterOf n (ovNote n T c) = counterOf n c := by
  unfold ovNote
  dsimp only
  split
  · rfl
  · exact counterOf_updPwm ⟨rfl, rfl, rfl, rfl, rfl⟩

theorem counterOf_pwmScan : counterOf n (pwmScan n c) = counterOf n c := by
  unfold pwmScan
  split
  · rfl
  · exact foldl_keeps (counterOf n) _ (fun d e => counterOf_dueAt _ _) _ c

/-! ### Boundaries and compares -/

/-- Where the counter starts the segment after a boundary, by its mode, PER up to the boundary and PER from it (R95). -/
def segmentFrom (mode : Nat) (zro : Bool) (top per : Nat) : Nat × Bool :=
  match mode with
  | 0 => (0, false)
  | 1 => (per, true)
  | _ => if zro then (0, false) else (top, true)

theorem segStart_eq (c : Chip) (n : Fin 96) (zro : Bool) :
    segStart c n zro = segmentFrom (pwmMode c n) zro c.pwms[n].v0 (pwmPer c n) := rfl

/-- A counter that starts a segment. -/
def Counter.anchored (x : Counter) (T : Nat) (seg : Nat × Bool) : Counter := { x with t0 := T, v0 := seg.1, down := seg.2, occ := [] }

theorem counterOf_anchorAt (T v : Nat) (down : Bool) (used : Int) :
    counterOf n (anchorAt n T v down used c) = (counterOf n c).anchored T (v, down) := by
  simp [anchorAt, counterOf, prescalersOf, Counter.anchored]

/-- A counter that stands at a value. -/
def Counter.placed (x : Counter) (v : Nat) : Counter := { x with v0 := v }

/-- The counter stands on the boundary that it has met, and the values that waited for the boundary are taken. -/
def boundaryMet (n : Fin 96) (zro : Bool) (T : Nat) (c : Chip) : Chip :=
  updPwm n (fun p => { p with v0 := if zro then 0 else pwmPer c n, edgeActs := [] }) (takeVals n T c.pwms[n].edgeActs c)

theorem counterOf_boundaryMet (zro : Bool) (T : Nat) :
    ∃ v, counterOf n (boundaryMet n zro T c) = ((counterOf n c).withPer v).placed (if zro then 0 else pwmPer c n) := by
  obtain ⟨v, hv⟩ := counterOf_takeVals (n := n) (c := c) T c.pwms[n].edgeActs
  refine ⟨v, ?_⟩
  rw [← hv]
  simp [boundaryMet, counterOf, prescalersOf, Counter.placed]

/-- What a boundary event has changed before its segment starts: the values that waited for it and its commit. -/
def committed (n : Fin 96) (zro : Bool) (T : Nat) (c : Chip) : Chip := boundaryCommit n zro T (boundaryMet n zro T c)

theorem counterOf_committed (zro : Bool) (T : Nat) :
    ∃ v, counterOf n (committed n zro T c) = ((counterOf n c).withPer v).placed (if zro then 0 else pwmPer c n) := by
  obtain ⟨u, hu⟩ := counterOf_boundaryMet (n := n) (c := c) zro T
  obtain ⟨v, hv⟩ := counterOf_boundaryCommit (n := n) (c := boundaryMet n zro T c) zro T
  refine ⟨v, hv.trans ?_⟩
  rw [hu]
  rfl

/-- What follows at a boundary once its segment has started and its event has counted. -/
def boundaryDone (n : Fin 96) (zro : Bool) (phi T : Nat) (c : Chip) : Chip :=
  let c := tripRelease n zro (chainEvent n zro (rampRestart n zro c))
  ovNote n T (if zro then drainTake n T (safeExitAt n (carrierSwitch n phi c)) else c)

theorem counterOf_boundaryDone {zro : Bool} {phi T : Nat} (h : (counterOf n c).t0 = c.instant phi) :
    counterOf n (boundaryDone n zro phi T c) = counterOf n c := by
  have hd : counterOf n (tripRelease n zro (chainEvent n zro (rampRestart n zro c))) = counterOf n c := by
    rw [counterOf_tripRelease, counterOf_chainEvent, counterOf_rampRestart]
  unfold boundaryDone
  dsimp only
  generalize tripRelease n zro _ = d at hd
  rw [counterOf_ovNote, ← hd]
  cases zro
  · rfl
  · have hnow : d.now = c.now := congrArg Counter.now hd
    refine (counterOf_drainTake T).trans (counterOf_safeExitAt.trans (counterOf_carrierSwitch ?_))
    rw [hd, h, Chip.instant, Chip.instant, hnow]

/-- The event of a boundary. -/
def boundaryEv (zro : Bool) : PwmEv := if zro then .zro else .prd

theorem boundary_eq (hr : pwmRun c n = true) (zro : Bool) (phi : Nat) : ∃ used, boundary n zro phi c =
    let T := c.instant phi
    let d := committed n zro T c
    boundaryDone n zro phi T (pwmEvent n (boundaryEv zro) T (anchorAt n T (segStart d n zro).1 (segStart d n zro).2 used d)) := by
  let d := committed n zro (c.instant phi) c
  refine ⟨if d.pwms[n].angBnd && d.pwms[n].t0 == c.instant phi then d.pwms[n].angUsed else angUsedAt c n phi, ?_⟩
  unfold boundary
  rw [if_neg (by simp [hr])]
  rfl

/-- A boundary event commits, starts the segment, and counts its interrupt. -/
theorem counterOf_boundary (hr : pwmRun c n = true) (zro : Bool) (phi : Nat) : ∃ per, counterOf n (boundary n zro phi c) =
    (((counterOf n c).withPer per).anchored (c.instant phi)
      (segmentFrom (pwmMode c n) zro (if zro then 0 else pwmPer c n) (perOf per))).counted (boundaryEv zro).int := by
  obtain ⟨used, hb⟩ := boundary_eq hr zro phi
  obtain ⟨per, hd⟩ := counterOf_committed (n := n) (c := c) zro (c.instant phi)
  refine ⟨per, ?_⟩
  dsimp only at hb ⊢
  rw [hb]
  generalize committed n zro (c.instant phi) c = d at hd
  have hmode : pwmMode d n = pwmMode c n := by
    have h0 : d.regs0 = c.regs0 := congrArg Counter.regs0 hd
    simp only [pwmMode, Chip.fld0, Chip.reg0, h0]
  have hper : pwmPer d n = perOf per := congrArg perOf (congrArg Counter.per hd)
  have hv0 : d.pwms[n].v0 = if zro then 0 else pwmPer c n := congrArg Counter.v0 hd
  have hseg : segStart d n zro = segmentFrom (pwmMode c n) zro (if zro then 0 else pwmPer c n) (perOf per) := by
    rw [segStart_eq, hmode, hper, hv0]
  have he := counterOf_pwmEvent (n := n) (c := anchorAt n (c.instant phi) (segStart d n zro).1 (segStart d n zro).2 used d)
    (boundaryEv zro) (c.instant phi)
  rw [counterOf_anchorAt, hd, hseg] at he
  rw [hseg]
  generalize pwmEvent n (boundaryEv zro) (c.instant phi) _ = e at he
  have ht : (counterOf n e).t0 = e.instant phi := by
    have hnow : e.now = c.now := congrArg Counter.now he
    have hat : c.instant phi = e.instant phi := by rw [Chip.instant, Chip.instant, hnow]
    exact (congrArg Counter.t0 he).trans hat
  rw [counterOf_boundaryDone ht, he]
  rfl

/-- The interrupt of an event counts in the event's own prescaler, from what the prescalers held before. -/
theorem counts_of_step {d : Chip} (k : Fin 6) (h : prescalersOf n d = (prescalersOf n c).step k) :
    if c.fld (pwmR n 0x38) (4 * k.val) 4 ≤ c.pwms[n].ips[k] then d.pwms[n].ips[k] = 0 ∧ d.bit (pwmR n 0x3C) k.val = true
    else d.pwms[n].ips[k] = c.pwms[n].ips[k] + 1 := by
  have hs := (prescalersOf n c).step_self k
  rw [← h] at hs
  exact hs

/-- A boundary event counts its interrupt and starts a segment, at the PER active from the boundary. -/
theorem boundary_spec {zro : Bool} {phi : Nat} {d : Chip} (hr : pwmRun c n = true)
    (hd : counterOf n d = counterOf n (boundary n zro phi c)) :
    prescalersOf n d = (prescalersOf n c).step (boundaryEv zro).int ∧ d.pwms[n].t0 = c.instant phi ∧
      (d.pwms[n].v0, d.pwms[n].down) = segmentFrom (pwmMode c n) zro (if zro then 0 else pwmPer c n) (pwmPer d n) ∧
      d.pwms[n].occ = [] := by
  obtain ⟨per, h⟩ := counterOf_boundary hr zro phi
  have h := hd.trans h
  have hper : pwmPer d n = perOf per := congrArg perOf (congrArg Counter.per h)
  refine ⟨congrArg Counter.ints h, congrArg Counter.t0 h, ?_, congrArg Counter.occ h⟩
  rw [hper]
  exact Prod.ext (congrArg Counter.v0 h) (congrArg Counter.down h)

theorem counterOf_zroAt (phi : Nat) : counterOf n (zroAt n phi c) = counterOf n (boundary n true phi c) := by
  unfold zroAt
  dsimp only
  split
  · exact counterOf_pwmScan
  · rfl

theorem counterOf_prdAt (phi : Nat) : counterOf n (prdAt n phi c) = counterOf n (boundary n false phi c) := by
  unfold prdAt
  dsimp only
  split
  · exact counterOf_pwmScan
  · rfl

/-- After ZRO the counter runs from 0, or in DOWN from PER. -/
theorem segmentFrom_zro (mode top per : Nat) : segmentFrom mode true top per = (if mode = 1 then per else 0, mode == 1) := by
  rcases mode with _ | _ | m <;> simp [segmentFrom]

/-- After PRD the counter of UP runs from 0, that of DOWN from PER, and that of UPDOWN turns where it stands. -/
theorem segmentFrom_prd {mode : Nat} (h : mode < 3) (top per : Nat) :
    segmentFrom mode false top per = (if mode = 0 then 0 else if mode = 1 then per else top, mode != 0) := by
  rcases mode with _ | _ | _ | m
  · rfl
  · rfl
  · rfl
  · omega

/-- A compare event is noted in its segment, which goes on, and counts its interrupt. -/
theorem compareAt_spec (hr : pwmRun c n = true) (x : Fin 4) (down : Bool) (phi : Nat) :
    let d := compareAt n x down phi c
    prescalersOf n d = (prescalersOf n c).step (Fin.ofNat 6 (2 + x.val)) ∧ x.val ∈ d.pwms[n].occ ∧
      d.pwms[n].t0 = c.pwms[n].t0 ∧ d.pwms[n].v0 = c.pwms[n].v0 := by
  let noted := updPwm n (fun p => { p with occ := if p.occ.contains x.val then p.occ else p.occ ++ [x.val] }) c
  have hd : counterOf n (compareAt n x down phi c) = (counterOf n noted).counted (Fin.ofNat 6 (2 + x.val)) := by
    unfold compareAt
    rw [if_neg (by simp [hr])]
    exact counterOf_pwmEvent _ _
  have hint : prescalersOf n noted = prescalersOf n c := by simp [noted, prescalersOf]
  have hocc : x.val ∈ noted.pwms[n].occ := by
    simp only [noted, Fin.getElem_fin, updPwm_get]
    split
    · exact List.contains_iff_mem.1 ‹_›
    · simp
  refine ⟨(congrArg Counter.ints hd).trans (by rw [Counter.counted, ← hint]; rfl), ?_,
    (congrArg Counter.t0 hd).trans (show noted.pwms[n].t0 = c.pwms[n].t0 by simp [noted]),
    (congrArg Counter.v0 hd).trans (show noted.pwms[n].v0 = c.pwms[n].v0 by simp [noted])⟩
  have h : (compareAt n x down phi c).pwms[n].occ = noted.pwms[n].occ := congrArg Counter.occ hd
  rwa [h]

/-! ### Sync (R109, R111) -/

theorem syncPulse_taken {chain : Bool} (hr : pwmRun c n = true) (h0 : c.bit (pwmR n 0x44) 0 = true)
    (h1 : c.bit (pwmR n 0x44) 1 = chain) : syncPulse n chain c = updPwm n (fun p => { p with
      syncLoad := some ((c.reg (pwmR n 0x48)).toNat + (if chain then 32 * c.fld (pwmR n 0x44) 21 11 else 0), c.bit (pwmR n 0x44) 20) }) c := by
  have h0' : (c.reg (pwmR n 0x44)).bit 0 = true := h0
  have h1' : (c.reg (pwmR n 0x44)).bit 1 = chain := h1
  unfold syncPulse
  dsimp only
  rw [if_neg (by simp [hr, h0', h1'])]
  rfl

/-- A load that is not a whole number of periods places the counter in a segment at its remainder. -/
theorem syncLoadNow_spec {l : Nat} {dn : Bool} (h : l % pwmPer c n ≠ 0) :
    (syncLoadNow n l dn c).pwms[n].v0 = l % pwmPer c n ∧ (syncLoadNow n l dn c).pwms[n].t0 = 32 * c.now ∧
      (syncLoadNow n l dn c).pwms[n].sub = 0 ∧
      (syncLoadNow n l dn c).pwms[n].down = (if pwmMode c n = 2 then dn else pwmMode c n == 1) := by
  unfold syncLoadNow
  dsimp only
  rw [if_neg h]
  simp [anchorAt, wdStart]
  rfl

/-! ### The watchdog's deadline (R111) -/

/-- A field above the bits set in a word keeps its value. -/
theorem Word.fld_or_low (v : Word) {m lo : Nat} (w : Nat) (h : m < 2 ^ lo) : (v ||| BitVec.ofNat 32 m).fld lo w = v.fld lo w := by
  refine Nat.eq_of_testBit_eq fun i => ?_
  have hm : m.testBit (lo + i) = false := Nat.testBit_lt_two_pow (h.trans_le (Nat.pow_le_pow_right (by decide) (by omega)))
  rw [Word.fld_testBit, Word.fld_testBit, BitVec.getLsbD_or, BitVec.getLsbD_ofNat, hm, Bool.and_false, Bool.or_false]

/-- With the other source in use the deadline only reports, and the watchdog stands. -/
theorem deadline_reports (h2 : c.bit (pwmR n 0x44) 2 = true) (h1 : c.bit (pwmR n 0x44) 1 = true) :
    deadline n c = (updPwm n (fun p => { p with wd := none }) c).setBits (pwmR n 0x3C) (2 ^ 9) := by
  have h2' : (c.reg (pwmR n 0x44)).bit 2 = true := h2
  have h1' : (c.reg (pwmR n 0x44)).bit 1 = true := h1
  simp only [deadline, h2', h1', Bool.not_true, Bool.false_eq_true, if_false, if_true]

theorem deadline_reports_spec (h2 : c.bit (pwmR n 0x44) 2 = true) (h1 : c.bit (pwmR n 0x44) 1 = true) : let d := deadline n c
    d.pwms[n].wd = none ∧ d.bit (pwmR n 0x3C) 9 = true ∧ ∀ a, a ∉ [pwmR n 0x3C] → d.reg a = c.reg a := by
  dsimp only
  rw [deadline_reports h2 h1]
  refine ⟨by simp, Chip.bit_setBits_pow _ _ (by omega), fun a ha => ?_⟩
  rw [Chip.reg_setBits_ne _ _ (by simpa using ha), Chip.reg_updPwm]

/-- The deadline's span does not depend on which source is in use, or on flags. -/
theorem wdSpan_switched : wdSpan ((c.setBits (pwmR n 0x44) 2).setBits (pwmR n 0x3C) (2 ^ 8)) n = wdSpan c n := by
  have h44 : ((c.setBits (pwmR n 0x44) 2).setBits (pwmR n 0x3C) (2 ^ 8)).reg (pwmR n 0x44) = c.reg (pwmR n 0x44) ||| BitVec.ofNat 32 2 := by
    simp [Chip.reg_setBits]
  have hper : pwmPer ((c.setBits (pwmR n 0x44) 2).setBits (pwmR n 0x3C) (2 ^ 8)) n = pwmPer c n := by
    simp [pwmPer, Chip.reg_setBits]
  simp only [wdSpan, h44, hper, Word.fld_or_low _ _ (show 2 < 2 ^ 3 by decide), Word.fld_or_low _ _ (show 2 < 2 ^ 7 by decide)]
  rfl

/-- How far the travel has gone past a deadline, as a number not above 0. -/
def overrun (left : Option Rat) : Rat :=
  match left with
  | some l => if l < 0 then l else 0
  | none => 0

theorem overrun_eq (left : Option Rat) : overrun left = min (left.getD 0) 0 := by
  cases left with
  | none => rfl
  | some l =>
    rw [overrun, Option.getD_some]
    rcases lt_or_ge l 0 with hl | hl
    · rw [min_eq_left hl.le, if_pos hl]
    · rw [min_eq_right hl, if_neg (not_lt.2 hl)]

/-- With the source of the matrix in use the chain's takes over, and the next deadline runs from the one that passed. -/
theorem deadline_switches (h2 : c.bit (pwmR n 0x44) 2 = true) (h1 : c.bit (pwmR n 0x44) 1 = false) :
    deadline n c = updPwm n (fun p => { p with wd := some (((wdSpan c n : Nat) : Rat) + min (c.pwms[n].wd.getD 0) 0) })
      ((c.setBits (pwmR n 0x44) 2).setBits (pwmR n 0x3C) (2 ^ 8)) := by
  have h2' : (c.reg (pwmR n 0x44)).bit 2 = true := h2
  have h1' : (c.reg (pwmR n 0x44)).bit 1 = false := h1
  simp only [deadline, h2', h1', Bool.not_true, Bool.false_eq_true, if_false, wdSpan_switched]
  rw [← overrun_eq]
  rfl

theorem deadline_switches_spec (h2 : c.bit (pwmR n 0x44) 2 = true) (h1 : c.bit (pwmR n 0x44) 1 = false) : let d := deadline n c
    d.bit (pwmR n 0x44) 1 = true ∧ d.bit (pwmR n 0x3C) 8 = true ∧ (∀ a, a ∉ [pwmR n 0x3C, pwmR n 0x44] → d.reg a = c.reg a) ∧
      d.pwms[n].wd = some (((wdSpan c n : Nat) : Rat) + min (c.pwms[n].wd.getD 0) 0) := by
  dsimp only
  rw [deadline_switches h2 h1]
  refine ⟨?_, ?_, fun a ha => ?_, congrArg Pwm.wd (updPwm_get n _ _)⟩
  · rw [Chip.bit_updPwm, Chip.bit, Chip.reg_setBits_ne _ _ (by rw [Ne, pwmR_inj]; decide)]
    exact Chip.bit_setBits_pow c _ (k := 1) (by omega)
  · rw [Chip.bit_updPwm, Chip.bit_setBits_pow _ _ (by omega)]
  · rw [List.mem_cons, List.mem_singleton, not_or] at ha
    rw [Chip.reg_updPwm, Chip.reg_setBits_ne _ _ ha.1, Chip.reg_setBits_ne _ _ ha.2]

/-! ### Delay lines (R108) -/

theorem delayLine_spec (pos : Fin 192) (quiet : Bool) : let d := delayLine pos quiet c
    d.outs[pos].calDue = c.outs[pos].calDue + 500000 ∧
    if quiet then d.outs[pos].line = (!c.outs[pos].line) ∧ d.regs = c.regs
    else d.outs[pos].line = c.outs[pos].line ∧ (c.fld (xbarR pos) 0 8 < 192 →
      d.bit (pwmR (c.fld (xbarR pos) 0 8 / 2) 0x3C) 10 = true) := by
  cases quiet
  · let skipped : Chip := { c with outs := c.outs.set pos { c.outs[pos] with calDue := c.outs[pos].calDue + 500000 } }
    have hd : delayLine pos false c = if c.fld (xbarR pos) 0 8 < 192 then
      skipped.setBits (pwmR (c.fld (xbarR pos) 0 8 / 2) 0x3C) (2 ^ 10) else skipped := rfl
    have houts : (delayLine pos false c).outs[pos] = { c.outs[pos] with calDue := c.outs[pos].calDue + 500000 } := by
      rw [hd]
      split <;> simp [skipped]
    dsimp only
    rw [houts]
    refine ⟨rfl, rfl, fun h => ?_⟩
    rw [hd, if_pos h, Chip.bit_setBits_pow _ _ (by omega)]
  · simp [delayLine]

/-! ### The statement -/

/-- Settles O36: the events of the counter and of the output stage, sync, the watchdog and the delay lines. -/
theorem pwmEvents : Obligations.PwmEvents := by
  unfold Obligations.PwmEvents
  intro s n x down outB chain quiet phi pos hrun c p T o other comp counts segment
  refine ⟨fun hr => ⟨goes_onChip hrun rfl ?_, fun hm => goes_onChip hrun rfl ?_, goes_onChip hrun rfl ?_⟩,
    fun r hone hfall hdrv hlow hclear hwide => goes_onChip hrun rfl ?_, fun h => onChip_same hrun (deadBandAt_none h),
    fun h => goes_onChip hrun rfl (minPulseAt_held h), fun hr h0 h1 => goes_onChip hrun rfl ?_, fun l dn h => syncLoadNow_spec h,
    fun h2 => ⟨fun h1 => goes_onChip hrun rfl (deadline_reports_spec h2 h1),
      fun h1 => goes_onChip hrun rfl (deadline_switches_spec h2 h1)⟩, goes_onChip hrun rfl (delayLine_spec pos quiet)⟩
  · obtain ⟨hint, ht, hseg, hocc⟩ := boundary_spec (zro := true) hr (counterOf_zroAt phi.val)
    rw [segmentFrom_zro, Prod.mk.injEq] at hseg
    exact ⟨counts_of_step 0 hint, ht, hseg.1, hseg.2, hocc⟩
  · obtain ⟨hint, ht, hseg, hocc⟩ := boundary_spec (zro := false) hr (counterOf_prdAt phi.val)
    rw [segmentFrom_prd hm, Prod.mk.injEq] at hseg
    exact ⟨counts_of_step 1 hint, ht, hseg.1, hseg.2, hocc⟩
  · obtain ⟨hint, hocc, ht, hv⟩ := compareAt_spec hr x down phi.val
    exact ⟨counts_of_step _ hint, hocc, ht, hv⟩
  · have hdue : r.due = T := rise_due hone
    exact deadBandAt_rises hone ⟨hlow, hdrv, hfall, by rwa [hdue], by rwa [hdue]⟩
  · rw [State.after_chip, syncPulse_taken (c := c) hr h0 h1]
    exact ⟨congrArg Pwm.syncLoad (updPwm_get n _ c), rfl⟩

end Sys2Proof.Machine

/-! PROOFS. What raising a fault can change (21 R478, R479): registers, the causes of slices, the agenda, the event matrix and the
fault collector, and so no channel. -/

namespace Sys2Proof.Machine

/-- `d` is `c` but for what the fault collector and its reactions write. -/
def FaultOnly (c d : Chip) : Prop := ∃ r h sl a v f,
  d = { c with regs := r, hwset := h, slices := sl, agenda := a, evm := v, flt := f }

theorem FaultOnly.refl (c : Chip) : FaultOnly c c := ⟨_, _, _, _, _, _, rfl⟩

theorem FaultOnly.trans {c d e : Chip} (h : FaultOnly c d) (h' : FaultOnly d e) : FaultOnly c e := by
  obtain ⟨_, _, _, _, _, _, rfl⟩ := h
  obtain ⟨_, _, _, _, _, _, rfl⟩ := h'
  exact ⟨_, _, _, _, _, _, rfl⟩

theorem FaultOnly.pwms {c d : Chip} (h : FaultOnly c d) : d.pwms = c.pwms := by
  obtain ⟨_, _, _, _, _, _, rfl⟩ := h
  rfl

theorem EventsOnly.faultOnly {c d : Chip} (h : EventsOnly c d) : FaultOnly c d := by
  obtain ⟨_, _, rfl⟩ := h
  exact ⟨_, _, _, _, _, _, rfl⟩

theorem setBits_faultOnly (a m : Nat) (c : Chip) : FaultOnly c (c.setBits a m) := ⟨_, _, _, _, _, _, rfl⟩

theorem setFld_faultOnly (a lo w x : Nat) (c : Chip) : FaultOnly c (c.setFld a lo w x) := ⟨_, _, _, _, _, _, rfl⟩

theorem setCause_faultOnly (b s : Nat) (c : Chip) : FaultOnly c (setCause b s c) := by
  simp only [setCause, updCauses]
  split
  · exact ⟨_, _, _, _, _, _, rfl⟩
  · exact .refl c

/-- Safe state of a set of slices. -/
theorem setCause_foldl_faultOnly (b : Nat) (xs : List Nat) (c : Chip) : FaultOnly c (xs.foldl (fun c s => setCause b s c) c) :=
  List.foldlRecOn xs _ (.refl c) fun _ h s _ => h.trans (setCause_faultOnly b s _)

theorem reactDevice_faultOnly (c : Chip) : FaultOnly c (reactDevice c) := by
  have h : FaultOnly c (setCauseAll causeDevflt c) := setCause_foldl_faultOnly _ _ c
  unfold reactDevice
  dsimp only
  split
  · exact h.trans ((setFld_faultOnly _ _ _ _ _).trans (setBits_faultOnly _ _ _))
  · exact h

theorem FaultOnly.ite {c d e : Chip} (p : Prop) [Decidable p] (h : FaultOnly c d) (h' : FaultOnly c e) :
    FaultOnly c (if p then d else e) := by
  split
  · exact h
  · exact h'

theorem standReact_faultOnly (i : Nat) (c : Chip) : FaultOnly c (standReact i c) := by
  have hslices := FaultOnly.ite (2 ≤ fltReact c i)
    (setCause_foldl_faultOnly causeSliceflt ((List.range 12).filter (fltNames c i)) c) (.refl c)
  exact .ite _ (hslices.trans (reactDevice_faultOnly _)) hslices

theorem applyReact_faultOnly (i : Nat) (c : Chip) : FaultOnly c (applyReact i c) := by
  have hpulse (d : Chip) : FaultOnly d (evPulseIn 1 510 d) := (schedule_eventsOnly _ _ d).faultOnly
  have hreact (p : Prop) [Decidable p] : FaultOnly c (if p then evPulseIn 1 510 (standReact i c) else standReact i c) :=
    .ite p ((standReact_faultOnly i c).trans (hpulse _)) (standReact_faultOnly i c)
  unfold applyReact
  dsimp only
  split
  · exact (hreact _).trans (schedule_eventsOnly _ _ _).faultOnly
  · exact hreact _

theorem raiseFault_faultOnly (i : Nat) (detail : Word) (c : Chip) : FaultOnly c (raiseFault i detail c) := by
  have hpend := setBits_faultOnly (fltPendR (i / 32)) (2 ^ (i % 32)) c
  simp only [raiseFault]
  split
  · exact .refl c
  · split
    · exact hpend.trans (standReact_faultOnly i _)
    · exact (hpend.trans (applyReact_faultOnly i _)).trans ⟨_, _, _, _, _, _, rfl⟩

end Sys2Proof.Machine

/-! PROOFS. Trips (05 R132 to R135): an input in the cycle in which it is active, and the override that it brings in the next. -/

namespace Sys2Proof.Machine

variable {n : Fin 96} {c : Chip}

/-! ### An active input (R132 to R134) -/

/-- The input is active in the present cycle. -/
theorem tripActive_tripInput (sl : Fin 12) (i : Fin 8) (c : Chip) : (tripActive (tripInput sl i c) sl).getLsbD i.val = true := by
  have hpulse : (tripInput sl i c).slices[sl.val].tripPulse = c.slices[sl].tripPulse ||| BitVec.ofNat 8 (2 ^ i.val) :=
    congrArg Slice.tripPulse (vmod_get c.slices sl _)
  rw [tripActive, dif_pos sl.isLt, hpulse, BitVec.getLsbD_or, BitVec.getLsbD_or, BitVec.getLsbD_ofNat, Nat.testBit_two_pow_self,
    decide_eq_true i.isLt]
  simp

theorem tripInput_reg (sl : Fin 12) (i : Fin 8) (c : Chip) {a : Nat} (h : a ≠ tripstatR sl) : (tripInput sl i c).reg a = c.reg a :=
  Chip.reg_setBits_ne _ _ h

theorem tripInput_pwms (sl : Fin 12) (i : Fin 8) (c : Chip) : (tripInput sl i c).pwms = c.pwms := Chip.setBits_pwms _ _ _

/-- An active input acts on a channel that selects it (R133). -/
theorem tripHits_of_selected {i : Nat} (ha : (tripActive c (n.val / 8)).getLsbD i = true) (hs : c.bit (pwmR n 0x94) i = true) :
    tripHits c n = true := by
  have hi : i < 8 := BitVec.lt_of_getLsbD ha
  have hf : (c.fld (pwmR n 0x94) 0 8).testBit i = true := by
    rw [Chip.fld, Word.fld_testBit, Nat.zero_add, decide_eq_true hi]
    exact hs
  have hb : ((tripActive c (n.val / 8)).toNat &&& c.fld (pwmR n 0x94) 0 8).testBit i = true := by
    rw [Nat.testBit_and, hf, Bool.and_true]
    exact ha
  rw [tripHits, bne_iff_ne]
  intro h0
  rw [h0, Nat.zero_testBit] at hb
  exact absurd hb nofun

/-! ### The override from the next cycle (R134, R135) -/

theorem tripFree_tripDue (n : Fin 96) (c : Chip) : (tripFree n c).pwms[n].tripDue = c.pwms[n].tripDue := by
  unfold tripFree
  split
  · simp
  · rfl

/-- What is active as a cycle ends overrides from the next. -/
theorem tripEnd_hit (h : tripHits c n = true) : (tripEnd n c).pwms[n].tripDue = true := by
  have hdue : (updPwm n (fun p => { p with tripDue := true, clrDue := false }) c).pwms[n].tripDue = true :=
    congrArg Pwm.tripDue (updPwm_get n _ c)
  simp only [tripEnd, h, Bool.not_true, Bool.and_false, Bool.false_eq_true, if_false, Bool.true_or, if_true]
  split
  · exact hdue
  · rw [tripFree_tripDue, hdue]

/-- The trip fault of a slice leaves the registers of its channels alone. -/
theorem raiseTrip_reg (n : Fin 96) (off : Nat) (detail : Word) (c : Chip) (ho : off < 0x200) :
    (raiseFault (n.val / 8) detail c).reg (pwmR n off) = c.reg (pwmR n off) := by
  have hl : fltListed (n.val / 8) = true := by
    simp only [fltListed, Bool.or_eq_true, decide_eq_true_eq]
    omega
  have hs : pwmR n off ≠ cmdStatR := by simp only [pwmR, slR, cmdStatR]; omega
  have hf : pwmR n off ≠ cmdR 4 := by simp only [pwmR, slR, cmdR]; omega
  have hp : pwmR n off ≠ fltPendR (n.val / 8 / 32) := by simp only [pwmR, slR, fltPendR, sysR]; omega
  rw [raiseFault_reg _ _ _ hl hs hf, Chip.reg_setBits_ne _ _ hp]

/-- TRIPF marks the first cycle of an override. -/
def tripMarked (n : Fin 96) (c : Chip) : Chip := if c.pwms[n].tripOver then c else c.setBits (pwmR n 0x88) (2 ^ 13)

/-- The channel is overridden. -/
def overridden (n : Fin 96) (c : Chip) : Chip := updPwm n (fun p => { p with tripDue := false, tripOver := true }) (tripMarked n c)

theorem overridden_record (n : Fin 96) (c : Chip) :
    (overridden n c).pwms[n].tripOver = true ∧ (overridden n c).pwms[n].tripDue = false := by
  have h : (overridden n c).pwms[n] = { (tripMarked n c).pwms[n] with tripDue := false, tripOver := true } := updPwm_get n _ _
  rw [h]
  exact ⟨rfl, rfl⟩

theorem overridden_tripf (h : c.pwms[n].tripOver = false) : (overridden n c).bit (pwmR n 0x88) 13 = true := by
  rw [overridden, Chip.bit_updPwm, tripMarked, h]
  exact Chip.bit_setBits_pow c _ (by omega)

theorem overridden_tripcfg (n : Fin 96) (c : Chip) : (overridden n c).reg (pwmR n 0x94) = c.reg (pwmR n 0x94) := by
  rw [overridden, Chip.reg_updPwm, tripMarked]
  split
  · rfl
  · exact Chip.reg_setBits_ne _ _ (by rw [Ne, pwmR_inj]; decide)

/-- The latch of an override that does not release by itself. -/
def tripLatched (n : Fin 96) (c : Chip) : Chip :=
  raiseFault (n.val / 8) (tripstat c (n.val / 8)) (c.setBits (pwmR n 0x88) (2 ^ 14))

theorem tripStart_due (h : c.pwms[n].tripDue = true) : tripStart n c =
    if (overridden n c).bit (pwmR n 0x94) 12 || (overridden n c).bit (pwmR n 0x88) 14 then overridden n c
    else tripLatched n (overridden n c) := by
  unfold tripStart
  rw [h]
  rfl

theorem tripLatched_bit (n : Fin 96) (c : Chip) {i : Nat} (hi : i < 32) :
    (tripLatched n c).bit (pwmR n 0x88) i = (c.bit (pwmR n 0x88) i || (2 ^ 14).testBit i) := by
  have h : (tripLatched n c).reg (pwmR n 0x88) = c.reg (pwmR n 0x88) ||| BitVec.ofNat 32 (2 ^ 14) := by
    rw [tripLatched, raiseTrip_reg n _ _ _ (by decide), Chip.reg_setBits_self]
  rw [Chip.bit, h]
  exact Word.bit_or _ _ hi

theorem tripLatched_get (n : Fin 96) (c : Chip) : (tripLatched n c).pwms[n] = c.pwms[n] :=
  congrArg (·[n]) (raiseFault_faultOnly _ _ _).pwms

/-- An override that is due begins; it sets TRIPF in its first cycle, and is latched unless it releases by itself. -/
theorem tripStart_spec (h : c.pwms[n].tripDue = true) :
    (tripStart n c).pwms[n].tripOver = true ∧ (tripStart n c).pwms[n].tripDue = false ∧
    (c.pwms[n].tripOver = false → (tripStart n c).bit (pwmR n 0x88) 13 = true) ∧
    (c.bit (pwmR n 0x94) 12 = false → (tripStart n c).bit (pwmR n 0x88) 14 = true) := by
  obtain ⟨hover, hdue⟩ := overridden_record n c
  have hcfg : (overridden n c).bit (pwmR n 0x94) 12 = c.bit (pwmR n 0x94) 12 := congrArg (Word.bit · 12) (overridden_tripcfg n c)
  rw [tripStart_due h, hcfg]
  split
  next hkept =>
    refine ⟨hover, hdue, overridden_tripf, fun hauto => ?_⟩
    rwa [hauto, Bool.false_or] at hkept
  next =>
    rw [tripLatched_get, tripLatched_bit n _ (by omega), tripLatched_bit n _ (by omega), Nat.testBit_two_pow_self, Bool.or_true]
    exact ⟨hover, hdue, fun hnew => Bool.or_eq_true_iff.2 (.inl (overridden_tripf hnew)), fun _ => rfl⟩

end Sys2Proof.Machine

/-! PROOFS. Halted owners (05 R136, R138, R139, R143; 18 R434): the causes of safe state, and the scan of the slices' owners. -/

namespace Sys2Proof.Machine

variable {n : Fin 96} {c d : Chip}

/-! ### Causes of safe state (R139) -/

theorem causes_fin (c : Chip) (sl : Fin 12) : causes c sl = c.slices[sl].causes.toNat := by
  rw [causes, dif_pos sl.isLt]
  rfl

theorem causes_updCauses_self (sl : Fin 12) (f : BitVec 5 → BitVec 5) (c : Chip) :
    causes (updCauses sl f c) sl = (f c.slices[sl].causes).toNat := by
  rw [causes_fin, updCauses, dif_pos sl.isLt]
  exact congrArg (·.causes.toNat) (vmod_get c.slices sl _)

theorem causes_updCauses_ne {s : Nat} {sl : Fin 12} (f : BitVec 5 → BitVec 5) (c : Chip) (h : s ≠ sl.val) :
    causes (updCauses s f c) sl = causes c sl := by
  unfold updCauses
  split
  next hs =>
    rw [causes_fin, causes_fin]
    exact congrArg (·.causes.toNat) (vmod_get_ne c.slices _ (fun e : sl = ⟨s, hs⟩ => h (congrArg Fin.val e).symm))
  next => rfl

theorem causes_congr (h : d.slices = c.slices) (s : Nat) : causes d s = causes c s := by simp only [causes, h]

/-- A slice holds a cause that it has taken. -/
theorem causeOn_setCause {b : Nat} (sl : Fin 12) (c : Chip) (hb : b < 5) : causeOn (setCause b sl c) sl b = true := by
  rw [causeOn, setCause, causes_updCauses_self, BitVec.testBit_toNat, BitVec.getLsbD_or, BitVec.getLsbD_ofNat,
    Nat.testBit_two_pow_self, decide_eq_true hb]
  simp

/-- It does not hold a cause that has ended. -/
theorem causeOn_clrCause {b : Nat} (sl : Fin 12) (c : Chip) (hb : b < 5) : causeOn (clrCause b sl c) sl b = false := by
  unfold clrCause
  split
  next =>
    rw [causeOn, causes_congr (Chip.setBits_slices _ _ _), causes_updCauses_self, BitVec.testBit_toNat, BitVec.getLsbD_and,
      BitVec.getLsbD_not, BitVec.getLsbD_ofNat, Nat.testBit_two_pow_self, decide_eq_true hb]
    simp
  next h => exact Bool.eq_false_iff.2 h

/-- CAUSE shows HALT (R144). -/
theorem safestat_halt (s : Nat) (h : causeOn c s causeHalt = true) : (safestat c s).bit causeHalt = true := by
  have hb : (causes c s + 2 ^ 8 * causes c s).testBit causeHalt = true := by
    rw [causeOn, causeHalt, Nat.testBit_zero, decide_eq_true_eq] at h
    rw [causeHalt, Nat.testBit_zero, decide_eq_true_eq]
    omega
  rw [safestat, Word.bit_or _ _ (by decide), hb, Bool.or_true]

/-- A cause but STOP brings a channel of its slice into safe state (R136): no drain holds it off. -/
theorem safeTurn_halt (h : causeOn c (n.val / 8) causeHalt = true) : (safeTurn n c).pwms[n].safe = true := by
  have hne : causes c (n.val / 8) ≠ 0 := by
    intro e
    rw [causeOn, e, Nat.zero_testBit] at h
    exact absurd h nofun
  have hstop : (causes c (n.val / 8) == 2 ^ causeStop) = false := by
    rw [beq_eq_false_iff_ne]
    intro e
    rw [causeOn, e] at h
    exact absurd h (by decide)
  unfold safeTurn
  simp only [hne, ne_eq, not_false_eq_true, if_true, hstop, Bool.and_false, Bool.or_false]
  split
  next hsafe => exact hsafe
  next => exact congrArg Pwm.safe (updPwm_get n _ c)

/-! ### The owners of a slice (R143) -/

theorem slowners_congr {sl : Nat} (h : d.reg (safecfgR sl) = c.reg (safecfgR sl)) : slowners d sl = slowners c sl := by
  have hb (i : Nat) : d.bit (safecfgR sl) i = c.bit (safecfgR sl) i := congrArg (Word.bit · i) h
  simp only [slowners, hb]

/-- Whether an owner of the slice is halted. -/
def ownerHalted (c : Chip) (s : Nat) : Bool := (slowners c s).any (fun k => (coreGet c k).halted)

/-- The kinds of core have indices apart, and cores of one kind differ by their number. -/
theorem coreIx_injective : Function.Injective coreIx := by
  intro k o h
  have hv : (coreIx k).val = (coreIx o).val := congrArg Fin.val h
  cases k <;> cases o <;> simp only [coreIx] at hv ⊢ <;> grind

theorem coreGet_updCore_ne {k o : CoreId} (f : CoreS → CoreS) (c : Chip) (h : o ≠ k) : coreGet (updCore k f c) o = coreGet c o :=
  vmod_get_ne c.cores f (coreIx_injective.ne h)

/-! ### The scan (R136, R139) -/

/-- What the scan does with one slice. -/
def haltJudge (c : Chip) (s : Nat) : Chip :=
  if ownerHalted c s && !c.bit (safecfgR s) 7 then setCause causeHalt s c
  else if !ownerHalted c s then clrCause causeHalt s c else c

theorem haltScan_eq (c : Chip) : haltScan c = (List.range 12).foldl haltJudge c := rfl

/-- Slice `s` is given HALT, loses it, or stays. -/
theorem haltJudge_cases (c : Chip) (s : Nat) :
    haltJudge c s = setCause causeHalt s c ∨ haltJudge c s = clrCause causeHalt s c ∨ haltJudge c s = c := by
  unfold haltJudge
  split
  · exact .inl rfl
  · split
    · exact .inr (.inl rfl)
    · exact .inr (.inr rfl)

/-- What the judgement of a slice goes by: the cores, and PWM_SAFECFG. -/
structure SameOwners (c d : Chip) : Prop where
  cores : d.cores = c.cores
  cfg (s : Nat) : d.reg (safecfgR s) = c.reg (safecfgR s)

theorem SameOwners.refl (c : Chip) : SameOwners c c := ⟨rfl, fun _ => rfl⟩

theorem SameOwners.trans {e : Chip} (h : SameOwners c d) (h' : SameOwners d e) : SameOwners c e :=
  ⟨h'.cores.trans h.cores, fun s => (h'.cfg s).trans (h.cfg s)⟩

theorem SameOwners.coreGet_eq (h : SameOwners c d) (k : CoreId) : coreGet d k = coreGet c k := by
  simp only [coreGet, h.cores]

theorem SameOwners.ownerHalted_eq (h : SameOwners c d) (s : Nat) : ownerHalted d s = ownerHalted c s := by
  simp only [ownerHalted, slowners_congr (h.cfg s), h.coreGet_eq]

theorem updCauses_sameOwners (s : Nat) (f : BitVec 5 → BitVec 5) (c : Chip) : SameOwners c (updCauses s f c) := by
  unfold updCauses
  split
  · exact ⟨rfl, fun _ => rfl⟩
  · exact .refl c

theorem clrCause_sameOwners (b s : Nat) (c : Chip) : SameOwners c (clrCause b s c) := by
  unfold clrCause
  split
  · exact (updCauses_sameOwners s _ c).trans
      ⟨Chip.setBits_cores _ _ _, fun _ => Chip.reg_setBits_ne _ _ (by simp only [safecfgR, safestatR, slR]; omega)⟩
  · exact .refl c

theorem haltJudge_sameOwners (c : Chip) (s : Nat) : SameOwners c (haltJudge c s) := by
  rcases haltJudge_cases c s with h | h | h <;> rw [h]
  · exact updCauses_sameOwners s _ c
  · exact clrCause_sameOwners causeHalt s c
  · exact .refl c

theorem foldl_haltJudge_sameOwners (xs : List Nat) (c : Chip) : SameOwners c (xs.foldl haltJudge c) :=
  List.foldlRecOn xs _ (.refl c) fun _ h s _ => h.trans (haltJudge_sameOwners _ s)

theorem haltJudge_causes_ne {s : Nat} {sl : Fin 12} (c : Chip) (h : s ≠ sl.val) : causes (haltJudge c s) sl = causes c sl := by
  have hclr : causes (clrCause causeHalt s c) sl = causes c sl := by
    unfold clrCause
    split
    · rw [causes_congr (Chip.setBits_slices _ _ _), causes_updCauses_ne _ c h]
    · rfl
  rcases haltJudge_cases c s with e | e | e <;> rw [e]
  · exact causes_updCauses_ne _ c h
  · exact hclr

/-- The scan judges each slice by the owners as they stand before it. -/
theorem haltScan_judges (sl : Fin 12) (c : Chip) :
    ∃ d, SameOwners c d ∧ causes (haltScan c) sl = causes (haltJudge d sl) sl := by
  obtain ⟨before, after, hsplit⟩ := List.append_of_mem (List.mem_range.2 sl.isLt)
  have hn : (before ++ sl.val :: after).Nodup := hsplit ▸ List.nodup_range
  have hafter : sl.val ∉ after := fun h => (List.nodup_cons.1 (List.nodup_middle.1 hn)).1 (List.mem_append_right _ h)
  refine ⟨before.foldl haltJudge c, foldl_haltJudge_sameOwners before c, ?_⟩
  rw [haltScan_eq, hsplit, List.foldl_append, List.foldl_cons]
  refine List.foldlRecOn (motive := fun d => causes d sl = _) after _ rfl fun d h s hs => ?_
  rw [haltJudge_causes_ne d (fun e : s = sl.val => hafter (e ▸ hs)), h]

/-- A slice with a halted owner takes HALT unless HALTOVR is set (R138). -/
theorem causeOn_haltScan {sl : Fin 12} (h : ownerHalted c sl = true) (ho : c.bit (safecfgR sl) 7 = false) :
    causeOn (haltScan c) sl causeHalt = true := by
  obtain ⟨d, hd, hscan⟩ := haltScan_judges sl c
  have hb : d.bit (safecfgR sl) 7 = false := (congrArg (Word.bit · 7) (hd.cfg sl)).trans ho
  have hj : haltJudge d sl = setCause causeHalt sl d := by simp [haltJudge, hd.ownerHalted_eq, h, hb]
  rw [causeOn, hscan, hj]
  exact causeOn_setCause sl d (by decide)

/-- A slice with no halted owner loses HALT (R139). -/
theorem not_causeOn_haltScan {sl : Fin 12} (h : ownerHalted c sl = false) : causeOn (haltScan c) sl causeHalt = false := by
  obtain ⟨d, hd, hscan⟩ := haltScan_judges sl c
  have hj : haltJudge d sl = clrCause causeHalt sl d := by simp [haltJudge, hd.ownerHalted_eq, h]
  rw [causeOn, hscan, hj]
  exact causeOn_clrCause sl d (by decide)

theorem coreGet_haltScan (c : Chip) (k : CoreId) : coreGet (haltScan c) k = coreGet c k :=
  (foldl_haltJudge_sameOwners _ c).coreGet_eq k

/-! ### Halt and resumption (18 R434) -/

/-- A core with its halt as given. -/
def haltPut (k : CoreId) (b : Bool) (c : Chip) : Chip :=
  triOut k 5 [32, b.toNat] (updCore k (fun s => { s with halted := b }) c)

theorem triOut_cores (k : CoreId) (cls : Nat) (data : List Nat) (c : Chip) : (triOut k cls data c).cores = c.cores := by
  unfold triOut
  split <;> rfl

theorem triOut_regs (k : CoreId) (cls : Nat) (data : List Nat) (c : Chip) : (triOut k cls data c).regs = c.regs := by
  unfold triOut
  split <;> rfl

theorem coreGet_haltPut (k : CoreId) (b : Bool) (c : Chip) (o : CoreId) :
    coreGet (haltPut k b c) o = coreGet (updCore k (fun s => { s with halted := b }) c) o := by
  simp only [coreGet, haltPut, triOut_cores]

theorem coreGet_haltPut_self (k : CoreId) (b : Bool) (c : Chip) :
    coreGet (haltPut k b c) k = { coreGet c k with halted := b } := by
  rw [coreGet_haltPut, coreGet_updCore]

theorem coreGet_haltPut_ne {k o : CoreId} (b : Bool) (c : Chip) (h : o ≠ k) : coreGet (haltPut k b c) o = coreGet c o := by
  rw [coreGet_haltPut, coreGet_updCore_ne _ c h]

theorem haltPut_reg (k : CoreId) (b : Bool) (c : Chip) (a : Nat) : (haltPut k b c).reg a = c.reg a :=
  Chip.reg_congr (triOut_regs _ _ _ _) a

theorem slowners_haltPut (k : CoreId) (b : Bool) (c : Chip) (s : Nat) : slowners (haltPut k b c) s = slowners c s :=
  slowners_congr (haltPut_reg k b c _)

theorem ownerHalted_haltPut {k : CoreId} {s : Nat} (c : Chip) (h : k ∈ slowners c s) : ownerHalted (haltPut k true c) s = true := by
  rw [ownerHalted, slowners_haltPut, List.any_eq_true]
  exact ⟨k, h, by rw [coreGet_haltPut_self]⟩

theorem not_ownerHalted_haltPut {k : CoreId} {s : Nat} {c : Chip}
    (h : ∀ o ∈ slowners c s, o ≠ k → (coreGet c o).halted = false) : ownerHalted (haltPut k false c) s = false := by
  rw [ownerHalted, slowners_haltPut, List.any_eq_false]
  intro o ho
  by_cases e : o = k
  · rw [e, coreGet_haltPut_self]
    exact nofun
  · rw [coreGet_haltPut_ne false c e, h o ho e]
    exact nofun

/-- The debug module answers while RUNCTRL is unlocked: it puts the halt of the core, and the slices' owners are scanned. -/
theorem haltSet_unlocked {k : CoreId} {c : Chip} (b : Bool) (hd : dbgRun c = true)
    (hl : k = .triton → lanesSame c = true ∧ syncLane c = none) : haltSet k b c = haltScan (haltPut k b c) := by
  rw [haltSet, if_pos hd, eachLane_same _ hl]
  rfl

theorem haltSet_locked {k : CoreId} {c : Chip} (b : Bool) (hd : dbgRun c = false) : haltSet k b c = c := by
  simp [haltSet, hd]

theorem coreGet_haltSet {k : CoreId} {c : Chip} (b : Bool) (hd : dbgRun c = true)
    (hl : k = .triton → lanesSame c = true ∧ syncLane c = none) :
    coreGet (haltSet k b c) k = { coreGet c k with halted := b } := by
  rw [haltSet_unlocked b hd hl, coreGet_haltScan, coreGet_haltPut_self]

/-- A halted owner puts its slice in safe state unless HALTOVR is set (R138). -/
theorem causeOn_haltSet {k : CoreId} {sl : Fin 12} {c : Chip} (hd : dbgRun c = true)
    (hl : k = .triton → lanesSame c = true ∧ syncLane c = none) (hk : k ∈ slowners c sl) (ho : c.bit (safecfgR sl) 7 = false) :
    causeOn (haltSet k true c) sl causeHalt = true := by
  rw [haltSet_unlocked true hd hl]
  exact causeOn_haltScan (ownerHalted_haltPut c hk) ((congrArg (Word.bit · 7) (haltPut_reg k true c _)).trans ho)

/-- The last halted owner that resumes ends the cause (R139). -/
theorem not_causeOn_haltSet {k : CoreId} {sl : Fin 12} {c : Chip} (hd : dbgRun c = true)
    (hl : k = .triton → lanesSame c = true ∧ syncLane c = none)
    (ho : ∀ o ∈ slowners c sl, o ≠ k → (coreGet c o).halted = false) : causeOn (haltSet k false c) sl causeHalt = false := by
  rw [haltSet_unlocked false hd hl]
  exact not_causeOn_haltScan (not_ownerHalted_haltPut ho)

/-! ### The statement -/

/-- Settles O37: the active input and the override it brings, then the halt and the resumption of an owner. -/
theorem tripsAndHalt : Obligations.TripsAndHalt := by
  unfold Obligations.TripsAndHalt
  intro s sl i j k hrun c n
  have hn : n.val / 8 = sl.val := by
    have : n.val = 8 * sl.val + j.val := rfl
    omega
  refine ⟨goes_onChip hrun rfl ⟨Chip.bit_setBits_pow _ _ (by omega), fun a ha => tripInput_reg sl i c (by simpa using ha),
      tripInput_pwms sl i c, fun hsel => ?_⟩, tripStart_spec, fun hd hl => ⟨goes_onChip hrun rfl ?_, goes_onChip hrun rfl ?_⟩,
    fun hd => ⟨onChip_same hrun (haltSet_locked true hd), onChip_same hrun (haltSet_locked false hd)⟩⟩
  · have hhits : tripHits (tripInput sl i c) n = true := by
      refine tripHits_of_selected (i := i.val) ?_ ?_
      · rw [hn]
        exact tripActive_tripInput sl i c
      · have hne : pwmR n 0x94 ≠ tripstatR sl := by simp only [pwmR, tripstatR, slR]; omega
        exact (congrArg (Word.bit · i.val) (tripInput_reg sl i c hne)).trans hsel
    exact ⟨hhits, tripEnd_hit hhits⟩
  · rw [State.after_chip, coreGet_haltSet (c := c) true hd hl]
    refine ⟨rfl, rfl, fun hk ho => ?_⟩
    have hon : causeOn (haltSet k true c) sl causeHalt = true := causeOn_haltSet hd hl hk ho
    exact ⟨hon, safestat_halt sl hon, safeTurn_halt (by rwa [hn])⟩
  · rw [State.after_chip, coreGet_haltSet (c := c) false hd hl]
    exact ⟨rfl, rfl, not_causeOn_haltSet hd hl⟩

end Sys2Proof.Machine

/-! PROOFS. SAR cores: starts and the sample instant (06 R147 to R155). What a start and a sample leave of registers and of the core's
record, and of both the freeze of an express lane. -/

namespace Sys2Proof.Machine

/-! ### The record of one core -/

@[simp] theorem Chip.reg_updAdc (c : Chip) (k : Fin 32) (f : Adc → Adc) (a : Nat) : (updAdc k f c).reg a = c.reg a := rfl

/-- A core's record after its own update. -/
theorem updAdc_at (k : Fin 32) (f : Adc → Adc) (c : Chip) : (updAdc k f c).adcs[k] = f c.adcs[k] := vmod_get c.adcs k f

@[simp] theorem updAdc_get (k : Fin 32) (f : Adc → Adc) (c : Chip) : (updAdc k f c).adcs[k.val] = f c.adcs[k.val] :=
  vmod_get c.adcs k f

/-! ### Starts (R147, R150) -/

/-- A start that comes alone in its cycle and finds room waits behind the others. -/
theorem adcQueue_room {a : Adc} {st : AdcStart} (hn : a.pending.length < 4) (ht : ∀ p ∈ a.pending, p.at_ ≠ st.at_) :
    adcQueue a st = (a.pending ++ [st], false) := by
  have hall : a.pending.filter (fun p => !(p.at_ == st.at_ && decide (st.src < p.src))) = a.pending :=
    List.filter_eq_self.2 fun p hp => by simp [ht p hp]
  have hnone : a.pending.filter (fun p => p.at_ == st.at_ && decide (st.src < p.src)) = [] :=
    List.filter_eq_nil_iff.2 fun p hp => by simp [ht p hp]
  have hcap : a.pending.length + 1 ≤ if a.cur.isNone then 5 else 4 := by split <;> omega
  simp only [adcQueue, hall, hnone, Prod.mk.injEq, decide_eq_false_iff_not, Nat.not_lt]
  exact ⟨List.take_of_length_le (by simpa using hcap), by simpa using hcap⟩

/-- What a start does to a ready core that has room for it. -/
theorem adcStartAt_ready {k : Fin 32} {entry src : Nat} {c : Chip} (hr : adcRdy c k = true) (hn : c.adcs[k].pending.length < 4)
    (ht : ∀ p ∈ c.adcs[k].pending, p.at_ ≠ c.now) :
    adcStartAt k entry src c = updAdc k (fun a => { a with pending := c.adcs[k].pending ++ [⟨entry, src, c.now⟩] }) c := by
  simp only [adcStartAt, hr, adcQueue_room (st := ⟨entry, src, c.now⟩) hn ht]
  rfl

/-- A start that finds the core not ready sets NRDYF alone. -/
theorem adcStartAt_notReady {k : Fin 32} {entry src : Nat} {c : Chip} (hr : adcRdy c k = false) :
    adcStartAt k entry src c = c.setBits (adcR k 4) (2 ^ 13) := by simp [adcStartAt, hr]

/-- What a start leaves: of a ready core with room, one more start that waits; of a core that is not ready, NRDYF. -/
def StartTaken (c d : Chip) (k : Fin 32) (entry src : Nat) : Prop :=
  (adcRdy c k = true → c.adcs[k].pending.length < 4 → (∀ p ∈ c.adcs[k].pending, p.at_ ≠ c.now) →
    d.adcs[k].pending = c.adcs[k].pending ++ [⟨entry, src, c.now⟩] ∧ d.regs = c.regs) ∧
  (adcRdy c k = false → d.adcs = c.adcs ∧ d.bit (adcR k 4) 13 = true ∧ ∀ a, a ∉ [adcR k 4] → d.reg a = c.reg a)

theorem adcStartAt_taken (k : Fin 32) (entry src : Nat) (c : Chip) : StartTaken c (adcStartAt k entry src c) k entry src := by
  refine ⟨fun hr hn ht => ?_, fun hr => ?_⟩
  · rw [adcStartAt_ready hr hn ht]
    exact ⟨by rw [updAdc_at], rfl⟩
  · rw [adcStartAt_notReady hr]
    exact ⟨rfl, c.bit_setBits_pow _ (by decide), fun a ha => c.reg_setBits_ne _ (by simpa using ha)⟩

/-- A pulse of an enabled trigger is a start (R147). -/
theorem adcTrig_enabled {k : Fin 32} {t : Fin 2} {c : Chip} (h : c.bit (adcR k 0xC) (16 + t.val) = true) :
    adcTrig k t c = adcStartAt k (c.fld (adcR k 0xC) (8 * t.val) 5) t.val c := if_pos h

/-- A write of ADC_SWSTART with GO is a start (R147). -/
theorem adcSwWrite_go {k : Fin 32} {v : Word} (c : Chip) (h : v.bit 8 = true) : adcSwWrite k v c = adcStartAt k (v.fld 0 5) 3 c :=
  if_pos h

/-! ### The freeze of an express lane at a sample instant (08 R195) -/

/-- `d` is `c` but for the notes of the memories' ports, with no error found. -/
def PortsOnly (c d : Chip) : Prop := ∃ e, e.bad = c.ecc.bad ∧ d = { c with ecc := e }

theorem PortsOnly.refl (c : Chip) : PortsOnly c c := ⟨_, rfl, rfl⟩

theorem PortsOnly.trans {c d e : Chip} (h : PortsOnly c d) (h' : PortsOnly d e) : PortsOnly c e := by
  obtain ⟨x, hx, rfl⟩ := h
  obtain ⟨y, hy, rfl⟩ := h'
  exact ⟨y, hy.trans hx, rfl⟩

theorem PortsOnly.bad {c d : Chip} (h : PortsOnly c d) : d.ecc.bad = c.ecc.bad := by
  obtain ⟨_, he, rfl⟩ := h
  exact he

theorem PortsOnly.adcs {c d : Chip} (h : PortsOnly c d) : d.adcs = c.adcs := by
  obtain ⟨_, -, rfl⟩ := h
  rfl

theorem PortsOnly.regs {c d : Chip} (h : PortsOnly c d) : d.regs = c.regs := by
  obtain ⟨_, -, rfl⟩ := h
  rfl

theorem portUse_portsOnly (k : Nat) (c : Chip) : PortsOnly c (portUse k c) := by
  unfold portUse
  split
  · split
    · exact .refl c
    · refine ⟨_, ?_, rfl⟩
      rfl
  · exact .refl c

/-- With no error in the memories a read only uses the port. -/
theorem eccRead_clean (k n : Nat) {c : Chip} (h : c.ecc.bad = []) : eccRead k n c = (true, portUse k c) := by
  refine List.foldl_fixed' (fun w => ?_) _
  have he : eccErr (portUse k c) w = none := by rw [eccErr, (portUse_portsOnly k c).bad, h]; rfl
  simp [he]

theorem xlSlot_portsOnly (s : Fin 12) (j : Fin 16) {c : Chip} (h : c.ecc.bad = []) : PortsOnly c (xlSlot s j c).2 := by
  have hsnap (w : Nat) : PortsOnly c (peaSnap w c).2 := by
    simp only [peaSnap, peaRead, eccRead_clean _ _ h]
    exact portUse_portsOnly _ c
  unfold xlSlot
  dsimp only
  split
  · exact .refl c
  · split
    · exact hsnap _
    · exact .refl c
    · exact .refl c

theorem xlSnapNow_portsOnly (s : Fin 12) {c : Chip} (h : c.ecc.bad = []) : PortsOnly c (xlSnapNow s c).2 := by
  show PortsOnly c (xlSlots s c).2
  exact List.foldlRecOn (motive := fun r : Vector Word 16 × Chip => PortsOnly c r.2) _ _ (.refl c)
    fun r hr j _ => hr.trans (xlSlot_portsOnly s j (hr.bad.trans h))

/-- A freeze writes XL_RECIP alone, and leaves the SAR cores as they were. -/
theorem xlFreeze_keeps (s : Fin 12) (core id : Nat) {c : Chip} (h : c.ecc.bad = []) :
    (xlFreeze s core id c).adcs = c.adcs ∧ ∀ a, a ≠ xlR s 0x24 → (xlFreeze s core id c).reg a = c.reg a := by
  obtain ⟨x, hx⟩ : ∃ x, x = updXl s (fun x => { x with snaps := adrop (1024 * core) 1024 x.snaps }) c := ⟨_, rfl⟩
  have hkept : x.adcs = c.adcs ∧ x.regs = c.regs ∧ x.ecc.bad = [] := by rw [hx]; exact ⟨rfl, rfl, h⟩
  obtain ⟨hxa, hxr, hxb⟩ := hkept
  have hports := xlSnapNow_portsOnly s hxb
  have hadcs : (xlSnapNow s x).2.adcs = c.adcs := hports.adcs.trans hxa
  have hreg (a : Nat) : (xlSnapNow s x).2.reg a = c.reg a := Chip.reg_congr (hports.regs.trans hxr) a
  unfold xlFreeze
  dsimp only
  rw [← hx]
  generalize xlSnapNow s x = r at hadcs hreg
  split
  · exact ⟨hxa, fun a _ => Chip.reg_congr hxr a⟩
  · split
    · exact ⟨by simpa using hadcs, fun a ha => (Chip.reg_setReg_ne _ _ ha).trans (hreg a)⟩
    · exact ⟨hadcs, fun a _ => hreg a⟩

/-! ### The sample instant (R149, R155) -/

/-- The stamp of the present cycle, an angle or a time by ADC_CFG.TSEL (R155). -/
def adcStamp (c : Chip) (k : Fin 32) : Word :=
  if c.bit (adcR k 0) 2 then c.capTime else angWord (accEnd c (Fin.ofNat 8 (c.fld (adcR k 0) 3 3)))

/-- A conversion with the stamp that the first sample of its entry takes (R151, R155). -/
def AdcConv.stamped (v : AdcConv) (k : Fin 32) (c : Chip) : AdcConv :=
  if v.left == 2 ^ min (v.seq.fld 20 3) 4 then { v with tsel := c.bit (adcR k 0) 2, stamp := adcStamp c k } else v

/-- A conversion whose input the present cycle holds. -/
def AdcConv.sampled (v : AdcConv) (k : Fin 32) (c : Chip) : AdcConv :=
  { v.stamped k c with held := true, code := adcSampled c k (v.stamped k c), sampleAt := c.now, endAt := c.now + 15 }

/-- The stamp is taken at the first sample of an entry. -/
theorem AdcConv.sampled_stamp {v : AdcConv} {k : Fin 32} {c : Chip} (h : v.left = 2 ^ min (v.seq.fld 20 3) 4) :
    (v.sampled k c).stamp = adcStamp c k := by
  simp [AdcConv.sampled, AdcConv.stamped, ← h]

/-- The sample instant holds the input of the conversion in progress; of the registers a lane's freeze writes XL_RECIP alone. -/
theorem adcSample_holds {k : Fin 32} {x : AdcConv} {c : Chip} (hx : c.adcs[k].cur = some x) (hh : x.held = false)
    (hb : c.ecc.bad = []) :
    (adcSample k c).adcs[k] = { c.adcs[k] with cur := some (x.sampled k c) } ∧
    ∀ a, a ∉ [xlR (k.val / 2) 0x24] → (adcSample k c).reg a = c.reg a := by
  obtain ⟨d, hd⟩ : ∃ d, d = updAdc k (fun a => { a with cur := some (x.sampled k c) }) c := ⟨_, rfl⟩
  obtain ⟨e, he⟩ : ∃ e, e = if (x.sampled k c).left = 1 then d.schedule 16 (.conversionComplete k) else d := ⟨_, rfl⟩
  have hkeep : e.adcs = d.adcs ∧ e.regs = c.regs ∧ e.ecc.bad = [] := by
    rw [he, hd]
    split <;> exact ⟨rfl, rfl, hb⟩
  obtain ⟨hadcs, hregs, hbad⟩ := hkeep
  have hrec : e.adcs[k] = { c.adcs[k] with cur := some (x.sampled k c) } := by
    simp only [hadcs, hd, updAdc_at]
  have hs : adcSample k c = if (x.left == 2 ^ min (x.seq.fld 20 3) 4) && decide (k.val < 24) then
      xlFreeze (Fin.ofNat 12 (k.val / 2)) (k.val % 2) ((x.sampled k c).seq.fld 0 8) e else e := by
    rw [he, hd]
    rw [adcSample, hx]
    exact if_neg (by simp [hh])
  rw [hs]
  split
  · next hf =>
    have hk : k.val < 24 := by simp at hf; exact hf.2
    have hsl : (Fin.ofNat 12 (k.val / 2)).val = k.val / 2 := Nat.mod_eq_of_lt (by omega)
    obtain ⟨ha, hr⟩ := xlFreeze_keeps (Fin.ofNat 12 (k.val / 2)) (k.val % 2) ((x.sampled k c).seq.fld 0 8) hbad
    refine ⟨by simp only [ha, hrec], fun a hne => ?_⟩
    rw [hr a (by rw [hsl]; simpa using hne)]
    exact Chip.reg_congr hregs a
  · exact ⟨hrec, fun a _ => Chip.reg_congr hregs a⟩

end Sys2Proof.Machine

/-! PROOFS. SAR cores: records, enabling and reads (06 R151 to R160), and the statement on the converters. -/

namespace Sys2Proof.Machine

/-! ### The correction cycle and the destinations (R151 to R157) -/

/-- The raw code that an entry's last conversion gives: the rounded mean of its codes (R151). -/
def AdcConv.raw (v : AdcConv) : Nat :=
  if min (v.seq.fld 20 3) 4 = 0 then v.code
  else (v.sum + v.code + 2 ^ min (v.seq.fld 20 3) 4 / 2) / 2 ^ min (v.seq.fld 20 3) 4

/-- The result and the flags LIM and SAT of a conversion (R152, R153). -/
def AdcConv.result (v : AdcConv) (k : Fin 32) (c : Chip) : Int × Bool × Bool := adcCorrect c k (v.seq.fld 0 8) v.raw

/-- The corrected record of a conversion (R154). -/
def AdcConv.record (v : AdcConv) (k : Fin 32) (c : Chip) : BitVec 64 :=
  mkRecord (v.result k c).1 (v.seq.fld 0 8) (v.result k c).2.1 (adcLast v) (v.result k c).2.2 v.tsel v.src v.stamp

/-- The correction cycle of a conversion: the flags of ADC_STAT, and the record on its way to its destinations. -/
def adcCorrected (k : Fin 32) (v : AdcConv) (c : Chip) : Chip :=
  updAdc k (fun a => { a with stores := a.stores ++ [(v.seq, v.record k c)] })
    ((updAdc k (fun a => { a with done := none }) c).setBits (adcR k 4)
      (2 ^ 8 * (adcLast v).toNat + 2 ^ 9 * (v.result k c).2.1.toNat + 2 ^ 14 * (v.result k c).2.2.toNat))

theorem adcFinish_eq {k : Fin 32} {x : AdcConv} {c : Chip} (h : c.adcs[k].done = some x) :
    adcFinish k c = (if x.seq.bit 29 then evPulseIn 1 (288 + k.val) (adcCorrected k x c) else adcCorrected k x c).schedule 1
      (.adcTap k (recLow (x.record k c))) := by
  simp only [adcFinish, adcComplete, h]
  rfl

/-- The correction cycle gives one record, which its destinations take as the cycle ends and the tap in the next. -/
theorem adcFinish_done {k : Fin 32} {x : AdcConv} {c : Chip} (h : c.adcs[k].done = some x) :
    let d := adcFinish k c
    d.adcs[k] = { c.adcs[k] with done := none, stores := c.adcs[k].stores ++ [(x.seq, x.record k c)] } ∧
    (c.now + 1, Ev.adcTap k ((x.record k c).setWidth 32)) ∈ d.agenda ∧ ∀ a, a ∉ [adcR k 4] → d.reg a = c.reg a := by
  obtain ⟨e, he⟩ : ∃ e, e = if x.seq.bit 29 then evPulseIn 1 (288 + k.val) (adcCorrected k x c) else adcCorrected k x c :=
    ⟨_, rfl⟩
  have hkept : e.adcs = (adcCorrected k x c).adcs ∧ e.regs = (adcCorrected k x c).regs ∧ e.now = c.now := by
    rw [he]
    split <;> exact ⟨rfl, rfl, rfl⟩
  obtain ⟨hadcs, hregs, hnow⟩ := hkept
  rw [adcFinish_eq h, ← he]
  refine ⟨?_, ?_, fun a ha => ?_⟩
  · simp [hadcs, adcCorrected]
  · simp [Chip.schedule, hnow, recLow]
  · have hreg : (adcCorrected k x c).reg a = c.reg a := Chip.reg_setBits_ne _ _ (by simpa using ha)
    exact (Chip.reg_congr hregs a).trans hreg

theorem adcActivate_keeps (k : Fin 32) (c : Chip) : (adcActivate k c).adcs = c.adcs ∧ (adcActivate k c).regs = c.regs := by
  unfold adcActivate
  dsimp only
  repeat' split
  all_goals exact ⟨rfl, rfl⟩

/-- A record that finds room, with no loss to be told of, is put behind the others; ADC_STAT may tell of the level. -/
theorem adcStore_room {k : Fin 32} (r : BitVec 64) {c : Chip} (hn : c.adcs[k].q.length < 64) (hl : c.adcs[k].lost = false) :
    (adcStore k r c).adcs[k] = { c.adcs[k] with q := c.adcs[k].q ++ [r] } ∧
    ∀ a, a ≠ adcR k 4 → (adcStore k r c).reg a = c.reg a := by
  have hrec (b : Bool) : recStore 64 b c.adcs[k].q c.adcs[k].lost r = (c.adcs[k].q ++ [r], false, false) :=
    (if_pos hn).trans (by rw [hl]; rfl)
  obtain ⟨d, hd⟩ : ∃ d, d = updAdc k (fun a => { a with q := c.adcs[k].q ++ [r], lost := false }) c := ⟨_, rfl⟩
  obtain ⟨wm, hs⟩ : ∃ wm, adcStore k r c =
      adcActivate k (if wm ≤ (c.adcs[k].q ++ [r]).length then d.setBits (adcR k 4) (2 ^ 12) else d) := by
    rw [hd]
    simp only [adcStore, hrec]
    exact ⟨_, rfl⟩
  have hself : d.adcs[k] = { c.adcs[k] with q := c.adcs[k].q ++ [r] } := by
    rw [hd, updAdc_at, ← hl]
  obtain ⟨hadcs, hregs⟩ := adcActivate_keeps k (if wm ≤ (c.adcs[k].q ++ [r]).length then d.setBits (adcR k 4) (2 ^ 12) else d)
  rw [hs]
  refine ⟨?_, fun a ha => ?_⟩
  · simp only [hadcs]
    split
    · exact hself
    · exact hself
  · rw [Chip.reg_congr hregs a]
    have hdr : d.reg a = c.reg a := by rw [hd, Chip.reg_updAdc]
    split
    · rw [Chip.reg_setBits_ne _ _ ha, hdr]
    · exact hdr

/-- A result register keeps the last record written to it (R156). -/
def resTaken (v : Word) (r : BitVec 64) (rs : Vector (BitVec 64) 8) : Vector (BitVec 64) 8 :=
  if v.bit 24 then rs.set (v.fld 25 3 % 8) r (Nat.mod_lt _ (by decide)) else rs

theorem resTaken_get (v : Word) (r : BitVec 64) (rs : Vector (BitVec 64) 8) (i : Fin 8) :
    (resTaken v r rs)[i] = if v.bit 24 ∧ v.fld 25 3 = i.val then r else rs[i] := by
  have hlt : v.fld 25 3 % 8 = v.fld 25 3 := Nat.mod_eq_of_lt (v.fld_lt 25 3)
  unfold resTaken
  split
  · next h => simp [h, hlt, Vector.getElem_set]
  · next h => simp [h]

/-- A record goes to the destinations that its entry names (R156). -/
theorem adcLand_eq (k : Fin 32) (v : Word) (r : BitVec 64) (c : Chip) :
    adcLand k (v, r) c = if v.bit 23 then adcStore k r (updAdc k (fun a => { a with res := resTaken v r a.res }) c)
      else updAdc k (fun a => { a with res := resTaken v r a.res }) c := by
  have hres : (if v.bit 24 then updAdc k (fun a => { a with res := a.res.set (v.fld 25 3 % 8) r (Nat.mod_lt _ (by decide)) }) c
      else c) = updAdc k (fun a => { a with res := resTaken v r a.res }) c := by
    simp only [resTaken]
    split
    · rfl
    · simp [updAdc, vmod_same]
  rw [← hres]
  rfl

/-- What a record leaves of the core where its queue has room. -/
theorem adcLand_record {k : Fin 32} (v : Word) (r : BitVec 64) {c : Chip} (hn : c.adcs[k].q.length < 64)
    (hl : c.adcs[k].lost = false) :
    (adcLand k (v, r) c).adcs[k] =
      { c.adcs[k] with q := if v.bit 23 then c.adcs[k].q ++ [r] else c.adcs[k].q, res := resTaken v r c.adcs[k].res } ∧
    ∀ b, b ≠ adcR k 4 → (adcLand k (v, r) c).reg b = c.reg b := by
  obtain ⟨d, hd⟩ : ∃ d, d = updAdc k (fun a => { a with res := resTaken v r a.res }) c := ⟨_, rfl⟩
  have hself : d.adcs[k] = { c.adcs[k] with res := resTaken v r c.adcs[k].res } := by rw [hd, updAdc_at]
  have hreg (b : Nat) : d.reg b = c.reg b := by rw [hd, Chip.reg_updAdc]
  have hq : d.adcs[k].q = c.adcs[k].q := by rw [hself]
  rw [adcLand_eq, ← hd]
  by_cases h : v.bit 23
  · obtain ⟨hst, hsr⟩ := adcStore_room (k := k) (c := d) r (by rwa [hq]) (by rwa [hself])
    simp only [if_pos h]
    exact ⟨by rw [hst, hself], fun b hb => (hsr b hb).trans (hreg b)⟩
  · simp only [if_neg h]
    exact ⟨hself, fun b _ => hreg b⟩

theorem adcLand_spec {k : Fin 32} (v : Word) (r : BitVec 64) {c : Chip} (hn : c.adcs[k].q.length < 64)
    (hl : c.adcs[k].lost = false) :
    let d := adcLand k (v, r) c
    d.adcs[k].q = (if v.bit 23 then c.adcs[k].q ++ [r] else c.adcs[k].q) ∧
    (∀ i : Fin 8, d.adcs[k].res[i] = if v.bit 24 ∧ v.fld 25 3 = i.val then r else c.adcs[k].res[i]) ∧
    ∀ b, b ≠ adcR k 4 → d.reg b = c.reg b := by
  obtain ⟨hrec, hreg⟩ := adcLand_record v r hn hl
  exact ⟨by rw [hrec], fun i => (congrArg (fun a : Adc => a.res[i]) hrec).trans (resTaken_get v r _ i), hreg⟩

/-! ### Enabling (R160) -/

theorem adcOpen_of_unsealed {c : Chip} (ini : Initiator) (k : Nat) (h : c.sealed = false) : adcOpen c ini k = true := by
  simp [adcOpen, cfgOpen_of_unsealed ini _ h, h]

/-- A write of ADC_CFG sets the register, and one that sets EN starts the calibration of a core at rest. -/
theorem adcCfgWrite_spec {ini : Initiator} {k : Fin 32} (v : Word) {c : Chip} (hs : c.sealed = false) :
    let d := adcCfgWrite ini k v c
    d.reg (adcR k 0) = v &&& 0x7FFF ∧ (∀ a, a ∉ [adcR k 0] → d.reg a = c.reg a) ∧
    d.adcs[k] = if v.bit 0 = true ∧ adcRdy c k = false ∧ c.adcs[k].readyAt = none then
      { c.adcs[k] with readyAt := some (c.now + 1000) } else c.adcs[k] := by
  obtain ⟨d, hd⟩ : ∃ d, d = c.setReg (adcR k 0) (v &&& 0x7FFF) := ⟨_, rfl⟩
  have hw : adcCfgWrite ini k v c = if v.bit 0 = true ∧ adcRdy c k = false ∧ c.adcs[k].readyAt = none then
      updAdc k (fun a => { a with readyAt := some (c.now + 1000) }) d else d := by
    simp only [adcCfgWrite, adcOpen_of_unsealed ini k hs, ← hd]
    simp [and_assoc]
  have hself : d.reg (adcR k 0) = v &&& 0x7FFF := by rw [hd, Chip.reg_setReg_self]
  have hbut (a : Nat) (ha : a ∉ [adcR k 0]) : d.reg a = c.reg a := by rw [hd, Chip.reg_setReg_ne _ _ (by simpa using ha)]
  have hadc : d.adcs[k] = c.adcs[k] := by rw [hd]; rfl
  simp only [hw]
  split
  · exact ⟨hself, hbut, by rw [updAdc_at, hadc]⟩
  · exact ⟨hself, hbut, hadc⟩

/-- A core whose EN has been written 0 is at rest as the cycle ends, with its queue kept. -/
theorem adcEnd_off {k : Fin 32} {c : Chip} (he : adcEn c k = false) (hr : adcRdy c k = true ∨ c.adcs[k].readyAt ≠ none)
    (hs : c.adcs[k].stores = []) :
    let d := adcEnd k c
    adcRdy d k = false ∧ d.adcs[k].readyAt = none ∧ d.adcs[k].cur = none ∧ d.adcs[k].pending = [] ∧
    d.adcs[k].q = c.adcs[k].q := by
  obtain ⟨d, hd⟩ : ∃ d, d = updAdc k (fun a => { a with stores := [] }) c := ⟨_, rfl⟩
  have hself : d.adcs[k] = { c.adcs[k] with stores := [] } := by rw [hd, updAdc_at]
  have hen : adcEn d k = false := by rw [hd]; exact he
  have hrdy : (adcRdy d k || d.adcs[k].readyAt.isSome) = true := by
    rw [hself, Bool.or_eq_true, Option.isSome_iff_ne_none, hd]
    exact hr
  have hoff : adcEnd k c = adcOff k d := by
    simp only [adcEnd, hs, List.foldl_nil, ← hd, hen, hrdy]
    rfl
  simp only [hoff, adcOff, updAdc_at, Chip.clrBits_adcs, hself, and_true]
  exact Chip.bit_clrBits_pow d (adcR k 4) (k := 1) (by decide)

/-- A core whose calibration is under way becomes ready. -/
theorem adcReadyNow_calibrated {k : Fin 32} {c : Chip} (he : adcEn c k = true) (hr : c.adcs[k].readyAt ≠ none) :
    let d := adcReadyNow k c
    adcRdy d k = true ∧ d.adcs[k].readyAt = none ∧ ∀ a, a ∉ [adcR k 4] → d.reg a = c.reg a := by
  have hnow : adcReadyNow k c = (updAdc k (fun a => { a with readyAt := none }) c).setBits (adcR k 4) 2 :=
    if_pos (by rw [he, Bool.true_and, Option.isSome_iff_ne_none]; exact hr)
  simp only [hnow]
  exact ⟨Chip.bit_setBits_pow _ (adcR k 4) (k := 1) (by decide), by simp, fun a ha => Chip.reg_setBits_ne _ _ (by simpa using ha)⟩

/-! ### Reads (R157, R158) -/

/-- A read answered the low word of `r`, keeps the high word for its initiator, and leaves the core with the queue `q`. -/
def AdcReads (c : Chip) (k : Fin 32) (ini : Initiator) (q : List (BitVec 64)) (r : BitVec 64) (x : Word × Chip) : Prop :=
  x.1 = r.setWidth 32 ∧ x.2.adcs[k].q = q ∧ aread 0 x.2.adcs[k].hold (iniIx ini) = r.extractLsb' 32 32 ∧ x.2.regs = c.regs

theorem adcReads_keep {k : Fin 32} {c d : Chip} (ini : Initiator) (r : BitVec 64) (hd : d.regs = c.regs) :
    AdcReads c k ini d.adcs[k].q r (recLow r, adcKeep k (iniIx ini) r d) := by
  refine ⟨rfl, ?_, ?_, hd⟩
  · simp [adcKeep]
  · simp [adcKeep, recHigh]

/-- A pop by the consumer that QCON names removes the oldest record. -/
theorem adcQpop_named {k : Fin 32} {ini : Initiator} {c : Chip} {r : BitVec 64} {rest : List (BitVec 64)}
    (hq : c.adcs[k].q = r :: rest) (hw : adcQcon c k = adcWho k ini) : AdcReads c k ini rest r (adcQpop k ini c) := by
  have hp : adcPop k (adcWho k ini) c = (r, updAdc k (fun a => { a with q := rest }) c) := by
    rw [adcPop, hq]
    exact if_pos hw
  simp only [adcQpop, hp]
  have h := adcReads_keep (k := k) (d := updAdc k (fun a => { a with q := rest }) c) ini r rfl
  rwa [updAdc_at] at h

/-- A pop by another consumer, or of an empty queue, returns an empty record and removes nothing. -/
theorem adcQpop_empty {k : Fin 32} {ini : Initiator} {c : Chip} (h : c.adcs[k].q = [] ∨ adcQcon c k ≠ adcWho k ini) :
    AdcReads c k ini c.adcs[k].q emptyRec (adcQpop k ini c) := by
  have hp : adcPop k (adcWho k ini) c = (emptyRec, c) := by
    unfold adcPop
    split
    · next hq => exact if_neg (h.resolve_left (by rw [hq]; nofun))
    · rfl
  simp only [adcQpop, hp]
  exact adcReads_keep ini emptyRec rfl

/-- A read of a result register changes nothing of the queue. -/
theorem adcRes_reads (k : Fin 32) (j : Fin 8) (ini : Initiator) (c : Chip) :
    AdcReads c k ini c.adcs[k].q c.adcs[k].res[j] (adcRes k j ini c) := adcReads_keep ini _ rfl

/-- What a read that is let through leaves. -/
theorem goes_adcReads {s : State} {i : Instr} {ini : Initiator} {a : Nat} {f : Chip → Word × Chip} {k : Fin 32}
    {q : List (BitVec 64)} {r : BitVec 64} (hr : s.inRun) (he : exec i s = s.onChip (gatedRead ini a f))
    (hg : s.chip.grants ini a false) (h : AdcReads s.chip k ini q r (f s.chip)) :
    Goes i s fun t => t.chip.resp = { ok := true, data := [r.setWidth 32] } ∧ t.chip.adcs[k].q = q ∧
      aread 0 t.chip.adcs[k].hold (iniIx ini) = r.extractLsb' 32 32 ∧ t.chip.regs = s.chip.regs := by
  obtain ⟨hw, hq, hh, hregs⟩ := h
  exact goes_gatedRead hr he hg ⟨congrArg (fun w => Resp.mk true [w]) hw, hq, hh, hregs⟩

/-! ### The statement -/

/-- Settles O38: starts, the sample instant, the correction cycle and its destinations, enabling, and the reads. -/
theorem adcResults : Obligations.AdcResults := by
  unfold Obligations.AdcResults
  intro s ini k tr j v x r rest hr c a starts first id m raw y rec_ pops
  have hstart {i : Instr} {entry src : Nat} (h : Goes i s fun t => StartTaken c t.chip k entry src) : starts i entry src := by
    obtain ⟨t, ht, hready, hrest⟩ := h
    exact ⟨fun h1 h2 h3 => ⟨t, ht, hready h1 h2 h3⟩, fun h1 => ⟨t, ht, hrest h1⟩⟩
  refine ⟨fun ht => hstart (goes_onChip hr rfl ?_), fun hg hgo => hstart ?_, fun hx hh hb => goes_onChip hr rfl ?_,
    fun hd => goes_onChip hr rfl (adcFinish_done hd), adcLand_spec x.seq rec_, fun hg hs => ?_, adcEnd_off, fun he ha => ?_,
    fun he ha => goes_onChip hr rfl (adcReadyNow_calibrated he ha), fun hg => ?_,
    fun hg => goes_adcReads hr rfl hg (adcRes_reads k j ini c)⟩
  · rw [State.after_chip, adcTrig_enabled ht]
    exact adcStartAt_taken k _ _ c
  · exact goes_write hr rfl hg (adcSwWrite_go c.ack hgo) (adcStartAt_taken k _ 3 c.ack)
  · obtain ⟨hrec, hreg⟩ := adcSample_holds hx hh hb
    rw [State.after_chip, hrec]
    refine ⟨rfl, rfl, fun hf => ?_, rfl, hreg⟩
    exact congrArg some (AdcConv.sampled_stamp hf)
  · obtain ⟨hreg, hbut, hrec⟩ := adcCfgWrite_spec (ini := ini) (k := k) (c := c.ack) v hs
    refine ⟨fun hv => goes_gatedWrite hr rfl hg ⟨hreg, hbut, hrec.trans ?_⟩,
      fun hv => goes_gatedWrite hr rfl hg ⟨hreg, hbut, hrec.trans (if_neg (by simp [hv]))⟩⟩
    simp only [hv, true_and]
    rfl
  · have hturn : adcTurn k c = adcReadyNow k c := if_pos ha
    rw [hturn]
    exact (adcReadyNow_calibrated he (by rw [ha]; nofun)).1
  · refine ⟨fun hq => ?_, fun hq => goes_adcReads hr rfl hg ?_⟩
    · split
      · next hw => exact goes_adcReads hr rfl hg (adcQpop_named hq hw)
      · next hw => exact goes_adcReads hr rfl hg (adcQpop_empty (.inr hw))
    · exact hq ▸ adcQpop_empty (.inl hq)

end Sys2Proof.Machine

/-! PROOFS. Sigma-delta demodulators: the paths of a demodulator (06 R162 to R165). What the threshold outputs, the fast path and the
main path change of a demodulator and of its registers, one rule per operation. -/

namespace Sys2Proof.Machine

/-! ### The record and the registers of one demodulator -/

@[simp] theorem Chip.reg_updSdm (c : Chip) (k : Fin 32) (f : Sdm → Sdm) (a : Nat) : (updSdm k f c).reg a = c.reg a := rfl

/-- A demodulator's record after its own update. -/
theorem updSdm_at (k : Fin 32) (f : Sdm → Sdm) (c : Chip) : (updSdm k f c).sdms[k] = f c.sdms[k] := vmod_get c.sdms k f

@[simp] theorem updSdm_get (k : Fin 32) (f : Sdm → Sdm) (c : Chip) : (updSdm k f c).sdms[k.val] = f c.sdms[k.val] :=
  vmod_get c.sdms k f

theorem updSdm_at_ne {k i : Fin 32} (f : Sdm → Sdm) (c : Chip) (h : i ≠ k) : (updSdm k f c).sdms[i] = c.sdms[i] :=
  vmod_get_ne c.sdms f h

theorem updSdm_updSdm (k : Fin 32) (f g : Sdm → Sdm) (c : Chip) : updSdm k g (updSdm k f c) = updSdm k (fun x => g (f x)) c := by
  simp only [updSdm, vmod_vmod]

theorem updSdm_congr {k : Fin 32} {f g : Sdm → Sdm} {c : Chip} (h : f c.sdms[k] = g c.sdms[k]) : updSdm k f c = updSdm k g c := by
  simp only [updSdm, vmod, h]

@[simp] theorem sdmR_inj {k a b : Nat} : sdmR k a = sdmR k b ↔ a = b := by simp [sdmR]

/-! ### The threshold outputs (R165) -/

/-- `d` is `c` but for what follows a change of the threshold outputs: trip inputs, happenings and events. -/
def FollowersOnly (c d : Chip) : Prop := ∃ sl a v, d = { c with slices := sl, agenda := a, evm := v }

theorem FollowersOnly.refl (c : Chip) : FollowersOnly c c := ⟨_, _, _, rfl⟩

theorem FollowersOnly.trans {c d e : Chip} (h : FollowersOnly c d) (h' : FollowersOnly d e) : FollowersOnly c e := by
  obtain ⟨_, _, _, rfl⟩ := h
  obtain ⟨_, _, _, rfl⟩ := h'
  exact ⟨_, _, _, rfl⟩

theorem FollowersOnly.regs {c d : Chip} (h : FollowersOnly c d) : d.regs = c.regs := by
  obtain ⟨_, _, _, rfl⟩ := h
  rfl

theorem FollowersOnly.sdms {c d : Chip} (h : FollowersOnly c d) : d.sdms = c.sdms := by
  obtain ⟨_, _, _, rfl⟩ := h
  rfl

theorem FollowersOnly.ite {c d : Chip} (p : Prop) [Decidable p] (h : FollowersOnly c d) : FollowersOnly c (if p then d else c) := by
  split
  · exact h
  · exact .refl c

theorem EventsOnly.followersOnly {c d : Chip} (h : EventsOnly c d) : FollowersOnly c d := by
  obtain ⟨_, _, rfl⟩ := h
  exact ⟨_, _, _, rfl⟩

theorem tripRefreshAll_followersOnly (c : Chip) : FollowersOnly c (tripRefreshAll c) := by
  refine List.foldlRecOn _ _ (.refl c) fun d h s _ => h.trans ?_
  have hlevels (sl : Vector Slice 12) : FollowersOnly d { d with slices := sl } := ⟨_, _, _, rfl⟩
  exact List.foldlRecOn _ _ (hlevels _) fun e h i _ => h.trans (.ite _ (schedule_eventsOnly _ _ e).followersOnly)

/-- The threshold outputs of a demodulator taken: of SDM_STAT only the flags TH1F and TH2F may change. -/
structure ThTaken (k : Fin 32) (t1 t2 : Bool) (c d : Chip) : Prop where
  record : d.sdms[k] = { c.sdms[k] with th1 := t1, th2 := t2 }
  reg : ∀ a, a ≠ sdmR k 0xC → d.reg a = c.reg a
  stat : ∀ i, i < 12 → d.bit (sdmR k 0xC) i = c.bit (sdmR k 0xC) i

theorem sdmTh_taken (k : Fin 32) (t1 t2 : Bool) (c : Chip) : ThTaken k t1 t2 c (sdmTh k t1 t2 c) := by
  by_cases h : c.sdms[k].th1 = t1 ∧ c.sdms[k].th2 = t2
  · have hsame : sdmTh k t1 t2 c = c := if_pos (by simp only [h, beq_self_eq_true, Bool.and_self])
    rw [hsame]
    exact ⟨by rw [← h.1, ← h.2], fun _ _ => rfl, fun _ _ => rfl⟩
  · obtain ⟨x, hx⟩ : ∃ x, x = updSdm k (fun x => { x with th1 := t1, th2 := t2 }) c := ⟨_, rfl⟩
    obtain ⟨m, hm⟩ : ∃ m, m = (t1 && !c.sdms[k].th1).toNat + 2 * (t2 && !c.sdms[k].th2).toNat := ⟨_, rfl⟩
    have hfol : FollowersOnly (x.setBits (sdmR k 0xC) (2 ^ 12 * m)) (sdmTh k t1 t2 c) := by
      have hmask : 2 ^ 12 * (t1 && !c.sdms[k].th1).toNat + 2 ^ 13 * (t2 && !c.sdms[k].th2).toNat = 2 ^ 12 * m := by rw [hm]; ring
      have hne : ¬ (c.sdms[k].th1 == t1 && c.sdms[k].th2 == t2) = true := by simpa using h
      unfold sdmTh
      dsimp only
      rw [if_neg hne, hmask, ← hx]
      refine FollowersOnly.trans ?_ (tripRefreshAll_followersOnly _)
      refine .ite _ ?_
      refine List.foldlRecOn _ _ (.ite _ (evPulse_eventsOnly _ _).followersOnly) fun e h j _ => h.trans ?_
      exact .ite _ (schedule_eventsOnly _ _ e).followersOnly
    have hreg (a : Nat) := Chip.reg_congr hfol.regs a
    refine ⟨?_, fun a ha => ?_, fun i hi => ?_⟩
    · simp only [hfol.sdms, Chip.setBits_sdms, hx, updSdm_at]
    · rw [hreg, Chip.reg_setBits_ne _ _ ha, hx, Chip.reg_updSdm]
    · rw [Chip.bit, hreg, Chip.reg_setBits_self, Word.bit_or _ _ (by omega), Nat.testBit_two_pow_mul, hx, Chip.reg_updSdm,
        decide_eq_false (by omega), Bool.false_and, Bool.or_false]
      rfl

/-! ### The fast path (R164) -/

/-- A lost clock or a stuck stream governs the outputs by LOSSACT (R166). -/
theorem sdmFastOut_lost {k : Fin 32} {c : Chip} (h : sdmLost c k = true) :
    sdmFastOut k c = if c.bit (sdmR k 4) 6 then sdmTh k true true c else c := if_pos h

theorem sdmFastOut_unsettled {k : Fin 32} {c : Chip} (h : sdmLost c k = false) (hn : c.sdms[k].fcnt < 2 * sdmFosr c k) :
    sdmFastOut k c = sdmTh k false false (c.clrBits (sdmR k 0xC) 1) := by
  rw [sdmFastOut, h]
  exact (if_neg Bool.false_ne_true).trans (if_pos hn)

/-- The comparison of the fast path's sum over the bits `l` with TH1 and with TH2. -/
def thAbove (c : Chip) (k : Fin 32) (l : List Bool) : Bool := decide (c.fld (sdmR k 8) 0 11 < sdmF (sdmFosr c k) l)
def thBelow (c : Chip) (k : Fin 32) (l : List Bool) : Bool := decide (sdmF (sdmFosr c k) l < c.fld (sdmR k 8) 16 11)

theorem sdmFastOut_settled {k : Fin 32} {c : Chip} (h : sdmLost c k = false) (hn : 2 * sdmFosr c k ≤ c.sdms[k].fcnt) :
    sdmFastOut k c = sdmTh k (thAbove c k c.sdms[k].fbits) (thBelow c k c.sdms[k].fbits) (c.setBits (sdmR k 0xC) 1) := by
  rw [sdmFastOut, h]
  exact (if_neg Bool.false_ne_true).trans (if_neg (by omega))

/-- The outputs as the fast path leaves them, with FSETTLED. -/
structure FastOut (k : Fin 32) (t1 t2 settled : Bool) (c d : Chip) : Prop where
  record : d.sdms[k] = { c.sdms[k] with th1 := t1, th2 := t2 }
  settled : d.bit (sdmR k 0xC) 0 = settled
  reg : ∀ a, a ≠ sdmR k 0xC → d.reg a = c.reg a

theorem fastOut_of_unsettled {k : Fin 32} {c : Chip} (h : sdmLost c k = false) (hn : c.sdms[k].fcnt < 2 * sdmFosr c k) :
    FastOut k false false false c (sdmFastOut k c) := by
  rw [sdmFastOut_unsettled h hn]
  have ht := sdmTh_taken k false false (c.clrBits (sdmR k 0xC) 1)
  exact ⟨ht.record, (ht.stat 0 (by decide)).trans (Chip.bit_clrBits_pow c _ (k := 0) (by decide)),
    fun a ha => (ht.reg a ha).trans (c.reg_clrBits_ne _ ha)⟩

theorem fastOut_of_settled {k : Fin 32} {c : Chip} (h : sdmLost c k = false) (hn : 2 * sdmFosr c k ≤ c.sdms[k].fcnt) :
    FastOut k (thAbove c k c.sdms[k].fbits) (thBelow c k c.sdms[k].fbits) true c (sdmFastOut k c) := by
  rw [sdmFastOut_settled h hn]
  have ht := sdmTh_taken k (thAbove c k c.sdms[k].fbits) (thBelow c k c.sdms[k].fbits) (c.setBits (sdmR k 0xC) 1)
  exact ⟨ht.record, (ht.stat 0 (by decide)).trans (Chip.bit_setBits_pow c _ (k := 0) (by decide)),
    fun a ha => (ht.reg a ha).trans (c.reg_setBits_ne _ ha)⟩

/-- Whatever the fast path does to the outputs, of the demodulator it changes nothing else. -/
theorem sdmFastOut_record (k : Fin 32) (c : Chip) :
    ∃ t1 t2, (sdmFastOut k c).sdms[k] = { c.sdms[k] with th1 := t1, th2 := t2 } := by
  cases hl : sdmLost c k
  · rcases Nat.lt_or_ge c.sdms[k].fcnt (2 * sdmFosr c k) with hn | hn
    · exact ⟨_, _, (fastOut_of_unsettled hl hn).record⟩
    · exact ⟨_, _, (fastOut_of_settled hl hn).record⟩
  · rw [sdmFastOut_lost hl]
    split
    · exact ⟨_, _, (sdmTh_taken k true true c).record⟩
    · exact ⟨c.sdms[k].th1, c.sdms[k].th2, rfl⟩

/-- What the main path of a demodulator holds is as before. -/
structure MainPathKept (k : Fin 32) (c d : Chip) : Prop where
  n : d.sdms[k].n = c.sdms[k].n
  disc : d.sdms[k].disc = c.sdms[k].disc
  i3 : d.sdms[k].i3 = c.sdms[k].i3
  stores : d.sdms[k].stores = c.sdms[k].stores
  q : d.sdms[k].q = c.sdms[k].q

theorem sdmFastBit_mainPath (k : Fin 32) (b : Bool) (c : Chip) : MainPathKept k c (sdmFastBit k b c) := by
  have hout (d : Chip) (h : MainPathKept k c d) : MainPathKept k c (sdmFastOut k d) := by
    obtain ⟨t1, t2, hr⟩ := sdmFastOut_record k d
    obtain ⟨hn, hd, hi, hs, hq⟩ := h
    constructor <;> rw [hr] <;> assumption
  have hbits : MainPathKept k c (updSdm k (fun x => { x with fbits := (b :: x.fbits).take 64 }) c) := by
    constructor <;> rw [updSdm_at]
  unfold sdmFastBit
  dsimp only
  split
  · refine hout _ ?_
    split
    · exact hbits
    · constructor <;> rw [updSdm_at, updSdm_at]
  · exact hbits

/-- The fast path keeps a bit and counts it for its settling. -/
def bitTaken (k : Fin 32) (b : Bool) (c : Chip) : Chip :=
  updSdm k (fun x => { x with fbits := (b :: x.fbits).take 64, fcnt := x.fcnt + 1 }) c

/-- A bit that the fast path takes while it runs and nothing is lost: the outputs are judged with it. -/
theorem sdmFastBit_on {k : Fin 32} {c : Chip} (b : Bool) (hf : sdmFen c k = true) (hl : sdmLost c k = false) :
    sdmFastBit k b c = sdmFastOut k (bitTaken k b c) := by
  have hl' : sdmLost (updSdm k (fun x => { x with fbits := (b :: x.fbits).take 64 }) c) k = false := by
    simp only [sdmLost, updSdm_at]
    exact hl
  have hf' : sdmFen (updSdm k (fun x => { x with fbits := (b :: x.fbits).take 64 }) c) k = true := hf
  simp only [sdmFastBit, hf', hl', if_true, Bool.false_eq_true, if_false, updSdm_updSdm, bitTaken]

/-! ### The main path (R162) -/

/-- What the fast path of a demodulator goes by is as before, and its queue. -/
structure FastPathKept (k : Fin 32) (c d : Chip) : Prop where
  fbits : d.sdms[k].fbits = c.sdms[k].fbits
  fcnt : d.sdms[k].fcnt = c.sdms[k].fcnt
  lossClk : d.sdms[k].lossClk = c.sdms[k].lossClk
  lossStuck : d.sdms[k].lossStuck = c.sdms[k].lossStuck
  q : d.sdms[k].q = c.sdms[k].q
  reg : ∀ off, off < 0x40 → d.reg (sdmR k off) = c.reg (sdmR k off)
  regs0 : d.regs0 = c.regs0

theorem FastPathKept.trans {k : Fin 32} {c d e : Chip} (h : FastPathKept k c d) (h' : FastPathKept k d e) : FastPathKept k c e :=
  ⟨h'.fbits.trans h.fbits, h'.fcnt.trans h.fcnt, h'.lossClk.trans h.lossClk, h'.lossStuck.trans h.lossStuck, h'.q.trans h.q,
    fun off ho => (h'.reg off ho).trans (h.reg off ho), h'.regs0.trans h.regs0⟩

theorem FastPathKept.fen {k : Fin 32} {c d : Chip} (h : FastPathKept k c d) : sdmFen d k = sdmFen c k := by
  simp only [sdmFen, Chip.bit0, Chip.reg0, h.regs0]

theorem FastPathKept.lost {k : Fin 32} {c d : Chip} (h : FastPathKept k c d) : sdmLost d k = sdmLost c k := by
  simp only [sdmLost, h.lossClk, h.lossStuck]

theorem FastPathKept.fosr {k : Fin 32} {c d : Chip} (h : FastPathKept k c d) : sdmFosr d k = sdmFosr c k := by
  simp only [sdmFosr, Chip.fld, h.reg 4 (by decide)]

theorem FastPathKept.thresholds {k : Fin 32} {c d : Chip} (h : FastPathKept k c d) (l : List Bool) :
    thAbove d k l = thAbove c k l ∧ thBelow d k l = thBelow c k l := by
  simp only [thAbove, thBelow, Chip.fld, h.fosr, h.reg 8 (by decide)]
  exact ⟨rfl, rfl⟩

/-- `d` is `c` but for phase bases, their error flags and the agenda. -/
structure TrackersOnly (c d : Chip) : Prop where
  sdms : d.sdms = c.sdms
  regs0 : d.regs0 = c.regs0
  reg : ∀ a, (∀ p : Fin 8, a ≠ pbR p 8) → d.reg a = c.reg a

theorem TrackersOnly.refl (c : Chip) : TrackersOnly c c := ⟨rfl, rfl, fun _ _ => rfl⟩

theorem TrackersOnly.trans {c d e : Chip} (h : TrackersOnly c d) (h' : TrackersOnly d e) : TrackersOnly c e :=
  ⟨h'.sdms.trans h.sdms, h'.regs0.trans h.regs0, fun a ha => (h'.reg a ha).trans (h.reg a ha)⟩

theorem trkPair_trackersOnly (p : Fin 8) (sn cs : BitVec 16) (c : Chip) : TrackersOnly c (trkPair p sn cs c) := by
  unfold trkPair
  dsimp only
  split
  · exact .refl c
  · split
    · exact .refl c
    · split
      · exact .refl c
      · split
        · exact ⟨rfl, rfl, fun _ _ => rfl⟩
        · exact ⟨rfl, rfl, fun a ha => Chip.reg_setBits_ne _ _ (ha p)⟩

theorem trkOne_trackersOnly (p : Fin 8) (isSin : Bool) (v : BitVec 16) (c : Chip) : TrackersOnly c (trkOne p isSin v c) := by
  have hpb (f : PhaseBase → PhaseBase) : TrackersOnly c (updPb p f c) := ⟨rfl, rfl, fun _ _ => rfl⟩
  unfold trkOne
  dsimp only
  split
  · exact .refl c
  · split
    · exact (hpb _).trans (trkPair_trackersOnly p _ _ _)
    · exact hpb _

theorem trkSdm_trackersOnly (k : Nat) (v : BitVec 16) (c : Chip) : TrackersOnly c (trkSdm k v c) := by
  refine List.foldlRecOn _ _ (.refl c) fun d h p _ => h.trans ?_
  dsimp only
  split
  · split
    · exact trkOne_trackersOnly p true v d
    · split
      · exact trkOne_trackersOnly p false v d
      · exact .refl d
  · exact .refl d

/-- The registers of a demodulator are none of a phase base's. -/
theorem sdmR_ne_pbR (k : Fin 32) (p : Fin 8) (off : Nat) : sdmR k off ≠ pbR p 8 := by
  simp only [sdmR, pbR]
  omega

/-- The output that a sum gives: shifted, clamped, and whether it was clamped (R162). -/
def sdmResult (c : Chip) (k : Nat) (sum : Int) : Int × Bool :=
  (clampI (-32768) 32767 (asr sum (c.fld (sdmR k 0) 11 5)),
    clampI (-32768) 32767 (asr sum (c.fld (sdmR k 0) 11 5)) != asr sum (c.fld (sdmR k 0) 11 5))

theorem sdmOut_trackersOnly (k : Fin 32) (sum : Int) (c : Chip) :
    TrackersOnly (updSdm k (fun x => { x with stores := x.stores ++ [sdmResult c k sum] }) c) (sdmOut k sum c) :=
  trkSdm_trackersOnly k _ _

theorem sdmOut_kept (k : Fin 32) (sum : Int) (c : Chip) : FastPathKept k c (sdmOut k sum c) := by
  obtain ⟨hs, h0, hr⟩ := sdmOut_trackersOnly k sum c
  constructor
  case reg => exact fun off _ => hr _ fun p => sdmR_ne_pbR k p off
  case regs0 => exact h0
  all_goals simp only [hs, updSdm_at]

/-- The third integrator of the filter once it has taken a bit, and the sum of the filter where that bit completes an output. -/
def Sdm.integral (x : Sdm) (b : Bool) : Int := x.i3 + (x.i2 + (x.i1 + if b then 1 else -1))
def Sdm.sinc (x : Sdm) (b : Bool) : Int := x.integral b - x.p0 - x.p1 - x.p2

/-- The filter after a bit that completes no output, and after one that does. -/
def Sdm.integrated (x : Sdm) (b : Bool) : Sdm :=
  { x with i1 := x.i1 + if b then 1 else -1, i2 := x.i2 + (x.i1 + if b then 1 else -1), i3 := x.integral b, n := x.n + 1 }
def Sdm.combed (x : Sdm) (b : Bool) : Sdm :=
  { x.integrated b with n := 0, p0 := x.integral b, p1 := x.integral b - x.p0, p2 := x.integral b - x.p0 - x.p1,
                        disc := x.disc - 1 }

theorem sdmMainBit_eq (k : Fin 32) (b : Bool) (c : Chip) : sdmMainBit k b c =
    if c.sdms[k].n + 1 < sdmOsr c k then updSdm k (·.integrated b) c
    else if c.sdms[k].disc = 0 then
      if sdmLost c k then updSdm k (·.combed b) c else sdmOut k (c.sdms[k].sinc b) (updSdm k (·.combed b) c)
    else updSdm k (·.combed b) c := by
  let y := c.sdms[k]
  have hi : updSdm k (·.integrated b) c = updSdm k (fun x => { x with
      i1 := y.i1 + if b then 1 else -1, i2 := y.i2 + (y.i1 + if b then 1 else -1), i3 := y.integral b, n := y.n + 1 }) c :=
    updSdm_congr rfl
  have hc : updSdm k (·.combed b) c = updSdm k (fun x => { x with
      i1 := y.i1 + if b then 1 else -1, i2 := y.i2 + (y.i1 + if b then 1 else -1), i3 := y.integral b, n := 0,
      p0 := y.integral b, p1 := y.integral b - y.p0, p2 := y.integral b - y.p0 - y.p1, disc := y.disc - 1 }) c :=
    updSdm_congr rfl
  have hl : sdmLost (updSdm k (·.combed b) c) k = sdmLost c k := by
    simp only [sdmLost, updSdm_at]
    rfl
  rw [← hl, hi, hc]
  rfl

theorem updSdm_kept {k : Fin 32} {f : Sdm → Sdm} (hf : ∀ x, (f x).fbits = x.fbits ∧ (f x).fcnt = x.fcnt ∧
    (f x).lossClk = x.lossClk ∧ (f x).lossStuck = x.lossStuck ∧ (f x).q = x.q) (c : Chip) : FastPathKept k c (updSdm k f c) := by
  obtain ⟨h1, h2, h3, h4, h5⟩ := hf c.sdms[k]
  exact ⟨by rw [updSdm_at, h1], by rw [updSdm_at, h2], by rw [updSdm_at, h3], by rw [updSdm_at, h4], by rw [updSdm_at, h5],
    fun _ _ => rfl, rfl⟩

theorem sdmMainBit_kept (k : Fin 32) (b : Bool) (c : Chip) : FastPathKept k c (sdmMainBit k b c) := by
  have hcombed : FastPathKept k c (updSdm k (·.combed b) c) :=
    updSdm_kept (f := (·.combed b)) (fun _ => ⟨rfl, rfl, rfl, rfl, rfl⟩) c
  rw [sdmMainBit_eq]
  split
  · exact updSdm_kept (f := (·.integrated b)) (fun _ => ⟨rfl, rfl, rfl, rfl, rfl⟩) c
  · split
    · split
      · exact hcombed
      · exact hcombed.trans (sdmOut_kept k _ _)
    · exact hcombed

/-- A bit that completes an output which is not discarded begins the next one. -/
theorem sdmMainBit_completes {k : Fin 32} {b : Bool} {c : Chip} (hn : sdmOsr c k ≤ c.sdms[k].n + 1) (hd : c.sdms[k].disc = 0)
    (hl : sdmLost c k = false) :
    (sdmMainBit k b c).sdms[k].n = 0 ∧
    (sdmMainBit k b c).sdms[k].stores = c.sdms[k].stores ++ [sdmResult c k (c.sdms[k].sinc b)] := by
  have hbit : sdmMainBit k b c = sdmOut k (c.sdms[k].sinc b) (updSdm k (·.combed b) c) := by
    rw [sdmMainBit_eq, if_neg (by omega), if_pos hd, hl]
    rfl
  have hs := (sdmOut_trackersOnly k (c.sdms[k].sinc b) (updSdm k (·.combed b) c)).sdms
  rw [hbit]
  simp only [hs, updSdm_at]
  exact ⟨rfl, rfl⟩


end Sys2Proof.Machine

/-! PROOFS. Sigma-delta demodulators: bits, conditions, sync and the queue (06 R162 to R166, R169), and the statement on them. -/

namespace Sys2Proof.Machine

/-! ### A bit of the stream (R162, R164) -/

/-- A bit is noted, with the length of its run. -/
def bitNoted (k : Fin 32) (b : Bool) (run : Nat) (c : Chip) : Chip :=
  updSdm k (fun x => { x with edgeAt := c.now, lastBit := some b, run := run }) c

theorem bitNoted_kept (k : Fin 32) (b : Bool) (run : Nat) (c : Chip) : FastPathKept k c (bitNoted k b run c) :=
  updSdm_kept (f := fun x => { x with edgeAt := c.now, lastBit := some b, run := run }) (fun _ => ⟨rfl, rfl, rfl, rfl, rfl⟩) c

/-- Whether the condition of R166 that `clk` names lasts: the lost clock, else the stuck stream. -/
def Sdm.lossOf (x : Sdm) (clk : Bool) : Bool := if clk then x.lossClk else x.lossStuck

theorem sdmLossOver_none {k : Fin 32} {clk : Bool} {c : Chip} (h : c.sdms[k].lossOf clk = false) : sdmLossOver k clk c = c :=
  if_neg (by rw [← Sdm.lossOf, h]; nofun)

/-- A bit of a sound stream, whose runs are not judged, goes to the fast path, and to the main path unless a sync pulse falls in
its cycle. -/
theorem sdmBit_sound {k : Fin 32} (b : Bool) {c : Chip} (he : sdmEn c k = true) (hl : sdmLost c k = false)
    (hn : c.fld (sdmR k 4) 8 8 = 0) : ∃ run, sdmBit k b c =
      sdmFastBit k b (if c.sdms[k].sync then bitNoted k b run c else sdmMainBit k b (bitNoted k b run c)) := by
  obtain ⟨hclk, hstuck⟩ := Bool.or_eq_false_iff.1 hl
  obtain ⟨e, hedge⟩ : ∃ e, e = updSdm k (fun x => { x with edgeAt := c.now }) c := ⟨_, rfl⟩
  obtain ⟨run, hrun⟩ : ∃ run, run = if e.sdms[k].lastBit == some b then e.sdms[k].run + 1 else 1 := ⟨_, rfl⟩
  obtain ⟨d, hd⟩ : ∃ d, d = bitNoted k b run c := ⟨_, rfl⟩
  have hover : sdmLossOver k true e = e := sdmLossOver_none (by simp only [hedge, updSdm_at]; exact hclk)
  have hover' : sdmLossOver k false d = d := sdmLossOver_none (by simp only [hd, bitNoted, updSdm_at]; exact hstuck)
  have hnoted : updSdm k (fun x =>
      { x with lastBit := some b, run := if e.sdms[k].lastBit == some b then x.run + 1 else 1 }) e = d := by
    rw [hd, bitNoted, hrun, hedge, updSdm_updSdm]
    exact updSdm_congr (by simp)
  have hkept : sdmLost d k = false ∧ d.fld (sdmR k 4) 8 8 = 0 ∧ d.sdms[k].sync = c.sdms[k].sync := by
    rw [hd]
    exact ⟨(bitNoted_kept k b run c).lost.trans hl, hn, by rw [bitNoted, updSdm_at]⟩
  obtain ⟨hdl, hdn, hds⟩ := hkept
  refine ⟨run, ?_⟩
  simp only [sdmBit, he, ← hedge, hover, hnoted, hover', ite_self, hdn, hdl, hds, ← hd, Bool.not_true, Bool.false_eq_true,
    if_false, Nat.mul_zero, ne_eq, not_true_eq_false, false_and, Bool.false_or]

/-- A bit with which an output is due gives one (R162). -/
theorem sdmBit_output {k : Fin 32} (b : Bool) {c : Chip} (he : sdmEn c k = true) (hl : sdmLost c k = false)
    (hs : c.sdms[k].sync = false) (hn : c.fld (sdmR k 4) 8 8 = 0) (ho : sdmOsr c k ≤ c.sdms[k].n + 1) (hd : c.sdms[k].disc = 0) :
    (sdmBit k b c).sdms[k].n = 0 ∧ (sdmBit k b c).sdms[k].q = c.sdms[k].q ∧
    (sdmBit k b c).sdms[k].stores = c.sdms[k].stores ++ [sdmResult c k (c.sdms[k].sinc b)] := by
  obtain ⟨run, hb⟩ := sdmBit_sound b he hl hn
  rw [hs] at hb
  obtain ⟨e, hx⟩ : ∃ e, e = bitNoted k b run c := ⟨_, rfl⟩
  have hrec : e.sdms[k] = { c.sdms[k] with edgeAt := c.now, lastBit := some b, run := run } := by rw [hx, bitNoted, updSdm_at]
  have hkept : FastPathKept k c e := hx ▸ bitNoted_kept k b run c
  have hosr : sdmOsr e k = sdmOsr c k := by rw [hx]; rfl
  obtain ⟨hn0, hst⟩ := sdmMainBit_completes (b := b) (c := e) (by rw [hosr, hrec]; exact ho) (by rw [hrec]; exact hd)
    (hkept.lost.trans hl)
  have hfast := sdmFastBit_mainPath k b (sdmMainBit k b e)
  have hres : sdmResult e k (e.sdms[k].sinc b) = sdmResult c k (c.sdms[k].sinc b) := by rw [hrec, hx]; rfl
  rw [hb, ← hx]
  exact ⟨hfast.n.trans hn0, hfast.q.trans (hkept.trans (sdmMainBit_kept k b e)).q,
    hfast.stores.trans (hst.trans (by rw [hres, hrec]))⟩

/-- The bit of a sync pulse's cycle passes by the main path (R162). -/
theorem sdmBit_sync {k : Fin 32} (b : Bool) {c : Chip} (he : sdmEn c k = true) (hl : sdmLost c k = false)
    (hs : c.sdms[k].sync = true) (hn : c.fld (sdmR k 4) 8 8 = 0) : MainPathKept k c (sdmBit k b c) := by
  obtain ⟨run, hb⟩ := sdmBit_sound b he hl hn
  rw [hs] at hb
  have hrec : (bitNoted k b run c).sdms[k] = { c.sdms[k] with edgeAt := c.now, lastBit := some b, run := run } := by
    rw [bitNoted, updSdm_at]
  obtain ⟨h1, h2, h3, h4, h5⟩ := sdmFastBit_mainPath k b (bitNoted k b run c)
  rw [hrec] at h1 h2 h3 h4 h5
  rw [hb]
  exact ⟨h1, h2, h3, h4, h5⟩

/-- A bit of a sound stream while the fast path runs: the outputs are judged with it, whatever the main path does. -/
theorem sdmBit_fast {k : Fin 32} (b : Bool) {c : Chip} (he : sdmEn c k = true) (hl : sdmLost c k = false)
    (hn : c.fld (sdmR k 4) 8 8 = 0) (hf : sdmFen c k = true) :
    ∃ d, FastPathKept k c d ∧ sdmBit k b c = sdmFastOut k (bitTaken k b d) := by
  obtain ⟨run, hb⟩ := sdmBit_sound b he hl hn
  have hnoted := bitNoted_kept k b run c
  have hkept : FastPathKept k c (if c.sdms[k].sync then bitNoted k b run c else sdmMainBit k b (bitNoted k b run c)) := by
    split
    · exact hnoted
    · exact hnoted.trans (sdmMainBit_kept k b _)
  exact ⟨_, hkept, hb.trans (sdmFastBit_on b (hkept.fen.trans hf) (hkept.lost.trans hl))⟩

theorem bitTaken_record (k : Fin 32) (b : Bool) (c : Chip) : (bitTaken k b c).sdms[k] =
    { c.sdms[k] with fbits := (b :: c.sdms[k].fbits).take 64, fcnt := c.sdms[k].fcnt + 1 } := updSdm_at _ _ _

theorem bitTaken_lost (k : Fin 32) (b : Bool) (c : Chip) : sdmLost (bitTaken k b c) k = sdmLost c k := by
  simp only [sdmLost, bitTaken_record]

/-- Before the fast path is settled both outputs are inactive (R164). -/
theorem sdmBit_unsettled {k : Fin 32} (b : Bool) {c : Chip} (he : sdmEn c k = true) (hl : sdmLost c k = false)
    (hn : c.fld (sdmR k 4) 8 8 = 0) (hf : sdmFen c k = true) (hc : c.sdms[k].fcnt + 1 < 2 * sdmFosr c k) :
    let d := sdmBit k b c
    d.sdms[k].th1 = false ∧ d.sdms[k].th2 = false ∧ d.bit (sdmR k 0xC) 0 = false := by
  obtain ⟨e, hkept, hb⟩ := sdmBit_fast b he hl hn hf
  have hout : FastOut k false false false (bitTaken k b e) (sdmFastOut k (bitTaken k b e)) := by
    refine fastOut_of_unsettled ((bitTaken_lost k b e).trans (hkept.lost.trans hl)) ?_
    rw [bitTaken_record, hkept.fcnt]
    exact hkept.fosr ▸ hc
  rw [hb]
  exact ⟨by rw [hout.record], by rw [hout.record], hout.settled⟩

/-- Once it is settled they compare its sum, this bit included, with the thresholds (R164). -/
theorem sdmBit_settled {k : Fin 32} (b : Bool) {c : Chip} (he : sdmEn c k = true) (hl : sdmLost c k = false)
    (hn : c.fld (sdmR k 4) 8 8 = 0) (hf : sdmFen c k = true) (hc : 2 * sdmFosr c k ≤ c.sdms[k].fcnt + 1) :
    let d := sdmBit k b c
    d.sdms[k].th1 = thAbove c k ((b :: c.sdms[k].fbits).take 64) ∧ d.sdms[k].th2 = thBelow c k ((b :: c.sdms[k].fbits).take 64) ∧
    d.bit (sdmR k 0xC) 0 = true := by
  obtain ⟨e, hkept, hb⟩ := sdmBit_fast b he hl hn hf
  have hout := fastOut_of_settled (c := bitTaken k b e) ((bitTaken_lost k b e).trans (hkept.lost.trans hl)) (by
    rw [bitTaken_record, hkept.fcnt]
    exact hkept.fosr ▸ hc)
  have hbits : (bitTaken k b e).sdms[k].fbits = (b :: c.sdms[k].fbits).take 64 := by rw [bitTaken_record, hkept.fbits]
  obtain ⟨habove, hbelow⟩ := hkept.thresholds ((b :: c.sdms[k].fbits).take 64)
  rw [hbits] at hout
  rw [hb]
  exact ⟨by rw [hout.record]; exact habove, by rw [hout.record]; exact hbelow, hout.settled⟩

/-- The fast path settled by the command compares its sum as it stands. -/
theorem sdmSettle_spec {k : Fin 32} {c : Chip} (he : sdmEn c k = true) (hl : sdmLost c k = false) (hf : sdmFen c k = true) :
    let d := sdmSettle k c
    d.sdms[k].th1 = thAbove c k c.sdms[k].fbits ∧ d.sdms[k].th2 = thBelow c k c.sdms[k].fbits ∧ d.bit (sdmR k 0xC) 0 = true ∧
    ∀ a, a ∉ [sdmR k 0xC] → d.reg a = c.reg a := by
  obtain ⟨e, hx⟩ : ∃ e, e = updSdm k (fun x => { x with fcnt := max x.fcnt (2 * sdmFosr c k) }) c := ⟨_, rfl⟩
  have hs : sdmSettle k c = sdmFastOut k e := by
    rw [hx, sdmSettle, he, hf]
    rfl
  have hrec : e.sdms[k] = { c.sdms[k] with fcnt := max c.sdms[k].fcnt (2 * sdmFosr c k) } := by rw [hx, updSdm_at]
  have hosr : sdmFosr e k = sdmFosr c k := by rw [hx]; rfl
  have hth (l : List Bool) : thAbove e k l = thAbove c k l ∧ thBelow e k l = thBelow c k l := by rw [hx]; exact ⟨rfl, rfl⟩
  have hout := fastOut_of_settled (k := k) (c := e) (by simp only [sdmLost, hrec]; exact hl) (by
    rw [hosr, hrec]
    exact Nat.le_max_right _ _)
  have hbits : e.sdms[k].fbits = c.sdms[k].fbits := by rw [hrec]
  rw [hbits] at hout
  rw [hs]
  refine ⟨by rw [hout.record]; exact (hth _).1, by rw [hout.record]; exact (hth _).2, hout.settled, fun a ha => ?_⟩
  rw [hout.reg a (by simpa using ha), hx, Chip.reg_updSdm]

/-! ### Lost clock and stuck stream (R164, R166) -/

/-- The fast path starts anew with both outputs inactive. -/
theorem sdmFastRestart_spec (k : Fin 32) (c : Chip) :
    (sdmFastRestart k c).sdms[k] = { c.sdms[k] with fcnt := 0, th1 := false, th2 := false } ∧
    ∀ a, a ≠ sdmR k 0xC → (sdmFastRestart k c).reg a = c.reg a := by
  have ht := sdmTh_taken k false false ((updSdm k (fun x => { x with fcnt := 0 }) c).clrBits (sdmR k 0xC) 1)
  refine ⟨?_, fun a ha => ?_⟩
  · rw [sdmFastRestart, ht.record]
    simp only [Chip.clrBits_sdms, updSdm_at]
  · rw [sdmFastRestart, ht.reg a ha, Chip.reg_clrBits_ne _ _ ha, Chip.reg_updSdm]

/-- FEN = 0 leaves both outputs inactive. -/
theorem sdmTurn_off {k : Fin 32} {c : Chip} (hf : sdmFen c k = false) (h : c.sdms[k].th1 = true ∨ c.sdms[k].th2 = true) :
    (sdmTurn k c).sdms[k].th1 = false ∧ (sdmTurn k c).sdms[k].th2 = false := by
  have hturn : sdmTurn k c = sdmFastRestart k c := by
    refine if_pos ?_
    rcases h with h | h <;> simp only [hf, h, Bool.not_false, Bool.or_true, Bool.true_or, Bool.true_and]
  rw [hturn, (sdmFastRestart_spec k c).1]
  exact ⟨rfl, rfl⟩

/-- A demodulator with one of the conditions begun or ended. -/
def Sdm.withLoss (x : Sdm) (clk b : Bool) : Sdm := if clk then { x with lossClk := b } else { x with lossStuck := b }

/-- A condition that begins is shown, and governs the outputs where LOSSACT says so. -/
theorem sdmLoss_begins {k : Fin 32} {clk : Bool} {c : Chip} (he : sdmEn c k = true) (h : c.sdms[k].lossOf clk = false) :
    let d := sdmLoss k clk c
    d.bit (sdmR k 0xC) (if clk then 8 else 9) = true ∧
    (sdmFen c k = true → c.bit (sdmR k 4) 6 = true → d.sdms[k].th1 = true ∧ d.sdms[k].th2 = true) ∧
    d.sdms[k].q = c.sdms[k].q ∧ ∀ a, a ∉ [sdmR k 0xC] → d.reg a = c.reg a := by
  obtain ⟨e, hx⟩ : ∃ e, e = (updSdm k (·.withLoss clk true) c).setBits (sdmR k 0xC) (2 ^ if clk then 8 else 9) := ⟨_, rfl⟩
  have hloss : sdmLoss k clk c = if sdmFen c k then sdmFastOut k e else e := by
    have hopen : ¬ (!sdmEn c k || c.sdms[k].lossOf clk) = true := by rw [he, h]; nofun
    rw [hx]
    refine (if_neg hopen).trans ?_
    cases clk <;> rfl
  have hbit : e.bit (sdmR k 0xC) (if clk then 8 else 9) = true := by
    rw [hx]
    exact Chip.bit_setBits_pow _ _ (by split <;> decide)
  have hreg (a : Nat) (ha : a ≠ sdmR k 0xC) : e.reg a = c.reg a := by rw [hx, Chip.reg_setBits_ne _ _ ha, Chip.reg_updSdm]
  have hq : e.sdms[k].q = c.sdms[k].q := by
    simp only [hx, Chip.setBits_sdms, updSdm_at, Sdm.withLoss]
    cases clk <;> rfl
  have hlost : sdmLost e k = true := by
    simp only [sdmLost, hx, Chip.setBits_sdms, updSdm_at, Sdm.withLoss]
    cases clk <;> simp
  have hact : e.bit (sdmR k 4) 6 = c.bit (sdmR k 4) 6 := by rw [Chip.bit, hreg _ (by simp), Chip.bit]
  have hsame : ∀ a, a ∉ [sdmR k 0xC] → e.reg a = c.reg a := fun a ha => hreg a (by simpa using ha)
  have hd : sdmLoss k clk c = if sdmFen c k = true ∧ c.bit (sdmR k 4) 6 = true then sdmTh k true true e else e := by
    rw [hloss, sdmFastOut_lost hlost, hact, ← ite_and]
  by_cases h : sdmFen c k = true ∧ c.bit (sdmR k 4) 6 = true
  · obtain ⟨hrec, htreg, hstat⟩ := sdmTh_taken k true true e
    rw [hd.trans (if_pos h)]
    exact ⟨(hstat _ (by split <;> decide)).trans hbit, fun _ _ => ⟨by rw [hrec], by rw [hrec]⟩, by rw [hrec, hq],
      fun a ha => (htreg a (by simpa using ha)).trans (hsame a ha)⟩
  · rw [hd.trans (if_neg h)]
    exact ⟨hbit, fun hf ha => absurd ⟨hf, ha⟩ h, hq, hsame⟩

/-- Both conditions are over: the settling counts of both paths start again, with the outputs inactive (R166). -/
structure Recovered (k : Fin 32) (c d : Chip) : Prop where
  lossClk : d.sdms[k].lossClk = false
  lossStuck : d.sdms[k].lossStuck = false
  disc : d.sdms[k].disc = 2
  fcnt : d.sdms[k].fcnt = 0
  th1 : d.sdms[k].th1 = false
  th2 : d.sdms[k].th2 = false
  reg : ∀ a, a ∉ [sdmR k 0xC] → d.reg a = c.reg a

/-- The end of the only condition that lasts. -/
theorem sdmLossOver_last {k : Fin 32} {clk : Bool} {c : Chip} (h : c.sdms[k].lossOf clk = true)
    (ho : c.sdms[k].lossOf (!clk) = false) : Recovered k c (sdmLossOver k clk c) := by
  obtain ⟨e, hx⟩ : ∃ e, e = updSdm k (·.withLoss clk false) c := ⟨_, rfl⟩
  have hboth : e.sdms[k].lossClk = false ∧ e.sdms[k].lossStuck = false := by
    rw [hx, updSdm_at]
    cases clk
    · exact ⟨ho, rfl⟩
    · exact ⟨rfl, ho⟩
  obtain ⟨hclk, hstuck⟩ := hboth
  have hl : sdmLost e k = false := by rw [sdmLost, hclk, hstuck]; rfl
  have hover : sdmLossOver k clk c = sdmFastRestart k (sdmRestart k e) := by
    have hend : sdmLossOver k clk c = if sdmLost e k then e else sdmFastRestart k (sdmRestart k e) := by
      rw [hx]
      refine (if_pos h).trans ?_
      cases clk <;> rfl
    rw [hend, hl]
    rfl
  obtain ⟨hrec, hreg⟩ := sdmFastRestart_spec k (sdmRestart k e)
  rw [sdmRestart, updSdm_at] at hrec
  rw [hover, sdmRestart]
  constructor
  case reg =>
    intro a ha
    rw [← sdmRestart, hreg a (by simpa using ha), sdmRestart, Chip.reg_updSdm, hx, Chip.reg_updSdm]
  all_goals rw [hrec]
  · exact hclk
  · exact hstuck

/-- The end of both conditions, whichever last. -/
theorem sdmLossOver_both {k : Fin 32} {c : Chip} (h : c.sdms[k].lossClk = true ∨ c.sdms[k].lossStuck = true) :
    Recovered k c (sdmLossOver k false (sdmLossOver k true c)) := by
  cases hclk : c.sdms[k].lossClk
  · rw [sdmLossOver_none (clk := true) hclk]
    exact sdmLossOver_last (clk := false) (h.resolve_left (by rw [hclk]; nofun)) hclk
  · cases hstuck : c.sdms[k].lossStuck
    · have hr := sdmLossOver_last (k := k) (clk := true) hclk hstuck
      rwa [sdmLossOver_none (clk := false) hr.lossStuck]
    · obtain ⟨e, hx⟩ : ∃ e, e = updSdm k (fun x => { x with lossClk := false }) c := ⟨_, rfl⟩
      have hrec : e.sdms[k] = { c.sdms[k] with lossClk := false } := by rw [hx, updSdm_at]
      have hlost : sdmLost e k = true := by rw [sdmLost, hrec]; exact hstuck
      have hover : sdmLossOver k true c = e := by
        rw [hx] at hlost ⊢
        exact (if_pos hclk).trans (if_pos hlost)
      rw [hover]
      have hr := sdmLossOver_last (k := k) (c := e) (clk := false) (by rw [hrec]; exact hstuck) (by rw [hrec]; rfl)
      exact { hr with reg := fun a ha => (hr.reg a ha).trans (by rw [hx, Chip.reg_updSdm]) }

/-! ### Sync (R162) -/

/-- A demodulator whose main path a sync pulse restarts. -/
def Sdm.synced (x : Sdm) : Sdm :=
  { x with i1 := 0, i2 := 0, i3 := 0, p0 := 0, p1 := 0, p2 := 0, n := 0, disc := 2, sync := true }

@[simp] theorem Sdm.synced_synced (x : Sdm) : x.synced.synced = x.synced := rfl

/-- Whether a sync pulse reaches a demodulator. -/
def sdmSyncs (c : Chip) (k : Nat) : Bool := sdmEn c k && c.bit (sdmR k 0) 16

/-- A sync pulse at one demodulator. -/
def sdmSyncOne (c : Chip) (k : Fin 32) : Chip := if sdmSyncs c k then updSdm k Sdm.synced c else c

theorem sdmSyncNow_eq (g : Fin 8) (c : Chip) :
    sdmSyncNow g c = ((List.range 4).map fun i => Fin.ofNat 32 (4 * g.val + i)).foldl sdmSyncOne c := by
  rw [List.foldl_map]
  have hone (k : Fin 32) (d : Chip) : updSdm k (fun x => { x with sync := true }) (sdmRestart k d) = updSdm k Sdm.synced d := by
    rw [sdmRestart, updSdm_updSdm]
    rfl
  simp only [sdmSyncNow, hone]
  rfl

/-- A sync pulse restarts the demodulators of its list that it reaches, and no other. -/
theorem sdmSyncOne_foldl (ks : List (Fin 32)) (c : Chip) :
    (ks.foldl sdmSyncOne c).regs = c.regs ∧
    ∀ i : Fin 32, (ks.foldl sdmSyncOne c).sdms[i] = if i ∈ ks ∧ sdmSyncs c i = true then c.sdms[i].synced else c.sdms[i] := by
  induction ks generalizing c with
  | nil => exact ⟨rfl, fun i => by simp⟩
  | cons k ks ih =>
    obtain ⟨hregs, hrec⟩ := ih (sdmSyncOne c k)
    have hone : (sdmSyncOne c k).regs = c.regs := by
      unfold sdmSyncOne
      split <;> rfl
    have hsyncs (i : Fin 32) : sdmSyncs (sdmSyncOne c k) i = sdmSyncs c i := by
      simp only [sdmSyncs, sdmEn, Chip.bit, Chip.reg, hone]
    have hat (i : Fin 32) : (sdmSyncOne c k).sdms[i] = if i = k ∧ sdmSyncs c i = true then c.sdms[i].synced else c.sdms[i] := by
      unfold sdmSyncOne
      by_cases hs : sdmSyncs c k = true
      · rw [if_pos hs]
        by_cases hi : i = k
        · rw [hi, updSdm_at, if_pos ⟨rfl, hs⟩]
        · rw [updSdm_at_ne _ _ hi, if_neg fun h => hi h.1]
      · rw [if_neg hs, if_neg]
        rintro ⟨rfl, h⟩
        exact hs h
    refine ⟨hregs.trans hone, fun i => ?_⟩
    rw [List.foldl_cons, hrec i, hsyncs, hat i]
    by_cases hs : sdmSyncs c i = true
    · by_cases hi : i = k
      · subst hi
        simp [hs]
      · simp [hs, hi]
    · simp [hs]

/-- A pulse of group `g` reaches the four demodulators of the group (R162). -/
theorem sdmSyncNow_spec (g : Fin 8) (c : Chip) : (sdmSyncNow g c).regs = c.regs ∧
    ∀ i : Fin 32, (sdmSyncNow g c).sdms[i] =
      if i.val / 4 = g.val ∧ sdmEn c i ∧ c.bit (sdmR i 0) 16 then c.sdms[i].synced else c.sdms[i] := by
  obtain ⟨hregs, hrec⟩ := sdmSyncOne_foldl ((List.range 4).map fun i => Fin.ofNat 32 (4 * g.val + i)) c
  rw [← sdmSyncNow_eq] at hregs hrec
  have hgroup (i : Fin 32) : i ∈ (List.range 4).map (fun j => Fin.ofNat 32 (4 * g.val + j)) ↔ i.val / 4 = g.val := by
    simp only [List.mem_map, List.mem_range, Fin.ext_iff, Fin.val_ofNat]
    constructor
    · rintro ⟨j, hj, hi⟩
      omega
    · intro hi
      exact ⟨i.val % 4, by omega, by omega⟩
  refine ⟨hregs, fun i => (hrec i).trans ?_⟩
  simp only [hgroup, sdmSyncs, Bool.and_eq_true]

/-! ### Records and the queue (R163) -/

/-- The low bits of a record hold its result and its input id. -/
theorem mkRecord_low (res : Int) (id : Nat) (lim seqend sat tsel : Bool) (src : Nat) (stamp : Word) {i : Nat} (hi : i < 24) :
    (mkRecord res id lim seqend sat tsel src stamp).getLsbD i = ((BitVec.ofInt 16 res).toNat + 2 ^ 16 * (id % 256)).testBit i := by
  have hlow (x y : Nat) : (x + 2 ^ 24 * y).testBit i = x.testBit i := by
    have h := congrArg (·.testBit i) (Nat.add_mul_mod_self_left x (2 ^ 24) y)
    simpa only [Nat.testBit_mod_two_pow, decide_eq_true hi, Bool.true_and] using h
  rw [← hlow _ (lim.toNat + 2 ^ 2 * seqend.toNat + 2 ^ 3 * sat.toNat + 2 ^ 4 * tsel.toNat + 2 ^ 5 * (src % 8))]
  simp only [mkRecord, BitVec.getLsbD_append, BitVec.getLsbD_ofNat, show i < 32 by omega, decide_true, if_true, Bool.true_and]
  congr 1
  ring

theorem mkRecord_result (res : Int) (id : Nat) (lim seqend sat tsel : Bool) (src : Nat) (stamp : Word) :
    (mkRecord res id lim seqend sat tsel src stamp).extractLsb' 0 16 = BitVec.ofInt 16 res := by
  refine BitVec.eq_of_getLsbD_eq fun i hi => ?_
  rw [BitVec.getLsbD_extractLsb', decide_eq_true hi, Bool.true_and, Nat.zero_add, mkRecord_low _ _ _ _ _ _ _ _ (by omega)]
  have h := congrArg (·.testBit i) (Nat.add_mul_mod_self_left (BitVec.ofInt 16 res).toNat (2 ^ 16) (id % 256))
  simp only [Nat.testBit_mod_two_pow, decide_eq_true hi, Bool.true_and] at h
  exact h

theorem mkRecord_id (res : Int) (id : Nat) (lim seqend sat tsel : Bool) (src : Nat) (stamp : Word) :
    ((mkRecord res id lim seqend sat tsel src stamp).extractLsb' 16 8).toNat = id % 256 := by
  refine Nat.eq_of_testBit_eq fun i => ?_
  rw [BitVec.testBit_toNat, BitVec.getLsbD_extractLsb']
  by_cases hi : i < 8
  · have h := congrArg (·.testBit i) (Nat.add_mul_div_left (BitVec.ofInt 16 res).toNat (id % 256) (Nat.two_pow_pos 16))
    simp only [Nat.testBit_div_two_pow, Nat.div_eq_of_lt (BitVec.ofInt 16 res).isLt, Nat.zero_add] at h
    rw [decide_eq_true hi, Bool.true_and, mkRecord_low _ _ _ _ _ _ _ _ (by omega), Nat.add_comm 16 i]
    exact h
  · rw [show 256 = 2 ^ 8 from rfl, Nat.testBit_mod_two_pow, decide_eq_false hi, Bool.false_and, Bool.false_and]

/-- A record with the mark of a loss, where one is still to be told of (R157). -/
def marked (lost : Bool) (r : BitVec 64) : BitVec 64 := if lost then r ||| 2 ^ 25 else r

/-- The mark leaves the fields below it as they are. -/
theorem marked_low (lost : Bool) (r : BitVec 64) {lo w : Nat} (h : lo + w ≤ 25) :
    (marked lost r).extractLsb' lo w = r.extractLsb' lo w := by
  cases lost
  · rfl
  · refine BitVec.eq_of_getLsbD_eq fun i hi => ?_
    have hmark : (2 ^ 25 : BitVec 64) = BitVec.twoPow 64 25 := by decide
    simp only [marked, if_true, BitVec.getLsbD_extractLsb', BitVec.getLsbD_or, hmark, BitVec.getLsbD_twoPow]
    rw [decide_eq_false (show ¬ 25 = lo + i by omega), Bool.and_false, Bool.or_false]

/-- The record of an output of the present cycle (R163). -/
def sdmRecord (c : Chip) (k : Fin 32) (o : Int × Bool) : BitVec 64 :=
  mkRecord o.1 (0xC0 + k.val) false false o.2 (c.bit (sdmR k 0) 17) 0
    (if c.bit (sdmR k 0) 17 then c.capTime - BitVec.ofNat 32 (c.fld (sdmR k 0) 22 6)
      else angWord (thetaAge c (Fin.ofNat 8 (c.fld (sdmR k 0) 18 3)) (c.fld (sdmR k 0) 22 6)))

theorem sdmStore_room {k : Fin 32} (o : Int × Bool) {c : Chip} (h : c.sdms[k].q.length < 16) : sdmStore k o c =
    (updSdm k (fun x => { x with q := c.sdms[k].q ++ [marked c.sdms[k].lost (sdmRecord c k o)], lost := false }) c).setBits
      (sdmR k 0xC) (2 ^ 11 * o.2.toNat + 2 ^ 14) := by
  have hrec (b : Bool) : recStore 16 b c.sdms[k].q c.sdms[k].lost (sdmRecord c k o) =
      (c.sdms[k].q ++ [marked c.sdms[k].lost (sdmRecord c k o)], false, false) := if_pos h
  unfold sdmStore
  dsimp only
  rw [← sdmRecord, hrec]
  simp only [Bool.false_and, Bool.not_false, Bool.toNat_false, Bool.toNat_true, mul_zero, zero_add, mul_one]

/-- The one output of a cycle is stored as the cycle ends: one record, told in DATAF and, where it was clamped, in SATF. -/
theorem sdmLand_one {k : Fin 32} {o : Int × Bool} {c : Chip} (ho : c.sdms[k].stores = [o]) (h : c.sdms[k].q.length < 16) :
    let d := sdmLand k c
    d.sdms[k].stores = [] ∧
    (∃ r : BitVec 64, d.sdms[k].q = c.sdms[k].q ++ [r] ∧ r.extractLsb' 0 16 = BitVec.ofInt 16 o.1 ∧
      (r.extractLsb' 16 8).toNat = 0xC0 + k.val) ∧
    d.bit (sdmR k 0xC) 14 = true ∧ (o.2 = true → d.bit (sdmR k 0xC) 11 = true) ∧
    ∀ a, a ≠ sdmR k 0xC → d.reg a = c.reg a := by
  obtain ⟨e, hx⟩ : ∃ e, e = updSdm k (fun x => { x with stores := [] }) c := ⟨_, rfl⟩
  have hrec : e.sdms[k] = { c.sdms[k] with stores := [] } := by rw [hx, updSdm_at]
  have hq : e.sdms[k].q = c.sdms[k].q := by rw [hrec]
  have hland : sdmLand k c =
      (updSdm k (fun x => { x with q := c.sdms[k].q ++ [marked e.sdms[k].lost (sdmRecord e k o)], lost := false }) e).setBits
        (sdmR k 0xC) (2 ^ 11 * o.2.toNat + 2 ^ 14) := by
    rw [sdmLand, ho, ← hx, List.foldl_cons, List.foldl_nil, sdmStore_room o (by rwa [hq]), hq]
  have hbit {i : Nat} (hi : i < 32) (hm : (2 ^ 11 * o.2.toNat + 2 ^ 14).testBit i = true) :
      (sdmLand k c).bit (sdmR k 0xC) i = true := by
    rw [hland, Chip.bit, Chip.reg_setBits_self, Word.bit_or _ _ hi, hm, Bool.or_true]
  have hself : (sdmLand k c).sdms[k] =
      { e.sdms[k] with q := c.sdms[k].q ++ [marked e.sdms[k].lost (sdmRecord e k o)], lost := false } := by
    simp only [hland, Chip.setBits_sdms, updSdm_at]
  refine ⟨by rw [hself, hrec], ⟨_, by rw [hself], ?_, ?_⟩, hbit (by decide) ?_, fun ho => hbit (by decide) ?_,
    fun a ha => ?_⟩
  · rw [marked_low _ _ (by decide), sdmRecord, mkRecord_result]
  · rw [marked_low _ _ (by decide), sdmRecord, mkRecord_id]
    omega
  · cases o.2 <;> decide
  · rw [ho]
    decide
  · rw [hland, Chip.reg_setBits_ne _ _ ha, Chip.reg_updSdm, hx, Chip.reg_updSdm]

theorem sdmQpop_oldest {k : Fin 32} {ini : Initiator} {c : Chip} {r : BitVec 64} {rest : List (BitVec 64)}
    (h : c.sdms[k].q = r :: rest) : sdmQpop k ini c =
      (recLow r, updSdm k (fun x => { x with q := rest, hold := aset 0 x.hold (iniIx ini) (recHigh r) }) c) := by
  rw [sdmQpop, h]

theorem sdmQpop_empty {k : Fin 32} {ini : Initiator} {c : Chip} (h : c.sdms[k].q = []) : sdmQpop k ini c =
    (recLow emptyRec, updSdm k (fun x => { x with hold := aset 0 x.hold (iniIx ini) 0 }) c) := by
  rw [sdmQpop, h]

/-! ### The statement -/

/-- The clamp of an output as R162 writes it. -/
theorem clampI_eq {lo hi : Int} (x : Int) (h : lo ≤ hi) : clampI lo hi x = max lo (min x hi) := by
  simp only [clampI]
  omega

/-- Settles O39: a bit of a sound stream by what it completes and by the fast path's state, then the records at the cycle's end,
sync, the conditions of R166, and the reads. -/
theorem sdmResults : Obligations.SdmResults := by
  unfold Obligations.SdmResults
  intro s ini k g b r rest hr c x a3 sum res sound bits above below loses
  refine ⟨fun he hsound => ?_, fun o ho hq => ?_, ?_, fun he hl hs hn => goes_onChip hr rfl ?_, sdmTurn_off,
    fun he hn => goes_onChip hr rfl (sdmLoss_begins (clk := true) he hn),
    fun he hn => goes_onChip hr rfl (sdmLoss_begins (clk := false) he hn), fun h => goes_onChip hr rfl ?_,
    fun hg => ⟨fun hq => goes_gatedRead hr rfl hg ?_, fun hq => goes_gatedRead hr rfl hg ?_⟩⟩
  · obtain ⟨hl, hs, hn⟩ := hsound
    refine ⟨fun ho hd => goes_onChip hr rfl ?_, fun hf hc => goes_onChip hr rfl (sdmBit_unsettled b he hl hn hf hc),
      fun hf hc => goes_onChip hr rfl (sdmBit_settled b he hl hn hf hc), fun hf => goes_onChip hr rfl (sdmSettle_spec he hl hf)⟩
    obtain ⟨hn0, hq, hst⟩ := sdmBit_output b he hl hs hn ho hd
    refine ⟨hn0, hq, hst.trans ?_⟩
    have hres : clampI (-32768) 32767 (asr (x.sinc b) (c.fld (sdmR k 0) 11 5)) = res := clampI_eq _ (by decide)
    rw [sdmResult, hres]
    rfl
  · obtain ⟨hst, ⟨w, hw, hresult, hid⟩, hdata, hsat, hreg⟩ := sdmLand_one ho hq
    refine ⟨hst, ?_, ?_, ?_, hdata, hsat, hreg⟩
    · rw [hw, List.length_append, List.length_singleton]
    · rw [hw, List.getLast?_concat, Option.map_some, hresult]
    · rw [hw, List.getLast?_concat, Option.map_some, hid]
  · obtain ⟨hregs, hrec⟩ := sdmSyncNow_spec g c
    refine goes_onChip hr rfl ⟨hregs, fun i => ?_⟩
    rw [State.after_chip, hrec i]
    split
    · exact ⟨rfl, rfl, rfl⟩
    · exact ⟨rfl, rfl, rfl⟩
  · obtain ⟨hn0, hd, hi, hst, -⟩ := sdmBit_sync b he hl hs hn
    exact ⟨hn0, hd, hst, hi⟩
  · obtain ⟨h1, h2, h3, h4, h5, h6, h7⟩ := sdmLossOver_both h
    exact ⟨h1, h2, h3, h4, h5, h6, h7⟩
  · have hpop := sdmQpop_oldest (c := s.chip) (ini := ini) hq
    simp only [State.after_chip, hpop, Chip.answer_sdms, updSdm_at, aread_aset_self, true_and]
    exact ⟨rfl, rfl, rfl⟩
  · have hpop := sdmQpop_empty (c := s.chip) (ini := ini) hq
    simp only [State.after_chip, hpop]
    exact ⟨rfl, rfl⟩

end Sys2Proof.Machine

/-! PROOFS. Window comparators (07 R175, R180 to R183): what the start of a cycle, the end of settling, a change of state and the
writes of software do to a window's registers and its record, and the statement on them. -/

namespace Sys2Proof.Machine

/-! ### The record and the registers of one window -/

@[simp] theorem Chip.reg_updWin (c : Chip) (w : Fin 96) (f : Win → Win) (a : Nat) : (updWin w f c).reg a = c.reg a := rfl

/-- A window's record after its own update. -/
theorem updWin_at (w : Fin 96) (f : Win → Win) (c : Chip) : (updWin w f c).wins[w] = f c.wins[w] := vmod_get c.wins w f

@[simp] theorem winR_inj {w a b : Nat} : winR w a = winR w b ↔ a = b := by simp [winR, slR]

theorem stateOf_lt (l u : Bool) : stateOf l u < 2 ^ 2 := by cases l <;> cases u <;> decide

/-! ### What follows a change of state: trip inputs, capture channels and events (R183) -/

theorem FollowersOnly.wins {c d : Chip} (h : FollowersOnly c d) : d.wins = c.wins := by
  obtain ⟨_, _, _, rfl⟩ := h
  rfl

theorem winTrips_followersOnly (w : Fin 96) (c : Chip) : FollowersOnly c (winTrips w c) := by
  have hlevels (sl : Vector Slice 12) : FollowersOnly c { c with slices := sl } := ⟨_, _, _, rfl⟩
  exact List.foldlRecOn _ _ (hlevels _) fun d h _ _ => h.trans (.ite _ (schedule_eventsOnly _ _ d).followersOnly)

theorem capWindow_followersOnly (w : Nat) (rise : Bool) (c : Chip) : FollowersOnly c (capWindow w rise c) :=
  List.foldlRecOn _ _ (.refl c) fun d h _ _ => h.trans (.ite _ (schedule_eventsOnly _ _ d).followersOnly)

theorem capLooks_followersOnly (w : Nat) (c : Chip) : FollowersOnly c (capLooks w c) :=
  List.foldlRecOn _ _ (.refl c) fun d h _ _ => h.trans (.ite _ (schedule_eventsOnly _ _ d).followersOnly)

/-! ### WIN_STAT taken anew -/

/-- Of the registers only WIN_STAT of window `w` may differ in `d`, which reads `v`; the window's record is `x`. -/
structure WinTaken (w : Fin 96) (v : Word) (x : Win) (c d : Chip) : Prop where
  stat : d.reg (winR w 0x10) = v
  record : d.wins[w] = x
  reg : ∀ a, a ≠ winR w 0x10 → d.reg a = c.reg a

section
variable {w : Fin 96} {v : Word} {x : Win} {c d e : Chip}

theorem WinTaken.state (h : WinTaken w v x c d) : winState d w = v.fld 0 2 := by rw [winState, Chip.fld, h.stat]

theorem WinTaken.bit (h : WinTaken w v x c d) (i : Nat) : d.bit (winR w 0x10) i = v.bit i := by rw [Chip.bit, h.stat]

theorem WinTaken.settled (h : WinTaken w v x c d) : winSettledB d w = v.bit 2 := h.bit 2

theorem WinTaken.followers (h : WinTaken w v x c d) (hf : FollowersOnly d e) : WinTaken w v x c e where
  stat := (Chip.reg_congr hf.regs _).trans h.stat
  record := by rw [hf.wins, h.record]
  reg a ha := (Chip.reg_congr hf.regs a).trans (h.reg a ha)

theorem WinTaken.setFld (h : WinTaken w v x c d) (lo n y : Nat) :
    WinTaken w (v.withFld lo n y) x c (d.setFld (winR w 0x10) lo n y) where
  stat := by rw [Chip.reg_setFld_self, h.stat]
  record := h.record
  reg a ha := (Chip.reg_setFld_ne _ _ _ _ ha).trans (h.reg a ha)

theorem WinTaken.setBits (h : WinTaken w v x c d) (m : Nat) :
    WinTaken w (v ||| BitVec.ofNat 32 m) x c (d.setBits (winR w 0x10) m) where
  stat := by rw [Chip.reg_setBits_self, h.stat]
  record := h.record
  reg a ha := (Chip.reg_setBits_ne _ _ ha).trans (h.reg a ha)

theorem WinTaken.clrBits (h : WinTaken w v x c d) (m : Nat) :
    WinTaken w (v &&& ~~~ BitVec.ofNat 32 m) x c (d.clrBits (winR w 0x10) m) where
  stat := by rw [Chip.reg_clrBits_self, h.stat]
  record := h.record
  reg a ha := (Chip.reg_clrBits_ne _ _ ha).trans (h.reg a ha)

/-- Bits set under a condition are a mask, which is 0 where it does not hold. -/
theorem WinTaken.setBitsIf (h : WinTaken w v x c d) (b : Bool) (m : Nat) :
    WinTaken w (v ||| BitVec.ofNat 32 (if b then m else 0)) x c (if b then d.setBits (winR w 0x10) m else d) := by
  cases b
  · simpa using h
  · exact h.setBits m

end

theorem winTaken_updWin (w : Fin 96) (f : Win → Win) (c : Chip) :
    WinTaken w (c.reg (winR w 0x10)) (f c.wins[w]) c (updWin w f c) := ⟨rfl, updWin_at w f c, fun _ _ => rfl⟩

/-- The mask of ORDERF for filtered outputs `l` and `u` (R175). -/
def orderMask (l u : Bool) : Nat := if u && !l then 2 ^ 12 else 0

theorem orderMask_clear (l u : Bool) : orderMask l u % 4 = 0 := by cases l <;> cases u <;> decide

/-! ### The start of a cycle (R181, R182) -/

/-- A window's record without a state: its ramps alone go on. -/
def Win.blank (x : Win) (on : Bool) (since : Option Nat) : Win :=
  { x with on := on, restart := false, compL := false, compU := false, samples := [], filtL := false, filtU := false,
           next := none, settleFrom := since }

theorem winBlank_taken (w : Fin 96) (on : Bool) (since : Option Nat) (c : Chip) :
    WinTaken w ((c.reg (winR w 0x10)).withFld 0 2 1 &&& ~~~ BitVec.ofNat 32 (2 ^ 2)) (c.wins[w].blank on since) c
      (winBlank w on since c) :=
  (((winTaken_updWin w (·.blank on since) c).setFld 0 2 1).clrBits (2 ^ 2)).followers
    ((winTrips_followersOnly w _).trans (capLooks_followersOnly w _))

/-- A window without a state is INSIDE and not settled, with no sample kept. -/
theorem winBlank_spec (w : Fin 96) (on : Bool) (since : Option Nat) (c : Chip) :
    let d := winBlank w on since c
    winState d w = 1 ∧ winSettledB d w = false ∧ d.wins[w].settleFrom = since ∧ d.wins[w].samples = [] ∧ d.wins[w].next = none ∧
      ∀ a, a ≠ winR w 0x10 → d.reg a = c.reg a := by
  have h := winBlank_taken w on since c
  refine ⟨?_, ?_, by rw [h.record]; rfl, by rw [h.record]; rfl, by rw [h.record]; rfl, h.reg⟩
  · rw [h.state, Word.state_andNot _ (by decide), Word.fld_withFld _ _ (by decide)]
    rfl
  · rw [h.settled, Word.bit_andNot _ _ (by decide), Nat.testBit_two_pow_self, Bool.not_true, Bool.and_false]

/-- What a write of the cycle before starts anew begins to settle. -/
theorem winTurn_restart {w : Fin 96} {c : Chip} (he : winEn c w = true) (hr : c.wins[w].restart = true) :
    winTurn w c = winBlank w true (some (c.now - 1)) c := by
  rw [winTurn, he]
  exact if_pos hr

/-- A powered window that no longer runs is switched off. -/
theorem winTurn_off {w : Fin 96} {c : Chip} (he : winEn c w = false) (ho : c.wins[w].on = true) :
    winTurn w c = winBlank w false none c := by
  rw [winTurn, he]
  exact if_pos ho

/-! ### The end of settling (R181) -/

theorem winSettle_taken (w : Fin 96) (l u : Bool) (c : Chip) :
    WinTaken w ((c.reg (winR w 0x10)).withFld 0 2 (stateOf l u) ||| BitVec.ofNat 32 (2 ^ 2 + 2 ^ 11) |||
        BitVec.ofNat 32 (orderMask l u))
      { c.wins[w] with filtL := l, filtU := u, settleFrom := none } c (winSettle w l u c) :=
  ((((winTaken_updWin w (fun x => { x with filtL := l, filtU := u, settleFrom := none }) c).setFld 0 2 _).setBits _).setBitsIf
    (u && !l) (2 ^ 12)).followers ((winTrips_followersOnly w _).trans (capLooks_followersOnly w _))

/-- The settled state appears, with SETTLED and SETF set and the settling over. -/
theorem winSettle_spec (w : Fin 96) (l u : Bool) (c : Chip) :
    let d := winSettle w l u c
    winSettledB d w = true ∧ winState d w = stateOf l u ∧ d.bit (winR w 0x10) 11 = true ∧ d.wins[w].settleFrom = none ∧
      ∀ a, a ∉ [winR w 0x10] → d.reg a = c.reg a := by
  have h := winSettle_taken w l u c
  have hset (i : Nat) (hi : i < 32) (hm : (2 ^ 2 + 2 ^ 11).testBit i = true) : (winSettle w l u c).bit (winR w 0x10) i = true := by
    rw [h.bit, Word.bit_or _ _ hi, Word.bit_or _ _ hi, hm, Bool.or_true, Bool.true_or]
  refine ⟨hset 2 (by decide) (by decide), ?_, hset 11 (by decide) (by decide), by rw [h.record],
    fun a ha => h.reg a (by simpa using ha)⟩
  rw [h.state, Word.state_or _ (orderMask_clear l u), Word.state_or _ (by decide), Word.fld_withFld _ _ (by decide),
    Nat.mod_eq_of_lt (stateOf_lt l u)]

/-- The end of settling takes the majorities of the samples kept. -/
theorem goes_winSettled {s : State} {w : Fin 96} {P : State → Prop} {o : Bool × Bool} (hr : s.inRun)
    (he : winEn s.chip w = true) (hs : s.chip.wins[w].settleFrom ≠ none)
    (ho : winMajority s.chip w (filtM (s.chip.fld (winR w 0) 6 3)) = o) (h : P (s.after (winSettle w o.1 o.2))) :
    Goes (.winSettled w) s P := by
  subst ho
  refine goes_onChip hr rfl ?_
  rwa [State.after, if_pos (by rw [he, Option.isSome_iff_ne_none.2 hs]; rfl)]

/-! ### Changes of state (R175, R183) -/

/-- The filter output registers, and ORDERF with them, which `winEnter` takes whether or not the state changes. -/
def winFiltered (w : Fin 96) (l u : Bool) (c : Chip) : Chip :=
  let c := updWin w (fun x => { x with filtL := l, filtU := u }) c
  if u && !l then c.setBits (winR w 0x10) (2 ^ 12) else c

theorem winFiltered_taken (w : Fin 96) (l u : Bool) (c : Chip) :
    WinTaken w (c.reg (winR w 0x10) ||| BitVec.ofNat 32 (orderMask l u)) { c.wins[w] with filtL := l, filtU := u } c
      (winFiltered w l u c) :=
  (winTaken_updWin w (fun x => { x with filtL := l, filtU := u }) c).setBitsIf (u && !l) (2 ^ 12)

/-- The state that the window is in brings no entry. -/
theorem winEnter_same {w : Fin 96} {l u : Bool} {c : Chip} (h : stateOf l u = winState c w) :
    winEnter w l u c = winFiltered w l u c := if_pos h

/-- The entry into another state: its code and its flag. -/
theorem winEnter_taken {w : Fin 96} {l u : Bool} {c : Chip} (h : stateOf l u ≠ winState c w) :
    WinTaken w ((c.reg (winR w 0x10) ||| BitVec.ofNat 32 (orderMask l u)).withFld 0 2 (stateOf l u) |||
        BitVec.ofNat 32 (2 ^ (8 + stateOf l u))) { c.wins[w] with filtL := l, filtU := u } c (winEnter w l u c) := by
  have hf := ((winFiltered_taken w l u c).setFld 0 2 (stateOf l u)).setBits (2 ^ (8 + stateOf l u))
  obtain ⟨d, hd⟩ : ∃ d, d = ((winFiltered w l u c).setFld (winR w 0x10) 0 2 (stateOf l u)).setBits (winR w 0x10)
    (2 ^ (8 + stateOf l u)) := ⟨_, rfl⟩
  have hw : winEnter w l u c = winTrips w (capWindow w.val (decide (winState c w < stateOf l u))
      (if d.bit (winR w 0) (9 + stateOf l u) then evPulse (192 + w.val) d else d)) := by
    rw [hd]
    exact if_neg h
  rw [hw]
  rw [← hd] at hf
  exact hf.followers (((FollowersOnly.ite _ (evPulse_eventsOnly _ d).followersOnly).trans (capWindow_followersOnly _ _ _)).trans
    (winTrips_followersOnly w _))

/-- The state follows the filtered outputs, and an entry into another state sets its flag. -/
theorem winEnter_spec (w : Fin 96) (l u : Bool) (c : Chip) :
    let d := winEnter w l u c
    winState d w = stateOf l u ∧ d.wins[w].filtL = l ∧ d.wins[w].filtU = u ∧
      (winState c w ≠ stateOf l u → d.bit (winR w 0x10) (8 + stateOf l u) = true) ∧
      ∀ a, a ∉ [winR w 0x10] → d.reg a = c.reg a := by
  by_cases hst : stateOf l u = winState c w
  · have h := winFiltered_taken w l u c
    rw [winEnter_same hst]
    refine ⟨?_, by rw [h.record], by rw [h.record], fun hne => absurd hst.symm hne, fun a ha => h.reg a (by simpa using ha)⟩
    rw [h.state, Word.state_or _ (orderMask_clear l u), hst]
    rfl
  · have h := winEnter_taken hst
    have hlt := stateOf_lt l u
    refine ⟨?_, by rw [h.record], by rw [h.record], fun _ => ?_, fun a ha => h.reg a (by simpa using ha)⟩
    · have hflag : 2 ^ (8 + stateOf l u) % 4 = 0 := by rw [Nat.pow_add]; omega
      rw [h.state, Word.state_or _ hflag, Word.fld_withFld _ _ (by decide), Nat.mod_eq_of_lt hlt]
    · rw [h.bit, Word.bit_or _ _ (by omega), Nat.testBit_two_pow_self, Bool.or_true]

/-- A settled window takes its filtered outputs. -/
theorem goes_winStateChange {s : State} {w : Fin 96} {l u : Bool} {P : State → Prop} (hr : s.inRun) (he : winEn s.chip w = true)
    (hs : winSettledB s.chip w = true) (h : P (s.after (winEnter w l u))) : Goes (.winStateChange w l u) s P := by
  refine goes_onChip hr rfl ?_
  rwa [State.after, if_pos (by rw [he, hs]; rfl)]

/-! ### Writes of software (R180, R182, R187) -/

theorem cfgOpenW_of_unsealed {c : Chip} (ini : Initiator) (w : Fin 96) (h : c.sealed = false) : cfgOpenW c ini w = true := by
  simp [cfgOpenW, h]

/-- A write of WIN_CFG that enables the window, or changes the input or hysteresis of an enabled one, starts it anew. -/
theorem winCfgWrite_spec (ini : Initiator) (w : Fin 96) (v : Word) {c : Chip} (hs : c.sealed = false) :
    let old := c.reg (winR w 0)
    let d := winCfgWrite ini w v c
    d.reg (winR w 0) = v &&& 0xFFF ∧ (∀ a, a ∉ [winR w 0] → d.reg a = c.reg a) ∧
      d.wins[w] = { c.wins[w] with
        restart := c.wins[w].restart || (v.bit 0 && (!old.bit 0 || old.fld 1 5 != v.fld 1 5)) } := by
  intro old
  obtain ⟨d, hd⟩ : ∃ d, d = c.setReg (winR w 0) (v &&& 0xFFF) := ⟨_, rfl⟩
  have hw : winCfgWrite ini w v c = if v.bit 0 && (!old.bit 0 || old.fld 1 5 != v.fld 1 5) then winAgain w d else d := by
    rw [winCfgWrite, cfgOpenW_of_unsealed ini w hs, hd]
    rfl
  have hself : d.reg (winR w 0) = v &&& 0xFFF := by rw [hd, Chip.reg_setReg_self]
  have hbut (a : Nat) (ha : a ∉ [winR w 0]) : d.reg a = c.reg a := by rw [hd, Chip.reg_setReg_ne _ _ (by simpa using ha)]
  have hrec : d.wins[w] = c.wins[w] := by rw [hd]; rfl
  rw [hw]
  cases v.bit 0 && (!old.bit 0 || old.fld 1 5 != v.fld 1 5)
  · exact ⟨hself, hbut, by rw [Bool.or_false]; exact hrec⟩
  · exact ⟨hself, hbut, by rw [Bool.or_true, ← hrec]; exact updWin_at w _ d⟩

theorem reg_thrWrite (w : Fin 96) (thr rl rh : Word) (c : Chip) (a : Nat) : (thrWrite w thr rl rh c).reg a =
    if a = winR w 0xC then rh else if a = winR w 8 then rl else if a = winR w 4 then thr else c.reg a := by
  simp only [thrWrite, Chip.reg_setReg]

/-- Of the registers and windows only the register at `a` may differ in `d`, which reads `u`. -/
def RegOnly (a : Nat) (u : Word) (c d : Chip) : Prop := d.reg a = u ∧ (∀ b, b ∉ [a] → d.reg b = c.reg b) ∧ d.wins = c.wins

/-- A threshold register written and the two others given their own values. -/
theorem thrWrite_regOnly {w : Fin 96} {thr rl rh : Word} {c : Chip} {off : Nat} {u : Word}
    (hself : (thrWrite w thr rl rh c).reg (winR w off) = u)
    (h4 : off = 4 ∨ thr = c.reg (winR w 4)) (h8 : off = 8 ∨ rl = c.reg (winR w 8)) (hC : off = 0xC ∨ rh = c.reg (winR w 0xC)) :
    RegOnly (winR w off) u c (thrWrite w thr rl rh c) := by
  refine ⟨hself, fun b hb => ?_, rfl⟩
  rw [List.mem_singleton] at hb
  have hown {o : Nat} {x : Word} (h : off = o ∨ x = c.reg (winR w o)) (e : b = winR w o) : x = c.reg b := by
    subst e
    exact h.resolve_left fun h => hb (by rw [h])
  rw [reg_thrWrite]
  split
  · next e => exact hown hC e
  · split
    · next e => exact hown h8 e
    · split
      · next e => exact hown h4 e
      · rfl

/-- WIN_THR takes both codes, but of a window bound to a lane the lower one alone. -/
theorem winThrWrite_codes (ini : Initiator) (w : Fin 96) (v : Word) (c : Chip) :
    RegOnly (winR w 4) (if peakBound c w then (v &&& 0xFFF) ||| (c.reg (winR w 4) &&& 0x0FFF0000) else v &&& 0x0FFF0FFF) c
      (winThrWrite ini w 0 v c) :=
  thrWrite_regOnly (by simp [reg_thrWrite]) (.inl rfl) (.inr rfl) (.inr rfl)

/-- WIN_RAMPL takes all its fields. -/
theorem winThrWrite_rampL (ini : Initiator) (w : Fin 96) (v : Word) {c : Chip} (hs : c.sealed = false) :
    RegOnly (winR w 8) (v &&& 0x1FFFFF) c (winThrWrite ini w 1 v c) := by
  have hw : winThrWrite ini w 1 v c = thrWrite w (c.reg (winR w 4)) (v &&& 0x1FFFFF) (c.reg (winR w 0xC)) c :=
    if_pos (cfgOpenW_of_unsealed ini w hs)
  rw [hw]
  exact thrWrite_regOnly (by simp [reg_thrWrite]) (.inr rfl) (.inl rfl) (.inr rfl)

/-- WIN_RAMPH takes all its fields, but of a window bound to a lane not the slope. -/
theorem winThrWrite_rampH (ini : Initiator) (w : Fin 96) (v : Word) {c : Chip} (hs : c.sealed = false) :
    RegOnly (winR w 0xC) (if peakBound c w then (v &&& 0x1F0000) ||| (c.reg (winR w 0xC) &&& 0xFFFF) else v &&& 0x1FFFFF) c
      (winThrWrite ini w 2 v c) := by
  have hw : winThrWrite ini w 2 v c = thrWrite w (c.reg (winR w 4)) (c.reg (winR w 8))
      (if peakBound c w then (v &&& 0x1F0000) ||| (c.reg (winR w 0xC) &&& 0xFFFF) else v &&& 0x1FFFFF) c :=
    if_pos (cfgOpenW_of_unsealed ini w hs)
  rw [hw]
  exact thrWrite_regOnly (by simp [reg_thrWrite]) (.inr rfl) (.inr rfl) (.inl rfl)

/-! ### The statement -/

/-- Settles O40: the writes of WIN_CFG and what the next cycle makes of them, the end of settling, a change of state, and the
threshold writes with the fields that a lane owns. -/
theorem windowResults : Obligations.WindowResults := by
  unfold Obligations.WindowResults
  intro s ini w v l u hr c old x again m d blank bound sets
  have hlane (mask lane : Word) : v &&& mask &&& ~~~ lane = v &&& (mask &&& ~~~ lane) := BitVec.and_assoc ..
  refine ⟨fun hg hs i hi => ?_, fun he hre => ?_, fun he ho => ?_, fun he hse => ?_,
    fun he hse => goes_winStateChange hr he hse (winEnter_spec w l u c), fun hg => goes_gatedWrite hr rfl hg ?_,
    fun hg hs => ?_, fun hg hs => ?_⟩
  · have hexec : exec i s = s.onChip (gatedWrite ini (winR w 0) (winCfgWrite ini w v)) := by
      simp only [List.mem_cons, List.not_mem_nil, or_false] at hi
      obtain rfl | rfl | rfl := hi
      all_goals rfl
    exact goes_gatedWrite hr hexec hg (winCfgWrite_spec ini w v (c := c.ack) hs)
  · have hturn : d = winBlank w true (some (c.now - 1)) c := winTurn_restart he hre
    simp only [blank, hturn]
    exact winBlank_spec w true (some (c.now - 1)) c
  · have hturn : d = winBlank w false none c := winTurn_off he ho
    simp only [blank, hturn]
    exact winBlank_spec w false none c
  · refine goes_winSettled hr he hse (o := winMajority c w m) rfl ?_
    simp only [RegsBut, State.after_chip]
    exact winSettle_spec w (winMajority c w m).1 (winMajority c w m).2 c
  · simp only [bound, hlane]
    exact winThrWrite_codes ini w v c.ack
  · exact goes_gatedWrite hr rfl hg (winThrWrite_rampL ini w v (c := c.ack) hs)
  · refine goes_gatedWrite hr rfl hg ?_
    simp only [bound, hlane]
    exact winThrWrite_rampH ini w v (c := c.ack) hs

end Sys2Proof.Machine

/-! PROOFS. Express lanes: their writes and the end of their cycle (08 R191, R197, R202, R210, R212). What the operations on one lane
leave of its registers and of its record, and the stages of a cycle's end that no record at the tap comes before. -/

namespace Sys2Proof.Machine

/-! ### The record and the registers of one lane -/

@[simp] theorem Chip.reg_updXl (c : Chip) (x : Fin 12) (f : Xl → Xl) (a : Nat) : (updXl x f c).reg a = c.reg a := rfl

/-- A lane's record after its own update. -/
theorem updXl_at (x : Fin 12) (f : Xl → Xl) (c : Chip) : (updXl x f c).xls[x] = f c.xls[x] := vmod_get c.xls x f

theorem updXl_congr {x : Fin 12} {f g : Xl → Xl} {c : Chip} (h : f c.xls[x] = g c.xls[x]) : updXl x f c = updXl x g c := by
  simp only [updXl, vmod, h]

@[simp] theorem xlR_inj {s a b : Nat} : xlR s a = xlR s b ↔ a = b := by simp [xlR, slR]

/-- The windows' registers stand below the lanes'. -/
theorem xlR_ne_winR (s w : Nat) {off o : Nat} (h : off < 0x200) (ho : o < 0x40) : xlR s off ≠ winR w o := by
  simp only [xlR, winR, slR]
  omega

/-- A field below a bit that is set keeps its value. -/
theorem Word.fld_setBit_above (v : Word) {k lo w : Nat} (h : lo + w ≤ k) :
    (v ||| BitVec.ofNat 32 (2 ^ k)).fld lo w = v.fld lo w := by
  refine Nat.eq_of_testBit_eq fun i => ?_
  rw [Word.fld_testBit, Word.fld_testBit, BitVec.getLsbD_or, BitVec.getLsbD_ofNat, Nat.testBit_two_pow]
  by_cases hi : i < w
  · simp [show ¬ k = lo + i by omega]
  · simp [hi]

/-- A counting field after one event. -/
theorem Chip.fld_satInc (c : Chip) (a : Nat) {lo w : Nat} (h : lo + w ≤ 32) :
    (c.satInc a lo w).fld a lo w = min (c.fld a lo w + 1) (2 ^ w - 1) := by
  have hreg : (c.satInc a lo w).reg a = satField (c.reg a) lo w := c.reg_setReg_self a _
  have hpos := Nat.two_pow_pos w
  rw [Chip.fld, hreg, satField, Word.fld_withFld _ _ h, Nat.mod_eq_of_lt (by omega), Chip.fld]

section
variable {x : Fin 12} {c d e : Chip}

/-! ### Writes of software (R191) -/

/-- The write that enables a lane takes MODE, and nothing is in flight. -/
theorem xlCfgWrite_enable {ini : Initiator} {v : Word} (hs : c.sealed = false) (h0 : c.bit (xlR x 0) 0 = false) (h1 : v.bit 0 = true) :
    let d := xlCfgWrite ini x v c
    d.reg (xlR x 0) = v &&& 0x1F ∧ xlMode d x = v.fld 1 2 ∧
      d.xls[x] = { Xl.reset with irstAt := c.xls[x].irstAt, enAt := some c.now } ∧
      ∀ a, a ∉ [xlR x 0, xlR x 4] → d.reg a = c.reg a := by
  have h0' : (c.reg (xlR x 0)).bit 0 = false := h0
  have hw : xlCfgWrite ini x v c = updXl x (fun y => { Xl.reset with irstAt := y.irstAt, enAt := some c.now })
      ((c.setReg (xlR x 0) (v &&& 0x1F)).setFld (xlR x 4) 1 2 (v.fld 1 2)) := by
    simp [xlCfgWrite, cfgOpen_of_unsealed ini _ hs, h0', h1]
  dsimp only
  rw [hw]
  refine ⟨?_, ?_, by simp only [updXl_at, Chip.setFld_xls, Chip.setReg_xls], fun a ha => ?_⟩
  · rw [Chip.reg_updXl, Chip.reg_setFld_ne _ _ _ _ (by simp), Chip.reg_setReg_self]
  · rw [xlMode, Chip.fld, Chip.reg_updXl, Chip.reg_setFld_self, Word.fld_withFld _ _ (by decide), Nat.mod_eq_of_lt (v.fld_lt 1 2)]
  · simp only [List.mem_cons, List.not_mem_nil, or_false, not_or] at ha
    rw [Chip.reg_updXl, Chip.reg_setFld_ne _ _ _ _ ha.2, Chip.reg_setReg_ne _ _ ha.1]

/-- A write that leaves a lane enabled takes the event fields alone. -/
theorem xlCfgWrite_enabled {ini : Initiator} {v : Word} (hs : c.sealed = false) (h0 : c.bit (xlR x 0) 0 = true) (h1 : v.bit 0 = true) :
    xlCfgWrite ini x v c = c.setReg (xlR x 0) ((v &&& 0x19) ||| (c.reg (xlR x 0) &&& 6)) := by
  have h0' : (c.reg (xlR x 0)).bit 0 = true := h0
  simp [xlCfgWrite, cfgOpen_of_unsealed ini _ hs, h0', h1]

/-- EN written 0 does nothing else within its cycle. -/
theorem xlCfgWrite_disable {ini : Initiator} {v : Word} (hs : c.sealed = false) (h1 : v.bit 0 = false) :
    xlCfgWrite ini x v c = c.setReg (xlR x 0) (v &&& 0x1F) := by
  simp [xlCfgWrite, cfgOpen_of_unsealed ini _ hs, h1]

/-- A write whose effect is to set the register `a` to `v` changes no other register and no lane. -/
theorem goes_setsReg {s : State} {i : Instr} {ini : Initiator} {a : Nat} {f : Chip → Chip} {v : Word} (hr : s.inRun)
    (he : exec i s = s.onChip (gatedWrite ini a f)) (hg : s.chip.grants ini a true) (hf : f s.chip.ack = s.chip.ack.setReg a v) :
    Goes i s fun t => t.chip.reg a = v ∧ t.chip.xls = s.chip.xls ∧ RegsBut s t [a] :=
  goes_write hr he hg hf ⟨Chip.reg_setReg_self _ a v, by rw [Chip.setReg_xls, Chip.ack_xls],
    fun b hb => Chip.reg_setReg_ne _ v (by simpa using hb)⟩

/-! ### The discard of a record held alone (R197, R210) -/

/-- The held records are discarded as one pair miss. -/
def heldDropped (x : Fin 12) (c : Chip) : Chip := xlMiss x (updXl x (fun y => { y with heldA := none, heldB := none }) c)

theorem heldDropped_record (x : Fin 12) (c : Chip) :
    (heldDropped x c).xls[x] = { c.xls[x] with heldA := none, heldB := none } := updXl_at _ _ _

theorem heldDropped_reg (x : Fin 12) (c : Chip) {off : Nat} (h4 : off ≠ 4) (h10 : off ≠ 0x10) :
    (heldDropped x c).reg (xlR x off) = c.reg (xlR x off) :=
  (Chip.reg_satInc_ne _ _ _ (by simpa using h10)).trans (Chip.reg_setBits_ne _ _ (by simpa using h4))

theorem heldDropped_stat (x : Fin 12) (c : Chip) :
    (heldDropped x c).reg (xlR x 4) = c.reg (xlR x 4) ||| BitVec.ofNat 32 (2 ^ 11) :=
  (Chip.reg_satInc_ne _ _ _ (by simp)).trans (Chip.reg_setBits_self _ _ _)

theorem heldDropped_pairf (x : Fin 12) (c : Chip) : (heldDropped x c).bit (xlR x 4) 11 = true := by
  rw [Chip.bit, heldDropped_stat, Word.bit_or _ _ (by decide), Nat.testBit_two_pow_self, Bool.or_true]

theorem heldDropped_misses (x : Fin 12) (c : Chip) :
    (heldDropped x c).fld (xlR x 0x10) 16 16 = min (c.fld (xlR x 0x10) 16 16 + 1) 0xFFFF := by
  rw [heldDropped, xlMiss, Chip.fld_satInc _ _ (by decide), Chip.fld, Chip.reg_setBits_ne _ _ (by simp), Chip.reg_updXl]
  rfl

theorem xlPairEnd_held (h : c.xls[x].heldA ≠ none ∨ c.xls[x].heldB ≠ none) : xlPairEnd x c = heldDropped x c :=
  if_pos (by simpa only [Bool.or_eq_true, Option.isSome_iff_ne_none] using h)

theorem xlPairEnd_cases (x : Fin 12) (c : Chip) : xlPairEnd x c = c ∨ xlPairEnd x c = heldDropped x c := by
  unfold xlPairEnd
  dsimp only
  split
  · exact .inr rfl
  · exact .inl rfl

/-- Where both records of a pair arrive, what was held from before goes. -/
theorem xlTogether_replaces (ha : c.xls[x].taps.any (xlIsIn c x true) = true) (hb : c.xls[x].taps.any (xlIsIn c x false) = true)
    (h : c.xls[x].heldA ≠ none ∨ c.xls[x].heldB ≠ none) : xlTogether x c = heldDropped x c := by
  rw [← xlPairEnd_held h]
  exact if_pos (by rw [ha, hb]; rfl)

theorem xlExpire_cases (x : Fin 12) (c : Chip) : xlExpire x c = c ∨ xlExpire x c = heldDropped x c := by
  unfold xlExpire
  dsimp only
  split
  · exact xlPairEnd_cases x c
  · exact .inl rfl

/-- The window of a record held alone passes with the cycle, by PAIRWIN or by PAIR_WINDOW. -/
theorem xlExpire_passed {r : XlRec}
    (hh : c.xls[x].heldA = some r ∧ c.xls[x].heldB = none ∨ c.xls[x].heldA = none ∧ c.xls[x].heldB = some r)
    (hp : c.xls[x].pairAt = some c.now ∧ r.cycle < c.now ∨ r.cycle + c.fld (xlR x 0x18) 16 8 ≤ c.now) :
    xlExpire x c = heldDropped x c := by
  have hold : (decide (r.cycle + c.fld (xlR x 0x18) 16 8 ≤ c.now) ||
      (decide (c.xls[x].pairAt = some c.now) && decide (r.cycle < c.now))) = true := by
    simpa only [Bool.or_eq_true, Bool.and_eq_true, decide_eq_true_eq] using hp.symm
  obtain ⟨ha, hb⟩ | ⟨ha, hb⟩ := hh
  · rw [← xlPairEnd_held (.inl (by rw [ha]; nofun))]
    exact if_pos (by simp only [ha, hold, Bool.true_or])
  · rw [← xlPairEnd_held (.inr (by rw [hb]; nofun))]
    exact if_pos (by simp only [hb, hold, Bool.or_true])

/-! ### The stages of a cycle's end (R191, R202, R203, R210) -/

/-- The notes of the cycle go, and then what is held and whose window has passed. -/
def windowsEnded (x : Fin 12) (c : Chip) : Chip := xlExpire x (updXl x (fun y => { y with taps := [], wrote := [], intW := [] }) c)

/-- A computation in flight after the integrators of the cycle are taken. -/
def intsTaken (c : Chip) (x : Fin 12) (f : XlFlight) : XlFlight :=
  if f.mode = 1 ∧ f.due = c.now + 5 then { f with ints := some (xlInt c x 0, xlInt c x 1) }
  else if f.mode = 2 ∧ f.due = c.now + 1 then { f with ints := some (xlInt c x f.loop, 0) }
  else f

def intsEnd (x : Fin 12) (c : Chip) : Chip := if c.xls[x].flight.isEmpty then c else xlInts x c

/-- XL_INT[0..3] at 0. -/
def intsZeroed (x : Fin 12) (c : Chip) : Chip := (List.range 4).foldl (fun (c : Chip) k => c.setReg (xlR x (0x100 + 4 * k)) 0) c

def irstEnd (x : Fin 12) (c : Chip) : Chip :=
  if c.xls[x].irstAt = some c.now then updXl x (fun y => { y with irstAt := none }) (intsZeroed x c) else c

/-- The stages before EN is looked at. -/
def beforeOff (x : Fin 12) (c : Chip) : Chip := irstEnd x (intsEnd x (windowsEnded x c))

def offEnd (x : Fin 12) (c : Chip) : Chip := if xlMode c x ≠ 0 ∧ c.bit (xlR x 0) 0 = false then xlOff x c else c

/-- A cycle's end with no record at the tap. -/
theorem xlEnd_no_taps (h : c.xls[x].taps = []) : xlEnd x c = offEnd x (beforeOff x c) := by
  have htog : xlTogether x c = c := if_neg (by rw [h]; exact Bool.false_ne_true)
  simp only [xlEnd, h, List.foldl_nil, htog]
  rfl

/-- `d` is, of what the later stages look at, `c` but for a pair miss. -/
structure MissOnly (x : Fin 12) (c d : Chip) : Prop where
  now : d.now = c.now
  regs0 : d.regs0 = c.regs0
  flight : d.xls[x].flight = c.xls[x].flight
  irstAt : d.xls[x].irstAt = c.xls[x].irstAt
  mode : xlMode d x = xlMode c x
  reg : ∀ off, off ≠ 4 → off ≠ 0x10 → d.reg (xlR x off) = c.reg (xlR x off)

theorem heldDropped_missOnly (x : Fin 12) (c : Chip) : MissOnly x c (heldDropped x c) where
  now := by simp only [heldDropped, xlMiss, Chip.satInc_now, Chip.setBits_now, Chip.updXl_now]
  regs0 := by simp only [heldDropped, xlMiss, Chip.satInc_regs0, Chip.setBits_regs0, Chip.updXl_regs0]
  flight := by rw [heldDropped_record]
  irstAt := by rw [heldDropped_record]
  mode := by rw [xlMode, Chip.fld, heldDropped_stat, Word.fld_setBit_above _ (by decide)]; rfl
  reg off h4 h10 := heldDropped_reg x c h4 h10

theorem windowsEnded_missOnly (x : Fin 12) (c : Chip) : MissOnly x c (windowsEnded x c) := by
  obtain ⟨d, hd⟩ : ∃ d, d = updXl x (fun y => { y with taps := [], wrote := [], intW := [] }) c := ⟨_, rfl⟩
  have hc : MissOnly x c d := by
    subst hd
    exact ⟨rfl, rfl, by rw [updXl_at], by rw [updXl_at], rfl, fun _ _ _ => rfl⟩
  rw [windowsEnded, ← hd]
  obtain h | h := xlExpire_cases x d
  · rwa [h]
  · have hm := heldDropped_missOnly x d
    rw [h]
    exact ⟨hm.now.trans hc.now, hm.regs0.trans hc.regs0, hm.flight.trans hc.flight, hm.irstAt.trans hc.irstAt,
      hm.mode.trans hc.mode, fun off h4 h10 => (hm.reg off h4 h10).trans (hc.reg off h4 h10)⟩

theorem intsEnd_record (x : Fin 12) (c : Chip) :
    (intsEnd x c).xls[x] = { c.xls[x] with flight := c.xls[x].flight.map (intsTaken c x) } := by
  unfold intsEnd
  split
  · next h =>
    have hmap : c.xls[x].flight.map (intsTaken c x) = c.xls[x].flight := by rw [List.isEmpty_iff.1 h, List.map_nil]
    rw [hmap]
  · exact updXl_at _ _ _

theorem intsEnd_keeps (x : Fin 12) (c : Chip) : (intsEnd x c).regs = c.regs ∧ (intsEnd x c).now = c.now := by
  unfold intsEnd
  split
  · exact ⟨rfl, rfl⟩
  · exact ⟨rfl, rfl⟩

/-- XL_INT[0..3] read 0, and every other register of the lane as before. -/
theorem reg_intsZeroed (x : Fin 12) (c : Chip) (off : Nat) : (intsZeroed x c).reg (xlR x off) =
    if off = 0x10C ∨ off = 0x108 ∨ off = 0x104 ∨ off = 0x100 then 0 else c.reg (xlR x off) := by
  simp only [intsZeroed, List.range_succ, List.range_zero, List.foldl_append, List.foldl_cons, List.foldl_nil, Chip.reg_setReg,
    xlR_inj, ite_or]

theorem intsZeroed_xls (x : Fin 12) (c : Chip) : (intsZeroed x c).xls = c.xls :=
  foldl_keeps (·.xls) _ (fun d k => d.setReg_xls (xlR x (0x100 + 4 * k)) 0) _ c

theorem irstEnd_record (x : Fin 12) (c : Chip) : (irstEnd x c).xls[x] =
    { c.xls[x] with irstAt := if c.xls[x].irstAt = some c.now then none else c.xls[x].irstAt } := by
  unfold irstEnd
  split
  · simp only [updXl_at, intsZeroed_xls]
  · rfl

theorem irstEnd_zeroes (h : c.xls[x].irstAt = some c.now) (i : Fin 4) : (irstEnd x c).reg (xlR x (0x100 + 4 * i.val)) = 0 := by
  rw [irstEnd, if_pos h, Chip.reg_updXl, reg_intsZeroed, if_pos (by omega)]

/-- An IRST writes none of the registers below XL_INT. -/
theorem irstEnd_reg (x : Fin 12) (c : Chip) {off : Nat} (h : off < 0x100) : (irstEnd x c).reg (xlR x off) = c.reg (xlR x off) := by
  unfold irstEnd
  split
  · rw [Chip.reg_updXl, reg_intsZeroed, if_neg (by omega)]
  · rfl

theorem beforeOff_record (x : Fin 12) (c : Chip) : (beforeOff x c).xls[x] =
    { (windowsEnded x c).xls[x] with
      flight := c.xls[x].flight.map (intsTaken c x)
      irstAt := if c.xls[x].irstAt = some c.now then none else c.xls[x].irstAt } := by
  have hm := windowsEnded_missOnly x c
  have htaken : intsTaken (windowsEnded x c) x = intsTaken c x := by
    funext f
    simp only [intsTaken, xlInt, Chip.reg0, hm.now, hm.regs0]
  rw [beforeOff, irstEnd_record, intsEnd_record, (intsEnd_keeps x _).2, hm.now, hm.irstAt, hm.flight, htaken]

theorem beforeOff_reg (x : Fin 12) (c : Chip) {off : Nat} (h : off < 0x100) :
    (beforeOff x c).reg (xlR x off) = (windowsEnded x c).reg (xlR x off) := by
  rw [beforeOff, irstEnd_reg _ _ h]
  exact Chip.reg_congr (intsEnd_keeps x _).1 _

theorem beforeOff_zeroes (h : c.xls[x].irstAt = some c.now) (i : Fin 4) : (beforeOff x c).reg (xlR x (0x100 + 4 * i.val)) = 0 := by
  have hm := windowsEnded_missOnly x c
  refine irstEnd_zeroes ?_ i
  rw [intsEnd_record, (intsEnd_keeps x _).2, hm.now, hm.irstAt, h]

theorem beforeOff_mode (x : Fin 12) (c : Chip) : xlMode (beforeOff x c) x = xlMode c x := by
  rw [xlMode, Chip.fld, beforeOff_reg _ _ (by decide)]
  exact (windowsEnded_missOnly x c).mode

theorem beforeOff_en (x : Fin 12) (c : Chip) : (beforeOff x c).bit (xlR x 0) 0 = c.bit (xlR x 0) 0 := by
  rw [Chip.bit, beforeOff_reg _ _ (by decide), (windowsEnded_missOnly x c).reg 0 (by decide) (by decide), Chip.bit]

/-- A lane written EN = 0 goes off. -/
theorem offEnd_stops (hm : xlMode c x ≠ 0) (he : c.bit (xlR x 0) 0 = false) : offEnd x c = xlOff x c := if_pos ⟨hm, he⟩

theorem offEnd_runs (he : c.bit (xlR x 0) 0 = true) : offEnd x c = c := if_neg fun h => by
  rw [he] at h
  exact Bool.noConfusion h.2

theorem xlOff_record (x : Fin 12) (c : Chip) : (xlOff x c).xls[x] =
    { c.xls[x] with flight := [], snaps := [], heldA := none, heldB := none, taps := [], enAt := none } := by
  simp only [xlOff, updXl_at, Chip.setFld_xls]

theorem xlOff_mode (x : Fin 12) (c : Chip) : xlMode (xlOff x c) x = 0 := by
  rw [xlMode, Chip.fld, xlOff, Chip.reg_updXl, Chip.reg_setFld_self, Word.fld_withFld _ _ (by decide), Nat.zero_mod]

/-- Whether or not the lane goes off: of its registers only MODEA changes, and a held record is not brought back. -/
theorem offEnd_keeps (x : Fin 12) (c : Chip) :
    (offEnd x c).xls[x].irstAt = c.xls[x].irstAt ∧
    (c.xls[x].heldA = none → c.xls[x].heldB = none → (offEnd x c).xls[x].heldA = none ∧ (offEnd x c).xls[x].heldB = none) ∧
    (∀ i, 3 ≤ i → (offEnd x c).bit (xlR x 4) i = c.bit (xlR x 4) i) ∧
    ∀ off, off ≠ 4 → (offEnd x c).reg (xlR x off) = c.reg (xlR x off) := by
  unfold offEnd
  split
  · rw [xlOff_record]
    refine ⟨rfl, fun _ _ => ⟨rfl, rfl⟩, fun i hi => ?_, fun off ho => ?_⟩
    · rw [Chip.bit, xlOff, Chip.reg_updXl, Chip.reg_setFld_self, Word.bit_withFld_ne _ _ (.inr hi), Chip.bit]
    · rw [xlOff, Chip.reg_updXl, Chip.reg_setFld_ne _ _ _ _ (by simpa using ho)]
  · exact ⟨rfl, fun ha hb => ⟨ha, hb⟩, fun _ _ => rfl, fun _ _ => rfl⟩

/-! ### The end of a cycle (R191, R197, R202, R210) -/

/-- EN = 0 ends the mode in use and abandons what is in flight or held. -/
theorem xlEnd_off (ht : c.xls[x].taps = []) (hm : xlMode c x ≠ 0) (he : c.bit (xlR x 0) 0 = false) :
    let d := xlEnd x c
    xlMode d x = 0 ∧ d.xls[x].flight = [] ∧ d.xls[x].snaps = [] ∧ d.xls[x].heldA = none ∧ d.xls[x].heldB = none := by
  have hoff : xlEnd x c = xlOff x (beforeOff x c) := by
    rw [xlEnd_no_taps ht, offEnd_stops (by rwa [beforeOff_mode]) (by rwa [beforeOff_en])]
  dsimp only
  rw [hoff, xlOff_record]
  exact ⟨xlOff_mode _ _, rfl, rfl, rfl, rfl⟩

/-- IRST takes effect as its cycle ends. -/
theorem xlEnd_irst (ht : c.xls[x].taps = []) (h : c.xls[x].irstAt = some c.now) :
    (xlEnd x c).xls[x].irstAt = none ∧ ∀ i : Fin 4, (xlEnd x c).reg (xlR x (0x100 + 4 * i.val)) = 0 := by
  obtain ⟨hirst, -, -, hreg⟩ := offEnd_keeps x (beforeOff x c)
  rw [xlEnd_no_taps ht]
  refine ⟨?_, fun i => ?_⟩
  · rw [hirst, beforeOff_record]
    exact if_pos h
  · rw [hreg _ (by omega), beforeOff_zeroes h]

/-- The computation of an enabled lane takes the integrators in their cycle. -/
theorem xlEnd_takesInts {f : XlFlight} (ht : c.xls[x].taps = []) (hf : c.xls[x].flight = [f]) (hm : f.mode = 1)
    (hd : f.due = c.now + 5) (he : c.bit (xlR x 0) 0 = true) :
    (xlEnd x c).xls[x].flight = [{ f with ints := some (xlInt c x 0, xlInt c x 1) }] := by
  have htaken : intsTaken c x f = { f with ints := some (xlInt c x 0, xlInt c x 1) } := if_pos ⟨hm, hd⟩
  rw [xlEnd_no_taps ht, offEnd_runs (by rwa [beforeOff_en]), beforeOff_record, hf, List.map_singleton, htaken]

/-- A record held alone whose window passes is discarded and counted. -/
theorem xlEnd_windowPasses {r : XlRec} (ht : c.xls[x].taps = [])
    (hh : c.xls[x].heldA = some r ∧ c.xls[x].heldB = none ∨ c.xls[x].heldA = none ∧ c.xls[x].heldB = some r)
    (hp : c.xls[x].pairAt = some c.now ∧ r.cycle < c.now ∨ r.cycle + c.fld (xlR x 0x18) 16 8 ≤ c.now) :
    let d := xlEnd x c
    d.xls[x].heldA = none ∧ d.xls[x].heldB = none ∧ d.bit (xlR x 4) 11 = true ∧
      d.fld (xlR x 0x10) 16 16 = min (c.fld (xlR x 0x10) 16 16 + 1) 0xFFFF := by
  obtain ⟨e, he⟩ : ∃ e, e = updXl x (fun y => { y with taps := [], wrote := [], intW := [] }) c := ⟨_, rfl⟩
  have hrec : e.xls[x] = { c.xls[x] with taps := [], wrote := [], intW := [] } := by rw [he, updXl_at]
  have hreg (a : Nat) : e.reg a = c.reg a := by rw [he, Chip.reg_updXl]
  have hnow : e.now = c.now := by rw [he, Chip.updXl_now]
  have hdrop : windowsEnded x c = heldDropped x e := by
    rw [windowsEnded, ← he]
    exact xlExpire_passed (r := r) (by rwa [hrec]) (by rw [hrec, hnow, Chip.fld, hreg]; exact hp)
  obtain ⟨-, hheld, hbit, hregs⟩ := offEnd_keeps x (beforeOff x c)
  have hout : (beforeOff x c).xls[x].heldA = none ∧ (beforeOff x c).xls[x].heldB = none := by
    rw [beforeOff_record, hdrop, heldDropped_record]
    exact ⟨rfl, rfl⟩
  obtain ⟨ha, hb⟩ := hheld hout.1 hout.2
  dsimp only
  rw [xlEnd_no_taps ht]
  refine ⟨ha, hb, ?_, ?_⟩
  · rw [hbit 11 (by decide), Chip.bit, beforeOff_reg _ _ (by decide), hdrop]
    exact heldDropped_pairf x e
  · rw [Chip.fld, hregs 0x10 (by decide), beforeOff_reg _ _ (by decide), hdrop]
    exact (heldDropped_misses x e).trans (by rw [Chip.fld, hreg, Chip.fld])

end

end Sys2Proof.Machine

/-! PROOFS. Express lanes: results (08 R199 to R207). What the delivery of one computation leaves of the lane, what the result cycle
adds to it, and the statement on the lanes. -/

namespace Sys2Proof.Machine

section
variable {x : Fin 12} {w : Set Nat} {c d e : Chip}

/-! ### What a delivery leaves alone -/

/-- `d` has the computations and the count of results of `c`, and of the lane's registers only those at the offsets `w` may differ. -/
structure LaneKept (x : Fin 12) (w : Set Nat) (c d : Chip) : Prop where
  now : d.now = c.now
  flight : d.xls[x].flight = c.xls[x].flight
  resAt : d.xls[x].resAt = c.xls[x].resAt
  reg : ∀ off, off < 0x200 → off ∉ w → d.reg (xlR x off) = c.reg (xlR x off)

theorem LaneKept.refl (x : Fin 12) (w : Set Nat) (c : Chip) : LaneKept x w c c := ⟨rfl, rfl, rfl, fun _ _ _ => rfl⟩

theorem LaneKept.trans (h : LaneKept x w c d) (h' : LaneKept x w d e) : LaneKept x w c e :=
  ⟨h'.now.trans h.now, h'.flight.trans h.flight, h'.resAt.trans h.resAt,
    fun off ho hw => (h'.reg off ho hw).trans (h.reg off ho hw)⟩

theorem LaneKept.mono {w' : Set Nat} (h : LaneKept x w c d) (hw : w ⊆ w') : LaneKept x w' c d :=
  ⟨h.now, h.flight, h.resAt, fun off ho hoff => h.reg off ho fun hmem => hoff (hw hmem)⟩

theorem LaneKept.ite (p : Prop) [Decidable p] (hd : LaneKept x w c d) (he : LaneKept x w c e) :
    LaneKept x w c (if p then d else e) := by
  split
  · exact hd
  · exact he

theorem LaneKept.foldl {α : Type} {g : Chip → α → Chip} (h : ∀ c a, LaneKept x w c (g c a)) (xs : List α) (c : Chip) :
    LaneKept x w c (xs.foldl g c) :=
  List.foldlRecOn xs g (.refl x w c) fun d hd a _ => hd.trans (h d a)

theorem setReg_laneKept (v : Word) {off : Nat} (hw : off ∈ w) (c : Chip) : LaneKept x w c (c.setReg (xlR x off) v) :=
  ⟨rfl, rfl, rfl, fun _ _ ho => c.reg_setReg_ne v fun he => ho (xlR_inj.1 he ▸ hw)⟩

theorem setBits_laneKept (m : Nat) {off : Nat} (hw : off ∈ w) (c : Chip) : LaneKept x w c (c.setBits (xlR x off) m) :=
  ⟨rfl, rfl, rfl, fun _ _ ho => c.reg_setBits_ne m fun he => ho (xlR_inj.1 he ▸ hw)⟩

theorem updXl_laneKept (w : Set Nat) {f : Xl → Xl} (c : Chip) (hf : ∀ y, (f y).flight = y.flight ∧ (f y).resAt = y.resAt) :
    LaneKept x w c (updXl x f c) :=
  ⟨rfl, by rw [updXl_at, (hf _).1], by rw [updXl_at, (hf _).2], fun _ _ _ => rfl⟩

/-- The note of a write in the cycle. -/
theorem xlWrote_laneKept (w : Set Nat) (l k : Nat) (c : Chip) : LaneKept x w c (xlWrote x l k c) :=
  updXl_laneKept w c fun _ => ⟨rfl, rfl⟩

/-- A compare write of the lane may set IGNF (R205). -/
theorem xlCompare_laneKept (hw : 4 ∈ w) (l ch : Nat) (k : Fin 4) (v : Int) (c : Chip) : LaneKept x w c (xlCompare x l ch k v c) := by
  have hchan (n : Fin 96) (c : Chip) : LaneKept x w c (laneCompare n k (wordI v) c) := by
    unfold laneCompare
    split
    · exact ⟨rfl, rfl, rfl, fun _ _ _ => rfl⟩
    · exact .refl x w c
  unfold xlCompare
  dsimp only
  exact LaneKept.trans (.ite _ (.refl x w c) (setBits_laneKept _ hw c))
    (.ite _ (.refl x w _) ((xlWrote_laneKept w _ _ _).trans (hchan _ _)))

/-- The write of a window's threshold and slope changes no register of the lane (R204). -/
theorem xlThrWrite_laneKept (w : Set Nat) (n : Fin 96) (code : Nat) (slope : Int) (c : Chip) :
    LaneKept x w c (xlThrWrite n code slope c) := by
  refine ⟨rfl, rfl, rfl, fun off ho _ => ?_⟩
  rw [xlThrWrite, reg_thrWrite, if_neg (xlR_ne_winR _ _ ho (by decide)), if_neg (xlR_ne_winR _ _ ho (by decide)),
    if_neg (xlR_ne_winR _ _ ho (by decide))]

theorem xlSetInt_laneKept (k : Nat) (v : Int) (hw : 0x100 + 4 * k ∈ w) (c : Chip) : LaneKept x w c (xlSetInt x k v c) :=
  (setReg_laneKept (wordI v) hw c).trans (updXl_laneKept w _ fun _ => ⟨rfl, rfl⟩)

theorem reg_xlSetInt_self (x : Fin 12) (k : Nat) (v : Int) (c : Chip) :
    (xlSetInt x k v c).reg (xlR x (0x100 + 4 * k)) = wordI v := Chip.reg_setReg_self _ _ _

theorem xlOutput_laneKept (i : Nat) (v : Int) (hw : 0x120 + 4 * i ∈ w) (c : Chip) : LaneKept x w c (xlOutput x i v c) :=
  (setReg_laneKept (wordI v) hw c).trans (.ite _ ⟨rfl, rfl, rfl, fun _ _ _ => rfl⟩ (.refl x w _))

/-- An output appears, and its publication is no register's. -/
theorem reg_xlOutput_self (x : Fin 12) (i : Nat) (v : Int) (c : Chip) :
    (xlOutput x i v c).reg (xlR x (0x120 + 4 * i)) = wordI v := by
  unfold xlOutput
  dsimp only
  split
  · exact Chip.reg_setReg_self _ _ _
  · exact Chip.reg_setReg_self _ _ _

theorem xlFlags_laneKept (hw : 4 ∈ w) (fl : Bool × Bool) (c : Chip) : LaneKept x w c (xlFlags x fl c) :=
  LaneKept.trans (.ite _ (setBits_laneKept _ hw c) (.refl x w c)) (.ite _ (setBits_laneKept _ hw _) (.refl x w _))

/-! ### One computation delivers (R199 to R206) -/

/-- A loop's integrator, output and flags. -/
def loopDelivered (x : Fin 12) (l : Nat) (o : Int × Int) (fl : Bool × Bool) (c : Chip) : Chip :=
  xlFlags x fl (xlOutput x l o.1 (xlSetInt x l o.2 c))

theorem loopDelivered_laneKept (l : Nat) (o : Int × Int) (fl : Bool × Bool) (h4 : 4 ∈ w) (hi : 0x100 + 4 * l ∈ w)
    (ho : 0x120 + 4 * l ∈ w) (c : Chip) : LaneKept x w c (loopDelivered x l o fl c) :=
  ((xlSetInt_laneKept l o.2 hi c).trans (xlOutput_laneKept l o.1 ho _)).trans (xlFlags_laneKept h4 fl _)

/-- A loop delivers the two values of its regulator (R200, R203, R204, R206). -/
theorem loopDelivered_spec (x : Fin 12) {l : Nat} (o : Int × Int) (fl : Bool × Bool) (c : Chip) (hl : l < 4) :
    (loopDelivered x l o fl c).reg (xlR x (0x100 + 4 * l)) = wordI o.2 ∧
      (loopDelivered x l o fl c).reg (xlR x (0x120 + 4 * l)) = wordI o.1 := by
  have hflags := xlFlags_laneKept (x := x) (w := {4}) rfl fl (xlOutput x l o.1 (xlSetInt x l o.2 c))
  have hout := xlOutput_laneKept (x := x) (w := {0x120 + 4 * l}) l o.1 rfl (xlSetInt x l o.2 c)
  constructor
  · rw [loopDelivered, hflags.reg _ (by omega) (by rw [Set.mem_singleton_iff]; omega), hout.reg _ (by omega) (by
      rw [Set.mem_singleton_iff]; omega), reg_xlSetInt_self]
  · rw [loopDelivered, hflags.reg _ (by omega) (by rw [Set.mem_singleton_iff]; omega), reg_xlOutput_self]

/-- SCALAR4: the compare, then what the loop's regulator gives. -/
theorem xlScalarResult_eq (x : Fin 12) {f : XlFlight} (c : Chip) (hinv : f.cfg.bit 20 = false) :
    ∃ d fl, LaneKept x {4} c d ∧
      (xlScalarResult x f c).1 = loopDelivered x f.loop ((xlLoopPi c x f (4 * f.loop)).run (false, false)).1 fl d := by
  unfold xlScalarResult
  rw [hinv]
  generalize xlLoopPi c x f (4 * f.loop) = m
  refine ⟨_, _, ?_, rfl⟩
  exact xlCompare_laneKept (Set.mem_singleton 4) f.loop _ _ _ c

/-- PEAK2: the windows of the mask, then what the loop's regulator gives. -/
theorem xlPeakResult_eq (x : Fin 12) (f : XlFlight) (c : Chip) :
    ∃ d fl, LaneKept x {4} c d ∧
      (xlPeakResult x f c).1 = loopDelivered x f.loop ((xlLoopPi c x f (5 * f.loop)).run (false, false)).1 fl d := by
  refine ⟨_, _, ?_, rfl⟩
  exact LaneKept.foldl (fun d k => .ite _ ((xlWrote_laneKept _ _ _ d).trans (xlThrWrite_laneKept _ _ _ _ _)) (.refl x _ d)) _ c

/-- What FOC3 forms from the snapshot, the records and the integrators of a computation (R199). -/
def focOut (c : Chip) (x : Fin 12) (f : XlFlight) : FocOut :=
  let q := laneQ (f.cfg.fld 0 5)
  ((focCompute q (fun j => ((f.snap.slots[j]?).getD 0).toInt) (laneY q f.ra) (laneY q f.rb) f.snap.vb.toInt f.snap.theta f.thE
    (f.cfg.bit 17) (f.cfg.bit 18) (f.cfg.bit 19) (xlIntOf c x f).1 (xlIntOf c x f).2).run (false, false)).1

def intsDelivered (x : Fin 12) (is : List Int) (c : Chip) : Chip := is.zipIdx.foldl (fun c e => xlSetInt x e.2 e.1 c) c
def outsDelivered (x : Fin 12) (os : List Int) (c : Chip) : Chip := os.zipIdx.foldl (fun c e => xlOutput x e.2 e.1 c) c

/-- The integrators, outputs and flags of FOC3. -/
def focDelivered (x : Fin 12) (o : FocOut) (fl : Bool × Bool) (c : Chip) : Chip :=
  xlFlags x fl (outsDelivered x o.outs (intsDelivered x o.ints c))

theorem intsDelivered_laneKept (is : List Int) (hw : ∀ k, 0x100 + 4 * k ∈ w) (c : Chip) :
    LaneKept x w c (intsDelivered x is c) := by
  unfold intsDelivered
  refine LaneKept.foldl (fun d e => ?_) is.zipIdx c
  exact xlSetInt_laneKept e.2 e.1 (hw e.2) d

theorem outsDelivered_laneKept (os : List Int) (hw : ∀ k, 0x120 + 4 * k ∈ w) (c : Chip) :
    LaneKept x w c (outsDelivered x os c) := by
  unfold outsDelivered
  refine LaneKept.foldl (fun d e => ?_) os.zipIdx c
  exact xlOutput_laneKept e.2 e.1 (hw e.2) d

theorem focDelivered_laneKept (o : FocOut) (fl : Bool × Bool) (h4 : 4 ∈ w) (hi : ∀ k, 0x100 + 4 * k ∈ w)
    (ho : ∀ k, 0x120 + 4 * k ∈ w) (c : Chip) : LaneKept x w c (focDelivered x o fl c) :=
  ((intsDelivered_laneKept o.ints hi c).trans (outsDelivered_laneKept o.outs ho _)).trans (xlFlags_laneKept h4 fl _)

/-- The integrators land in the order of their list. -/
theorem reg_intsDelivered (x : Fin 12) (is : List Int) (c : Chip) {i : Nat} (h4 : i < 4) (h : i < is.length) :
    (intsDelivered x is c).reg (xlR x (0x100 + 4 * i)) = wordI is[i] := by
  induction is using List.reverseRecOn with
  | nil => exact absurd h (Nat.not_lt_zero i)
  | append_singleton is v ih =>
    have hlast : intsDelivered x (is ++ [v]) c = xlSetInt x is.length v (intsDelivered x is c) := by
      simp [intsDelivered, List.zipIdx_append]
    rw [hlast]
    by_cases hi : i < is.length
    · have hk := xlSetInt_laneKept (x := x) (w := {0x100 + 4 * is.length}) is.length v rfl (intsDelivered x is c)
      rw [hk.reg _ (by omega) (by rw [Set.mem_singleton_iff]; omega), ih hi, List.getElem_append_left hi]
    · have he : i = is.length := by
        rw [List.length_append, List.length_singleton] at h
        omega
      subst he
      rw [reg_xlSetInt_self, List.getElem_concat_length rfl]

theorem focDelivered_ints (x : Fin 12) (o : FocOut) (fl : Bool × Bool) (c : Chip) {i : Nat} (h4 : i < 4) (h : i < o.ints.length) :
    (focDelivered x o fl c).reg (xlR x (0x100 + 4 * i)) = wordI o.ints[i] := by
  have hflags := xlFlags_laneKept (x := x) (w := {4}) rfl fl (outsDelivered x o.outs (intsDelivered x o.ints c))
  have houts := outsDelivered_laneKept (x := x) (w := Set.Ici 0x120) o.outs (fun k => Nat.le_add_right _ _) (intsDelivered x o.ints c)
  rw [focDelivered, hflags.reg _ (by omega) (by rw [Set.mem_singleton_iff]; omega),
    houts.reg _ (by omega) (by rw [Set.mem_Ici]; omega), reg_intsDelivered x o.ints c h4 h]

/-- FOC3 that regulates: the compares, then what the computation gives. -/
theorem xlFocResult_regulates (x : Fin 12) {f : XlFlight} (c : Chip) (hb : f.bad = false) :
    ∃ d fl, LaneKept x {4} c d ∧ (xlFocResult x f c).1 = focDelivered x (focOut c x f) fl d := by
  refine ⟨_, _, ?_, (congrArg Prod.fst (if_neg (by rw [hb]; exact Bool.false_ne_true))).trans rfl⟩
  refine LaneKept.foldl (fun d e => ?_) _ c
  exact xlCompare_laneKept (Set.mem_singleton 4) 0 _ 0 e.1 d

/-- FOC3 that does not regulate writes the compares alone (R201). -/
theorem xlFocResult_bad (x : Fin 12) {f : XlFlight} (c : Chip) (hb : f.bad = true) : LaneKept x {4} c (xlFocResult x f c).1 := by
  simp only [xlFocResult, hb, if_true]
  exact LaneKept.foldl (fun d k => xlCompare_laneKept (Set.mem_singleton 4) 0 _ 0 _ d) _ c

/-! ### The result cycle (R205, R207) -/

/-- The registers that a delivery writes: XL_STAT, and those from XL_INT on. -/
def deliveryOffs : Set Nat := { off | off = 4 ∨ 0x100 ≤ off }

theorem singleton_subset_deliveryOffs : ({4} : Set Nat) ⊆ deliveryOffs := fun _ h => .inl h

/-- The computation that delivers is no longer in flight. -/
def landed (x : Fin 12) (c : Chip) : Chip := updXl x (fun y => { y with flight := [] }) c

/-- RESF, and one count in the cycle however many computations deliver in it. -/
def resultCount (x : Fin 12) (c : Chip) : Chip :=
  let c := c.setBits (xlR x 4) (2 ^ 8)
  if c.xls[x].resAt = some c.now then c else c.satInc (xlR x 0x10) 0 16

/-- What the result cycle adds to what a computation delivered: RESF, the count, and the event. -/
def resultNoted (x : Fin 12) (r : Chip × Bool) : Chip :=
  let c := updXl x (fun y => { y with resAt := some (resultCount x r.1).now }) (resultCount x r.1)
  if c.bit0 (xlR x 0) 3 || (c.bit0 (xlR x 0) 4 && r.2) then evPulse (496 + x.val) c else c

/-- The only computation in flight is the one that delivers. -/
theorem xlResult_single {p : XlFlight → Bool} {f : XlFlight} (hf : c.xls[x].flight = [f]) (hp : p f = true) (hl : f.loop < 4) :
    xlResult x p c = resultNoted x (xlDeliver x f (landed x c)) := by
  have hdue : c.xls[x].flight.filter p = [f] := by rw [hf, List.filter_singleton, hp]; rfl
  have hgone : updXl x (fun y => { y with flight := y.flight.filter (fun g => !p g) }) c = landed x c :=
    updXl_congr (by rw [hf, List.filter_singleton, hp]; rfl)
  have hloop : (List.range 4).flatMap (fun l => [f].filter (fun g => g.loop == l)) = [f] := by
    have h4 : f.loop = 0 ∨ f.loop = 1 ∨ f.loop = 2 ∨ f.loop = 3 := by omega
    obtain h | h | h | h := h4
    all_goals simp [List.range_succ, h]
  unfold xlResult
  rw [hdue]
  simp only [hgone, hloop, List.isEmpty_cons, Bool.false_eq_true, if_false, List.foldl_cons, List.foldl_nil, Bool.false_or]
  rfl

theorem EventsOnly.xls (h : EventsOnly c d) : d.xls = c.xls := by
  obtain ⟨_, _, rfl⟩ := h
  rfl

theorem resultCount_xls (x : Fin 12) (c : Chip) : (resultCount x c).xls = c.xls := by
  unfold resultCount
  dsimp only
  split
  · exact Chip.setBits_xls _ _ _
  · exact (Chip.satInc_xls _ _ _ _).trans (Chip.setBits_xls _ _ _)

theorem resultCount_reg (x : Fin 12) (c : Chip) {off : Nat} (h : off ≠ 0x10) :
    (resultCount x c).reg (xlR x off) = (c.setBits (xlR x 4) (2 ^ 8)).reg (xlR x off) := by
  unfold resultCount
  dsimp only
  split
  · rfl
  · exact Chip.reg_satInc_ne _ _ _ (by simpa using h)

theorem resultCount_results (x : Fin 12) (c : Chip) : (resultCount x c).fld (xlR x 0x10) 0 16 =
    if c.xls[x].resAt = some c.now then c.fld (xlR x 0x10) 0 16 else min (c.fld (xlR x 0x10) 0 16 + 1) 0xFFFF := by
  have hfld : (c.setBits (xlR x 4) (2 ^ 8)).fld (xlR x 0x10) 0 16 = c.fld (xlR x 0x10) 0 16 := by
    rw [Chip.fld, Chip.reg_setBits_ne _ _ (by simp), Chip.fld]
  by_cases h : c.xls[x].resAt = some c.now
  · have hkeep : resultCount x c = c.setBits (xlR x 4) (2 ^ 8) :=
      if_pos (by simpa only [Chip.setBits_xls, Chip.setBits_now] using h)
    rw [if_pos h, hkeep, hfld]
  · have hinc : resultCount x c = (c.setBits (xlR x 4) (2 ^ 8)).satInc (xlR x 0x10) 0 16 :=
      if_neg (by simpa only [Chip.setBits_xls, Chip.setBits_now] using h)
    rw [if_neg h, hinc, Chip.fld_satInc _ _ (by decide), hfld]
    rfl

/-- Of the lane, the end of a result cycle changes XL_STAT, XL_CNT and the note of the cycle. -/
theorem resultNoted_spec (x : Fin 12) (r : Chip × Bool) :
    let d := resultNoted x r
    d.xls[x].flight = r.1.xls[x].flight ∧ d.bit (xlR x 4) 8 = true ∧
    d.fld (xlR x 0x10) 0 16 = (if r.1.xls[x].resAt = some r.1.now then r.1.fld (xlR x 0x10) 0 16
      else min (r.1.fld (xlR x 0x10) 0 16 + 1) 0xFFFF) ∧
    ∀ off, off ≠ 4 → off ≠ 0x10 → d.reg (xlR x off) = r.1.reg (xlR x off) := by
  have hev : EventsOnly (updXl x (fun y => { y with resAt := some (resultCount x r.1).now }) (resultCount x r.1))
      (resultNoted x r) := by
    unfold resultNoted
    dsimp only
    split
    · exact evPulse_eventsOnly _ _
    · exact .refl _
  have hreg (a : Nat) : (resultNoted x r).reg a = (resultCount x r.1).reg a := Chip.reg_congr hev.regs a
  refine ⟨?_, ?_, ?_, fun off h4 h10 => ?_⟩
  · simp only [hev.xls, updXl_at, resultCount_xls]
  · rw [Chip.bit, hreg, resultCount_reg _ _ (by decide)]
    exact Chip.bit_setBits_pow _ _ (by decide)
  · rw [Chip.fld, hreg]
    exact resultCount_results x r.1
  · rw [hreg, resultCount_reg _ _ h10, Chip.reg_setBits_ne _ _ (by simpa using h4)]

/-- A result of a lane with nothing else in flight: counted once in its cycle, with RESF set. -/
def ResultCounted (x : Fin 12) (c d : Chip) : Prop :=
  d.xls[x].flight = [] ∧ d.bit (xlR x 4) 8 = true ∧
    d.fld (xlR x 0x10) 0 16 = (if c.xls[x].resAt = some c.now then c.fld (xlR x 0x10) 0 16
      else min (c.fld (xlR x 0x10) 0 16 + 1) 0xFFFF)

/-- A result command ends with what the computation delivers, counted; its registers from XL_INT on are those delivered. -/
theorem xlResult_counted {p : XlFlight → Bool} {f : XlFlight} (hf : c.xls[x].flight = [f]) (hp : p f = true) (hl : f.loop < 4)
    (hd : (xlDeliver x f (landed x c)).1 = d) (hk : LaneKept x deliveryOffs (landed x c) d) :
    ResultCounted x c (xlResult x p c) ∧ ∀ off, 0x100 ≤ off → (xlResult x p c).reg (xlR x off) = d.reg (xlR x off) := by
  obtain ⟨hflight, hbit, hcnt, hregs⟩ := resultNoted_spec x (xlDeliver x f (landed x c))
  rw [hd] at hflight hcnt hregs
  rw [xlResult_single hf hp hl]
  have hland : (landed x c).xls[x] = { c.xls[x] with flight := [] } := updXl_at _ _ _
  have hfld : d.fld (xlR x 0x10) 0 16 = c.fld (xlR x 0x10) 0 16 := by
    rw [Chip.fld, hk.reg 0x10 (by decide) (by rintro (h | h) <;> omega)]
    rfl
  refine ⟨⟨?_, hbit, ?_⟩, fun off ho => hregs off (by omega) (by omega)⟩
  · rw [hflight, hk.flight, hland]
  · rw [hcnt, hk.resAt, hk.now, hland, hfld]
    rfl

/-! ### The results of the three modes -/

theorem foc3_spec {f : XlFlight} (hf : c.xls[x].flight = [f]) (hm : f.mode = 1) (hl : f.loop = 0) :
    let d := xlResult x (fun g => g.mode == 1) c
    ResultCounted x c d ∧
    (f.bad = false → ∀ i : Fin 4, (h : i.val < (focOut c x f).ints.length) →
      d.reg (xlR x (0x100 + 4 * i.val)) = wordI (focOut c x f).ints[i]) ∧
    (f.bad = true → ∀ i : Fin 4, d.reg (xlR x (0x100 + 4 * i.val)) = c.reg (xlR x (0x100 + 4 * i.val))) := by
  have hp : (f.mode == 1) = true := by rw [hm]; rfl
  have hdel : xlDeliver x f (landed x c) = xlFocResult x f (landed x c) := by simp only [xlDeliver, hm]
  dsimp only
  cases hb : f.bad with
  | true =>
    have hk := xlFocResult_bad x (landed x c) hb
    obtain ⟨hc, hregs⟩ := xlResult_counted (p := fun g => g.mode == 1) hf hp (by omega) (congrArg Prod.fst hdel)
      (hk.mono singleton_subset_deliveryOffs)
    refine ⟨hc, nofun, fun _ i => ?_⟩
    rw [hregs _ (by omega), hk.reg _ (by omega) (by rw [Set.mem_singleton_iff]; omega)]
    rfl
  | false =>
    obtain ⟨e, fl, hk, he⟩ := xlFocResult_regulates x (landed x c) hb
    have hdk := (hk.mono singleton_subset_deliveryOffs).trans (focDelivered_laneKept (focOut (landed x c) x f) fl (.inl rfl)
      (fun k => .inr (by omega)) (fun k => .inr (by omega)) e)
    obtain ⟨hc, hregs⟩ := xlResult_counted (p := fun g => g.mode == 1) hf hp (by omega) ((congrArg Prod.fst hdel).trans he) hdk
    refine ⟨hc, fun _ i h => ?_, nofun⟩
    rw [hregs _ (by omega)]
    exact focDelivered_ints x (focOut (landed x c) x f) fl e i.isLt h

/-- A loop of SCALAR4 or PEAK2 that delivers the values `o` of its regulator. -/
theorem loopResult_spec {p : XlFlight → Bool} {f : XlFlight} {o : Int × Int} (hf : c.xls[x].flight = [f]) (hp : p f = true)
    (hl : f.loop < 4)
    (hd : ∃ e fl, LaneKept x {4} (landed x c) e ∧ (xlDeliver x f (landed x c)).1 = loopDelivered x f.loop o fl e) :
    let d := xlResult x p c
    ResultCounted x c d ∧ d.reg (xlR x (0x100 + 4 * f.loop)) = wordI o.2 ∧ d.reg (xlR x (0x120 + 4 * f.loop)) = wordI o.1 := by
  obtain ⟨e, fl, hk, he⟩ := hd
  have hdk := (hk.mono singleton_subset_deliveryOffs).trans
    (loopDelivered_laneKept f.loop o fl (.inl rfl) (.inr (by omega)) (.inr (by omega)) e)
  obtain ⟨hc, hregs⟩ := xlResult_counted hf hp hl he hdk
  obtain ⟨hint, hout⟩ := loopDelivered_spec x o fl e hl
  exact ⟨hc, (hregs _ (by omega)).trans hint, (hregs _ (by omega)).trans hout⟩

theorem scalar4_spec {f : XlFlight} {l : Fin 4} (hf : c.xls[x].flight = [f]) (hm : f.mode = 2) (hl : f.loop = l.val)
    (hinv : f.cfg.bit 20 = false) :
    let o := ((xlLoopPi c x f (4 * l.val)).run (false, false)).1
    let d := xlResult x (fun g => g.mode == 2 && g.loop == l.val) c
    ResultCounted x c d ∧ d.reg (xlR x (0x100 + 4 * l.val)) = wordI o.2 ∧ d.reg (xlR x (0x120 + 4 * l.val)) = wordI o.1 := by
  have hdel : xlDeliver x f (landed x c) = xlScalarResult x f (landed x c) := by simp only [xlDeliver, hm]
  have hp : (f.mode == 2 && f.loop == l.val) = true := by simp [hm, hl]
  rw [← hl] at hp ⊢
  exact loopResult_spec hf hp (by omega) (hdel ▸ xlScalarResult_eq x (landed x c) hinv)

theorem peak2_spec {f : XlFlight} {l : Fin 2} (hf : c.xls[x].flight = [f]) (hm : f.mode = 3) (hl : f.loop = l.val) :
    let o := ((xlLoopPi c x f (5 * l.val)).run (false, false)).1
    let d := xlResult x (fun g => g.mode == 3 && g.loop == l.val) c
    ResultCounted x c d ∧ d.reg (xlR x (0x100 + 4 * l.val)) = wordI o.2 ∧ d.reg (xlR x (0x120 + 4 * l.val)) = wordI o.1 := by
  have hdel : xlDeliver x f (landed x c) = xlPeakResult x f (landed x c) := by simp only [xlDeliver, hm]
  have hp : (f.mode == 3 && f.loop == l.val) = true := by simp [hm, hl]
  rw [← hl] at hp ⊢
  exact loopResult_spec hf hp (by omega) (hdel ▸ xlPeakResult_eq x f (landed x c))

end

/-! ### The statement -/

/-- Settles O41: the writes of XL_CFG, the end of a cycle by its stages, the held records, the results of the three modes, and
IRST. -/
theorem laneResults : Obligations.LaneResults := by
  unfold Obligations.LaneResults
  intro s ini x l lp v f r hr c xl q slot counted foc pi
  refine ⟨fun hg hs => ⟨fun h0 h1 => ?_, fun h0 h1 => ?_, fun h1 => ?_⟩,
    fun ht => ⟨xlEnd_off ht, xlEnd_irst ht, xlEnd_takesInts ht⟩, ?_, xlEnd_windowPasses, fun ha hb hh => ?_,
    fun hf => ⟨fun hm hl => ?_, fun hm hl hinv => ?_, fun hm hl => ?_⟩, fun hg hv => ?_⟩
  · exact goes_gatedWrite hr rfl hg (xlCfgWrite_enable (c := c.ack) hs h0 h1)
  · exact goes_setsReg hr rfl hg (xlCfgWrite_enabled (c := c.ack) hs h0 h1)
  · exact goes_setsReg hr rfl hg (xlCfgWrite_disable (c := c.ack) hs h1)
  · exact goes_onChip hr rfl ⟨updXl_at _ _ _, rfl⟩
  · rw [xlTogether_replaces ha hb hh, heldDropped_record]
    exact ⟨rfl, rfl, heldDropped_pairf x c⟩
  · exact goes_onChip hr rfl (foc3_spec hf hm hl)
  · exact goes_onChip hr rfl (scalar4_spec hf hm hl hinv)
  · exact goes_onChip hr rfl (peak2_spec hf hm hl)
  · refine goes_gatedWrite hr rfl hg ?_
    have hirst : xlCtlWrite x v c.ack = updXl x (fun y => { y with irstAt := some c.now }) c.ack := if_pos hv
    rw [State.after_chip, hirst, updXl_at]
    exact ⟨rfl, rfl⟩

end Sys2Proof.Machine

/-! PROOFS. The Pea store: the reasoning rules (09 R218 to R229). What a read that meets errors leaves alone, the two error words of a
Pea word, and what each operation of the store does to its words. -/

namespace Sys2Proof.Machine

/-! ### Errors met by a read (15 R341, R342) -/

/-- `d` is `c` but for what the errors that a read meets bring: their count and log, and the faults they raise. -/
def ErrorsOnly (c d : Chip) : Prop := ∃ r h k sl a v f e x,
  d = { c with regs := r, hwset := h, counted := k, slices := sl, agenda := a, evm := v, flt := f, ecc := e, run := x }

section
variable {c d e : Chip}

theorem ErrorsOnly.refl (c : Chip) : ErrorsOnly c c := ⟨_, _, _, _, _, _, _, _, _, rfl⟩

theorem ErrorsOnly.trans (h : ErrorsOnly c d) (h' : ErrorsOnly d e) : ErrorsOnly c e := by
  obtain ⟨_, _, _, _, _, _, _, _, _, rfl⟩ := h
  obtain ⟨_, _, _, _, _, _, _, _, _, rfl⟩ := h'
  exact ⟨_, _, _, _, _, _, _, _, _, rfl⟩

theorem ErrorsOnly.pea (h : ErrorsOnly c d) : d.pea = c.pea := by
  obtain ⟨_, _, _, _, _, _, _, _, _, rfl⟩ := h
  rfl

theorem ErrorsOnly.peaBus (h : ErrorsOnly c d) : d.peaBus = c.peaBus := by
  obtain ⟨_, _, _, _, _, _, _, _, _, rfl⟩ := h
  rfl

theorem ErrorsOnly.cores (h : ErrorsOnly c d) : d.cores = c.cores := by
  obtain ⟨_, _, _, _, _, _, _, _, _, rfl⟩ := h
  rfl

theorem FaultOnly.errorsOnly (h : FaultOnly c d) : ErrorsOnly c d := by
  obtain ⟨_, _, _, _, _, _, rfl⟩ := h
  exact ⟨_, _, _, _, _, _, _, _, _, rfl⟩

theorem ErrorsOnly.ite (p : Prop) [Decidable p] (h : ErrorsOnly c d) (h' : ErrorsOnly c e) : ErrorsOnly c (if p then d else e) := by
  split
  · exact h
  · exact h'
end

theorem portUse_errorsOnly (k : Nat) (c : Chip) : ErrorsOnly c (portUse k c) := by
  obtain ⟨e, -, h⟩ := portUse_portsOnly k c
  rw [h]
  exact ⟨_, _, _, _, _, _, _, _, _, rfl⟩

/-- An error is counted at `a` and logged. -/
theorem eccCounted_errorsOnly (a id addr : Nat) (ue scrub : Bool) (c : Chip) :
    ErrorsOnly c (eccLog id addr ue scrub (c.satInc a 0 32)) := ⟨_, _, _, _, _, _, _, _, _, rfl⟩

theorem eccFatal_errorsOnly (id addr : Nat) (scrub : Bool) (c : Chip) : ErrorsOnly c (eccFatal id addr scrub c) := by
  unfold eccFatal
  split
  · exact ⟨_, _, _, _, _, _, _, _, _, rfl⟩
  · exact (eccCounted_errorsOnly _ id addr true scrub c).trans (raiseFault_faultOnly _ _ _).errorsOnly

theorem eccCorrected_errorsOnly (id addr key : Nat) (scrub : Bool) (c : Chip) :
    ErrorsOnly c (eccCorrected id addr key scrub c) := by
  unfold eccCorrected
  split
  · exact ⟨_, _, _, _, _, _, _, _, _, rfl⟩
  · dsimp only
    have hcount := eccCounted_errorsOnly (memR 0x48) id addr false scrub c
    have hraised (detail : Word) := hcount.trans
      ((setBits_faultOnly (memR 0x54) 1 _).trans (raiseFault_faultOnly 142 detail _)).errorsOnly
    have hfix (d : Chip) : ErrorsOnly d (d.schedule 1 (.eccFix key (d.now + 1))) :=
      (schedule_eventsOnly _ _ d).faultOnly.errorsOnly
    exact .ite _ (.ite _ (hraised _) hcount) (.trans (.ite _ (hraised _) hcount) (hfix _))

theorem eccRead_errorsOnly (k n : Nat) (c : Chip) : ErrorsOnly c (eccRead k n c).2 := by
  refine List.foldlRecOn (motive := fun r : Bool × Chip => ErrorsOnly c r.2) _ _ (portUse_errorsOnly k c) fun r hr w _ => ?_
  split
  · exact hr.trans (eccFatal_errorsOnly _ _ _ _)
  · exact hr.trans (eccCorrected_errorsOnly _ _ _ _ _)
  · exact hr

theorem placeWord_errorsOnly (p : MemPlace) (c : Chip) : ErrorsOnly c (placeWord p c).2 := by
  cases p with
  | rom off => exact .refl c
  | mem key =>
    simp only [placeWord]
    split
    · exact eccRead_errorsOnly key 4 c
    · exact (setBits_faultOnly _ _ c).errorsOnly

/-! ### Words of the store (R218) -/

section
variable {c d : Chip} {w u k : Nat} {v : Word} {x : PeaWord}

theorem peaGet_congr (h : d.pea = c.pea) (w : Nat) : peaGet d w = peaGet c w := by rw [peaGet, peaGet, h]

@[simp] theorem peaGet_peaPut_self (w : Nat) (x : PeaWord) (c : Chip) : peaGet (peaPut w x c) w = x := aread_aset_self _ _ _ _

theorem peaGet_peaPut_ne (x : PeaWord) (c : Chip) (h : u ≠ w) : peaGet (peaPut w x c) u = peaGet c u := aread_aset_ne _ _ _ _ h

/-- The registers of the store stand below those that raising a fault writes. -/
theorem raiseFault_reg_below {a i : Nat} (detail : Word) (c : Chip) (hl : fltListed i = true) (ha : a < sysR 0) :
    (raiseFault i detail c).reg a = c.reg a := by
  simp only [sysR] at ha
  rw [raiseFault_reg i detail c hl (by simp only [cmdStatR]; omega) (by simp only [cmdR]; omega),
    Chip.reg_setBits_ne _ _ (by simp only [fltPendR, sysR]; omega)]

/-- What a dropped write and a word in error leave: bit `j` of PEA_STAT, PEA_FLTW, and fault source `i` (R226, R229). -/
def peaNoted (i j w k : Nat) (c : Chip) : Chip :=
  raiseFault i (fltwVal w k) ((c.setBits peaStatR (2 ^ j)).setReg peaFltwR (fltwVal w k))

theorem peaEccMet_eq (w : Nat) (c : Chip) : peaEccMet w c = peaNoted 30 3 w 0x3F c := rfl

theorem peaNonOwner_eq (w k : Nat) (c : Chip) : peaNonOwner w k c = peaNoted 29 0 w k c := rfl

theorem peaNoted_faultOnly (i j w k : Nat) (c : Chip) : FaultOnly c (peaNoted i j w k c) :=
  FaultOnly.trans ⟨_, _, _, _, _, _, rfl⟩ (raiseFault_faultOnly i _ _)

theorem peaNoted_pea (i j w k : Nat) (c : Chip) : (peaNoted i j w k c).pea = c.pea := (peaNoted_faultOnly i j w k c).errorsOnly.pea

theorem peaNoted_stat {i j : Nat} (w k : Nat) (c : Chip) (hl : fltListed i = true) (hj : j < 32) :
    (peaNoted i j w k c).bit peaStatR j = true := by
  rw [peaNoted, Chip.bit, raiseFault_reg_below _ _ hl (by decide), Chip.reg_setReg_ne _ _ (by decide)]
  exact Chip.bit_setBits_pow c peaStatR hj

theorem peaNoted_fltw {i : Nat} (j w k : Nat) (c : Chip) (hl : fltListed i = true) :
    (peaNoted i j w k c).reg peaFltwR = fltwVal w k := by
  rw [peaNoted, raiseFault_reg_below _ _ hl (by decide), Chip.reg_setReg_self]

theorem fltwVal_of_lt {j : Nat} (h : w < 512) (hk : k % 64 = j) : fltwVal w k = BitVec.ofNat 32 (w + 2 ^ 9 * j + 2 ^ 15) := by
  rw [fltwVal, Nat.mod_eq_of_lt h, hk]

theorem peaRead_errorsOnly (w : Nat) (c : Chip) : ErrorsOnly c (peaRead w c).2 := by
  have hread := eccRead_errorsOnly (peaVKey w) 4 c
  unfold peaRead
  dsimp only
  split
  · exact hread
  · exact hread.trans (peaNoted_faultOnly 30 3 w 0x3F _).errorsOnly

/-! ### The error words of a Pea word (R229) -/

theorem memAt_pea (hlo : 0x21000000 ≤ k) (hhi : k < 0x21001000) : memAt k = some (0x29, 0x21000000, 4) := by
  unfold memAt
  rw [if_neg (by omega), if_neg (by omega), if_pos ⟨hlo, hhi⟩]

/-- The four bytes of V lie in one error word, which begins with them. -/
theorem eccWord_peaVKey {i : Nat} (hw : w < 512) (hi : i < 4) : (eccWord (peaVKey w + i)).1 = peaVKey w := by
  simp only [eccWord, peaVKey]
  rw [memAt_pea (by omega) (by omega)]
  dsimp only
  omega

/-- A read of V fails exactly for a double-bit error. -/
theorem eccRead_peaVKey (c : Chip) (hw : w < 512) : (eccRead (peaVKey w) 4 c).1 = (eccErr c (peaVKey w) != some true) := by
  have hwords : ((List.range 4).map (fun i => (eccWord (peaVKey w + i)).1)).dedup = [peaVKey w] := by
    rw [List.map_eq_replicate_iff.2 fun i hi => eccWord_peaVKey hw (List.mem_range.1 hi)]
    exact List.replicate_dedup (by decide)
  have herr : eccErr (portUse (peaVKey w) c) (peaVKey w) = eccErr c (peaVKey w) := by
    rw [eccErr, (portUse_portsOnly _ c).bad, eccErr]
  have hmem : memAt (peaVKey w) = some (0x29, 0x21000000, 4) := memAt_pea (by simp only [peaVKey]; omega) (by simp only [peaVKey]; omega)
  simp only [eccRead, hwords, List.foldl_cons, List.foldl_nil, hmem, herr]
  rcases eccErr c (peaVKey w) with - | - | - <;> rfl

/-- V as read where it holds no double-bit error. -/
theorem peaRead_value (c : Chip) (hw : w < 512) (h : eccErr c (peaVKey w) ≠ some true) :
    (peaRead w c).1 = some (peaGet c w).v := by
  have hread : (eccRead (peaVKey w) 4 c).1 = true := by rw [eccRead_peaVKey c hw]; exact bne_iff_ne.2 h
  have hv : peaGet (eccRead (peaVKey w) 4 c).2 w = peaGet c w := peaGet_congr (eccRead_errorsOnly _ _ c).pea w
  simp only [peaRead, hread, if_true, hv]

/-- A double-bit error gives no value, and is noted (R229). -/
theorem peaRead_failed (c : Chip) (hw : w < 512) (h : eccErr c (peaVKey w) = some true) :
    peaRead w c = (none, peaNoted 30 3 w 0x3F (eccRead (peaVKey w) 4 c).2) := by
  have hread : (eccRead (peaVKey w) 4 c).1 = false := by rw [eccRead_peaVKey c hw, h]; rfl
  simp only [peaRead, hread, Bool.false_eq_true, if_false, peaEccMet_eq]
end

end Sys2Proof.Machine

/-! PROOFS. The allocation of Pea words (09 R227, R228): the judgement of a write of PEA_ALLOC, and S := V at the end of its cycle. -/

namespace Sys2Proof.Machine

section
variable {c d : Chip} {w u : Nat} {v : Word}

/-! ### The judgement of a write (R227, R228) -/

/-- The two reasons of R227, the first for loop engines alone. -/
theorem allocRefused_iff (w : Nat) (v : Word) : allocRefused w v = true ↔
    (v.fld 0 6 < 24 ∧ w / 64 ≠ v.fld 0 6 / 3) ∨ (v.fld 0 6 < 24 ∧ v.fld 10 4 ≠ v.fld 0 6 / 2) ∨
      (24 ≤ v.fld 0 6 ∧ v.fld 0 6 < 36 ∧ v.fld 10 4 ≠ v.fld 0 6 - 24) := by
  unfold allocRefused
  dsimp only
  split
  · simp; omega
  · split
    · simp; omega
    · simp; omega

/-- R228 lets a write of PEA_ALLOC through to the judgement of R227. -/
def allocOpen (ini : Initiator) (w : Nat) (v : Word) (c : Chip) : Prop :=
  c.sealed = false ∨ (ini = .mge ∧ liveOn c (peaPart c w) = true ∧ v.fld 10 4 = peaPart c w)

theorem peaAllocWrite_judged {ini : Initiator} (h : allocOpen ini w v c) :
    peaAllocWrite ini w v c = if allocRefused w v then c.setBits peaStatR (2 ^ 2)
      else updPeaBus (fun b => { b with allocs := b.allocs ++ [w] }) (c.setReg (peaAllocR w) (v &&& 0x3FFF)) := by
  refine if_neg fun hshut => ?_
  rcases h with h | ⟨hini, hlive, hpart⟩
  · simp [h] at hshut
  · simp [hini, hlive, hpart] at hshut

/-! ### What the steps of a cycle's end leave of the new allocations (R230) -/

theorem peaCmtWrite_allocs (k : Nat) (v : Word) (c : Chip) : (peaCmtWrite k v c).peaBus.allocs = c.peaBus.allocs := by
  unfold peaCmtWrite
  dsimp only
  split <;> rfl

theorem peaServe_allocs (r : PeaReq) (c : Chip) : (peaServe r c).peaBus.allocs = c.peaBus.allocs := by
  unfold peaServe
  dsimp only
  split
  · rfl
  next w _ _ =>
    have hread := congrArg PeaBus.allocs (peaRead_errorsOnly w (updPeaBus (fun b => { b with reqs := b.reqs.erase r }) c)).peaBus
    generalize peaRead w (updPeaBus (fun b => { b with reqs := b.reqs.erase r }) c) = x at hread
    split
    · split <;> exact hread
    · exact hread
  · exact peaCmtWrite_allocs _ _ _
  · rfl

theorem peaBanks_allocs (c : Chip) : (peaBanks c).peaBus.allocs = c.peaBus.allocs := by
  refine foldl_keeps (·.peaBus.allocs) _ (fun d b => ?_) _ c
  generalize peaTake c b = taken
  cases taken with
  | none => rfl
  | some r =>
    refine (peaServe_allocs r _).trans ?_
    split <;> rfl

theorem peaCommitWord_peaBus (w : Nat) (c : Chip) : (peaCommitWord w c).peaBus = c.peaBus := by
  have hread := (eccRead_errorsOnly (peaSKey w) 4 c).peaBus
  unfold peaCommitWord
  generalize eccRead (peaSKey w) 4 c = r at hread
  dsimp only
  split
  · exact hread
  · exact (peaNoted_faultOnly 30 3 w 0x3F _).errorsOnly.peaBus.trans hread

theorem peaCommits_peaBus (c : Chip) : (peaCommits c).peaBus = c.peaBus := by
  refine foldl_keeps (·.peaBus) _ (fun d e => ?_) _ c
  split
  · exact peaCommitWord_peaBus e.1 d
  · rfl

/-! ### S := V (R227) -/

theorem peaAllocSet_pea (w : Nat) (c : Chip) :
    (peaAllocSet w c).pea = (peaPut w { peaGet c w with sh := (peaGet c w).v, pend := false } c).pea := by
  unfold peaAllocSet
  dsimp only
  split <;> rfl

theorem peaGet_peaAllocSet_self (w : Nat) (c : Chip) :
    peaGet (peaAllocSet w c) w = { peaGet c w with sh := (peaGet c w).v, pend := false } := by
  rw [peaGet_congr (peaAllocSet_pea w c), peaGet_peaPut_self]

theorem peaGet_peaAllocSet_ne (c : Chip) (h : u ≠ w) : peaGet (peaAllocSet w c) u = peaGet c u := by
  rw [peaGet_congr (peaAllocSet_pea w c), peaGet_peaPut_ne _ c h]

/-- Word `w` holds no pending value. -/
def peaClear (w : Nat) (c : Chip) : Prop := (peaGet c w).sh = (peaGet c w).v ∧ (peaGet c w).pend = false

theorem peaClear_peaAllocSet_self (w : Nat) (c : Chip) : peaClear w (peaAllocSet w c) := by
  rw [peaClear, peaGet_peaAllocSet_self]
  exact ⟨rfl, rfl⟩

/-- The allocation of another word leaves this one clear. -/
theorem peaClear_peaAllocSet (h : peaClear w c) (u : Nat) : peaClear w (peaAllocSet u c) := by
  by_cases e : w = u
  · exact e ▸ peaClear_peaAllocSet_self w c
  · rwa [peaClear, peaGet_peaAllocSet_ne c e]

theorem peaClear_allocSets {xs : List Nat} (h : w ∈ xs) (c : Chip) :
    peaClear w (xs.foldl (fun c u => peaAllocSet u c) c) := by
  obtain ⟨before, after, rfl⟩ := List.append_of_mem h
  rw [List.foldl_append, List.foldl_cons]
  exact List.foldlRecOn after _ (peaClear_peaAllocSet_self w _) fun _ hd u _ => peaClear_peaAllocSet hd u

/-- A newly allocated word is clear once the cycle has ended. -/
theorem peaClear_peaEnd (h : w ∈ c.peaBus.allocs) : peaClear w (peaEnd c) := by
  have hserved : (if c.peaBus.reqs.isEmpty then c else peaBanks c).peaBus.allocs = c.peaBus.allocs := by
    split
    · rfl
    · exact peaBanks_allocs c
  unfold peaEnd
  dsimp only
  refine peaClear_allocSets ?_ _
  rwa [peaCommits_peaBus, hserved]
end

/-! ### The statement -/

/-- Settles O43: the judgement of the write, and the allocations at the end of its cycle. -/
theorem allocationRule : Obligations.AllocationRule := by
  unfold Obligations.AllocationRule
  intro s ini w v hr c owner part refused hg hopen
  have hjudged := peaAllocWrite_judged (c := s.chip.ack) hopen
  have hstat : peaAllocR w ≠ peaStatR := by simp only [peaAllocR, peaStatR]; omega
  refine ⟨fun href => ?_, fun hacc => ?_⟩
  · refine goes_write hr rfl hg (hjudged.trans (if_pos ((allocRefused_iff w v).2 href))) ?_
    exact ⟨Chip.reg_setBits_ne _ _ hstat, Chip.bit_setBits_pow _ _ (by decide), rfl, rfl,
      fun a ha => Chip.reg_setBits_ne _ _ (by simpa using ha)⟩
  · refine goes_write hr rfl hg (hjudged.trans (if_neg (mt (allocRefused_iff w v).1 hacc))) ?_
    exact ⟨Chip.reg_setReg_self _ _ _, rfl, fun a ha => Chip.reg_setReg_ne _ _ (by simpa using ha),
      peaClear_peaEnd (List.mem_append_right _ (List.mem_singleton_self w.val))⟩

end Sys2Proof.Machine

/-! PROOFS. Loop engines and the Pea store: LE_CTL (09 R213), and what waits at the banks, is served and lands, and the commits
(09 R218 to R229). -/

namespace Sys2Proof.Machine

/-! ### LE_CTL (R213) -/

section
variable {c d : Chip} {n : Fin 24} {v : Word}

theorem goes_leRun {s : State} {ini : Initiator} (hr : s.inRun) (hg : s.chip.grants ini (leR n 0) true) :
    Goes (.leRun ini n v) s fun t => t.chip.reg (leR n 0) = v &&& 1 ∧ RegsBut s t [leR n 0] ∧
      (s.chip.bit (leR n 0) 0 = true → v.bit 0 = false → (coreGet t.chip (.le n)).stopDue ≠ none) := by
  refine goes_gatedWrite hr rfl hg ?_
  have hregs : (leCtlWrite n v s.chip.ack).regs = (s.chip.setReg (leR n 0) (v &&& 1)).regs := by
    unfold leCtlWrite
    dsimp only
    split <;> rfl
  refine ⟨(Chip.reg_congr hregs _).trans (Chip.reg_setReg_self _ _ _),
    fun a ha => (Chip.reg_congr hregs a).trans (Chip.reg_setReg_ne _ _ (by simpa using ha)), fun hrun hstop => ?_⟩
  have hfall : (s.chip.ack.bit (leR n 0) 0 && !v.bit 0) = true := by
    rw [hstop, show s.chip.ack.bit (leR n 0) 0 = true from hrun]
    rfl
  simp only [State.after_chip, leCtlWrite, hfall, if_true, coreGet_updCore]
  exact nofun

/-- The core's fetches find nothing in a store buffer, which a loop engine has not, so a vector fetch only reads. -/
theorem vectorWord_le_errorsOnly (n : Fin 24) (b : Fin 8) (x : Nat) (c : Chip) : ErrorsOnly c (vectorWord (.le n) b x c).2 := by
  have hdrain : drainStores (.le n) c = c := rfl
  simp only [vectorWord, hdrain]
  split
  · exact .refl c
  · split
    · exact placeWord_errorsOnly _ c
    · exact .refl c

theorem updBank_inReset (k : CoreId) (b : Fin 8) (f : BankS → BankS) (c : Chip) :
    (coreGet (updBank k b f c) k).inReset = (coreGet c k).inReset := by
  rw [updBank, coreGet_updCore]

theorem coreGet_congr (h : d.cores = c.cores) (k : CoreId) : coreGet d k = coreGet c k := by rw [coreGet, coreGet, h]

/-- A core out of core reset, its banks at their entry PCs (11 R250). -/
def banksEntered (k : CoreId) (c : Chip) : Chip :=
  (List.finRange 8).foldl (fun (c : Chip) (b : Fin 8) => updBank k b (fun x => { x with pc := c.reg (bankEntryR k b) }) c)
    (updCore k (fun s => { s with inReset := false }) c)

theorem banksEntered_inReset (k : CoreId) (c : Chip) : (coreGet (banksEntered k c) k).inReset = false := by
  rw [banksEntered, foldl_keeps (fun c => (coreGet c k).inReset) _ (fun c b => updBank_inReset k b _ c), coreGet_updCore]

/-- A loop engine that is released enters its banks, and bank 0 takes its PC from the vector or an open value. -/
theorem coreRelease_le (h : (coreGet c (.le n)).inReset = true) : ∃ pc d, d.cores = (banksEntered (.le n) c).cores ∧
    coreRelease (.le n) c = updBank (.le n) 0 (fun x => { x with pc := pc }) d := by
  have hvector := (vectorWord_le_errorsOnly n 0 0 (banksEntered (.le n) c)).cores
  simp only [coreRelease, eachLane_same (k := .le n) _ (fun h => nomatch h), h, Bool.not_true, Bool.false_eq_true, if_false]
  rw [← banksEntered]
  generalize vectorWord (.le n) 0 0 (banksEntered (.le n) c) = r at hvector
  obtain ⟨word, d⟩ := r
  cases word with
  | none => exact ⟨_, d.free.2, hvector, rfl⟩
  | some pc => exact ⟨pc, d, hvector, rfl⟩

theorem coreRelease_le_inReset (h : (coreGet c (.le n)).inReset = true) :
    (coreGet (coreRelease (.le n) c) (.le n)).inReset = false := by
  obtain ⟨pc, d, hcores, hrelease⟩ := coreRelease_le h
  rw [hrelease, updBank_inReset, coreGet_congr hcores, banksEntered_inReset]

/-- The engine leaves core reset at the cycle's end while RUN is set. -/
theorem leTurn_released (hs : (coreGet c (.le n)).stopDue = none) (hreset : (coreGet c (.le n)).inReset = true)
    (hrun : c.bit (leR n 0) 0 = true) : (coreGet (leTurn n c) (.le n)).inReset = false := by
  have hturn : leTurn n c = coreRelease (.le n) c := by simp only [leTurn, hs, hreset, hrun, Bool.and_self, if_true]
  rw [hturn, coreRelease_le_inReset hreset]

theorem coreReset_le_inReset (n : Fin 24) (unlock : Bool) (c : Chip) :
    (coreGet (coreReset (.le n) unlock c) (.le n)).inReset = true := by
  simp only [coreReset, reduceCtorEq, if_false, coreGet_updCore, CoreS.reset]

theorem aget_filter {α : Type} {p : Nat × α → Bool} {a : Nat} (h : ∀ v, p (a, v) = true) (xs : List (Nat × α)) :
    aget (xs.filter p) a = aget xs a := by
  induction xs with
  | nil => rfl
  | cons e xs ih =>
    obtain ⟨k, v⟩ := e
    by_cases hk : k = a
    · subst hk
      simp [h, aget]
    · rw [List.filter_cons]
      split <;> simp [aget, hk, ih]

/-- Core reset leaves the registers that are not the core's own (11 R250, 13 R322). -/
theorem coreReset_le_reg (n : Fin 24) (unlock : Bool) (c : Chip) {a : Nat} (ha : a < 2 ^ 32) :
    (coreReset (.le n) unlock c).reg a = c.reg a := by
  have hbase : ¬ privBase (.le n) ≤ a := by simp only [privBase]; omega
  have hfilter : (coreReset (.le n) unlock c).reg a = (privReset (.le n) (c.sealed && !unlock) c).reg a := by
    simp only [coreReset, reduceCtorEq, if_false]
    rfl
  rw [hfilter]
  simp only [Chip.reg, aread, privReset]
  rw [aget_filter (by simp [hbase])]

/-- A stop that is due puts the engine in core reset at the cycle's end, where it stays while RUN is clear. -/
theorem leTurn_stopped (hs : (coreGet c (.le n)).stopDue ≠ none) (hrun : c.bit (leR n 0) 0 = false) :
    (coreGet (leTurn n c) (.le n)).inReset = true := by
  obtain ⟨unlock, hs⟩ := Option.ne_none_iff_exists'.1 hs
  have haddr : leR n 0 < 2 ^ 32 := by simp only [leR, slR]; omega
  have hstill : (coreReset (.le n) unlock c).bit (leR n 0) 0 = false := by
    rw [Chip.bit, coreReset_le_reg n unlock c haddr]
    exact hrun
  have hturn : leTurn n c = coreReset (.le n) unlock c := by
    simp only [leTurn, hs, hstill, Bool.and_false, Bool.false_eq_true, if_false]
  rw [hturn, coreReset_le_inReset]

theorem coreLive_inReset {k : CoreId} (h : (coreGet c k).inReset = true) : coreLive c k = false := by
  simp only [coreLive, h, Bool.not_true, Bool.false_and]
end

/-! ### What waits at the banks (R219 to R221, R223) -/

/-- `d` is `c` with one request more at the banks, its access acknowledged. -/
structure Asked (q : PeaReq) (c d : Chip) : Prop where
  bus : d.peaBus = { c.peaBus with reqs := c.peaBus.reqs ++ [q] }
  resp : d.resp = { ok := true, data := [] }
  pea : d.pea = c.pea
  regs : d.regs = c.regs

section
variable {c d : Chip} {w : Nat} {v : Word} {ini : Initiator} {wr : Option Word}

theorem asked_peaAsk (i code : Nat) (word : Option Nat) (wr : Option Word) (c : Chip) :
    Asked ⟨i, code, c.now, word, wr, true, peaLive c word⟩ c (peaAsk i code word wr true c.ack) := by
  cases word <;> exact ⟨rfl, rfl, rfl, rfl⟩

theorem peaCodeOf_ack (c : Chip) (ini : Initiator) : peaCodeOf c.ack ini = peaCodeOf c ini := by cases ini <;> rfl

theorem peaPort_home (wr : Option Word) (c : Chip) {n : Fin 24} (h : w / 64 = n.val / 3) :
    peaPort n w wr true c = peaAsk (iniIx (.le n)) n.val (some w) wr true c.ack := if_pos h

theorem peaPort_outside (wr : Option Word) (c : Chip) {n : Fin 24} (h : w / 64 ≠ n.val / 3) :
    peaPort n w wr true c = (c.setBits (leR n 4) 0x100).err := if_neg h

/-- A shared requester that has no read to take is asked for (R221). -/
theorem peaShared_asks (hle : ∀ m, ini ≠ .le m) (hg : c.grants ini (0x21000000 + 4 * w) wr.isSome)
    (hf : wr = none → peaFetch (iniIx ini) w c = none) :
    peaShared ini w wr c = peaAsk (iniIx ini) (peaCodeOf c ini) (some w) wr true c.ack := by
  have hok : verdict c ini (0x21000000 + 4 * w) wr.isSome = .ok := hg
  cases wr with
  | none =>
    have hnothing := hf rfl
    cases ini
    case le m => exact absurd rfl (hle m)
    all_goals simp only [peaShared, hok, hnothing]
  | some v =>
    cases ini
    case le m => exact absurd rfl (hle m)
    all_goals simp only [peaShared, hok]

theorem peaCmtPut_shared (v : Word) (c : Chip) (hle : ∀ m, ini ≠ .le m) : peaCmtPut ini v c = peaCmtWrite (peaCodeOf c ini) v c := by
  cases ini
  case le m => exact absurd rfl (hle m)
  all_goals rfl

/-! ### Service (R218 to R221) -/

/-- In its frame cycle a bank takes the access that its loop engine made before. -/
theorem peaTake_port {n : Fin 24} {r : PeaReq} (hframe : c.capTime.toNat % 4 = n.val % 3) (hr : c.peaBus.reqs = [r])
    (hc : r.code = n.val) (ha : r.asked < c.now) : peaTake c (Fin.ofNat 8 (n.val / 3)) = some r := by
  have hbank : (Fin.ofNat 8 (n.val / 3)).val = n.val / 3 := Nat.mod_eq_of_lt (by omega)
  have hn : 3 * (n.val / 3) + n.val % 3 = n.val := Nat.div_add_mod _ _
  have hlt : n.val % 3 < 3 := Nat.mod_lt _ (by decide)
  simp only [peaTake, hframe, hlt, if_true, hbank, hn, peaHead, hr]
  simp [hc, ha]

/-- A served write waits for the end of the cycle. -/
theorem peaServe_write {r : PeaReq} (hw : r.word = some w) (hv : r.wr = some v) (c : Chip) :
    (peaServe r c).peaBus.lands = c.peaBus.lands ++ [(peaWriter r, w, v)] ∧ (peaServe r c).pea = c.pea := by
  simp only [peaServe, hw, hv]
  exact ⟨rfl, rfl⟩

/-- The chip while `r` is served. -/
def peaServing (r : PeaReq) (c : Chip) : Chip := updPeaBus (fun b => { b with reqs := b.reqs.erase r }) c

theorem eccErr_peaServing (r : PeaReq) (c : Chip) (k : Nat) : eccErr (peaServing r c) k = eccErr c k := rfl

theorem peaGet_peaServing (r : PeaReq) (c : Chip) (w : Nat) : peaGet (peaServing r c) w = peaGet c w := rfl

/-- A served read of a command answers with the value read, or with an error. -/
theorem peaServe_read {r : PeaReq} (hw : r.word = some w) (hv : r.wr = none) (hc : r.cmd = true) (c : Chip) :
    (peaServe r c).pea = c.pea ∧ (∀ v, (peaRead w (peaServing r c)).1 = some v → (peaServe r c).resp = { ok := true, data := [v] }) ∧
      ((peaRead w (peaServing r c)).1 = none → peaServe r c = (peaRead w (peaServing r c)).2.err) := by
  have hpea := (peaRead_errorsOnly w (peaServing r c)).pea
  simp only [peaServe, hw, hv, hc, if_true]
  rw [← peaServing]
  generalize peaRead w (peaServing r c) = x at hpea
  obtain ⟨value, d⟩ := x
  cases value with
  | none => exact ⟨hpea, nofun, fun _ => rfl⟩
  | some u =>
    refine ⟨hpea, ?_, nofun⟩
    rintro _ ⟨rfl⟩
    rfl

theorem peaServe_read_value {r : PeaReq} (hw : r.word = some w) (hv : r.wr = none) (hc : r.cmd = true) (hlt : w < 512)
    (he : eccErr c (peaVKey w) ≠ some true) : (peaServe r c).resp = { ok := true, data := [(peaGet c w).v] } := by
  obtain ⟨-, hvalue, -⟩ := peaServe_read hw hv hc c
  exact hvalue _ (peaGet_peaServing r c w ▸ peaRead_value (peaServing r c) hlt (by rwa [eccErr_peaServing]))

theorem Chip.reg_err (c : Chip) (a : Nat) : c.err.reg a = c.reg a := rfl

theorem Chip.bit_err (c : Chip) (a i : Nat) : c.err.bit a i = c.bit a i := rfl

/-- A read that finds a double-bit error ends with an error response, and the word is noted (R229). -/
theorem peaServe_read_failed {r : PeaReq} (hw : r.word = some w) (hv : r.wr = none) (hc : r.cmd = true) (hlt : w < 512)
    (he : eccErr c (peaVKey w) = some true) : (peaServe r c).resp = { ok := false, data := [] } ∧
      (peaServe r c).bit peaStatR 3 = true ∧ (peaServe r c).reg peaFltwR = fltwVal w 0x3F := by
  have hread := peaRead_failed (peaServing r c) hlt (by rwa [eccErr_peaServing])
  obtain ⟨-, -, hfail⟩ := peaServe_read hw hv hc c
  rw [hfail (congrArg Prod.fst hread), hread, Chip.bit_err, Chip.reg_err]
  exact ⟨rfl, peaNoted_stat w 0x3F _ rfl (by decide), peaNoted_fltw 3 w 0x3F _ rfl⟩
end

end Sys2Proof.Machine

/-! PROOFS. Pea words at the end of a cycle: the writes that land, explicit commits, and what a commit copies (09 R222 to R226). -/

namespace Sys2Proof.Machine

section
variable {c d : Chip} {w u k : Nat} {v : Word} {p : Nat → Bool}

/-! ### Writes that land (R225, R226) -/

/-- Of the words of the store only `w` may differ in `d`, which holds `x`; the registers are those of `c`. -/
structure WordPut (w : Nat) (x : PeaWord) (c d : Chip) : Prop where
  word : peaGet d w = x
  others : ∀ u, u ≠ w → peaGet d u = peaGet c u
  regs : d.regs = c.regs

theorem peaPut_wordPut (w : Nat) (x : PeaWord) (h : d.pea = c.pea) (hr : d.regs = c.regs) : WordPut w x c (peaPut w x d) :=
  ⟨peaGet_peaPut_self w x d, fun _ hu => (peaGet_peaPut_ne x d hu).trans (peaGet_congr h _), hr⟩

/-- A write of a word whose V holds no double-bit error only clears its error words. -/
theorem peaRestore_clears (h : eccErr c (peaVKey w) ≠ some true) :
    peaRestore w c = eccClear (peaVKey w) (eccClear (peaSKey w) c) := by
  have hgood : (eccErr c (peaVKey w) == some true) = false := beq_eq_false_iff_ne.2 h
  simp only [peaRestore, hgood, Bool.false_eq_true, if_false]

/-- The owner's write lands in S and sets pending. -/
theorem peaLand_owner (v : Word) (ho : peaOwner c w = k) (hk : k < 0x28) (he : eccErr c (peaVKey w) ≠ some true) :
    WordPut w { peaGet c w with sh := v, pend := true } c (peaLand k w v c) := by
  have hmge : ¬ (k = 0x28 ∨ k = liveCode) := by simp only [liveCode]; omega
  have hland : peaLand k w v c =
      peaPut w { peaGet c w with sh := v, pend := true } (eccClear (peaVKey w) (eccClear (peaSKey w) c)) := by
    rw [peaLand, if_neg hmge, if_pos ⟨ho, by omega⟩, peaRestore_clears he]
    rfl
  rw [hland]
  exact peaPut_wordPut w _ rfl rfl

/-- A write by any other is dropped and noted. -/
theorem peaLand_nonOwner (v : Word) (ho : peaOwner c w ≠ k ∨ k = 0x3F) (h28 : k ≠ 0x28) (hlive : k ≠ liveCode) :
    peaLand k w v c = peaNoted 29 0 w k c := by
  rw [peaLand, if_neg (by tauto), if_neg (by tauto), peaNonOwner_eq]

/-- The MGE's write, where it may write, sets both values. -/
theorem peaLand_mge (v : Word) (h : (k = 0x28 ∧ c.sealed = false) ∨ k = liveCode) :
    WordPut w { v := v, sh := v, pend := false } c (peaLand k w v c) := by
  have hmge : k = 0x28 ∨ k = liveCode := h.imp_left And.left
  have hmay : (!c.sealed || decide (k = liveCode)) = true := by
    rcases h with ⟨-, hs⟩ | hk
    · rw [hs]; rfl
    · simp [hk]
  have hland : peaLand k w v c =
      peaPut w { v := v, sh := v, pend := false } (eccClear (peaVKey w) (eccClear (peaSKey w) c)) := by
    rw [peaLand, if_pos hmge, if_pos hmay]
  rw [hland]
  exact peaPut_wordPut w _ rfl rfl

/-! ### PEA_CMT (R223) -/

/-- A set of domains to which those that `p` names are added. -/
theorem domsAdded_getLsbD (p : Nat → Bool) (ds : List Nat) (b : BitVec 16) {i : Nat} (hi : i < 16) :
    (ds.foldl (fun v d => if p d then v ||| BitVec.ofNat 16 (2 ^ d) else v) b).getLsbD i =
      (b.getLsbD i || (decide (i ∈ ds) && p i)) := by
  induction ds generalizing b with
  | nil => simp
  | cons d ds ih =>
    have hbit : (BitVec.ofNat 16 (2 ^ d)).getLsbD i = decide (d = i) := by
      rw [BitVec.getLsbD_ofNat, Nat.testBit_two_pow, decide_eq_true hi, Bool.true_and]
    have hstep : (if p d then b ||| BitVec.ofNat 16 (2 ^ d) else b).getLsbD i = (b.getLsbD i || (decide (i = d) && p i)) := by
      by_cases hd : d = i
      · subst hd
        cases p d
        · simp
        · simp only [if_true, BitVec.getLsbD_or, hbit, decide_true, Bool.and_true]
      · split
        · rw [BitVec.getLsbD_or, hbit, decide_eq_false hd, decide_eq_false (Ne.symm hd), Bool.false_and]
        · rw [decide_eq_false (Ne.symm hd), Bool.false_and, Bool.or_false]
    rw [List.foldl_cons, ih, hstep, Bool.or_assoc, ← Bool.and_or_distrib_right, ← Bool.decide_or]
    simp only [List.mem_cons]

theorem peaCommitIf_doms (c : Chip) {i : Nat} (hi : i < 16) (h : p i = true) : (peaCommitIf p c).peaBus.doms.getLsbD i = true := by
  refine (domsAdded_getLsbD p _ _ hi).trans ?_
  simp [h, hi]

/-- A bit of the committer makes its domain commit. -/
theorem peaCmtWrite_commits {i : Nat} (hi : i < 16) (hv : v.bit i = true) (hd : domKind c i = 3) (hm : domCmtr c i = k)
    (hk : k < 0x28) : (peaCmtWrite k v c).peaBus.doms.getLsbD i = true := by
  have hc := peaCommitIf_doms (p := fun d => v.bit d && domKind c d == 3 && (domCmtr c d == k && decide (k < 0x28))) c hi
    (by simp [hv, hd, hm, hk])
  unfold peaCmtWrite
  dsimp only
  split
  · exact hc
  · exact hc

/-- A bit of any other identity sets CMTREJF. -/
theorem peaCmtWrite_rejected {i : Nat} (hi : i < 16) (hv : v.bit i = true) (hm : domCmtr c i ≠ k) :
    (peaCmtWrite k v c).bit peaStatR 1 = true := by
  have hany : (List.range 16).any (fun d => v.bit d && !(domCmtr c d == k && decide (k < 0x28))) = true :=
    List.any_eq_true.2 ⟨i, List.mem_range.2 hi, by simp [hv, hm]⟩
  have hwrite : ∃ d : Chip, peaCmtWrite k v c = d.setBits peaStatR (2 ^ 1) := ⟨_, if_pos hany⟩
  obtain ⟨d, hd⟩ := hwrite
  rw [hd]
  exact Chip.bit_setBits_pow d _ (by decide)

theorem peaCmtWrite_pea (k : Nat) (v : Word) (c : Chip) : (peaCmtWrite k v c).pea = c.pea := by
  unfold peaCmtWrite
  dsimp only
  split <;> rfl

/-! ### Commits (R222) -/

/-- `x` committed. -/
def PeaWord.committed (x : PeaWord) : PeaWord := { x with v := x.sh, pend := false }

/-- With no error in the memories a commit changes its word alone. -/
theorem peaCommitWord_clean (w : Nat) (h : c.ecc.bad = []) :
    (peaCommitWord w c).ecc.bad = [] ∧ (peaCommitWord w c).pea = (peaPut w (peaGet c w).committed c).pea := by
  have hports := portUse_portsOnly (peaSKey w) c
  have hpea : (portUse (peaSKey w) c).pea = c.pea := (portUse_errorsOnly _ c).pea
  have hput : (peaCommitWord w c).pea = (peaPut w (peaGet (portUse (peaSKey w) c) w).committed (portUse (peaSKey w) c)).pea := by
    simp only [peaCommitWord, eccRead_clean _ _ h, if_true]
    rfl
  refine ⟨?_, ?_⟩
  · simp only [peaCommitWord, eccRead_clean _ _ h, if_true]
    show adel (portUse (peaSKey w) c).ecc.bad _ = []
    rw [hports.bad, h]
    rfl
  · rw [hput, peaGet_congr hpea]
    simp only [peaPut, hpea]

theorem peaGet_peaCommitWord_self (h : c.ecc.bad = []) : peaGet (peaCommitWord w c) w = (peaGet c w).committed := by
  rw [peaGet_congr (peaCommitWord_clean w h).2, peaGet_peaPut_self]

theorem peaGet_peaCommitWord_ne (h : c.ecc.bad = []) (hu : u ≠ w) : peaGet (peaCommitWord w c) u = peaGet c u := by
  rw [peaGet_congr (peaCommitWord_clean w h).2, peaGet_peaPut_ne _ c hu]

/-- What the commits of a cycle do at one entry of the store; `c` is the chip as the commits begin. -/
def commitEntry (c d : Chip) (e : Nat × PeaWord) : Chip :=
  if e.2.pend && domCommits c (peaDom c e.1) then peaCommitWord e.1 d else d

theorem peaCommits_eq (c : Chip) : peaCommits c = c.pea.foldl (commitEntry c) c := rfl

theorem commitEntry_clean (e : Nat × PeaWord) (h : d.ecc.bad = []) : (commitEntry c d e).ecc.bad = [] := by
  unfold commitEntry
  split
  · exact (peaCommitWord_clean e.1 h).1
  · exact h

theorem peaGet_commitEntry_ne {e : Nat × PeaWord} (h : d.ecc.bad = []) (hu : u ≠ e.1) :
    peaGet (commitEntry c d e) u = peaGet d u := by
  unfold commitEntry
  split
  · exact peaGet_peaCommitWord_ne h hu
  · rfl

/-- The commits at entries of other words leave a word as it was. -/
theorem peaGet_commitEntries_ne {xs : List (Nat × PeaWord)} (h : d.ecc.bad = []) (hu : ∀ e ∈ xs, u ≠ e.1) :
    (xs.foldl (commitEntry c) d).ecc.bad = [] ∧ peaGet (xs.foldl (commitEntry c) d) u = peaGet d u :=
  List.foldlRecOn (motive := fun d' => d'.ecc.bad = [] ∧ peaGet d' u = peaGet d u) xs _ ⟨h, rfl⟩ fun _ ⟨hb, hg⟩ e he =>
    ⟨commitEntry_clean e hb, (peaGet_commitEntry_ne hb (hu e he)).trans hg⟩

theorem mem_of_aget {α : Type} {xs : List (Nat × α)} {a : Nat} {x : α} (h : aget xs a = some x) : (a, x) ∈ xs := by
  induction xs with
  | nil => cases h
  | cons e xs ih =>
    obtain ⟨b, y⟩ := e
    by_cases hb : b = a
    · subst hb
      have hy : y = x := by simpa [aget] using h
      exact hy ▸ List.mem_cons_self
    · exact List.mem_cons_of_mem _ (ih (by simpa [aget, hb] using h))

/-- A pending word is listed in the store. -/
theorem mem_pea_of_pend (h : (peaGet c w).pend = true) : (w, peaGet c w) ∈ c.pea := by
  cases hx : aget c.pea w with
  | none =>
    rw [peaGet, aread, hx] at h
    cases h
  | some x =>
    rw [peaGet, aread, hx]
    exact mem_of_aget hx

/-- A commit copies the shadow of a pending word of its domain: one entry of the store is the word's, and the others leave it. -/
theorem peaGet_peaCommits (hd : domCommits c (peaDom c w) = true) (hp : (peaGet c w).pend = true)
    (hwf : awf (fun _ => PeaWord.reset) c.pea = true) (hb : c.ecc.bad = []) :
    peaGet (peaCommits c) w = (peaGet c w).committed := by
  obtain ⟨before, after, hsplit⟩ := List.append_of_mem (mem_pea_of_pend hp)
  have hsorted := ((awf_iff _ _).1 hwf).2
  rw [hsplit, List.pairwise_append, List.pairwise_cons] at hsorted
  obtain ⟨-, ⟨hafter, -⟩, hbefore⟩ := hsorted
  obtain ⟨hb₁, hg₁⟩ := peaGet_commitEntries_ne (c := c) (u := w) hb fun e he =>
    (hbefore e he _ List.mem_cons_self).ne'
  have hcommit (d : Chip) : commitEntry c d (w, peaGet c w) = peaCommitWord w d := if_pos (by rw [hp, hd]; rfl)
  rw [peaCommits_eq, hsplit, List.foldl_append, List.foldl_cons, hcommit,
    (peaGet_commitEntries_ne (peaCommitWord_clean w hb₁).1 fun e he => (hafter e he).ne).2, peaGet_peaCommitWord_self hb₁, hg₁]

end

/-! ### The statement -/

/-- Settles O42: LE_CTL and the end of a loop engine's cycle, what is asked of the banks and served, what lands, and the commits. -/
theorem peaResults : Obligations.PeaResults := by
  unfold Obligations.PeaResults
  intro s ini n w v wr d r k hr c x ix others asks notLe turned
  have hasks {i : Instr} {q : PeaReq} {f : Chip → Chip} (he : exec i s = s.onChip f) (h : Asked q c (f c)) : asks i q :=
    goes_onChip hr he ⟨h.bus, h.resp, h.pea, h.regs⟩
  have hothers {e : Chip} {y : PeaWord} (h : WordPut w y c e) : peaGet e w = y ∧ others e ∧ e.regs = c.regs :=
    ⟨h.word, fun u hu => h.others u (Fin.val_ne_of_ne hu), h.regs⟩
  have hput (hle : notLe) : peaCmtPut ini v c.ack = peaCmtWrite ix v c.ack := by rw [peaCmtPut_shared v c.ack hle, peaCodeOf_ack]
  refine ⟨goes_leRun hr, leTurn_released, fun hs h0 => ?_, fun hh => ?_, fun ho => ?_, fun hle hg hf => ?_, peaTake_port,
    fun hw => ⟨fun hv => ?_, fun hv hc => ?_⟩, ⟨fun ho hk he => ?_, fun ho h28 hl => ?_, fun hm => ?_⟩,
    fun hg hle => ⟨fun hv hd hm hk => ?_, fun hv hm => ?_⟩, fun hg => ?_, fun hd hw hp hwf hb => ?_⟩
  · have hreset := leTurn_stopped hs h0
    exact ⟨hreset, coreLive_inReset hreset⟩
  · exact hasks rfl (peaPort_home wr c hh ▸ asked_peaAsk _ _ (some w.val) wr c)
  · refine (onChip_run hr).trans ?_
    rw [State.after, peaPort_outside wr c ho]
    rfl
  · exact hasks rfl (peaShared_asks hle hg hf ▸ asked_peaAsk _ _ (some w.val) wr c)
  · exact peaServe_write hw hv c
  · refine ⟨(peaServe_read hw hv hc c).1, fun he => peaServe_read_value hw hv hc w.isLt (he ▸ nofun), fun he => ?_⟩
    obtain ⟨hresp, hstat, hfltw⟩ := peaServe_read_failed hw hv hc w.isLt he
    exact ⟨hresp, hstat, hfltw.trans (fltwVal_of_lt w.isLt rfl)⟩
  · exact hothers (peaLand_owner v ho hk he)
  · rw [peaLand_nonOwner v ho h28 hl]
    exact ⟨peaNoted_pea 29 0 w k c, peaNoted_stat w k c rfl (by decide),
      (peaNoted_fltw 0 w k c rfl).trans (fltwVal_of_lt w.isLt rfl)⟩
  · exact hothers (peaLand_mge v hm)
  · exact goes_write hr rfl hg (hput hle) ⟨peaCmtWrite_commits d.isLt hv hd hm hk, peaCmtWrite_pea ix v c.ack⟩
  · exact goes_write hr rfl hg (hput hle) ⟨peaCmtWrite_rejected d.isLt hv hm, peaCmtWrite_pea ix v c.ack⟩
  · have hasked := asked_peaAsk (iniIx (.le n)) n.val none (some v) c
    exact goes_gatedWrite hr rfl hg ⟨hasked.bus, hasked.resp, hasked.pea, hasked.regs⟩
  · have hdom : domCommits c (peaDom c w) = true := by rw [domCommits, hw, hd, Bool.true_or]
    exact peaGet_peaCommits hdom hp hwf hb

end Sys2Proof.Machine

/-! PROOFS. The event matrix: where a delivered consumer pulse acts (01 R28). The happenings that it puts on the agenda of its cycle, one
equation for each range of channels, and what it leaves alone. -/

namespace Sys2Proof.Machine

/-! ### Happenings put on the agenda -/

section
variable (c : Chip)

@[simp] theorem later_nil : later [] c = c := by simp [later]

@[simp] theorem later_later (xs ys : List (Nat × Ev)) : later ys (later xs c) = later (xs ++ ys) c := by simp [later]

theorem schedule_eq_later (d : Nat) (i : Ev) : c.schedule d i = later [(c.now + d, i)] c := rfl

theorem mem_agenda_schedule (d : Nat) (i : Ev) : (c.now + d, i) ∈ (c.schedule d i).agenda :=
  List.mem_append_right _ List.mem_cons_self

/-- A scan that makes a happening of the cycle for each element with a property, one that the agenda does not decide. -/
theorem foldl_schedule {α : Type} {p : Chip → α → Prop} [∀ c x, Decidable (p c x)] (f : α → Ev)
    (hp : ∀ zs c x, p (later zs c) x ↔ p c x) (xs : List α) :
    xs.foldl (fun c x => if p c x then c.schedule 0 (f x) else c) c =
      later ((xs.filter (fun x => decide (p c x))).map (fun x => (c.now, f x))) c := by
  induction xs generalizing c with
  | nil => simp
  | cons x xs ih =>
    rw [List.foldl_cons]
    by_cases hx : p c x
    · rw [if_pos hx, schedule_eq_later, ih, later_later]
      simp only [hp, hx, decide_true, List.filter_cons_of_pos, List.map_cons]
      rfl
    · rw [if_neg hx, ih, List.filter_cons_of_neg (by simpa using hx)]

/-! ### Trip inputs (05 R132) and DMA channels (15 R357) -/

theorem tripEvents_later (e : Nat) : ∃ xs, tripEvents e c = later xs c := by
  unfold tripEvents
  split
  · exact ⟨_, foldl_schedule c (p := fun c (i : Fin 8) =>
      (c.reg (slR (Fin.ofNat 12 (e / 16)).val (0x8000 + 4 * i.val))).fld 0 3 = 4 ∧
        (c.reg (slR (Fin.ofNat 12 (e / 16)).val (0x8000 + 4 * i.val))).fld 3 5 = e % 16) _ (fun _ _ _ => Iff.rfl) _⟩
  · exact ⟨[], (later_nil c).symm⟩

/-- Only the channels of the slices drive trip inputs. -/
theorem tripEvents_of_le {e : Nat} (h : 192 ≤ e) : tripEvents e c = c := if_neg (by omega)

/-- The channels of a unit whose trigger line is enabled are triggered in the cycle. -/
theorem dmaLine_eq (u : Fin 2) (t : Nat) : dmaLine u t c =
    later (((List.finRange 32).filter (fun ch : Fin 32 => c.bit (dmaC u ch 0) 6 && c.fld (dmaC u ch 0) 2 4 == t)).map
      (fun ch => (c.now, Ev.dmaTrigger u ch))) c := by
  refine (foldl_schedule c (p := fun c (ch : Fin 32) => (c.bit (dmaC u ch 0) 6 && c.fld (dmaC u ch 0) 2 4 == t) = true)
    (Ev.dmaTrigger u) (fun _ _ _ => Iff.rfl) (List.finRange 32)).trans ?_
  simp only [Bool.decide_eq_true]

theorem mem_agenda_dmaLine {u : Fin 2} {t : Nat} {ch : Fin 32} (hen : c.bit (dmaC u ch 0) 6 = true)
    (hline : c.fld (dmaC u ch 0) 2 4 = t) : (c.now, Ev.dmaTrigger u ch) ∈ (dmaLine u t c).agenda := by
  rw [dmaLine_eq]
  exact List.mem_append_right _ (List.mem_map_of_mem (List.mem_filter.2 ⟨List.mem_finRange ch, by simp [hen, hline]⟩))

/-! ### The destinations (01 R28) -/

/-- `d` is `c` but for the agenda, the phase bases and the pins. -/
def DestOnly (c d : Chip) : Prop := ∃ ag pb pi, d = { c with agenda := ag, pbs := pb, pins := pi }

theorem DestOnly.regs {c d : Chip} (h : DestOnly c d) : d.regs = c.regs := by obtain ⟨_, _, _, rfl⟩ := h; rfl
theorem DestOnly.evm {c d : Chip} (h : DestOnly c d) : d.evm = c.evm := by obtain ⟨_, _, _, rfl⟩ := h; rfl

theorem DestOnly.ite {c d e : Chip} (p : Prop) [Decidable p] (h : DestOnly c d) (h' : DestOnly c e) :
    DestOnly c (if p then d else e) := by
  split
  · exact h
  · exact h'

theorem later_destOnly (xs : List (Nat × Ev)) : DestOnly c (later xs c) := ⟨_, _, _, rfl⟩

theorem consumerTo_destOnly (e : Nat) : DestOnly c (consumerTo e c) := by
  obtain ⟨xs, htrip⟩ := tripEvents_later c e
  have hsched (i : Ev) : DestOnly c ((later xs c).schedule 0 i) := ⟨_, _, _, rfl⟩
  have hdma (u : Fin 2) (t : Nat) : DestOnly c (dmaLine u t (later xs c)) := by
    rw [dmaLine_eq, later_later]
    exact later_destOnly c _
  unfold consumerTo
  rw [htrip]
  refine .ite _ (.ite _ (hsched _) (hsched _)) (.ite _ (hsched _) (.ite _ (hsched _)
    (.ite _ (.ite _ (hsched _) (later_destOnly c xs)) (.ite _ (hdma 0 _) (.ite _ (hdma 1 _) (.ite _ ?_ (.ite _ (hsched _) ?_)))))))
  · exact .ite _ ⟨_, _, _, rfl⟩ ⟨_, _, _, rfl⟩
  · exact ⟨_, _, _, rfl⟩

variable {e : Nat}

theorem ofNat_val_of_lt {n k : Nat} [NeZero n] (h : k < n) : (Fin.ofNat n k).val = k := Nat.mod_eq_of_lt h

theorem mem_agenda_consumerTo_sync (h : e < 192) (heven : e % 2 = 0) :
    (c.now, Ev.sync (Fin.ofNat 96 (e / 2)) false) ∈ (consumerTo e c).agenda := by
  obtain ⟨xs, htrip⟩ := tripEvents_later c e
  simp only [consumerTo, htrip, if_pos h, if_pos heven]
  exact mem_agenda_schedule (later xs c) 0 _

theorem mem_agenda_consumerTo_commit (h : e < 192) (hodd : ¬ e % 2 = 0) :
    (c.now, Ev.schCommit (Fin.ofNat 96 (e / 2))) ∈ (consumerTo e c).agenda := by
  obtain ⟨xs, htrip⟩ := tripEvents_later c e
  simp only [consumerTo, htrip, if_pos h, if_neg hodd]
  exact mem_agenda_schedule (later xs c) 0 _

theorem consumerTo_adc (hl : 192 ≤ e) (h : e < 256) :
    consumerTo e c = c.schedule 0 (.adcTrigger (Fin.ofNat 32 ((e - 192) / 2)) (Fin.ofNat 2 (e % 2))) := by
  simp (disch := omega) only [consumerTo, tripEvents_of_le, if_pos, if_neg]

theorem consumerTo_sdm (hl : 256 ≤ e) (h : e < 264) : consumerTo e c = c.schedule 0 (.sdmSync (Fin.ofNat 8 (e - 256))) := by
  simp (disch := omega) only [consumerTo, tripEvents_of_le, if_pos, if_neg]

/-- A capture channel takes the pulse while it records events. -/
theorem consumerTo_capture (hl : 264 ≤ e) (h : e < 328) (hk : c.fld0 (capR (e - 264) 0) 1 2 = 0) :
    consumerTo e c = c.schedule 0 (.captureEdge (Fin.ofNat 64 (e - 264)) true) := by
  have hval : (Fin.ofNat 64 (e - 264)).val = e - 264 := ofNat_val_of_lt (by omega)
  simp (disch := omega) only [consumerTo, tripEvents_of_le, if_pos, if_neg, hval]

theorem consumerTo_dma0 (hl : 328 ≤ e) (h : e < 344) : consumerTo e c = dmaLine 0 (e - 328) c := by
  simp (disch := omega) only [consumerTo, tripEvents_of_le, if_pos, if_neg]

theorem consumerTo_dma1 (hl : 344 ≤ e) (h : e < 360) : consumerTo e c = dmaLine 1 (e - 344) c := by
  simp (disch := omega) only [consumerTo, tripEvents_of_le, if_pos, if_neg]

/-- A phase base's note of a pulse in cycle `t`. -/
def PhaseBase.pulsed (t : Nat) (b : PhaseBase) : PhaseBase :=
  { b with evcPulse := some t, evcPrev := if b.evcPulse = some t then b.evcPrev else b.evcPulse }

theorem consumerTo_pb {p : Fin 8} (hp : Fin.ofNat 8 (e - 360) = p) (hl : 360 ≤ e) (h : e < 368) : consumerTo e c =
    if c.fld (pbR p 0x64) 0 5 = 16 then (updPb p (PhaseBase.pulsed c.now) c).schedule 0 (.disciplinePulse p)
    else updPb p (PhaseBase.pulsed c.now) c := by
  subst hp
  unfold consumerTo
  rw [tripEvents_of_le c (by omega), if_neg (by omega), if_neg (by omega), if_neg (by omega), if_neg (by omega), if_neg (by omega),
    if_neg (by omega), if_pos h]
  rfl

/-- A phase base notes the cycle of the pulse, which is its discipline input where PB_TDISC.SEL is 16 (02 R52). -/
theorem consumerTo_pb_acts {p : Fin 8} (hp : Fin.ofNat 8 (e - 360) = p) (hl : 360 ≤ e) (h : e < 368) :
    (consumerTo e c).pbs[p].evcPulse = some c.now ∧
      (c.fld (pbR (e - 360) 0x64) 0 5 = 16 → (c.now, Ev.disciplinePulse p) ∈ (consumerTo e c).agenda) := by
  have hval : p.val = e - 360 := hp ▸ ofNat_val_of_lt (by omega)
  have hpulse : (updPb p (PhaseBase.pulsed c.now) c).pbs[p].evcPulse = some c.now := congrArg PhaseBase.evcPulse (updPb_at p _ c)
  rw [consumerTo_pb c hp hl h, ← hval]
  refine ⟨?_, fun hsrc => ?_⟩
  · split <;> exact hpulse
  · rw [if_pos hsrc]
    exact mem_agenda_schedule (updPb _ _ c) 0 _

theorem consumerTo_arm (hl : 368 ≤ e) (h : e < 376) : consumerTo e c = c.schedule 0 (.arm (Fin.ofNat 8 (e - 368))) := by
  simp (disch := omega) only [consumerTo, tripEvents_of_le, if_pos, if_neg]

/-- The pulse on an output pin ends 17 cycles later. -/
theorem mem_agenda_consumerTo_evout (hl : 376 ≤ e) : (c.now + 17, Ev.evoutEnd (Fin.ofNat 8 (e - 376))) ∈ (consumerTo e c).agenda := by
  simp (disch := omega) only [consumerTo, tripEvents_of_le, if_neg]
  exact List.mem_append_right _ List.mem_cons_self

/-- What a pulse of channel `e` that the chip `c` meets brings at its destination (01 R28), in the chip `d` after it. -/
def PulseActs (e : Fin 384) (c d : Chip) : Prop :=
  let due (n : Nat) (x : Ev) : Prop := (c.now + n, x) ∈ d.agenda
  if e.val < 192 then
    (if e.val % 2 = 0 then due 0 (.sync (Fin.ofNat 96 (e.val / 2)) false) else due 0 (.schCommit (Fin.ofNat 96 (e.val / 2))))
  else if e.val < 256 then due 0 (.adcTrigger (Fin.ofNat 32 ((e.val - 192) / 2)) (Fin.ofNat 2 e.val))
  else if e.val < 264 then due 0 (.sdmSync (Fin.ofNat 8 (e.val - 256)))
  else if e.val < 328 then (c.fld0 (capR (e.val - 264) 0) 1 2 = 0 → due 0 (.captureEdge (Fin.ofNat 64 (e.val - 264)) true))
  else if e.val < 344 then
    ∀ ch : Fin 32, c.bit (dmaC 0 ch 0) 6 = true → c.fld (dmaC 0 ch 0) 2 4 = e.val - 328 → due 0 (.dmaTrigger 0 ch)
  else if e.val < 360 then
    ∀ ch : Fin 32, c.bit (dmaC 1 ch 0) 6 = true → c.fld (dmaC 1 ch 0) 2 4 = e.val - 344 → due 0 (.dmaTrigger 1 ch)
  else if e.val < 368 then d.pbs[Fin.ofNat 8 (e.val - 360)].evcPulse = some c.now ∧
    (c.fld (pbR (e.val - 360) 0x64) 0 5 = 16 → due 0 (.disciplinePulse (Fin.ofNat 8 (e.val - 360))))
  else if e.val < 376 then due 0 (.arm (Fin.ofNat 8 (e.val - 368)))
  else due 17 (.evoutEnd (Fin.ofNat 8 (e.val - 376)))

theorem consumerTo_pulseActs (e : Fin 384) : PulseActs e c (consumerTo e c) := by
  have hsched {f : Ev} (heq : consumerTo e c = c.schedule 0 f) : (c.now + 0, f) ∈ (consumerTo e c).agenda :=
    heq ▸ mem_agenda_schedule c 0 f
  have htrig (u : Fin 2) {n : Nat} (heq : consumerTo e c = dmaLine u n c) (ch : Fin 32) (hen : c.bit (dmaC u ch 0) 6 = true)
      (hline : c.fld (dmaC u ch 0) 2 4 = n) : (c.now + 0, Ev.dmaTrigger u ch) ∈ (consumerTo e c).agenda :=
    heq ▸ mem_agenda_dmaLine c hen hline
  unfold PulseActs
  split_ifs with hpwm heven hadc hsdm hcap hdma0 hdma1 hbase harm
  · exact mem_agenda_consumerTo_sync c hpwm heven
  · exact mem_agenda_consumerTo_commit c hpwm heven
  · rw [show Fin.ofNat 2 e.val = Fin.ofNat 2 (e.val % 2) from Fin.ext (Nat.mod_mod _ _).symm]
    exact hsched (consumerTo_adc c (Nat.le_of_not_lt hpwm) hadc)
  · exact hsched (consumerTo_sdm c (Nat.le_of_not_lt hadc) hsdm)
  · exact fun hk => hsched (consumerTo_capture c (Nat.le_of_not_lt hsdm) hcap hk)
  · exact htrig 0 (consumerTo_dma0 c (Nat.le_of_not_lt hcap) hdma0)
  · exact htrig 1 (consumerTo_dma1 c (Nat.le_of_not_lt hdma0) hdma1)
  · exact consumerTo_pb_acts c rfl (Nat.le_of_not_lt hdma1) hbase
  · exact hsched (consumerTo_arm c (Nat.le_of_not_lt hbase) harm)
  · exact mem_agenda_consumerTo_evout c (Nat.le_of_not_lt harm)

/-- A destination reads of the chip its cycle and the registers of its capture channel, DMA channels and phase base. -/
theorem PulseActs.congr {e : Fin 384} {c x d : Chip} (hnow : x.now = c.now) (hregs0 : x.regs0 = c.regs0)
    (hdma : ∀ u ch, x.reg (dmaC u ch 0) = c.reg (dmaC u ch 0)) (hpb : ∀ p, x.reg (pbR p 0x64) = c.reg (pbR p 0x64))
    (h : PulseActs e x d) : PulseActs e c d := by
  simp only [PulseActs, Chip.fld0, Chip.reg0, Chip.bit, Chip.fld, hnow, hregs0, hdma, hpb] at h ⊢
  exact h

end

end Sys2Proof.Machine

/-! PROOFS. The event matrix: loop guards and gates (10 R235, R239, R241), the writes of EVM_GCFG and EVM_LGSTAT (R239, R242, R243), and
the statement on them. -/

namespace Sys2Proof.Machine

/-! ### Raising a fault leaves the matrix (21 R479): its event pulses a cycle later -/

theorem setCause_evm (b s : Nat) (c : Chip) : (setCause b s c).evm = c.evm := by
  simp only [setCause, updCauses]; split <;> rfl

theorem setCause_foldl_evm (b : Nat) (xs : List Nat) (c : Chip) : (xs.foldl (fun c s => setCause b s c) c).evm = c.evm :=
  foldl_keeps (·.evm) _ (fun c s => setCause_evm b s c) xs c

theorem reactDevice_evm (c : Chip) : (reactDevice c).evm = c.evm := by
  have h : (setCauseAll causeDevflt c).evm = c.evm := setCause_foldl_evm _ _ c
  unfold reactDevice
  dsimp only
  split
  · exact h
  · exact h

theorem standReact_evm (i : Nat) (c : Chip) : (standReact i c).evm = c.evm := by
  simp only [standReact]
  split <;> split <;> simp [reactDevice_evm, setCause_foldl_evm]

theorem applyReact_evm (i : Nat) (c : Chip) : (applyReact i c).evm = c.evm := by
  simp only [applyReact, evPulseIn]
  split <;> split <;> simp [standReact_evm]

theorem raiseFault_evm (i : Nat) (detail : Word) (c : Chip) : (raiseFault i detail c).evm = c.evm := by
  simp only [raiseFault]
  split
  · rfl
  · split
    · exact standReact_evm i _
    · exact applyReact_evm i _

section
variable {c : Chip} {p : EvmPulse} {e g : Nat}

/-! ### The latch of a loop guard (R241) -/

theorem guardLatch_evm (g : Nat) (c : Chip) : (guardLatch g c).evm = c.evm := raiseFault_evm 31 _ (c.setBits evmLgstatR (2 ^ g))

theorem guardLatch_latched (c : Chip) (hg : g < 32) : (guardLatch g c).bit evmLgstatR g = true := by
  have hreg : (guardLatch g c).reg evmLgstatR = (c.setBits evmLgstatR (2 ^ g)).reg evmLgstatR :=
    raiseFault_reg_below _ _ rfl (by decide)
  rw [Chip.bit, hreg]
  exact Chip.bit_setBits_pow c evmLgstatR hg

/-- A latched loop guard holds the gate closed. -/
theorem gateOpen_latched (h : c.bit evmLgstatR g = true) : gateOpen c g = false := by simp [gateOpen, h]

/-! ### Judging a pulse by its loop guard -/

/-- What the loop guard makes of one pulse: the latch, where the gate is open and the pulse is one too many. -/
def guardJudge (p : EvmPulse) (c : Chip) : Chip := if gateOpen c p.grp && guardTrips c p then guardLatch p.grp c else c

theorem guardAll_eq (c : Chip) : guardAll c = (c.evm.pipe.filter (fun p => p.due == c.now)).foldl (fun c p => guardJudge p c) c := rfl

theorem guardJudge_unguarded (c : Chip) (h : p.guard = none) : guardJudge p c = c := by simp [guardJudge, guardTrips, h]

theorem guardJudge_closed (h : gateOpen c p.grp = false) : guardJudge p c = c := by simp [guardJudge, h]

theorem guardJudge_trips (ho : gateOpen c p.grp = true) (ht : guardTrips c p = true) : guardJudge p c = guardLatch p.grp c := by
  simp [guardJudge, ho, ht]

/-- Pulses that each leave the chip as it is leave it so together. -/
theorem foldl_guardJudge_eq_self {ps : List EvmPulse} (h : ∀ q ∈ ps, guardJudge q c = c) : ps.foldl (fun c p => guardJudge p c) c = c :=
  List.foldlRecOn (motive := (· = c)) ps _ rfl fun _ hd q hq => hd ▸ h q hq

/-- In a cycle whose pulses have no loop guard none acts. -/
theorem guardAll_calm (h : ∀ q ∈ c.evm.pipe, q.due = c.now → q.guard = none) : guardAll c = c := by
  refine foldl_guardJudge_eq_self fun q hq => guardJudge_unguarded c ?_
  obtain ⟨hpipe, hdue⟩ := List.mem_filter.1 hq
  exact h q hpipe (beq_iff_eq.1 hdue)

/-- Where the pulses of the cycle are one, which its loop guard stops, the latch is set once: judged again it meets a closed
gate. -/
theorem guardJudge_guardAll_trips (hall : ∀ q ∈ c.evm.pipe, q.due = c.now → q = p) (hg : p.grp < 32) (ho : gateOpen c p.grp = true)
    (ht : guardTrips c p = true) : guardJudge p (guardAll c) = guardLatch p.grp c := by
  have hagain : guardJudge p (guardLatch p.grp c) = guardLatch p.grp c := guardJudge_closed (gateOpen_latched (guardLatch_latched c hg))
  have hone : ∀ q ∈ c.evm.pipe.filter (fun p => p.due == c.now), q = p := fun q hq => by
    obtain ⟨hpipe, hdue⟩ := List.mem_filter.1 hq
    exact hall q hpipe (beq_iff_eq.1 hdue)
  rw [guardAll_eq]
  generalize c.evm.pipe.filter (fun p => p.due == c.now) = ps at hone
  cases ps with
  | nil => exact guardJudge_trips ho ht
  | cons q qs =>
    obtain ⟨rfl, hqs⟩ := List.forall_mem_cons.1 hone
    rw [List.foldl_cons, guardJudge_trips ho ht, foldl_guardJudge_eq_self fun r hr => hqs r hr ▸ hagain, hagain]

/-! ### A consumer pulse (R235) -/

/-- The pulse of channel `e` has left the pipeline. -/
def pulseTaken (e : Nat) (c : Chip) : Chip :=
  { c with evm := { c.evm with pipe := c.evm.pipe.filter (fun q => !(q.due == c.now && q.ch == e)),
                               co := c.evm.co.filter (fun q => !(q == (c.now, e))) } }

/-- It is counted and passed on; one that coincides sets its flag. -/
def pulseCounted (e : Nat) (c : Chip) : Chip :=
  let d := pulseTaken e c
  let d := { d with evm := { d.evm with counts := d.evm.counts ++ [(d.now, e)] } }
  if c.evm.co.contains (c.now, e) then d.setBits (evmCoincR (e / 32)) (2 ^ (e % 32)) else d

theorem consumerNow_eq (e : Nat) (c : Chip) : consumerNow e c =
    let d := guardJudge (pulseDue c e) (guardAll (gatesNow c))
    if gateOpen d (pulseDue c e).grp = true then consumerTo e (pulseCounted e d) else pulseTaken e d := rfl

theorem pulseCounted_now (e : Nat) (c : Chip) : (pulseCounted e c).now = c.now := by
  simp only [pulseCounted]
  split <;> rfl

theorem pulseCounted_regs0 (e : Nat) (c : Chip) : (pulseCounted e c).regs0 = c.regs0 := by
  simp only [pulseCounted]
  split <;> rfl

theorem pulseCounted_counts (e : Nat) (c : Chip) : (pulseCounted e c).evm.counts = c.evm.counts ++ [(c.now, e)] := by
  simp only [pulseCounted]
  split <;> rfl

theorem pulseCounted_reg_ne (c : Chip) {a : Nat} (ha : a ≠ evmCoincR (e / 32)) : (pulseCounted e c).reg a = c.reg a := by
  simp only [pulseCounted]
  split
  · exact Chip.reg_setBits_ne _ _ ha
  · rfl

/-- A pulse that is counted and passed on acts at its destination as the chip before it says. -/
theorem consumerTo_pulseCounted_acts (e : Fin 384) (c : Chip) : PulseActs e c (consumerTo e (pulseCounted e c)) :=
  (consumerTo_pulseActs (pulseCounted e c) e).congr (pulseCounted_now e c) (pulseCounted_regs0 e c)
    (fun u ch => pulseCounted_reg_ne c (by simp only [dmaC, dmaR, evmCoincR]; omega))
    (fun p => pulseCounted_reg_ne c (by simp only [pbR, evmCoincR]; omega))

/-- The pulse that is due is one of its channel. -/
theorem pulseDue_ch (c : Chip) (e : Nat) : (pulseDue c e).ch = e := by
  unfold pulseDue
  cases hfind : c.evm.pipe.find? (fun p => p.due == c.now && p.ch == e) with
  | none => rfl
  | some q =>
    have hq := List.find?_some hfind
    simp only [Bool.and_eq_true, beq_iff_eq] at hq
    exact hq.2

/-- In a cycle with no loop guard at work the gate alone decides. -/
theorem consumerNow_calm (hp : (pulseDue c e).guard = none) (hq : ∀ q ∈ c.evm.pipe, q.due = c.now → q.guard = none) :
    consumerNow e c = if gateOpen (gatesNow c) (pulseDue c e).grp = true then consumerTo e (pulseCounted e (gatesNow c))
      else pulseTaken e (gatesNow c) := by
  have hcalm : guardAll (gatesNow c) = gatesNow c := guardAll_calm (c := gatesNow c) hq
  rw [consumerNow_eq, hcalm, guardJudge_unguarded _ hp]

/-- A pulse that exceeds its group's loop guard, alone in its cycle, is not delivered and sets the latch. -/
theorem consumerNow_trips {lim : Nat} (hp : (pulseDue c e).guard = some lim) (hlim : lim < pulseCount c e + 1)
    (hg : (pulseDue c e).grp < 32) (ho : gateOpen (gatesNow c) (pulseDue c e).grp = true)
    (hall : ∀ q ∈ c.evm.pipe, q.due = c.now → q = pulseDue c e) :
    consumerNow e c = pulseTaken e (guardLatch (pulseDue c e).grp (gatesNow c)) := by
  have htrips : guardTrips (gatesNow c) (pulseDue c e) = true := by
    rw [guardTrips, hp, pulseDue_ch]
    exact decide_eq_true hlim
  have hclosed := gateOpen_latched (guardLatch_latched (gatesNow c) hg)
  rw [consumerNow_eq, guardJudge_guardAll_trips (c := gatesNow c) hall hg ho htrips]
  simp only [hclosed, Bool.false_eq_true, if_false]

/-! ### The writes of software (R239, R242, R243, R245) -/

/-- In CONFIGURED a write of EVM_GCFG sets its writable bits, and one with GATED brings the INIT state in the next cycle. -/
theorem evmGcfgWrite_configured (ini : Initiator) (g : Nat) (v : Word) (h : c.devState = stConfigured) :
    (evmGcfgWrite ini g v c).regs = (c.setReg (evmGcfgR g) (v &&& 0x00F1FF03)).regs ∧
      (v.bit 0 = true → (c.now + 1, g, v.bit 1) ∈ (evmGcfgWrite ini g v c).evm.init) := by
  have h0 : (v &&& 0x00F1FF03).bit 0 = v.bit 0 := by simp [Word.bit]
  have h1 : (v &&& 0x00F1FF03).bit 1 = v.bit 1 := by simp [Word.bit]
  simp only [evmGcfgWrite, h, beq_self_eq_true, Bool.true_or, Bool.not_true, Bool.false_eq_true, if_false, if_true, h0, h1]
  split
  · exact ⟨rfl, fun _ => List.mem_append_right _ List.mem_cons_self⟩
  next hv => exact ⟨rfl, fun hv' => absurd hv' hv⟩

/-- What a write of `v` clears of EVM_LGSTAT (00 R8). -/
theorem lgstatWrite_regs (v : Word) (c : Chip) :
    (lgstatWrite v c).regs = (c.setReg evmLgstatR (c.reg evmLgstatR &&& ~~~ (v &&& ~~~ c.fresh1 evmLgstatR))).regs := by
  have hmask : c.w1c evmLgstatR 0xFFFFFFFF v = c.reg evmLgstatR &&& ~~~ (v &&& ~~~ c.fresh1 evmLgstatR) :=
    congrArg (fun m => c.reg evmLgstatR &&& ~~~ (m &&& ~~~ c.fresh1 evmLgstatR)) BitVec.and_allOnes
  rw [← hmask]
  rfl

theorem lgstatWrite_counts (v : Word) (c : Chip) :
    (lgstatWrite v c).evm.counts = c.evm.counts.filter (fun q => !v.bit (groupOf c q.2)) := rfl

end

/-! ### The statement -/

/-- A state whose register file differs in the register `a` alone, which holds `v`. -/
theorem reg_and_but_of_setReg {s t : State} {a : Nat} {v : Word} (h : t.chip.regs = (s.chip.setReg a v).regs) :
    t.chip.reg a = v ∧ RegsBut s t [a] :=
  ⟨(Chip.reg_congr h a).trans (Chip.reg_setReg_self _ a v),
    fun b hb => (Chip.reg_congr h b).trans (Chip.reg_setReg_ne _ v (by simpa using hb))⟩

/-- Settles O44: a pulse by its gate and its loop guard, where it acts by the range of its channel, and the two writes. -/
theorem eventMatrix : Obligations.EventMatrix := by
  unfold Obligations.EventMatrix
  intro s ini e g v hr c d p calm dest
  have hpulse {P : State → Prop} (h : P (s.after (consumerNow e))) : Goes (.consumerPulse e) s P := goes_onChip hr rfl h
  refine ⟨fun ho ⟨hp, hq⟩ => hpulse ?_, fun ho ⟨hp, hq⟩ => hpulse ?_, fun lim hp hlim hg ho hall => hpulse ?_, fun hg hst => ?_,
    fun hg => ?_⟩
  · have hchip : (s.after (consumerNow e)).chip = consumerTo e (pulseCounted e (gatesNow c)) :=
      (consumerNow_calm hp hq).trans (if_pos ho)
    have hkept := consumerTo_destOnly (pulseCounted e (gatesNow c)) e
    have hacts : PulseActs e c (s.after (consumerNow e)).chip := by
      rw [hchip]
      exact consumerTo_pulseCounted_acts e (gatesNow c)
    refine ⟨hacts, ?_, fun a ha => ?_⟩
    · rw [hchip, hkept.evm]
      exact pulseCounted_counts e.val (gatesNow c)
    · rw [hchip, Chip.reg_congr hkept.regs]
      exact pulseCounted_reg_ne (gatesNow c) (by simpa using ha)
  · have hchip : (s.after (consumerNow e)).chip = pulseTaken e (gatesNow c) :=
      (consumerNow_calm hp hq).trans (if_neg (Bool.eq_false_iff.1 ho))
    rw [hchip]
    exact ⟨rfl, rfl, rfl⟩
  · rw [State.after_chip, consumerNow_trips hp hlim hg ho fun q hq hdue => (hall q hq hdue).2]
    have hcounts : (guardLatch p.grp (gatesNow c)).evm.counts = (gatesNow c).evm.counts :=
      congrArg Evm.counts (guardLatch_evm _ _)
    exact ⟨guardLatch_latched _ hg, hcounts⟩
  · obtain ⟨hregs, hinit⟩ := evmGcfgWrite_configured (c := s.chip.ack) ini g.val v hst
    obtain ⟨hself, hbut⟩ := reg_and_but_of_setReg (t := s.after fun c => evmGcfgWrite ini g v c.ack) hregs
    exact goes_gatedWrite hr rfl hg ⟨hself, hbut, hinit⟩
  · obtain ⟨hself, hbut⟩ := reg_and_but_of_setReg (t := s.after fun c => lgstatWrite v c.ack) (lgstatWrite_regs v s.chip.ack)
    exact goes_gatedWrite hr rfl hg ⟨hself, hbut, lgstatWrite_counts v s.chip.ack⟩

end Sys2Proof.Machine
